-- ==== Sys2Proof/Word.lean ====
section
/-!
DEFINITION. Word: the widths of the FK8200's values.
-/
namespace Sys2Proof

/-- A scalar register, a management register, a word of memory. -/
abbrev Word := BitVec 64
/-- A byte of memory. -/
abbrev Byte := BitVec 8
/-- A byte offset in a code image (R77). -/
abbrev Offset := BitVec 24
/-- A 256-byte row of memory (R263). -/
abbrev Row := BitVec 2048
/-- A vector register: eight rows (R170). -/
abbrev VReg := BitVec 16384
/-- A predicate register: one bit per byte of a vector register (R193). -/
abbrev Pred := BitVec 2048

/-- Bits [hi:lo] of x as an unsigned value (R10). -/
def bitsOf {n : Nat} (x : BitVec n) (hi lo : Nat) : Nat := x.toNat / 2 ^ lo % 2 ^ (hi + 1 - lo)

end Sys2Proof
end

