-- ==== Sys2Proof/Syntax.lean ====
section
/-!
DEFINITION. Syntax: the instructions of the FK8200, one constructor per row of the opcode table, and the slot words that carry them.
-/
namespace Sys2Proof

/-- The eight slots of a bundle, in order of header bit (R83). -/
inductive Slot where
  | ctl | sca | adr | va | vb | mat | mem | com
deriving DecidableEq, Repr

/-- The header bit of a slot (R83). -/
def Slot.bit : Slot → Nat
  | .ctl => 0 | .sca => 1 | .adr => 2 | .va => 3 | .vb => 4 | .mat => 5 | .mem => 6 | .com => 7

/-- The slots in ascending order of header bit. -/
def Slot.all : List Slot := [.ctl, .sca, .adr, .va, .vb, .mat, .mem, .com]

/-- Whether the slot's words are 48 bits wide rather than 32 (R83). -/
def Slot.isWide : Slot → Bool
  | .va | .vb | .mat | .mem => true
  | .ctl | .sca | .adr | .com => false

/-- Bytes of one slot word (R83). -/
def Slot.bytes (t : Slot) : Nat := if t.isWide then 6 else 4

/-- How an operation names its element format (R88): a column of the active format-table row, or an explicit code. -/
inductive FmtSel where
  | column (f : Fin 8)
  | code (c : Fin 16)
deriving DecidableEq, Repr

/-- The system registers (R162). -/
inductive SysReg where
  | taskid | ticket | jobid | partid | coreid | quadid | dieid | pkgid | ctxid | prio | wexp | cflags
  | epolicyS | epolicyV (k : Fin 4) | ftbase | ftsel | xfer | teamcyc | jnlbase
  | trapvec | traparea | epc | exfer | estat | mode
deriving DecidableEq, Repr

/-- The number of a system register (R162). -/
def SysReg.number : SysReg → Nat
  | .taskid => 0x000 | .ticket => 0x001 | .jobid => 0x002 | .partid => 0x003 | .coreid => 0x004
  | .quadid => 0x005 | .dieid => 0x006 | .pkgid => 0x007 | .ctxid => 0x008 | .prio => 0x009
  | .wexp => 0x00A | .cflags => 0x00B | .epolicyS => 0x010 | .epolicyV k => 0x011 + k.val
  | .ftbase => 0x018 | .ftsel => 0x019 | .xfer => 0x01A | .teamcyc => 0x01B | .jnlbase => 0x020
  | .trapvec => 0x030 | .traparea => 0x031 | .epc => 0x032 | .exfer => 0x033 | .estat => 0x034
  | .mode => 0x035

/-- A write to these registers is privileged (R162). -/
def SysReg.privileged : SysReg → Bool
  | .trapvec | .traparea | .epc | .exfer | .estat => true
  | .taskid | .ticket | .jobid | .partid | .coreid | .quadid | .dieid | .pkgid | .ctxid | .prio | .wexp
  | .cflags | .epolicyS | .epolicyV _ | .ftbase | .ftsel | .xfer | .teamcyc | .jnlbase | .mode => false

/-- Where one logical core of a team is placed: logical core, physical core and context (R51, R65).
The choice is the scheduler's own, so it stands in the step's operands (log 16). -/
structure Place where
  logical : Fin 128
  core : Fin 128
  ctx : Fin 8
deriving DecidableEq, Repr

/-- What a member of a collective sends to member 0: its rank, its signature and its lowest failing cause, 0 for a pass (R376). -/
structure Vote where
  member : Nat
  sig : Nat
  cause : Nat
deriving DecidableEq, Repr

/-- Where an ECC error lies (R412). -/
inductive EccSite where
  | row (key : Nat)
  | scalar (core : Fin 128) (ctx : Fin 8) (r : Fin 64)
  | vector (core : Fin 128) (ctx : Fin 8) (r : Fin 256)
  | frame (core : Fin 128) (i : Nat)
  | array (quad : Fin 32) (arr : Fin 4)
  | cell (quad : Fin 32) (id : Nat)
  | arrival (core : Fin 128) (i : Nat)
  | entry (queue : Fin 1024) (i : Nat)
  | record (part : Fin 16) (level : Fin 32) (i : Nat)
deriving DecidableEq, Repr

/-- The arrays that enter retention (R413): a quad's scratchpad or a die's Big Top slice. -/
inductive ArrayId where
  | scratch (q : Fin 32)
  | bigTop (d : Fin 4)
deriving DecidableEq, Repr

/-- A firmware image in a flash bank: the outcome of its two signature checks, its security version and its digest (R432, R433).
The bytes of an image, and the checking of a signature over them, are no part of the model (log 17). -/
structure BankImage where
  ed25519Ok : Bool
  mldsaOk : Bool
  svn : BitVec 32
  digest : BitVec 384
deriving DecidableEq, Repr

/-- A PLDM Type 5 update (R428): the source that `State.mctpServed` reads (none over I3C) and the image it brings. -/
structure FwUpdate where
  src : Option (BitVec 8)
  image : BankImage
deriving DecidableEq, Repr

/-- The instruction set: one constructor per row of the opcode table.
The first 212 are the slot instructions in the table's order, the rest are the indivisible steps of the part's other agents. -/
inductive Instr where
  /-- NOP_C (R94). CTL-slot no-operation; with S set it holds its slot until older bundles commit. -/
  | nopC
  /-- PREP (R122). Writes a PC-relative branch target into a bt register. -/
  | prep (t : Fin 4) (off : BitVec 22)
  /-- PREPS (R122). Writes bits [23:0] of a scalar into a bt register as a branch target. -/
  | preps (t : Fin 4) (a : Fin 64)
  /-- BR (R123). Transfers control to bt after two delay bundles when the condition bit is true. -/
  | br (c : Fin 8) (t : Fin 4)
  /-- JMP (R123). Unconditional transfer to bt after two delay bundles. -/
  | jmp (t : Fin 4)
  /-- CALL (R123). Unconditional transfer to bt that writes the return offset into s63. -/
  | call (t : Fin 4)
  /-- RET (R123). Transfers control to the offset held in s63 after two delay bundles. -/
  | ret
  /-- BRN (R123). Transfers control to bt after two delay bundles when the condition bit is false. -/
  | brn (c : Fin 8) (t : Fin 4)
  /-- LOOP (R129). Arms a hardware loop with a count taken from a scalar. -/
  | loop (l : Fin 4) (a : Fin 64) (fin : BitVec 12)
  /-- LOOPI (R129). Arms a hardware loop with an immediate count. -/
  | loopi (l : Fin 4) (n : BitVec 10) (fin : BitVec 12)
  /-- LOOPQ (R130). Arms a hardware loop with a count popped from a count queue. -/
  | loopq (l : Fin 4) (q : Fin 4) (fin : BitVec 12)
  /-- LBRK (R133). Makes an armed loop fall through at its next decision. -/
  | lbrk (l : Fin 4)
  /-- SUSPEND (R137). Ends the task's run, writes its continuation record and pushes it to its task queue. -/
  | suspend
  /-- END (R415). Ends the task: drains path C, publishes, releases locks, emits deferred work, adds weight, frees the context. -/
  | endTask
  /-- SPAWN (R140). Creates a child task from a 64-byte local image and halves the parent's share. -/
  | spawn (a : Fin 64)
  /-- YIELD (R138). Acts as SUSPEND when other work waits for the core, otherwise as a no-operation. -/
  | yield
  /-- WAITA (R141). Tests a local word against a value and sleeps until a re-test passes. -/
  | waita (a : Fin 64) (b : Fin 64) (mode : Fin 4)
  /-- ARM (R142). Turns a free context of the core into a dormant handler context of a given class. -/
  | arm (a : Fin 64) (b : Fin 64)
  /-- LAUNCH (R143). Enters a local job card into the partition's pending-launch pool. -/
  | launch (a : Fin 64)
  /-- BAR (R144). Registers the team context's arrival at a barrier of a scope and waits for its release. -/
  | bar (scope : Fin 8) (id : Fin 64)
  /-- TRAP (R145). Commits its bundle and takes a SOFTWARE trap carrying n. -/
  | trap (n : BitVec 12)
  /-- ERET (R395). Ends supervisor mode and resumes, restarts or abandons the task as ESTAT.ACTION selects. -/
  | eret
  /-- NOP_S (R94). SCA-slot no-operation. -/
  | nopS
  /-- NOP_A (R94). ADR-slot no-operation. -/
  | nopA
  /-- ADD (R150). Integer add modulo 2^64. -/
  | add (d : Fin 64) (a : Fin 64) (b : Fin 64)
  /-- SUB (R150). Integer subtract modulo 2^64. -/
  | sub (d : Fin 64) (a : Fin 64) (b : Fin 64)
  /-- MUL (R150). Integer multiply, low 64 bits. -/
  | mul (d : Fin 64) (a : Fin 64) (b : Fin 64)
  /-- MULH (R150). Signed multiply, high 64 bits. -/
  | mulh (d : Fin 64) (a : Fin 64) (b : Fin 64)
  /-- MULHU (R150). Unsigned multiply, high 64 bits. -/
  | mulhu (d : Fin 64) (a : Fin 64) (b : Fin 64)
  /-- DIV (R151). Signed division rounding towards zero with fixed results for zero divisor and overflow. -/
  | div (d : Fin 64) (a : Fin 64) (b : Fin 64)
  /-- DIVU (R151). Unsigned division. -/
  | divu (d : Fin 64) (a : Fin 64) (b : Fin 64)
  /-- REM (R151). Signed remainder with the sign of the dividend. -/
  | rem (d : Fin 64) (a : Fin 64) (b : Fin 64)
  /-- REMU (R151). Unsigned remainder. -/
  | remu (d : Fin 64) (a : Fin 64) (b : Fin 64)
  /-- AND (R150). Bitwise AND. -/
  | and (d : Fin 64) (a : Fin 64) (b : Fin 64)
  /-- OR (R150). Bitwise OR. -/
  | or (d : Fin 64) (a : Fin 64) (b : Fin 64)
  /-- XOR (R150). Bitwise exclusive OR. -/
  | xor (d : Fin 64) (a : Fin 64) (b : Fin 64)
  /-- ANDN (R150). Bitwise a AND NOT b. -/
  | andn (d : Fin 64) (a : Fin 64) (b : Fin 64)
  /-- SHL (R150). Shift left by b modulo 64. -/
  | shl (d : Fin 64) (a : Fin 64) (b : Fin 64)
  /-- SHR (R150). Logical shift right by b modulo 64. -/
  | shr (d : Fin 64) (a : Fin 64) (b : Fin 64)
  /-- SRA (R150). Arithmetic shift right by b modulo 64. -/
  | sra (d : Fin 64) (a : Fin 64) (b : Fin 64)
  /-- ROTL (R150). Rotate left by b modulo 64. -/
  | rotl (d : Fin 64) (a : Fin 64) (b : Fin 64)
  /-- MIN (R150). Signed minimum. -/
  | min (d : Fin 64) (a : Fin 64) (b : Fin 64)
  /-- MAX (R150). Signed maximum. -/
  | max (d : Fin 64) (a : Fin 64) (b : Fin 64)
  /-- MINU (R150). Unsigned minimum. -/
  | minu (d : Fin 64) (a : Fin 64) (b : Fin 64)
  /-- MAXU (R150). Unsigned maximum. -/
  | maxu (d : Fin 64) (a : Fin 64) (b : Fin 64)
  /-- SHLADD (R150). Shift a left by 0-3 and add b. -/
  | shladd (d : Fin 64) (a : Fin 64) (b : Fin 64) (sh : Fin 4)
  /-- MADD (R150). Multiply a by b and add a third scalar. -/
  | madd (d : Fin 64) (a : Fin 64) (b : Fin 64) (x : Fin 64)
  /-- CLZ (R152). Counts leading zero bits. -/
  | clz (d : Fin 64) (a : Fin 64)
  /-- CTZ (R152). Counts trailing zero bits. -/
  | ctz (d : Fin 64) (a : Fin 64)
  /-- POPC (R152). Counts one bits. -/
  | popc (d : Fin 64) (a : Fin 64)
  /-- EXTR (R152). Extracts an unsigned bit field. -/
  | extr (d : Fin 64) (a : Fin 64) (lo : Fin 64) (w1 : Fin 64)
  /-- DEP (R152). Deposits the low bits of a into a field of d. -/
  | dep (d : Fin 64) (a : Fin 64) (lo : Fin 64) (w1 : Fin 64)
  /-- ADDI (R153). Adds a sign-extended 12-bit immediate. -/
  | addi (d : Fin 64) (a : Fin 64) (imm : BitVec 12)
  /-- ANDI (R153). ANDs with a sign-extended 12-bit immediate. -/
  | andi (d : Fin 64) (a : Fin 64) (imm : BitVec 12)
  /-- ORI (R153). ORs with a sign-extended 12-bit immediate. -/
  | ori (d : Fin 64) (a : Fin 64) (imm : BitVec 12)
  /-- XORI (R153). XORs with a sign-extended 12-bit immediate. -/
  | xori (d : Fin 64) (a : Fin 64) (imm : BitVec 12)
  /-- SHLI (R153). Shifts left by an immediate count. -/
  | shli (d : Fin 64) (a : Fin 64) (sh : Fin 64)
  /-- SHRI (R153). Shifts right logically by an immediate count. -/
  | shri (d : Fin 64) (a : Fin 64) (sh : Fin 64)
  /-- SRAI (R153). Shifts right arithmetically by an immediate count. -/
  | srai (d : Fin 64) (a : Fin 64) (sh : Fin 64)
  /-- LDI (R154). Loads a sign-extended 18-bit immediate. -/
  | ldi (d : Fin 64) (imm : BitVec 18)
  /-- LDHI (R154). Replaces 16-bit field k of a scalar with an immediate. -/
  | ldhi (d : Fin 64) (k : Fin 4) (imm : BitVec 16)
  /-- CMPEQ (R155). Writes a condition bit with a = b. -/
  | cmpeq (d : Fin 8) (a : Fin 64) (b : Fin 64)
  /-- CMPNE (R155). Writes a condition bit with a ≠ b. -/
  | cmpne (d : Fin 8) (a : Fin 64) (b : Fin 64)
  /-- CMPLT (R155). Writes a condition bit with signed a < b. -/
  | cmplt (d : Fin 8) (a : Fin 64) (b : Fin 64)
  /-- CMPLTU (R155). Writes a condition bit with unsigned a < b. -/
  | cmpltu (d : Fin 8) (a : Fin 64) (b : Fin 64)
  /-- CMPGE (R155). Writes a condition bit with signed a ≥ b. -/
  | cmpge (d : Fin 8) (a : Fin 64) (b : Fin 64)
  /-- CMPGEU (R155). Writes a condition bit with unsigned a ≥ b. -/
  | cmpgeu (d : Fin 8) (a : Fin 64) (b : Fin 64)
  /-- CMPEQI (R155). Writes a condition bit with a equal to an immediate. -/
  | cmpeqi (d : Fin 8) (a : Fin 64) (imm : BitVec 12)
  /-- CMPLTI (R155). Writes a condition bit with a signed-less-than an immediate. -/
  | cmplti (d : Fin 8) (a : Fin 64) (imm : BitVec 12)
  /-- CAND (R155). ANDs two condition bits. -/
  | cand (d : Fin 8) (a : Fin 8) (b : Fin 8)
  /-- COR (R155). ORs two condition bits. -/
  | cor (d : Fin 8) (a : Fin 8) (b : Fin 8)
  /-- SEL (R156). Selects a or b by a condition bit. -/
  | sel (d : Fin 64) (a : Fin 64) (b : Fin 64) (c : Fin 8)
  /-- FADD (R157). Scalar FP32 add, RNE. -/
  | fadd (d : Fin 64) (a : Fin 64) (b : Fin 64)
  /-- FSUB (R157). Scalar FP32 subtract, RNE. -/
  | fsub (d : Fin 64) (a : Fin 64) (b : Fin 64)
  /-- FMUL (R157). Scalar FP32 multiply, RNE. -/
  | fmul (d : Fin 64) (a : Fin 64) (b : Fin 64)
  /-- FFMA (R157). Scalar FP32 fused multiply-add, rounded once. -/
  | ffma (d : Fin 64) (a : Fin 64) (b : Fin 64) (x : Fin 64)
  /-- FDIV (R157). Scalar FP32 divide, RNE. -/
  | fdiv (d : Fin 64) (a : Fin 64) (b : Fin 64)
  /-- FMIN (R158). Scalar FP32 minimum with −0 below +0. -/
  | fmin (d : Fin 64) (a : Fin 64) (b : Fin 64)
  /-- FMAX (R158). Scalar FP32 maximum with −0 below +0. -/
  | fmax (d : Fin 64) (a : Fin 64) (b : Fin 64)
  /-- FEXP2 (R159). Scalar FP32 2^a, correctly rounded. -/
  | fexp2 (d : Fin 64) (a : Fin 64)
  /-- FLOG2 (R159). Scalar FP32 log2 a, correctly rounded. -/
  | flog2 (d : Fin 64) (a : Fin 64)
  /-- FCMPLT (R158). Writes a condition bit with FP32 a < b. -/
  | fcmplt (d : Fin 8) (a : Fin 64) (b : Fin 64)
  /-- FCMPEQ (R158). Writes a condition bit with FP32 a = b. -/
  | fcmpeq (d : Fin 8) (a : Fin 64) (b : Fin 64)
  /-- ITOF (R160). Converts a signed 64-bit integer to FP32, RNE. -/
  | itof (d : Fin 64) (a : Fin 64)
  /-- FTOI (R160). Converts FP32 to a saturated signed 64-bit integer, RNE. -/
  | ftoi (d : Fin 64) (a : Fin 64)
  /-- MFSR (R161). Reads a system register into a scalar. -/
  | mfsr (d : Fin 64) (r : SysReg)
  /-- MTSR (R161). Writes a scalar into a system register. -/
  | mtsr (r : SysReg) (a : Fin 64)
  /-- TSC (R164). Reads the module timebase. -/
  | tsc (d : Fin 64)
  /-- MFLC (R165). Reads a field of a hardware loop. -/
  | mflc (d : Fin 64) (l : Fin 4) (field : Fin 4)
  /-- MTLC (R165). Writes a field of a hardware loop. -/
  | mtlc (l : Fin 4) (field : Fin 4) (a : Fin 64)
  /-- DESC (R167). Packs two 32-bit halves into a descriptor word. -/
  | desc (d : Fin 64) (a : Fin 64) (b : Fin 64)
  /-- ROWAD (R167). Computes the local address of a row of a tile from a descriptor pair. -/
  | rowad (d : Fin 64) (a : Fin 64) (b : Fin 64) (x : Fin 64)
  /-- TILEAD (R167). Computes the local address of row 0 of a tile from a descriptor pair. -/
  | tilead (d : Fin 64) (a : Fin 64) (b : Fin 64) (x : Fin 64)
  /-- INCWRAP (R168). Increments an index and wraps it to 0 at a bound. -/
  | incwrap (d : Fin 64) (a : Fin 64) (b : Fin 64)
  /-- CQPOP (R169). Pops the oldest entry of a count queue into a scalar. -/
  | cqpop (d : Fin 64) (q : Fin 4)
  /-- NOP_V (R94). Vector-slot no-operation in VA or VB. -/
  | nopV
  /-- VADD (R196). Element-wise floating add. -/
  | vadd (d : Fin 256) (a : Fin 256) (b : Fin 256) (p : Fin 16) (f : FmtSel)
  /-- VSUB (R196). Element-wise floating subtract. -/
  | vsub (d : Fin 256) (a : Fin 256) (b : Fin 256) (p : Fin 16) (f : FmtSel)
  /-- VMUL (R196). Element-wise floating multiply. -/
  | vmul (d : Fin 256) (a : Fin 256) (b : Fin 256) (p : Fin 16) (f : FmtSel)
  /-- VFMA (R196). Element-wise fused multiply-add into d. -/
  | vfma (d : Fin 256) (a : Fin 256) (b : Fin 256) (p : Fin 16) (f : FmtSel)
  /-- VFMS (R196). Element-wise fused multiply-subtract from d. -/
  | vfms (d : Fin 256) (a : Fin 256) (b : Fin 256) (p : Fin 16) (f : FmtSel)
  /-- VMIN (R196). Element-wise floating minimum. -/
  | vmin (d : Fin 256) (a : Fin 256) (b : Fin 256) (p : Fin 16) (f : FmtSel)
  /-- VMAX (R196). Element-wise floating maximum. -/
  | vmax (d : Fin 256) (a : Fin 256) (b : Fin 256) (p : Fin 16) (f : FmtSel)
  /-- VABS (R196). Element-wise absolute value. -/
  | vabs (d : Fin 256) (a : Fin 256) (p : Fin 16) (f : FmtSel)
  /-- VNEG (R196). Element-wise negation. -/
  | vneg (d : Fin 256) (a : Fin 256) (p : Fin 16) (f : FmtSel)
  /-- VRCP (R198). Element-wise reciprocal. -/
  | vrcp (d : Fin 256) (a : Fin 256) (p : Fin 16) (f : FmtSel)
  /-- VRSQ (R198). Element-wise reciprocal square root. -/
  | vrsq (d : Fin 256) (a : Fin 256) (p : Fin 16) (f : FmtSel)
  /-- VEXP2 (R198). Element-wise 2^x. -/
  | vexp2 (d : Fin 256) (a : Fin 256) (p : Fin 16) (f : FmtSel)
  /-- VLOG2 (R198). Element-wise log2 x. -/
  | vlog2 (d : Fin 256) (a : Fin 256) (p : Fin 16) (f : FmtSel)
  /-- VTANH (R198). Element-wise tanh x. -/
  | vtanh (d : Fin 256) (a : Fin 256) (p : Fin 16) (f : FmtSel)
  /-- VSCL (R199). Applies SCL20 block scales to lanes. -/
  | vscl (d : Fin 256) (a : Fin 256) (b : Fin 256) (p : Fin 16) (f : FmtSel)
  /-- VQNT (R200). Quantises 512 FP32 lanes into codes and block scales. -/
  | vqnt (d : Fin 256) (a : Fin 256) (b : Fin 256) (p : Fin 16) (f : FmtSel)
  /-- VCVT (R201). Converts lanes between formats. -/
  | vcvt (d : Fin 256) (a : Fin 256) (p : Fin 16) (f : Fin 8) (df : FmtSel)
  /-- VDEC (R202). Decodes CB4 codes through a codebook. -/
  | vdec (d : Fin 256) (a : Fin 256) (p : Fin 16) (f : Fin 8) (cb : Fin 8)
  /-- VMULS (R196). Multiplies lanes by an FP32 scalar. -/
  | vmuls (d : Fin 256) (a : Fin 256) (b : Fin 64) (p : Fin 16) (f : FmtSel)
  /-- VADDS (R196). Adds an FP32 scalar to lanes. -/
  | vadds (d : Fin 256) (a : Fin 256) (b : Fin 64) (p : Fin 16) (f : FmtSel)
  /-- VSEL (R197). Selects lanes of a or b by the predicate. -/
  | vsel (d : Fin 256) (a : Fin 256) (b : Fin 256) (p : Fin 16) (f : FmtSel)
  /-- VIADD (R203). Element-wise integer add. -/
  | viadd (d : Fin 256) (a : Fin 256) (b : Fin 256) (p : Fin 16) (f : FmtSel)
  /-- VISUB (R203). Element-wise integer subtract. -/
  | visub (d : Fin 256) (a : Fin 256) (b : Fin 256) (p : Fin 16) (f : FmtSel)
  /-- VIMUL (R203). Element-wise integer multiply. -/
  | vimul (d : Fin 256) (a : Fin 256) (b : Fin 256) (p : Fin 16) (f : FmtSel)
  /-- VAND (R203). Element-wise bitwise AND. -/
  | vand (d : Fin 256) (a : Fin 256) (b : Fin 256) (p : Fin 16) (f : FmtSel)
  /-- VOR (R203). Element-wise bitwise OR. -/
  | vor (d : Fin 256) (a : Fin 256) (b : Fin 256) (p : Fin 16) (f : FmtSel)
  /-- VXOR (R203). Element-wise bitwise XOR. -/
  | vxor (d : Fin 256) (a : Fin 256) (b : Fin 256) (p : Fin 16) (f : FmtSel)
  /-- VSHL (R203). Element-wise shift left. -/
  | vshl (d : Fin 256) (a : Fin 256) (b : Fin 256) (p : Fin 16) (f : FmtSel)
  /-- VSHR (R203). Element-wise logical shift right. -/
  | vshr (d : Fin 256) (a : Fin 256) (b : Fin 256) (p : Fin 16) (f : FmtSel)
  /-- VSRA (R203). Element-wise arithmetic shift right. -/
  | vsra (d : Fin 256) (a : Fin 256) (b : Fin 256) (p : Fin 16) (f : FmtSel)
  /-- VIMIN (R203). Element-wise integer minimum. -/
  | vimin (d : Fin 256) (a : Fin 256) (b : Fin 256) (p : Fin 16) (f : FmtSel)
  /-- VIMAX (R203). Element-wise integer maximum. -/
  | vimax (d : Fin 256) (a : Fin 256) (b : Fin 256) (p : Fin 16) (f : FmtSel)
  /-- VPOPC (R203). Element-wise population count. -/
  | vpopc (d : Fin 256) (a : Fin 256) (p : Fin 16) (f : FmtSel)
  /-- VIOTA (R219). Writes each lane's index. -/
  | viota (d : Fin 256) (p : Fin 16) (f : FmtSel)
  /-- VBCST (R219). Broadcasts a scalar into every active lane. -/
  | vbcst (d : Fin 256) (a : Fin 64) (p : Fin 16) (f : FmtSel)
  /-- VEXT (R220). Reads one lane into a scalar. -/
  | vext (d : Fin 64) (a : Fin 256) (f : Fin 8) (lane : BitVec 9)
  /-- VINS (R220). Writes one lane from a scalar. -/
  | vins (d : Fin 256) (a : Fin 64) (p : Fin 16) (f : Fin 8) (lane : BitVec 9)
  /-- VCMPEQ (R204). Writes a predicate of lane equality. -/
  | vcmpeq (d : Fin 16) (a : Fin 256) (b : Fin 256) (p : Fin 16) (f : FmtSel)
  /-- VCMPNE (R204). Writes a predicate of lane inequality. -/
  | vcmpne (d : Fin 16) (a : Fin 256) (b : Fin 256) (p : Fin 16) (f : FmtSel)
  /-- VCMPLT (R204). Writes a predicate of lane less-than. -/
  | vcmplt (d : Fin 16) (a : Fin 256) (b : Fin 256) (p : Fin 16) (f : FmtSel)
  /-- VCMPLE (R204). Writes a predicate of lane less-or-equal. -/
  | vcmple (d : Fin 16) (a : Fin 256) (b : Fin 256) (p : Fin 16) (f : FmtSel)
  /-- VCMPUO (R204). Writes a predicate of unordered lanes. -/
  | vcmpuo (d : Fin 16) (a : Fin 256) (b : Fin 256) (p : Fin 16) (f : FmtSel)
  /-- VCLASS (R205). Writes a predicate of lanes whose class is in a mask. -/
  | vclass (d : Fin 16) (a : Fin 256) (p : Fin 16) (f : Fin 8) (cls : BitVec 8)
  /-- PAND (R206). ANDs two predicates. -/
  | pand (d : Fin 16) (a : Fin 16) (b : Fin 16)
  /-- POR (R206). ORs two predicates. -/
  | por (d : Fin 16) (a : Fin 16) (b : Fin 16)
  /-- PXOR (R206). XORs two predicates. -/
  | pxor (d : Fin 16) (a : Fin 16) (b : Fin 16)
  /-- PANDN (R206). ANDs a predicate with the complement of another. -/
  | pandn (d : Fin 16) (a : Fin 16) (b : Fin 16)
  /-- PFIRST (R206). Keeps only the lowest set bit of a predicate. -/
  | pfirst (d : Fin 16) (a : Fin 16)
  /-- PCNT (R206). Counts the set bits of a predicate into a scalar. -/
  | pcnt (d : Fin 64) (a : Fin 16)
  /-- VANY (R206). Sets a condition bit when any predicate bit is set. -/
  | vany (d : Fin 8) (a : Fin 16)
  /-- VALL (R206). Sets a condition bit when every predicate bit is set. -/
  | vall (d : Fin 8) (a : Fin 16)
  /-- VRSUM (R207). Sums active lanes over a fixed pairwise tree into a scalar. -/
  | vrsum (d : Fin 64) (a : Fin 256) (p : Fin 16) (f : FmtSel)
  /-- VRMAX (R207). Reduces active lanes to their maximum. -/
  | vrmax (d : Fin 64) (a : Fin 256) (p : Fin 16) (f : FmtSel)
  /-- VRMIN (R207). Reduces active lanes to their minimum. -/
  | vrmin (d : Fin 64) (a : Fin 256) (p : Fin 16) (f : FmtSel)
  /-- VRAMAX (R208). Writes the lane index of the largest active lane. -/
  | vramax (d : Fin 64) (a : Fin 256) (p : Fin 16) (f : FmtSel)
  /-- VRAMIN (R208). Writes the lane index of the smallest active lane. -/
  | vramin (d : Fin 64) (a : Fin 256) (p : Fin 16) (f : FmtSel)
  /-- VSCAN (R209). Writes inclusive prefix sums in lane order. -/
  | vscan (d : Fin 256) (a : Fin 256) (p : Fin 16) (f : FmtSel)
  /-- VMOV (R214). Copies bytes under the predicate. -/
  | vmov (d : Fin 256) (a : Fin 256) (p : Fin 16)
  /-- VPERM (R217). Gathers lanes of a by indices in b within groups. -/
  | vperm (d : Fin 256) (a : Fin 256) (b : Fin 256) (p : Fin 16) (f : FmtSel)
  /-- VROTM (R215). Extracts 2,048 bytes at a byte offset from a register pair. -/
  | vrotm (d : Fin 256) (a : Fin 256) (b : Fin 256) (p : Fin 16) (off : BitVec 9)
  /-- VZIP (R218). Interleaves the low halves of two registers. -/
  | vzip (d : Fin 256) (a : Fin 256) (b : Fin 256) (p : Fin 16) (f : FmtSel)
  /-- VUZP (R218). Gathers the even lanes of two registers. -/
  | vuzp (d : Fin 256) (a : Fin 256) (b : Fin 256) (p : Fin 16) (f : FmtSel)
  /-- VSPL (R219). Splats a signed 9-bit immediate into active lanes. -/
  | vspl (d : Fin 256) (p : Fin 16) (f : Fin 8) (imm : BitVec 9)
  /-- VSLIDE (R216). Shifts lanes down through a register pair. -/
  | vslide (d : Fin 256) (a : Fin 256) (b : Fin 256) (p : Fin 16) (f : Fin 8) (n : BitVec 9)
  /-- VTOPK (R222). Writes the bitmap of the k largest active lanes of a register group. -/
  | vtopk (d : Fin 256) (a : Fin 256) (b : Fin 64) (p : Fin 16) (f : Fin 8) (g1 : Fin 8)
  /-- VTHCNT (R223). Counts per row the active lanes at or above a threshold. -/
  | vthcnt (d : Fin 256) (a : Fin 256) (b : Fin 64) (p : Fin 16) (f : Fin 8) (lg : Fin 10)
  /-- VBMP (R224). Converts a predicate into a lane bitmap. -/
  | vbmp (d : Fin 256) (a : Fin 16) (f : Fin 8)
  /-- VRANK (R225). Counts set bitmap bits below given positions. -/
  | vrank (d : Fin 256) (a : Fin 256) (b : Fin 256) (p : Fin 16)
  /-- VSELB (R225). Finds the position of the bitmap bit of a given rank. -/
  | vselb (d : Fin 256) (a : Fin 256) (b : Fin 256) (p : Fin 16)
  /-- VHIST (R226). Counts lane values into 512 bins. -/
  | vhist (d : Fin 256) (a : Fin 256) (p : Fin 16) (f : FmtSel)
  /-- VCQP (R227). Pushes active lanes into a count queue. -/
  | vcqp (a : Fin 256) (p : Fin 16) (n1 : Fin 64) (q : Fin 4)
  /-- RCADD (R228). Sends lanes 0-63 to be added into the quad's routing counters. -/
  | rcadd (a : Fin 256) (p : Fin 16)
  /-- RCSNAP (R228). Requests the routing counters' values and their clearing. -/
  | rcsnap (d : Fin 256)
  /-- VCSUM (R230). Computes a chunk-checksum contribution of register rows. -/
  | vcsum (d : Fin 64) (a : Fin 256) (n1 : Fin 8)
  /-- FTLD (R231). Writes rows of the context's format table. -/
  | ftld (a : Fin 256) (b : Fin 64) (row : Fin 64)
  /-- CBLD (R232). Writes one codebook. -/
  | cbld (a : Fin 256) (cb : Fin 8)
  /-- NOP_M (R94). MAT-slot no-operation. -/
  | nopM
  /-- TTASK (R256). Checks a tile-task record and pushes it into the quad's tile queue. -/
  | ttask (a : Fin 256)
  /-- TTASKR (R256). Pushes a tile-task record with A staging taken from registers. -/
  | ttaskr (a : Fin 256) (b : Fin 256) (n1 : Fin 8)
  /-- TQCFG (R255). Writes a scheduler register of the own quad (privileged). -/
  | tqcfg (a : Fin 64) (b : Fin 64)
  /-- TSTAT (R257). Reads a status value of the own quad's tile scheduler. -/
  | tstat (d : Fin 64) (which : Fin 16)
  /-- TEVICT (R258). Invalidates stationary buffers holding a tag. -/
  | tevict (a : Fin 64)
  /-- TLATE (R259). Reads the throttle level and lateness counter. -/
  | tlate (d : Fin 64)
  /-- NOP_L (R94). MEM-slot no-operation. -/
  | nopL
  /-- VLD (R267). Loads 1-8 local rows into a vector register. -/
  | vld (d : Fin 256) (a : Fin 64) (n1 : Fin 8)
  /-- VST (R267). Stores 1-8 rows of a vector register with a byte mask. -/
  | vst (d : Fin 256) (a : Fin 64) (p : Fin 16) (n1 : Fin 8)
  /-- VLDP (R267). Loads rows addressed through a descriptor pair. -/
  | vldp (d : Fin 256) (a : Fin 64) (b : Fin 64) (n1 : Fin 8)
  /-- VSTP (R267). Stores rows addressed through a descriptor pair. -/
  | vstp (d : Fin 256) (a : Fin 64) (b : Fin 64) (p : Fin 16) (n1 : Fin 8)
  /-- VLDX (R267). Gathers eight rows by indices in a vector register. -/
  | vldx (d : Fin 256) (a : Fin 64) (b : Fin 256)
  /-- VSTX (R267). Scatters eight rows by indices in a vector register. -/
  | vstx (d : Fin 256) (a : Fin 64) (b : Fin 256) (p : Fin 16)
  /-- SLD (R267). Loads one 64-bit word of a row into a scalar. -/
  | sld (d : Fin 64) (a : Fin 64) (k : Fin 32)
  /-- SST (R267). Stores a scalar into one word of a row as a masked write. -/
  | sst (d : Fin 64) (a : Fin 64) (k : Fin 32)
  /-- COPY (R269). Pushes a 64-byte copy command into a copy queue of the quad. -/
  | copy (a : Fin 256) (q : Fin 8)
  /-- FENCE (R326). Orders accesses of the before paths before those of the after paths at a scope. -/
  | fence (before : BitVec 8) (after : BitVec 8) (scope : Fin 8)
  /-- DRAIN (R327). Waits until commanded accesses of the named paths have performed at a scope. -/
  | drain (paths : BitVec 8) (scope : Fin 8)
  /-- QPUSH (R343). Pushes a 64-byte entry into a base-die queue. -/
  | qpush (a : Fin 256) (b : Fin 64)
  /-- QPOP (R344). Requests a blocking pop from a base-die queue. -/
  | qpop (d : Fin 256) (b : Fin 64)
  /-- QTRY (R345). Tests and pops a base-die queue, writing a condition bit. -/
  | qtry (d : Fin 256) (b : Fin 64) (c : Fin 8)
  /-- ASET (R349). Declares an atomic set of the task. -/
  | aset (a : Fin 64) (b : Fin 64) (set : Fin 16) (g : Fin 8)
  /-- AJNL (R351). Arms the task's journal area and sets its home quad. -/
  | ajnl (a : Fin 64)
  /-- TGO (R298). Sends a start request for an itinerary to a Wheel spoke. -/
  | tgo (a : Fin 64) (e : Fin 4)
  /-- TREL (R299). Sends a release of one shard of a spoke's window. -/
  | trel (a : Fin 64) (e : Fin 4)
  /-- TLBI (R411). Invalidates cached translations of the partition (privileged). -/
  | tlbi (a : Fin 64) (all : Bool)
  /-- CTXSV (R404). Stops and saves a named context to an image (privileged). -/
  | ctxsv (a : Fin 64) (b : Fin 64)
  /-- CTXLD (R405). Loads a saved image into a free context and makes it ready (privileged). -/
  | ctxld (a : Fin 64) (b : Fin 64)
  /-- NOP_X (R94). COM-slot no-operation. -/
  | nopX
  /-- SEND (R336). Sends vector rows as an element on a channel after taking a credit. -/
  | send (ch : Fin 64) (v : Fin 256) (n1 : Fin 8)
  /-- RECV (R337). Pops a channel element into a vector register. -/
  | recv (ch : Fin 64) (v : Fin 256) (n1 : Fin 8)
  /-- RECVADD (R337). Pops a channel element and adds it into a vector register. -/
  | recvadd (ch : Fin 64) (v : Fin 256) (n1 : Fin 8)
  /-- SSEND (R336). Sends a scalar element on a channel. -/
  | ssend (ch : Fin 64) (a : Fin 64)
  /-- SRECV (R337). Pops a scalar channel element. -/
  | srecv (ch : Fin 64) (d : Fin 64)
  /-- CHCFG (R339). Replaces a channel-table entry of an idle channel. -/
  | chcfg (ch : Fin 64) (a : Fin 64)
  /-- CHQRY (R340). Reads channel state or entry bytes into a scalar. -/
  | chqry (ch : Fin 64) (d : Fin 64) (which : Fin 4)
  /-- HCOLL (R386). Checks a collective descriptor and sends it to the base die. -/
  | hcoll (a : Fin 64)
  /-- HRECH (R387). Sends a list of chunks of a live collective to be re-run. -/
  | hrech (a : Fin 64)
  /-- HQRY (R388). Reads a collective's state or the next SEQ from the base die. -/
  | hqry (d : Fin 64) (a : Fin 64)
  /-- MONITOR_RETEST (R332). A write to a watched row re-tests a sleeping WAITA and wakes it on a pass. -/
  | monitorRetest (quad : Fin 32) (id : Nat)
  /-- TILE_DEP_RETEST (R243). A write to a tile record's dependence row re-tests its dependence word. -/
  | tileDepRetest (quad : Fin 32) (id : Nat)
  /-- QUEUE_DOORBELL (R35). A write of QDB_n.TAIL makes packets visible or stops the queue on overrun. -/
  | queueDoorbell (agent : Nat) (q : Fin 1024) (tail : BitVec 32)
  /-- QUEUE_RESTART (R41). A write of 1 to QSTAT_n.RESTART clears STOPPED and resumes processing at HEAD. -/
  | queueRestart (agent : Nat) (q : Fin 1024) (value : BitVec 64)
  /-- GATHER_DOORBELL (R315). A write of GDB_g.TAIL publishes request entries or is rejected. -/
  | gatherDoorbell (agent : Nat) (g : Fin 16) (tail : BitVec 32)
  /-- GATHER_ROW (R316). A row write to a Barker row window is written once or dropped. -/
  | gatherRow (g : Fin 16) (offset : BitVec 28) (data : BitVec 2048)
  /-- REGISTER_WRITE (R6). A write to a register with no row of its own acts under its access code. `size` 0 is all of it, 1 its low half, 2 its high half, 3 any other access. -/
  | registerWrite (agent : Nat) (offset : BitVec 33) (size : Fin 4) (value : BitVec 64)
  /-- BTOWN_WRITE (R295). A BTOWN write that changes a segment owner cuts off the old owner and starts zeroing. -/
  | btownWrite (agent : Nat) (n : Fin 16) (value : BitVec 64)
  /-- BDQCFG_WRITE (R342). A write of BDQCFG_i configures a queue, holding a DEPTH change until empty. -/
  | bdqcfgWrite (agent : Nat) (n : Fin 1024) (value : BitVec 64)
  /-- RETENTION_CTRL_WRITE (R413). A write of RETQ or RETB enables retention or starts an exit when a bit is cleared. -/
  | retentionCtrlWrite (agent : Nat) (big : Bool) (value : BitVec 64)
  /-- CLAIM (R47). A write to CLAIM by a candidate while vacant makes that agent the owner. -/
  | claim (agent : Nat) (value : BitVec 64)
  /-- HANDOVER (R47). A write to HANDOVER with the current EPOCH passes ownership to a candidate. -/
  | handover (agent : Nat) (value : BitVec 64)
  /-- ADMQCREATE (R37). A write of word 0 of the ADMQCREATE window creates queue 0 or records a refusal. -/
  | admqcreate (agent : Nat) (value : BitVec 64)
  /-- READ_CLEAR (R6). A read of an RC field returns its value and clears it. -/
  | readClear (agent : Nat) (offset : BitVec 33) (size : Fin 4)
  /-- COPY_DONE (R279). A completed copy command adds 1 to its done counter as a release. -/
  | copyDone (quad : Fin 32) (id : Nat)
  /-- WOUND (R363). A wound reaches a holder, which is rolled back unless its END has committed. -/
  | wound (ticket : BitVec 64)
  /-- PARK_RESUME (R293). An access parked on a not-present page resumes after a MAP covers the page. -/
  | parkResume (id : Nat)
  /-- COMPLETION_RECORD (R417). The Organ writes a completed job's record, posts JOB_DONE and frees the slot. -/
  | completionRecord (job : Fin 4096)
  /-- FETCH_FAULT (R78). A fetch of a page with no frame stops the context or traps with FETCH. -/
  | fetchFault (core : Fin 128) (ctx : Fin 8)
  /-- RESULT_LAND (R116). A variable-latency producer's value lands and its register becomes full. -/
  | resultLand (core : Fin 128) (ctx : Fin 8)
  /-- ARRIVAL (R284). A HANDLER copy's arrival is delivered to a dormant handler, listed, turned into a continuation or discarded. -/
  | arrival (core : Fin 128)
  /-- LOCK_REQUEST (R356). A Ticket Booth slice decides a granule request by grant, wound or wait. -/
  | lockRequest (slice : Fin 4)
  /-- LOCK_GRANT (R356). A grant reaches the requester, setting HOLDS, or is returned when its run was discarded. -/
  | lockGrant (slice : Fin 4)
  /-- BATCH_PUSH (R318). A closed batch's list is written and its record pushed to a base-die queue as a release. -/
  | batchPush (g : Fin 16)
  /-- BDQ_POP_SERVE (R344). A base die serves a QPOP or QTRY request with the oldest entry or holds it. -/
  | bdqPopServe (n : Fin 1024)
  /-- CHANNEL_ARRIVAL (R338). A channel element lands at the receive end and fills a waiting RECV. -/
  | channelArrival (core : Fin 128) (ch : Fin 64)
  /-- CHANNEL_CREDIT (R336). A credit returns to the send end after a pop. -/
  | channelCredit (core : Fin 128) (ch : Fin 64)
  /-- SHARD_RELEASE (R299). A TREL reaching its engine releases the oldest unreleased shard of a window. -/
  | shardRelease (e : Fin 4)
  /-- COLL_ACCEPT (R375). A base die accepts a collective and assigns its SEQ when a slot is free. -/
  | collAccept (die : Fin 4)
  /-- RELEASE_NOTICE (R311). A member's release notice reaches the group leader and may let it issue a group hop. -/
  | releaseNotice (e : Fin 4) (k : Fin 16) (m : Nat) (count : Nat)
  /-- PAGE_LOAD (R80). The Organ's fetch duty completes loading a code page into a frame and the context resumes. -/
  | pageLoad (core : Fin 128) (ctx : Fin 8)
  /-- NOP_PACKET (R39). Packet kind 0x00, consumed with no effect. -/
  | nopPacket (q : Fin 1024)
  /-- LAUNCH_PACKET (R49). Packet kind 0x01 reads and checks a job card and starts the job. -/
  | launchPacket (q : Fin 1024)
  /-- IMAGE (R81). Packet kind 0x02 registers or replaces a code image of the partition. -/
  | image (q : Fin 1024)
  /-- MAP (R292). Packet kind 0x03 checks, zeroes and maps pages into the partition. -/
  | map (q : Fin 1024)
  /-- MAP_COMPLETE (R292). A started MAP completes once zeroing and publication of its translations have ended. -/
  | mapComplete (q : Fin 1024)
  /-- UNMAP (R292). Packet kind 0x04 starts removal of pages and their translations. -/
  | unmap (q : Fin 1024)
  /-- UNMAP_COMPLETE (R292). A started UNMAP completes once removals, translated accesses and walks have ended. -/
  | unmapComplete (q : Fin 1024)
  /-- FLAG_WRITE (R39). Packet kind 0x05 writes a value with release at HOST scope. -/
  | flagWrite (q : Fin 1024)
  /-- FLAG_WAIT (R39). Packet kind 0x06 holds its queue until a word passes a test. -/
  | flagWait (q : Fin 1024)
  /-- PART_RESIZE (R72). Packet kind 0x07 records moves of quads to a partition. -/
  | partResize (q : Fin 1024)
  /-- GATHER_CFG (R314). Packet kind 0x08 closes pending requests and reconfigures a Barker channel. -/
  | gatherCfg (q : Fin 1024)
  /-- QUEUE_CREATE (R39). Packet kind 0x09 creates a command queue and its sibling ring. -/
  | queueCreate (q : Fin 1024)
  /-- PACKET_RETRY (R40). A LAUNCH without a job slot or a failing FLAG_WAIT at a queue head is retried in a later tune slot. -/
  | packetRetry (q : Fin 1024)
  /-- OWNER_LINK_RESET (R47). A reset of the owning agent's link makes OWNER vacant. -/
  | ownerLinkReset
  /-- POOL_DUTY (R55). The Organ's pool duty checks and starts the oldest pending-launch card or rejects it. -/
  | poolDuty
  /-- TAKE_WORK (R63). A free context takes the first non-empty class of work of its partition. -/
  | takeWork (core : Fin 128) (ctx : Fin 8)
  /-- CHUNK_TAKE (R53). A base die serves a take of a chunk of DEAL records from its range. -/
  | chunkTake (core : Fin 128) (ctx : Fin 8)
  /-- CHUNK_STEAL (R54). A base die serves a steal of half of the largest remaining range. -/
  | chunkSteal (core : Fin 128) (ctx : Fin 8)
  /-- TEAM_PLACE (R65). A waiting team is mapped to physical cores, loaded or restored, and given a release cycle. -/
  | teamPlace (job : Fin 4096) (place : List Place) (release : Nat)
  /-- TEAM_RELEASE (R51). In the release cycle every team core issues its first bundle and TEAMCYC agrees. -/
  | teamRelease (job : Fin 4096)
  /-- SLICE_STOP_REQUEST (R67). At slice_end − DRAIN with a waiter, or on a later waiter, the scheduler sends a stop request. -/
  | sliceStopRequest (job : Fin 4096)
  /-- SLICE_END (R67). At slice end with no waiter the slice is renewed with the overrun charge. -/
  | sliceEnd (job : Fin 4096)
  /-- STOP_POINT (R67). When a stopped team's drain completes, its contexts are saved and overrun charged. -/
  | stopPoint (job : Fin 4096)
  /-- SAVE_RETRY (R76). A save that waited for save-area room begins at the next scheduler duty start. -/
  | saveRetry (job : Fin 4096)
  /-- RESIZE_TIMEOUT (R73). Contexts still running RESWAIT cycles after a move was recorded are pre-empted and saved. -/
  | resizeTimeout (quad : Fin 32)
  /-- QUAD_MOVE (R73). A MOVING quad with every context free moves, rolling back homed lock holders and starting zeroing. -/
  | quadMove (quad : Fin 32)
  /-- QUAD_ZERO_END (R74). Zeroing of a moved quad ends, QUADPART shows the new partition and an event is posted. -/
  | quadZeroEnd (quad : Fin 32)
  /-- SNAPSHOT_LAND (R405). After restore a register named by a snapshot entry becomes full at t_0 + REMAIN. -/
  | snapshotLand (core : Fin 128) (ctx : Fin 8)
  /-- ROUTING_COUNTER_OP (R229). The quad's counter unit performs one RCADD or RCSNAP indivisibly. -/
  | routingCounterOp (quad : Fin 32)
  /-- TILE_START (R242). The tile scheduler picks a ready record, assigns an array and starts loading and streaming. -/
  | tileStart (quad : Fin 32)
  /-- TILE_DONE (R252). A tile task finishes draining, merges its abs-max and adds 1 to its done counter. -/
  | tileDone (quad : Fin 32) (arr : Fin 4)
  /-- COPY_OP (R274). Copy command OP 0 copies rows with optional format conversion. -/
  | copyOp (quad : Fin 32)
  /-- FILL (R274). Copy command OP 1 fills destination rows with a 64-bit pattern. -/
  | fill (quad : Fin 32)
  /-- ZERO (R274). Copy command OP 2 zeroes destination rows. -/
  | zero (quad : Fin 32)
  /-- ACC (R275). Copy command OP 3 applies AOP to destination elements at their memory port. -/
  | acc (quad : Fin 32)
  /-- ACCF (R276). Copy command OP 4 accumulates and returns the old rows and a status row. -/
  | accf (quad : Fin 32)
  /-- CAS (R276). Copy command OP 5 compares and swaps one word and returns the old row. -/
  | cas (quad : Fin 32)
  /-- BTOWN_ZERO_END (R295). Zeroing of a reassigned Big Top segment ends and held accesses proceed. -/
  | btownZeroEnd (die : Fin 4) (seg : Fin 64)
  /-- SPOKE_START (R298). A Wheel engine receives a start request and starts the spoke or fails it. -/
  | spokeStart (e : Fin 4)
  /-- HOP (R302). Itinerary step 0x01 moves a shard between tiers within the window rules. -/
  | hop (e : Fin 4) (k : Fin 16)
  /-- WAITREL (R302). Itinerary step 0x02 waits until a window holds at most ARG unreleased shards. -/
  | waitrel (e : Fin 4) (k : Fin 16)
  /-- BARRIER (R302). Itinerary step 0x03 waits for earlier accesses of named streams to perform. -/
  | barrier (e : Fin 4) (k : Fin 16)
  /-- MCAST (R310). Itinerary step 0x04 joins a stream group for a window. -/
  | mcast (e : Fin 4) (k : Fin 16)
  /-- EVICT (R308). Itinerary step 0x05 frees a residency slot after its accesses perform. -/
  | evict (e : Fin 4) (k : Fin 16)
  /-- ITIN_LOOP (R302). Itinerary step 0x06 repeats from an earlier step, shifting the origin. -/
  | itinLoop (e : Fin 4) (k : Fin 16)
  /-- MARK (R302). Itinerary step 0x07 writes a word as a release and may reset the origin or post an event. -/
  | mark (e : Fin 4) (k : Fin 16)
  /-- ITIN_END (R302). Itinerary step 0x08 adds to a word as a release and frees the spoke. -/
  | itinEnd (e : Fin 4) (k : Fin 16)
  /-- SETWIN (R302). Itinerary step 0x09 sets a window size. -/
  | setwin (e : Fin 4) (k : Fin 16)
  /-- HOP_FINISH (R302). A hop's last row is written and verified, its lateness counted and its done row incremented. -/
  | hopFinish (e : Fin 4) (k : Fin 16) (n : Nat) (data : List Byte) (corrupt : List Byte)
  /-- GROUP_JOIN (R310). Every member has joined a stream group, or a mismatch fails them all. -/
  | groupJoin (e : Fin 4) (k : Fin 16) (joins : List (Nat × Nat × Nat × Nat))
  /-- LATE_DECAY (R306). Each cycle an engine's LATE falls by LEAK and takes that cycle's additions. -/
  | lateDecay (e : Fin 4)
  /-- SLOT_CYCLE (R309). Each 16-cycle slot-cycle the residency table applies evictions then fills. -/
  | slotCycle
  /-- REFRESH_DUE (R313). A bank's refresh comes due, forcing an all-bank refresh when eight are owed. -/
  | refreshDue (ch : Fin 128) (bank : Nat)
  /-- BANK_REFRESH (R313). The controller performs an owed refresh when a bank is idle. -/
  | bankRefresh (ch : Fin 128) (bank : Nat)
  /-- GATHER_ENTRY (R315). The Barker reads one request entry and opens, repeats or rejects it. -/
  | gatherEntry (g : Fin 16)
  /-- GATHER_TICK (R317). Each timebase tick the Barker admits completed requests and closes batches by count or deadline. -/
  | gatherTick (g : Fin 16)
  /-- BAR_RELEASE (R329). Once every member has arrived, a barrier releases its members. -/
  | barRelease (core : Fin 128) (ctx : Fin 8) (halves : List Nat)
  /-- WAITA_POLL (R333). A WAITA without a monitor entry re-reads its word every POLLGAP cycles. -/
  | waitaPoll (core : Fin 128) (ctx : Fin 8)
  /-- WOUNDWAIT_EXPIRY (R358). A path-C requester waiting WOUNDWAIT cycles is saved to its home quad. -/
  | woundwaitExpiry (core : Fin 128) (ctx : Fin 8)
  /-- COLL_AGREE (R376). Member 0 compares signatures and checks, sending go or abort. -/
  | collAgree (group : Fin 256) (seq : BitVec 32) (votes : List Vote)
  /-- COLL_CONTRIBUTION (R377). A chunk contribution arrives at its owner, is verified and reduced. -/
  | collContribution (group : Fin 256) (seq : BitVec 32) (chunk : Nat) (member : Nat) (data : List Nat) (sum : Nat) (special : Bool) (hop : BitVec 16)
  /-- COLL_DELIVERY (R377). A reduced or gathered chunk arrives at a member, is verified and committed. -/
  | collDelivery (group : Fin 256) (seq : BitVec 32) (chunk : Nat) (expo : Int) (data : List Nat) (sum : Nat) (hop : BitVec 16)
  /-- LINK_FLIT (R368). A Tightrope flit is received, CRC-checked, re-sent or deduplicated. -/
  | linkFlit (link : Fin 8) (n : BitVec 32) (crcOk : Bool) (payload : BitVec 1024)
  /-- WATCHDOG (R398). A resident DEAL or handler context reaching its watchdog count takes a WATCHDOG trap. -/
  | watchdog (core : Fin 128) (ctx : Fin 8)
  /-- ECC_ERROR (R412). A read finds an ECC error, which is corrected or poisons its structure. -/
  | eccError (site : EccSite) (corrected : Bool)
  /-- RETENTION_ENTRY (R413). An array idle 4,096 cycles with retention enabled re-encodes into retention. -/
  | retentionEntry (arr : ArrayId)
  /-- RETENTION_EXIT (R413). An access or a cleared bit starts the exit from retention and held accesses proceed at its end. -/
  | retentionExit (arr : ArrayId)
  /-- TIMEBASE_TICK (R422). The module timebase advances by one nanosecond tick. -/
  | timebaseTick
  /-- PTM_UPDATE (R422). A PTM result slews the timebase by at most 1 ns per 1,000 ns. -/
  | ptmUpdate (faster : Bool)
  /-- PORT_LINK_UP (R423). A CXL port trains and comes up at its widest and fastest common setting. -/
  | portLinkUp (port : Fin 4) (width : BitVec 5) (rate : BitVec 8)
  /-- PORT0_LINK_DOWN (R426). Port 0 goes down: owner vacant, host accesses wait, events dropped. -/
  | port0LinkDown
  /-- HOST_ACCESS_TIMEOUT (R426). An engine access waiting 10 ms for port 0 fails with PERM. -/
  | hostAccessTimeout (id : Nat)
  /-- HOST_MEM_ACCESS (R424). A host CXL.mem access through an HDM decoder is served or completed as unsupported. -/
  | hostMemAccess (decoder : Fin 2) (offset : BitVec 40) (write : Option (BitVec 512))
  /-- MCTP_READ (R431). MCTP register-access request CMD 0x01 reads a register. `src` is the endpoint of a PCIe message, or none for one over I3C. -/
  | mctpRead (src : Option (BitVec 8)) (body : BitVec 128)
  /-- MCTP_WRITE (R431). MCTP register-access request CMD 0x02 writes a register under the owner rule. -/
  | mctpWrite (src : Option (BitVec 8)) (body : BitVec 128)
  /-- ATTESTATION_REQUEST (R433). An MCTP message with a nonce returns a dual-signed attestation report. -/
  | attestationRequest (src : Option (BitVec 8)) (nonce : BitVec 256)
  /-- PLDM_SENSOR_READ (R428). A PLDM Type 2 request reads a numeric sensor. -/
  | pldmSensorRead (src : Option (BitVec 8)) (sensor : Fin 11)
  /-- SENSOR_UPDATE (R428). Every 100 µs each sensor is updated. -/
  | sensorUpdate (values : List (BitVec 32))
  /-- PLDM_FW_UPDATE (R428). A PLDM Type 5 update receives and verifies an image into the inactive bank. -/
  | pldmFwUpdate (image : FwUpdate)
  /-- MODULE_RESET (R432). At reset the boot ROM verifies the firmware and starts the Organ or enters recovery. -/
  | moduleReset
  /-- POWER_WINDOW (R435). At the end of each 100 µs window PLEVEL rises, falls or stays against PWRCAP. -/
  | powerWindow (avg : BitVec 16)
  /-- THERMAL_TRIP (R436). A die temperature crossing 105 °C forces PLEVEL 7 and at 120 °C halts the module. -/
  | thermalTrip (die : Fin 4) (celsius : Nat)
  /-- COOLANT_LOSS (R436). Loss of coolant flow halts the module within 1 ms. -/
  | coolantLoss
  /-- POWER_ALARM (R434). An input voltage or coolant inlet out of range raises ALARM. -/
  | powerAlarm
  /-- PORT_LINK_DOWN (R436). A fabric port 1 to 3 loses its link, and HLINK_k shows WIDTH 0, RATE 0 and UP 0. -/
  | portLinkDown (port : Fin 4)
  /-- THERMAL_RELEASE (R436). A die whose temperature falls below 100 °C ends the forcing of PLEVEL to 7. -/
  | thermalRelease (die : Fin 4) (celsius : Nat)
  /-- CHUNK_EXPONENT (R377). A phase-1 exponent message reaches the chunk owner, or the agreed E reaches a member, which then converts and sends its contribution. -/
  | chunkExponent (group : Fin 256) (seq : BitVec 32) (chunk : Nat) (member : Nat) (expo : Int) (agreed : Bool)
  /-- COLL_GO_ABORT (R376). Member 0's go or abort reaches a member, which starts moving chunks or writes its abort report and flag. -/
  | collGoAbort (group : Fin 256) (seq : BitVec 32) (cause : Option Nat) (lowest : Nat)
deriving DecidableEq, Repr

/-- One slot instruction as it stands in a bundle: its slot, its sync bit S (R86, R87) and the operation. -/
structure SlotWord where
  slot : Slot
  sync : Bool
  op : Instr
deriving DecidableEq, Repr

/-- The slots that accept an instruction (R95 to R101). An event is no slot instruction and fits none. -/
def Instr.slots : Instr → List Slot
  | .nopC => [.ctl]
  | .prep _ _ => [.ctl]
  | .preps _ _ => [.ctl]
  | .br _ _ => [.ctl]
  | .jmp _ => [.ctl]
  | .call _ => [.ctl]
  | .ret => [.ctl]
  | .brn _ _ => [.ctl]
  | .loop _ _ _ => [.ctl]
  | .loopi _ _ _ => [.ctl]
  | .loopq _ _ _ => [.ctl]
  | .lbrk _ => [.ctl]
  | .suspend => [.ctl]
  | .endTask => [.ctl]
  | .spawn _ => [.ctl]
  | .yield => [.ctl]
  | .waita _ _ _ => [.ctl]
  | .arm _ _ => [.ctl]
  | .launch _ => [.ctl]
  | .bar _ _ => [.ctl]
  | .trap _ => [.ctl]
  | .eret => [.ctl]
  | .nopS => [.sca]
  | .nopA => [.adr]
  | .add _ _ _ => [.sca, .adr]
  | .sub _ _ _ => [.sca, .adr]
  | .mul _ _ _ => [.sca, .adr]
  | .mulh _ _ _ => [.sca, .adr]
  | .mulhu _ _ _ => [.sca, .adr]
  | .div _ _ _ => [.sca, .adr]
  | .divu _ _ _ => [.sca, .adr]
  | .rem _ _ _ => [.sca, .adr]
  | .remu _ _ _ => [.sca, .adr]
  | .and _ _ _ => [.sca, .adr]
  | .or _ _ _ => [.sca, .adr]
  | .xor _ _ _ => [.sca, .adr]
  | .andn _ _ _ => [.sca, .adr]
  | .shl _ _ _ => [.sca, .adr]
  | .shr _ _ _ => [.sca, .adr]
  | .sra _ _ _ => [.sca, .adr]
  | .rotl _ _ _ => [.sca, .adr]
  | .min _ _ _ => [.sca, .adr]
  | .max _ _ _ => [.sca, .adr]
  | .minu _ _ _ => [.sca, .adr]
  | .maxu _ _ _ => [.sca, .adr]
  | .shladd _ _ _ _ => [.sca, .adr]
  | .madd _ _ _ _ => [.sca, .adr]
  | .clz _ _ => [.sca, .adr]
  | .ctz _ _ => [.sca, .adr]
  | .popc _ _ => [.sca, .adr]
  | .extr _ _ _ _ => [.sca, .adr]
  | .dep _ _ _ _ => [.sca, .adr]
  | .addi _ _ _ => [.sca, .adr]
  | .andi _ _ _ => [.sca, .adr]
  | .ori _ _ _ => [.sca, .adr]
  | .xori _ _ _ => [.sca, .adr]
  | .shli _ _ _ => [.sca, .adr]
  | .shri _ _ _ => [.sca, .adr]
  | .srai _ _ _ => [.sca, .adr]
  | .ldi _ _ => [.sca, .adr]
  | .ldhi _ _ _ => [.sca, .adr]
  | .cmpeq _ _ _ => [.sca]
  | .cmpne _ _ _ => [.sca]
  | .cmplt _ _ _ => [.sca]
  | .cmpltu _ _ _ => [.sca]
  | .cmpge _ _ _ => [.sca]
  | .cmpgeu _ _ _ => [.sca]
  | .cmpeqi _ _ _ => [.sca]
  | .cmplti _ _ _ => [.sca]
  | .cand _ _ _ => [.sca]
  | .cor _ _ _ => [.sca]
  | .sel _ _ _ _ => [.sca]
  | .fadd _ _ _ => [.sca]
  | .fsub _ _ _ => [.sca]
  | .fmul _ _ _ => [.sca]
  | .ffma _ _ _ _ => [.sca]
  | .fdiv _ _ _ => [.sca]
  | .fmin _ _ _ => [.sca]
  | .fmax _ _ _ => [.sca]
  | .fexp2 _ _ => [.sca]
  | .flog2 _ _ => [.sca]
  | .fcmplt _ _ _ => [.sca]
  | .fcmpeq _ _ _ => [.sca]
  | .itof _ _ => [.sca]
  | .ftoi _ _ => [.sca]
  | .mfsr _ _ => [.sca]
  | .mtsr _ _ => [.sca]
  | .tsc _ => [.sca]
  | .mflc _ _ _ => [.sca, .adr]
  | .mtlc _ _ _ => [.sca, .adr]
  | .desc _ _ _ => [.adr]
  | .rowad _ _ _ _ => [.adr]
  | .tilead _ _ _ _ => [.adr]
  | .incwrap _ _ _ => [.adr]
  | .cqpop _ _ => [.adr]
  | .nopV => [.va, .vb]
  | .vadd _ _ _ _ _ => [.va, .vb]
  | .vsub _ _ _ _ _ => [.va, .vb]
  | .vmul _ _ _ _ _ => [.va, .vb]
  | .vfma _ _ _ _ _ => [.va, .vb]
  | .vfms _ _ _ _ _ => [.va, .vb]
  | .vmin _ _ _ _ _ => [.va, .vb]
  | .vmax _ _ _ _ _ => [.va, .vb]
  | .vabs _ _ _ _ => [.va, .vb]
  | .vneg _ _ _ _ => [.va, .vb]
  | .vrcp _ _ _ _ => [.va, .vb]
  | .vrsq _ _ _ _ => [.va, .vb]
  | .vexp2 _ _ _ _ => [.va, .vb]
  | .vlog2 _ _ _ _ => [.va, .vb]
  | .vtanh _ _ _ _ => [.va, .vb]
  | .vscl _ _ _ _ _ => [.va, .vb]
  | .vqnt _ _ _ _ _ => [.va, .vb]
  | .vcvt _ _ _ _ _ => [.va, .vb]
  | .vdec _ _ _ _ _ => [.va, .vb]
  | .vmuls _ _ _ _ _ => [.va, .vb]
  | .vadds _ _ _ _ _ => [.va, .vb]
  | .vsel _ _ _ _ _ => [.va, .vb]
  | .viadd _ _ _ _ _ => [.va, .vb]
  | .visub _ _ _ _ _ => [.va, .vb]
  | .vimul _ _ _ _ _ => [.va, .vb]
  | .vand _ _ _ _ _ => [.va, .vb]
  | .vor _ _ _ _ _ => [.va, .vb]
  | .vxor _ _ _ _ _ => [.va, .vb]
  | .vshl _ _ _ _ _ => [.va, .vb]
  | .vshr _ _ _ _ _ => [.va, .vb]
  | .vsra _ _ _ _ _ => [.va, .vb]
  | .vimin _ _ _ _ _ => [.va, .vb]
  | .vimax _ _ _ _ _ => [.va, .vb]
  | .vpopc _ _ _ _ => [.va, .vb]
  | .viota _ _ _ => [.va, .vb]
  | .vbcst _ _ _ _ => [.va, .vb]
  | .vext _ _ _ _ => [.va, .vb]
  | .vins _ _ _ _ _ => [.va, .vb]
  | .vcmpeq _ _ _ _ _ => [.va, .vb]
  | .vcmpne _ _ _ _ _ => [.va, .vb]
  | .vcmplt _ _ _ _ _ => [.va, .vb]
  | .vcmple _ _ _ _ _ => [.va, .vb]
  | .vcmpuo _ _ _ _ _ => [.va, .vb]
  | .vclass _ _ _ _ _ => [.va, .vb]
  | .pand _ _ _ => [.va, .vb]
  | .por _ _ _ => [.va, .vb]
  | .pxor _ _ _ => [.va, .vb]
  | .pandn _ _ _ => [.va, .vb]
  | .pfirst _ _ => [.va, .vb]
  | .pcnt _ _ => [.va, .vb]
  | .vany _ _ => [.va, .vb]
  | .vall _ _ => [.va, .vb]
  | .vrsum _ _ _ _ => [.va, .vb]
  | .vrmax _ _ _ _ => [.va, .vb]
  | .vrmin _ _ _ _ => [.va, .vb]
  | .vramax _ _ _ _ => [.va, .vb]
  | .vramin _ _ _ _ => [.va, .vb]
  | .vscan _ _ _ _ => [.va, .vb]
  | .vmov _ _ _ => [.va, .vb]
  | .vperm _ _ _ _ _ => [.va, .vb]
  | .vrotm _ _ _ _ _ => [.va, .vb]
  | .vzip _ _ _ _ _ => [.va, .vb]
  | .vuzp _ _ _ _ _ => [.va, .vb]
  | .vspl _ _ _ _ => [.va, .vb]
  | .vslide _ _ _ _ _ _ => [.va, .vb]
  | .vtopk _ _ _ _ _ _ => [.va]
  | .vthcnt _ _ _ _ _ _ => [.va]
  | .vbmp _ _ _ => [.va]
  | .vrank _ _ _ _ => [.va]
  | .vselb _ _ _ _ => [.va]
  | .vhist _ _ _ _ => [.va]
  | .vcqp _ _ _ _ => [.va]
  | .rcadd _ _ => [.va]
  | .rcsnap _ => [.va]
  | .vcsum _ _ _ => [.va]
  | .ftld _ _ _ => [.va]
  | .cbld _ _ => [.va]
  | .nopM => [.mat]
  | .ttask _ => [.mat]
  | .ttaskr _ _ _ => [.mat]
  | .tqcfg _ _ => [.mat]
  | .tstat _ _ => [.mat]
  | .tevict _ => [.mat]
  | .tlate _ => [.mat]
  | .nopL => [.mem]
  | .vld _ _ _ => [.mem]
  | .vst _ _ _ _ => [.mem]
  | .vldp _ _ _ _ => [.mem]
  | .vstp _ _ _ _ _ => [.mem]
  | .vldx _ _ _ => [.mem]
  | .vstx _ _ _ _ => [.mem]
  | .sld _ _ _ => [.mem]
  | .sst _ _ _ => [.mem]
  | .copy _ _ => [.mem]
  | .fence _ _ _ => [.mem]
  | .drain _ _ => [.mem]
  | .qpush _ _ => [.mem]
  | .qpop _ _ => [.mem]
  | .qtry _ _ _ => [.mem]
  | .aset _ _ _ _ => [.mem]
  | .ajnl _ => [.mem]
  | .tgo _ _ => [.mem]
  | .trel _ _ => [.mem]
  | .tlbi _ _ => [.mem]
  | .ctxsv _ _ => [.mem]
  | .ctxld _ _ => [.mem]
  | .nopX => [.com]
  | .send _ _ _ => [.com]
  | .recv _ _ _ => [.com]
  | .recvadd _ _ _ => [.com]
  | .ssend _ _ => [.com]
  | .srecv _ _ => [.com]
  | .chcfg _ _ => [.com]
  | .chqry _ _ _ => [.com]
  | .hcoll _ => [.com]
  | .hrech _ => [.com]
  | .hqry _ _ => [.com]
  | .monitorRetest _ _ => []
  | .tileDepRetest _ _ => []
  | .queueDoorbell _ _ _ => []
  | .queueRestart _ _ _ => []
  | .gatherDoorbell _ _ _ => []
  | .gatherRow _ _ _ => []
  | .registerWrite _ _ _ _ => []
  | .btownWrite _ _ _ => []
  | .bdqcfgWrite _ _ _ => []
  | .retentionCtrlWrite _ _ _ => []
  | .claim _ _ => []
  | .handover _ _ => []
  | .admqcreate _ _ => []
  | .readClear _ _ _ => []
  | .copyDone _ _ => []
  | .wound _ => []
  | .parkResume _ => []
  | .completionRecord _ => []
  | .fetchFault _ _ => []
  | .resultLand _ _ => []
  | .arrival _ => []
  | .lockRequest _ => []
  | .lockGrant _ => []
  | .batchPush _ => []
  | .bdqPopServe _ => []
  | .channelArrival _ _ => []
  | .channelCredit _ _ => []
  | .shardRelease _ => []
  | .collAccept _ => []
  | .releaseNotice _ _ _ _ => []
  | .pageLoad _ _ => []
  | .nopPacket _ => []
  | .launchPacket _ => []
  | .image _ => []
  | .map _ => []
  | .mapComplete _ => []
  | .unmap _ => []
  | .unmapComplete _ => []
  | .flagWrite _ => []
  | .flagWait _ => []
  | .partResize _ => []
  | .gatherCfg _ => []
  | .queueCreate _ => []
  | .packetRetry _ => []
  | .ownerLinkReset => []
  | .poolDuty => []
  | .takeWork _ _ => []
  | .chunkTake _ _ => []
  | .chunkSteal _ _ => []
  | .teamPlace _ _ _ => []
  | .teamRelease _ => []
  | .sliceStopRequest _ => []
  | .sliceEnd _ => []
  | .stopPoint _ => []
  | .saveRetry _ => []
  | .resizeTimeout _ => []
  | .quadMove _ => []
  | .quadZeroEnd _ => []
  | .snapshotLand _ _ => []
  | .routingCounterOp _ => []
  | .tileStart _ => []
  | .tileDone _ _ => []
  | .copyOp _ => []
  | .fill _ => []
  | .zero _ => []
  | .acc _ => []
  | .accf _ => []
  | .cas _ => []
  | .btownZeroEnd _ _ => []
  | .spokeStart _ => []
  | .hop _ _ => []
  | .waitrel _ _ => []
  | .barrier _ _ => []
  | .mcast _ _ => []
  | .evict _ _ => []
  | .itinLoop _ _ => []
  | .mark _ _ => []
  | .itinEnd _ _ => []
  | .setwin _ _ => []
  | .hopFinish _ _ _ _ _ => []
  | .groupJoin _ _ _ => []
  | .lateDecay _ => []
  | .slotCycle => []
  | .refreshDue _ _ => []
  | .bankRefresh _ _ => []
  | .gatherEntry _ => []
  | .gatherTick _ => []
  | .barRelease _ _ _ => []
  | .waitaPoll _ _ => []
  | .woundwaitExpiry _ _ => []
  | .collAgree _ _ _ => []
  | .collContribution _ _ _ _ _ _ _ _ => []
  | .collDelivery _ _ _ _ _ _ _ => []
  | .linkFlit _ _ _ _ => []
  | .watchdog _ _ => []
  | .eccError _ _ => []
  | .retentionEntry _ => []
  | .retentionExit _ => []
  | .timebaseTick => []
  | .ptmUpdate _ => []
  | .portLinkUp _ _ _ => []
  | .port0LinkDown => []
  | .hostAccessTimeout _ => []
  | .hostMemAccess _ _ _ => []
  | .mctpRead _ _ => []
  | .mctpWrite _ _ => []
  | .attestationRequest _ _ => []
  | .pldmSensorRead _ _ => []
  | .sensorUpdate _ => []
  | .pldmFwUpdate _ => []
  | .moduleReset => []
  | .powerWindow _ => []
  | .thermalTrip _ _ => []
  | .coolantLoss => []
  | .powerAlarm => []
  | .portLinkDown _ => []
  | .thermalRelease _ _ => []
  | .chunkExponent _ _ _ _ _ _ => []
  | .collGoAbort _ _ _ _ => []

end Sys2Proof
end

