-- ==== Sys2Proof/Machine/Numeric.lean ====
section
/-!
DEFINITION. Numeric: the twelve formats, exact values, rounding and conversion (R170 to R191), and the transcendental functions (R159, R198).
Real values are exact: a sign, a natural mantissa and a power of two, or a quotient of naturals times a power of two.
-/
namespace Sys2Proof.Machine

/-- The formats of R170. -/
inductive Fmt where
  | bf16 | fp32 | fp16 | e4m3 | e5m2 | int8 | uint8 | int16 | int32 | int64 | cb4 | fx48
deriving DecidableEq, Repr

/-- The format of a code (R170): nothing for the reserved codes 0xC to 0xF. -/
def Fmt.ofCode : Nat → Option Fmt
  | 0 => some .bf16 | 1 => some .fp32 | 2 => some .fp16 | 3 => some .e4m3 | 4 => some .e5m2
  | 5 => some .int8 | 6 => some .uint8 | 7 => some .int16 | 8 => some .int32 | 9 => some .int64
  | 10 => some .cb4 | 11 => some .fx48 | _ => none

/-- Element bits (R170). -/
def Fmt.width : Fmt → Nat
  | .bf16 | .fp16 | .int16 => 16
  | .fp32 | .int32 => 32
  | .e4m3 | .e5m2 | .int8 | .uint8 => 8
  | .int64 => 64
  | .cb4 => 4
  | .fx48 => 48

/-- Lanes of a vector register (R170, R192). -/
def Fmt.lanes (f : Fmt) : Nat := 16384 / f.width

/-- The floating formats of R171. -/
def Fmt.isFloat : Fmt → Bool
  | .bf16 | .fp32 | .fp16 | .e4m3 | .e5m2 => true
  | .int8 | .uint8 | .int16 | .int32 | .int64 | .cb4 | .fx48 => false

/-- The integer formats of R173. -/
def Fmt.isInt : Fmt → Bool
  | .int8 | .uint8 | .int16 | .int32 | .int64 => true
  | .bf16 | .fp32 | .fp16 | .e4m3 | .e5m2 | .cb4 | .fx48 => false

/-- Exponent bits of a floating format (R171). -/
def Fmt.expBits : Fmt → Nat
  | .bf16 | .fp32 => 8
  | .fp16 | .e5m2 => 5
  | .e4m3 => 4
  | _ => 0

/-- Fraction bits of a floating format (R171). -/
def Fmt.fracBits : Fmt → Nat
  | .bf16 => 7 | .fp32 => 23 | .fp16 => 10 | .e4m3 => 3 | .e5m2 => 2
  | _ => 0

/-- Exponent bias (R171). -/
def Fmt.bias : Fmt → Nat
  | .bf16 | .fp32 => 127
  | .fp16 | .e5m2 => 15
  | .e4m3 => 7
  | _ => 0

/-- Exponent of the smallest subnormal (R171). -/
def Fmt.qMin (f : Fmt) : Int := 1 - (f.bias : Int) - f.fracBits

/-- The largest finite value is `maxN * 2 ^ maxQ` (R171). -/
def Fmt.maxN : Fmt → Nat
  | .e4m3 => 14
  | f => 2 ^ (f.fracBits + 1) - 1

/-- See `maxN`. In E4M3 the exponent field of all ones still encodes normal values. -/
def Fmt.maxQ : Fmt → Int
  | .e4m3 => 5
  | f => (2 ^ f.expBits : Int) - 2 - f.bias - f.fracBits

/-- Bits of the largest finite positive value. -/
def Fmt.maxBits : Fmt → Nat
  | .e4m3 => 0x7E
  | f => (2 ^ f.expBits - 1) * 2 ^ f.fracBits - 1

/-- Whether the format has infinities: every floating format but E4M3 (R171). -/
def Fmt.hasInf : Fmt → Bool
  | .bf16 | .fp32 | .fp16 | .e5m2 => true
  | .e4m3 | .int8 | .uint8 | .int16 | .int32 | .int64 | .cb4 | .fx48 => false

/-- The canonical NaN (R171). -/
def Fmt.nanBits : Fmt → Nat
  | .bf16 => 0x7FC0 | .fp32 => 0x7FC00000 | .fp16 => 0x7E00 | .e4m3 => 0x7F | .e5m2 => 0x7E
  | _ => 0

/-- Bits of +Inf. -/
def Fmt.infBits (f : Fmt) : Nat := (2 ^ f.expBits - 1) * 2 ^ f.fracBits

/-- Bits of a sign. -/
def Fmt.signBits (f : Fmt) (neg : Bool) : Nat := if neg then 2 ^ (f.width - 1) else 0

/-- Smallest value of an integer format (R173). -/
def Fmt.minInt : Fmt → Int
  | .uint8 => 0
  | f => -(2 ^ (f.width - 1) : Int)

/-- Largest value of an integer format (R173). -/
def Fmt.maxInt : Fmt → Int
  | .uint8 => 255
  | f => (2 ^ (f.width - 1) : Int) - 1

/-- Rounding modes (R177). -/
inductive Rnd where
  | rne | rtz | rdn | rup
deriving DecidableEq, Repr

/-- The mode of an RND field (R134, R177). -/
def Rnd.ofBits : Nat → Rnd
  | 0 => .rne | 1 => .rtz | 2 => .rdn | _ => .rup

/-- An exact value: NaN, an infinity, or (-1)^neg * m * 2^e. A zero keeps its sign (R172). -/
inductive Val where
  | nan
  | inf (neg : Bool)
  | fin (neg : Bool) (m : Nat) (e : Int)
deriving DecidableEq, Repr

/-- The value of an integer. -/
def Val.ofInt (x : Int) : Val := .fin (decide (x < 0)) x.natAbs 0

/-- +0. -/
def Val.zero : Val := .fin false 0 0

/-- Whether the value is a zero of either sign. -/
def Val.isZero : Val → Bool
  | .fin _ m _ => m == 0
  | .nan | .inf _ => false

/-- Whether the value is NaN. -/
def Val.isNan : Val → Bool
  | .nan => true
  | .inf _ | .fin _ _ _ => false

/-- The value of the bits of a floating format (R171). -/
def floatVal (f : Fmt) (x : Nat) : Val :=
  let neg := x / 2 ^ (f.width - 1) % 2 == 1
  let ef := x / 2 ^ f.fracBits % 2 ^ f.expBits
  let fr := x % 2 ^ f.fracBits
  if ef + 1 = 2 ^ f.expBits ∧ f.hasInf then
    if fr = 0 then .inf neg else .nan
  else if ef + 1 = 2 ^ f.expBits ∧ fr + 1 = 2 ^ f.fracBits then .nan
  else if ef = 0 then .fin neg fr f.qMin
  else .fin neg (2 ^ f.fracBits + fr) (f.qMin + ef - 1)

/-- The integer that the bits of an integer format stand for (R173). -/
def intVal (f : Fmt) (x : Nat) : Int :=
  let x := x % 2 ^ f.width
  if f ≠ .uint8 ∧ 2 ^ (f.width - 1) ≤ x then (x : Int) - 2 ^ f.width else x

/-- Val of R179 for the formats held in registers (CB4 is decoded by the operations that read it, R176). -/
def valOf (f : Fmt) (x : Nat) : Val := if f.isFloat then floatVal f x else Val.ofInt (intVal f x)

/-- A quotient rounded to a whole magnitude by a mode (R177), for a value of sign `neg`. -/
def roundQuot (rnd : Rnd) (neg : Bool) (num den : Nat) : Nat :=
  let q := num / den
  let r := num % den
  let up := match rnd with
    | .rne => decide (den < 2 * r) || (decide (2 * r = den) && q % 2 == 1)
    | .rtz => false
    | .rdn => neg && decide (r ≠ 0)
    | .rup => !neg && decide (r ≠ 0)
  if up then q + 1 else q

/-- A quotient times a power of two, rounded to a whole magnitude. -/
def roundScaled (rnd : Rnd) (neg : Bool) (num den : Nat) (e : Int) : Nat :=
  if 0 ≤ e then roundQuot rnd neg (num * 2 ^ e.toNat) den else roundQuot rnd neg num (den * 2 ^ (-e).toNat)

/-- ⌊log2 (num / den)⌋ for positive num and den. -/
def ratLog2 (num den : Nat) : Int :=
  let l : Int := (Nat.log2 num : Int) - Nat.log2 den
  let ge := if 0 ≤ l then decide (den * 2 ^ l.toNat ≤ num) else decide (den ≤ num * 2 ^ (-l).toNat)
  if ge then l else l - 1

/-- The written bits of a result that overflows (R178). -/
def overflowBits (f : Fmt) (rnd : Rnd) (sat neg : Bool) : Nat :=
  if sat then f.signBits neg + f.maxBits
  else if !f.hasInf then f.nanBits
  else
    let toInf := match rnd with
      | .rne => true
      | .rtz => false
      | .rdn => neg
      | .rup => !neg
    f.signBits neg + (if toInf then f.infBits else f.maxBits)

/-- Rounding of the exact value (-1)^neg * num / den * 2^e, num and den positive, into a floating format (R177 to R179). -/
def cvtRat (f : Fmt) (rnd : Rnd) (sat neg : Bool) (num den : Nat) (e : Int) : Nat :=
  let q := max (ratLog2 num den + e - f.fracBits) f.qMin
  let n := roundScaled rnd neg num den (e - q)
  if f.maxQ < q ∨ (q = f.maxQ ∧ f.maxN < n) then overflowBits f rnd sat neg
  else f.signBits neg + ((q - f.qMin).toNat * 2 ^ f.fracBits + n)

/-- Cvt of R179 into a floating format. -/
def cvtFloat (f : Fmt) (rnd : Rnd) (sat : Bool) : Val → Nat
  | .nan => f.nanBits
  | .inf neg => if f.hasInf then f.signBits neg + f.infBits else if sat then f.signBits neg + f.maxBits else f.nanBits
  | .fin neg m e => if m = 0 then f.signBits neg else cvtRat f rnd sat neg m 1 e

/-- An integer as a w-bit two's-complement pattern. -/
def wrapInt (w : Nat) (x : Int) : Nat := (x % 2 ^ w).toNat

/-- An integer limited to a format's range. -/
def clampInt (f : Fmt) (x : Int) : Int := min (max x f.minInt) f.maxInt

/-- W of R203: an exact integer result written into an integer format. -/
def writeInt (f : Fmt) (sat : Bool) (x : Int) : Nat := wrapInt f.width (if sat then clampInt f x else x)

/-- A floating value rounded to an integer; an infinity lies beyond every range (R179). -/
def roundToInt (f : Fmt) (rnd : Rnd) : Val → Int
  | .nan => 0
  | .inf neg => if neg then f.minInt else f.maxInt
  | .fin neg m e =>
    let n : Int := roundScaled rnd neg m 1 e
    clampInt f (if neg then -n else n)

/-- Cvt of R179, from the bits of one format to the bits of another. -/
def cvt (x : Nat) (src dst : Fmt) (rnd : Rnd) (sat : Bool) : Nat :=
  if dst.isInt then
    if src.isInt then writeInt dst sat (intVal src x) else wrapInt dst.width (roundToInt dst rnd (floatVal src x))
  else cvtFloat dst rnd sat (valOf src x)

/-- A signed mantissa at a given lower exponent. -/
def alignTo (neg : Bool) (m : Nat) (e e0 : Int) : Int :=
  let n : Int := m * 2 ^ (e - e0).toNat
  if neg then -n else n

/-- An exact integer value. -/
def Val.toInt : Val → Int
  | .fin neg m e => alignTo neg m e 0
  | .nan | .inf _ => 0

/-- The opposite value. -/
def Val.neg : Val → Val
  | .nan => .nan
  | .inf s => .inf (!s)
  | .fin s m e => .fin (!s) m e

/-- The magnitude. -/
def Val.abs : Val → Val
  | .nan => .nan
  | .inf _ => .inf false
  | .fin _ m e => .fin false m e

/-- Exact sum with the zero and NaN rules of R183, which depend on the rounding mode. -/
def Val.add (rnd : Rnd) : Val → Val → Val
  | .nan, _ => .nan
  | _, .nan => .nan
  | .inf s, .inf t => if s = t then .inf s else .nan
  | .inf s, .fin _ _ _ => .inf s
  | .fin _ _ _, .inf s => .inf s
  | .fin s m e, .fin t n g =>
    let e0 := min e g
    let r := alignTo s m e e0 + alignTo t n g e0
    if r = 0 then .fin (if s = t then s else rnd = .rdn) 0 0 else .fin (decide (r < 0)) r.natAbs e0

/-- Exact product; 0 times an infinity is NaN (R183). -/
def Val.mul : Val → Val → Val
  | .nan, _ => .nan
  | _, .nan => .nan
  | .inf s, .inf t => .inf (s != t)
  | .inf s, .fin t m _ => if m = 0 then .nan else .inf (s != t)
  | .fin s m _, .inf t => if m = 0 then .nan else .inf (s != t)
  | .fin s m e, .fin t n g => .fin (s != t) (m * n) (e + g)

/-- x < y on non-NaN values, with -0 equal to +0; false when either is NaN. -/
def Val.lt : Val → Val → Bool
  | .nan, _ => false
  | _, .nan => false
  | .inf s, .inf t => s && !t
  | .inf s, .fin _ _ _ => s
  | .fin _ _ _, .inf t => !t
  | .fin s m e, .fin t n g => decide (alignTo s m e (min e g) < alignTo t n g (min e g))

/-- x = y, with -0 equal to +0; false when either is NaN. -/
def Val.eq : Val → Val → Bool
  | .nan, _ => false
  | _, .nan => false
  | .inf s, .inf t => s == t
  | .inf _, .fin _ _ _ => false
  | .fin _ _ _, .inf _ => false
  | .fin s m e, .fin t n g => decide (alignTo s m e (min e g) = alignTo t n g (min e g))

/-- The order of R158 and R187 on non-NaN values: -0 below +0. -/
def Val.below (x y : Val) : Bool :=
  x.lt y || (x.isZero && y.isZero && (match x, y with
    | .fin s _ _, .fin t _ _ => s && !t
    | _, _ => false))

/-- The smaller operand (R158): a single NaN yields the other operand. -/
def Val.min (x y : Val) : Val :=
  if x.isNan then y else if y.isNan then x else if y.below x then y else x

/-- The larger operand (R158). -/
def Val.max (x y : Val) : Val :=
  if x.isNan then y else if y.isNan then x else if x.below y then y else x

/-- The quotient of two FP32 values, rounded once into FP32 by RNE (R157). -/
def divBits : Val → Val → Nat
  | .nan, _ => Fmt.nanBits .fp32
  | _, .nan => Fmt.nanBits .fp32
  | .inf _, .inf _ => Fmt.nanBits .fp32
  | .inf s, .fin t _ _ => Fmt.signBits .fp32 (s != t) + Fmt.infBits .fp32
  | .fin s _ _, .inf t => Fmt.signBits .fp32 (s != t)
  | .fin s m e, .fin t n g =>
    if n = 0 then
      if m = 0 then Fmt.nanBits .fp32 else Fmt.signBits .fp32 (s != t) + Fmt.infBits .fp32
    else if m = 0 then Fmt.signBits .fp32 (s != t)
    else cvtRat .fp32 .rne false (s != t) m n (e - g)

/-- FP32 bits of a value rounded by RNE. -/
def rne32 (v : Val) : Nat := cvtFloat .fp32 .rne false v

/-- Value of the low 32 bits of a scalar as FP32 (R157). -/
def fp32Of (x : Nat) : Val := floatVal .fp32 (x % 2 ^ 32)

/-- ⌊ln 2 * 2^256⌋. -/
def ln2Fixed : Nat := 0xb17217f7d1cf79abc9e3b39803f2f6af40f343267298b62d8a0d175b8baafa2b

/-- Taylor sum of e^y - the terms from `k` on; fixed point with 256 fraction bits. -/
def expSeries (y : Nat) : Nat → Nat → Nat → Nat → Nat
  | 0, _, _, acc => acc
  | fuel + 1, k, term, acc =>
    let t := term * y / (k * 2 ^ 256)
    expSeries y fuel (k + 1) t (acc + t)

/-- e^y for 0 ≤ y < 1, in fixed point with 256 fraction bits. -/
def expFixed (y : Nat) : Nat := expSeries y 70 1 (2 ^ 256) (2 ^ 256)

/-- Digits of log2 of z in [1, 2), fixed point with 320 fraction bits, by repeated squaring. -/
def log2Digits : Nat → Nat → Nat → Nat
  | 0, _, acc => acc
  | fuel + 1, z, acc =>
    let w := z * z / 2 ^ 320
    if 2 ^ 321 ≤ w then log2Digits fuel (w / 2) (2 * acc + 1) else log2Digits fuel w (2 * acc)

/-- Integer square root by bits, for numbers below 4^(fuel). -/
def isqrtBits (n : Nat) : Nat → Nat → Nat
  | 0, r => r
  | b + 1, r => if (r + 2 ^ b) * (r + 2 ^ b) ≤ n then isqrtBits n b (r + 2 ^ b) else isqrtBits n b r

/-- The integer value of a finite exact value, where it is one. -/
def wholeOf? (m : Nat) (e : Int) : Option Nat :=
  if 0 ≤ e then some (m * 2 ^ e.toNat) else if m % 2 ^ (-e).toNat = 0 then some (m / 2 ^ (-e).toNat) else none

/-- G of VEXP2 and FEXP2: 2^x rounded once to FP32, RNE (R159). DEDUCED (log 13): the bits after the 256th of the exact value
never decide a rounding to FP32. -/
def exp2Bits : Val → Nat
  | .nan => Fmt.nanBits .fp32
  | .inf neg => if neg then 0 else Fmt.infBits .fp32
  | .fin neg m e =>
    if m = 0 then 0x3F800000
    else if !neg && !(Val.lt (.fin neg m e) (.fin false 128 0)) then Fmt.infBits .fp32
    else if Val.lt (.fin neg m e) (.fin true 150 0) then 0
    else match wholeOf? m e with
      | some n => cvtRat .fp32 .rne false false 1 1 (if neg then -(n : Int) else n)
      | none =>
        let x := alignTo neg m e (-256)
        let f := (x % 2 ^ 256).toNat
        cvtRat .fp32 .rne false false (2 * expFixed (f * ln2Fixed / 2 ^ 256) + 1) 1 (x / 2 ^ 256 - 257)

/-- G of VLOG2 and FLOG2: log2 x rounded once to FP32, RNE (R159). DEDUCED (log 13). -/
def log2Bits : Val → Nat
  | .nan => Fmt.nanBits .fp32
  | .inf neg => if neg then Fmt.nanBits .fp32 else Fmt.infBits .fp32
  | .fin neg m e =>
    if m = 0 then Fmt.signBits .fp32 true + Fmt.infBits .fp32
    else if neg then Fmt.nanBits .fp32
    else
      let k := Nat.log2 m
      if m = 2 ^ k then cvtFloat .fp32 .rne false (Val.ofInt (k + e))
      else
        let r : Int := (k + e) * 2 ^ 111 + (2 * log2Digits 110 (m * 2 ^ 320 / 2 ^ k) 0 + 1 : Nat)
        cvtRat .fp32 .rne false (decide (r < 0)) r.natAbs 1 (-111)

/-- G of VTANH: tanh x rounded once to FP32, RNE (R198). Below 2^-14 the result is x, since x - tanh x is under a quarter ulp.
DEDUCED (log 13). -/
def tanhBits : Val → Nat
  | .nan => Fmt.nanBits .fp32
  | .inf neg => Fmt.signBits .fp32 neg + 0x3F800000
  | .fin neg m e =>
    if m = 0 then Fmt.signBits .fp32 neg
    else if !(Val.lt (.fin false m e) (.fin false 9 0)) then Fmt.signBits .fp32 neg + 0x3F800000
    else if Val.lt (.fin false m e) (.fin false 1 (-14)) then rne32 (.fin neg m e)
    else
      let t := expFixed (m * 2 ^ (e + 252).toNat)
      let sq := fun z : Nat => z * z / 2 ^ 256
      let big := sq (sq (sq (sq (sq t))))
      cvtRat .fp32 .rne false neg (2 * (big - 2 ^ 256) + 1) (2 * (big + 2 ^ 256)) 0

/-- G of VRCP: 1 / x rounded once to FP32, RNE (R198). -/
def rcpBits (x : Val) : Nat := divBits (.fin false 1 0) x

/-- G of VRSQ: 1 / √x rounded once to FP32, RNE (R198). -/
def rsqBits : Val → Nat
  | .nan => Fmt.nanBits .fp32
  | .inf neg => if neg then Fmt.nanBits .fp32 else 0
  | .fin neg m e =>
    if m = 0 then Fmt.signBits .fp32 neg + Fmt.infBits .fp32
    else if neg then Fmt.nanBits .fp32
    else
      let m' := if e % 2 = 0 then m else 2 * m
      let h := if e % 2 = 0 then e / 2 else (e - 1) / 2
      let r := isqrtBits (2 ^ 128 / m') 66 0
      cvtRat .fp32 .rne false false (2 * r + if r * r * m' = 2 ^ 128 then 0 else 1) 1 (-h - 65)

/-- The fields of a format-table entry (R134). -/
structure FmtEntry where
  fmt : Option Fmt
  blk : Nat
  scaled : Bool
  cb : Fin 8
  rnd : Rnd
  sat : Bool
  reservedZero : Bool
deriving DecidableEq, Repr

/-- A format-table entry read from its 16 bits (R134). -/
def FmtEntry.ofBits (x : Nat) : FmtEntry where
  fmt := Fmt.ofCode (x % 16)
  blk := 16 * 2 ^ (x / 16 % 4)
  scaled := x / 64 % 2 == 1
  cb := ⟨x / 128 % 8, Nat.mod_lt _ (by decide)⟩
  rnd := Rnd.ofBits (x / 1024 % 4)
  sat := x / 4096 % 2 == 1
  reservedZero := decide (x / 8192 % 8 = 0)

/-- The scale value of an SCL20 code: `(4096 + g) * 2 ^ (x - 127 - 12)` for 1 ≤ x ≤ 254 (R174). -/
def scaleExp (s : Nat) : Nat := s / 4096 % 256
/-- Fraction of an SCL20 code, with its leading one. -/
def scaleMant (s : Nat) : Nat := 4096 + s % 4096
/-- Exponent of `scaleMant` in the scale's value. -/
def scalePow (s : Nat) : Int := (scaleExp s : Int) - 139

/-- An element value multiplied exactly by its block scale (R174, R175); NaN stands for the canonical NaN of the operation's format. -/
def scaledVal (v : Val) (s : Nat) : Val :=
  if scaleExp s = 0 then .zero
  else if scaleExp s = 255 then .nan
  else v.mul (.fin false (scaleMant s) (scalePow s))

/-- Enc of R174 for the positive quotient num / den * 2^e. Where the exponent field is 0 or 255 the fraction is 0 (DESIGN CHOICE: R174 and R200 fix only
the exponent field there; log 16). -/
def encodeScale (num den : Nat) (e : Int) : Nat :=
  let q := ratLog2 num den + e - 12
  let n := roundScaled .rne false num den (e - q)
  let q' := if n = 8192 then q + 1 else q
  let n' := if n = 8192 then 4096 else n
  let x := q' + 12 + 127
  if x < 1 then 0
  else if 254 < x then 255 * 4096
  else x.toNat * 4096 + (n' - 4096)

end Sys2Proof.Machine
end

