-- ==== Sys2Proof/WellFormed.lean ====
section
/-!
DEFINITION. WellFormed: the limits on operands that the types of Syntax do not already give (R88, R90 item 3, R95 to R101).
The checks that need the whole bundle or the context (R90 items 1, 4, 5, 6) stand with the step.
-/
namespace Sys2Proof

/-- The operand limits of one instruction. -/
def Instr.wf : Instr → Bool
  | .extr _ _ lo w1 | .dep _ _ lo w1 => decide (lo.val + w1.val + 1 ≤ 64)
  | .bar scope _ => decide (1 ≤ scope.val ∧ scope.val ≤ 5)
  | .vcmpeq d _ _ _ _ | .vcmpne d _ _ _ _ | .vcmplt d _ _ _ _ | .vcmple d _ _ _ _ | .vcmpuo d _ _ _ _ => decide (d ≠ 0)
  | .vclass d _ _ _ _ => decide (d ≠ 0)
  | .pand d _ _ | .por d _ _ | .pxor d _ _ | .pandn d _ _ => decide (d ≠ 0)
  | .pfirst d _ => decide (d ≠ 0)
  | .vqnt d _ b _ _ => decide (d ≠ b)
  | .vtopk _ a _ _ _ g1 => decide (a.val + g1.val ≤ 255)
  | .ttaskr _ b n1 => decide (b.val + n1.val ≤ 255)
  | .aset _ _ _ g => decide (g ≠ 7)
  | .vldp _ a _ _ => decide (a.val % 2 = 0)
  | .vstp _ a _ _ _ => decide (a.val % 2 = 0)
  | _ => true

/-- A slot word is well formed when its slot accepts the operation and its operands keep their limits. -/
def SlotWord.wf (x : SlotWord) : Bool := x.op.slots.contains x.slot && x.op.wf

end Sys2Proof
end

