-- ==== Sys2Proof/Decode.lean ====
section
/-!
DEFINITION. Decode: from the bits of a slot word or the bytes of a bundle to instructions, total and rejecting by name, and the encoder.
Encodings: R83 to R101.
-/
namespace Sys2Proof

/-- A field read as a number below `n`, or nothing when it is out of range (R88: the field's higher bits must be zero). -/
def fin? (n x : Nat) : Option (Fin n) := if h : x < n then some ⟨x, h⟩ else none

/-- A field read as an `n`-bit immediate, or nothing when it does not fit. -/
def bits? (n x : Nat) : Option (BitVec n) := if x < 2 ^ n then some (BitVec.ofNat n x) else none

/-- A one-bit field. -/
def bit? (x : Nat) : Option Bool := if x = 0 then some false else if x = 1 then some true else none

/-- The system register of a number, or nothing when R162 names none. -/
def SysReg.ofNumber? (n : Nat) : Option SysReg :=
  match n with
  | 0x000 => some .taskid | 0x001 => some .ticket | 0x002 => some .jobid | 0x003 => some .partid
  | 0x004 => some .coreid | 0x005 => some .quadid | 0x006 => some .dieid | 0x007 => some .pkgid
  | 0x008 => some .ctxid | 0x009 => some .prio | 0x00A => some .wexp | 0x00B => some .cflags
  | 0x010 => some .epolicyS
  | 0x011 => some (.epolicyV 0) | 0x012 => some (.epolicyV 1) | 0x013 => some (.epolicyV 2) | 0x014 => some (.epolicyV 3)
  | 0x018 => some .ftbase | 0x019 => some .ftsel | 0x01A => some .xfer | 0x01B => some .teamcyc
  | 0x020 => some .jnlbase | 0x030 => some .trapvec | 0x031 => some .traparea | 0x032 => some .epc
  | 0x033 => some .exfer | 0x034 => some .estat | 0x035 => some .mode
  | _ => none

/-- Format selection from the F and M fields of an operation whose M is fmt (R88). -/
def fmtOf? (f m : Nat) : Option FmtSel :=
  if 256 ≤ m then
    if m / 16 % 16 = 0 ∧ f = 0 then (fin? 16 (m % 16)).map .code else none
  else if m = 0 then (fin? 8 f).map .column else none

/-- Destination format of VCVT from its M field (R98, R201). -/
def dstFmt? (m : Nat) : Option FmtSel :=
  if 256 ≤ m then
    if m / 16 % 16 = 0 then (fin? 16 (m % 16)).map .code else none
  else (fin? 8 m).map .column

/-- F field of a format selection. -/
def FmtSel.fField : FmtSel → Nat
  | .column f => f.val
  | .code _ => 0

/-- M field of a format selection. -/
def FmtSel.mField : FmtSel → Nat
  | .column _ => 0
  | .code c => 256 + c.val

/-- M field of a VCVT destination. -/
def FmtSel.dstField : FmtSel → Nat
  | .column f => f.val
  | .code c => 256 + c.val

/-- Form R3: d[23:18] a[17:12] b[11:6] x[5:0] (R86). -/
def unR3 {α : Type} (r : Nat) (k : Nat → Nat → Nat → Nat → α) : α :=
  k (r / 262144 % 64) (r / 4096 % 64) (r / 64 % 64) (r % 64)
/-- Form RI: d[23:18] a[17:12] i12[11:0] (R86). -/
def unRI {α : Type} (r : Nat) (k : Nat → Nat → Nat → α) : α := k (r / 262144 % 64) (r / 4096 % 64) (r % 4096)
/-- Form I18: d[23:18] i18[17:0] (R86). -/
def unI18 {α : Type} (r : Nat) (k : Nat → Nat → α) : α := k (r / 262144 % 64) (r % 262144)
/-- Form J: t[23:22] off22[21:0] (R86). -/
def unJ {α : Type} (r : Nat) (k : Nat → Nat → α) : α := k (r / 4194304 % 4) (r % 4194304)
/-- Form L: lc[23:22] n[21:12] end[11:0] (R86). -/
def unL {α : Type} (r : Nat) (k : Nat → Nat → Nat → α) : α := k (r / 4194304 % 4) (r / 4096 % 1024) (r % 4096)
/-- Form K: d[23:18] k[17:16] imm16[15:0] (R86). -/
def unK {α : Type} (r : Nat) (k : Nat → Nat → Nat → α) : α := k (r / 262144 % 64) (r / 65536 % 4) (r % 65536)
/-- Form CH: ch[23:18] reg[17:10] mode[9:0] (R86). -/
def unCH {α : Type} (r : Nat) (k : Nat → Nat → Nat → α) : α := k (r / 262144 % 64) (r / 1024 % 256) (r % 1024)
/-- The 48-bit form below its opcode: D[39:32] A[31:24] B[23:16] P[15:12] F[11:9] M[8:0] (R87). -/
def unV {α : Type} (r : Nat) (k : Nat → Nat → Nat → Nat → Nat → Nat → α) : α :=
  k (r / 4294967296 % 256) (r / 16777216 % 256) (r / 65536 % 256) (r / 4096 % 16) (r / 512 % 8) (r % 512)

/-- Form R3, packed. -/
def packR3 (d a b x : Nat) : Nat := d * 262144 + a * 4096 + b * 64 + x
/-- Form RI, packed. -/
def packRI (d a i : Nat) : Nat := d * 262144 + a * 4096 + i
/-- Form I18, packed. -/
def packI18 (d i : Nat) : Nat := d * 262144 + i
/-- Form J, packed. -/
def packJ (t off : Nat) : Nat := t * 4194304 + off
/-- Form L, packed. -/
def packL (l n e : Nat) : Nat := l * 4194304 + n * 4096 + e
/-- Form K, packed. -/
def packK (d k imm : Nat) : Nat := d * 262144 + k * 65536 + imm
/-- Form CH, packed. -/
def packCH (ch reg mode : Nat) : Nat := ch * 262144 + reg * 1024 + mode
/-- The 48-bit form below its opcode, packed. -/
def packV (d a b p f m : Nat) : Nat := d * 4294967296 + a * 16777216 + b * 65536 + p * 4096 + f * 512 + m

/-- The CTL opcodes of R95. -/
def decCtl (op r : Nat) : Option Instr :=
  match op with
  | 0x00 => if r = 0 then some .nopC else none
  | 0x01 => unJ r fun t off => do let t' ← fin? 4 t; let off' ← bits? 22 off; some (.prep t' off')
  | 0x02 => unR3 r fun d a b x => if b = 0 ∧ x = 0 then do let d' ← fin? 4 d; let a' ← fin? 64 a; some (.preps d' a') else none
  | 0x03 => unR3 r fun d a b x => if d = 0 ∧ x = 0 then do let a' ← fin? 8 a; let b' ← fin? 4 b; some (.br a' b') else none
  | 0x04 => unR3 r fun d a b x => if d = 0 ∧ a = 0 ∧ x = 0 then do let b' ← fin? 4 b; some (.jmp b') else none
  | 0x05 => unR3 r fun d a b x => if d = 0 ∧ a = 0 ∧ x = 0 then do let b' ← fin? 4 b; some (.call b') else none
  | 0x06 => if r = 0 then some .ret else none
  | 0x07 => unR3 r fun d a b x => if d = 0 ∧ x = 0 then do let a' ← fin? 8 a; let b' ← fin? 4 b; some (.brn a' b') else none
  | 0x08 => unRI r fun d a i => do let d' ← fin? 4 d; let a' ← fin? 64 a; let i' ← bits? 12 i; some (.loop d' a' i')
  | 0x09 => unL r fun lc n e => do let lc' ← fin? 4 lc; let n' ← bits? 10 n; let e' ← bits? 12 e; some (.loopi lc' n' e')
  | 0x0A => unRI r fun d a i => do let d' ← fin? 4 d; let a' ← fin? 4 a; let i' ← bits? 12 i; some (.loopq d' a' i')
  | 0x0B => unR3 r fun d a b x => if a = 0 ∧ b = 0 ∧ x = 0 then do let d' ← fin? 4 d; some (.lbrk d') else none
  | 0x10 => if r = 0 then some .suspend else none
  | 0x11 => if r = 0 then some .endTask else none
  | 0x12 => unR3 r fun d a b x => if d = 0 ∧ b = 0 ∧ x = 0 then do let a' ← fin? 64 a; some (.spawn a') else none
  | 0x13 => if r = 0 then some .yield else none
  | 0x14 => unR3 r fun d a b x => if d = 0 then do let a' ← fin? 64 a; let b' ← fin? 64 b; let x' ← fin? 4 x; some (.waita a' b' x') else none
  | 0x15 => unR3 r fun d a b x => if d = 0 ∧ x = 0 then do let a' ← fin? 64 a; let b' ← fin? 64 b; some (.arm a' b') else none
  | 0x16 => unR3 r fun d a b x => if d = 0 ∧ b = 0 ∧ x = 0 then do let a' ← fin? 64 a; some (.launch a') else none
  | 0x18 => unRI r fun d a i => if a = 0 then do let d' ← fin? 8 d; let i' ← fin? 64 i; some (.bar d' i') else none
  | 0x19 => unRI r fun d a i => if d = 0 ∧ a = 0 then do let i' ← bits? 12 i; some (.trap i') else none
  | 0x1A => if r = 0 then some .eret else none
  | _ => none

/-- The opcodes that SCA and ADR share: 0x01 to 0x28, 0x53 and 0x54 (R96, R97). -/
def decAlu (op r : Nat) : Option Instr :=
  match op with
  | 0x01 => unR3 r fun d a b x => if x = 0 then do let d' ← fin? 64 d; let a' ← fin? 64 a; let b' ← fin? 64 b; some (.add d' a' b') else none
  | 0x02 => unR3 r fun d a b x => if x = 0 then do let d' ← fin? 64 d; let a' ← fin? 64 a; let b' ← fin? 64 b; some (.sub d' a' b') else none
  | 0x03 => unR3 r fun d a b x => if x = 0 then do let d' ← fin? 64 d; let a' ← fin? 64 a; let b' ← fin? 64 b; some (.mul d' a' b') else none
  | 0x04 => unR3 r fun d a b x => if x = 0 then do let d' ← fin? 64 d; let a' ← fin? 64 a; let b' ← fin? 64 b; some (.mulh d' a' b') else none
  | 0x05 => unR3 r fun d a b x => if x = 0 then do let d' ← fin? 64 d; let a' ← fin? 64 a; let b' ← fin? 64 b; some (.mulhu d' a' b') else none
  | 0x06 => unR3 r fun d a b x => if x = 0 then do let d' ← fin? 64 d; let a' ← fin? 64 a; let b' ← fin? 64 b; some (.div d' a' b') else none
  | 0x07 => unR3 r fun d a b x => if x = 0 then do let d' ← fin? 64 d; let a' ← fin? 64 a; let b' ← fin? 64 b; some (.divu d' a' b') else none
  | 0x08 => unR3 r fun d a b x => if x = 0 then do let d' ← fin? 64 d; let a' ← fin? 64 a; let b' ← fin? 64 b; some (.rem d' a' b') else none
  | 0x09 => unR3 r fun d a b x => if x = 0 then do let d' ← fin? 64 d; let a' ← fin? 64 a; let b' ← fin? 64 b; some (.remu d' a' b') else none
  | 0x0A => unR3 r fun d a b x => if x = 0 then do let d' ← fin? 64 d; let a' ← fin? 64 a; let b' ← fin? 64 b; some (.and d' a' b') else none
  | 0x0B => unR3 r fun d a b x => if x = 0 then do let d' ← fin? 64 d; let a' ← fin? 64 a; let b' ← fin? 64 b; some (.or d' a' b') else none
  | 0x0C => unR3 r fun d a b x => if x = 0 then do let d' ← fin? 64 d; let a' ← fin? 64 a; let b' ← fin? 64 b; some (.xor d' a' b') else none
  | 0x0D => unR3 r fun d a b x => if x = 0 then do let d' ← fin? 64 d; let a' ← fin? 64 a; let b' ← fin? 64 b; some (.andn d' a' b') else none
  | 0x0E => unR3 r fun d a b x => if x = 0 then do let d' ← fin? 64 d; let a' ← fin? 64 a; let b' ← fin? 64 b; some (.shl d' a' b') else none
  | 0x0F => unR3 r fun d a b x => if x = 0 then do let d' ← fin? 64 d; let a' ← fin? 64 a; let b' ← fin? 64 b; some (.shr d' a' b') else none
  | 0x10 => unR3 r fun d a b x => if x = 0 then do let d' ← fin? 64 d; let a' ← fin? 64 a; let b' ← fin? 64 b; some (.sra d' a' b') else none
  | 0x11 => unR3 r fun d a b x => if x = 0 then do let d' ← fin? 64 d; let a' ← fin? 64 a; let b' ← fin? 64 b; some (.rotl d' a' b') else none
  | 0x12 => unR3 r fun d a b x => if x = 0 then do let d' ← fin? 64 d; let a' ← fin? 64 a; let b' ← fin? 64 b; some (.min d' a' b') else none
  | 0x13 => unR3 r fun d a b x => if x = 0 then do let d' ← fin? 64 d; let a' ← fin? 64 a; let b' ← fin? 64 b; some (.max d' a' b') else none
  | 0x14 => unR3 r fun d a b x => if x = 0 then do let d' ← fin? 64 d; let a' ← fin? 64 a; let b' ← fin? 64 b; some (.minu d' a' b') else none
  | 0x15 => unR3 r fun d a b x => if x = 0 then do let d' ← fin? 64 d; let a' ← fin? 64 a; let b' ← fin? 64 b; some (.maxu d' a' b') else none
  | 0x16 => unR3 r fun d a b x => do let d' ← fin? 64 d; let a' ← fin? 64 a; let b' ← fin? 64 b; let x' ← fin? 4 x; some (.shladd d' a' b' x')
  | 0x17 => unR3 r fun d a b x => do let d' ← fin? 64 d; let a' ← fin? 64 a; let b' ← fin? 64 b; let x' ← fin? 64 x; some (.madd d' a' b' x')
  | 0x18 => unR3 r fun d a b x => if b = 0 ∧ x = 0 then do let d' ← fin? 64 d; let a' ← fin? 64 a; some (.clz d' a') else none
  | 0x19 => unR3 r fun d a b x => if b = 0 ∧ x = 0 then do let d' ← fin? 64 d; let a' ← fin? 64 a; some (.ctz d' a') else none
  | 0x1A => unR3 r fun d a b x => if b = 0 ∧ x = 0 then do let d' ← fin? 64 d; let a' ← fin? 64 a; some (.popc d' a') else none
  | 0x1B => unR3 r fun d a b x => do let d' ← fin? 64 d; let a' ← fin? 64 a; let b' ← fin? 64 b; let x' ← fin? 64 x; some (.extr d' a' b' x')
  | 0x1C => unR3 r fun d a b x => do let d' ← fin? 64 d; let a' ← fin? 64 a; let b' ← fin? 64 b; let x' ← fin? 64 x; some (.dep d' a' b' x')
  | 0x20 => unRI r fun d a i => do let d' ← fin? 64 d; let a' ← fin? 64 a; let i' ← bits? 12 i; some (.addi d' a' i')
  | 0x21 => unRI r fun d a i => do let d' ← fin? 64 d; let a' ← fin? 64 a; let i' ← bits? 12 i; some (.andi d' a' i')
  | 0x22 => unRI r fun d a i => do let d' ← fin? 64 d; let a' ← fin? 64 a; let i' ← bits? 12 i; some (.ori d' a' i')
  | 0x23 => unRI r fun d a i => do let d' ← fin? 64 d; let a' ← fin? 64 a; let i' ← bits? 12 i; some (.xori d' a' i')
  | 0x24 => unRI r fun d a i => do let d' ← fin? 64 d; let a' ← fin? 64 a; let i' ← fin? 64 i; some (.shli d' a' i')
  | 0x25 => unRI r fun d a i => do let d' ← fin? 64 d; let a' ← fin? 64 a; let i' ← fin? 64 i; some (.shri d' a' i')
  | 0x26 => unRI r fun d a i => do let d' ← fin? 64 d; let a' ← fin? 64 a; let i' ← fin? 64 i; some (.srai d' a' i')
  | 0x27 => unI18 r fun d i => do let d' ← fin? 64 d; let i' ← bits? 18 i; some (.ldi d' i')
  | 0x28 => unK r fun d k imm => do let d' ← fin? 64 d; let k' ← fin? 4 k; let imm' ← bits? 16 imm; some (.ldhi d' k' imm')
  | 0x53 => unR3 r fun d a b x => if b = 0 then do let d' ← fin? 64 d; let a' ← fin? 4 a; let x' ← fin? 4 x; some (.mflc d' a' x') else none
  | 0x54 => unR3 r fun d a b x => if b = 0 then do let d' ← fin? 4 d; let x' ← fin? 4 x; let a' ← fin? 64 a; some (.mtlc d' x' a') else none
  | _ => none

/-- The opcodes of SCA alone (R96). -/
def decScaOnly (op r : Nat) : Option Instr :=
  match op with
  | 0x00 => if r = 0 then some .nopS else none
  | 0x30 => unR3 r fun d a b x => if x = 0 then do let d' ← fin? 8 d; let a' ← fin? 64 a; let b' ← fin? 64 b; some (.cmpeq d' a' b') else none
  | 0x31 => unR3 r fun d a b x => if x = 0 then do let d' ← fin? 8 d; let a' ← fin? 64 a; let b' ← fin? 64 b; some (.cmpne d' a' b') else none
  | 0x32 => unR3 r fun d a b x => if x = 0 then do let d' ← fin? 8 d; let a' ← fin? 64 a; let b' ← fin? 64 b; some (.cmplt d' a' b') else none
  | 0x33 => unR3 r fun d a b x => if x = 0 then do let d' ← fin? 8 d; let a' ← fin? 64 a; let b' ← fin? 64 b; some (.cmpltu d' a' b') else none
  | 0x34 => unR3 r fun d a b x => if x = 0 then do let d' ← fin? 8 d; let a' ← fin? 64 a; let b' ← fin? 64 b; some (.cmpge d' a' b') else none
  | 0x35 => unR3 r fun d a b x => if x = 0 then do let d' ← fin? 8 d; let a' ← fin? 64 a; let b' ← fin? 64 b; some (.cmpgeu d' a' b') else none
  | 0x36 => unRI r fun d a i => do let d' ← fin? 8 d; let a' ← fin? 64 a; let i' ← bits? 12 i; some (.cmpeqi d' a' i')
  | 0x37 => unRI r fun d a i => do let d' ← fin? 8 d; let a' ← fin? 64 a; let i' ← bits? 12 i; some (.cmplti d' a' i')
  | 0x38 => unR3 r fun d a b x => if x = 0 then do let d' ← fin? 8 d; let a' ← fin? 8 a; let b' ← fin? 8 b; some (.cand d' a' b') else none
  | 0x39 => unR3 r fun d a b x => if x = 0 then do let d' ← fin? 8 d; let a' ← fin? 8 a; let b' ← fin? 8 b; some (.cor d' a' b') else none
  | 0x3C => unR3 r fun d a b x => do let d' ← fin? 64 d; let a' ← fin? 64 a; let b' ← fin? 64 b; let x' ← fin? 8 x; some (.sel d' a' b' x')
  | 0x40 => unR3 r fun d a b x => if x = 0 then do let d' ← fin? 64 d; let a' ← fin? 64 a; let b' ← fin? 64 b; some (.fadd d' a' b') else none
  | 0x41 => unR3 r fun d a b x => if x = 0 then do let d' ← fin? 64 d; let a' ← fin? 64 a; let b' ← fin? 64 b; some (.fsub d' a' b') else none
  | 0x42 => unR3 r fun d a b x => if x = 0 then do let d' ← fin? 64 d; let a' ← fin? 64 a; let b' ← fin? 64 b; some (.fmul d' a' b') else none
  | 0x43 => unR3 r fun d a b x => do let d' ← fin? 64 d; let a' ← fin? 64 a; let b' ← fin? 64 b; let x' ← fin? 64 x; some (.ffma d' a' b' x')
  | 0x44 => unR3 r fun d a b x => if x = 0 then do let d' ← fin? 64 d; let a' ← fin? 64 a; let b' ← fin? 64 b; some (.fdiv d' a' b') else none
  | 0x45 => unR3 r fun d a b x => if x = 0 then do let d' ← fin? 64 d; let a' ← fin? 64 a; let b' ← fin? 64 b; some (.fmin d' a' b') else none
  | 0x46 => unR3 r fun d a b x => if x = 0 then do let d' ← fin? 64 d; let a' ← fin? 64 a; let b' ← fin? 64 b; some (.fmax d' a' b') else none
  | 0x47 => unR3 r fun d a b x => if b = 0 ∧ x = 0 then do let d' ← fin? 64 d; let a' ← fin? 64 a; some (.fexp2 d' a') else none
  | 0x48 => unR3 r fun d a b x => if b = 0 ∧ x = 0 then do let d' ← fin? 64 d; let a' ← fin? 64 a; some (.flog2 d' a') else none
  | 0x49 => unR3 r fun d a b x => if x = 0 then do let d' ← fin? 8 d; let a' ← fin? 64 a; let b' ← fin? 64 b; some (.fcmplt d' a' b') else none
  | 0x4A => unR3 r fun d a b x => if x = 0 then do let d' ← fin? 8 d; let a' ← fin? 64 a; let b' ← fin? 64 b; some (.fcmpeq d' a' b') else none
  | 0x4B => unR3 r fun d a b x => if b = 0 ∧ x = 0 then do let d' ← fin? 64 d; let a' ← fin? 64 a; some (.itof d' a') else none
  | 0x4C => unR3 r fun d a b x => if b = 0 ∧ x = 0 then do let d' ← fin? 64 d; let a' ← fin? 64 a; some (.ftoi d' a') else none
  | 0x50 => unRI r fun d a i => if a = 0 then do let d' ← fin? 64 d; let i' ← SysReg.ofNumber? i; some (.mfsr d' i') else none
  | 0x51 => unRI r fun d a i => if d = 0 then do let i' ← SysReg.ofNumber? i; let a' ← fin? 64 a; some (.mtsr i' a') else none
  | 0x52 => unR3 r fun d a b x => if a = 0 ∧ b = 0 ∧ x = 0 then do let d' ← fin? 64 d; some (.tsc d') else none
  | _ => none

/-- The opcodes of ADR alone (R97). -/
def decAdrOnly (op r : Nat) : Option Instr :=
  match op with
  | 0x00 => if r = 0 then some .nopA else none
  | 0x60 => unR3 r fun d a b x => if x = 0 then do let d' ← fin? 64 d; let a' ← fin? 64 a; let b' ← fin? 64 b; some (.desc d' a' b') else none
  | 0x61 => unR3 r fun d a b x => do let d' ← fin? 64 d; let a' ← fin? 64 a; let b' ← fin? 64 b; let x' ← fin? 64 x; some (.rowad d' a' b' x')
  | 0x62 => unR3 r fun d a b x => do let d' ← fin? 64 d; let a' ← fin? 64 a; let b' ← fin? 64 b; let x' ← fin? 64 x; some (.tilead d' a' b' x')
  | 0x63 => unR3 r fun d a b x => if x = 0 then do let d' ← fin? 64 d; let a' ← fin? 64 a; let b' ← fin? 64 b; some (.incwrap d' a' b') else none
  | 0x64 => unR3 r fun d a b x => if b = 0 ∧ x = 0 then do let d' ← fin? 64 d; let a' ← fin? 4 a; some (.cqpop d' a') else none
  | _ => none

/-- The vector opcodes that VA and VB share (R98). -/
def decVec (op r : Nat) : Option Instr :=
  match op with
  | 0x00 => if r = 0 then some .nopV else none
  | 0x01 => unV r fun d a b p f m => do let d' ← fin? 256 d; let a' ← fin? 256 a; let b' ← fin? 256 b; let p' ← fin? 16 p; let fm ← fmtOf? f m; some (.vadd d' a' b' p' fm)
  | 0x02 => unV r fun d a b p f m => do let d' ← fin? 256 d; let a' ← fin? 256 a; let b' ← fin? 256 b; let p' ← fin? 16 p; let fm ← fmtOf? f m; some (.vsub d' a' b' p' fm)
  | 0x03 => unV r fun d a b p f m => do let d' ← fin? 256 d; let a' ← fin? 256 a; let b' ← fin? 256 b; let p' ← fin? 16 p; let fm ← fmtOf? f m; some (.vmul d' a' b' p' fm)
  | 0x04 => unV r fun d a b p f m => do let d' ← fin? 256 d; let a' ← fin? 256 a; let b' ← fin? 256 b; let p' ← fin? 16 p; let fm ← fmtOf? f m; some (.vfma d' a' b' p' fm)
  | 0x05 => unV r fun d a b p f m => do let d' ← fin? 256 d; let a' ← fin? 256 a; let b' ← fin? 256 b; let p' ← fin? 16 p; let fm ← fmtOf? f m; some (.vfms d' a' b' p' fm)
  | 0x06 => unV r fun d a b p f m => do let d' ← fin? 256 d; let a' ← fin? 256 a; let b' ← fin? 256 b; let p' ← fin? 16 p; let fm ← fmtOf? f m; some (.vmin d' a' b' p' fm)
  | 0x07 => unV r fun d a b p f m => do let d' ← fin? 256 d; let a' ← fin? 256 a; let b' ← fin? 256 b; let p' ← fin? 16 p; let fm ← fmtOf? f m; some (.vmax d' a' b' p' fm)
  | 0x08 => unV r fun d a b p f m => if b = 0 then do let d' ← fin? 256 d; let a' ← fin? 256 a; let p' ← fin? 16 p; let fm ← fmtOf? f m; some (.vabs d' a' p' fm) else none
  | 0x09 => unV r fun d a b p f m => if b = 0 then do let d' ← fin? 256 d; let a' ← fin? 256 a; let p' ← fin? 16 p; let fm ← fmtOf? f m; some (.vneg d' a' p' fm) else none
  | 0x0A => unV r fun d a b p f m => if b = 0 then do let d' ← fin? 256 d; let a' ← fin? 256 a; let p' ← fin? 16 p; let fm ← fmtOf? f m; some (.vrcp d' a' p' fm) else none
  | 0x0B => unV r fun d a b p f m => if b = 0 then do let d' ← fin? 256 d; let a' ← fin? 256 a; let p' ← fin? 16 p; let fm ← fmtOf? f m; some (.vrsq d' a' p' fm) else none
  | 0x0C => unV r fun d a b p f m => if b = 0 then do let d' ← fin? 256 d; let a' ← fin? 256 a; let p' ← fin? 16 p; let fm ← fmtOf? f m; some (.vexp2 d' a' p' fm) else none
  | 0x0D => unV r fun d a b p f m => if b = 0 then do let d' ← fin? 256 d; let a' ← fin? 256 a; let p' ← fin? 16 p; let fm ← fmtOf? f m; some (.vlog2 d' a' p' fm) else none
  | 0x0E => unV r fun d a b p f m => if b = 0 then do let d' ← fin? 256 d; let a' ← fin? 256 a; let p' ← fin? 16 p; let fm ← fmtOf? f m; some (.vtanh d' a' p' fm) else none
  | 0x0F => unV r fun d a b p f m => do let d' ← fin? 256 d; let a' ← fin? 256 a; let b' ← fin? 256 b; let p' ← fin? 16 p; let fm ← fmtOf? f m; some (.vscl d' a' b' p' fm)
  | 0x10 => unV r fun d a b p f m => do let d' ← fin? 256 d; let a' ← fin? 256 a; let b' ← fin? 256 b; let p' ← fin? 16 p; let fm ← fmtOf? f m; some (.vqnt d' a' b' p' fm)
  | 0x11 => unV r fun d a b p f m => if b = 0 then do let d' ← fin? 256 d; let a' ← fin? 256 a; let p' ← fin? 16 p; let f' ← fin? 8 f; let dm ← dstFmt? m; some (.vcvt d' a' p' f' dm) else none
  | 0x12 => unV r fun d a b p f m => if b = 0 then do let d' ← fin? 256 d; let a' ← fin? 256 a; let p' ← fin? 16 p; let f' ← fin? 8 f; let m' ← fin? 8 m; some (.vdec d' a' p' f' m') else none
  | 0x13 => unV r fun d a b p f m => do let d' ← fin? 256 d; let a' ← fin? 256 a; let b' ← fin? 64 b; let p' ← fin? 16 p; let fm ← fmtOf? f m; some (.vmuls d' a' b' p' fm)
  | 0x14 => unV r fun d a b p f m => do let d' ← fin? 256 d; let a' ← fin? 256 a; let b' ← fin? 64 b; let p' ← fin? 16 p; let fm ← fmtOf? f m; some (.vadds d' a' b' p' fm)
  | 0x15 => unV r fun d a b p f m => do let d' ← fin? 256 d; let a' ← fin? 256 a; let b' ← fin? 256 b; let p' ← fin? 16 p; let fm ← fmtOf? f m; some (.vsel d' a' b' p' fm)
  | 0x20 => unV r fun d a b p f m => do let d' ← fin? 256 d; let a' ← fin? 256 a; let b' ← fin? 256 b; let p' ← fin? 16 p; let fm ← fmtOf? f m; some (.viadd d' a' b' p' fm)
  | 0x21 => unV r fun d a b p f m => do let d' ← fin? 256 d; let a' ← fin? 256 a; let b' ← fin? 256 b; let p' ← fin? 16 p; let fm ← fmtOf? f m; some (.visub d' a' b' p' fm)
  | 0x22 => unV r fun d a b p f m => do let d' ← fin? 256 d; let a' ← fin? 256 a; let b' ← fin? 256 b; let p' ← fin? 16 p; let fm ← fmtOf? f m; some (.vimul d' a' b' p' fm)
  | 0x23 => unV r fun d a b p f m => do let d' ← fin? 256 d; let a' ← fin? 256 a; let b' ← fin? 256 b; let p' ← fin? 16 p; let fm ← fmtOf? f m; some (.vand d' a' b' p' fm)
  | 0x24 => unV r fun d a b p f m => do let d' ← fin? 256 d; let a' ← fin? 256 a; let b' ← fin? 256 b; let p' ← fin? 16 p; let fm ← fmtOf? f m; some (.vor d' a' b' p' fm)
  | 0x25 => unV r fun d a b p f m => do let d' ← fin? 256 d; let a' ← fin? 256 a; let b' ← fin? 256 b; let p' ← fin? 16 p; let fm ← fmtOf? f m; some (.vxor d' a' b' p' fm)
  | 0x26 => unV r fun d a b p f m => do let d' ← fin? 256 d; let a' ← fin? 256 a; let b' ← fin? 256 b; let p' ← fin? 16 p; let fm ← fmtOf? f m; some (.vshl d' a' b' p' fm)
  | 0x27 => unV r fun d a b p f m => do let d' ← fin? 256 d; let a' ← fin? 256 a; let b' ← fin? 256 b; let p' ← fin? 16 p; let fm ← fmtOf? f m; some (.vshr d' a' b' p' fm)
  | 0x28 => unV r fun d a b p f m => do let d' ← fin? 256 d; let a' ← fin? 256 a; let b' ← fin? 256 b; let p' ← fin? 16 p; let fm ← fmtOf? f m; some (.vsra d' a' b' p' fm)
  | 0x29 => unV r fun d a b p f m => do let d' ← fin? 256 d; let a' ← fin? 256 a; let b' ← fin? 256 b; let p' ← fin? 16 p; let fm ← fmtOf? f m; some (.vimin d' a' b' p' fm)
  | 0x2A => unV r fun d a b p f m => do let d' ← fin? 256 d; let a' ← fin? 256 a; let b' ← fin? 256 b; let p' ← fin? 16 p; let fm ← fmtOf? f m; some (.vimax d' a' b' p' fm)
  | 0x2B => unV r fun d a b p f m => if b = 0 then do let d' ← fin? 256 d; let a' ← fin? 256 a; let p' ← fin? 16 p; let fm ← fmtOf? f m; some (.vpopc d' a' p' fm) else none
  | 0x2C => unV r fun d a b p f m => if a = 0 ∧ b = 0 then do let d' ← fin? 256 d; let p' ← fin? 16 p; let fm ← fmtOf? f m; some (.viota d' p' fm) else none
  | 0x2D => unV r fun d a b p f m => if b = 0 then do let d' ← fin? 256 d; let a' ← fin? 64 a; let p' ← fin? 16 p; let fm ← fmtOf? f m; some (.vbcst d' a' p' fm) else none
  | 0x2E => unV r fun d a b p f m => if b = 0 ∧ p = 0 then do let d' ← fin? 64 d; let a' ← fin? 256 a; let f' ← fin? 8 f; let m' ← bits? 9 m; some (.vext d' a' f' m') else none
  | 0x2F => unV r fun d a b p f m => if b = 0 then do let d' ← fin? 256 d; let a' ← fin? 64 a; let p' ← fin? 16 p; let f' ← fin? 8 f; let m' ← bits? 9 m; some (.vins d' a' p' f' m') else none
  | 0x30 => unV r fun d a b p f m => do let d' ← fin? 16 d; let a' ← fin? 256 a; let b' ← fin? 256 b; let p' ← fin? 16 p; let fm ← fmtOf? f m; some (.vcmpeq d' a' b' p' fm)
  | 0x31 => unV r fun d a b p f m => do let d' ← fin? 16 d; let a' ← fin? 256 a; let b' ← fin? 256 b; let p' ← fin? 16 p; let fm ← fmtOf? f m; some (.vcmpne d' a' b' p' fm)
  | 0x32 => unV r fun d a b p f m => do let d' ← fin? 16 d; let a' ← fin? 256 a; let b' ← fin? 256 b; let p' ← fin? 16 p; let fm ← fmtOf? f m; some (.vcmplt d' a' b' p' fm)
  | 0x33 => unV r fun d a b p f m => do let d' ← fin? 16 d; let a' ← fin? 256 a; let b' ← fin? 256 b; let p' ← fin? 16 p; let fm ← fmtOf? f m; some (.vcmple d' a' b' p' fm)
  | 0x34 => unV r fun d a b p f m => do let d' ← fin? 16 d; let a' ← fin? 256 a; let b' ← fin? 256 b; let p' ← fin? 16 p; let fm ← fmtOf? f m; some (.vcmpuo d' a' b' p' fm)
  | 0x35 => unV r fun d a b p f m => if b = 0 then do let d' ← fin? 16 d; let a' ← fin? 256 a; let p' ← fin? 16 p; let f' ← fin? 8 f; let m' ← bits? 8 m; some (.vclass d' a' p' f' m') else none
  | 0x38 => unV r fun d a b p f m => if p = 0 ∧ f = 0 ∧ m = 0 then do let d' ← fin? 16 d; let a' ← fin? 16 a; let b' ← fin? 16 b; some (.pand d' a' b') else none
  | 0x39 => unV r fun d a b p f m => if p = 0 ∧ f = 0 ∧ m = 0 then do let d' ← fin? 16 d; let a' ← fin? 16 a; let b' ← fin? 16 b; some (.por d' a' b') else none
  | 0x3A => unV r fun d a b p f m => if p = 0 ∧ f = 0 ∧ m = 0 then do let d' ← fin? 16 d; let a' ← fin? 16 a; let b' ← fin? 16 b; some (.pxor d' a' b') else none
  | 0x3B => unV r fun d a b p f m => if p = 0 ∧ f = 0 ∧ m = 0 then do let d' ← fin? 16 d; let a' ← fin? 16 a; let b' ← fin? 16 b; some (.pandn d' a' b') else none
  | 0x3C => unV r fun d a b p f m => if b = 0 ∧ p = 0 ∧ f = 0 ∧ m = 0 then do let d' ← fin? 16 d; let a' ← fin? 16 a; some (.pfirst d' a') else none
  | 0x3D => unV r fun d a b p f m => if b = 0 ∧ p = 0 ∧ f = 0 ∧ m = 0 then do let d' ← fin? 64 d; let a' ← fin? 16 a; some (.pcnt d' a') else none
  | 0x3E => unV r fun d a b p f m => if b = 0 ∧ p = 0 ∧ f = 0 ∧ m = 0 then do let d' ← fin? 8 d; let a' ← fin? 16 a; some (.vany d' a') else none
  | 0x3F => unV r fun d a b p f m => if b = 0 ∧ p = 0 ∧ f = 0 ∧ m = 0 then do let d' ← fin? 8 d; let a' ← fin? 16 a; some (.vall d' a') else none
  | 0x40 => unV r fun d a b p f m => if b = 0 then do let d' ← fin? 64 d; let a' ← fin? 256 a; let p' ← fin? 16 p; let fm ← fmtOf? f m; some (.vrsum d' a' p' fm) else none
  | 0x41 => unV r fun d a b p f m => if b = 0 then do let d' ← fin? 64 d; let a' ← fin? 256 a; let p' ← fin? 16 p; let fm ← fmtOf? f m; some (.vrmax d' a' p' fm) else none
  | 0x42 => unV r fun d a b p f m => if b = 0 then do let d' ← fin? 64 d; let a' ← fin? 256 a; let p' ← fin? 16 p; let fm ← fmtOf? f m; some (.vrmin d' a' p' fm) else none
  | 0x43 => unV r fun d a b p f m => if b = 0 then do let d' ← fin? 64 d; let a' ← fin? 256 a; let p' ← fin? 16 p; let fm ← fmtOf? f m; some (.vramax d' a' p' fm) else none
  | 0x44 => unV r fun d a b p f m => if b = 0 then do let d' ← fin? 64 d; let a' ← fin? 256 a; let p' ← fin? 16 p; let fm ← fmtOf? f m; some (.vramin d' a' p' fm) else none
  | 0x45 => unV r fun d a b p f m => if b = 0 then do let d' ← fin? 256 d; let a' ← fin? 256 a; let p' ← fin? 16 p; let fm ← fmtOf? f m; some (.vscan d' a' p' fm) else none
  | 0x48 => unV r fun d a b p f m => if b = 0 ∧ f = 0 ∧ m = 0 then do let d' ← fin? 256 d; let a' ← fin? 256 a; let p' ← fin? 16 p; some (.vmov d' a' p') else none
  | 0x49 => unV r fun d a b p f m => do let d' ← fin? 256 d; let a' ← fin? 256 a; let b' ← fin? 256 b; let p' ← fin? 16 p; let fm ← fmtOf? f m; some (.vperm d' a' b' p' fm)
  | 0x4A => unV r fun d a b p f m => if f = 0 then do let d' ← fin? 256 d; let a' ← fin? 256 a; let b' ← fin? 256 b; let p' ← fin? 16 p; let m' ← bits? 9 m; some (.vrotm d' a' b' p' m') else none
  | 0x4B => unV r fun d a b p f m => do let d' ← fin? 256 d; let a' ← fin? 256 a; let b' ← fin? 256 b; let p' ← fin? 16 p; let fm ← fmtOf? f m; some (.vzip d' a' b' p' fm)
  | 0x4C => unV r fun d a b p f m => do let d' ← fin? 256 d; let a' ← fin? 256 a; let b' ← fin? 256 b; let p' ← fin? 16 p; let fm ← fmtOf? f m; some (.vuzp d' a' b' p' fm)
  | 0x4D => unV r fun d a b p f m => if a = 0 ∧ b = 0 then do let d' ← fin? 256 d; let p' ← fin? 16 p; let f' ← fin? 8 f; let m' ← bits? 9 m; some (.vspl d' p' f' m') else none
  | 0x4E => unV r fun d a b p f m => do let d' ← fin? 256 d; let a' ← fin? 256 a; let b' ← fin? 256 b; let p' ← fin? 16 p; let f' ← fin? 8 f; let m' ← bits? 9 m; some (.vslide d' a' b' p' f' m')
  | _ => none

/-- The vector opcodes 0x50 to 0x5B, reserved in VB (R98). -/
def decVaOnly (op r : Nat) : Option Instr :=
  match op with
  | 0x50 => unV r fun d a b p f m => do let d' ← fin? 256 d; let a' ← fin? 256 a; let b' ← fin? 64 b; let p' ← fin? 16 p; let f' ← fin? 8 f; let m' ← fin? 8 m; some (.vtopk d' a' b' p' f' m')
  | 0x51 => unV r fun d a b p f m => do let d' ← fin? 256 d; let a' ← fin? 256 a; let b' ← fin? 64 b; let p' ← fin? 16 p; let f' ← fin? 8 f; let m' ← fin? 10 m; some (.vthcnt d' a' b' p' f' m')
  | 0x52 => unV r fun d a b p f m => if b = 0 ∧ p = 0 ∧ m = 0 then do let d' ← fin? 256 d; let a' ← fin? 16 a; let f' ← fin? 8 f; some (.vbmp d' a' f') else none
  | 0x53 => unV r fun d a b p f m => if f = 0 ∧ m = 0 then do let d' ← fin? 256 d; let a' ← fin? 256 a; let b' ← fin? 256 b; let p' ← fin? 16 p; some (.vrank d' a' b' p') else none
  | 0x54 => unV r fun d a b p f m => if f = 0 ∧ m = 0 then do let d' ← fin? 256 d; let a' ← fin? 256 a; let b' ← fin? 256 b; let p' ← fin? 16 p; some (.vselb d' a' b' p') else none
  | 0x55 => unV r fun d a b p f m => if b = 0 then do let d' ← fin? 256 d; let a' ← fin? 256 a; let p' ← fin? 16 p; let fm ← fmtOf? f m; some (.vhist d' a' p' fm) else none
  | 0x56 => unV r fun d a b p f m => if d = 0 ∧ b = 0 ∧ f = 0 then do let a' ← fin? 256 a; let p' ← fin? 16 p; let n1 ← fin? 64 (m % 64); let q ← fin? 4 (m / 64); some (.vcqp a' p' n1 q) else none
  | 0x57 => unV r fun d a b p f m => if d = 0 ∧ b = 0 ∧ f = 0 ∧ m = 0 then do let a' ← fin? 256 a; let p' ← fin? 16 p; some (.rcadd a' p') else none
  | 0x58 => unV r fun d a b p f m => if a = 0 ∧ b = 0 ∧ p = 0 ∧ f = 0 ∧ m = 0 then do let d' ← fin? 256 d; some (.rcsnap d') else none
  | 0x59 => unV r fun d a b p f m => if b = 0 ∧ p = 0 ∧ f = 0 then do let d' ← fin? 64 d; let a' ← fin? 256 a; let m' ← fin? 8 m; some (.vcsum d' a' m') else none
  | 0x5A => unV r fun d a b p f m => if d = 0 ∧ p = 0 ∧ f = 0 then do let a' ← fin? 256 a; let b' ← fin? 64 b; let m' ← fin? 64 m; some (.ftld a' b' m') else none
  | 0x5B => unV r fun d a b p f m => if d = 0 ∧ b = 0 ∧ p = 0 ∧ f = 0 then do let a' ← fin? 256 a; let m' ← fin? 8 m; some (.cbld a' m') else none
  | _ => none

/-- The MAT opcodes of R99. -/
def decMat (op r : Nat) : Option Instr :=
  match op with
  | 0x00 => if r = 0 then some .nopM else none
  | 0x01 => unV r fun d a b p f m => if d = 0 ∧ b = 0 ∧ p = 0 ∧ f = 0 ∧ m = 0 then do let a' ← fin? 256 a; some (.ttask a') else none
  | 0x02 => unV r fun d a b p f m => if d = 0 ∧ p = 0 ∧ f = 0 then do let a' ← fin? 256 a; let b' ← fin? 256 b; let m' ← fin? 8 m; some (.ttaskr a' b' m') else none
  | 0x03 => unV r fun d a b p f m => if d = 0 ∧ p = 0 ∧ f = 0 ∧ m = 0 then do let a' ← fin? 64 a; let b' ← fin? 64 b; some (.tqcfg a' b') else none
  | 0x04 => unV r fun d a b p f m => if a = 0 ∧ b = 0 ∧ p = 0 ∧ f = 0 then do let d' ← fin? 64 d; let m' ← fin? 16 m; some (.tstat d' m') else none
  | 0x05 => unV r fun d a b p f m => if d = 0 ∧ b = 0 ∧ p = 0 ∧ f = 0 ∧ m = 0 then do let a' ← fin? 64 a; some (.tevict a') else none
  | 0x06 => unV r fun d a b p f m => if a = 0 ∧ b = 0 ∧ p = 0 ∧ f = 0 ∧ m = 0 then do let d' ← fin? 64 d; some (.tlate d') else none
  | _ => none

/-- The MEM opcodes of R100. -/
def decMem (op r : Nat) : Option Instr :=
  match op with
  | 0x00 => if r = 0 then some .nopL else none
  | 0x01 => unV r fun d a b p f m => if b = 0 ∧ p = 0 ∧ f = 0 then do let d' ← fin? 256 d; let a' ← fin? 64 a; let m' ← fin? 8 m; some (.vld d' a' m') else none
  | 0x02 => unV r fun d a b p f m => if b = 0 ∧ f = 0 then do let d' ← fin? 256 d; let a' ← fin? 64 a; let p' ← fin? 16 p; let m' ← fin? 8 m; some (.vst d' a' p' m') else none
  | 0x03 => unV r fun d a b p f m => if p = 0 ∧ f = 0 then do let d' ← fin? 256 d; let a' ← fin? 64 a; let b' ← fin? 64 b; let m' ← fin? 8 m; some (.vldp d' a' b' m') else none
  | 0x04 => unV r fun d a b p f m => if f = 0 then do let d' ← fin? 256 d; let a' ← fin? 64 a; let b' ← fin? 64 b; let p' ← fin? 16 p; let m' ← fin? 8 m; some (.vstp d' a' b' p' m') else none
  | 0x05 => unV r fun d a b p f m => if p = 0 ∧ f = 0 ∧ m = 0 then do let d' ← fin? 256 d; let a' ← fin? 64 a; let b' ← fin? 256 b; some (.vldx d' a' b') else none
  | 0x06 => unV r fun d a b p f m => if f = 0 ∧ m = 0 then do let d' ← fin? 256 d; let a' ← fin? 64 a; let b' ← fin? 256 b; let p' ← fin? 16 p; some (.vstx d' a' b' p') else none
  | 0x07 => unV r fun d a b p f m => if b = 0 ∧ p = 0 ∧ f = 0 then do let d' ← fin? 64 d; let a' ← fin? 64 a; let m' ← fin? 32 m; some (.sld d' a' m') else none
  | 0x08 => unV r fun d a b p f m => if b = 0 ∧ p = 0 ∧ f = 0 then do let d' ← fin? 64 d; let a' ← fin? 64 a; let m' ← fin? 32 m; some (.sst d' a' m') else none
  | 0x0A => unV r fun d a b p f m => if d = 0 ∧ b = 0 ∧ p = 0 ∧ f = 0 then do let a' ← fin? 256 a; let m' ← fin? 8 m; some (.copy a' m') else none
  | 0x10 => unV r fun d a b p f m => if b = 0 ∧ p = 0 ∧ f = 0 then do let d' ← bits? 8 d; let a' ← bits? 8 a; let m' ← fin? 8 m; some (.fence d' a' m') else none
  | 0x11 => unV r fun d a b p f m => if a = 0 ∧ b = 0 ∧ p = 0 ∧ f = 0 then do let d' ← bits? 8 d; let m' ← fin? 8 m; some (.drain d' m') else none
  | 0x12 => unV r fun d a b p f m => if d = 0 ∧ p = 0 ∧ f = 0 ∧ m = 0 then do let a' ← fin? 256 a; let b' ← fin? 64 b; some (.qpush a' b') else none
  | 0x13 => unV r fun d a b p f m => if a = 0 ∧ p = 0 ∧ f = 0 ∧ m = 0 then do let d' ← fin? 256 d; let b' ← fin? 64 b; some (.qpop d' b') else none
  | 0x14 => unV r fun d a b p f m => if a = 0 ∧ p = 0 ∧ f = 0 then do let d' ← fin? 256 d; let b' ← fin? 64 b; let m' ← fin? 8 m; some (.qtry d' b' m') else none
  | 0x18 => unV r fun d a b p f m => if d = 0 ∧ p = 0 ∧ f = 0 then do let a' ← fin? 64 a; let b' ← fin? 64 b; let set ← fin? 16 (m % 16); let g ← fin? 8 (m / 16); some (.aset a' b' set g) else none
  | 0x19 => unV r fun d a b p f m => if d = 0 ∧ b = 0 ∧ p = 0 ∧ f = 0 ∧ m = 0 then do let a' ← fin? 64 a; some (.ajnl a') else none
  | 0x1A => unV r fun d a b p f m => if d = 0 ∧ b = 0 ∧ p = 0 ∧ f = 0 then do let a' ← fin? 64 a; let m' ← fin? 4 m; some (.tgo a' m') else none
  | 0x1B => unV r fun d a b p f m => if d = 0 ∧ b = 0 ∧ p = 0 ∧ f = 0 then do let a' ← fin? 64 a; let m' ← fin? 4 m; some (.trel a' m') else none
  | 0x1E => unV r fun d a b p f m => if d = 0 ∧ b = 0 ∧ p = 0 ∧ f = 0 then do let a' ← fin? 64 a; let m' ← bit? m; some (.tlbi a' m') else none
  | 0x1F => unV r fun d a b p f m => if d = 0 ∧ p = 0 ∧ f = 0 ∧ m = 0 then do let a' ← fin? 64 a; let b' ← fin? 64 b; some (.ctxsv a' b') else if d = 0 ∧ p = 0 ∧ f = 0 ∧ m = 1 then do let a' ← fin? 64 a; let b' ← fin? 64 b; some (.ctxld a' b') else none
  | _ => none

/-- The COM opcodes of R101. -/
def decCom (op r : Nat) : Option Instr :=
  match op with
  | 0x00 => if r = 0 then some .nopX else none
  | 0x01 => unCH r fun ch reg mode => do let ch' ← fin? 64 ch; let reg' ← fin? 256 reg; let mode' ← fin? 8 mode; some (.send ch' reg' mode')
  | 0x02 => unCH r fun ch reg mode => do let ch' ← fin? 64 ch; let reg' ← fin? 256 reg; let mode' ← fin? 8 mode; some (.recv ch' reg' mode')
  | 0x03 => unCH r fun ch reg mode => do let ch' ← fin? 64 ch; let reg' ← fin? 256 reg; let mode' ← fin? 8 mode; some (.recvadd ch' reg' mode')
  | 0x04 => unCH r fun ch reg mode => if mode = 0 then do let ch' ← fin? 64 ch; let reg' ← fin? 64 reg; some (.ssend ch' reg') else none
  | 0x05 => unCH r fun ch reg mode => if mode = 0 then do let ch' ← fin? 64 ch; let reg' ← fin? 64 reg; some (.srecv ch' reg') else none
  | 0x06 => unCH r fun ch reg mode => if mode = 0 then do let ch' ← fin? 64 ch; let reg' ← fin? 64 reg; some (.chcfg ch' reg') else none
  | 0x07 => unCH r fun ch reg mode => do let ch' ← fin? 64 ch; let reg' ← fin? 64 reg; let mode' ← fin? 4 mode; some (.chqry ch' reg' mode')
  | 0x08 => unR3 r fun d a b x => if d = 0 ∧ b = 0 ∧ x = 0 then do let a' ← fin? 64 a; some (.hcoll a') else none
  | 0x09 => unR3 r fun d a b x => if d = 0 ∧ b = 0 ∧ x = 0 then do let a' ← fin? 64 a; some (.hrech a') else none
  | 0x0A => unR3 r fun d a b x => if b = 0 ∧ x = 0 then do let d' ← fin? 64 d; let a' ← fin? 64 a; some (.hqry d' a') else none
  | _ => none

/-- Fields of a slot, before the checks of `Instr.wf`: opcode and operand bits to an instruction. -/
def decFields (t : Slot) (op r : Nat) : Option Instr :=
  match t with
  | .ctl => decCtl op r
  | .sca => (decAlu op r).or (decScaOnly op r)
  | .adr => (decAlu op r).or (decAdrOnly op r)
  | .va => (decVec op r).or (decVaOnly op r)
  | .vb => decVec op r
  | .mat => decMat op r
  | .mem => decMem op r
  | .com => decCom op r

/-- Decode one slot word of a slot (R86 to R101): nothing when the word has a defect of R90 items 2 and 3. -/
def decodeSlot (t : Slot) (w : Nat) : Option SlotWord :=
  let n := if t.isWide then 40 else 24
  if w < 2 ^ (n + 8) then
    match decFields t (w / 2 ^ n % 128) (w % 2 ^ n) with
    | some i => if i.wf then some ⟨t, 2 ^ (n + 7) ≤ w, i⟩ else none
    | none => none
  else none

/-- Opcode and operand bits of a slot instruction, laid out as R86 and R87 give them. An event has no words and gives zero. -/
def Instr.opRest : Instr → Nat × Nat
  | .nopC => (0x00, 0)
  | .prep t off => (0x01, packJ t.val off.toNat)
  | .preps t a => (0x02, packR3 t.val a.val 0 0)
  | .br c t => (0x03, packR3 0 c.val t.val 0)
  | .jmp t => (0x04, packR3 0 0 t.val 0)
  | .call t => (0x05, packR3 0 0 t.val 0)
  | .ret => (0x06, 0)
  | .brn c t => (0x07, packR3 0 c.val t.val 0)
  | .loop l a fin => (0x08, packRI l.val a.val fin.toNat)
  | .loopi l n fin => (0x09, packL l.val n.toNat fin.toNat)
  | .loopq l q fin => (0x0A, packRI l.val q.val fin.toNat)
  | .lbrk l => (0x0B, packR3 l.val 0 0 0)
  | .suspend => (0x10, 0)
  | .endTask => (0x11, 0)
  | .spawn a => (0x12, packR3 0 a.val 0 0)
  | .yield => (0x13, 0)
  | .waita a b mode => (0x14, packR3 0 a.val b.val mode.val)
  | .arm a b => (0x15, packR3 0 a.val b.val 0)
  | .launch a => (0x16, packR3 0 a.val 0 0)
  | .bar scope id => (0x18, packRI scope.val 0 id.val)
  | .trap n => (0x19, packRI 0 0 n.toNat)
  | .eret => (0x1A, 0)
  | .nopS => (0x00, 0)
  | .nopA => (0x00, 0)
  | .add d a b => (0x01, packR3 d.val a.val b.val 0)
  | .sub d a b => (0x02, packR3 d.val a.val b.val 0)
  | .mul d a b => (0x03, packR3 d.val a.val b.val 0)
  | .mulh d a b => (0x04, packR3 d.val a.val b.val 0)
  | .mulhu d a b => (0x05, packR3 d.val a.val b.val 0)
  | .div d a b => (0x06, packR3 d.val a.val b.val 0)
  | .divu d a b => (0x07, packR3 d.val a.val b.val 0)
  | .rem d a b => (0x08, packR3 d.val a.val b.val 0)
  | .remu d a b => (0x09, packR3 d.val a.val b.val 0)
  | .and d a b => (0x0A, packR3 d.val a.val b.val 0)
  | .or d a b => (0x0B, packR3 d.val a.val b.val 0)
  | .xor d a b => (0x0C, packR3 d.val a.val b.val 0)
  | .andn d a b => (0x0D, packR3 d.val a.val b.val 0)
  | .shl d a b => (0x0E, packR3 d.val a.val b.val 0)
  | .shr d a b => (0x0F, packR3 d.val a.val b.val 0)
  | .sra d a b => (0x10, packR3 d.val a.val b.val 0)
  | .rotl d a b => (0x11, packR3 d.val a.val b.val 0)
  | .min d a b => (0x12, packR3 d.val a.val b.val 0)
  | .max d a b => (0x13, packR3 d.val a.val b.val 0)
  | .minu d a b => (0x14, packR3 d.val a.val b.val 0)
  | .maxu d a b => (0x15, packR3 d.val a.val b.val 0)
  | .shladd d a b sh => (0x16, packR3 d.val a.val b.val sh.val)
  | .madd d a b x => (0x17, packR3 d.val a.val b.val x.val)
  | .clz d a => (0x18, packR3 d.val a.val 0 0)
  | .ctz d a => (0x19, packR3 d.val a.val 0 0)
  | .popc d a => (0x1A, packR3 d.val a.val 0 0)
  | .extr d a lo w1 => (0x1B, packR3 d.val a.val lo.val w1.val)
  | .dep d a lo w1 => (0x1C, packR3 d.val a.val lo.val w1.val)
  | .addi d a imm => (0x20, packRI d.val a.val imm.toNat)
  | .andi d a imm => (0x21, packRI d.val a.val imm.toNat)
  | .ori d a imm => (0x22, packRI d.val a.val imm.toNat)
  | .xori d a imm => (0x23, packRI d.val a.val imm.toNat)
  | .shli d a sh => (0x24, packRI d.val a.val sh.val)
  | .shri d a sh => (0x25, packRI d.val a.val sh.val)
  | .srai d a sh => (0x26, packRI d.val a.val sh.val)
  | .ldi d imm => (0x27, packI18 d.val imm.toNat)
  | .ldhi d k imm => (0x28, packK d.val k.val imm.toNat)
  | .cmpeq d a b => (0x30, packR3 d.val a.val b.val 0)
  | .cmpne d a b => (0x31, packR3 d.val a.val b.val 0)
  | .cmplt d a b => (0x32, packR3 d.val a.val b.val 0)
  | .cmpltu d a b => (0x33, packR3 d.val a.val b.val 0)
  | .cmpge d a b => (0x34, packR3 d.val a.val b.val 0)
  | .cmpgeu d a b => (0x35, packR3 d.val a.val b.val 0)
  | .cmpeqi d a imm => (0x36, packRI d.val a.val imm.toNat)
  | .cmplti d a imm => (0x37, packRI d.val a.val imm.toNat)
  | .cand d a b => (0x38, packR3 d.val a.val b.val 0)
  | .cor d a b => (0x39, packR3 d.val a.val b.val 0)
  | .sel d a b c => (0x3C, packR3 d.val a.val b.val c.val)
  | .fadd d a b => (0x40, packR3 d.val a.val b.val 0)
  | .fsub d a b => (0x41, packR3 d.val a.val b.val 0)
  | .fmul d a b => (0x42, packR3 d.val a.val b.val 0)
  | .ffma d a b x => (0x43, packR3 d.val a.val b.val x.val)
  | .fdiv d a b => (0x44, packR3 d.val a.val b.val 0)
  | .fmin d a b => (0x45, packR3 d.val a.val b.val 0)
  | .fmax d a b => (0x46, packR3 d.val a.val b.val 0)
  | .fexp2 d a => (0x47, packR3 d.val a.val 0 0)
  | .flog2 d a => (0x48, packR3 d.val a.val 0 0)
  | .fcmplt d a b => (0x49, packR3 d.val a.val b.val 0)
  | .fcmpeq d a b => (0x4A, packR3 d.val a.val b.val 0)
  | .itof d a => (0x4B, packR3 d.val a.val 0 0)
  | .ftoi d a => (0x4C, packR3 d.val a.val 0 0)
  | .mfsr d r => (0x50, packRI d.val 0 r.number)
  | .mtsr r a => (0x51, packRI 0 a.val r.number)
  | .tsc d => (0x52, packR3 d.val 0 0 0)
  | .mflc d l field => (0x53, packR3 d.val l.val 0 field.val)
  | .mtlc l field a => (0x54, packR3 l.val a.val 0 field.val)
  | .desc d a b => (0x60, packR3 d.val a.val b.val 0)
  | .rowad d a b x => (0x61, packR3 d.val a.val b.val x.val)
  | .tilead d a b x => (0x62, packR3 d.val a.val b.val x.val)
  | .incwrap d a b => (0x63, packR3 d.val a.val b.val 0)
  | .cqpop d q => (0x64, packR3 d.val q.val 0 0)
  | .nopV => (0x00, 0)
  | .vadd d a b p f => (0x01, packV d.val a.val b.val p.val f.fField f.mField)
  | .vsub d a b p f => (0x02, packV d.val a.val b.val p.val f.fField f.mField)
  | .vmul d a b p f => (0x03, packV d.val a.val b.val p.val f.fField f.mField)
  | .vfma d a b p f => (0x04, packV d.val a.val b.val p.val f.fField f.mField)
  | .vfms d a b p f => (0x05, packV d.val a.val b.val p.val f.fField f.mField)
  | .vmin d a b p f => (0x06, packV d.val a.val b.val p.val f.fField f.mField)
  | .vmax d a b p f => (0x07, packV d.val a.val b.val p.val f.fField f.mField)
  | .vabs d a p f => (0x08, packV d.val a.val 0 p.val f.fField f.mField)
  | .vneg d a p f => (0x09, packV d.val a.val 0 p.val f.fField f.mField)
  | .vrcp d a p f => (0x0A, packV d.val a.val 0 p.val f.fField f.mField)
  | .vrsq d a p f => (0x0B, packV d.val a.val 0 p.val f.fField f.mField)
  | .vexp2 d a p f => (0x0C, packV d.val a.val 0 p.val f.fField f.mField)
  | .vlog2 d a p f => (0x0D, packV d.val a.val 0 p.val f.fField f.mField)
  | .vtanh d a p f => (0x0E, packV d.val a.val 0 p.val f.fField f.mField)
  | .vscl d a b p f => (0x0F, packV d.val a.val b.val p.val f.fField f.mField)
  | .vqnt d a b p f => (0x10, packV d.val a.val b.val p.val f.fField f.mField)
  | .vcvt d a p f df => (0x11, packV d.val a.val 0 p.val f.val df.dstField)
  | .vdec d a p f cb => (0x12, packV d.val a.val 0 p.val f.val cb.val)
  | .vmuls d a b p f => (0x13, packV d.val a.val b.val p.val f.fField f.mField)
  | .vadds d a b p f => (0x14, packV d.val a.val b.val p.val f.fField f.mField)
  | .vsel d a b p f => (0x15, packV d.val a.val b.val p.val f.fField f.mField)
  | .viadd d a b p f => (0x20, packV d.val a.val b.val p.val f.fField f.mField)
  | .visub d a b p f => (0x21, packV d.val a.val b.val p.val f.fField f.mField)
  | .vimul d a b p f => (0x22, packV d.val a.val b.val p.val f.fField f.mField)
  | .vand d a b p f => (0x23, packV d.val a.val b.val p.val f.fField f.mField)
  | .vor d a b p f => (0x24, packV d.val a.val b.val p.val f.fField f.mField)
  | .vxor d a b p f => (0x25, packV d.val a.val b.val p.val f.fField f.mField)
  | .vshl d a b p f => (0x26, packV d.val a.val b.val p.val f.fField f.mField)
  | .vshr d a b p f => (0x27, packV d.val a.val b.val p.val f.fField f.mField)
  | .vsra d a b p f => (0x28, packV d.val a.val b.val p.val f.fField f.mField)
  | .vimin d a b p f => (0x29, packV d.val a.val b.val p.val f.fField f.mField)
  | .vimax d a b p f => (0x2A, packV d.val a.val b.val p.val f.fField f.mField)
  | .vpopc d a p f => (0x2B, packV d.val a.val 0 p.val f.fField f.mField)
  | .viota d p f => (0x2C, packV d.val 0 0 p.val f.fField f.mField)
  | .vbcst d a p f => (0x2D, packV d.val a.val 0 p.val f.fField f.mField)
  | .vext d a f lane => (0x2E, packV d.val a.val 0 0 f.val lane.toNat)
  | .vins d a p f lane => (0x2F, packV d.val a.val 0 p.val f.val lane.toNat)
  | .vcmpeq d a b p f => (0x30, packV d.val a.val b.val p.val f.fField f.mField)
  | .vcmpne d a b p f => (0x31, packV d.val a.val b.val p.val f.fField f.mField)
  | .vcmplt d a b p f => (0x32, packV d.val a.val b.val p.val f.fField f.mField)
  | .vcmple d a b p f => (0x33, packV d.val a.val b.val p.val f.fField f.mField)
  | .vcmpuo d a b p f => (0x34, packV d.val a.val b.val p.val f.fField f.mField)
  | .vclass d a p f cls => (0x35, packV d.val a.val 0 p.val f.val cls.toNat)
  | .pand d a b => (0x38, packV d.val a.val b.val 0 0 0)
  | .por d a b => (0x39, packV d.val a.val b.val 0 0 0)
  | .pxor d a b => (0x3A, packV d.val a.val b.val 0 0 0)
  | .pandn d a b => (0x3B, packV d.val a.val b.val 0 0 0)
  | .pfirst d a => (0x3C, packV d.val a.val 0 0 0 0)
  | .pcnt d a => (0x3D, packV d.val a.val 0 0 0 0)
  | .vany d a => (0x3E, packV d.val a.val 0 0 0 0)
  | .vall d a => (0x3F, packV d.val a.val 0 0 0 0)
  | .vrsum d a p f => (0x40, packV d.val a.val 0 p.val f.fField f.mField)
  | .vrmax d a p f => (0x41, packV d.val a.val 0 p.val f.fField f.mField)
  | .vrmin d a p f => (0x42, packV d.val a.val 0 p.val f.fField f.mField)
  | .vramax d a p f => (0x43, packV d.val a.val 0 p.val f.fField f.mField)
  | .vramin d a p f => (0x44, packV d.val a.val 0 p.val f.fField f.mField)
  | .vscan d a p f => (0x45, packV d.val a.val 0 p.val f.fField f.mField)
  | .vmov d a p => (0x48, packV d.val a.val 0 p.val 0 0)
  | .vperm d a b p f => (0x49, packV d.val a.val b.val p.val f.fField f.mField)
  | .vrotm d a b p off => (0x4A, packV d.val a.val b.val p.val 0 off.toNat)
  | .vzip d a b p f => (0x4B, packV d.val a.val b.val p.val f.fField f.mField)
  | .vuzp d a b p f => (0x4C, packV d.val a.val b.val p.val f.fField f.mField)
  | .vspl d p f imm => (0x4D, packV d.val 0 0 p.val f.val imm.toNat)
  | .vslide d a b p f n => (0x4E, packV d.val a.val b.val p.val f.val n.toNat)
  | .vtopk d a b p f g1 => (0x50, packV d.val a.val b.val p.val f.val g1.val)
  | .vthcnt d a b p f lg => (0x51, packV d.val a.val b.val p.val f.val lg.val)
  | .vbmp d a f => (0x52, packV d.val a.val 0 0 f.val 0)
  | .vrank d a b p => (0x53, packV d.val a.val b.val p.val 0 0)
  | .vselb d a b p => (0x54, packV d.val a.val b.val p.val 0 0)
  | .vhist d a p f => (0x55, packV d.val a.val 0 p.val f.fField f.mField)
  | .vcqp a p n1 q => (0x56, packV 0 a.val 0 p.val 0 (n1.val + 64 * q.val))
  | .rcadd a p => (0x57, packV 0 a.val 0 p.val 0 0)
  | .rcsnap d => (0x58, packV d.val 0 0 0 0 0)
  | .vcsum d a n1 => (0x59, packV d.val a.val 0 0 0 n1.val)
  | .ftld a b row => (0x5A, packV 0 a.val b.val 0 0 row.val)
  | .cbld a cb => (0x5B, packV 0 a.val 0 0 0 cb.val)
  | .nopM => (0x00, 0)
  | .ttask a => (0x01, packV 0 a.val 0 0 0 0)
  | .ttaskr a b n1 => (0x02, packV 0 a.val b.val 0 0 n1.val)
  | .tqcfg a b => (0x03, packV 0 a.val b.val 0 0 0)
  | .tstat d which => (0x04, packV d.val 0 0 0 0 which.val)
  | .tevict a => (0x05, packV 0 a.val 0 0 0 0)
  | .tlate d => (0x06, packV d.val 0 0 0 0 0)
  | .nopL => (0x00, 0)
  | .vld d a n1 => (0x01, packV d.val a.val 0 0 0 n1.val)
  | .vst d a p n1 => (0x02, packV d.val a.val 0 p.val 0 n1.val)
  | .vldp d a b n1 => (0x03, packV d.val a.val b.val 0 0 n1.val)
  | .vstp d a b p n1 => (0x04, packV d.val a.val b.val p.val 0 n1.val)
  | .vldx d a b => (0x05, packV d.val a.val b.val 0 0 0)
  | .vstx d a b p => (0x06, packV d.val a.val b.val p.val 0 0)
  | .sld d a k => (0x07, packV d.val a.val 0 0 0 k.val)
  | .sst d a k => (0x08, packV d.val a.val 0 0 0 k.val)
  | .copy a q => (0x0A, packV 0 a.val 0 0 0 q.val)
  | .fence before after scope => (0x10, packV before.toNat after.toNat 0 0 0 scope.val)
  | .drain paths scope => (0x11, packV paths.toNat 0 0 0 0 scope.val)
  | .qpush a b => (0x12, packV 0 a.val b.val 0 0 0)
  | .qpop d b => (0x13, packV d.val 0 b.val 0 0 0)
  | .qtry d b c => (0x14, packV d.val 0 b.val 0 0 c.val)
  | .aset a b set g => (0x18, packV 0 a.val b.val 0 0 (set.val + 16 * g.val))
  | .ajnl a => (0x19, packV 0 a.val 0 0 0 0)
  | .tgo a e => (0x1A, packV 0 a.val 0 0 0 e.val)
  | .trel a e => (0x1B, packV 0 a.val 0 0 0 e.val)
  | .tlbi a all => (0x1E, packV 0 a.val 0 0 0 all.toNat)
  | .ctxsv a b => (0x1F, packV 0 a.val b.val 0 0 0)
  | .ctxld a b => (0x1F, packV 0 a.val b.val 0 0 1)
  | .nopX => (0x00, 0)
  | .send ch v n1 => (0x01, packCH ch.val v.val n1.val)
  | .recv ch v n1 => (0x02, packCH ch.val v.val n1.val)
  | .recvadd ch v n1 => (0x03, packCH ch.val v.val n1.val)
  | .ssend ch a => (0x04, packCH ch.val a.val 0)
  | .srecv ch d => (0x05, packCH ch.val d.val 0)
  | .chcfg ch a => (0x06, packCH ch.val a.val 0)
  | .chqry ch d which => (0x07, packCH ch.val d.val which.val)
  | .hcoll a => (0x08, packR3 0 a.val 0 0)
  | .hrech a => (0x09, packR3 0 a.val 0 0)
  | .hqry d a => (0x0A, packR3 d.val a.val 0 0)
  | .monitorRetest _ _ => (0, 0)
  | .tileDepRetest _ _ => (0, 0)
  | .queueDoorbell _ _ _ => (0, 0)
  | .queueRestart _ _ _ => (0, 0)
  | .gatherDoorbell _ _ _ => (0, 0)
  | .gatherRow _ _ _ => (0, 0)
  | .registerWrite _ _ _ _ => (0, 0)
  | .btownWrite _ _ _ => (0, 0)
  | .bdqcfgWrite _ _ _ => (0, 0)
  | .retentionCtrlWrite _ _ _ => (0, 0)
  | .claim _ _ => (0, 0)
  | .handover _ _ => (0, 0)
  | .admqcreate _ _ => (0, 0)
  | .readClear _ _ _ => (0, 0)
  | .copyDone _ _ => (0, 0)
  | .wound _ => (0, 0)
  | .parkResume _ => (0, 0)
  | .completionRecord _ => (0, 0)
  | .fetchFault _ _ => (0, 0)
  | .resultLand _ _ => (0, 0)
  | .arrival _ => (0, 0)
  | .lockRequest _ => (0, 0)
  | .lockGrant _ => (0, 0)
  | .batchPush _ => (0, 0)
  | .bdqPopServe _ => (0, 0)
  | .channelArrival _ _ => (0, 0)
  | .channelCredit _ _ => (0, 0)
  | .shardRelease _ => (0, 0)
  | .collAccept _ => (0, 0)
  | .releaseNotice _ _ _ _ => (0, 0)
  | .pageLoad _ _ => (0, 0)
  | .nopPacket _ => (0, 0)
  | .launchPacket _ => (0, 0)
  | .image _ => (0, 0)
  | .map _ => (0, 0)
  | .mapComplete _ => (0, 0)
  | .unmap _ => (0, 0)
  | .unmapComplete _ => (0, 0)
  | .flagWrite _ => (0, 0)
  | .flagWait _ => (0, 0)
  | .partResize _ => (0, 0)
  | .gatherCfg _ => (0, 0)
  | .queueCreate _ => (0, 0)
  | .packetRetry _ => (0, 0)
  | .ownerLinkReset => (0, 0)
  | .poolDuty => (0, 0)
  | .takeWork _ _ => (0, 0)
  | .chunkTake _ _ => (0, 0)
  | .chunkSteal _ _ => (0, 0)
  | .teamPlace _ _ _ => (0, 0)
  | .teamRelease _ => (0, 0)
  | .sliceStopRequest _ => (0, 0)
  | .sliceEnd _ => (0, 0)
  | .stopPoint _ => (0, 0)
  | .saveRetry _ => (0, 0)
  | .resizeTimeout _ => (0, 0)
  | .quadMove _ => (0, 0)
  | .quadZeroEnd _ => (0, 0)
  | .snapshotLand _ _ => (0, 0)
  | .routingCounterOp _ => (0, 0)
  | .tileStart _ => (0, 0)
  | .tileDone _ _ => (0, 0)
  | .copyOp _ => (0, 0)
  | .fill _ => (0, 0)
  | .zero _ => (0, 0)
  | .acc _ => (0, 0)
  | .accf _ => (0, 0)
  | .cas _ => (0, 0)
  | .btownZeroEnd _ _ => (0, 0)
  | .spokeStart _ => (0, 0)
  | .hop _ _ => (0, 0)
  | .waitrel _ _ => (0, 0)
  | .barrier _ _ => (0, 0)
  | .mcast _ _ => (0, 0)
  | .evict _ _ => (0, 0)
  | .itinLoop _ _ => (0, 0)
  | .mark _ _ => (0, 0)
  | .itinEnd _ _ => (0, 0)
  | .setwin _ _ => (0, 0)
  | .hopFinish _ _ _ _ _ => (0, 0)
  | .groupJoin _ _ _ => (0, 0)
  | .lateDecay _ => (0, 0)
  | .slotCycle => (0, 0)
  | .refreshDue _ _ => (0, 0)
  | .bankRefresh _ _ => (0, 0)
  | .gatherEntry _ => (0, 0)
  | .gatherTick _ => (0, 0)
  | .barRelease _ _ _ => (0, 0)
  | .waitaPoll _ _ => (0, 0)
  | .woundwaitExpiry _ _ => (0, 0)
  | .collAgree _ _ _ => (0, 0)
  | .collContribution _ _ _ _ _ _ _ _ => (0, 0)
  | .collDelivery _ _ _ _ _ _ _ => (0, 0)
  | .linkFlit _ _ _ _ => (0, 0)
  | .watchdog _ _ => (0, 0)
  | .eccError _ _ => (0, 0)
  | .retentionEntry _ => (0, 0)
  | .retentionExit _ => (0, 0)
  | .timebaseTick => (0, 0)
  | .ptmUpdate _ => (0, 0)
  | .portLinkUp _ _ _ => (0, 0)
  | .port0LinkDown => (0, 0)
  | .hostAccessTimeout _ => (0, 0)
  | .hostMemAccess _ _ _ => (0, 0)
  | .mctpRead _ _ => (0, 0)
  | .mctpWrite _ _ => (0, 0)
  | .attestationRequest _ _ => (0, 0)
  | .pldmSensorRead _ _ => (0, 0)
  | .sensorUpdate _ => (0, 0)
  | .pldmFwUpdate _ => (0, 0)
  | .moduleReset => (0, 0)
  | .powerWindow _ => (0, 0)
  | .thermalTrip _ _ => (0, 0)
  | .coolantLoss => (0, 0)
  | .powerAlarm => (0, 0)
  | .portLinkDown _ => (0, 0)
  | .thermalRelease _ _ => (0, 0)
  | .chunkExponent _ _ _ _ _ _ => (0, 0)
  | .collGoAbort _ _ _ _ => (0, 0)

/-- The word of a slot instruction: S, opcode and operands (R86, R87). -/
def SlotWord.encode (x : SlotWord) : Nat :=
  let n := if x.slot.isWide then 40 else 24
  (if x.sync then 2 ^ (n + 7) else 0) + x.op.opRest.1 * 2 ^ n + x.op.opRest.2

/-- `k` bytes of a word, least significant first (R83: little-endian). -/
def leBytes : Nat → Nat → List Byte
  | 0, _ => []
  | k + 1, w => BitVec.ofNat 8 w :: leBytes k (w / 256)

/-- The number that little-endian bytes stand for. -/
def leNat : List Byte → Nat
  | [] => 0
  | b :: bs => b.toNat + 256 * leNat bs

/-- The slots present in a header byte, in ascending order of header bit (R83). -/
def headerSlots (h : Byte) : List Slot := Slot.all.filter fun t => h.getLsbD t.bit

/-- Length of a bundle with header `h` (R83). -/
def bundleLength (h : Byte) : Nat := 1 + ((headerSlots h).map Slot.bytes).sum

/-- The words of the slots present, read in order from the bytes after the header. -/
def slotWords : List Slot → List Byte → List (Slot × Nat)
  | [], _ => []
  | t :: ts, bs => (t, leNat (bs.take t.bytes)) :: slotWords ts (bs.drop t.bytes)

/-- The header of a list of slot instructions. -/
def bundleHeader (ws : List SlotWord) : Byte := BitVec.ofNat 8 ((ws.map fun x => 2 ^ x.slot.bit).sum)

/-- The bytes of a bundle (R83): its header, then its words little-endian in the given order, which is that of header bits. -/
def encodeBundle (ws : List SlotWord) : List Byte :=
  bundleHeader ws :: (ws.map fun x => leBytes x.slot.bytes x.encode).flatten

/-- The first of several slots whose decoder accepts a word. -/
def decodeFirst (ts : List Slot) (w : Nat) : Option SlotWord := ts.findSome? fun t => decodeSlot t w

/-- The slots in which the words of the opcode table are tried: a 32-bit word as SCA, ADR, CTL, then COM, and a 48-bit word
as VA, MEM, then MAT. DESIGN CHOICE (log 8): a word alone does not say its slot, which the header of its bundle gives. -/
def tableSlots (nbits : Nat) : List Slot := if nbits ≤ 32 then [.sca, .adr, .ctl, .com] else [.va, .mem, .mat]

/-- The slot word that a word of the opcode table stands for. -/
def decodeTableSlot (nbits w : Nat) : Option SlotWord := decodeFirst (tableSlots nbits) w

/-- The instruction that the decoder reads from a word of the opcode table. -/
def decodeTableWord (nbits w : Nat) : Option Instr := (decodeTableSlot nbits w).map SlotWord.op

end Sys2Proof
end

