-- ==== Sys2Proof/Config.lean ====
section
/-!
DEFINITION. Config: what the spec leaves to an implementation, and the free values. None of the constants has a body, so no proof can
see a value.
-/
namespace Sys2Proof

/-- The free values (log 3): where the spec says that a value is unspecified, an instruction takes the next one.
The index is the counter `freeIdx` of the state. -/
opaque Config.free (w n : Nat) : BitVec w

/-- MGMTID.VID, Sondaley's PCI vendor identifier (R431; log 17). -/
opaque Config.vendorId : BitVec 16
/-- QTUNE_n.GAP as the firmware image gives it (R45; log 17). -/
opaque Config.queueGap (n : Nat) : BitVec 24
/-- QTUNE_n.MPS as the firmware image gives it; 0 is not allowed and acts as 1 (R44, R45; log 17). -/
opaque Config.queueMps (n : Nat) : BitVec 8
/-- SCHEDTUNE.GAP (R45, R76; log 17). -/
opaque Config.schedGap : BitVec 24
/-- FETCHTUNE.GAP (R45, R82; log 17). -/
opaque Config.fetchGap : BitVec 24
/-- The Organ core that runs a firmware duty, named as the source of its events (R420; log 17). -/
opaque Config.organCore (duty : Nat) : Fin 4
/-- SHA-384 digest of the boot ROM (R433; log 17). -/
opaque Config.bootRomDigest : BitVec 384
/-- Ed25519 signature of an attestation report under the hub die's identity key (R433; log 17). -/
opaque Config.ed25519Sign (report : List Byte) : BitVec 512
/-- ML-DSA-65 signature of an attestation report under the hub die's identity key: 3,309 bytes (R433, FIPS 204; log 17). -/
opaque Config.mldsaSign (report : List Byte) : BitVec 26472
/-- The Sondaley-issued certificates of the two identity keys (R433; log 17). -/
opaque Config.certificates : List Byte
/-- One less than the flits of one virtual channel that a Tightrope port may have sent and not had acknowledged: its credits (R369; log 32). -/
opaque Config.ropeCredits : Nat

end Sys2Proof
end

