-- ==== Sys2Proof/Machine/Registers.lean ====
section
/-!
DEFINITION. Registers: the management registers (R429), their places in the register pages, their reset values and their access codes (R6).
-/
namespace Sys2Proof.Machine

/-- The families of management registers. -/
inductive MFam where
  | owner | claim | handover | candmask | mgmtid | admqcreate | admqstat | agentmap | schedtune | fetchtune | tcnt | eccstat | retq | retb
  | evbase | eventries | evtail | evhead | tbase | pwrcap | pwrstat | secstat | hlink | fabwin | faboff
  | psched | presize | psave | pspill | povr | ptrap | pfault | pwdog | lkcfg | lkstat | pres | presz | pbar | pstamp
  | tnb | quadpart | qpool | duptag | moncfg | monstat
  | btown | wspoke | wthr0 | wthr1 | wlate | wlsum | wspur | boothstat | troute | tgrp | tgrpc | bdqcfg | bdqstat
  | hlat | qdb | qstat | qsib | qtune | gdb | gstat | gcnt
deriving DecidableEq, Repr

/-- A management register: its family and its index. An entry word of TNB_n has index n * 1024 + 4 * b + w. -/
structure MReg where
  fam : MFam
  i : Nat
deriving DecidableEq, Repr

/-- Reset value (the Reset columns of R37, R44, R47, R76, R82, R295, R296, R307, R308, R313, R319, R330, R333, R342, R358, R389, R414, R422,
R431, R436). The tune registers hold what the Organ loads as it starts (R45; log 17). -/
def MReg.reset (r : MReg) : Word :=
  match r.fam with
  | .owner => 0x1FF
  | .candmask => 0x0003
  | .mgmtid => BitVec.ofNat 64 (Config.vendorId.toNat + 0x8200 * 65536)
  | .psched => BitVec.ofNat 64 (1 + 2250000 * 65536)
  | .presize => 2250000
  | .lkcfg => 4096
  | .qpool => BitVec.ofNat 64 (64 + 1024 * 2 ^ 16 + 256 * 2 ^ 32 + 1024 * 2 ^ 48)
  | .moncfg => 512
  | .wthr1 => BitVec.ofNat 64 (2 ^ 48)
  | .schedtune => Config.schedGap.setWidth 64
  | .fetchtune => Config.fetchGap.setWidth 64
  | .qtune => BitVec.ofNat 64 ((Config.queueGap r.i).toNat + max 1 (Config.queueMps r.i).toNat * 2 ^ 24 + r.i % 4 * 2 ^ 32)
  | _ => 0

/-- The bits that a write replaces (RW), as a mask. -/
def MReg.rw (r : MReg) : Word :=
  match r.fam with
  | .candmask => 0xFFFF
  | .admqcreate => BitVec.allOnes 64
  | .agentmap => 0x1FF
  | .retq => 0xFFFFFFFF
  | .retb => 0xF
  | .evbase => BitVec.ofNat 64 (2 ^ 51 - 1)
  | .eventries => 0x1FFFF
  | .evhead => 0xFFFFFFFF
  | .pwrcap => 0xFFFF
  | .fabwin => BitVec.ofNat 64 (2 ^ 52 - 1)
  | .faboff => BitVec.allOnes 64
  | .psched => 0x0000FFFFFFFF00FF
  | .presize => 0xFFFFFFFF
  | .psave => BitVec.allOnes 64
  | .pspill => BitVec.ofNat 64 (2 ^ 56 - 1)
  | .ptrap => 0xFFFFFFFF00FFFFFF
  | .pfault => 0x103FF
  | .pwdog => 0xFFFFFFFF
  | .lkcfg => 0xFFFFFFFF
  | .pres => 0x00FFFFFFFFFE0000
  | .presz => 0xFFFFFFFF
  | .pbar => BitVec.allOnes 64
  | .pstamp => 0x3F
  | .tnb => BitVec.allOnes 64
  | .qpool => 0x1FFF1FFF1FFF1FFF
  | .moncfg => 0xFFFF
  | .btown => BitVec.allOnes 64
  | .wspoke => BitVec.allOnes 64
  | .wthr0 => BitVec.allOnes 64
  | .wthr1 => BitVec.allOnes 64
  | .troute => 0xFF
  | .tgrp => BitVec.allOnes 64
  | .tgrpc => 0x1F
  | .bdqcfg => 0x0000FFFFFFFF0FFF
  | .qdb => 0xFFFFFFFF
  | .qsib => 0xFFFFFFFF
  | .gdb => 0xFFFFFFFF
  | _ => 0

/-- The bits that a written 1 clears (W1C). -/
def MReg.w1c (r : MReg) : Word :=
  match r.fam with
  | .owner => 0x200
  | .admqstat => 0x3
  | .pwrstat => 0x80000
  | _ => 0

/-- The bits that a read clears (RC). -/
def MReg.rc (r : MReg) : Word :=
  match r.fam with
  | .fetchtune => 0x00FFFFFFFF000000
  | .tcnt => BitVec.allOnes 64
  | .eccstat => BitVec.allOnes 64
  | .evtail => 0xFFFFFFFF00000000
  | .povr => BitVec.allOnes 64
  | .lkstat => BitVec.allOnes 64
  | .duptag => 0xFFFFFFFF
  | .monstat => 0xFFFFFFFF00000000
  | .wlsum => BitVec.allOnes 64
  | .wspur => 0xFFFFFFFF
  | .boothstat => 0xFFFFFFFF00000000
  | .bdqstat => 0xFFFFFFFF00000000
  | .hlat => BitVec.ofNat 64 (2 ^ 48 - 1)
  | .qstat => 0xFFFF000000000000
  | .gcnt => BitVec.allOnes 64
  | _ => 0

/-- The register at `base + 8 * index` of a bank of `n` indices, if the offset falls there. -/
def bankAt (f : MFam) (base n first : Nat) (o : Nat) : Option MReg :=
  if base + 8 * first ≤ o ∧ o < base + 8 * n ∧ o % 8 = 0 then some ⟨f, (o - base) / 8⟩ else none

/-- One register at one offset. -/
def oneAt (f : MFam) (i at_ o : Nat) : Option MReg := if o = at_ then some ⟨f, i⟩ else none

/-- Registers of the module page (R429). -/
def modulePage (o : Nat) : Option MReg :=
  [oneAt .owner 0 0x000 o, oneAt .claim 0 0x008 o, oneAt .handover 0 0x010 o, oneAt .candmask 0 0x018 o, oneAt .mgmtid 0 0x020 o,
   bankAt .admqcreate 0x040 8 0 o, oneAt .admqstat 0 0x080 o, bankAt .agentmap 0x100 16 1 o, oneAt .schedtune 0 0x200 o,
   oneAt .fetchtune 0 0x208 o, oneAt .tcnt 0 0x210 o, oneAt .eccstat 0 0x218 o, oneAt .retq 0 0x220 o, oneAt .retb 0 0x228 o,
   oneAt .evbase 0 0x300 o, oneAt .eventries 0 0x308 o, oneAt .evtail 0 0x310 o, oneAt .evhead 0 0x318 o, oneAt .tbase 0 0x320 o,
   oneAt .pwrcap 0 0x400 o, oneAt .pwrstat 0 0x408 o, oneAt .secstat 0 0x410 o, bankAt .hlink 0x480 4 0 o, bankAt .fabwin 0x4C0 4 1 o,
   bankAt .faboff 0x500 4 1 o].findSome? id

/-- Registers of a partition page (R429). -/
def partitionPage (n o : Nat) : Option MReg :=
  [oneAt .psched n 0x000 o, oneAt .presize n 0x008 o, oneAt .psave n 0x010 o, oneAt .pspill n 0x018 o, oneAt .povr n 0x020 o,
   oneAt .ptrap n 0x028 o, oneAt .pfault n 0x030 o, oneAt .pwdog n 0x038 o, oneAt .lkcfg n 0x040 o, oneAt .lkstat n 0x048 o,
   oneAt .pres n 0x050 o, oneAt .presz n 0x058 o, oneAt .pbar n 0x060 o, oneAt .pstamp n 0x068 o].findSome? id

/-- Registers of a quad page (R429). -/
def quadPage (q o : Nat) : Option MReg :=
  [oneAt .quadpart q 0x000 o, oneAt .qpool q 0x008 o, oneAt .duptag q 0x010 o, oneAt .moncfg q 0x018 o, oneAt .monstat q 0x020 o].findSome? id

/-- Registers of the table page (R429). -/
def tablePage (o : Nat) : Option MReg :=
  [bankAt .btown 0x000 16 0 o, bankAt .wspoke 0x100 4 0 o, bankAt .wthr0 0x140 4 0 o, bankAt .wthr1 0x160 4 0 o, bankAt .wlate 0x180 4 0 o,
   bankAt .wlsum 0x1A0 4 0 o, bankAt .wspur 0x1C0 4 0 o, bankAt .boothstat 0x200 4 0 o, bankAt .troute 0x400 64 0 o,
   bankAt .tgrp 0x1000 256 0 o, bankAt .tgrpc 0x1800 256 0 o, bankAt .bdqcfg 0x4000 1024 0 o, bankAt .bdqstat 0x6000 1024 0 o].findSome? id

/-- Registers of a queue page (R429). -/
def queuePage (n o : Nat) : Option MReg :=
  [oneAt .qdb n 0x000 o, oneAt .qstat n 0x100 o, oneAt .qsib n 0x108 o, oneAt .qtune n 0x110 o].findSome? id

/-- Registers of a gather page (R429). -/
def gatherPage (g o : Nat) : Option MReg :=
  [oneAt .gdb g 0x000 o, oneAt .gstat g 0x100 o, oneAt .gcnt g 0x108 o].findSome? id

/-- The register at an offset from 0x300_0000_0000 (R429): nothing for a reserved offset. -/
def MReg.atOffset (off : Nat) : Option MReg :=
  let page := off / 0x20000
  let o := off % 0x20000
  if page = 0 then modulePage o
  else if 1 ≤ page ∧ page < 17 then partitionPage (page - 1) o
  else if 32 ≤ page ∧ page < 48 then bankAt .tnb 0 1024 0 o |>.map fun r => ⟨.tnb, (page - 32) * 1024 + r.i⟩
  else if 64 ≤ page ∧ page < 96 then quadPage (page - 64) o
  else if page = 96 then tablePage o
  else if page = 112 then bankAt .hlat 0 128 0 o
  else if 0x800 ≤ page ∧ page < 0xC00 then queuePage (page - 0x800) o
  else if 0x1000 ≤ page ∧ page < 0x1010 then gatherPage (page - 0x1000) o
  else none

/-- Registers that agents write whatever the owner (R47, R430): EVHEAD, the queue pages of queues 1 to 1,023, GDB_g and TNB_n entries.
CLAIM is written by its own step. A non-owner's write to a read-only QTUNE_n, GSTAT_g or GCNT_g is dropped and sets DENIED (DESIGN CHOICE: R430 exempts
single registers where R47 names whole queue and gather pages; log 16). -/
def MReg.ownerExempt (r : MReg) : Bool :=
  match r.fam with
  | .claim | .evhead | .gdb | .tnb => true
  | .qdb | .qstat | .qsib => decide (r.i ≠ 0)
  | _ => false

end Sys2Proof.Machine
end

