-- ==== Sys2Proof/Machine/State.lean ====
section
/-!
DEFINITION. State: everything the spec gives the machine, as plain data, and the state right after reset.
Each field names the rule of the spec it comes from; the fields of the model itself say so.
-/
namespace Sys2Proof.Machine

/-- Memory: bytes at addresses in one canonical form (addresses strictly rising, no zero byte listed), and the rows that are poisoned
(R268, R412), rising too. An address is a device physical address (R289), or 2^52 plus a local address in its absolute window (R261; log 15).
An unlisted byte reads zero (DESIGN CHOICE, log 1). -/
structure Mem where
  cells : List Host.Cell
  poison : List Nat
deriving DecidableEq, Repr

/-- One hardware loop (R128). -/
structure Loop where
  cnt : BitVec 32
  beg : Offset
  fin : Offset
  idx : BitVec 32
deriving DecidableEq, Repr

/-- A continuation record (R13): the fields of its 64 bytes, `s` its scalars from s1 on. -/
structure ContRec where
  ticket : Word
  pc : Offset
  image : BitVec 8
  job : BitVec 12
  wexp : BitVec 7
  cflags : BitVec 4
  s : List Word
deriving DecidableEq, Repr

/-- The life of a context: free, running a task, a dormant armed handler (R19), ending (END committed, steps of R415 under way),
saved by a stop and being swapped, or abandoned in a team (R397). -/
inductive Life where
  | free | running | dormant | ending | stopped | abandoned
deriving DecidableEq, Repr

/-- A granule as the Ticket Booth names it (R350): space (a partition's device VA space, or local), base and size. -/
structure Granule where
  va : Bool
  part : BitVec 4
  base : Nat
  size : Nat
deriving DecidableEq, Repr

/-- Why a running context is not ready (R121). A WAITA that sleeps names the cycle of its next poll when it has no entry in a monitor table (R333); a TLBI
waits for the accesses under way that it names (R411). A context saved under WOUNDWAIT waits for the granule that path C asked for last (R358). -/
inductive Wait where
  | none
  | fetch (o : Offset)
  | suspend (pc : Offset)
  | barrier (scope id : Nat)
  | arm
  | pool
  | lock (g : Granule)
  | word (poll : Option Nat) (addr : Nat) (val : Word) (mode : Fin 4)
  | drain (paths : BitVec 8)
  | tlb (ids : List Nat)
  | argument
  | release
deriving DecidableEq, Repr

/-- The destination of a result in flight (R116, R345, R402): a register, or a field of a loop. -/
inductive Dst where
  | s (r : Fin 64)
  | v (r : Fin 256)
  | p (r : Fin 16)
  | c (r : Fin 8)
  | bt (r : Fin 4)
  | lc (l field : Fin 4)
  | sys (r : SysReg)
deriving DecidableEq, Repr

/-- A result in flight (R116, R400, R402): its destination, the value once its unit has answered, the row that poisons it, the cycle
before which it does not land, and whether it came from a snapshot (R405). -/
structure Landing where
  id : Nat
  dst : Dst
  value : Option VReg
  poison : Option Nat
  due : Nat
  fromSnapshot : Bool
deriving DecidableEq, Repr

/-- A command of the task that has not performed yet, on a path of R320. -/
structure Outstanding where
  id : Nat
  path : Fin 8
deriving DecidableEq, Repr

/-- A FENCE still holding younger operations (R326): the commands before it and the paths after it. -/
structure Fence where
  before : List Nat
  after : BitVec 8
deriving DecidableEq, Repr

/-- A declared atomic set (R348, R349): local or device virtual, [lo, hi) and the granule size. -/
structure AtomicSet where
  id : Fin 16
  va : Bool
  lo : Nat
  hi : Nat
  gs : Nat
deriving DecidableEq, Repr

/-- One context of a core (R16, R18). `seq` tells that sequential fetch reached `pc`, so that a zero byte there is padding (R84, R85). `chunks` are the
DEAL chunks it holds (R53, R63): job, first record not started, end. `fixed` are the results of fixed-latency producers with the cycles in which they
land (R401; log 6), and `ran` is the cycle after that of its last bundle. `roomSince` is the cycle since which its save waits for room (R76). `stopCycle` is
the stop cycle of a stop under way (R401), and `anchor` tells that results of a snapshot count from the first dispatch, which is still to come (R405). `held`
is MODEL's own (log 10): the next bundle waits, and is tried again when a result lands or after the next tick; `begun` tells that it has been dispatched
(R121). -/
structure Ctx where
  s : Vector Word 64
  sFull : BitVec 64
  sPoison : BitVec 64
  v : Vector VReg 256
  vFull : BitVec 256
  vPoison : BitVec 256
  poisonRow : Word
  p : Vector Pred 16
  c : BitVec 8
  bt : Vector Offset 4
  lc : Vector Loop 4
  cq : Vector (List (BitVec 32)) 4
  cb : Vector (BitVec 256) 8
  ft : Vector (BitVec 128) 64
  pc : Offset
  seq : Bool
  image : BitVec 8
  taskIndex : BitVec 32
  ticket : Word
  job : BitVec 12
  part : BitVec 4
  logical : BitVec 8
  prio : BitVec 5
  wexp : BitVec 7
  cflags : BitVec 4
  epolicyS : Word
  epolicyV : Vector Word 4
  ftbase : BitVec 6
  ftsel : BitVec 3
  xfer : BitVec 27
  trapvec : BitVec 24
  traparea : BitVec 40
  epc : Offset
  exfer : BitVec 27
  estat : BitVec 26
  sup : Bool
  vregs : Nat
  life : Life
  wait : Wait
  inflight : List Landing
  fixed : List (Dst × Nat)
  ran : Nat
  outstanding : List Outstanding
  fences : List Fence
  armed : Option (Offset × BitVec 8)
  chunks : List (Nat × Nat × Nat)
  retained : Option ContRec
  sets : List AtomicSet
  run : Nat
  watch : Nat
  stopReq : Bool
  stopCycle : Nat
  roomSince : Option Nat
  anchor : Bool
  held : Bool
  begun : Bool
deriving DecidableEq, Repr

/-- A context at reset: every register zero but p0, s0's emptiness and the fields with a stated reset (log 2). -/
def Ctx.reset : Ctx where
  s := Vector.replicate 64 0
  sFull := BitVec.allOnes 64
  sPoison := 0
  v := Vector.replicate 256 0
  vFull := BitVec.allOnes 256
  vPoison := 0
  poisonRow := 0
  p := (Vector.replicate 16 0).set 0 (BitVec.allOnes 2048)
  c := 1
  bt := Vector.replicate 4 0
  lc := Vector.replicate 4 ⟨0, 0, 0, 0⟩
  cq := Vector.replicate 4 []
  cb := Vector.replicate 8 0
  ft := Vector.replicate 64 0
  pc := 0
  seq := false
  image := 0
  taskIndex := 0
  ticket := 0
  job := 0
  part := 0
  logical := 0xFF
  prio := 0
  wexp := 0
  cflags := 0
  epolicyS := 0
  epolicyV := Vector.replicate 4 0
  ftbase := 0
  ftsel := 0
  xfer := 0
  trapvec := 0
  traparea := 0
  epc := 0
  exfer := 0
  estat := 0
  sup := false
  vregs := 256
  life := .free
  wait := .none
  inflight := []
  fixed := []
  ran := 0
  outstanding := []
  fences := []
  armed := none
  chunks := []
  retained := none
  sets := []
  run := 0
  watch := 0
  stopReq := false
  stopCycle := 0
  roomSince := none
  anchor := false
  held := false
  begun := false

/-- How the slot operation under way stands: it has taken effect, it has trapped (cause, illegal flag, FADDR, INFO), or it waits. -/
inductive SlotOutcome where
  | ok
  | trapped (cause : BitVec 8) (faddr : Word) (info : BitVec 32)
  | waiting
deriving DecidableEq, Repr

/-- A code page held in a frame of IMEM (R77): its image, its page number and its bytes, unlisted bytes zero. -/
structure Frame where
  part : BitVec 4
  image : BitVec 8
  page : Nat
  code : List Host.Cell
deriving DecidableEq, Repr

/-- An arrival of a HANDLER copy (R283), and whether its cell is poisoned (R412). -/
structure ArrivalRec where
  cls : BitVec 8
  s1 : Word
  s2 : Word
  s3 : Word
  part : BitVec 4
  job : BitVec 12
  quad : Nat
  doneKey : Option Nat
  ticket : Word
  rows : Nat
  poison : Bool
deriving DecidableEq, Repr

/-- A channel element (R336, R338): its rows or scalar, the cycle in which it is present at the receive end, the SEND that
commanded it, and the row that poisons it (R412). -/
structure Elem where
  data : Nat
  due : Nat
  id : Nat
  poison : Option Nat
deriving DecidableEq, Repr

/-- A committed receive that has not popped its element (R337): its landing, the register as of a RECVADD, and the job of its team. -/
structure Recv where
  id : Nat
  old : Option VReg
  job : Nat
deriving DecidableEq, Repr

/-- One end of a channel (R334 to R339): the 16 bytes of the entry; at a receive end the elements buffered, those in flight and the
committed receives not yet served; at a send end the credits taken and the cycles in which credits on their way arrive. -/
structure Chan where
  entry : BitVec 128
  cells : Nat
  elems : List Elem
  flying : List Elem
  recvs : List Recv
  taken : Nat
  returning : List Nat
deriving DecidableEq, Repr

/-- An unconfigured channel. -/
def Chan.empty : Chan := ⟨0, 0, [], [], [], 0, []⟩

/-- A core: frames oldest first (R77, R79), pages being loaded, arrivals listed (R284) and arriving, channels, the tick of its last
ticket (R25) and the context that last dispatched at each level (R121). -/
structure Core where
  frames : List Frame
  arrivals : List ArrivalRec
  arriving : List ArrivalRec
  chans : List (Nat × Chan)
  lastStamp : Option Nat
  lastDisp : List (Nat × Nat)
deriving DecidableEq, Repr

/-- A core at reset. -/
def Core.reset : Core := ⟨[], [], [], [], none, []⟩

/-- Who commands an engine access (R321): ticket and run of the task, its job, partition, priority and quad, and whether it is a team context's (R67). -/
structure Origin where
  ticket : Word
  run : Nat
  job : BitVec 12
  part : BitVec 4
  prio : BitVec 5
  quad : Nat
  team : Bool
deriving DecidableEq, Repr

/-- How a copy command has failed (R281): cause, address, copy rows performed, hop, and the expected and received checksums. -/
structure CopyFault where
  cause : BitVec 8
  addr : Nat
  rows : Nat
  hop : Nat
  expected : Nat
  received : Nat
deriving DecidableEq, Repr

/-- A copy command in its queue (R269, R270, R272): its 64 bytes, its progress, the address at which it is parked, the checksums of the source, of the
data sent and of the data that arrived (R285, R286), the bits that the way to the destination port alters in its next unit (log 27), whether nothing but its
done adds is left, how it has failed, and its times. -/
structure CopyCmd where
  id : Nat
  org : Origin
  queue : Fin 8
  cmd : BitVec 512
  started : Bool
  row : Nat
  parked : Option Nat
  flags : Nat
  srcSum : Nat
  dstSum : Nat
  gotSum : Nat
  wire : Nat
  finished : Bool
  failed : Option CopyFault
  enq : Nat
  began : Nat
deriving DecidableEq, Repr

/-- A tile-task record (R236, R237, R239): 64 bytes, resolved entries of A, W and C, the codebook, the staging rows, and its state: its times, TQSKIP.EN
at its start (R255), the next K block, the buffer of the block before it, and the buffer that holds the shard of the next block already. -/
structure TileRec where
  id : Nat
  org : Origin
  cmd : BitVec 512
  fmtA : BitVec 16
  fmtW : BitVec 16
  fmtC : BitVec 16
  cbook : BitVec 256
  staging : List VReg
  depOk : Bool
  enq : Nat
  began : Nat
  skip : Bool
  kb : Nat
  prev : Option Bool
  cur : Option Bool
deriving DecidableEq, Repr

/-- A stationary buffer (R234): its state and its 128 x 128 values as bit patterns of SF, row k of 128 columns. -/
structure StatBuf where
  valid : Bool
  tag : BitVec 32
  sf : BitVec 4
  special : Bool
  shard : List (List Nat)
  lastUse : Nat
deriving DecidableEq, Repr

/-- A matrix array (R234): its two buffers, its accumulators, the running record and the tags evicted while it runs (R258). -/
structure MatArray where
  buf0 : StatBuf
  buf1 : StatBuf
  acc : List (List Nat)
  task : Option TileRec
  evict : List (BitVec 32)
deriving DecidableEq, Repr

/-- An empty buffer: VALID 0 (R74, R234). -/
def StatBuf.empty : StatBuf := ⟨false, 0, 0, false, [], 0⟩
/-- An array at reset. -/
def MatArray.reset : MatArray := ⟨.empty, .empty, [], none, []⟩

/-- A sleeping WAITA in a monitor table (R332): row and word address, operand, mode, the context or the written-out
record; for an entry that the Organ keeps, its POLLGAP and the cycle of its next test; for one of a table, the cycle of a re-test that retention holds
(R413), 0 for none. -/
structure MonEntry where
  id : Nat
  addr : Nat
  val : Word
  mode : Fin 4
  ctxKey : Option Nat
  record : Option ContRec
  part : BitVec 4
  prio : BitVec 5
  gap : Nat
  next : Nat
deriving DecidableEq, Repr

/-- A Roundabout (R60): its pointer and the grants left in the turn. -/
structure Roundabout where
  ptr : Nat
  left : Nat
deriving DecidableEq, Repr

/-- The state of a retention array (R413). -/
inductive Retain where
  | active | retained | entering (atCycle : Nat) | exiting (atCycle : Nat)
deriving DecidableEq, Repr

/-- An entry of a translation cache (R290, R291): the partition, and the first address and the bytes that it serves. -/
structure TransEntry where
  part : BitVec 4
  va : Nat
  bytes : Nat
deriving DecidableEq, Repr

/-- A quad: tile queue and arrays (R234 to R259), copy queues (R269, R270), monitor table (R332), routing counters (R228, R229),
Roundabouts (R61), its move (R72 to R74), the partitions that it has left and the ticks of those moves (R280), its scratchpad's retention (R413), and the
translation cache of its copy engine, the oldest entry first (R291). -/
structure Quad where
  tiles : List TileRec
  arrays : Vector MatArray 4
  tqmin : BitVec 12
  tqcap : BitVec 13
  tqskip : Bool
  tqthr : BitVec 3
  completed : Nat
  failed : Nat
  skipped : Nat
  thrcyc : Nat
  lastStart : Option Nat
  throttled : Option Nat
  copies : List CopyCmd
  queueTurn : List (Nat × Nat)
  tileRa : Roundabout
  copyRa : Roundabout
  monitor : List MonEntry
  rct : Vector (BitVec 32) 64
  rcOps : List (Nat × Option VReg)
  moveAt : Option Nat
  nextMove : Option (BitVec 4)
  zeroEnd : Option Nat
  gone : List (Nat × Nat)
  retain : Retain
  tcache : List TransEntry
deriving DecidableEq, Repr

/-- A quad at reset (R255, R257, R61). -/
def Quad.reset : Quad where
  tiles := []
  arrays := Vector.replicate 4 .reset
  tqmin := 64
  tqcap := 1024
  tqskip := true
  tqthr := 4
  completed := 0
  failed := 0
  skipped := 0
  thrcyc := 0
  lastStart := none
  throttled := none
  copies := []
  queueTurn := []
  tileRa := ⟨0, 1⟩
  copyRa := ⟨0, 1⟩
  monitor := []
  rct := Vector.replicate 64 0
  rcOps := []
  moveAt := none
  nextMove := none
  zeroEnd := none
  gone := []
  retain := .active
  tcache := []

/-- A request for a granule (R354, R356): the task, its run, whether path C of a context asks, since which cycle, and when it asked last. -/
structure LockReq where
  gran : Granule
  ticket : Word
  run : Nat
  ctxKey : Option Nat
  since : Nat
  last : Nat
deriving DecidableEq, Repr

/-- An entry of a Ticket Booth slice (R356, R357): the granule, its holder and its waiters in ticket order. -/
structure LockEntry where
  gran : Granule
  holder : Word
  holderRun : Nat
  waiters : List LockReq
deriving DecidableEq, Repr

/-- A collective on its way to its base die, or waiting there for a slot (R385, R386). -/
structure CollReq where
  id : Nat
  org : Origin
  cmd : BitVec 512
deriving DecidableEq, Repr

/-- A request of a context at a port of a base die or on a hub link (R53, R60, R61): requester, partition, level and the cycle of its arrival. -/
structure PortReq where
  key : Nat
  part : Nat
  level : Nat
  since : Nat
deriving DecidableEq, Repr

/-- A compute die with its base die: ticket stamping (R25), the Ticket Booth slice (R355 to R357), the requests and Roundabouts of its task queue port,
its range port and its hub link, and those that choose a job within one partition and level, by 32 x partition + level (R60, R61), Big Top retention
(R413), segment zeroing (R295), collectives waiting to be accepted (R385) and the translation cache of the die (R291). -/
structure Die where
  lastStamp : Option Nat
  booth : List LockEntry
  requests : List LockReq
  fullWaiters : List LockReq
  grants : List LockReq
  takeReqs : List PortReq
  rangeReqs : List PortReq
  hubReqs : List PortReq
  takeRa : Roundabout
  rangeRa : Roundabout
  hubRa : Roundabout
  jobRas : List (Nat × Roundabout)
  retain : Retain
  segZero : List (Nat × Nat)
  collReqs : List CollReq
  tcache : List TransEntry
deriving DecidableEq, Repr

/-- A die at reset. -/
def Die.reset : Die := ⟨none, [], [], [], [], [], [], [], ⟨0, 1⟩, ⟨0, 1⟩, ⟨0, 1⟩, [], .active, [], [], []⟩

/-- A command queue (R35, R39, R41); its HEAD, TAIL and flags stand in QSTAT_n and QDB_n. `busy` is the packet that has started and not completed,
`bells` the doorbells of packets not yet consumed (TAIL, tick), for the stamps of R421. `posts` are the packets for its sibling ring that are not written,
in order, each with the kind of the event that follows it (R41, R410, R419). -/
structure CmdQueue where
  base : Nat
  entries : Nat
  part : BitVec 4
  headAddr : Nat
  sibBase : Nat
  sibEntries : Nat
  sibTailAddr : Nat
  sibTail : Nat
  busy : Option (BitVec 512)
  bells : List (Nat × Nat)
  startedAt : Nat
  posts : List (List Nat × Nat)
deriving DecidableEq, Repr

/-- A registered code image (R39, R77). -/
structure ImageReg where
  src : Nat
  bytes : Nat
  phys : Bool
deriving DecidableEq, Repr

/-- One page of a partition's translations (R290, R292), and whether one translation entry serves it with the 15 others of its 2 MiB (R290). -/
structure PageMap where
  part : BitVec 4
  va : Nat
  pa : Nat
  big : Bool
  perm : BitVec 8
  merged : Bool
deriving DecidableEq, Repr

/-- The phase of a team (R51, R65 to R68). -/
inductive TeamPhase where
  | waiting | placed | running | stopping | stopped | swapped
deriving DecidableEq, Repr

/-- A team (R22, R51, R65 to R68): its placement, release cycles, slice end, stop request, deadline, carried overrun and order of arrival. -/
structure Team where
  phase : TeamPhase
  places : List Place
  firstRelease : Option Nat
  release : Nat
  sliceEnd : Nat
  stopAt : Option Nat
  stopPoint : Option Nat
  carried : Nat
  order : Nat
deriving DecidableEq, Repr

/-- A job in its slot (R21, R50, R418). -/
structure Job where
  card : BitVec 1024
  cardAddr : Nat
  start : Nat
  enq : Nat
  first : Option Nat
  complete : Bool
  finish : Nat
  ends : Nat
  spawns : Nat
  restarts : Nat
  nfaults : Nat
  lost : Bool
  unsplit : Bool
  returned : List (Nat × Nat)
  team : Option Team
deriving DecidableEq, Repr

/-- An item of an arrival log (R346): its kind, the channel and payload rows of an element, the result of a queue or a late one, the condition bit of
a QTRY with its outcome, and its timestamp. -/
structure LogItem where
  kind : Nat
  chan : Nat
  rows : Nat
  landing : Option Landing
  elem : Option Elem
  cond : Option (Fin 8 × Bool)
  time : Nat
deriving DecidableEq, Repr

/-- Where a row of a save lies (R76, R346, R404): a row of the partition's save area or of its spill region, or a local address that CTXSV named. -/
inductive SaveRow where
  | area (row : Nat)
  | spill (row : Nat)
  | named (addr : Nat)
deriving DecidableEq, Repr

/-- A saved context (R63, R346, R400 to R405): where the rows of its image and of its arrival log lie, in order, its state with the results in flight
counted from the stop, its core, whether it may be restored, its home quad, its arrival log and channels, whether it is a team's, and the rows of
its image. -/
structure Saved where
  rows : List SaveRow
  ctx : Ctx
  core : Nat
  ready : Bool
  homeQuad : Option Nat
  log : List LogItem
  chans : List (Nat × Chan)
  team : Bool
  image : List Row
deriving DecidableEq, Repr

/-- Work deferred to END (R353, R360): a COPY with its queue, a SPAWN image with its child's weight, or a LAUNCH card. -/
inductive Deferred where
  | copy (c : CopyCmd)
  | spawn (r : ContRec)
  | launch (card : BitVec 1024)
deriving DecidableEq, Repr

/-- What a task that is suspended or starts again has under way (R326, R327, R354): its run, unless a rollback has discarded that, and the commands that
have not performed with the fences that wait for them. -/
structure Carried where
  run : Option Nat
  outstanding : List Outstanding
  fences : List Fence
deriving DecidableEq, Repr

/-- A journal (R351 to R363): its home quad and first row, its JNLROWS, whether its area is armed, the journal copies in order of data row
(target row, data, poison), the work deferred, the granules held, the retained continuation, and whether the task's END has committed. -/
structure Journal where
  quad : Nat
  row : Nat
  rows : Nat
  armed : Bool
  copies : List (Nat × Row × Bool)
  deferred : List Deferred
  granules : List Granule
  retained : Option ContRec
  ended : Bool
deriving DecidableEq, Repr

/-- Rows of a journal area: a header, index rows and data rows (R351). -/
def Journal.total (j : Journal) : Nat := 1 + (j.rows + 31) / 32 + j.rows

/-- The bundle under way: MODEL's own (log 10). Its context, its first byte, its length, the slot being executed, and the registers,
memory and journal as of the bundle (R110). -/
structure Issue where
  key : Nat
  pc : Offset
  len : Nat
  slot : Slot
  src : Ctx
  mem : Mem
  jnl : Option Journal
  out : SlotOutcome
  skip : Option Offset
deriving DecidableEq, Repr

/-- A push that waits at a base-die queue (R318, R343): a QPUSH with its data, or the oldest batch of a gather channel. -/
inductive PushWait where
  | task (id : Nat) (data : BitVec 512)
  | batch (g : Nat)
deriving DecidableEq, Repr

/-- A base-die queue (R342 to R345): entries, each with the row that poisons it (R399, R412), pushes that wait in their order of arrival, pops that wait for
an entry, and a held change of DEPTH. -/
structure BdQueue where
  entries : List (BitVec 512 × Option Nat)
  pushes : List PushWait
  pops : List (Nat × List Nat × Option VReg)
  heldDepth : Option (BitVec 12)
deriving DecidableEq, Repr

/-- An empty base-die queue. -/
def BdQueue.empty : BdQueue := ⟨[], [], [], none⟩

/-- An access parked on a page that is not present (R293), or waiting for the port 0 link (R426): what resumes. -/
inductive ParkWork where
  | copy (quad id : Nat)
  | root (job : Nat) (wexp : Nat) (ticket : Word)
  | record (job : Nat)
  | page (core : Nat) (part : BitVec 4) (image : BitVec 8) (page : Nat)
  | spoke (e k hop step : Nat)
  | argument (key : Nat)
  | collective (group seq chunk : Nat)
  | collWrites (group seq : Nat)
  | gatherRow (g : Nat) (offset : BitVec 28) (data : Row)
  | gatherEntry (g : Nat)
  | gatherList (g : Nat)
  | packet (q : Nat)
  | poolCard (part : BitVec 4) (card : BitVec 1024)
  | organWrite (q part addr n v : Nat)
  | sibPost (q : Nat)
deriving DecidableEq, Repr

/-- A parked access: the partition and address it waits on, whether it waits for the host (port 0, or the answer to a snoop) and not for a page, since which
cycle, and, for the host, the page through which it has been translated (first address and bytes) and the device physical row that it is to write. -/
structure Parked where
  id : Nat
  part : BitVec 4
  va : Nat
  link : Bool
  since : Nat
  page : Option (Nat × Nat)
  row : Option Nat
  work : ParkWork
deriving DecidableEq, Repr

/-- A start or release request on its way to a Wheel engine (R298, R299). -/
structure WheelReq where
  id : Nat
  org : Origin
  sa : Word
deriving DecidableEq, Repr

/-- A HOP of a spoke (R302, R304): its number, its step record and the step's address, the spoke's origin at its issue, the chained shard that it
makes or consumes, its stream group with its number as a group hop there, whether its residency slot is claimed, the rows that it has read, the rows as they
arrived at the destination port and how many of these are written, and how far it is: `moved` when its rows are written and verified, `finished` when its done
row has its add as well. -/
structure HopRec where
  n : Nat
  step : BitVec 256
  stepAddr : Nat
  origin : Nat
  slotReady : Bool
  readAt : Nat
  chained : Option Nat
  consumes : Option Nat
  group : Option (Nat × Nat)
  got : List Row
  arrived : List Row
  put : Nat
  retried : Bool
  moved : Bool
  finished : Bool
  released : Bool
  issued : Nat
deriving DecidableEq, Repr

/-- A spoke's membership of a stream group (R310, R311): the group, its size, its tier, this module's index, whether every member has joined, the group
hops issued, the releases that each member has told, whether another member has failed, and when the spoke asked to join. -/
structure GroupMem where
  id : Nat
  size : Nat
  tier : Nat
  me : Nat
  joined : Bool
  hops : Nat
  rel : List (Nat × Nat)
  aborted : Bool
  asked : Nat
deriving DecidableEq, Repr

/-- A spoke running an itinerary (R298 to R306). `id` names the TGO that started it (R321). `rows` are the itinerary rows that it holds (R301): address, content and cycle of arrival; `groups` its
stream groups, the newest first; `began` the tick of its start. -/
structure Spoke where
  id : Nat
  org : Origin
  addr : Nat
  va : Bool
  index : Nat
  origin : Nat
  windows : Vector Nat 5
  loops : List (Nat × Nat)
  hops : List HopRec
  nextHop : Nat
  nchained : Vector Nat 5
  nconsumed : Vector Nat 5
  rows : List (Nat × Row × Nat)
  groups : List GroupMem
  readAt : Nat
  began : Nat
deriving DecidableEq, Repr

/-- A fill or an eviction on its way to the residency table (R308, R309): partition, slot, owner (16 times the engine, plus the spoke), the hop that fills,
and the cycle in which it reaches the slot. -/
structure SlotReq where
  part : Nat
  slot : Nat
  owner : Nat
  hop : Nat
  since : Nat
deriving DecidableEq, Repr

/-- A Wheel engine (R296 to R307): its requests, its spokes, LATE's additions of the cycle, and its translation cache (R296). -/
structure Wheel where
  starts : List WheelReq
  rels : List WheelReq
  spokes : List (Nat × Spoke)
  added : Nat
  tcache : List TransEntry
deriving DecidableEq, Repr
/-- A Wheel engine at reset. -/
def Wheel.reset : Wheel := ⟨[], [], [], 0, []⟩

/-- A stage of a gather channel (R315, R316). -/
structure Stage where
  rid : Word
  nrows : Nat
  deadline : Nat
  user : Word
  bitmap : BitVec 1024
  complete : Option Nat
  batched : Bool
deriving DecidableEq, Repr

/-- A closed batch (R318): the channel's payload as it closed, number, reason, the stages with their data, and the tick of closure. -/
structure Batch where
  cfg : BitVec 512
  num : Nat
  reason : Nat
  items : List (Nat × Stage)
  closed : Nat
  listDone : Bool
deriving DecidableEq, Repr

/-- A gather channel (R314 to R318): its GATHER_CFG payload, stages, next batch number and the batches waiting to be pushed. -/
structure GatherChan where
  cfg : BitVec 512
  stages : List (Nat × Stage)
  nextBatch : Nat
  batches : List Batch
deriving DecidableEq, Repr

/-- A chunk of a collective at this module (R377 to R383): at the owner the exponents received, the agreed exponent, the contributions reduced so far
with the sum of their checksums; at a member whether its own contribution has been read, the delivery not yet written with its checksum, and whether it
is committed; the members that have committed it (R380, R382); and whether a read of this member for it waits for a granule or an array (R354, R413). -/
structure Chunk where
  expo : Option Int
  expos : List (Nat × Int)
  bitmap : List Nat
  acc : List Nat
  pred : Nat
  special : Bool
  reduced : Bool
  delivery : Option (Int × List Nat × Nat)
  committed : Bool
  failed : Bool
  sourced : Bool
  doneBy : List Nat
  waits : Bool
deriving DecidableEq, Repr

/-- A command whose accesses a collective makes here (R321): its name, its task, and the chunks of an HRECH. -/
structure CollCmd where
  id : Nat
  ticket : Word
  chunks : Option (List Nat)
deriving DecidableEq, Repr

/-- A live collective at this module (R372 to R385): members and buffer addresses as of its acceptance (R371), the outcome of the local checks, whether
its chunks move, whether it is aborted, whether its flag is written, the reports and the flag value still to write (R376, R381, R383), and its times; `cmds` are the commands whose accesses it makes
(R321). -/
structure Coll where
  org : Origin
  cmd : BitVec 512
  members : List Nat
  bufIn : Nat
  bufOut : Nat
  sig : Nat
  cause : Nat
  going : Bool
  aborted : Bool
  ended : Bool
  reports : List (BitVec 512)
  flag : Option Nat
  chunks : List (Nat × Chunk)
  accepted : Nat
  goAt : Nat
  cmds : List CollCmd
deriving DecidableEq, Repr

/-- A message sent out of the module (R310, R376, R377, R431, R433): MODEL's own outbox (log 4). -/
inductive OutMsg where
  | vote (group seq : Nat) (v : Vote)
  | decision (group seq : Nat) (cause : Option Nat) (lowest : Nat)
  | expo (group seq chunk member : Nat) (e : Int) (agreed : Bool)
  | contribution (group seq chunk member : Nat) (e : Int) (data : List Nat) (sum : Nat) (special : Bool)
  | delivery (group seq chunk member : Nat) (e : Int) (data : List Nat) (sum : Nat) (special : Bool)
  | rehelp (group seq : Nat) (chunks : List Nat)
  | resend (group seq : Nat) (chunks : List Nat)
  | chunkReport (group seq : Nat) (report : BitVec 512)
  | committed (group seq chunk member : Nat)
  | join (group size tier window member : Nat)
  | notice (group member count : Nat)
  | shard (group index row : Nat) (data : Row)
  | transit (data : BitVec 1024)
  | transitChunk (flits : List (BitVec 1024))
  | flit (n : BitVec 32) (index count : Nat) (m : OutMsg)
  | abortGroup (group member : Nat)
  | barrierHalf (part id member : Nat)
  | flitAck (link : Nat) (n : BitVec 32) (ok : Bool)
  | mctp (agent : Nat) (status : BitVec 8) (value : Word)
  | attestation (agent : Nat) (report : List Byte) (ed : BitVec 512) (ml : BitVec 26472) (certs : List Byte)
  | sensor (agent : Nat) (sensor : Nat) (value : BitVec 32)
  | hostData (data : BitVec 512)
  | unsupported
  | hostWrite (addr : Nat)
  | snoop (line : Nat)
  | halt
deriving DecidableEq, Repr

/-- A write of a unit to local memory that an array's zeroing or retention holds (R295, R413): the absolute address, the bytes, whether they are added to
the 64-bit word there, and the path-C command of a task that it is (R327), 0 for none. -/
structure HeldWrite where
  addr : Nat
  bytes : Nat
  value : Nat
  add : Bool
  id : Nat
deriving DecidableEq, Repr

/-- A message of the Tightrope on its way out of the module (R368, R369, R449): the module it goes to (none: those of a stream group, which the spec
does not name; log 32), its virtual channel, the base die it starts from, and its bytes, in flits of 128. -/
structure RopeMsg where
  dest : Option Nat
  channel : Fin 2
  die : Nat
  bytes : Nat
  msg : OutMsg
deriving DecidableEq, Repr

/-- A packet of the Tightrope, of one flit (R368; log 32): its message, which of its flits it carries, how many there are, and the cycle in which it
reaches its port. -/
structure RopePkt where
  msg : RopeMsg
  index : Nat
  count : Nat
  ready : Nat
deriving DecidableEq, Repr

/-- An off-module port (R368, R369, R449): the packets that wait on each virtual channel, the flits to be sent again, the flit being sent with its number and
the cycle of its end, the chunk in progress with the cycle of its start and its flits so far, the number of the next flit, the flits on the link with the
cycles of their arrival, the flits not acknowledged, and the credits taken on each channel. -/
structure RopePort where
  bulk : List RopePkt
  urgent : List RopePkt
  again : List (BitVec 32 × RopePkt)
  sending : Option (BitVec 32 × RopePkt × Nat)
  burst : Option (RopeMsg × Nat × Nat)
  next : BitVec 32
  crossing : List (BitVec 32 × RopePkt × Nat)
  unacked : List (BitVec 32 × RopePkt)
  bulkTaken : Nat
  urgentTaken : Nat
deriving DecidableEq, Repr
/-- A port at reset. -/
def RopePort.reset : RopePort := ⟨[], [], [], none, none, 0, [], [], 0, 0⟩

/-- What still happens, in order: MODEL's own (log 4). An event of the opcode table, the dispatch of one bundle by a core, a write by a
host agent to a row of host memory (R425), a host agent's answer to a snoop of a line (R424), or an error on a way inside the module that alters data which a
checksum covers: of a copy command's next unit (R286), or of a message that leaves on the Tightrope, in one of its elements (R379; log 27). -/
inductive Act where
  | event (i : Instr)
  | dispatch (core : Fin 128)
  | hostStore (row : Nat) (data : Row) (mask : BitVec 256)
  | snoopDone (line : Nat)
  | flipCopy (quad id bits : Nat)
  | flipRope (msg elem bits : Nat)
deriving DecidableEq, Repr

/-- The machine. -/
structure State where
  mem : Mem
  mmio : List (MReg × Word)
  cycleSets : List (MReg × Nat × Word × Word)
  touched : List (ArrayId × Nat)
  ctxs : List (Nat × Ctx)
  cores : List (Nat × Core)
  quads : List (Nat × Quad)
  dies : List (Nat × Die)
  queues : List (Nat × CmdQueue)
  images : List (Nat × ImageReg)
  pages : List PageMap
  pageOwner : List (Nat × BitVec 4)
  taskQueues : List (Nat × List (ContRec × Option Nat))
  jobs : List (Nat × Job)
  ranges : List (Nat × Nat × Nat)
  pool : List (BitVec 4 × BitVec 1024)
  poolRa : Roundabout
  held : List (Word × BitVec 4 × BitVec 1024)
  saved : List Saved
  stored : List Saved
  journals : List (Word × Journal)
  carried : List (Word × Carried)
  wounds : List Word
  bdq : List (Nat × BdQueue)
  barriers : List (Nat × Nat × Nat × Nat)
  podHalves : List (Nat × Nat × Nat)
  podHolders : List ((Nat × Nat) × Nat)
  parked : List Parked
  wheels : List (Nat × Wheel)
  residency : List (Nat × Nat × Nat)
  fills : List SlotReq
  evictions : List SlotReq
  refresh : List (Nat × Nat × Nat)
  gather : List (Nat × GatherChan)
  collSeq : List (Nat × Nat)
  colls : List (Nat × Nat × Coll)
  links : List (Nat × BitVec 32)
  ropeOut : List RopeMsg
  ropePorts : List (Nat × RopePort)
  transits : List (BitVec 1024)
  linkUp : Bool
  claimed : Option Nat
  bmcI3c : Option Bool
  evSeq : List (BitVec 16 × BitVec 32)
  evPending : List (BitVec 16 × Nat)
  heldWrites : List HeldWrite
  hostLines : List Nat
  snoops : List Nat
  hostPuts : List (Nat × Row × BitVec 256)
  monDuty : List MonEntry
  banks : Vector BankImage 2
  activeBank : Fin 2
  nextBank : Fin 2
  fusedMin : BitVec 32
  running : Bool
  sensors : List (BitVec 32)
  hot : List Nat
  capInForce : Nat
  halted : Bool
  pkgid : BitVec 6
  tbase : BitVec 64
  quarters : Nat
  slew : Int
  lastSlew : Option Nat
  outbox : List (Option Nat × OutMsg)
  agenda : List Act
  nextCore : Nat
  issue : Issue
  freeIdx : Nat
  nextId : Nat
deriving DecidableEq, Repr

/-- Why the machine stops. -/
inductive Fault where
  /-- Raised by every step but MODULE_RESET on a module that has halted (R436). Safe: the spec says that a halted module leaves the halt
  only through a module reset. -/
  | halted
deriving DecidableEq, Repr

/-- Why the model has no meaning. -/
inductive Refusal where
  /-- Raised by exec for an instruction whose meaning is not written yet. Safe: nothing can be proved of its effect. -/
  | notModelled (mnemonic : String)
deriving DecidableEq, Repr

/-- No bundle under way. -/
def Issue.idle : Issue := ⟨0, 0, 0, .ctl, .reset, ⟨[], []⟩, none, .ok, none⟩

/-- A firmware image whose checks pass, of version 0: what both banks hold at reset (DESIGN CHOICE, log 2). -/
def bankReset : BankImage := ⟨true, true, 0, 0⟩

/-- The machine right after reset. Registers hold the values of the Reset columns, through `MReg.reset`; what the spec gives no reset value
is zero or empty (log 2). Nothing runs: no context holds a task, no queue exists and the agenda is empty (log 7). -/
def State.reset : State where
  mem := ⟨[], []⟩
  mmio := []
  cycleSets := []
  touched := []
  ctxs := []
  cores := []
  quads := []
  dies := []
  queues := []
  images := []
  pages := []
  pageOwner := []
  taskQueues := []
  jobs := []
  ranges := []
  pool := []
  poolRa := ⟨0, 1⟩
  held := []
  saved := []
  stored := []
  journals := []
  carried := []
  wounds := []
  bdq := []
  barriers := []
  podHalves := []
  podHolders := []
  parked := []
  wheels := []
  residency := []
  fills := []
  evictions := []
  refresh := []
  gather := []
  collSeq := []
  colls := []
  links := []
  ropeOut := []
  ropePorts := []
  transits := []
  linkUp := false
  claimed := none
  bmcI3c := none
  evSeq := []
  evPending := []
  heldWrites := []
  hostLines := []
  snoops := []
  hostPuts := []
  monDuty := []
  banks := Vector.replicate 2 bankReset
  activeBank := 0
  nextBank := 0
  fusedMin := 0
  running := true
  sensors := List.replicate 11 0
  hot := []
  capInForce := 0
  halted := false
  pkgid := 0
  tbase := 0
  quarters := 0
  slew := 0
  lastSlew := none
  outbox := []
  agenda := []
  nextCore := 0
  issue := .idle
  freeIdx := 0
  nextId := 1

end Sys2Proof.Machine
end

