-- ==== Sys2Proof/Machine/Base.lean ====
section
/-!
DEFINITION. Base: tables, accessors of the parts of State, time, register fields and the memory of bytes and rows.
-/
namespace Sys2Proof.Machine

/-- The entry of a table. -/
def tget {κ α : Type} [DecidableEq κ] (t : List (κ × α)) (k : κ) : Option α := (t.find? fun e => decide (e.1 = k)).map (·.2)
/-- The entry of a table, or a default. -/
def tgetD {κ α : Type} [DecidableEq κ] (t : List (κ × α)) (k : κ) (d : α) : α := (tget t k).getD d
/-- A table with one entry replaced. -/
def tset {κ α : Type} [DecidableEq κ] (t : List (κ × α)) (k : κ) (x : α) : List (κ × α) := (k, x) :: t.filter fun e => decide (e.1 ≠ k)
/-- A table without one entry. -/
def terase {κ α : Type} [DecidableEq κ] (t : List (κ × α)) (k : κ) : List (κ × α) := t.filter fun e => decide (e.1 ≠ k)

/-- The cycle count of the arithmetic clock (R3). -/
def State.now (s : State) : Nat := s.quarters / 4

/-- One context, by core * 8 + context number. -/
def State.ctx (s : State) (k : Nat) : Ctx := tgetD s.ctxs k .reset
/-- Replace one context. -/
def State.setCtx (s : State) (k : Nat) (c : Ctx) : State := { s with ctxs := tset s.ctxs k c }
/-- Change one context. -/
def State.modCtx (s : State) (k : Nat) (f : Ctx → Ctx) : State := s.setCtx k (f (s.ctx k))
/-- Change every context. -/
def State.mapCtxs (s : State) (f : Ctx → Ctx) : State := { s with ctxs := s.ctxs.map fun e => (e.1, f e.2) }
/-- One core. -/
def State.core (s : State) (i : Nat) : Core := tgetD s.cores i .reset
/-- Change one core. -/
def State.modCore (s : State) (i : Nat) (f : Core → Core) : State := { s with cores := tset s.cores i (f (s.core i)) }
/-- One quad. -/
def State.quad (s : State) (i : Nat) : Quad := tgetD s.quads i .reset
/-- Change one quad. -/
def State.modQuad (s : State) (i : Nat) (f : Quad → Quad) : State := { s with quads := tset s.quads i (f (s.quad i)) }
/-- One die. -/
def State.die (s : State) (i : Nat) : Die := tgetD s.dies i .reset
/-- Change one die. -/
def State.modDie (s : State) (i : Nat) (f : Die → Die) : State := { s with dies := tset s.dies i (f (s.die i)) }
/-- One job slot. -/
def State.job? (s : State) (j : Nat) : Option Job := tget s.jobs j
/-- Change a job, if its slot is held. -/
def State.modJob (s : State) (j : Nat) (f : Job → Job) : State :=
  match s.job? j with
  | some x => { s with jobs := tset s.jobs j (f x) }
  | none => s
/-- One journal. -/
def State.journal? (s : State) (t : Word) : Option Journal := tget s.journals t
/-- Replace a journal. -/
def State.setJournal (s : State) (t : Word) (j : Journal) : State := { s with journals := tset s.journals t j }
/-- One base-die queue. -/
def State.bdQueue (s : State) (i : Nat) : BdQueue := tgetD s.bdq i .empty
/-- Replace a base-die queue. -/
def State.setBdq (s : State) (i : Nat) (q : BdQueue) : State := { s with bdq := tset s.bdq i q }
/-- One channel end. -/
def State.chan (s : State) (core ch : Nat) : Chan := tgetD (s.core core).chans ch .empty
/-- Change a channel end. -/
def State.modChan (s : State) (core ch : Nat) (f : Chan → Chan) : State :=
  s.modCore core fun c => { c with chans := tset c.chans ch (f (tgetD c.chans ch .empty)) }

/-- Core, quad and die of a context key (R2). -/
def coreOf (k : Nat) : Nat := k / 8
/-- The quad of a context key. -/
def quadOf (k : Nat) : Nat := k / 32
/-- The die of a context key. -/
def dieOf (k : Nat) : Nat := k / 256
/-- All context keys. -/
def allKeys : List Nat := List.range 1024

/-- Bits [hi:lo] of a natural. -/
def nbits (x hi lo : Nat) : Nat := x / 2 ^ lo % 2 ^ (hi + 1 - lo)
/-- Bytes [off, off + len) of a record held as a natural. -/
def nbytes (x off len : Nat) : Nat := x / 256 ^ off % 256 ^ len
/-- A natural with bits [hi:lo] replaced. -/
def nset (x hi lo v : Nat) : Nat := x - nbits x hi lo * 2 ^ lo + v % 2 ^ (hi + 1 - lo) * 2 ^ lo
/-- Two's-complement value of an n-bit field. -/
def sext (n x : Nat) : Int := if 2 ^ (n - 1) ≤ x % 2 ^ n then (x % 2 ^ n : Nat) - (2 ^ n : Int) else (x % 2 ^ n : Nat)
/-- Fields of a record, each with its length in bytes, from byte 0 up (R4). -/
def pack : List (Nat × Nat) → Nat
  | [] => 0
  | (n, v) :: t => v % 256 ^ n + 256 ^ n * pack t
/-- Ceiling of a quotient. -/
def cdiv (a b : Nat) : Nat := (a + b - 1) / b

/-- A management register. TBASE shows the timebase (R422). -/
def State.reg (s : State) (r : MReg) : Word := if r.fam = .tbase then s.tbase else tgetD s.mmio r r.reset
/-- Replace a management register. -/
def State.setReg (s : State) (r : MReg) (v : Word) : State := { s with mmio := tset s.mmio r v }
/-- A field of a management register. -/
def State.fld (s : State) (f : MFam) (i hi lo : Nat) : Nat := nbits (s.reg ⟨f, i⟩).toNat hi lo
/-- Write a field of a management register. -/
def State.setFld (s : State) (f : MFam) (i hi lo v : Nat) : State :=
  s.setReg ⟨f, i⟩ (BitVec.ofNat 64 (nset (s.reg ⟨f, i⟩).toNat hi lo v))
/-- A register as it was before the events of this cycle, and what these events alone make of its fields (R7). -/
def State.ofCycle (s : State) (r : MReg) : Word × Word :=
  match tget s.cycleSets r with
  | some x => if x.1 = s.now then x.2 else (s.reg r, 0)
  | none => (s.reg r, 0)
/-- An event of the hardware changes a field that software reads to clear or clears (R7). -/
def State.event (s : State) (f : MFam) (i hi lo : Nat) (g : Nat → Nat) : State :=
  let x := s.ofCycle ⟨f, i⟩
  let own := BitVec.ofNat 64 (nset x.2.toNat hi lo (g (nbits x.2.toNat hi lo)))
  { s.setFld f i hi lo (g (s.fld f i hi lo)) with cycleSets := tset s.cycleSets ⟨f, i⟩ (s.now, x.1, own) }
/-- Add to a saturating counter field. -/
def State.count (s : State) (f : MFam) (i hi lo n : Nat) : State := s.event f i hi lo fun x => min (x + n) (2 ^ (hi + 1 - lo) - 1)
/-- Set one bit of a register. -/
def State.raise (s : State) (f : MFam) (i b : Nat) : State := s.event f i b b fun _ => 1

/-- A name for a command in flight: MODEL's own (log 4). -/
def State.fresh (s : State) : Nat × State := (s.nextId, { s with nextId := s.nextId + 1 })
/-- The next free value (log 3). -/
def State.freeVal (s : State) (w : Nat) : BitVec w × State := (Config.free w s.freeIdx, { s with freeIdx := s.freeIdx + 1 })
/-- Put events before everything else that still happens. -/
def State.first (s : State) (l : List Instr) : State := { s with agenda := l.map .event ++ s.agenda }
/-- Send a message out of the module, not on the Tightrope. -/
def State.send (s : State) (m : OutMsg) : State := { s with outbox := s.outbox ++ [(none, m)] }
/-- Send a message on the Tightrope (R368, R369): it waits for the port of its first hop. -/
def State.ropeSend (s : State) (m : RopeMsg) : State := { s with ropeOut := s.ropeOut ++ [m] }
/-- Send a message of one flit on virtual channel 1 (R369, R449) from the base die of stack 0, next to the hub die. -/
def State.ropeFlit (s : State) (dest : Option Nat) (m : OutMsg) : State := s.ropeSend ⟨dest, 1, 0, 128, m⟩

/-! ### Memory -/

/-- The byte at an address: zero when not listed. -/
def lookupCell : List Host.Cell → Nat → Byte
  | [], _ => 0
  | (a, b) :: t, k => if a = k then b else lookupCell t k

/-- List a byte, keeping addresses rising. -/
def putCell : List Host.Cell → Nat → Byte → List Host.Cell
  | [], k, v => [(k, v)]
  | (a, b) :: t, k, v => if a < k then (a, b) :: putCell t k v else if a = k then (k, v) :: t else (k, v) :: (a, b) :: t

/-- Write a byte, listing no zero. -/
def insertCell (l : List Host.Cell) (k : Nat) (v : Byte) : List Host.Cell := if v = 0 then l.filter fun e => decide (e.1 ≠ k) else putCell l k v

/-- Insert into a rising list of naturals. -/
def insertNat : List Nat → Nat → List Nat
  | [], k => [k]
  | a :: t, k => if a < k then a :: insertNat t k else if a = k then a :: t else k :: a :: t

/-- Read one byte of memory. -/
def Mem.read (m : Mem) (a : Nat) : Byte := lookupCell m.cells a
/-- Write one byte of memory. -/
def Mem.write (m : Mem) (a : Nat) (b : Byte) : Mem := { m with cells := insertCell m.cells a b }
/-- The row that holds an address (R263). -/
def rowOf (a : Nat) : Nat := a / 256 * 256
/-- Whether the row of an address is poisoned (R268). -/
def Mem.poisoned (m : Mem) (a : Nat) : Bool := m.poison.contains (rowOf a)
/-- `n` bytes from an address, little-endian (R4). -/
def Mem.readLe (m : Mem) (a : Nat) : Nat → Nat
  | 0 => 0
  | n + 1 => (m.read a).toNat + 256 * m.readLe (a + 1) n
/-- Write the bytes of `v` whose bit of `mask` is set. -/
def Mem.writeLe (m : Mem) (a v mask : Nat) : Nat → Mem
  | 0 => m
  | n + 1 => Mem.writeLe (if mask % 2 = 1 then m.write a (BitVec.ofNat 8 v) else m) (a + 1) (v / 256) (mask / 2) n
/-- The 64-bit word at an address. -/
def Mem.word (m : Mem) (a : Nat) : Word := BitVec.ofNat 64 (m.readLe a 8)
/-- A whole row. -/
def Mem.row (m : Mem) (k : Nat) : Row := BitVec.ofNat 2048 (m.readLe k 256)

/-- Every byte of a row. -/
def fullMask : BitVec 256 := BitVec.allOnes 256

/-- A masked row write (R263, R268): on a poisoned row a masked write is discarded, and a full one clears the poison. -/
def Mem.writeRow (m : Mem) (k : Nat) (data : Row) (mask : BitVec 256) : Mem :=
  if m.poison.contains k then
    if mask = fullMask then { (m.writeLe k data.toNat mask.toNat 256) with poison := m.poison.filter fun x => decide (x ≠ k) } else m
  else m.writeLe k data.toNat mask.toNat 256

/-- Mark a row poisoned. -/
def Mem.setPoison (m : Mem) (k : Nat) : Mem := { m with poison := insertNat m.poison k }

/-- The addresses rise strictly. -/
def rising : List Nat → Bool
  | a :: b :: t => decide (a < b) && rising (b :: t)
  | _ => true

/-- The canonical form of memory. -/
def Mem.wf (m : Mem) : Bool := rising (m.cells.map (·.1)) && m.cells.all (fun e => decide (e.2 ≠ 0)) && rising m.poison

/-- The sleeping WAITAs and waiting tile records that watch a row, as the re-tests that a write to it causes (R243, R332). -/
def State.watchers (s : State) (k : Nat) : List Instr :=
  (List.range 32).flatMap fun q =>
    match tget s.quads q with
    | none => []
    | some x =>
      let q' : Fin 32 := Fin.ofNat 32 q
      ((x.monitor.filter fun e => decide (rowOf e.addr = k)).map fun e => Instr.monitorRetest q' e.id) ++
      ((x.tiles.filter fun t => !t.depOk && decide (nbytes t.cmd.toNat 46 2 ≠ 0)).map fun t => Instr.tileDepRetest q' t.id)

/-- The lines under `n` bytes from an address that the host may hold: a write to them waits until the host has given them back (R424). -/
def State.linesHeld (s : State) (k n : Nat) : List Nat := s.hostLines.filter fun l => decide (l < k + n ∧ k < l + 64)

/-- Send a back-invalidate snoop for each of some lines, once (R424; log 33). -/
def State.snoop (s : State) (l : List Nat) : State :=
  let new := l.filter fun x => !s.snoops.contains x
  { s with snoops := s.snoops ++ new, outbox := s.outbox ++ new.map fun (x : Nat) => ((none : Option Nat), OutMsg.snoop x) }

/-- Write a row and cause the re-tests of its watchers (R141, R243, R263): a write with no byte enabled is no write. -/
def State.storeRow (s : State) (k : Nat) (data : Row) (mask : BitVec 256) : State :=
  if mask = 0 then s else ({ s with mem := s.mem.writeRow k data mask }).first (s.watchers k)

/-- Mask of `n` bytes from byte `off` of a row. -/
def byteMask (off n : Nat) : BitVec 256 := BitVec.ofNat 256 ((2 ^ n - 1) * 2 ^ off)

/-- Write `n` bytes that lie in one row, as a masked row write. -/
def State.storeBytes (s : State) (a n v : Nat) : State :=
  s.storeRow (rowOf a) (BitVec.ofNat 2048 (v % 256 ^ n * 256 ^ (a % 256))) (byteMask (a % 256) n)

/-- Write `n` bytes, at most 256, as one masked row write for each row they touch. -/
def State.storeSpan (s : State) (a n v : Nat) : State :=
  let n1 := min n (256 - a % 256)
  if n1 < n then (s.storeBytes a n1 v).storeBytes (a + n1) (n - n1) (v / 256 ^ n1) else s.storeBytes a n v

/-- Whether any row under `n` bytes from an address is poisoned. -/
def State.spanPoisoned (s : State) (a n : Nat) : Bool := s.mem.poisoned a || s.mem.poisoned (a + (n - 1))

/-- Add to the 64-bit word at an address as one indivisible step (R277), modulo 2^64. -/
def State.addWord (s : State) (a v : Nat) : State := s.storeBytes a 8 ((s.mem.readLe a 8 + v) % 2 ^ 64)

/-- Whether a key lies in host memory (R289, R425). -/
def inHost (k : Nat) : Bool := decide (2 ^ 51 ≤ k ∧ k < 2 ^ 52)

/-- Perform the writes of read-modify-writes of host memory (R425). -/
def State.flushPuts (s : State) : State :=
  s.hostPuts.foldl (fun (s : State) e => s.storeRow e.1 e.2.1 e.2.2) { s with hostPuts := [] }

/-- The write of a read-modify-write (R277): in host memory a separate write, before which nothing but a host agent acts (R425). -/
def State.putRow (s : State) (k : Nat) (data : Row) (mask : BitVec 256) : State :=
  if inHost k then { s with hostPuts := s.hostPuts ++ [(k, data, mask)] } else s.storeRow k data mask

/-- `putRow` of `n` bytes that lie in one row. -/
def State.putBytes (s : State) (a n v : Nat) : State :=
  s.putRow (rowOf a) (BitVec.ofNat 2048 (v % 256 ^ n * 256 ^ (a % 256))) (byteMask (a % 256) n)

end Sys2Proof.Machine
end

