-- ==== Sys2Proof/Machine/Access.lean ====
section
/-!
DEFINITION. Access: local addresses (R261, R262), device addresses and translation (R289 to R293), and where an access of an engine lands.
-/
namespace Sys2Proof.Machine

/-- A local address in its absolute window, for an access of a unit of quad `q`; nothing outside every window (R261). -/
def canonLocal (q a : Nat) : Option Nat :=
  let a := a % 2 ^ 40
  if a < 0x1000000 then some (0x1000000000 + q * 0x1000000 + a)
  else if 0x1000000000 ≤ a ∧ a < 0x1000000000 + 32 * 0x1000000 then some a
  else if 0x2000000000 ≤ a ∧ a < 0x2000000000 + 4 * 0x20000000 then some a
  else none

/-- Key of local memory in `State.mem` (log 15). -/
def localKey (a : Nat) : Nat := 2 ^ 52 + a
/-- The quad whose scratchpad holds an absolute local address. -/
def scratchQuad? (a : Nat) : Option Nat := if a < 0x2000000000 then some ((a - 0x1000000000) / 0x1000000) else none
/-- Die of a Big Top address. -/
def bigDie (a : Nat) : Nat := (a - 0x2000000000) / 0x20000000
/-- Segment of a Big Top address within its slice (R262). -/
def bigSeg (a : Nat) : Nat := (a - 0x2000000000) % 0x20000000 / 0x800000

/-- The partition a quad belongs to (R23): from its move on, the target (R72, R74). -/
def State.quadPart (s : State) (q : Nat) : Nat :=
  if (s.quad q).zeroEnd.isSome then s.fld .quadpart q 11 8 else s.fld .quadpart q 3 0
/-- Whether a move of the quad is recorded and not finished (R76). -/
def State.quadMoving (s : State) (q : Nat) : Bool := s.fld .quadpart q 4 4 = 1
/-- The owner of a Big Top segment (R262, R295). -/
def State.segOwner (s : State) (d g : Nat) : Nat := s.fld .btown (4 * d + g / 16) (g % 16 * 4 + 3) (g % 16 * 4)

/-- Whether a scratchpad address lies in an armed journal area (R352). -/
def State.inJournal (s : State) (a : Nat) : Bool :=
  match scratchQuad? a with
  | none => false
  | some q => s.journals.any fun e =>
      e.2.armed && decide (e.2.quad = q ∧ e.2.row ≤ a % 0x1000000 / 256 ∧ a % 0x1000000 / 256 < e.2.row + e.2.total)

/-- Where an access to a local address ends. -/
inductive Reach where
  | ok (a : Nat)
  | range
  | hold (arr : Option ArrayId)
deriving DecidableEq, Repr

/-- Resolve a local address for a task of a partition: outside the windows (R261), another partition's scratchpad or segment (R262) and
journal areas (R352) are out of range; an array being zeroed (R74, R295) or in retention (R413) holds the access. -/
def State.reach (s : State) (part q a : Nat) : Reach :=
  match canonLocal q a with
  | none => .range
  | some a =>
    match scratchQuad? a with
    | some q' =>
      if s.quadPart q' ≠ part ∨ s.inJournal a then .range
      else if (s.quad q').zeroEnd.isSome then .hold none
      else if (s.quad q').retain ≠ .active then .hold (some (.scratch (Fin.ofNat 32 q')))
      else .ok a
    | none =>
      if s.segOwner (bigDie a) (bigSeg a) ≠ part then .range
      else if (s.die (bigDie a)).segZero.any fun e => decide (e.1 = bigSeg a) then .hold none
      else if (s.die (bigDie a)).retain ≠ .active then .hold (some (.bigTop (Fin.ofNat 4 (bigDie a))))
      else .ok a

/-- The array that holds an absolute local address. -/
def arrayOf (a : Nat) : ArrayId :=
  match scratchQuad? a with
  | some q => .scratch (Fin.ofNat 32 q)
  | none => .bigTop (Fin.ofNat 4 (bigDie a))

/-- Record that an array was accessed in this cycle (R413). -/
def State.touch (s : State) (a : Nat) : State := { s with touched := tset s.touched (arrayOf a) s.now }

/-- Cycles of the re-encoding of an array, each way (R413). -/
def retainCycles : ArrayId → Nat
  | .scratch _ => 1024
  | .bigTop _ => 8192
/-- The state of a retention array. -/
def State.retain (s : State) : ArrayId → Retain
  | .scratch q => (s.quad q).retain
  | .bigTop d => (s.die d).retain
/-- Replace the state of a retention array. -/
def State.setRetain (s : State) (r : Retain) : ArrayId → State
  | .scratch q => s.modQuad q fun x => { x with retain := r }
  | .bigTop d => s.modDie d fun x => { x with retain := r }

/-- Start an array's exit from retention (R413): an entry under way ends first. -/
def State.startExit (s : State) (a : ArrayId) : State :=
  match s.retain a with
  | .retained => s.setRetain (.exiting (s.now + retainCycles a)) a
  | .entering t => s.setRetain (.exiting (max t s.now + retainCycles a)) a
  | .active | .exiting _ => s

/-- Keep a write that an array holds, and start the exit from retention that it waits for (R413). -/
def State.keepWrite (s : State) (arr : Option ArrayId) (w : HeldWrite) : State :=
  let s := match arr with
    | some x => s.startExit x
    | none => s
  { s with heldWrites := s.heldWrites ++ [w] }

/-- Whether an array holds accesses to an absolute local address: zeroing (R74, R295) or retention (R413). -/
def State.holdsAccess (s : State) (a : Nat) : Bool :=
  decide (s.retain (arrayOf a) ≠ .active) ||
  match scratchQuad? a with
  | some q => (s.quad q).zeroEnd.isSome
  | none => (s.die (bigDie a)).segZero.any fun e => decide (e.1 = bigSeg a)

/-- Commands without one that has performed. -/
def dropCommand (id : Nat) (l : List Outstanding) : List Outstanding := l.filter fun o => decide (o.id ≠ id)
/-- Fences that no longer wait for a command. -/
def dropBefore (id : Nat) (l : List Fence) : List Fence :=
  (l.map fun f => { f with before := f.before.filter fun i => decide (i ≠ id) }).filter fun f => !f.before.isEmpty
/-- Forget a command, and with `all` the fences that wait for it. -/
def Ctx.forget (c : Ctx) (id : Nat) (all : Bool) : Ctx :=
  { c with outstanding := dropCommand id c.outstanding, fences := if all then dropBefore id c.fences else c.fences }

/-- Forget a command of a task that runs, is saved or is suspended. -/
def State.forget (s : State) (id : Nat) (all : Bool) : State :=
  let s := s.mapCtxs fun c => c.forget id all
  let f (x : Saved) : Saved := { x with ctx := x.ctx.forget id all }
  let kept := s.carried.map fun e =>
    (e.1, { e.2 with outstanding := dropCommand id e.2.outstanding, fences := if all then dropBefore id e.2.fences else e.2.fences })
  { s with saved := s.saved.map f, stored := s.stored.map f, carried := kept }

/-- Perform the writes that nothing holds any longer, in order (R295, R413). -/
def State.flushWrites (s : State) : State :=
  (s.heldWrites.filter fun w => !s.holdsAccess w.addr).foldl (fun (s : State) w =>
    let s := if w.add then (s.touch w.addr).addWord (localKey w.addr) w.value else (s.touch w.addr).storeBytes (localKey w.addr) w.bytes w.value
    if w.id = 0 then s else s.forget w.id true)
    { s with heldWrites := s.heldWrites.filter fun w => s.holdsAccess w.addr }

/-- What lies at a device physical address. -/
inductive Target where
  | mem (key : Nat)
  | host (key : Nat)
  | regs (off : Nat)
deriving DecidableEq, Repr

/-- The enabled fabric window of lowest number that holds a fabric physical address, and the fabric address there (R427). -/
def State.fabric (s : State) (pa : Nat) : Option Nat :=
  ([1, 2, 3].filter fun k =>
    decide (s.fld .fabwin k 25 0 * 2 ^ 30 ≤ pa ∧ pa < (s.fld .fabwin k 25 0 + s.fld .fabwin k 51 26) * 2 ^ 30)).head?.map
    fun k => (pa - s.fld .fabwin k 25 0 * 2 ^ 30 + (s.reg ⟨.faboff, k⟩).toNat) % 2 ^ 64

/-- The target of a device physical address (R289): nothing for an invalid one. -/
def State.physTarget (s : State) (pa : Nat) : Option Target :=
  if pa < 0x3000000000 then some (.mem pa)
  else if 0x10000000000 ≤ pa ∧ pa < 0x20000000000 then some (.mem pa)
  else if 0x30000000000 ≤ pa ∧ pa < 0x30200000000 then some (.regs (pa - 0x30000000000))
  else if 0x4000000000000 ≤ pa ∧ pa < 0x8000000000000 then (s.fabric pa).map fun f => .mem (2 ^ 65 + f)
  else if 0x8000000000000 ≤ pa ∧ pa < 0x10000000000000 then some (.host pa)
  else none

/-- Bytes of a page (R290). -/
def PageMap.bytes (p : PageMap) : Nat := if p.big then 2 ^ 30 else 2 ^ 17

/-- The translation of a device virtual address in a partition (R290 to R292). -/
def State.pageOf (s : State) (part va : Nat) : Option PageMap :=
  s.pages.find? fun p => decide (p.part.toNat = part ∧ p.va ≤ va ∧ va < p.va + p.bytes)

/-- Where an engine access ends: at memory, at a register page, with a failure cause (R280), parked on an absent page (R293), waiting
for port 0 (R426), or held by zeroing or retention. -/
inductive Spot where
  | mem (key : Nat)
  | regs (off : Nat)
  | fail (cause : BitVec 8)
  | absent
  | link
  | hold
deriving DecidableEq, Repr

/-- Cause codes of R390. -/
abbrev Cause := BitVec 8
/-- See R390. -/
def cIllegalBundle : Cause := 0x01
/-- See R390. -/
def cIllegalDelay : Cause := 0x02
/-- See R390. -/
def cBadTarget : Cause := 0x03
/-- See R390. -/
def cFetch : Cause := 0x04
/-- See R390. -/
def cPriv : Cause := 0x05
/-- See R390. -/
def cEmptyRead : Cause := 0x06
/-- See R390. -/
def cLocalRange : Cause := 0x07
/-- See R390. -/
def cFormat : Cause := 0x08
/-- See R390. -/
def cSpawnDepth : Cause := 0x09
/-- See R390. -/
def cJournalFull : Cause := 0x0A
/-- See R390. -/
def cLockState : Cause := 0x0B
/-- See R390. -/
def cCqOverflow : Cause := 0x0C
/-- See R390. -/
def cBadTile : Cause := 0x0D
/-- See R390. -/
def cBadChannel : Cause := 0x0E
/-- See R390. -/
def cQueueDenied : Cause := 0x0F
/-- See R390. -/
def cBadColl : Cause := 0x10
/-- See R390. -/
def cPoison : Cause := 0x11
/-- See R390. -/
def cSoftware : Cause := 0x12
/-- See R390. -/
def cWatchdog : Cause := 0x13
/-- See R390. -/
def cCtxState : Cause := 0x14
/-- See R390. -/
def cBadCopy : Cause := 0x20
/-- See R390. -/
def cPerm : Cause := 0x21
/-- See R390. -/
def cNotPresent : Cause := 0x22
/-- See R390. -/
def cChecksum : Cause := 0x23
/-- See R390. -/
def cNoHandler : Cause := 0x24
/-- See R390. -/
def cPartMoved : Cause := 0x25
/-- See R390. -/
def cDepFailed : Cause := 0x26
/-- See R390. -/
def cSetWrite : Cause := 0x27
/-- See R390. -/
def cSpokeDenied : Cause := 0x28
/-- See R390. -/
def cSpokeBusy : Cause := 0x29
/-- See R390. -/
def cBadStep : Cause := 0x2A
/-- See R390. -/
def cSlotOwner : Cause := 0x2B
/-- See R390. -/
def cMcastMismatch : Cause := 0x2C
/-- See R390. -/
def cMcastAbort : Cause := 0x2D
/-- See R390. -/
def cBadCard : Cause := 0x2E
/-- See R390. -/
def cBadImage : Cause := 0x2F
/-- See R390. -/
def cAbandoned : Cause := 0x30

/-- A physical target as a spot: host memory waits while port 0 is down (R426), and a write of `width` bytes until the host has given back the lines under
them that it may hold (R424). -/
def State.spotOf (s : State) (t : Option Target) (need width : Nat) : Spot :=
  match t with
  | none => .fail cPerm
  | some (.mem k) => if need.testBit 1 && !(s.linesHeld k width).isEmpty then .link else .mem k
  | some (.host k) => if s.linkUp then .mem k else .link
  | some (.regs o) => .regs o

/-- Where an access of `width` bytes to a device virtual address ends; `need` holds the PERM bits it needs: 1 R, 2 W, 4 ACC (R292, R293). -/
def State.spotVa (s : State) (part va need : Nat) (width : Nat := 256) : Spot :=
  match s.pageOf part va with
  | none => .absent
  | some p => if p.perm.toNat &&& need = need then s.spotOf (s.physTarget (p.pa + (va - p.va))) need width else .fail cPerm

/-! ### Translation caches (R290, R291, R296) -/

/-- The translation entry that serves a page: one for the 16 pages of 2 MiB that are marked (R290). -/
def PageMap.entry (p : PageMap) : TransEntry := if p.merged then ⟨p.part, p.va / 2 ^ 21 * 2 ^ 21, 2 ^ 21⟩ else ⟨p.part, p.va, p.bytes⟩

/-- A translation comes into a cache of `n` entries: when it is full, in place of the one that came first (DESIGN CHOICE: R291 names no order; log 18). -/
def cachePut (n : Nat) (l : List TransEntry) (e : TransEntry) : List TransEntry :=
  if l.contains e then l else (if l.length < n then l else l.drop 1) ++ [e]

/-- Whose translation cache an access fills: the copy engine of the quad that commands it, a Wheel engine, or another engine, that of a die alone. -/
inductive Via where
  | copy | wheel (e : Nat) | die
deriving DecidableEq, Repr

/-- An engine translates an address for a quad: its own cache holds the translation from then on, and that of the quad's die unless it is a Wheel engine's
(R291, R296). -/
def State.translated (s : State) (via : Via) (part q va : Nat) : State :=
  let inDie (s : State) (e : TransEntry) : State := s.modDie (q / 8) fun d => { d with tcache := cachePut 8192 d.tcache e }
  match s.pageOf part va, via with
  | none, _ => s
  | some p, .copy =>
    if (s.quad q).tcache.contains p.entry then s else inDie (s.modQuad q fun x => { x with tcache := cachePut 256 x.tcache p.entry }) p.entry
  | some p, .die => inDie s p.entry
  | some p, .wheel e =>
    let w := tgetD s.wheels e .reset
    { s with wheels := tset s.wheels e { w with tcache := cachePut 1024 w.tcache p.entry } }

/-- Whether a translation belongs to a partition and meets `n` bytes from an address. -/
def TransEntry.hits (t : TransEntry) (part va n : Nat) : Bool := decide (t.part.toNat = part ∧ t.va < va + n ∧ va < t.va + t.bytes)

/-- Every cache drops the translations that match (R292, R411). -/
def State.dropTranslations (s : State) (f : TransEntry → Bool) : State :=
  { s with
    quads := s.quads.map fun (e : Nat × Quad) => (e.1, { e.2 with tcache := e.2.tcache.filter fun t => !f t })
    dies := s.dies.map fun (e : Nat × Die) => (e.1, { e.2 with tcache := e.2.tcache.filter fun t => !f t })
    wheels := s.wheels.map fun (e : Nat × Wheel) => (e.1, { e.2 with tcache := e.2.tcache.filter fun t => !f t }) }

/-- The translations that the caches hold. -/
def State.translations (s : State) : List TransEntry :=
  (s.quads.flatMap fun e => e.2.tcache) ++ (s.dies.flatMap fun e => e.2.tcache) ++ s.wheels.flatMap fun e => e.2.tcache

/-- The parked accesses of a partition that have been translated through `n` bytes from an address, and have not performed. -/
def State.underWay (s : State) (part va n : Nat) : List Parked :=
  s.parked.filter fun p => p.link && decide (p.part.toNat = part) && (match p.page with
    | some x => decide (x.1 < va + n ∧ va < x.1 + x.2)
    | none => false)

/-- Where an access to a local address by an engine ends. -/
def State.spotLocal (s : State) (part q a : Nat) : Spot :=
  match s.reach part q a with
  | .ok a => .mem (localKey a)
  | .range => .fail cLocalRange
  | .hold _ => .hold

/-- Where a row access of an engine ends (R261, R263): the low eight bits of the address are ignored. -/
def State.spot (s : State) (o : Origin) (va : Bool) (addr need : Nat) : Spot :=
  if va then s.spotVa o.part.toNat (rowOf addr % 2 ^ 56) need else s.spotLocal o.part.toNat o.quad (rowOf addr)

/-- Software clears some bits of a register: what the events of this cycle set stays (R7). -/
def State.clearBits (s : State) (r : MReg) (m : Word) : State :=
  let x := s.ofCycle r
  let s := s.setReg r ((s.reg r &&& ~~~m) ||| (x.2 &&& m))
  { s with cycleSets := s.cycleSets.map fun e => if e.1 = r then (r, e.2.1, e.2.2.1 &&& ~~~m, e.2.2.2) else e }

/-- Read a register, performing its RC action on the bytes read (R6, R7): `mask` tells the bits that the access touches. W1C and RC fields read as before
the events of this cycle, which a clear leaves. -/
def State.readReg (s : State) (r : MReg) (mask : Word) : Word × State :=
  let m := r.rc &&& mask
  let shown := m ||| r.w1c
  ((s.reg r &&& ~~~shown) ||| ((s.ofCycle r).1 &&& shown), if m = 0 then s else s.clearBits r m)

/-- Whether an engine of a partition may write a register offset (R430): its own live queues, its gather channels, its named buffers; the row windows of the
Barker are not among them. -/
def State.engineMayWrite (s : State) (part off : Nat) : Bool :=
  let page := off / 0x20000
  if 0x800 < page ∧ page < 0xC00 then
    match tget s.queues (page - 0x800) with
    | some q => decide (q.part.toNat = part)
    | none => false
  else if 0x1000 ≤ page ∧ page < 0x1010 then
    match tget s.gather (page - 0x1000) with
    | some g => decide (nbytes g.cfg.toNat 9 1 = part)
    | none => false
  else decide (32 ≤ page ∧ page < 48 ∧ page - 32 = part)

/-- The events of an engine row write to a register page, in ascending offset (R430). Agent 16 stands for an engine. -/
def regRowEvents (off : Nat) (data : Row) (mask : BitVec 256) : List Instr :=
  (List.range 32).flatMap fun i =>
    if nbits mask.toNat (8 * i + 7) (8 * i) = 255 then
      let v := BitVec.ofNat 64 (nbytes data.toNat (8 * i) 8)
      match MReg.atOffset (off + 8 * i) with
      | none => []
      | some r =>
        match r.fam with
        | .qdb => [.queueDoorbell 16 (Fin.ofNat 1024 r.i) (v.setWidth 32)]
        | .qstat => [.queueRestart 16 (Fin.ofNat 1024 r.i) v]
        | .gdb => [.gatherDoorbell 16 (Fin.ofNat 16 r.i) (v.setWidth 32)]
        | _ => [.registerWrite 16 (BitVec.ofNat 33 (off + 8 * i)) 0 v]
    else []

/-- The result of an engine row access; a held access (zeroing, retention, a granule to be granted) answers what it asked for. -/
inductive RowRes where
  | ok (row : Row) (s : State)
  | fail (cause : Cause)
  | absent
  | link
  | hold (s : State)
deriving DecidableEq, Repr

/-- Read a row at a spot: a poisoned row fails with POISON (R280); register pages are read under R430. -/
def State.readSpot (s : State) (part : Nat) : Spot → RowRes
  | .mem k => if s.mem.poisoned k then .fail cPoison else .ok (s.mem.row k) s
  | .regs off =>
    if s.engineMayWrite part off ∨ off / 0x20000 = 112 then
      let st := (List.range 32).foldl (fun (acc : Nat × State) i =>
        match MReg.atOffset (off + 8 * i) with
        | none => acc
        | some r => let x := acc.2.readReg r (BitVec.allOnes 64); (acc.1 + x.1.toNat * 256 ^ (8 * i), x.2)) (0, s)
      .ok (BitVec.ofNat 2048 st.1) st.2
    else .fail cPerm
  | .fail c => .fail c
  | .absent => .absent
  | .link => .link
  | .hold => .hold s

/-- Write a row at a spot; a read-modify-write (`rmw`) of a register page fails with PERM (R430). -/
def State.writeSpot (s : State) (part : Nat) (data : Row) (mask : BitVec 256) (rmw : Bool) : Spot → RowRes
  | .mem k => .ok data (s.storeRow k data mask)
  | .regs off => if s.engineMayWrite part off ∧ ¬ rmw then .ok data (s.first (regRowEvents off data mask)) else .fail cPerm
  | .fail c => .fail c
  | .absent => .absent
  | .link => .link
  | .hold => .hold s

end Sys2Proof.Machine
end

