-- ==== Sys2Proof/Machine/Reports.lean ====
section
/-!
DEFINITION. Reports: the accesses of the Organ, the event ring (R419, R420), stamps (R421), fault records (R409, R410) and queue stops
(R41, R42).
-/
namespace Sys2Proof.Machine

/-- Where an access of the Organ ends: device physical for queue 0, else a device VA of the partition (R36). -/
def State.spotQ (s : State) (q part addr need : Nat) (width : Nat := 256) : Spot :=
  if q = 0 then s.spotOf (s.physTarget addr) need width else s.spotVa part addr need width

/-- Write `n` bytes where an access of the Organ ends. A word written to a register page is a register write (R430). A sibling slot or a word that
crosses a page is written on from the translation of its first byte (DESIGN CHOICE: SIBBASE, SIBTAILADDR and HEADADDR have no stated alignment; log 16). -/
def State.writeAt (s : State) (part n v : Nat) : Spot → State
  | .mem k => s.storeSpan k n v
  | .regs off =>
    if s.engineMayWrite part off then
      s.first (regRowEvents (off / 256 * 256) (BitVec.ofNat 2048 (v % 256 ^ n * 256 ^ (off % 256))) (byteMask (off % 256) n))
    else s
  | .fail _ | .absent | .link | .hold => s

/-- Whether an access is made by device physical address: those of queue 0 (R36), and the loads of the pages of its images (R77). -/
def State.physWork (s : State) : ParkWork → Bool
  | .packet q => decide (q = 0)
  | .organWrite q _ _ _ _ | .sibPost q => decide (q = 0)
  | .page _ part image _ => ((tget s.images (part.toNat * 256 + image.toNat)).map (·.phys)).getD false
  | .copy _ _ | .root _ _ _ | .record _ | .spoke _ _ _ _ | .argument _ | .collective _ _ _ | .collWrites _ _ | .gatherRow _ _ _ | .gatherEntry _
  | .gatherList _ | .poolCard _ _ => false

/-- The lines under `n` bytes of a partition's address space that the host may hold (R424). -/
def State.linesAt (s : State) (part va n : Nat) : List Nat :=
  match (s.pageOf part va).bind fun p => s.physTarget (p.pa + (va - p.va)) with
  | some (.mem k) => s.linesHeld k n
  | some (.host _) | some (.regs _) | none => []

/-- What an access that waits addresses. -/
def State.workTarget (s : State) (part va : Nat) (w : ParkWork) : Option Target :=
  if s.physWork w then s.physTarget va else (s.pageOf part va).bind fun p => s.physTarget (p.pa + (va - p.va))

/-- Let an access of `width` bytes wait for the host: for port 0 (R426), or for the lines that it snoops (R424). -/
def State.parkLink (s : State) (part va : Nat) (w : ParkWork) (width : Nat := 256) : State :=
  let page := if s.physWork w then none else s.pageOf part va
  let key := match s.workTarget part va w with
    | some (.mem k) => some k
    | some (.host _) | some (.regs _) | none => none
  let x := s.fresh
  let s := { x.2 with parked := x.2.parked ++ [Parked.mk x.1 (BitVec.ofNat 4 part) va true x.2.now (page.map fun p => (p.va, p.bytes)) (key.map rowOf) w] }
  match key with
  | some k => s.snoop (s.linesHeld k width)
  | none => s

/-- A write of the Organ for queue `q` (R35, R36, R41, R426): to host memory it waits for port 0. -/
def State.organWrite (s : State) (q part addr n v : Nat) : State :=
  match s.spotQ q part addr 2 n with
  | .link => s.parkLink part addr (.organWrite q part addr n v) n
  | spot => s.writeAt part n v spot

/-- An event to post (R420): its source, kind and item, enqueue and start times, W0, and the time of the happening when it
is not now. -/
structure EventRec where
  src : BitVec 16
  kind : Nat
  item : Nat
  tenq : Nat := 0
  tstart : Nat := 0
  w0 : Nat := 0
  time : Option Nat := none
deriving DecidableEq, Repr

/-- Event sources (R420). -/
def srcCopy (q : Nat) : BitVec 16 := BitVec.ofNat 16 (1 * 4096 + q)
/-- See R420. -/
def srcTile (q : Nat) : BitVec 16 := BitVec.ofNat 16 (2 * 4096 + q)
/-- See R420. -/
def srcWheel (e : Nat) : BitVec 16 := BitVec.ofNat 16 (3 * 4096 + e)
/-- See R420. -/
def srcDie (d : Nat) : BitVec 16 := BitVec.ofNat 16 (5 * 4096 + d)
/-- See R420. -/
def srcOrgan (k : Nat) : BitVec 16 := BitVec.ofNat 16 (7 * 4096 + k)
/-- See R420. -/
def srcLink (k : Nat) : BitVec 16 := BitVec.ofNat 16 (4 * 4096 + k)

/-- The bytes of an event record (R420). -/
def EventRec.bytes (e : EventRec) (seq time : Nat) : Nat :=
  pack [(2, e.src.toNat), (1, e.kind), (1, 0), (4, seq), (8, time), (8, e.item), (8, e.tenq), (8, e.tstart), (8, e.w0), (16, 0)]

/-- Put an event among those that reach the ring in this cycle, behind those of the same source and of lower ones (R419). -/
def insertEvent (e : BitVec 16 × Nat) : List (BitVec 16 × Nat) → List (BitVec 16 × Nat)
  | [] => [e]
  | x :: t => if e.1.toNat < x.1.toNat then e :: x :: t else x :: insertEvent e t

/-- Post an event (R419): it takes its number in its source's order, and enters the ring with the events of its cycle. -/
def State.postEvent (s : State) (e : EventRec) : State :=
  let seq := tgetD s.evSeq e.src 0
  { s with
    evSeq := tset s.evSeq e.src (seq + 1)
    evPending := insertEvent (e.src, e.bytes seq.toNat (e.time.getD s.tbase.toNat)) s.evPending }

/-- Write an event into the ring (R419): it is dropped and counted when the ring is full, has no entry, or port 0 is down (R426). -/
def State.enterEvent (s : State) (bytes : Nat) : State :=
  let n := s.fld .eventries 0 16 0
  let tail := s.fld .evtail 0 31 0
  if n = 0 ∨ (tail + 2 ^ 32 - s.fld .evhead 0 31 0) % 2 ^ 32 = n ∨ s.linkUp = false then s.count .evtail 0 63 32 1
  else
    let a := 2 ^ 51 + s.fld .evbase 0 50 0 + tail % n * 64
    (s.writeAt 0 64 bytes (s.spotOf (s.physTarget a) 2 64)).setFld .evtail 0 31 0 (tail + 1)

/-- The events of a cycle enter the ring, in ascending order of their sources (R419). -/
def State.enterEvents (s : State) : State := s.evPending.foldl (fun (s : State) e => s.enterEvent e.2) { s with evPending := [] }

/-- Post a STAMP event of a class (R421), when the partition stamps that class. -/
def State.stamp (s : State) (part cls job ident tenq tstart : Nat) (src : BitVec 16) : State :=
  if s.fld .pstamp part cls cls = 1 then
    s.postEvent { src := src, kind := 4, item := cls + job % 4096 * 256 + ident % 2 ^ 44 * 2 ^ 20, tenq := tenq, tstart := tstart }
  else s

/-- Partition on the card of a job (R48). -/
def Job.part (j : Job) : Nat := nbytes j.card.toNat 2 1
/-- Priority on the card of a job. -/
def Job.prio (j : Job) : Nat := nbytes j.card.toNat 1 1
/-- Whether the job is a GANG job (R21). -/
def Job.gang (j : Job) : Bool := nbytes j.card.toNat 0 1 = 1
/-- VREGS of a job. -/
def Job.vregs (j : Job) : Nat := nbytes j.card.toNat 28 2
/-- JNLROWS of a job. -/
def Job.jnlRows (j : Job) : Nat := nbytes j.card.toNat 30 2
/-- FAULTQ of a card. -/
def cardFaultQ (c : BitVec 1024) : Nat := nbytes c.toNat 56 2

/-- Whether a queue exists (R44). -/
def State.live (s : State) (n : Nat) : Bool := s.fld .qstat n 32 32 = 1

/-- SIBTAIL of a queue (R41): the word at SIBTAILADDR, or, where it cannot be read, what the Organ last wrote there (DEDUCED; log 16). -/
def State.sibTailOf (s : State) (n : Nat) (q : CmdQueue) : Nat :=
  match s.spotQ n q.part.toNat q.sibTailAddr 1 with
  | .mem k => if s.mem.poisoned k then q.sibTail else s.mem.readLe k 8
  | .regs _ | .fail _ | .absent | .link | .hold => q.sibTail

/-- Room for `k` more slots in a sibling ring (R41), behind those that wait to be written. -/
def State.sibRoom (s : State) (n : Nat) (q : CmdQueue) (k : Nat) : Bool :=
  (s.sibTailOf n q + 2 ^ 32 - s.fld .qsib n 31 0) % 2 ^ 32 + (q.posts.map fun e => e.1.length).sum + k ≤ q.sibEntries

/-- The writes that put slots into a sibling ring from SIBTAIL on, then raise the SIBTAIL word (R41): address, bytes and value of each. -/
def sibWrites (q : CmdQueue) (tail : Nat) (slots : List Nat) : List (Nat × Nat × Nat) :=
  (slots.zipIdx.map fun e => (q.sibBase + (tail + e.2) % q.sibEntries * 64, 64, e.1)) ++ [(q.sibTailAddr, 8, (tail + slots.length) % 2 ^ 64)]

/-- Write what waits longest for a sibling ring, and post its event (R41, R410, R419). -/
def State.sibPut (s : State) (n : Nat) (q : CmdQueue) (slots : List Nat) (kind : Nat) : State :=
  let p := q.part.toNat
  let tail := s.sibTailOf n q
  let s := (sibWrites q tail slots).foldl (fun (s : State) w => s.writeAt p w.2.1 w.2.2 (s.spotQ n p w.1 2 w.2.1)) s
  { s with queues := (tset s.queues n { q with sibTail := (tail + slots.length) % 2 ^ 64, posts := q.posts.drop 1 }) }.postEvent
    { src := srcOrgan (n % 4), kind := kind, item := n }

/-- Write what waits for a sibling ring, in order: a write that the host holds up (R424, R426) parks what is left. -/
def State.sibFlush (s : State) (n : Nat) : Nat → State
  | 0 => s
  | fuel + 1 =>
    match tget s.queues n with
    | none => s
    | some q =>
      match q.posts with
      | [] => s
      | (slots, kind) :: _ =>
        if s.parked.any fun p => decide (p.work = ParkWork.sibPost n) then s
        else
          let p := q.part.toNat
          match (sibWrites q (s.sibTailOf n q) slots).find? fun w => decide (s.spotQ n p w.1 2 w.2.1 = .link) with
          | some w => s.parkLink p w.1 (.sibPost n) w.2.1
          | none => (s.sibPut n q slots kind).sibFlush n fuel

/-- Put slots into a sibling ring behind what waits for it, with the event that follows them. -/
def State.sibPost (s : State) (n : Nat) (q : CmdQueue) (slots : List Nat) (kind : Nat) : State :=
  { s with queues := tset s.queues n { q with posts := q.posts ++ [(slots, kind)] } }.sibFlush n (q.posts.length + 1)

/-- A fault record to post (R409). -/
structure FaultRec where
  cause : Cause
  src : Nat
  part : Nat
  job : Option Nat
  unit : Nat := 0
  addr : Nat := 0
  done : Nat := 0
  info : Nat := 0
  ticket : Word := 0
  hop : Nat := 0
  expected : Nat := 0
  received : Nat := 0
  step : Nat := 0
deriving DecidableEq, Repr

/-- The bytes of a fault record (R409). -/
def FaultRec.bytes (f : FaultRec) (time : Nat) : Nat :=
  pack [(1, 0x81), (1, f.cause.toNat), (1, f.src), (1, f.hop), (2, f.job.getD 0), (2, f.unit), (8, f.addr), (4, f.done), (4, f.info),
    (8, f.ticket.toNat), (8, time), (8, f.expected % 2 ^ 61), (8, f.received), (8, f.step)]

/-- The queue a fault record goes to, given its card's FAULTQ (R410): none when the partition fault queue is the target and is off. -/
def State.faultQueue (s : State) (part : Nat) (fq : Option Nat) (cause : Cause) : Option Nat :=
  let pq := if s.fld .pfault part 16 16 = 1 then some (s.fld .pfault part 9 0) else none
  match fq with
  | none => pq
  | some q =>
    if cause = cNotPresent ∨ q = 0xFFFF ∨ s.live q = false then pq
    else match tget s.queues q with
      | some x => if x.part.toNat = part then some q else pq
      | none => pq

/-- Post a fault record to a queue's sibling ring (R410): lost and counted when the ring is full, lost without count when there is none. -/
def State.postTo (s : State) (f : FaultRec) (fq : Option Nat) : State :=
  let named (s : State) (lost : Bool) : State := match f.job with
    | none => s
    | some j => s.modJob j fun x => { x with nfaults := min (x.nfaults + 1) (2 ^ 32 - 1), lost := x.lost || lost }
  match s.faultQueue f.part fq f.cause with
  | none => named s true
  | some n =>
    match tget s.queues n with
    | none => named s true
    | some q =>
      if s.live n = false then named s true
      else if s.sibRoom n q 1 then
        (named s false).sibPost n q [f.bytes s.tbase.toNat] 3
      else named (s.count .qstat n 63 48 1) true

/-- Post a fault record of a job or of none (R410). -/
def State.postFault (s : State) (f : FaultRec) : State :=
  s.postTo f ((f.job.bind s.job?).map fun j => cardFaultQ j.card)

/-- Stop causes of R43. -/
def qBadKind : Nat := 1
/-- See R43. -/
def qBadReserved : Nat := 2
/-- See R43. -/
def qBadCard : Nat := 3
/-- See R43. -/
def qBadImage : Nat := 4
/-- See R43. -/
def qNotOwner : Nat := 5
/-- See R43. -/
def qAddrFault : Nat := 6
/-- See R43. -/
def qOverrun : Nat := 7
/-- See R43. -/
def qPoison : Nat := 8
/-- See R43. -/
def qExists : Nat := 9

/-- Stop a queue (R41): the handler packet of R42, STOPPED and its cause, and an event. `qoff` is the index of the offending packet. FAULTLOST stays at
its largest value (DESIGN CHOICE: R44 does not say that it saturates; log 16). -/
def State.stopQueue (s : State) (n cause subcode qoff faddr packet : Nat) : State :=
  match tget s.queues n with
  | none => s
  | some q =>
    let first := pack [(1, 0x80), (1, cause), (1, subcode), (1, 0), (4, qoff), (2, n), (6, 0), (8, s.tbase.toNat), (8, faddr), (32, 0)]
    let room := s.sibRoom n q 2
    let s := if room then s else s.count .qstat n 63 48 1
    let s := (s.raise .qstat n 33).setFld .qstat n 47 40 cause
    if room then s.sibPost n q [first, packet % 2 ^ 512] 2 else s.postEvent { src := srcOrgan (n % 4), kind := 2, item := n }

end Sys2Proof.Machine
end

