-- ==== Sys2Proof/Machine/Tasks.lean ====
section
/-!
DEFINITION. Tasks: Roundabouts (R60), queue cells (R288), tickets (R24 to R26), task queues (R62), the life of a context (R15, R19, R20), and
the locks and journals of tasks (R348 to R367).
-/
namespace Sys2Proof.Machine

/-! ### Roundabouts and queue cells -/

/-- Steps in rotation from just after `from_` to `m` (R60). -/
def rotDist (mm from_ m : Nat) : Nat := (m + mm - (from_ + 1) % mm) % mm
/-- The member that comes first in rotation after `from_`. -/
def firstAfter (mm from_ : Nat) (ms : List Nat) : Option Nat :=
  ms.foldl (fun best m => match best with
    | none => some m
    | some b => if rotDist mm from_ m < rotDist mm from_ b then some m else some b) none

/-- One grant decision of a Roundabout of `mm` members (R60), given the members that wait at the highest level. -/
def Roundabout.grant (r : Roundabout) (mm : Nat) (share : Nat → Nat) (waiting : List Nat) : Option Nat × Roundabout :=
  if 0 < r.left ∧ waiting.contains r.ptr then (some r.ptr, ⟨r.ptr, r.left - 1⟩)
  else match firstAfter mm r.ptr (waiting.filter fun m => decide (0 < share m)) with
    | some m => (some m, ⟨m, share m - 1⟩)
    | none =>
      match firstAfter mm ((r.ptr + mm + 1) % mm) waiting with
      | some m => (some m, ⟨m, 0⟩)
      | none => (none, r)

/-- A field of a channel-table entry (R334): `n` bytes from byte `o`. -/
def chField (e : BitVec 128) (o n : Nat) : Nat := nbytes e.toNat o n
/-- VALID, DIR and SCALAR are bits 0 to 2 of byte 0. -/
def chFlag (e : BitVec 128) (i : Nat) : Bool := (chField e 0 1).testBit i
/-- Width of the format that a 16-bit entry names: 8 for a reserved one. -/
def entryWidth (x : Nat) : Nat := ((FmtEntry.ofBits x).fmt.map Fmt.width).getD 8
/-- Rows of an element at the sink (R334): 1 for a scalar. -/
def chSinkRows (e : BitVec 128) : Nat :=
  if chFlag e 2 then 1 else cdiv (chField e 4 1 * entryWidth (chField e 10 2)) (entryWidth (chField e 8 2))
/-- Cells that an entry reserves (R335). -/
def chCells (e : BitVec 128) : Nat :=
  if chFlag e 0 && chFlag e 1 then chField e 3 1 * (if chFlag e 2 then 1 else 4 * chSinkRows e) else 0

/-- Cells in use, per class of R288: tile, copy, arrival, channel (reserved, R335). -/
def State.cellsUsed (s : State) (q : Nat) : List Nat :=
  let x := s.quad q
  let cores := (List.range 4).map fun i => s.core (4 * q + i)
  [((x.tiles ++ x.arrays.toList.filterMap (·.task)).map fun t => 1 + 32 * t.staging.length).sum, x.copies.length, (cores.map fun c => c.arrivals.length).sum,
   (cores.map fun c => (c.chans.map fun e => e.2.cells).sum).sum]

/-- Caps and guaranteed minimums of the classes tile, copy, arrival, channel (R255, R288, R295), the minimums granted in the order arrival, tile,
copy, channel out of 4,096 cells. -/
def State.cellLimits (s : State) (q : Nat) : List (Nat × Nat) :=
  let x := s.quad q
  let mt := min x.tqmin.toNat (4096 - 128)
  let mc := min (s.fld .qpool q 12 0) (4096 - 128 - mt)
  let mh := min (s.fld .qpool q 44 32) (4096 - 128 - mt - mc)
  [(max x.tqcap.toNat x.tqmin.toNat, mt), (max (s.fld .qpool q 28 16) (s.fld .qpool q 12 0), mc), (128, 128),
   (max (s.fld .qpool q 60 48) (s.fld .qpool q 44 32), mh)]

/-- Whether class `cls` may take `k` more cells (R288). -/
def State.cellRoom (s : State) (q cls k : Nat) : Bool :=
  let used := s.cellsUsed q
  let lim := s.cellLimits q
  let free := 4096 - used.sum
  let kept := (((List.range 4).filter fun i => decide (i ≠ cls)).map fun i => (lim.getD i (0, 0)).2 - used.getD i 0).sum
  (List.range k).all fun i =>
    decide (used.getD cls 0 + i < (lim.getD cls (0, 0)).1) &&
      (decide (used.getD cls 0 + i < (lim.getD cls (0, 0)).2) || decide (kept + i < free))

/-! ### Tickets and task queues -/

/-- A ticket (R24). -/
def ticketOf (prio : Nat) (born : BitVec 64) (maker : Nat) : Word :=
  BitVec.ofNat 64 ((31 - prio % 32) * 2 ^ 59 + born.toNat % 2 ^ 51 * 256 + maker % 256)
/-- The priority that a ticket carries (R24). -/
def prioOf (t : Word) : Nat := 31 - t.toNat / 2 ^ 59

/-- A core stamps a ticket, at most one in a tick (R25); none when it has stamped in this tick. -/
def State.stampCore (s : State) (i prio : Nat) : Option (Word × State) :=
  if (s.core i).lastStamp = some s.tbase.toNat then none
  else some (ticketOf prio s.tbase i, s.modCore i fun c => { c with lastStamp := some s.tbase.toNat })

/-- A base die stamps a ticket, at most one in a tick (R25). -/
def State.stampDie (s : State) (d prio : Nat) : Option (Word × State) :=
  if (s.die d).lastStamp = some s.tbase.toNat then none
  else some (ticketOf prio s.tbase (128 + d), s.modDie d fun x => { x with lastStamp := some s.tbase.toNat })

/-- Key of the task queue of a partition and a level (R62). -/
def queueKey (part level : Nat) : Nat := part * 32 + level

/-- The weights of the Roundabouts whose members are partitions (R60, R61). -/
def State.shareOf (s : State) (part : Nat) : Nat := s.fld .psched part 7 0

/-- Push a continuation record to the tail of its task queue, through the port of its home base die (R61, R62): a record with HOLDS set is tagged with the
task's home quad. The port serves a push in the cycle in which it arrives, as the one request of that cycle (log 16). -/
def State.pushRec (s : State) (part : Nat) (r : ContRec) : State :=
  let k := queueKey part (prioOf r.ticket)
  let tag := if r.cflags.getLsbD 0 then (s.journal? r.ticket).map (·.quad) else none
  let s := s.modDie (part % 4) fun d => { d with takeRa := (d.takeRa.grant 16 s.shareOf [part]).2 }
  { s with taskQueues := tset s.taskQueues k (tgetD s.taskQueues k [] ++ [(r, tag)]) }

/-! ### Contexts -/

/-- The continuation record of a context (R13, R137). -/
def Ctx.record (c : Ctx) (pc : Offset) : ContRec :=
  ⟨c.ticket, pc, c.image, c.job, if c.cflags.getLsbD 2 then 0 else c.wexp, c.cflags, (List.range 6).map fun i => c.s.getD (i + 1) 0⟩

/-- The 64 bytes of a continuation record (R13), byte 0 lowest. -/
def ContRec.bytes (r : ContRec) : Nat :=
  pack ([(8, r.ticket.toNat), (3, r.pc.toNat), (1, r.image.toNat), (2, r.job.toNat), (1, r.wexp.toNat), (1, r.cflags.toNat)] ++
    (List.range 6).map fun i => (8, (r.s.getD i 0).toNat))

/-- The record that 64 bytes lay out (R13). -/
def ContRec.ofBytes (x : Nat) : ContRec :=
  ⟨BitVec.ofNat 64 (nbytes x 0 8), BitVec.ofNat 24 (nbytes x 8 3), BitVec.ofNat 8 (nbytes x 11 1), BitVec.ofNat 12 (nbytes x 12 2),
    BitVec.ofNat 7 (nbytes x 14 1), BitVec.ofNat 4 (nbytes x 15 1), (List.range 6).map fun i => BitVec.ofNat 64 (nbytes x (16 + 8 * i) 8)⟩

/-- Sum of the windows of the resident contexts of a core (R16). -/
def State.windowUse (s : State) (core : Nat) : Nat :=
  ((List.range 8).map fun x => let c := s.ctx (core * 8 + x); if c.life = .free then 0 else c.vregs).sum

/-- Whether a core has window room (R16). -/
def State.windowRoom (s : State) (core vregs : Nat) : Bool := decide (s.windowUse core + vregs ≤ 256)

/-- Start a continuation record on a context (R15, R163, R393). What R15 leaves unspecified takes free values (log 3). `tid` is TASKID, `part`, `prio`
and `vregs` are the job's, `logical` is 0xFF outside a team. Its run and what it commanded before go on with it (R326, R327, R354). -/
def State.startRec (s : State) (key : Nat) (r : ContRec) (tid : BitVec 32) (part prio vregs logical : Nat) : State :=
  let o := s.ctx key
  let n := s.freeIdx
  let trap := (s.reg ⟨.ptrap, part⟩).toNat
  let k := tgetD s.carried r.ticket ⟨none, [], []⟩
  let c : Ctx := { Ctx.reset with
    s := Vector.ofFn fun i : Fin 64 => if i.val = 0 then 0 else r.s.getD (i.val - 1) 0
    v := Vector.ofFn fun i : Fin 256 => Config.free 16384 (n + i.val)
    p := Vector.ofFn fun i : Fin 16 => if i.val = 0 then BitVec.allOnes 2048 else Config.free 2048 (n + 256 + i.val)
    cb := Vector.ofFn fun i : Fin 8 => Config.free 256 (n + 272 + i.val)
    ft := Vector.ofFn fun i : Fin 64 => Config.free 128 (n + 280 + i.val)
    pc := r.pc
    image := r.image
    taskIndex := tid
    ticket := r.ticket
    job := r.job
    part := BitVec.ofNat 4 part
    logical := BitVec.ofNat 8 logical
    prio := BitVec.ofNat 5 prio
    wexp := r.wexp
    cflags := r.cflags
    trapvec := BitVec.ofNat 24 trap
    traparea := BitVec.ofNat 40 (nbits trap 63 32 * 256 + 128 * key)
    vregs := vregs
    life := .running
    armed := o.armed
    chunks := o.chunks
    outstanding := k.outstanding
    fences := k.fences
    retained := some r
    run := k.run.getD s.nextId
    watch := s.now }
  { s.setCtx key c with carried := terase s.carried r.ticket, freeIdx := n + 344, nextId := s.nextId + 1 }

/-- VREGS of a job slot (R48). -/
def State.jobVregs (s : State) (j : Nat) : Nat := ((s.job? j).map Job.vregs).getD 32

/-- A handler context of a core that is dormant and armed with a class, lowest number first (R284). A MOVING quad starts no work (R72). A core that a team has reserved still starts its handlers (DESIGN CHOICE: R66 speaks of new
work that is placed; log 16). -/
def State.dormantOf (s : State) (core : Nat) (cls : BitVec 8) : Option Nat :=
  if s.quadMoving (core / 4) then none
  else ((List.range 8).map (core * 8 + ·)).find? fun k =>
    let c := s.ctx k
    decide (c.life = .dormant) && (match c.armed with | some e => decide (e.2 = cls) | none => false)

/-- Start a dormant handler with an arrival (R19, R25): none when the core has stamped a ticket in this tick. s4 to s6,
for which the spec names no value here, are zero (DESIGN CHOICE: R19 gives s1 to s3 alone; log 25). -/
def State.startHandler (s : State) (key : Nat) (a : ArrivalRec) : Option State :=
  let c := s.ctx key
  match c.armed with
  | none => none
  | some e =>
    (s.stampCore (coreOf key) c.prio.toNat).map fun x =>
      let s := x.2.startRec key ⟨x.1, e.1, c.image, c.job, 0, 4, [a.s1, a.s2, a.s3]⟩ 0xFFFFFFFF c.part.toNat c.prio.toNat c.vregs 0xFF
      if a.poison then s.modCtx key fun c => { c with sPoison := 0xE } else s

/-- Deliver the oldest listed arrival that has a dormant handler of its class (R284). When the core cannot start it in this tick it stays listed, and is
tried again in the next. -/
def State.deliverListed (s : State) (core : Nat) : State :=
  match (s.core core).arrivals.find? fun a => (s.dormantOf core a.cls).isSome with
  | none => s
  | some a =>
    match (s.dormantOf core a.cls).bind fun k => s.startHandler k a with
    | none => s
    | some s' => s'.modCore core fun c => { c with arrivals := c.arrivals.erase a }

/-- A context's work is over (R19, R139): a handler context returns to the dormant, armed state and takes a listed arrival of its class first
(R284). Any other becomes free. DESIGN CHOICE (log 16): a handler that has resumed from a continuation has nothing to be armed with, and its context
becomes free at END. -/
def State.freeCtx (s : State) (key : Nat) : State :=
  let c := s.ctx key
  let c' := { c with wait := .none, inflight := [], fixed := [], outstanding := [], fences := [], sets := [], sup := false, retained := none, xfer := 0,
                     lc := Vector.replicate 4 ⟨0, 0, 0, 0⟩, stopReq := false, begun := false }
  match c.armed with
  | none => s.setCtx key { c' with life := .free }
  | some _ => (s.setCtx key { c' with life := .dormant }).deliverListed (coreOf key)

/-- The commands of a context that have not performed, and the fences behind them, go with its task (R326, R327); its run too, unless a rollback
discards it (R354). -/
def State.carry (s : State) (key : Nat) (again : Bool) : State :=
  let c := s.ctx key
  { s with carried := tset s.carried c.ticket ⟨if again then none else some c.run, c.outstanding, c.fences⟩ }

/-- The context that runs a task. -/
def State.runnerOf (s : State) (t : Word) : Option Nat :=
  (s.ctxs.find? fun e => decide (e.2.ticket = t ∧ (e.2.life = .running ∨ e.2.life = .ending ∨ e.2.life = .stopped))).map (·.1)

/-! ### Locks and journals -/

/-- The granule of an address in the sets of a context (R349): the set with the lowest id that covers it. Local addresses are absolute. -/
def Ctx.granuleOf (c : Ctx) (va : Bool) (a : Nat) : Option Granule :=
  ((List.range 16).findSome? fun i => c.sets.find? fun x => decide (x.id.val = i ∧ x.va = va ∧ x.lo ≤ a ∧ a < x.hi)).map
    fun x => ⟨va, if va then c.part else 0, a / x.gs * x.gs, x.gs⟩

/-- Whether a granule covers an address. -/
def Granule.covers (g : Granule) (va : Bool) (part : BitVec 4) (a : Nat) : Bool :=
  decide (g.va = va ∧ (va = false ∨ g.part = part) ∧ g.base ≤ a ∧ a < g.base + g.size)

/-- Whether a task holds a granule (R350: a place of another size is another granule). -/
def State.holds (s : State) (t : Word) (g : Granule) : Bool :=
  match s.journal? t with
  | some j => j.granules.contains g
  | none => false

/-- Whether a task holds any granule. -/
def State.holdsAny (s : State) (t : Word) : Bool :=
  match s.journal? t with
  | some j => !j.granules.isEmpty
  | none => false

/-- The slice that keeps a granule (R355). -/
def Granule.slice (g : Granule) : Nat := g.base / g.size % 4

/-- Whether a request for a granule by a run of a task is on its way, waiting, or granted and in transit. -/
def State.requested (s : State) (g : Granule) (t : Word) (run : Nat) : Bool :=
  let d := s.die g.slice
  let same := fun (r : LockReq) => decide (r.gran = g ∧ r.ticket = t ∧ r.run = run)
  d.requests.any same || d.fullWaiters.any same || d.grants.any same || d.booth.any fun e => e.waiters.any same

/-- Change the requests of a slice: those on their way, those that wait, and those granted. -/
def Die.mapReqs (d : Die) (f : LockReq → LockReq) : Die :=
  { d with requests := d.requests.map f, fullWaiters := d.fullWaiters.map f, grants := d.grants.map f,
           booth := d.booth.map fun e => { e with waiters := e.waiters.map f } }

/-- Path C of a context waits for a request that stands already (R358): it waits since now, unless the context, here or before a restore, waits already. -/
def LockReq.byPath (r : LockReq) (key now : Nat) : LockReq :=
  { r with ctxKey := some key, since := if r.ctxKey.isSome then r.since else now, last := now }

/-- The granule for which a saved context waits (R358). -/
def Ctx.lockFor (c : Ctx) : Option Granule :=
  match c.wait with
  | .lock g => some g
  | .none | .fetch _ | .suspend _ | .barrier _ _ | .arm | .pool | .word _ _ _ _ | .drain _ | .tlb _ | .argument | .release => none

/-- Send a request to the slice of its granule, once (R354, R355). -/
def State.request (s : State) (g : Granule) (t : Word) (run : Nat) (key : Option Nat) : State :=
  if s.requested g t run then
    match key with
    | none => s
    | some k => s.modDie g.slice fun d => d.mapReqs fun r => if r.gran = g ∧ r.ticket = t ∧ r.run = run then r.byPath k s.now else r
  else s.modDie g.slice fun d => { d with requests := d.requests ++ [⟨g, t, run, key, s.now, s.now⟩] }

/-- The entry with the lower address. -/
def lowerOf (x : Nat × Granule) (b : Option (Nat × Granule)) : Option (Nat × Granule) :=
  match b with
  | some y => if y.1 < x.1 then some y else some x
  | none => some x

/-- The granule of the lowest of some addresses that the task needs and does not hold (R354). -/
def State.needed (s : State) (c : Ctx) (va : Bool) (l : List Nat) : Option Granule :=
  ((l.filterMap fun a => (c.granuleOf va a).bind fun g => if s.holds c.ticket g then none else some (a, g)).foldr lowerOf none).map (·.2)

/-- Show the entries in use in BOOTHSTAT_k (R358). -/
def State.showBooth (s : State) (k : Nat) : State := s.setFld .boothstat k 16 0 (s.die k).booth.length

/-- Data rows that a journal uses (R353). -/
def Journal.used (j : Journal) : Nat :=
  let n := fun (p : Deferred → Bool) => (j.deferred.filter p).length
  j.copies.length + cdiv (n fun d => match d with | .copy _ => true | _ => false) 4
    + cdiv (n fun d => match d with | .spawn _ => true | _ => false) 4
    + cdiv (n fun d => match d with | .launch _ => true | _ => false) 2

/-- Whether a journal has room for what it now holds. -/
def Journal.fits (j : Journal) : Bool := decide (j.used ≤ j.rows)

/-- The journal copy of a row. -/
def Journal.copyOf (j : Journal) (a : Nat) : Option (Row × Bool) := (j.copies.find? fun e => decide (e.1 = a)).map (·.2)

/-- Merge a masked write into a row. -/
def mergeRow (old new : Row) (mask : BitVec 256) : Row :=
  let m : Row := BitVec.ofNat 2048 ((List.range 256).foldl (fun n i => if mask.getLsbD i then n + 255 * 256 ^ i else n) 0)
  (old &&& ~~~m) ||| (new &&& m)

/-- A path-C write of a task into a held granule: the journal's copy of the row, made from memory first (R359). A masked write into a poisoned
copy is discarded, a full one clears the poison (R268). -/
def Journal.write (j : Journal) (m : Mem) (a : Nat) (data : Row) (mask : BitVec 256) : Journal :=
  if mask = 0 then j
  else
    let old := (j.copyOf a).getD (m.row (localKey a), m.poisoned (localKey a))
    let new := if mask = fullMask then (data, false) else if old.2 then old else (mergeRow old.1 data mask, false)
    if (j.copyOf a).isSome then { j with copies := j.copies.map fun e => if e.1 = a then (a, new) else e }
    else { j with copies := j.copies ++ [(a, new)] }

/-- A path-C row write of a context to an absolute local address (R359): to the journal when the task holds the row's granule, else to memory. -/
def State.writeC (s : State) (c : Ctx) (a : Nat) (data : Row) (mask : BitVec 256) : State :=
  match s.journal? c.ticket with
  | some j =>
    if j.granules.any fun g => g.covers false c.part a then s.setJournal c.ticket (j.write s.mem (rowOf a) data mask)
    else (s.touch a).storeRow (localKey (rowOf a)) data mask
  | none => (s.touch a).storeRow (localKey (rowOf a)) data mask

/-- Give the released granules of one slice to their oldest waiters, and offer freed entries to requests that waited for one (R356, R357). -/
def releaseSlice (d : Die) (t : Word) : Die :=
  let mine := d.booth.filter fun e => decide (e.holder = t)
  if mine.isEmpty then d
  else
    let kept := d.booth.filterMap fun e =>
      if e.holder = t then match e.waiters with | [] => none | w :: ws => some { e with holder := w.ticket, holderRun := w.run, waiters := ws }
      else some e
    let given := mine.filterMap fun e => e.waiters.head?
    { d with booth := kept, grants := d.grants ++ given, requests := d.fullWaiters ++ d.requests, fullWaiters := [] }

/-- Release every granule that a ticket holds (R361 step 3, R363). -/
def State.releaseAll (s : State) (t : Word) : State :=
  (List.range 4).foldl (fun s k => ((s.modDie k fun d => releaseSlice d t)).showBooth k) s

/-- Withdraw the pending requests of a ticket (R356, R363). -/
def State.withdraw (s : State) (t : Word) : State :=
  (List.range 4).foldl (fun s k => s.modDie k fun d =>
    { d with requests := d.requests.filter fun r => decide (r.ticket ≠ t),
             fullWaiters := d.fullWaiters.filter fun r => decide (r.ticket ≠ t),
             booth := d.booth.map fun e => { e with waiters := e.waiters.filter fun r => decide (r.ticket ≠ t) } }) s

/-- Disarm a journal (R352): its rows take free values (log 3), and the task has no journal. -/
def State.disarm (s : State) (t : Word) : State :=
  match s.journal? t with
  | none => s
  | some j =>
    let n := if j.armed then j.total else 0
    let base := localKey (0x1000000000 + j.quad * 0x1000000 + j.row * 256)
    let m := (List.range n).foldl (fun (m : Mem) i => m.writeRow (base + 256 * i) (Config.free 2048 (s.freeIdx + i)) fullMask) s.mem
    { s with mem := m, freeIdx := s.freeIdx + n, journals := terase s.journals t }

/-- Discard a task's written-out forms: its record in a task queue, its saved image and its monitor entry (R363). -/
def State.discardForms (s : State) (t : Word) : State :=
  { s with
    taskQueues := s.taskQueues.map fun e => (e.1, e.2.filter fun r => decide (r.1.ticket ≠ t))
    saved := s.saved.filter fun x => decide (x.ctx.ticket ≠ t)
    stored := s.stored.filter fun x => decide (x.ctx.ticket ≠ t)
    monDuty := s.monDuty.filter fun m => match m.record with | some r => decide (r.ticket ≠ t) | none => true
    quads := s.quads.map fun e => (e.1, { e.2 with monitor := e.2.monitor.filter fun m => match m.record with
      | some r => decide (r.ticket ≠ t)
      | none => match m.ctxKey with
        | some k => decide ((s.ctx k).ticket ≠ t)
        | none => true }) }

/-- What a rollback discards and releases (R363), for a restart or an abandonment. -/
def State.undo (s : State) (t : Word) : State :=
  let s := ((s.releaseAll t).withdraw t).disarm t
  { s with wounds := s.wounds.filter fun w => decide (w ≠ t) }

/-- The record a task restarts from (R362, R363): its retained continuation with RESTART set, HOLDS and WOUNDED clear. A handler stays one (R19, R20;
log 42). -/
def restartRec (r : ContRec) : ContRec := { r with cflags := (r.cflags &&& 4) ||| 8 }

/-- Count a restart (R418). -/
def State.countRestart (s : State) (j : Nat) : State := s.modJob j fun x => { x with restarts := (x.restarts + 1) % 2 ^ 32 }

/-- Roll a task back to its retained continuation (R363), unless its END has committed (R361). A running task takes the record on its own
context; `moved` is set when its home quad moves, and then, as for a task that is not running, the record goes to its task queue. A suspended task whose
first grant is still on its way holds nothing: the granule is released, and its record stands. -/
def State.rollback (s : State) (t : Word) (moved : Bool) : State :=
  let j := s.journal? t
  if (j.map (·.ended)).getD false then { s with wounds := s.wounds.filter fun w => decide (w ≠ t) }
  else
    match s.runnerOf t with
    | some k =>
      let c := s.ctx k
      if c.life = .ending then { s with wounds := s.wounds.filter fun w => decide (w ≠ t) }
      else
        match (j.bind (·.retained)).orElse fun _ => c.retained with
        | none => s
        | some r =>
          let s := (((s.undo t).discardForms t).countRestart c.job.toNat).carry k true
          if moved || decide (c.life = .stopped) then (s.freeCtx k).pushRec c.part.toNat (restartRec r)
          else s.startRec k (restartRec r) c.taskIndex c.part.toNat c.prio.toNat c.vregs c.logical.toNat
    | none =>
      let kept := (s.saved.find? fun x => decide (x.ctx.ticket = t)).orElse fun _ => s.stored.find? fun x => decide (x.ctx.ticket = t)
      match (j.bind (·.retained)).orElse fun _ => kept.bind fun x => x.ctx.retained with
      | none =>
        let s := s.releaseAll t
        { s with wounds := s.wounds.filter fun w => decide (w ≠ t) }
      | some r =>
        let s := (((s.undo t).discardForms t).countRestart r.job.toNat).pushRec (((s.job? r.job.toNat).map Job.part).getD 0) (restartRec r)
        { s with carried := s.carried.map fun e => if e.1 = t then (t, { e.2 with run := none }) else e }

/-- Abandon the task of a context (R397): no restart, no root addition, an ABANDONED record, and the context free; a team context stays stopped. -/
def State.abandon (s : State) (key : Nat) (info : Nat) : State :=
  let c := s.ctx key
  let s := s.undo c.ticket
  let s := s.postFault { cause := cAbandoned, src := 8, part := c.part.toNat, job := some c.job.toNat, ticket := c.ticket, info := info }
  if c.logical ≠ 0xFF then s.modCtx key fun c => { c with life := .abandoned, wait := .none, inflight := [], outstanding := [], fences := [] }
  else (s.modCtx key fun c => { c with armed := none }).freeCtx key

/-- Abandon a task whose written-out record can go no further (R397). -/
def State.abandonRec (s : State) (part : Nat) (r : ContRec) (info : Nat) : State :=
  (s.undo r.ticket).postFault { cause := cAbandoned, src := 8, part := part, job := some r.job.toNat, ticket := r.ticket, info := info }

end Sys2Proof.Machine
end

