-- ==== Sys2Proof/Machine/SaveRows.lean ====
section
/-!
DEFINITION. SaveRows: where the rows of a saved context lie (R70, R76, R403), and the items of its arrival log (R346).
-/
namespace Sys2Proof.Machine

/-- The file and number of a destination (R402). -/
def Dst.file : Dst → Nat × Nat
  | .s r => (0, r.val)
  | .v r => (1, r.val)
  | .p r => (2, r.val)
  | .c r => (3, r.val)
  | .bt r => (4, r.val)
  | .lc l field => (5, 4 * l.val + field.val)
  | .sys r => (6, r.number % 256)

/-- Rows of the payload of an item (R346). -/
def LogItem.payloadRows (x : LogItem) : Nat :=
  match x.landing with
  | none => x.rows
  | some l => match l.dst with
    | .v _ => 8
    | .s _ | .p _ | .c _ | .bt _ | .lc _ _ | .sys _ => 1

/-- The payload of an item as one number, its first row lowest. -/
def LogItem.payload (x : LogItem) : Nat :=
  match x.landing with
  | none => (x.elem.map (·.data)).getD 0
  | some l => (l.value.map BitVec.toNat).getD 0

/-- Words 0 to 4 of the header row of an item (R346). -/
def LogItem.header (x : LogItem) : Nat :=
  let reg := match x.landing with
    | some l => l.dst.file.1 + 256 * l.dst.file.2
    | none => x.chan
  let poisoned := (x.landing.bind (·.poison)).isSome || (x.elem.bind (·.poison)).isSome
  let cond := match x.cond with
    | some (c, b) => 2 * b.toNat + 4 * c.val
    | none => 0
  pack [(8, x.kind), (8, reg), (8, x.payloadRows), (8, x.time), (8, poisoned.toNat + cond)]

/-- The rows of an item: its header row, then its payload rows (R346). -/
def LogItem.image (x : LogItem) : List Row :=
  BitVec.ofNat 2048 x.header :: (List.range x.payloadRows).map fun i => BitVec.ofNat 2048 (nbytes x.payload (256 * i) 256)

/-- Whether a row of a partition's save area or spill region is in use (R76). -/
def State.rowUsed (s : State) (part : BitVec 4) (r : SaveRow) : Bool := s.saved.any fun x => decide (x.ctx.part = part) && x.rows.contains r

/-- The rows in use of one kind, by number. -/
def State.rowsIn (s : State) (part : BitVec 4) (spill : Bool) : List Nat :=
  (s.saved.filter fun x => decide (x.ctx.part = part)).flatMap fun x => x.rows.filterMap fun r => match r with
    | .area n => if spill then none else some n
    | .spill n => if spill then some n else none
    | .named _ => none

/-- The lowest place for `n` consecutive rows (R76; log 16): in the partition's save area, else in its spill region when it has one. -/
def State.saveSpots (s : State) (part : BitVec 4) (n : Nat) : Option (List SaveRow) :=
  let fits (used : List Nat) (a : Nat) : Bool := (List.range n).all fun i => !used.contains (a + i)
  let area := s.rowsIn part false
  match ((0 :: area.map (· + 1)).filter fun a => decide (a + n ≤ s.fld .psave part.toNat 63 40) && fits area a).min? with
  | some a => some ((List.range n).map fun i => .area (a + i))
  | none =>
    if s.fld .pspill part.toNat 55 0 = 0 then none
    else
      let used := s.rowsIn part true
      ((0 :: used.map (· + 1)).filter (fits used)).min?.map fun a => (List.range n).map fun i => .spill (a + i)

/-- Where a row of a save lies for a task of a partition on quad `q`: local rows by their windows (R261, R262), the rows of a spill region through the
partition's translations (R76). -/
def State.saveSpot (s : State) (part q : Nat) (r : SaveRow) : Spot :=
  let at_ (a : Nat) : Spot := match s.reach part q a with
    | .ok k => .mem (localKey k)
    | .range => .fail cLocalRange
    | .hold _ => .hold
  match r with
  | .area n => at_ (s.fld .psave part 39 0 + 256 * n)
  | .named a => at_ (a % 2 ^ 40)
  | .spill n => s.spotVa part (s.fld .pspill part 55 0 + 256 * n) 2

/-- The local address of a row of a save: 0 for a spilled one. -/
def State.saveAddr (s : State) (part : Nat) : SaveRow → Nat
  | .area n => s.fld .psave part 39 0 + 256 * n
  | .named a => a
  | .spill _ => 0

/-- Ask for what a row of a save waits for: the exit from retention of its array (R413), or the lines that the host may hold (R424). -/
def State.wakeRow (s : State) (part q : Nat) (r : SaveRow) : State :=
  match r with
  | .spill n => s.snoop (s.linesAt part (s.fld .pspill part 55 0 + 256 * n) 256)
  | .area _ | .named _ => match canonLocal q (s.saveAddr part r) with
    | some a => s.startExit (arrayOf a)
    | none => s

/-- Note the access of a row of local memory for its array (R413). -/
def State.touchKey (s : State) (k : Nat) : State := if 2 ^ 52 ≤ k ∧ k < 2 ^ 65 then s.touch (k - 2 ^ 52) else s

/-- Write the rows of a save where they lie: a row that cannot be reached is left out. -/
def State.putSave (s : State) (part q : Nat) (l : List (SaveRow × Row)) : State :=
  l.foldl (fun (s : State) e => match s.saveSpot part q e.1 with
    | .mem k => (s.touchKey k).storeRow k e.2 fullMask
    | .regs _ | .fail _ | .absent | .link | .hold => s) s

/-- The place of the next row of an arrival log (R346): directly after what the save has, else, as saves do (R70), in the spill region when the partition has
one. A save that CTXSV has placed is followed by its log. -/
def State.nextSpot (s : State) (x : Saved) : Option SaveRow :=
  let part := x.ctx.part
  let free (r : SaveRow) : Bool := !s.rowUsed part r && !x.rows.contains r
  let spill : Option SaveRow :=
    if s.fld .pspill part.toNat 55 0 = 0 then none
    else ((List.range (s.saved.length + (s.rowsIn part true).length + x.rows.length + 1)).map SaveRow.spill).find? free
  match x.rows.getLast? with
  | some (.named a) => some (.named (a + 256))
  | some (.spill a) => if free (.spill (a + 1)) then some (.spill (a + 1)) else spill
  | some (.area a) => if decide (a + 1 < s.fld .psave part.toNat 63 40) && free (.area (a + 1)) then some (.area (a + 1)) else spill
  | none => ((List.range (s.fld .psave part.toNat 63 40)).map SaveRow.area |>.find? free).orElse fun _ => spill

/-- Place rows of an arrival log one after the other, as long as there is room and they can be reached. -/
def State.placeRows (s : State) (x : Saved) : List Row → Saved × State
  | [] => (x, s)
  | row :: t =>
    match s.nextSpot x with
    | none => (x, s)
    | some r => match s.saveSpot x.ctx.part.toNat (x.core / 4) r with
      | .mem _ => (s.putSave x.ctx.part.toNat (x.core / 4) [(r, row)]).placeRows { x with rows := x.rows ++ [r] } t
      | .regs _ | .fail _ | .absent | .link | .hold => (x, s.wakeRow x.ctx.part.toNat (x.core / 4) r)

/-- Write the rows of an arrival log that have no place yet. Rows for which there is no room wait for it like a save (R76), and are written when
there is some (DESIGN CHOICE: R346 does not say what an item does that finds no room; log 20). -/
def State.placeLog (s : State) (x : Saved) : Saved × State :=
  s.placeRows x ((x.log.flatMap LogItem.image).drop (x.rows.length - x.image.length))

/-- Append an item to the arrival log of a saved context (R346): in its form, and as rows after its image. -/
def State.logItem (s : State) (x : Saved) (item : LogItem) : Saved × State := s.placeLog { x with log := x.log ++ [item] }

/-- Append an item to the log of each saved context for which `f` gives one, and change its form. -/
def State.logAll (s : State) (f : Saved → Option (Saved × LogItem)) : List Saved → List Saved × State
  | [] => ([], s)
  | x :: t =>
    match f x with
    | none =>
      let r := s.logAll f t
      (x :: r.1, r.2)
    | some (y, item) =>
      let z := s.logItem y item
      let r := z.2.logAll f t
      (z.1 :: r.1, r.2)

/-- Place what the arrival logs of saved contexts still have to write. -/
def State.placeLogs (s : State) (want : Saved → Bool) : List Saved → List Saved × State
  | [] => ([], s)
  | x :: t =>
    let z := if want x then s.placeLog x else (x, s)
    let r := z.2.placeLogs want t
    (z.1 :: r.1, r.2)

end Sys2Proof.Machine
end

