-- ==== Sys2Proof/Machine/Ops.lean ====
section
/-!
DEFINITION. Ops: the registers of a context, how a slot operation reads, waits, traps and writes (R114 to R120, R399), code bytes (R77, R84),
taking a trap (R391 to R396), returning from one (R395), and the end of a task (R361, R415).
-/
namespace Sys2Proof.Machine

/-- What an instruction answers. -/
abbrev Out := Host.Outcome State Fault Refusal

/-! ### Registers -/

/-- A scalar register: s0 reads zero (R148). -/
def Ctx.getS (c : Ctx) (r : Fin 64) : Word := if r = 0 then 0 else c.s[r]
/-- A vector register. -/
def Ctx.getV (c : Ctx) (r : Fin 256) : VReg := c.v[r]
/-- A predicate register: p0 reads all ones (R206). -/
def Ctx.getP (c : Ctx) (r : Fin 16) : Pred := if r = 0 then BitVec.allOnes 2048 else c.p[r]
/-- A condition bit: c0 reads true (R127). -/
def Ctx.getC (c : Ctx) (r : Fin 8) : Bool := r = 0 || c.c.getLsbD r.val
/-- A branch target. -/
def Ctx.getBt (c : Ctx) (r : Fin 4) : Offset := c.bt[r]

/-- A bit vector with one bit set to a value. -/
def setBit {n : Nat} (x : BitVec n) (i : Nat) (b : Bool) : BitVec n :=
  if b then x ||| BitVec.ofNat n (2 ^ i) else x &&& ~~~BitVec.ofNat n (2 ^ i)

/-- Write a scalar: a write to s0 is discarded (R148); a write fills the register and clears its poison (R399). -/
def Ctx.setS (c : Ctx) (r : Fin 64) (x : Word) : Ctx :=
  if r = 0 then c
  else { c with s := c.s.set r x, sFull := setBit c.sFull r.val true, sPoison := setBit c.sPoison r.val false }
/-- Write a vector register. -/
def Ctx.setV (c : Ctx) (r : Fin 256) (x : VReg) : Ctx :=
  { c with v := c.v.set r x, vFull := setBit c.vFull r.val true, vPoison := setBit c.vPoison r.val false }
/-- Write a predicate register; a bundle that writes p0 is illegal (R206). -/
def Ctx.setP (c : Ctx) (r : Fin 16) (x : Pred) : Ctx := if r = 0 then c else { c with p := c.p.set r x }
/-- Write a condition bit: a write to c0 is discarded (R148). -/
def Ctx.setC (c : Ctx) (r : Fin 8) (b : Bool) : Ctx := if r = 0 then c else { c with c := setBit c.c r.val b }
/-- Write a branch target. -/
def Ctx.setBt (c : Ctx) (r : Fin 4) (x : Offset) : Ctx := { c with bt := c.bt.set r x }
/-- Fill a register with a value that landed (R116, R399). Registers without empty/full bits other than a condition bit take their values at the commit (log 6),
and hold them when a result of a snapshot lands. -/
def Ctx.setDst (c : Ctx) (d : Dst) (x : VReg) : Ctx :=
  match d with
  | .s r => c.setS r (x.setWidth 64)
  | .v r => c.setV r x
  | .c r => c.setC r (x.getLsbD 0)
  | .p _ | .bt _ | .lc _ _ | .sys _ => c

/-- Whether a register is empty: for a condition bit, whether a QTRY will write it (R116, R127). -/
def Ctx.emptyReg (c : Ctx) : Dst → Bool
  | .s r => decide (r ≠ 0) && !c.sFull.getLsbD r.val
  | .v r => !c.vFull.getLsbD r.val
  | .c r => decide (r ≠ 0) && c.inflight.any fun l => decide (l.dst = .c r)
  | .p _ | .bt _ | .lc _ _ | .sys _ => false
/-- Whether EPOLICY makes a read of the empty register trap (R117). -/
def Ctx.trapsEmpty (c : Ctx) : Dst → Bool
  | .s r => c.epolicyS.getLsbD r.val
  | .v r => (c.epolicyV.getD (r.val / 64) 0).getLsbD (r.val % 64)
  | .p _ | .c _ | .bt _ | .lc _ _ | .sys _ => false
/-- Whether a register is poisoned (R399). -/
def Ctx.poisonedReg (c : Ctx) : Dst → Bool
  | .s r => decide (r ≠ 0) && c.sPoison.getLsbD r.val
  | .v r => c.vPoison.getLsbD r.val
  | .p _ | .c _ | .bt _ | .lc _ _ | .sys _ => false
/-- INFO of EMPTY_READ (R392). -/
def Dst.info : Dst → BitVec 32
  | .s r => BitVec.ofNat 32 r.val
  | .v r => BitVec.ofNat 32 (256 + r.val)
  | .p _ | .c _ | .bt _ | .lc _ _ | .sys _ => 0

/-- What holds a slot operation whose sources are `srcs` and whose destinations are `dsts` (R114, R117, R399): a trap on an empty register, a
wait on an empty register, a trap on a poisoned one, nothing. A destination whose older value has not landed holds its writer. -/
def Ctx.check (c : Ctx) (srcs dsts : List Dst) : SlotOutcome :=
  match srcs.find? fun r => c.emptyReg r && c.trapsEmpty r with
  | some r => .trapped cEmptyRead 0 r.info
  | none =>
    if srcs.any c.emptyReg then .waiting
    else if srcs.any c.poisonedReg then .trapped cPoison c.poisonRow 0
    else if dsts.any c.emptyReg then .waiting
    else .ok

/-! ### Code bytes -/

/-- A byte of the code a context runs, when its page has a frame (R77, R78). -/
def State.codeByte (s : State) (key : Nat) (o : Offset) : Option Byte :=
  let c := s.ctx key
  ((s.core (coreOf key)).frames.find? fun f => decide (f.part = c.part ∧ f.image = c.image ∧ f.page = o.toNat / 4096)).map
    fun f => lookupCell f.code (o.toNat % 4096)

/-- Key of an image's registration (R39). -/
def imageKey (part : Nat) (image : BitVec 8) : Nat := part * 256 + image.toNat

/-- A byte of a registered image, read where the image lies (R77): nothing when it cannot be read there. -/
def State.imageByte (s : State) (part : Nat) (image : BitVec 8) (o : Nat) : Option Byte :=
  (tget s.images (imageKey part image)).bind fun x =>
    if x.bytes ≤ o then none
    else match s.spotQ (if x.phys then 0 else 1) part (x.src + o) 1 with
      | .mem k => some (s.mem.read k)
      | .regs _ | .fail _ | .absent | .link | .hold => none

/-- Whether an offset lies inside the registered image (R78). -/
def State.inImage (s : State) (part : Nat) (image : BitVec 8) (o : Nat) : Bool :=
  match tget s.images (imageKey part image) with
  | some x => decide (o < x.bytes)
  | none => false

/-- Where a walk through code ends: at an offset, or at one that lies inside the image on a page without a frame. -/
inductive Walk where
  | found (o : Offset)
  | miss (o : Offset)
deriving DecidableEq, Repr

/-- Skip padding (R84): a zero byte ends its fetch line. The walk stops at an offset outside the image. -/
def State.skipPad (s : State) (key : Nat) (o : Offset) : Nat → Walk
  | 0 => .found o
  | n + 1 =>
    match s.codeByte key o with
    | none => if s.inImage (s.ctx key).part.toNat (s.ctx key).image o.toNat then .miss o else .found o
    | some b => if b = 0 then s.skipPad key (BitVec.ofNat 24 (o.toNat / 64 * 64 + 64)) n else .found o

/-- Where a context fetches its next bundle (R79, R84). -/
def State.fetchAt (s : State) (key : Nat) : Offset :=
  let c := s.ctx key
  if c.seq then match s.skipPad key c.pc 262145 with | .found o | .miss o => o else c.pc

/-- Skip padding as `skipPad` does, reading a page without a frame where its image lies. -/
def State.padWalk (s : State) (key : Nat) (o : Offset) : Nat → Offset
  | 0 => o
  | n + 1 =>
    match (s.codeByte key o).orElse fun _ => s.imageByte (s.ctx key).part.toNat (s.ctx key).image o.toNat with
    | none => o
    | some b => if b = 0 then s.padWalk key (BitVec.ofNat 24 (o.toNat / 64 * 64 + 64)) n else o

/-- The offset of the next bundle that a context dispatches (R84): past padding when sequential fetch has reached it. -/
def State.nextBundle (s : State) (key : Nat) : Offset := if (s.ctx key).seq then s.padWalk key (s.ctx key).pc 262145 else (s.ctx key).pc

/-- NextSeq of a bundle of `len` bytes at an offset (R84, R123): at most every line of an image is padding. -/
def State.nextSeqLen (s : State) (key : Nat) (o : Offset) (len : Nat) : Walk := s.skipPad key (o + BitVec.ofNat 24 len) 262145

/-- NextSeq of the bundle at an offset, its header read from its frame; an offset without code stands for itself. -/
def State.nextSeq (s : State) (key : Nat) (o : Offset) : Walk :=
  match s.codeByte key o with
  | none => if s.inImage (s.ctx key).part.toNat (s.ctx key).image o.toNat then .miss o else .found o
  | some h => if h = 0 then .found o else s.nextSeqLen key o (bundleLength h)

/-! ### Taking a trap and returning from one -/

/-- Bits of XFER (R126). -/
def xferOf (target : Offset) (left : Nat) (taken : Bool) : BitVec 27 := BitVec.ofNat 27 (target.toNat + left % 4 * 2 ^ 24 + taken.toNat * 2 ^ 26)
/-- XFER.LEFT. -/
def xferLeft (x : BitVec 27) : Nat := nbits x.toNat 25 24
/-- XFER.TARGET. -/
def xferTarget (x : BitVec 27) : Offset := x.setWidth 24
/-- XFER.TAKEN. -/
def xferTaken (x : BitVec 27) : Bool := x.getLsbD 26

/-- The bytes of a trap record (R392). -/
def trapRecord (c : Ctx) (key : Nat) (cause : Cause) (fslots islots : Nat) (double : Bool) (pc : Offset) (faddr : Word) (info : BitVec 32)
    (time : Word) : Nat :=
  pack [(1, cause.toNat), (1, fslots), (1, islots), (1, double.toNat + 2 * (decide (xferLeft c.xfer ≠ 0)).toNat), (3, pc.toNat), (1, c.image.toNat),
    (8, faddr.toNat), (8, c.ticket.toNat), (8, time.toNat), (4, info.toNat), (4, c.xfer.toNat), (2, c.job.toNat), (1, coreOf key), (1, key % 8), (20, 0)]

/-- Write a trap record as a masked path-C row write (R391): none when the address fails R261 or R262. One that an array holds is a command that has not
performed (R327, R415). -/
def State.writeTrapRecord (s : State) (key : Nat) (a rec : Nat) : Option State :=
  let c := s.ctx key
  let put (a : Nat) : State := s.writeC c a (BitVec.ofNat 2048 (rec * 256 ^ (a % 256))) (byteMask (a % 256) 64)
  match s.reach c.part.toNat (quadOf key) a with
  | .ok a => some (put a)
  | .hold arr =>
    let n := s.fresh
    let s := n.2.modCtx key fun c => { c with outstanding := c.outstanding ++ [⟨n.1, 0⟩] }
    some (s.keepWrite arr ⟨(canonLocal (quadOf key) a).getD a, 64, rec, false, n.1⟩)
  | .range => none

/-- Take a trap (R391, R396). `pc` is the offset in the record and `saved` the saved PC. In supervisor mode, without a handler, or when the record
cannot be written, it is a double trap and the task is abandoned. -/
def State.takeTrap (s : State) (key : Nat) (cause : Cause) (fslots islots : Nat) (pc saved : Offset) (faddr : Word) (info : BitVec 32) : State :=
  let c := s.ctx key
  let area := c.traparea.toNat / 128 * 128
  let double : State :=
    ((s.writeTrapRecord key (area + 64) (trapRecord c key cause fslots islots true pc faddr info s.tbase)).getD s).abandon key cause.toNat
  if c.sup || decide (c.trapvec = 0) then double
  else match s.writeTrapRecord key area (trapRecord c key cause fslots islots false pc faddr info s.tbase) with
    | none => double
    | some s => s.modCtx key fun c => { c with
        epc := saved
        exfer := c.xfer
        xfer := 0
        estat := BitVec.ofNat 26 (cause.toNat + fslots % 256 * 256 + islots % 256 * 65536)
        sup := true
        wait := .none
        seq := false
        begun := false
        pc := c.trapvec }

/-- Restart the task of a context from its retained continuation (R363, R395), whether or not it holds granules. -/
def State.restartTask (s : State) (key : Nat) : State :=
  let c := s.ctx key
  match ((s.journal? c.ticket).bind (·.retained)).orElse fun _ => c.retained with
  | none => s
  | some r =>
    ((((s.undo c.ticket).countRestart c.job.toNat).carry key true).startRec key (restartRec r) c.taskIndex c.part.toNat c.prio.toNat c.vregs c.logical.toNat)

/-- Return from supervisor mode (R395), as ESTAT.ACTION selects. A saved XFER with LEFT 0 and TAKEN set is a transfer whose last delay bundle has
committed: fetch continues at its target (log 11). -/
def State.trapReturn (s : State) (key : Nat) : State :=
  let c := s.ctx key
  let action := nbits c.estat.toNat 25 24
  let s := s.modCtx key fun c => { c with sup := false, watch := s.now, seq := false }
  if action = 0 then
    if xferLeft c.exfer = 0 && xferTaken c.exfer then s.modCtx key fun c => { c with xfer := 0, pc := xferTarget c.exfer }
    else s.modCtx key fun c => { c with xfer := c.exfer, pc := c.epc }
  else if action = 1 ∧ c.logical = 0xFF then s.restartTask key
  else s.abandon key (nbits c.estat.toNat 7 0)

/-- Whether the watchdog of a context has run out (R398): a DEAL task or handler in user mode, resident for LIMIT x 65,536 cycles. -/
def State.watchdogDue (s : State) (key : Nat) : Bool :=
  let c := s.ctx key
  let limit := s.fld .pwdog c.part.toNat 31 0
  decide (c.life = .running ∧ c.logical = 0xFF ∧ c.sup = false ∧ limit ≠ 0 ∧ c.watch + limit * 65536 ≤ s.now)

/-- Take a WATCHDOG trap at the next bundle boundary (R391, R398): the saved PC is the next bundle to be dispatched. -/
def State.watchdogTrap (s : State) (key : Nat) : State :=
  let next := s.nextBundle key
  s.takeTrap key cWatchdog 0 0 next next 0 0

/-- Whether a context stands at a bundle boundary, or at a bundle that a stop squashes (R401): it is not inside the wait of a bundle that has committed. -/
def Ctx.atBoundary (c : Ctx) : Bool :=
  match c.wait with
  | .none | .fetch _ | .arm => true
  | .suspend _ | .barrier _ _ | .pool | .lock _ | .word _ _ _ _ | .drain _ | .tlb _ | .argument | .release => false

/-- What acts before a stop at a bundle boundary (R408): a trap that is due there. -/
def State.boundary (s : State) (key : Nat) : State := if (s.ctx key).atBoundary && s.watchdogDue key then s.watchdogTrap key else s

/-! ### Slot operations -/

/-- Mark the slot operation under way as waiting. -/
def State.waits (s : State) : State := { s with issue := { s.issue with out := .waiting } }

/-- Trap the slot operation under way: its bundle does not commit and the context takes the trap (R119, R391). -/
def State.trapSlot (s : State) (cause : Cause) (faddr : Word) (info : BitVec 32) : State :=
  let s := { s with issue := { s.issue with out := .trapped cause faddr info } }
  s.takeTrap s.issue.key cause (2 ^ s.issue.slot.bit) 0 s.issue.pc s.issue.pc faddr info

/-- Run a slot operation: its registers are checked as of the bundle (R110), then it has its effect. -/
def State.slot (s : State) (srcs dsts : List Dst) (f : Ctx → State → State) : State :=
  match s.issue.src.check srcs dsts with
  | .ok => f s.issue.src s
  | .waiting => s.waits
  | .trapped cause faddr info => s.trapSlot cause faddr info

/-- Change the context of the bundle under way. -/
def State.own (s : State) (f : Ctx → Ctx) : State := s.modCtx s.issue.key f
/-- The context of the bundle under way, as it now stands. -/
def State.me (s : State) : Ctx := s.ctx s.issue.key

/-- A slot operation that writes one scalar. -/
def State.slotS (s : State) (srcs : List Dst) (d : Fin 64) (f : Ctx → Word) : Out :=
  .next (s.slot srcs [.s d] fun c s => s.own fun x => x.setS d (f c))
/-- A slot operation that writes one vector register. -/
def State.slotV (s : State) (srcs : List Dst) (d : Fin 256) (f : Ctx → VReg) : Out :=
  .next (s.slot srcs [.v d] fun c s => s.own fun x => x.setV d (f c))
/-- A slot operation that writes one predicate. -/
def State.slotP (s : State) (srcs : List Dst) (d : Fin 16) (f : Ctx → Pred) : Out :=
  .next (s.slot srcs [] fun c s => s.own fun x => x.setP d (f c))
/-- A slot operation that writes one condition bit. -/
def State.slotC (s : State) (srcs : List Dst) (d : Fin 8) (f : Ctx → Bool) : Out :=
  .next (s.slot srcs [.c d] fun c s => s.own fun x => x.setC d (f c))
/-- A slot operation with no effect of its own. -/
def State.slotNop (s : State) : Out := .next s

/-- A privileged slot operation traps outside supervisor mode (R102). -/
def State.privileged (s : State) (f : State → State) : State := if s.issue.src.sup then f s else s.trapSlot cPriv 0 0

/-- Empty a register and put a result in flight for it (R116), in place of an older one of fixed latency. A result for s0 fills nothing. -/
def Ctx.expect (c : Ctx) (l : Landing) : Ctx :=
  let c := { c with inflight := c.inflight ++ [l], fixed := c.fixed.filter fun e => decide (e.1 ≠ l.dst) }
  match l.dst with
  | .s r => if r = 0 then c else { c with sFull := setBit c.sFull r.val false }
  | .v r => { c with vFull := setBit c.vFull r.val false }
  | .p _ | .c _ | .bt _ | .lc _ _ | .sys _ => c

/-- Put a result in flight for the context of the bundle: its value when known, the row that poisons it, and its latency. Answers its name. -/
def State.produce (s : State) (d : Dst) (value : Option VReg) (poison : Option Nat) (latency : Nat) : Nat × State :=
  let x := s.fresh
  (x.1, x.2.own fun c => c.expect (Landing.mk x.1 d value poison (s.now + latency) false))

/-- A result in flight takes its value. -/
def Ctx.answer (c : Ctx) (id : Nat) (value : VReg) (poison : Option Nat) (due : Nat) : Ctx :=
  { c with inflight := c.inflight.map fun l => if l.id = id then { l with value := some value, poison := poison, due := max l.due due } else l }

/-- Give the value of a result in flight (R116), wherever its context now is. A saved context takes it into its arrival log (R346): `kind` 2 for a
queue result, 3 for a late one; `cond` is the landing and the outcome of a QTRY's condition bit. -/
def State.answerWith (s : State) (id : Nat) (value : VReg) (poison : Option Nat) (latency kind : Nat) (cond : Option (Nat × Bool)) : State :=
  let bit (c : Ctx) : Ctx := match cond with
    | some (i, b) => c.answer i (BitVec.ofNat 16384 b.toNat) none (s.now + latency)
    | none => c
  let s := s.mapCtxs fun c => bit (c.answer id value poison (s.now + latency))
  let name (x : Saved) : Option (Fin 8 × Bool) := cond.bind fun e =>
    ((x.ctx.inflight.find? fun l => decide (l.id = e.1)).bind fun l => match l.dst with
      | .c r => some (r, e.2)
      | .s _ | .v _ | .p _ | .bt _ | .lc _ _ | .sys _ => none)
  let log (x : Saved) : Option (Saved × LogItem) :=
    (x.ctx.inflight.find? fun l => decide (l.id = id)).map fun l =>
      ({ x with ctx := { x.ctx with inflight := x.ctx.inflight.filter fun l => decide (l.id ≠ id) && !(cond.any fun e => decide (l.id = e.1)) } },
        LogItem.mk kind 0 0 (some { l with value := some value, poison := poison }) none (name x) s.tbase.toNat)
  let a := s.logAll log s.saved
  let b := a.2.logAll log s.stored
  { b.2 with saved := a.1, stored := b.1 }

/-- Give the value of a result in flight that has no condition bit. -/
def State.answer (s : State) (id : Nat) (value : VReg) (poison : Option Nat) (latency kind : Nat) : State := s.answerWith id value poison latency kind none

/-- Whether a command has not performed or its value has not arrived. -/
def Ctx.pends (c : Ctx) (id : Nat) : Bool := (c.outstanding.any fun o => decide (o.id = id)) || c.inflight.any fun l => decide (l.id = id)

/-- Whether a collective still makes accesses here for a command (R321): for its HCOLL until it has ended here, for an HRECH until each of its chunks is
committed here or, when this member's output does not hold it, at its owner. -/
def Coll.makes (x : Coll) (chunks : Option (List Nat)) : Bool :=
  !x.ended && (match chunks with
    | none => true
    | some l => l.any fun ch => match tget x.chunks ch with
      | some k => !k.committed && !(decide (nbytes x.cmd.toNat 0 1 = 2) && !k.doneBy.isEmpty)
      | none => true)

/-- Whether an engine still makes accesses for a command that it has accepted (R321): an itinerary runs, or a collective. -/
def State.engineBusy (s : State) (id : Nat) : Bool :=
  (s.wheels.any fun e => e.2.spokes.any fun x => decide (x.2.id = id)) ||
  s.colls.any fun e => e.2.2.cmds.any fun i => decide (i.id = id) && e.2.2.makes i.chunks

/-- The commands of a task that engines have accepted and for which they still make accesses, with their paths (R320, R321). -/
def State.engineIds (s : State) (t : Word) : List (Nat × Nat) :=
  (s.wheels.flatMap fun e => (e.2.spokes.filter fun x => decide (x.2.org.ticket = t)).map fun x => (x.2.id, 3)) ++
  s.colls.flatMap fun e => (e.2.2.cmds.filter fun i => decide (i.ticket = t) && e.2.2.makes i.chunks).map fun i => (i.id, 4)

/-- Whether a command has not performed, with every access that an engine makes for it (R321, R326). -/
def State.pends (s : State) (c : Ctx) (id : Nat) : Bool := c.pends id || s.engineBusy id

/-- Whether a FENCE, or an acquire whose value has not arrived, holds a younger operation of the bundle's task on a path (R325, R326). -/
def State.fenced (s : State) (path : Nat) : Bool := s.me.fences.any fun f => f.after.getLsbD path && f.before.any fun id => s.pends s.me id

/-- Hold the younger path-C accesses of the bundle's task until the value of an acquire arrives (R325). -/
def State.acquiring (s : State) (id : Nat) : State :=
  s.own fun c => { c with fences := (c.fences.filter fun f => f.before.any fun id => s.pends c id) ++ [Fence.mk [id] 0x01] }

/-- Whether a push of the bundle's task waits for room in its queue: younger operations of the MEM slot wait behind it (R343). -/
def State.pushing (s : State) : Bool := s.bdq.any fun q => q.2.pushes.any fun x => match x with
  | .task id _ => s.me.outstanding.any fun o => decide (o.id = id)
  | .batch _ => false

/-- A MEM-slot operation on a path: a fence may hold it, and a push that waits (R325, R326, R343). -/
def State.memPath (s : State) (path : Nat) (f : State → State) : State := if s.pushing || s.fenced path then s.waits else f s

/-- Who commands an engine access of the bundle's task (R321). -/
def State.origin (s : State) : Origin :=
  let c := s.issue.src
  ⟨c.ticket, c.run, c.job, c.part, c.prio, quadOf s.issue.key, decide (c.logical ≠ 0xFF)⟩

/-- Record a command of the bundle's task on a path (R320). -/
def State.command (s : State) (id : Nat) (path : Fin 8) : State := s.own fun c => { c with outstanding := c.outstanding ++ [Outstanding.mk id path] }

/-! ### The end of a task -/

/-- Number of bits set in a natural below 2^n. -/
def popcount (x n : Nat) : Nat := ((List.range n).filter fun i => x.testBit i).length

/-- The team size of a job (R22). -/
def Job.teamSize (j : Job) : Nat := popcount (nbytes j.card.toNat 64 16) 128
/-- ARGCOUNT of a job. -/
def Job.argCount (j : Job) : Nat := nbytes j.card.toNat 20 4
/-- The target of a job's root (R30). -/
def Job.target (j : Job) : Nat := (if j.gang then j.teamSize else j.argCount) * 2 ^ 64
/-- TERMROOT of a job (R27). -/
def Job.root (j : Job) : Nat := nbytes j.card.toNat 40 8

/-- Park an access on a page that is not present (R293) and post its NOT_PRESENT record. -/
def State.park (s : State) (part va : Nat) (job : Option Nat) (ticket : Word) (src unit done : Nat) (w : ParkWork) : State :=
  let x := s.fresh
  let s := { x.2 with parked := x.2.parked ++ [Parked.mk x.1 (BitVec.ofNat 4 part) va false x.2.now none none w] }
  s.postFault { cause := cNotPresent, src := src, part := part, job := job, unit := unit, addr := va, done := done, ticket := ticket }

/-- Release the dormant handlers of a job that completes (R142): one that runs, or whose run is saved, is released when its work is over. -/
def State.releaseHandlers (s : State) (job : Nat) : State :=
  let mine (c : Ctx) : Bool := c.armed.isSome && decide (c.job.toNat = job)
  let out (l : List Saved) : List Saved :=
    (l.filter fun (x : Saved) => !(mine x.ctx && decide (x.ctx.life = Life.dormant))).map fun x => if mine x.ctx then { x with ctx := { x.ctx with armed := none } } else x
  { s with saved := out s.saved, stored := out s.stored }.mapCtxs fun (c : Ctx) =>
    if mine c then (if c.life = Life.dormant then { c with armed := none, life := Life.free } else { c with armed := none }) else c

/-- Add a share to the root of a job (R29), and complete the job when W equals its target (R30). Lines that the host may hold come back first (R424). -/
def State.rootAdd (s : State) (job wexp : Nat) (ticket : Word) : State :=
  match s.job? job with
  | none => s
  | some j =>
    let dropped (c : Cause) : State := s.postFault { cause := c, src := 8, part := j.part, job := some job, addr := j.root, ticket := ticket }
    match s.pageOf j.part j.root with
    | none => s.park j.part j.root (some job) ticket 6 0 0 (.root job wexp ticket)
    | some p =>
      let pa := p.pa + (j.root - p.va)
      if p.perm.toNat &&& 6 ≠ 6 ∨ ¬ pa < 0x3000000000 then dropped cPerm
      else if s.mem.poisoned pa then dropped cPoison
      else if !(s.linesHeld pa 16).isEmpty then s.parkLink j.part j.root (.root job wexp ticket) 16
      else
        let w := (s.mem.readLe pa 16 + 2 ^ (64 - wexp)) % 2 ^ 128
        let s := (s.storeBytes pa 16 w).modJob job fun x => { x with ends := (x.ends + 1) % 2 ^ 32 }
        if w = j.target ∧ j.complete = false then
          ((s.modJob job fun x => { x with complete := true, finish := s.tbase.toNat }).releaseHandlers job).first [.completionRecord (Fin.ofNat 4096 job)]
        else s

/-- Enter a card into a partition's pending-launch pool, or hold it for a ticket when the pool is full (R55, R56). -/
def State.poolPush (s : State) (part : BitVec 4) (card : BitVec 1024) (t : Word) : State :=
  if (s.pool.filter fun e => decide (e.1 = part)).length < 256 then { s with pool := s.pool ++ [(part, card)] }
  else { s with held := s.held ++ [(t, part, card)] }

/-- A copy command joins its queue (R269). -/
def State.joinCopy (s : State) (c : CopyCmd) : State :=
  s.modQuad c.org.quad fun q => { q with copies := q.copies ++ [{ c with enq := s.tbase.toNat }] }

/-- Write the journal copies to their target rows in ascending order of data row (R361 step 1). -/
def State.publish (s : State) (copies : List (Nat × Row × Bool)) : State :=
  copies.foldl (fun s e =>
    let s := (s.touch e.1).storeRow (localKey e.1) e.2.1 fullMask
    if e.2.2 then { s with mem := s.mem.setPoison (localKey e.1) } else s) s

/-- Emit a deferred spawn or launch (R361 step 4). -/
def State.emit (s : State) (c : Ctx) : Deferred → State
  | .spawn r => (s.pushRec c.part.toNat r).modJob c.job.toNat fun x => { x with spawns := (x.spawns + 1) % 2 ^ 32 }
  | .launch card => s.poolPush c.part card c.ticket
  | .copy _ => s

/-- Lines under the root of a job that the host may hold: W is written once they have come back (R424). -/
def State.rootHeld (s : State) (j : Job) : List Nat :=
  match s.pageOf j.part j.root with
  | some p => s.linesHeld (p.pa + (j.root - p.va)) 16
  | none => []

/-- Steps 2 to 5 of R361 and steps 3 and 4 of R415, once nothing is left to wait for. The context is free when the root addition has performed, or is parked
on an absent page (R29): while the host may hold lines of the root, both wait. -/
def State.retire (s : State) (key : Nat) : State :=
  let c := s.ctx key
  let work := ((s.journal? c.ticket).map (·.deferred)).getD []
  let s := s.releaseAll c.ticket
  let s := work.foldl (fun s d => s.emit c d) s
  let s := (s.disarm c.ticket).modCtx key fun c => { c with cflags := c.cflags &&& 0xE }
  let s := { s with wounds := s.wounds.filter fun w => decide (w ≠ c.ticket) }
  if c.cflags.getLsbD 2 then s.freeCtx key
  else match ((s.job? c.job.toNat).map s.rootHeld).getD [] with
    | [] => (s.rootAdd c.job.toNat c.wexp.toNat c.ticket).freeCtx key
    | l => s.snoop l

/-- Name the first deferred COPY that has not been sent (R361 step 2). -/
def markCopy (n : Nat) : List Deferred → List Deferred
  | [] => []
  | .copy x :: t => if x.id = 0 then .copy { x with id := n } :: t else .copy x :: markCopy n t
  | d :: t => d :: markCopy n t

/-- Whether a DRAIN of these paths may end (R327); for path C the results that are due have landed. -/
def Ctx.drained (c : Ctx) (paths : BitVec 8) : Bool :=
  !(c.outstanding.any fun o => paths.getLsbD o.path.val) && !(paths.getLsbD 0 && c.inflight.any fun l => l.value.isSome)

/-- Take the steps of END that can be taken now (R415, R361): path C drained, publication once every array that it writes can be
reached (R413), the deferred copies one after the other, then the rest. -/
def State.finishEnd (s : State) (key : Nat) : State :=
  let c := s.ctx key
  if c.drained 0x01 = false then s
  else match s.journal? c.ticket with
    | none => s.retire key
    | some j =>
      let away := (j.copies.map (·.1)).filter s.holdsAccess
      if !away.isEmpty then away.foldl (fun (s : State) a => s.startExit (arrayOf a)) s
      else
      let s := if j.ended then s else (s.publish j.copies).setJournal c.ticket { j with ended := true, copies := [] }
      let live := fun (d : Deferred) => match d with
        | .copy x => decide (x.id = 0) || c.outstanding.any fun o => decide (o.id = x.id)
        | _ => true
      let work := j.deferred.filter live
      let j := { j with ended := true, copies := [], deferred := work }
      let s := s.setJournal c.ticket j
      match work.find? fun d => match d with | .copy _ => true | _ => false with
      | some (.copy x) =>
        if x.id ≠ 0 ∨ s.cellRoom x.org.quad 1 1 = false then s
        else
          let n := s.fresh
          let s := (n.2.joinCopy { x with id := n.1 }).modCtx key fun c => { c with outstanding := c.outstanding ++ [⟨n.1, 1⟩] }
          s.setJournal c.ticket { j with deferred := markCopy n.1 work }
      | _ => s.retire key

/-- The context of a task that has left it is free (R63, R137): a handler's too, which only END arms again (R19, R139). -/
def State.leaveCtx (s : State) (key : Nat) : State := (s.modCtx key fun c => { c with armed := none }).freeCtx key

/-- Write a task out once s1 to s6 are full (R137): push its record and free the context. A poisoned one of them is written as it is, without a trap, and
the record holds no poison (DESIGN CHOICE: R137 and R399 do not say; log 43). -/
def State.writeOut (s : State) (key : Nat) (pc : Offset) : State :=
  let c := s.ctx key
  if ((List.range 6).all fun i => c.sFull.getLsbD (i + 1)) then ((s.pushRec c.part.toNat (c.record pc)).carry key false).leaveCtx key else s

/-- A task other than a team's that sleeps in the monitor table is written out into its entry once s1 to s6 are full (R141, R332). -/
def State.sleepOut (s : State) (key : Nat) : State :=
  let c := s.ctx key
  if decide (c.logical = 0xFF) && (List.range 6).all (fun i => c.sFull.getLsbD (i + 1)) then
    let out (e : MonEntry) : MonEntry := if e.ctxKey = some key then { e with ctxKey := none, record := some (c.record c.pc) } else e
    ((s.modQuad (quadOf key) fun q => { q with monitor := q.monitor.map out }).carry key false).leaveCtx key
  else s

/-- The level at or below which a core is reserved for a waiting team of the partition that owns it (R66). -/
def State.reserved (s : State) (core : Nat) : Option Nat :=
  (s.jobs.filterMap fun e => match e.2.team with
    | some t =>
      if (t.phase = .waiting ∨ t.phase = .swapped) ∧ e.2.part = s.quadPart (core / 4) ∧ (t.places.any fun p => decide (p.core.val = core)) then some e.2.prio
      else none
    | none => none).max?

/-- The free context of a core with window room that an ARM takes, lowest number first (R16, R142; log 16). -/
def State.armTarget (s : State) (key : Nat) : Option Nat :=
  if s.windowRoom (coreOf key) (s.jobVregs (s.ctx key).job.toNat) then
    ((List.range 8).map (coreOf key * 8 + ·)).find? fun k => decide ((s.ctx k).life = .free)
  else none
/-- Whether an ARM of a context can proceed (R142). -/
def State.armRoom (s : State) (key : Nat) : Bool := (s.armTarget key).isSome

/-- Let go every wait that has ended (R137, R327, R415). -/
def State.settle (s : State) : State :=
  (s.ctxs.map (·.1)).foldl (fun s k =>
    let c := s.ctx k
    match c.life, c.wait with
    | .ending, _ => s.finishEnd k
    | .running, .drain paths => if c.drained paths then s.modCtx k fun c => { c with wait := .none } else s
    | .running, .tlb ids => if s.parked.any fun p => ids.contains p.id then s else s.modCtx k fun c => { c with wait := .none }
    | .running, .suspend pc => s.writeOut k pc
    | .running, .word none _ _ _ => s.sleepOut k
    | _, _ => s) s

/-- A command has performed or failed (R326, R327). -/
def State.performed (s : State) (id : Nat) : State := (s.forget id true).settle

/-- A command has been accepted by its engine: DRAIN no longer waits for it (R327), and a FENCE waits on for the accesses that it makes (R321, R326). -/
def State.accepted (s : State) (id : Nat) : State := (s.forget id false).settle

/-- The tests of WAITA (R141). -/
def waitTest (w val : Word) (mode : Fin 4) : Bool :=
  match mode with
  | 0 => decide (w = val)
  | 1 => decide (w ≠ val)
  | 2 => decide (val.toNat ≤ w.toNat)
  | 3 => decide (w.toNat < val.toNat)

/-- Add to a done counter, word 0 of a local row (R252, R279, R281), as an engine of a quad: nothing when the address fails R261 or R262. -/
def State.doneAdd (s : State) (o : Origin) (a v : Nat) : State :=
  match s.reach o.part.toNat o.quad (rowOf a) with
  | .ok a => (s.touch a).addWord (localKey a) v
  | .hold arr => s.keepWrite arr ⟨(canonLocal o.quad (rowOf a)).getD a, 8, v, true, 0⟩
  | .range => s

end Sys2Proof.Machine
end

