-- ==== Sys2Proof/Machine/Operands.lean ====
section
/-!
DEFINITION. Operands: the operand forms of the slot operations: scalars, system registers, loops, count queues, descriptors, formats and lanes.
-/
namespace Sys2Proof.Machine

/-! ### Scalars -/

/-- Two scalar sources, one scalar result. -/
def State.bin (s : State) (d a b : Fin 64) (f : Word → Word → Word) : Out := s.slotS [.s a, .s b] d fun c => f (c.getS a) (c.getS b)
/-- One scalar source, one scalar result. -/
def State.una (s : State) (d a : Fin 64) (f : Word → Word) : Out := s.slotS [.s a] d fun c => f (c.getS a)
/-- Two scalar sources, one condition bit. -/
def State.test (s : State) (d : Fin 8) (a b : Fin 64) (f : Word → Word → Bool) : Out := s.slotC [.s a, .s b] d fun c => f (c.getS a) (c.getS b)
/-- Two FP32 sources in bits [31:0], one FP32 result zero-extended (R157). -/
def State.fbin (s : State) (d a b : Fin 64) (f : Val → Val → Nat) : Out :=
  s.bin d a b fun x y => BitVec.ofNat 64 (f (fp32Of x.toNat) (fp32Of y.toNat))

/-- Leading zero bits. -/
def leadingZeros {n : Nat} (x : BitVec n) : Nat := ((List.range n).takeWhile fun i => !x.getLsbD (n - 1 - i)).length
/-- Trailing zero bits. -/
def trailingZeros {n : Nat} (x : BitVec n) : Nat := ((List.range n).takeWhile fun i => !x.getLsbD i).length

/-! ### System registers -/

/-- TEAMCYC (R51): cycles since the team's first release, 0 outside a team. -/
def State.teamCyc (s : State) (c : Ctx) : Nat :=
  if c.logical = 0xFF then 0
  else match ((s.job? c.job.toNat).bind (·.team)).bind (·.firstRelease) with
    | some r => s.now - r
    | none => 0

/-- JNLBASE (R352). -/
def jnlBase (j : Option Journal) : Nat :=
  match j with
  | some j => if j.armed then j.row % 2 ^ 16 + j.used % 2 ^ 11 * 2 ^ 16 + j.quad % 32 * 2 ^ 32 + 2 ^ 40 else 0
  | none => 0

/-- A system register as MFSR reads it (R161 to R163). -/
def State.sysRead (s : State) (key : Nat) (c : Ctx) : SysReg → Word
  | .taskid => c.taskIndex.setWidth 64
  | .ticket => c.ticket
  | .jobid => c.job.setWidth 64
  | .partid => c.part.setWidth 64
  | .coreid => BitVec.ofNat 64 (coreOf key % 128 + c.logical.toNat * 256)
  | .quadid => BitVec.ofNat 64 (quadOf key % 32)
  | .dieid => BitVec.ofNat 64 (dieOf key % 4)
  | .pkgid => s.pkgid.setWidth 64
  | .ctxid => BitVec.ofNat 64 (key % 8)
  | .prio => c.prio.setWidth 64
  | .wexp => if c.cflags.getLsbD 2 then 0 else c.wexp.setWidth 64
  | .cflags => c.cflags.setWidth 64
  | .epolicyS => c.epolicyS
  | .epolicyV k => c.epolicyV[k]
  | .ftbase => c.ftbase.setWidth 64
  | .ftsel => c.ftsel.setWidth 64
  | .xfer => c.xfer.setWidth 64
  | .teamcyc => BitVec.ofNat 64 (s.teamCyc c)
  | .jnlbase => BitVec.ofNat 64 (jnlBase s.issue.jnl)
  | .trapvec => c.trapvec.setWidth 64
  | .traparea => c.traparea.setWidth 64
  | .epc => c.epc.setWidth 64
  | .exfer => c.exfer.setWidth 64
  | .estat => c.estat.setWidth 64
  | .mode => if c.sup then 1 else 0

/-- A write by MTSR: fields marked RO ignore it (R6, R117, R135, R161, R393). -/
def Ctx.sysWrite (c : Ctx) (r : SysReg) (v : Word) : Ctx :=
  match r with
  | .epolicyS => { c with epolicyS := v &&& ~~~1 }
  | .epolicyV k => { c with epolicyV := c.epolicyV.set k v }
  | .ftbase => { c with ftbase := v.setWidth 6 }
  | .ftsel => { c with ftsel := v.setWidth 3 }
  | .trapvec => { c with trapvec := v.setWidth 24 }
  | .traparea => { c with traparea := v.setWidth 40 }
  | .epc => { c with epc := v.setWidth 24 }
  | .exfer => { c with exfer := v.setWidth 27 }
  | .estat => { c with estat := BitVec.ofNat 26 (nset c.estat.toNat 25 24 (nbits v.toNat 25 24)) }
  | .taskid | .ticket | .jobid | .partid | .coreid | .quadid | .dieid | .pkgid | .ctxid | .prio | .wexp | .cflags | .xfer | .teamcyc
  | .jnlbase | .mode => c

/-! ### Loops and count queues -/

/-- A loop register by field number (R128, R165). -/
def Loop.get (l : Loop) (field : Fin 4) : Word :=
  match field with
  | 0 => l.cnt.setWidth 64
  | 1 => l.beg.setWidth 64
  | 2 => l.fin.setWidth 64
  | 3 => l.idx.setWidth 64

/-- Write a loop register by field number (R128, R165). -/
def Loop.put (l : Loop) (field : Fin 4) (v : Word) : Loop :=
  match field with
  | 0 => { l with cnt := v.setWidth 32 }
  | 1 => { l with beg := v.setWidth 24 }
  | 2 => { l with fin := v.setWidth 24 }
  | 3 => { l with idx := v.setWidth 32 }

/-- Pop a count queue (R130, R169): an empty one traps with EMPTY_READ, INFO naming the queue. -/
def State.popCount (s : State) (q : Fin 4) (f : BitVec 32 → State → State) : State :=
  match (s.me.cq)[q] with
  | [] => s.trapSlot cEmptyRead 0 (BitVec.ofNat 32 (512 + q.val))
  | v :: t => f v (s.own fun c => { c with cq := c.cq.set q t })

/-! ### Descriptors -/

/-- Desc of R166: the local address of row i of tile t. -/
def descAddr (a b : Word) (t i : Nat) : Nat :=
  (bitsOf a 31 0 + t * bitsOf b 31 0 + i * bitsOf a 63 32 + t * bitsOf b 35 32 % 64) * 256 % 2 ^ 40

/-! ### Formats -/

/-- The active row of the format table (R135). -/
def Ctx.ftRow (c : Ctx) : Nat :=
  if c.ftsel.getLsbD 2 then c.ftbase.toNat
  else (c.ftbase.toNat + (c.lc.getD (nbits c.ftsel.toNat 1 0) ⟨0, 0, 0, 0⟩).idx.toNat) % 64

/-- The 16 bits of the entry that a format selection names (R88, R134, R135): an explicit code is an entry with every other field zero. -/
def Ctx.entryBits (c : Ctx) : FmtSel → Nat
  | .column f => nbits (c.ft.getD c.ftRow 0).toNat (16 * f.val + 15) (16 * f.val)
  | .code k => k.val

/-- How an operation takes an entry with SCALED = 1 (R175, R194): it traps, ignores it, or requires it. -/
inductive Scaling where
  | none | ignored | required
deriving DecidableEq, Repr

/-- The format and entry of an operation (R182, R192), or FORMAT with the entry used as INFO (R392): `ok` tells the formats accepted. -/
def State.withFmt (s : State) (c : Ctx) (sel : FmtSel) (ok : Fmt → Bool) (sc : Scaling) (g : Fmt → FmtEntry → State → State) : State :=
  let bits := c.entryBits sel
  let e := FmtEntry.ofBits bits
  match e.fmt with
  | none => s.trapSlot cFormat 0 (BitVec.ofNat 32 bits)
  | some f =>
    if e.reservedZero && ok f && (match sc with | .none => !e.scaled | .ignored => true | .required => e.scaled) then g f e s
    else s.trapSlot cFormat 0 (BitVec.ofNat 32 bits)

/-- The floating formats of R196 or the integer formats of R203. -/
def Fmt.plain (f : Fmt) : Bool := f.isFloat || f.isInt

/-! ### Lanes -/

/-- Row j of a vector register. -/
def vrow (v : VReg) (j : Nat) : Row := v.extractLsb' (2048 * j) 2048
/-- A vector register from its rows, missing rows zero. -/
def vregOf (l : List Row) : VReg := BitVec.ofNat 16384 (pack (l.map fun r => (256, r.toNat)))
/-- The byte mask of row j in a predicate (R193). -/
def predRow (p : Pred) (j : Nat) : BitVec 256 := p.extractLsb' (256 * j) 256
/-- Element i of width w of a vector register. -/
def elem (v : VReg) (i w : Nat) : Nat := (v.extractLsb' (i * w) w).toNat

/-- Whether lane i of width w is active (R193). -/
def laneOn (p : Pred) (w i : Nat) : Bool := p.getLsbD (i * w / 8)

/-- `n` fields of `w` bits, the i-th counted from `i` on. -/
def packLanes (w : Nat) (g : Nat → Nat) : Nat → Nat → Nat
  | _, 0 => 0
  | i, n + 1 => g i % 2 ^ w + 2 ^ w * packLanes w g (i + 1) n

/-- A vector register from its lanes. -/
def vlanes (w : Nat) (g : Nat → Nat) : VReg := BitVec.ofNat 16384 (packLanes w g 0 (16384 / w))

/-- A vector register whose active lanes are new, and whose others keep their value as of the bundle (R193). -/
def mergeLanes (w : Nat) (old : VReg) (p : Pred) (g : Nat → Nat) : VReg := vlanes w fun i => if laneOn p w i then g i else elem old i w

/-- The active lanes of a register, in order, with their values. -/
def activeLanes (v : VReg) (p : Pred) (w : Nat) : List (Nat × Nat) :=
  ((List.range (16384 / w)).filter fun i => laneOn p w i).map fun i => (i, elem v i w)

/-- A predicate whose bytes of lane i are all set as `g i` tells (R204). -/
def lanePred (w : Nat) (g : Nat → Bool) : Pred :=
  BitVec.ofNat 2048 (packLanes (w / 8) (fun i => if g i then 2 ^ (w / 8) - 1 else 0) 0 (16384 / w))

/-- Registers that a VTHCNT writes (R223). -/
def thcntRegs (f : Fmt) (lg : Nat) : Nat := cdiv (f.lanes / min (2 ^ lg) f.lanes) 512

/-- A vector operation with one vector destination (R192, R193). -/
def State.vop (s : State) (srcs : List Dst) (d : Fin 256) (sel : FmtSel) (ok : Fmt → Bool) (sc : Scaling) (g : Ctx → Fmt → FmtEntry → VReg) : Out :=
  .next (s.slot srcs [.v d] fun c s => s.withFmt c sel ok sc fun f e s => s.own fun x => x.setV d (g c f e))

/-- An element-wise operation that merges under P (R193): `g` answers the bits of lane i. -/
def State.lanewise (s : State) (srcs : List Dst) (d : Fin 256) (p : Fin 16) (sel : FmtSel) (ok : Fmt → Bool)
    (g : Ctx → Fmt → FmtEntry → Nat → Nat) : Out :=
  s.vop srcs d sel ok .none fun c f e => mergeLanes f.width (c.getV d) (c.getP p) (g c f e)

/-- An element-wise floating operation on exact values (R183, R196): the result is written once, by the entry's RND and SAT. -/
def State.floatwise (s : State) (srcs : List Dst) (d : Fin 256) (p : Fin 16) (sel : FmtSel) (g : Ctx → Rnd → (VReg → Val) → Val) : Out :=
  s.lanewise srcs d p sel Fmt.isFloat fun c f e i =>
    cvtFloat f e.rnd e.sat (g c e.rnd fun v => floatVal f (elem v i f.width))

/-- An element-wise integer operation (R203): `g` answers the bits of a lane from its format, SAT and the bits of the lanes of a and b. -/
def State.intwise (s : State) (d a b : Fin 256) (p : Fin 16) (sel : FmtSel) (g : Fmt → Bool → Nat → Nat → Nat) : Out :=
  s.lanewise [.v a, .v b] d p sel Fmt.isInt fun c f e i => g f e.sat (elem (c.getV a) i f.width) (elem (c.getV b) i f.width)

/-- A transcendental (R198): x converted exactly to FP32, G correctly rounded to FP32, the result converted into the format. -/
def State.transcendental (s : State) (d a : Fin 256) (p : Fin 16) (sel : FmtSel) (g : Val → Nat) : Out :=
  s.lanewise [.v a] d p sel Fmt.isFloat fun c f e i =>
    let x := cvt (elem (c.getV a) i f.width) f .fp32 .rne false
    cvt (g (floatVal .fp32 x)) .fp32 f e.rnd e.sat

/-- A compare (R204): inactive lanes clear their bits, and the whole predicate is written. -/
def State.vcompare (s : State) (d : Fin 16) (a b : Fin 256) (p : Fin 16) (sel : FmtSel) (t : Fmt → Nat → Nat → Bool) : Out :=
  .next (s.slot [.v a, .v b] [] fun c s => s.withFmt c sel Fmt.plain .none fun f _ s => s.own fun x =>
    x.setP d (lanePred f.width fun i => laneOn (c.getP p) f.width i && t f (elem (c.getV a) i f.width) (elem (c.getV b) i f.width)))

/-- A reduction of a register's active lanes to a scalar (R207, R208). -/
def State.reduce (s : State) (d : Fin 64) (a : Fin 256) (p : Fin 16) (sel : FmtSel) (g : Fmt → FmtEntry → VReg → Pred → Word) : Out :=
  .next (s.slot [.v a] [.s d] fun c s => s.withFmt c sel Fmt.plain .none fun f e s => s.own fun x => x.setS d (g f e (c.getV a) (c.getP p)))

end Sys2Proof.Machine
end

