-- ==== Sys2Proof/Machine/Channel.lean ====
section
/-!
DEFINITION. Channel: the conversion of channel elements (R190) and the serving of committed receives (R337, R346).
-/
namespace Sys2Proof.Machine

/-- The physical core of a logical core of a job's team (R51). -/
def State.teamCore (s : State) (job logical : Nat) : Option Nat :=
  (((s.job? job).bind (·.team)).bind fun t => t.places.find? fun p => decide (p.logical.val = logical)).map (·.core.val)

/-- Cycles between the ends of a channel (R338). -/
def chLatency (a b : Nat) : Nat := if a / 4 = b / 4 then 6 else if a / 32 = b / 32 then 16 else 44

/-- The rows of an element at its sink (R190): each lane converted, or the bits unchanged when the codes are equal. -/
def chConvert (e : BitVec 128) (data : Nat) : Nat :=
  let a := FmtEntry.ofBits (chField e 8 2)
  let b := FmtEntry.ofBits (chField e 10 2)
  match a.fmt, b.fmt with
  | some f, some g =>
    if f = g then data
    else
      let n := chField e 4 1 * 2048 / f.width
      packLanes g.width (fun i => cvt (nbits data (f.width * i + f.width - 1) (f.width * i)) f g b.rnd b.sat) 0 n
  | _, _ => data

/-- The register of a RECVADD (R190): each lane of the element's rows is added to the register as of the bundle. Lanes of the last row that the element
does not reach are zero, and are added too (DESIGN CHOICE: R190 is silent on them; log 16). -/
def chAdd (e : BitVec 128) (data : Nat) (old : VReg) : VReg :=
  let b := FmtEntry.ofBits (chField e 10 2)
  match b.fmt with
  | none => old
  | some g =>
    let n := chSinkRows e * 2048 / g.width
    vlanes g.width fun i =>
      let x := elem old i g.width
      let y := nbits data (g.width * i + g.width - 1) (g.width * i)
      if n ≤ i then x
      else if g.isFloat then cvtFloat g b.rnd b.sat ((floatVal g x).add b.rnd (floatVal g y))
      else writeInt g b.sat (intVal g x + intVal g y)

/-- Whether the context of a committed receive is saved: it pops after the log of its restore (R346). -/
def State.recvSaved (s : State) (r : Recv) : Bool := (s.saved ++ s.stored).any fun x => x.ctx.inflight.any fun l => decide (l.id = r.id)

/-- Serve the committed receives of a channel with the elements present, both in order (R337): the credit of each pop is on its way back to the send end that
the entry names. -/
def State.serveChan (s : State) (core ch : Nat) : Nat → State
  | 0 => s
  | fuel + 1 =>
    let k := s.chan core ch
    match k.elems, k.recvs with
    | x :: xs, r :: rs =>
      if s.recvSaved r then s
      else
        let e := k.entry
        let data := if chFlag e 2 then x.data else chConvert e x.data
        let v := match r.old with
          | some v => chAdd e data v
          | none => BitVec.ofNat 16384 data
        let s := (s.modChan core ch fun k => { k with elems := xs, recvs := rs }).answer r.id v x.poison 0 2
        let s := match s.teamCore r.job (chField e 1 1) with
          | some p => s.modChan p (chField e 2 1 % 64) fun y => { y with returning := y.returning ++ [s.now + chLatency core p] }
          | none => s
        s.serveChan core ch fuel
    | _, _ => s

/-- Serve the receives of a context that has been restored, after its log (R346). -/
def State.serveRecvs (s : State) (key : Nat) : State :=
  let mine (r : Recv) : Bool := (s.ctx key).inflight.any fun l => decide (l.id = r.id)
  (s.cores.flatMap fun c => (c.2.chans.filter fun k => k.2.recvs.any mine).map fun k => (c.1, k.1)).foldl (fun (s : State) e => s.serveChan e.1 e.2 64) s

end Sys2Proof.Machine
end

