-- ==== Sys2Proof/Machine/Save.lean ====
section
/-!
DEFINITION. Save: the chunk checksum (R230), stopping a context (R401), its save image (R402, R403), saving it (R70, R76) and restoring it
(R405, R406).
-/
namespace Sys2Proof.Machine

/-- The modulus of the chunk checksum (R230). -/
def chunkP : Nat := 2 ^ 61 - 1

/-- Contribution to a chunk checksum of `n` 64-bit words held in `x`, the first at index `k` (R230). -/
def checksumFrom (x k : Nat) : Nat → Nat → Nat
  | 0, c => c
  | n + 1, c => checksumFrom (x / 2 ^ 64) (k + 1) n ((c + (k + 1) % chunkP * (x % 2 ^ 64 % chunkP)) % chunkP)

/-- The value of a register as a result in flight holds it. Those whose values stay in the context (`Ctx.setDst`) need none. -/
def Ctx.dstValue (c : Ctx) : Dst → VReg
  | .s r => (c.getS r).setWidth 16384
  | .v r => c.getV r
  | .c r => BitVec.ofNat 16384 (c.getC r).toNat
  | .p _ | .bt _ | .lc _ _ | .sys _ => 0

/-- Mark a register empty. -/
def Ctx.empty (c : Ctx) : Dst → Ctx
  | .s r => if r = 0 then c else { c with sFull := setBit c.sFull r.val false, sPoison := setBit c.sPoison r.val false }
  | .v r => { c with vFull := setBit c.vFull r.val false, vPoison := setBit c.vPoison r.val false }
  | .p _ | .c _ | .bt _ | .lc _ _ | .sys _ => c

/-- The results of fixed-latency producers that have not landed at the stop cycle become results in flight of the snapshot (R401): their registers are
empty until they land. -/
def Ctx.unlanded (c : Ctx) (stop : Nat) : Ctx :=
  let l := c.fixed.filter fun e => decide (stop < e.2)
  let made (e : Dst × Nat) : Landing := ⟨0, e.1, some (c.dstValue e.1), if c.poisonedReg e.1 then some c.poisonRow.toNat else none, e.2 - stop, true⟩
  { l.foldl (fun (x : Ctx) e => x.empty e.1) c with fixed := [], inflight := c.inflight ++ l.map made }

/-- A context at its stop in cycle `now` (R401): the stop cycle is the first in which it has dispatched no bundle. Results with a value are counted from
it, the others wait for their units. -/
def Ctx.stopped (c : Ctx) (now : Nat) : Ctx :=
  if decide (c.life = .stopped) || c.stopReq then c
  else
    let stop := max now c.ran
    let c := if c.anchor then c
      else { c with inflight := c.inflight.map fun (l : Landing) => if l.value.isSome then { l with due := l.due - stop, fromSnapshot := true } else l }.unlanded stop
    { c with life := if c.life = .running then .stopped else c.life, stopReq := false, stopCycle := stop, anchor := true }

/-- Results that took their value while a stopped context waited for room count from the stop cycle too (R401). -/
def Ctx.counted (c : Ctx) : Ctx :=
  { c with inflight := c.inflight.map fun l => if l.value.isSome && !l.fromSnapshot then { l with due := l.due - c.stopCycle, fromSnapshot := true } else l }

/-- POLLGAP of a quad (R333): 0 acts as 1. -/
def State.pollGap (s : State) (q : Nat) : Nat := max 1 (s.fld .moncfg q 15 0)

/-- Entries of a quad's monitor table (R332). -/
def State.showMonitor (s : State) (q : Nat) : State := s.setFld .monstat q 6 0 (s.quad q).monitor.length

/-- Snapshot entries in ascending order of landing cycle and register (R401, R402). -/
def Ctx.snapshot (c : Ctx) : List Nat :=
  ((c.inflight.filter fun l => l.value.isSome).mergeSort fun a b =>
      decide (a.due < b.due ∨ (a.due = b.due ∧ a.dst.file.1 * 256 + a.dst.file.2 ≤ b.dst.file.1 * 256 + b.dst.file.2))).map
    fun l => pack [(1, l.dst.file.1), (1, l.dst.file.2), (1, 1), (1, 0), (4, l.due), (8, 0)]

/-- Registers of the image: those with a result in flight hold its value (R401). -/
def Ctx.imageRegs (c : Ctx) : Ctx := c.inflight.foldl (fun c l => match l.value with | some x => c.setDst l.dst x | none => c) c

/-- The save image without its checksum, as 64-bit words from word 0 up (R403). The control block (log 20) and the channel state of a team core are
laid out by the hardware for its own use: their words are free values. -/
def Ctx.imageWords (c : Ctx) (control chans : Nat) (team : Bool) : Nat :=
  let x := c.imageRegs
  pack ((List.range 64).map (fun i => (8, (x.s.getD i 0).toNat)) ++ (List.range 16).map (fun i => (256, (x.p.getD i 0).toNat)) ++
    x.cq.toList.map (fun q => (256, pack (q.map fun v => (4, v.toNat)))) ++ x.cb.toList.map (fun v => (32, v.toNat)) ++
    x.ft.toList.map (fun v => (16, v.toNat)) ++ [(1024, pack (c.snapshot.map fun e => (16, e))), (256, control)] ++
    (List.range c.vregs).map (fun i => (2048, (x.v.getD i 0).toNat)) ++ if team then [(1024, chans)] else [])

/-- 64-bit words of an image (R403). -/
def imageSize (vregs : Nat) (team : Bool) : Nat := 1024 + 256 * vregs + if team then 128 else 0

/-- The rows of the save image of a stopped context: word 31 of the control block holds the checksum of every other word (R403). -/
def Ctx.imageRows (c : Ctx) (control : BitVec 1984) (chans : BitVec 8192) (team : Bool) : List Row :=
  let x := c.imageWords control.toNat chans.toNat team
  let n := imageSize c.vregs team
  let sum := checksumFrom x 0 n 0
  let y := x + sum * 2 ^ (64 * 1023)
  (List.range (n / 32)).map fun i => BitVec.ofNat 2048 (nbytes y (256 * i) 256)

/-- Rows of a save image (R70). -/
def saveRows (vregs : Nat) (team : Bool) : Nat := imageSize vregs team / 32

/-- The home quad of a task that holds granules (R365), or that is saved while it waits for one (R358). -/
def State.homeQuad (s : State) (t : Word) (lock : Bool) : Option Nat := if s.holdsAny t || lock then (s.journal? t).map (·.quad) else none

/-- Stop a context at a bundle boundary and build its saved form, whose rows lie where they are named (R401, R403). The saved PC is the next bundle to
dispatch. -/
def State.savedForm (s : State) (key : Nat) (rows : List SaveRow) (ready : Bool) (log : List LogItem) : Saved × State :=
  let x := s.ctx key
  let team := decide (x.logical ≠ 0xFF)
  let c := { (x.stopped s.now).counted with chunks := [], pc := s.nextBundle key, seq := false, begun := false, roomSince := none }
  let a := s.freeVal 1984
  let b := a.2.freeVal 8192
  let chans := if team then (b.2.core (coreOf key)).chans else []
  (⟨rows, c, coreOf key, ready, b.2.homeQuad c.ticket (c.lockFor.isSome), log, chans, team, c.imageRows a.1 b.1 team⟩, b.2)

/-- A context whose work went elsewhere is free, and gives up its monitor entry (R332). -/
def State.vacate (s : State) (key : Nat) : State :=
  let q := quadOf key
  let s := if (s.quad q).monitor.any fun e => decide (e.ctxKey = some key) then
      (s.modQuad q fun x => { x with monitor := x.monitor.filter fun e => decide (e.ctxKey ≠ some key) }).showMonitor q else s
  s.modCtx key fun c => { Ctx.reset with chunks := c.chunks }

/-- What comes of a save: its rows have been written; it waits for room (R76); it waits for memory whose arrays must leave retention first; or a row lies
outside every window or cannot be written. -/
inductive SaveRes where
  | done (s : State)
  | noRoom
  | wait (part quad : Nat) (rows : List SaveRow)
  | bad (addr : Nat)

/-- Ask for what the rows of a save wait for. -/
def State.wakeRows (s : State) (part q : Nat) (l : List SaveRow) : State := l.foldl (fun (s : State) r => s.wakeRow part q r) s

/-- Save a context for the scheduler with the items already in its log (R64, R76, R346, R404): into the partition's save area, or its spill region when
that is full. A save is never split between the two (DESIGN CHOICE; log 29). Nothing when neither has room: the stop waits. -/
def State.saveCtx (s : State) (key : Nat) (ready : Bool) (log : List LogItem) : SaveRes :=
  let c := s.ctx key
  let team := decide (c.logical ≠ 0xFF)
  let items := log.flatMap LogItem.image
  match s.saveSpots c.part (saveRows c.vregs team + items.length) with
  | none => .noRoom
  | some spots =>
    let at_ := spots.map fun r => (r, s.saveSpot c.part.toNat (quadOf key) r)
    match at_.find? fun e => match e.2 with | .fail _ | .regs _ => true | .mem _ | .absent | .link | .hold => false with
    | some e => .bad (s.saveAddr c.part.toNat e.1)
    | none =>
      if at_.any fun e => match e.2 with | .mem _ => false | .fail _ | .regs _ | .absent | .link | .hold => true then
        .wait c.part.toNat (quadOf key) spots
      else
        let x := s.savedForm key spots ready log
        let s := x.2.putSave c.part.toNat (quadOf key) (spots.zip (x.1.image ++ items))
        .done ({ s with saved := s.saved ++ [x.1] }.vacate key)

/-- A save that cannot be written leaves the context stopped and unsaved, and posts LOCAL_RANGE to the partition's fault queue (R404), in the name of the
task that issued it, 0 for the Organ (R409). -/
def State.saveFails (s : State) (key addr : Nat) (issuer : Word) : State :=
  let c := s.ctx key
  (s.setCtx key { (c.stopped s.now) with life := Life.stopped }).postFault { cause := cLocalRange, src := 7, part := c.part.toNat, job := none, addr := addr, ticket := issuer }

/-- Count an overrun (R68, R76): nothing when it has no length. -/
def State.overrun (s : State) (part cycles : Nat) : State := if cycles = 0 then s else (s.count .povr part 31 0 1).count .povr part 63 32 cycles

/-- Save a context, or leave it stopped at its stop point until there is room, a wait that is counted as overrun (R76). -/
def State.saveOrWait (s : State) (key : Nat) (ready : Bool) : State :=
  let c := s.ctx key
  match s.saveCtx key ready [] with
  | .done t => t.overrun c.part.toNat (s.now - c.roomSince.getD s.now)
  | .noRoom => s.modCtx key fun c => { (c.stopped s.now) with stopReq := true, roomSince := some (c.roomSince.getD s.now) }
  | .wait p q l => (s.wakeRows p q l).modCtx key fun c => { (c.stopped s.now) with stopReq := true }
  | .bad addr => s.saveFails key addr 0

/-- The condition bit of a logged QTRY takes its value (R346). -/
def Ctx.replayCond (c : Ctx) (x : LogItem) : Ctx := match x.cond with | some e => c.setC e.1 e.2 | none => c

/-- A logged result lands at restore (R346). -/
def Ctx.replay (c : Ctx) (x : LogItem) : Ctx :=
  let c := c.replayCond x
  match x.landing with
  | some l =>
    match l.value with
    | some v =>
      let c := c.setDst l.dst v
      match l.poison, l.dst with
      | some row, .s r => { c with sPoison := setBit c.sPoison r.val (decide (r ≠ 0)), poisonRow := BitVec.ofNat 64 row }
      | some row, .v r => { c with vPoison := setBit c.vPoison r.val true, poisonRow := BitVec.ofNat 64 row }
      | _, _ => c
    | none => c
  | none => c

/-- What a test of the word of a sleeping WAITA comes to: it passes or fails; an array holds it (R413); or the row can no longer be reached (R262, R352). -/
inductive WordTest where
  | tested (pass : Bool) (s : State)
  | held (s : State)
  | range

/-- Test the word at a memory key for a sleeping WAITA of a task (R141, R332): a path-C access of the task (R320, R413), which reads its journal copy of
the row (R359). A poisoned row gives a free value (log 3). -/
def State.testWord (s : State) (ticket : Word) (part addr : Nat) (val : Word) (mode : Fin 4) : WordTest :=
  match s.reach part 0 (addr - 2 ^ 52) with
  | .range => .range
  | .hold arr => .held (match arr with | some x => s.startExit x | none => s)
  | .ok a =>
    let own := (s.journal? ticket).bind fun j => j.copyOf (rowOf a)
    let bad := match own with | some r => r.2 | none => s.mem.poisoned addr
    let w := if bad then (s.touch a).freeVal 64
      else (match own with | some r => BitVec.ofNat 64 (nbytes r.1.toNat (a % 256) 8) | none => s.mem.word addr, s.touch a)
    .tested (waitTest w.1 val mode) w.2

/-- A restored context that slept in a monitor table tests its word once, and sleeps again when the test fails (R332). A test that an array holds is made
when it can be (R413), and one that cannot reach its row traps with LOCAL_RANGE (R352; log 45). -/
def State.sleepAgain (s : State) (key : Nat) : State :=
  let c := s.ctx key
  match c.life, c.wait with
  | .running, .word _ addr val mode =>
    let q := quadOf key
    let again (s : State) (next : Nat) : State :=
      if (s.quad q).monitor.length < 64 then
        let n := s.fresh
        ((n.2.modCtx key fun c => { c with wait := .word none addr val mode }).modQuad q fun x =>
          { x with monitor := x.monitor ++ [MonEntry.mk n.1 addr val mode (some key) none c.part c.prio 0 next] }).showMonitor q
      else (s.count .monstat q 63 32 1).modCtx key fun c => { c with wait := .word (some (if next = 0 then s.now + s.pollGap q else next)) addr val mode }
    match s.testWord c.ticket c.part.toNat addr val mode with
    | .tested true s => s.modCtx key fun c => { c with wait := .none }
    | .tested false s => again s 0
    | .held s => again s (s.now + 1)
    | .range => s.takeTrap key cLocalRange 0 0 c.pc c.pc (BitVec.ofNat 64 (addr - 2 ^ 52)) 0
  | _, _ => s

/-- A restored context dispatches for the first time (R405): the results of its snapshot count from this cycle. -/
def Ctx.anchored (c : Ctx) (now : Nat) : Ctx :=
  if c.anchor then { c with anchor := false, inflight := c.inflight.map fun l => if l.fromSnapshot then { l with due := l.due + now } else l } else c

/-- Whether a result counts its time already: one of a snapshot does from the context's first dispatch (R405). -/
def Ctx.comes (c : Ctx) (l : Landing) : Bool := !(c.anchor && l.fromSnapshot)

/-- Whether a saved context waits for results to land before it can dispatch or leave: SUSPEND, DRAIN and a WAITA in a monitor table. -/
def Ctx.waitsLanding (c : Ctx) : Bool :=
  match c.wait with
  | .suspend _ | .drain _ | .word none _ _ _ => true
  | .none | .fetch _ | .barrier _ _ | .arm | .pool | .lock _ | .word (some _) _ _ _ | .tlb _ | .argument | .release => false

/-- Restore a saved context (R405): its registers, then the arrival log in order, then the receives that have not popped (R346). The results of its
snapshot count from `start`, or from its first dispatch; those of a context that dispatches nothing before they land count from the restore (DEDUCED: R405
gives no other cycle to them; log 20). A zero byte at the restored PC is no padding (R85). -/
def State.restore (s : State) (x : Saved) (key : Nat) (start : Option Nat) : State :=
  let c : Ctx := { x.ctx with
    life := if x.ctx.life = .stopped then .running else x.ctx.life
    chunks := (s.ctx key).chunks
    watch := s.now
    stopReq := false }
  let c := match start with
    | some t => c.anchored t
    | none => if c.waitsLanding then c.anchored s.now else c
  (((s.setCtx key (x.log.foldl Ctx.replay c)).serveRecvs key).sleepAgain key).settle

/-! ### Stopping a team -/

/-- Change the team of a job. -/
def State.modTeam (s : State) (job : Nat) (f : Team → Team) : State := s.modJob job fun j => { j with team := j.team.map f }
/-- The context key of a place. -/
def placeKey (p : Place) : Nat := p.core.val * 8 + p.ctx.val
/-- Whether a context belongs to the team of a job. -/
def Ctx.ofTeam (c : Ctx) (job : Nat) : Bool := decide (c.life ≠ .free ∧ c.logical ≠ 0xFF ∧ c.job.toNat = job)

/-- Send a stop request to a running team (R67): its cores stop at once, and what is in flight drains. -/
def State.stopTeam (s : State) (job : Nat) : State :=
  match (s.job? job).bind (·.team) with
  | none => s
  | some t =>
    if t.phase ≠ .running then s
    else
      let s := t.places.foldl (fun (s : State) p => s.modCtx (placeKey p) fun c =>
        if c.ofTeam job && decide (c.life = .running) then { (c.stopped s.now) with stopReq := true } else c) s
      s.modTeam job fun t => { t with phase := .stopping, stopAt := some s.now }

/-- The first team of a partition that arrives at a POD barrier holds its id until the release (R330). -/
def State.holdPod (s : State) (job id : Nat) : State :=
  let part := ((s.job? job).map Job.part).getD 0
  if (tget s.podHolders (part, id)).isSome then s else { s with podHolders := tset s.podHolders (part, id) job }

/-- An arrival at a barrier (R144, R329). -/
def State.arrive (s : State) (scope id job key : Nat) : State :=
  let s := { s with barriers := s.barriers ++ [(scope, id, job, key)] }
  if scope = 5 then s.holdPod job id else s

/-- Stop a context at a bundle boundary for its save (R408): a trap that is due is taken first. -/
def State.stopAt (s : State) (key : Nat) (ready : Bool) : State :=
  let s := s.boundary key
  if (s.ctx key).life = .free then s else s.saveOrWait key ready

/-- A context whose card is held leaves its core once its bundle has committed (R56): it is saved, and not ready before the card enters. A team leaves as a
whole (R22; log 31). -/
def State.leaveFull (s : State) (key : Nat) : State :=
  let c := s.ctx key
  if c.wait ≠ .pool then s
  else
    let s := s.modCtx key fun c => { c with wait := .none }
    if c.logical ≠ 0xFF then s.stopTeam c.job.toNat else s.stopAt key false

end Sys2Proof.Machine
end

