-- ==== Sys2Proof/Machine/PathC.lean ====
section
/-!
DEFINITION. PathC: the loads and stores of a task (R110, R261 to R263, R267, R353, R354, R359).
-/
namespace Sys2Proof.Machine

/-- Resolve the rows of a path-C access in order (R261, R262): the first address out of range, else whether some access is held (and the exits
from retention that it starts), else the absolute addresses. -/
inductive Rows where
  | range (a : Nat)
  | held (l : List ArrayId)
  | ok (l : List Nat)
deriving DecidableEq, Repr

/-- See `Rows`. -/
def State.resolve (s : State) (part q : Nat) (l : List Nat) : Rows :=
  let r := l.map fun a => (a, s.reach part q a)
  match r.find? fun e => decide (e.2 = .range) with
  | some e => .range e.1
  | none =>
    if r.any fun e => match e.2 with | .hold _ => true | _ => false then
      .held (r.filterMap fun e => match e.2 with | .hold (some x) => some x | _ => none)
    else .ok (r.filterMap fun e => match e.2 with | .ok a => some a | _ => none)

/-- A path-C access of the bundle's task to local rows (R267, R354): a FENCE may hold it, a bad address traps with LOCAL_RANGE, an array in
retention or being zeroed holds it, and it waits until every granule it needs is granted; without an armed journal it traps instead. -/
def State.pathC (s : State) (l : List Nat) (f : List Nat → State → State) : State :=
  let c := s.issue.src
  if (decide (s.issue.slot = .mem) && s.pushing) || s.fenced 0 then s.waits
  else match s.resolve c.part.toNat (quadOf s.issue.key) l with
    | .range a => s.trapSlot cLocalRange (BitVec.ofNat 64 a) 0
    | .held arrays => (arrays.foldl (fun s a => s.startExit a) s).waits
    | .ok addrs =>
      match s.needed c false addrs with
      | some g =>
        if ((s.journal? c.ticket).map (·.armed)).getD false then (s.request g c.ticket c.run (some s.issue.key)).waits
        else s.trapSlot cJournalFull 0 0
      | none => f addrs s

/-- A row as a load of the bundle reads it (R110, R359): the journal copy when the task has one, else memory, both before any store of the
bundle. Answers the row and the address that poisons it. -/
def State.loadRow (s : State) (a : Nat) : Row × Option Nat :=
  match ((s.issue.jnl.map (·.copies)).getD []).find? fun e => decide (e.1 = rowOf a) with
  | some e => (e.2.1, if e.2.2 then some (rowOf a) else none)
  | none => (s.issue.mem.row (localKey (rowOf a)), if s.issue.mem.poisoned (localKey a) then some (rowOf a) else none)

/-- The load latency of R266 for an access of a core to an absolute local address. -/
def loadLatency (key a : Nat) : Nat :=
  match scratchQuad? a with
  | some q => if q = quadOf key then 24 else if q / 8 = dieOf key then 60 else 220
  | none => if bigDie a = dieOf key then 90 else 220

/-- Note the accesses for retention (R413). -/
def State.touchAll (s : State) (l : List Nat) : State := l.foldl (fun s a => s.touch a) s

/-- A store of rows of the bundle's task (R267): each row with its data and byte mask, in ascending order of row. A store into a held granule needs
a journal row, and traps with JOURNAL_FULL when none is left (R353). -/
def State.storeAll (s : State) (rows : List (Nat × Row × BitVec 256)) : State :=
  let c := s.issue.src
  let s' := rows.foldl (fun s e => s.writeC c e.1 e.2.1 e.2.2) s
  match s'.journal? c.ticket with
  | some j => if j.fits then s' else s.trapSlot cJournalFull 0 0
  | none => s'

/-- A row read whole by SPAWN, LAUNCH, CHCFG or WAITA, a poisoned one as free values (log 3). -/
def State.rowValue (s : State) (a : Nat) : Row × State :=
  let r := s.loadRow a
  match r.2 with
  | none => (r.1, s.touch a)
  | some _ => (s.touch a).freeVal 2048

end Sys2Proof.Machine
end

