-- ==== Sys2Proof/Machine/Work.lean ====
section
/-!
DEFINITION. Work: the ranges of a DEAL job (R52 to R54), argument records (R50), and the work a free context finds (R62, R63, R66).
-/
namespace Sys2Proof.Machine

/-- Cores of a partition on a die (R2, R52). -/
def State.coresOn (s : State) (part d : Nat) : Nat := 4 * ((List.range 8).filter fun i => decide (s.quadPart (8 * d + i) = part)).length
/-- Cores of a partition. -/
def State.coresOf (s : State) (part : Nat) : Nat := ((List.range 4).map fun d => s.coresOn part d).sum

/-- CHUNKDIV, CHUNKMIN, ARGBASE, ARGSIZE, ENTRY and IMAGE of a job (R48). -/
def Job.chunkDiv (j : Job) : Nat := nbytes j.card.toNat 24 2
/-- See R48. -/
def Job.chunkMin (j : Job) : Nat := nbytes j.card.toNat 26 2
/-- See R48. -/
def Job.argBase (j : Job) : Nat := nbytes j.card.toNat 8 8
/-- See R48. -/
def Job.argSize (j : Job) : Nat := nbytes j.card.toNat 16 4
/-- See R48. -/
def Job.entry (j : Job) : Offset := BitVec.ofNat 24 (nbytes j.card.toNat 4 4)
/-- See R48. -/
def Job.image (j : Job) : BitVec 8 := BitVec.ofNat 8 (nbytes j.card.toNat 3 1)

/-- The range of a job at a die (R52). -/
def State.range (s : State) (j d : Nat) : Nat × Nat := tgetD s.ranges (j * 4 + d) (0, 0)
/-- Replace a range. -/
def State.setRange (s : State) (j d : Nat) (r : Nat × Nat) : State := { s with ranges := tset s.ranges (j * 4 + d) r }

/-- Split the records of a DEAL job over the dies (R52); with no core in the partition the whole range waits unsplit. -/
def State.dealSplit (s : State) (job : Nat) : State :=
  match s.job? job with
  | none => s
  | some j =>
    let n := s.coresOf j.part
    if n = 0 then s.modJob job fun x => { x with unsplit := true }
    else
      let nd := (List.range 4).map fun d => s.coresOn j.part d
      let base := nd.map fun k => j.argCount * k / n
      let rem := j.argCount - base.sum
      let on := (List.range 4).filter fun d => decide (0 < nd.getD d 0)
      let share := fun d => base.getD d 0 +
        ((List.range rem).filter fun i => decide (on.getD (i % on.length) 4 = d)).length
      let step := fun (acc : State × Nat) d => (acc.1.setRange job d (acc.2, acc.2 + share d), acc.2 + share d)
      ((List.range 4).foldl step (s.modJob job fun x => { x with unsplit := false }, 0)).1

/-- The chunk a context of die `d` takes from a range (R53). -/
def chunkSize (rem f nd mn : Nat) : Nat := min rem (max (cdiv rem (f * nd)) (max mn 1))

/-- Take a chunk of a job from the range of a die (R53). -/
def State.takeChunk (s : State) (job d key : Nat) : State :=
  match s.job? job with
  | none => s
  | some j =>
    let r := s.range job d
    if r.2 ≤ r.1 then s
    else
      let k := chunkSize (r.2 - r.1) j.chunkDiv (s.coresOn j.part d) j.chunkMin
      (s.setRange job d (r.1 + k, r.2)).modCtx key fun c => { c with chunks := (job, r.1, r.1 + k) :: c.chunks }

/-- Records left in the range of a job at a die. -/
def State.rangeLeft (s : State) (job d : Nat) : Nat := (s.range job d).2 - (s.range job d).1

/-- The die whose range of a job has most records left, the lowest on a tie (R54). -/
def State.victim (s : State) (job : Nat) : Nat :=
  ((List.range 4).find? fun v => (List.range 4).all fun w => decide (s.rangeLeft job w ≤ s.rangeLeft job v)).getD 0

/-- Steal the upper half of the largest range for a die whose own is empty (R54). -/
def State.stealRange (s : State) (job d : Nat) : State :=
  let v := s.victim job
  if 0 < s.rangeLeft job d ∨ s.rangeLeft job v = 0 then s
  else
    let hi := (s.range job v).2
    let lo := hi - cdiv (s.rangeLeft job v) 2
    (s.setRange job d (lo, hi)).setRange job v ((s.range job v).1, lo)

/-- The result of reading an argument record (R50). -/
inductive ArgRes where
  | ok (words : List Word)
  | absent (va : Nat)
  | link
  | fail (cause : Cause) (va : Nat)
deriving DecidableEq, Repr

/-- Read `n` words of an argument record through a partition's translations (R50). A word that crosses a row or a page is read from the translation of
its first byte, whose row alone is tested for poison (DESIGN CHOICE: ARGBASE has no stated alignment; log 16). -/
def State.readArgs (s : State) (part va : Nat) : Nat → ArgRes
  | 0 => .ok []
  | n + 1 =>
    match s.spotVa part va 1 with
    | .mem k =>
      if s.mem.poisoned k then .fail cPoison va
      else match s.readArgs part (va + 8) n with
        | .ok l => .ok (s.mem.word k :: l)
        | .absent a => .absent a
        | .link => .link
        | .fail c a => .fail c a
    | .absent => .absent va
    | .link => .link
    | .regs _ | .hold => .fail cPerm va
    | .fail c => .fail c va

/-- Note the first task of a job (R421). -/
def State.firstTask (s : State) (job : Nat) : State := s.modJob job fun x => { x with first := some (x.first.getD s.tbase.toNat) }

/-- Park the argument read of a context (R50, R293, R426): the context waits for it. -/
def State.parkArgument (s : State) (key job va : Nat) (link : Bool) : State :=
  let part := ((s.job? job).map Job.part).getD 0
  let s := s.modCtx key fun c =>
    { Ctx.reset with chunks := c.chunks, job := BitVec.ofNat 12 job, life := .running, wait := .argument, vregs := s.jobVregs job }
  if link then s.parkLink part va (.argument key)
  else s.park part va (some job) 0 6 0 0 (.argument key)

/-- The chunks of a context when the next record of its chunk of a job has been started or given up (R53): an empty chunk is gone. -/
def Ctx.dropRecord (c : Ctx) (job : Nat) : List (Nat × Nat × Nat) :=
  c.chunks.filterMap fun e => if e.1 ≠ job then some e else if e.2.1 + 1 < e.2.2 then some (e.1, e.2.1 + 1, e.2.2) else none

/-- Start the next record of the chunk of a job that a context holds (R50, R53): its ticket is stamped by the base die of the context's die (R25).
The scalars after the one that holds i, up to s6, start at zero (DESIGN CHOICE: the spec gives none for an argument record shorter than 48 bytes; log 16). -/
def State.startChunkRecord (s : State) (key job : Nat) : State :=
  match tget (s.ctx key).chunks job with
  | none => s
  | some (lo, _) =>
    match s.job? job with
    | none => s.modCtx key fun c => { c with chunks := c.chunks.filter fun e => decide (e.1 ≠ job) }
    | some j =>
      let rest := (s.ctx key).dropRecord job
      let va := j.argBase + lo * j.argSize
      match s.readArgs j.part va (j.argSize / 8) with
      | .absent a => s.parkArgument key job a false
      | .link => s.parkArgument key job va true
      | .fail c a =>
        (s.postFault { cause := c, src := 5, part := j.part, job := some job, addr := a }).modCtx key fun x =>
          { x with chunks := rest, life := .free, wait := .none }
      | .ok l =>
        match s.stampDie (dieOf key) j.prio with
        | none => s
        | some x =>
          let args := if j.argSize < 48 then l ++ [BitVec.ofNat 64 lo] else l
          let s := x.2.startRec key ⟨x.1, j.entry, j.image, BitVec.ofNat 12 job, 0, 0, args⟩ (BitVec.ofNat 32 lo) j.part j.prio j.vregs 0xFF
          (s.modCtx key fun c => { c with chunks := rest }).firstTask job

/-- What a free context takes (R63), in order of class. -/
inductive Work where
  | saved (i : Nat)
  | record (job : Nat)
  | queued (level i : Nat)
  | returned (job i : Nat)
  | chunk (job : Nat)
deriving DecidableEq, Repr

/-- The record of a task queue that a context of a quad takes (R62): the oldest tagged with its quad, else the first untagged. -/
def queuePick (l : List (ContRec × Option Nat)) (quad : Nat) : Option Nat :=
  (l.findIdx? fun e => decide (e.2 = some quad)).orElse fun _ => l.findIdx? fun e => decide (e.2 = none)

/-- Everything a free context could take, with its level and class (R63). A record or a chunk that is next in order and has no window room on the
context's core is passed over, and work of a later class or a lower level is taken (DESIGN CHOICE: outside class 1 the spec is silent; log 16). -/
def State.workList (s : State) (key : Nat) : List (Nat × Nat × Work) :=
  let core := coreOf key
  let part := s.quadPart (quadOf key)
  let fits := fun j => s.windowRoom core (s.jobVregs j)
  let c1 := s.saved.zipIdx.filterMap fun e =>
    let x := e.1
    if x.ready && !x.team && decide (x.ctx.part.toNat = part) && s.windowRoom core x.ctx.vregs && decide (x.homeQuad = none ∨ x.homeQuad = some (quadOf key))
    then some (x.ctx.prio.toNat, 1, Work.saved e.2) else none
  let c2 := (s.ctx key).chunks.filterMap fun e => if fits e.1 then some (((s.job? e.1).map Job.prio).getD 0, 2, Work.record e.1) else none
  let c3 := (List.range 32).filterMap fun level =>
    let l := tgetD s.taskQueues (queueKey part level) []
    (queuePick l (quadOf key)).bind fun i => match l[i]? with
      | some r => if fits r.1.job.toNat then some (level, 3, Work.queued level i) else none
      | none => none
  let mine := s.jobs.filter fun e => decide (e.2.part = part) && !e.2.gang && fits e.1
  let c4 := mine.filterMap fun e => if e.2.returned.isEmpty then none else some (e.2.prio, 4, Work.returned e.1 0)
  let c5 := mine.filterMap fun e =>
    if (List.range 4).any fun d => decide ((s.range e.1 d).1 < (s.range e.1 d).2) then some (e.2.prio, 5, Work.chunk e.1) else none
  let floor := s.reserved core
  (c1 ++ c2 ++ c3 ++ c4 ++ c5).filter fun w => match floor with | some f => decide (f < w.1) | none => true

/-- Whether a context is free for work: no ARM of its core waits for a context (R142). -/
def State.freeFor (s : State) (key : Nat) : Bool :=
  decide ((s.ctx key).life = .free) && (s.quad (quadOf key)).zeroEnd.isNone &&
    !((List.range 8).any fun i =>
      let c := s.ctx (coreOf key * 8 + i)
      decide (c.wait = .arm))

/-- Whether a context may take work: it is free for it, and its quad is not moving (R72, R73). -/
def State.mayTake (s : State) (key : Nat) : Bool := s.freeFor key && !s.quadMoving (quadOf key)

/-- The Roundabout that chooses a job within one partition and level (R61): one for each die, of whose contexts it is (DESIGN CHOICE: R61 does not say
whether there is one for the module, or for a steal served elsewhere; log 16). -/
def Die.jobRa (d : Die) (part lvl : Nat) : Roundabout := tgetD d.jobRas (part * 32 + lvl) ⟨0, 1⟩

/-- The first non-empty class at the highest level (R63); jobs of one partition and level are chosen by the job Roundabout of the context's die (R61).
Of several saved contexts or returned chunks of one level the first of its list is taken (DESIGN CHOICE: the spec names no order; log 16). -/
def State.bestWork (s : State) (key : Nat) : Option (Nat × Work × Roundabout) :=
  let l := s.workList key
  match (l.map (·.1)).max? with
  | none => none
  | some lvl =>
    let ra := (s.die (dieOf key)).jobRa (s.quadPart (quadOf key)) lvl
    let at_ := l.filter fun w => decide (w.1 = lvl)
    match (at_.map (·.2.1)).min? with
    | none => none
    | some cls =>
      let ws := (at_.filter fun w => decide (w.2.1 = cls)).map (·.2.2)
      if cls = 5 then
        let x := ra.grant 4096 (fun _ => 1) (ws.filterMap fun w => match w with | .chunk j => some j | _ => none)
        x.1.map fun j => (lvl, .chunk j, x.2)
      else ws.head?.map fun w => (lvl, w, ra)

/-- Take a new chunk for a context: from its die's range, refilled by a steal when it is empty (R53, R54). -/
def State.takeNewChunk (s : State) (job key lvl : Nat) (ra : Roundabout) : State :=
  let d := dieOf key
  let slot := s.quadPart (quadOf key) * 32 + lvl
  let s := s.modDie d fun x => { x with jobRas := tset x.jobRas slot ra }
  let r := s.range job d
  (if r.1 < r.2 then s else s.stealRange job d).takeChunk job d key

/-- Give a context the work of a level chosen for it (R63): a chunk with its first record (R53). A chunk that it holds already it keeps. A record of a
task queue has no TASKID (R13, R18; log 24). -/
def State.giveWork (s : State) (key lvl : Nat) (w : Work) (ra : Roundabout) : State :=
  match w with
  | .saved i =>
    match s.saved[i]? with
    | some x => { s with saved := s.saved.eraseIdx i }.restore x key none
    | none => s
  | .record job => s.startChunkRecord key job
  | .queued level i =>
    let k := queueKey (s.quadPart (quadOf key)) level
    let l := tgetD s.taskQueues k []
    match l[i]? with
    | none => s
    | some r =>
      let s := { s with taskQueues := tset s.taskQueues k (l.eraseIdx i) }
      s.startRec key r.1 0xFFFFFFFF (s.quadPart (quadOf key)) level (s.jobVregs r.1.job.toNat) 0xFF
  | .returned job i =>
    match (s.job? job).bind fun j => j.returned[i]? with
    | none => s
    | some r => ((s.modJob job fun j => { j with returned := j.returned.eraseIdx i }).modCtx key fun c => { c with chunks := (job, r.1, r.2) :: c.chunks }).startChunkRecord key job
  | .chunk job => (s.takeNewChunk job key lvl ra).startChunkRecord key job

/-- Whether other work waits for a context at its task's priority or higher, records of its own chunk not counted (R138). The core looks as R63 says also
on a MOVING quad, which then takes none of it (R73; log 28). -/
def State.otherWork (s : State) (key prio : Nat) : Bool :=
  let s := s.modCtx key fun c => { c with life := .free }
  ((List.range 8).map (coreOf key * 8 + ·)).any fun k =>
    s.freeFor k && (s.workList k).any fun w => decide (prio ≤ w.1) &&
      (decide (k ≠ key) || (match w.2.2 with | .record _ => false | .saved _ | .queued _ _ | .returned _ _ | .chunk _ => true))

end Sys2Proof.Machine
end

