-- ==== Sys2Proof/Machine/Ctl.lean ====
section
/-!
DEFINITION. Ctl: the meanings of the CTL operations (R122 to R147). Those that end or leave a bundle's flow run after the bundle's other slots
have run and the context's pc and XFER have moved on (log 10).
-/
namespace Sys2Proof.Machine

/-- NOP.C (R94). -/
def execNopC (s : State) : Out := s.slotNop

/-- PREP (R122): relative to the bundle. -/
def execPrep (t : Fin 4) (off : BitVec 22) (s : State) : Out :=
  .next (s.slot [] [] fun _ s => s.own fun c => c.setBt t (s.issue.pc + off.signExtend 24))

/-- PREPS (R122). -/
def execPreps (t : Fin 4) (a : Fin 64) (s : State) : Out :=
  .next (s.slot [.s a] [] fun c s => s.own fun x => x.setBt t ((c.getS a).setWidth 24))

/-- Wait for the code page of an offset (R78). -/
def State.waitPage (s : State) (o : Offset) : State := (s.own fun c => { c with wait := .fetch o }).waits

/-- NextSeq of the second delay bundle (R123): the first is where the context's fetch continues, past padding when it is sequential (R84). When this walk
meets a page that is poisoned or cannot be read, FETCH is taken with the saved PC at the transfer, which has not committed (DESIGN CHOICE: R78 does not say
which bundle traps; log 16). -/
def State.afterDelay (s : State) (f : Offset → State → State) : State :=
  let key := s.issue.key
  match if s.me.seq then s.skipPad key s.me.pc 262145 else .found s.me.pc with
  | .miss p => s.waitPage p
  | .found d1 =>
    match s.nextSeq key d1 with
    | .miss p => s.waitPage p
    | .found d2 =>
      match s.nextSeq key d2 with
      | .miss p => s.waitPage p
      | .found o => f o s

/-- A transfer (R123, R126): taken or not, two delay bundles follow, and XFER.TARGET is where fetch continues after them. -/
def State.transfer (s : State) (take : Bool) (tgt : Offset) : State :=
  if take then s.own fun c => { c with xfer := xferOf tgt 2 true }
  else s.afterDelay fun o s => s.own fun c => { c with xfer := xferOf o 2 false }

/-- BR (R123). -/
def execBr (c : Fin 8) (t : Fin 4) (s : State) : Out := .next (s.slot [.c c] [] fun x s => s.transfer (x.getC c) (x.getBt t))
/-- BRN (R123). -/
def execBrn (c : Fin 8) (t : Fin 4) (s : State) : Out := .next (s.slot [.c c] [] fun x s => s.transfer (!x.getC c) (x.getBt t))
/-- JMP (R123). -/
def execJmp (t : Fin 4) (s : State) : Out := .next (s.slot [] [] fun x s => s.transfer true (x.getBt t))
/-- CALL (R123): s63 receives NextSeq of the second delay bundle. -/
def execCall (t : Fin 4) (s : State) : Out :=
  .next (s.slot [] [.s 63] fun x s => s.afterDelay fun o s => (s.transfer true (x.getBt t)).own fun c => c.setS 63 (o.setWidth 64))
/-- RET (R123). -/
def execRet (s : State) : Out := .next (s.slot [.s 63] [] fun x s => s.transfer true ((x.getS 63).setWidth 24))

/-- Arm a hardware loop (R129). A count of 0 skips the body: fetch continues after the bundle at LEND, whose header is decoded now. A LEND
outside the image or with the header 0x00 traps with FSLOTS naming the CTL slot, and one whose page is poisoned or cannot be read with FSLOTS 0 (DESIGN CHOICE: the
spec does not say which; log 16). -/
def State.armLoop (s : State) (l : Fin 4) (cnt : BitVec 32) (fin : BitVec 12) : State :=
  let lend := s.issue.pc + fin.setWidth 24
  match s.nextSeqLen s.issue.key s.issue.pc s.issue.len with
  | .miss p => s.waitPage p
  | .found beg =>
    let s := s.own fun c => { c with lc := c.lc.set l ⟨cnt, beg, lend, 0⟩ }
    if cnt ≠ 0 then s
    else match s.codeByte s.issue.key lend with
      | none =>
        if s.inImage s.me.part.toNat s.me.image lend.toNat then s.waitPage lend else s.trapSlot cFetch (lend.setWidth 64) 0
      | some h =>
        if h = 0 then s.trapSlot cBadTarget (lend.setWidth 64) 0
        else match s.nextSeqLen s.issue.key lend (bundleLength h) with
          | .miss p => s.waitPage p
          | .found o => { s with issue := { s.issue with skip := some o } }

/-- LOOP (R129). -/
def execLoop (l : Fin 4) (a : Fin 64) (fin : BitVec 12) (s : State) : Out :=
  .next (s.slot [.s a] [] fun c s => s.armLoop l (BitVec.ofNat 32 (min (c.getS a).toNat 0xFFFFFFFF)) fin)
/-- LOOPI (R129). -/
def execLoopi (l : Fin 4) (n : BitVec 10) (fin : BitVec 12) (s : State) : Out :=
  .next (s.slot [] [] fun _ s => s.armLoop l (n.setWidth 32) fin)
/-- LOOPQ (R129, R130). -/
def execLoopq (l q : Fin 4) (fin : BitVec 12) (s : State) : Out :=
  .next (s.slot [] [] fun _ s => s.popCount q fun v s => s.armLoop l v fin)
/-- LBRK (R133). -/
def execLbrk (l : Fin 4) (s : State) : Out :=
  .next (s.slot [] [] fun c s => s.own fun x =>
    if (c.lc[l]).cnt = 0 then x else { x with lc := x.lc.set l { x.lc[l] with cnt := 1 } })

/-- A task-control operation traps with PRIV in supervisor mode, as a double trap (R394). -/
def State.taskControl (s : State) (f : State → State) : State := if s.issue.src.sup then s.trapSlot cPriv 0 0 else f s

/-- Whether the bundle's task is a team context (R147). -/
def State.inTeam (s : State) : Bool := decide (s.issue.src.logical ≠ 0xFF)

/-- End the run of a task at its suspension point (R137): written out once s1 to s6 are full. -/
def State.suspendNow (s : State) : State :=
  match s.nextSeqLen s.issue.key s.issue.pc s.issue.len with
  | .miss p => s.waitPage p
  | .found o => (s.own fun c => { c with wait := .suspend o, pc := o }).writeOut s.issue.key o

/-- SUSPEND (R137, R147). -/
def execSuspend (s : State) : Out :=
  .next (s.taskControl fun s => if s.inTeam then s.trapSlot cPriv 0 0 else s.slot [] [] fun _ s => s.suspendNow)

/-- YIELD (R138, R147): a suspension point when other work waits, else a NOP. -/
def execYield (s : State) : Out :=
  .next (s.taskControl fun s => s.slot [] [] fun c s =>
    if !s.inTeam && s.otherWork s.issue.key c.prio.toNat then s.suspendNow else s)

/-- END (R139, R415): the bundle has committed; the steps of R415 follow as far as they can be taken now. -/
def execEndTask (s : State) : Out :=
  .next (s.taskControl fun s => s.slot [] [] fun _ s =>
    (s.own fun c => { c with life := .ending, wait := .none, stopReq := false }).finishEnd s.issue.key)

/-- The child of a SPAWN (R14, R140). -/
def childRec (c : Ctx) (img : Nat) (ticket : Word) (wexp : BitVec 7) : ContRec :=
  ⟨ticket, BitVec.ofNat 24 (nbytes img 8 3), c.image, c.job, wexp, 0,
    (List.range 6).map fun i => BitVec.ofNat 64 (nbytes img (16 + 8 * i) 8)⟩

/-- SPAWN (R28, R140, R147). -/
def execSpawn (a : Fin 64) (s : State) : Out :=
  .next (s.taskControl fun s => s.slot [.s a] [] fun c s =>
    let addr := (c.getS a).toNat % 2 ^ 40
    s.pathC [rowOf addr] fun l s =>
      if c.cflags.getLsbD 2 then s.trapSlot cSpawnDepth 0 0
      else if s.me.wexp = 63 then s.trapSlot cSpawnDepth 0 0
      else
        let r := s.rowValue (l.headD 0)
        let img := nbytes r.1.toNat (64 * (addr / 64 % 4)) 64
        match r.2.stampCore (coreOf s.issue.key) c.prio.toNat with
        | none => s.waits
        | some t =>
          let w := c.wexp + 1
          let child := childRec c img t.1 w
          if s.holdsAny c.ticket then
            match s.journal? c.ticket with
            | none => s
            | some j =>
              let j := { j with deferred := j.deferred ++ [.spawn child] }
              if j.fits then (t.2.setJournal c.ticket j).own fun x => { x with wexp := w } else s.trapSlot cJournalFull 0 0
          else
            ((t.2.pushRec c.part.toNat child).modJob c.job.toNat fun x => { x with spawns := (x.spawns + 1) % 2 ^ 32 }).own fun x =>
              { x with wexp := w, retained := x.retained.map fun r => { r with wexp := w } })

/-- A WAITA whose test has failed sleeps (R141, R332, R333): in an entry of the quad's table, from which a task other than a team's goes on at `o`; or in
place, when the table is full. What the bundle's own store has changed is tested again. -/
def State.sleep (s : State) (addr : Nat) (val : Word) (mode : Fin 4) (o : Offset) : State :=
  let q := quadOf s.issue.key
  if (s.quad q).monitor.length < 64 then
    let n := s.fresh
    let e : MonEntry := ⟨n.1, addr, val, mode, some s.issue.key, none, s.me.part, s.me.prio, 0, 0⟩
    let s := n.2.own fun x => { x with wait := .word none addr val mode, pc := if s.inTeam then x.pc else o }
    let s := ((s.modQuad q fun x => { x with monitor := x.monitor ++ [e] }).showMonitor q).sleepOut s.issue.key
    if s.mem.row (rowOf addr) = s.issue.mem.row (rowOf addr) then s else s.first [.monitorRetest (Fin.ofNat 32 q) n.1]
  else (s.count .monstat q 63 32 1).own fun x => { x with wait := .word (some (s.now + s.pollGap q)) addr val mode }

/-- WAITA (R141, R332, R333). -/
def execWaita (a b : Fin 64) (mode : Fin 4) (s : State) : Out :=
  .next (s.taskControl fun s => s.slot [.s a, .s b] [] fun c s =>
    let addr := (c.getS a).toNat % 2 ^ 40
    s.pathC [rowOf addr] fun l s =>
      let r := s.rowValue (l.headD 0)
      let s := r.2
      let k := addr / 8 % 32
      let w := BitVec.ofNat 64 (nbytes r.1.toNat (8 * k) 8)
      let key := localKey (l.headD 0) + 8 * k
      if waitTest w (c.getS b) mode then s
      else if s.inTeam || decide (64 ≤ (s.quad (quadOf s.issue.key)).monitor.length) then s.sleep key (c.getS b) mode 0
      else match s.nextSeqLen s.issue.key s.issue.pc s.issue.len with
        | .miss p => s.waitPage p
        | .found o => s.sleep key (c.getS b) mode o)

/-- ARM (R142): the context waits until a free context and window room exist on its core. -/
def execArm (a b : Fin 64) (s : State) : Out :=
  .next (s.taskControl fun s => s.slot [.s a, .s b] [] fun c s =>
    match s.armTarget s.issue.key with
    | none => (s.own fun x => { x with wait := .arm }).waits
    | some k =>
      let h : Ctx := { Ctx.reset with
        life := .dormant
        armed := some ((c.getS a).setWidth 24, (c.getS b).setWidth 8)
        job := c.job
        part := c.part
        image := c.image
        prio := c.prio
        vregs := s.jobVregs c.job.toNat
        chunks := (s.ctx k).chunks }
      ((s.own fun x => { x with wait := .none }).setCtx k h).deliverListed (coreOf k))

/-- LAUNCH (R55, R56, R143): a holder's card is deferred to END; a full pool holds the card, and the context leaves its core once
the bundle has committed. -/
def execLaunch (a : Fin 64) (s : State) : Out :=
  .next (s.taskControl fun s => s.slot [.s a] [] fun c s =>
    let addr := (c.getS a).toNat % 2 ^ 40 / 128 * 128
    s.pathC [rowOf addr] fun l s =>
      let r := s.rowValue (l.headD 0)
      let card := BitVec.ofNat 1024 (nbytes r.1.toNat (addr % 256) 128)
      if s.holdsAny c.ticket then
        match s.journal? c.ticket with
        | none => s
        | some j =>
          let j := { j with deferred := j.deferred ++ [.launch card] }
          if j.fits then r.2.setJournal c.ticket j else s.trapSlot cJournalFull 0 0
      else
        let full := decide (256 ≤ (s.pool.filter fun e => decide (e.1 = c.part)).length)
        let s := r.2.poolPush c.part card c.ticket
        if full then s.own fun x => { x with wait := .pool } else s)

/-- BAR (R144, R329): the arrival, and the context waits for the release. -/
def execBar (scope : Fin 8) (id : Fin 64) (s : State) : Out :=
  .next (s.taskControl fun s =>
    if s.inTeam then
      s.slot [] [] fun c s =>
        (s.own fun x => { x with wait := .barrier scope.val id.val }).arrive scope.val id.val c.job.toNat s.issue.key
    else s.trapSlot cPriv 0 0)

/-- TRAP (R145, R391): the bundle has committed, and the saved PC is NextSeq. In the second delay bundle of a taken transfer XFER keeps the
target with LEFT 0 (log 11). -/
def execTrap (n : BitVec 12) (s : State) : Out :=
  .next (s.slot [] [] fun c s =>
    match s.nextSeqLen s.issue.key s.issue.pc s.issue.len with
    | .miss p => s.waitPage p
    | .found o =>
      let s := s.own fun x =>
        if xferLeft c.xfer = 1 && xferTaken c.xfer then { x with xfer := xferOf (xferTarget c.xfer) 0 true } else x
      s.takeTrap s.issue.key cSoftware 0 0 o o 0 (n.setWidth 32))

/-- ERET (R146, R395). -/
def execEret (s : State) : Out := .next (s.privileged fun s => s.slot [] [] fun _ s => s.trapReturn s.issue.key)

end Sys2Proof.Machine
end

