-- ==== Sys2Proof/Machine/Bundle.lean ====
section
/-!
DEFINITION. Bundle: the registers that a bundle's slots read and write, its legality (R17, R90 to R93, R124), loop decisions (R131), commit
(R119, R126) and the running of one bundle (R110, R111, R120).
-/
namespace Sys2Proof.Machine

/-- A register that a slot writes, as R91 compares them. -/
inductive Wr where
  | s (r : Fin 64)
  | v (r : Fin 256)
  | p (r : Fin 16)
  | c (r : Fin 8)
  | bt (r : Fin 4)
  | push (q : Fin 4)
  | pop (q : Fin 4)
  | lc (l : Fin 4)
  | sys (r : SysReg)
deriving DecidableEq, Repr

/-- The vector registers that an instruction reads (R91): destinations that are also read, sources of stores and of SEND, register groups and
index registers among them. -/
def vreads : Instr → List (Fin 256)
  | .vadd _ a b _ _ | .vsub _ a b _ _ | .vmul _ a b _ _ | .vmin _ a b _ _ | .vmax _ a b _ _ | .vscl _ a b _ _ | .vsel _ a b _ _
  | .viadd _ a b _ _ | .visub _ a b _ _ | .vimul _ a b _ _ | .vand _ a b _ _ | .vor _ a b _ _ | .vxor _ a b _ _ | .vshl _ a b _ _
  | .vshr _ a b _ _ | .vsra _ a b _ _ | .vimin _ a b _ _ | .vimax _ a b _ _ | .vcmpeq _ a b _ _ | .vcmpne _ a b _ _ | .vcmplt _ a b _ _
  | .vcmple _ a b _ _ | .vcmpuo _ a b _ _ | .vperm _ a b _ _ | .vrotm _ a b _ _ | .vzip _ a b _ _ | .vuzp _ a b _ _ | .vslide _ a b _ _ _
  | .vrank _ a b _ | .vselb _ a b _ => [a, b]
  | .vfma d a b _ _ | .vfms d a b _ _ => [d, a, b]
  | .vabs _ a _ _ | .vneg _ a _ _ | .vrcp _ a _ _ | .vrsq _ a _ _ | .vexp2 _ a _ _ | .vlog2 _ a _ _ | .vtanh _ a _ _ | .vqnt _ a _ _ _
  | .vcvt _ a _ _ _ | .vdec _ a _ _ _ | .vmuls _ a _ _ _ | .vadds _ a _ _ _ | .vpopc _ a _ _ | .vext _ a _ _ | .vclass _ a _ _ _
  | .vrsum _ a _ _ | .vrmax _ a _ _ | .vrmin _ a _ _ | .vramax _ a _ _ | .vramin _ a _ _ | .vscan _ a _ _ | .vmov _ a _ | .vthcnt _ a _ _ _ _
  | .vhist _ a _ _ | .vcqp a _ _ _ | .rcadd a _ | .vcsum _ a _ | .ftld a _ _ | .cbld a _ | .ttask a | .copy a _ | .qpush a _ => [a]
  | .vins d _ _ _ _ => [d]
  | .vtopk _ a _ _ _ g1 => (List.range (g1.val + 1)).map fun i => Fin.ofNat 256 (a.val + i)
  | .ttaskr a b n1 => a :: (List.range (n1.val + 1)).map fun i => Fin.ofNat 256 (b.val + i)
  | .vst d _ _ _ | .vstp d _ _ _ _ => [d]
  | .vldx _ _ b => [b]
  | .vstx d _ b _ => [d, b]
  | .send _ v _ | .recvadd _ v _ => [v]
  | _ => []

/-- The predicate registers that an instruction reads (R206). -/
def preads : Instr → List (Fin 16)
  | .vadd _ _ _ p _ | .vsub _ _ _ p _ | .vmul _ _ _ p _ | .vfma _ _ _ p _ | .vfms _ _ _ p _ | .vmin _ _ _ p _ | .vmax _ _ _ p _ | .vscl _ _ _ p _
  | .vqnt _ _ _ p _ | .vmuls _ _ _ p _ | .vadds _ _ _ p _ | .vsel _ _ _ p _ | .viadd _ _ _ p _ | .visub _ _ _ p _ | .vimul _ _ _ p _
  | .vand _ _ _ p _ | .vor _ _ _ p _ | .vxor _ _ _ p _ | .vshl _ _ _ p _ | .vshr _ _ _ p _ | .vsra _ _ _ p _ | .vimin _ _ _ p _ | .vimax _ _ _ p _
  | .vcmpeq _ _ _ p _ | .vcmpne _ _ _ p _ | .vcmplt _ _ _ p _ | .vcmple _ _ _ p _ | .vcmpuo _ _ _ p _ | .vperm _ _ _ p _ | .vrotm _ _ _ p _
  | .vzip _ _ _ p _ | .vuzp _ _ _ p _ | .vstp _ _ _ p _ | .vabs _ _ p _ | .vneg _ _ p _ | .vrcp _ _ p _ | .vrsq _ _ p _ | .vexp2 _ _ p _
  | .vlog2 _ _ p _ | .vtanh _ _ p _ | .vpopc _ _ p _ | .vbcst _ _ p _ | .vrsum _ _ p _ | .vrmax _ _ p _ | .vrmin _ _ p _ | .vramax _ _ p _
  | .vramin _ _ p _ | .vscan _ _ p _ | .vhist _ _ p _ | .vst _ _ p _ | .vcvt _ _ p _ _ | .vdec _ _ p _ _ | .vins _ _ p _ _ | .vclass _ _ p _ _
  | .viota _ p _ | .vbmp _ p _ | .vmov _ _ p | .vspl _ p _ _ | .vcqp _ p _ _ | .vslide _ _ _ p _ _ | .vtopk _ _ _ p _ _ | .vthcnt _ _ _ p _ _
  | .vrank _ _ _ p | .vselb _ _ _ p | .vstx _ _ _ p | .pfirst _ p | .pcnt _ p | .vany _ p | .vall _ p | .rcadd _ p => [p]
  | .pand _ a b | .por _ a b | .pxor _ a b | .pandn _ a b => [a, b]
  | _ => []

/-- The registers that an instruction writes, for R91. -/
def writes : Instr → List Wr
  | .prep t _ | .preps t _ => [.bt t]
  | .call _ => [.s 63]
  | .loop l _ _ | .loopi l _ _ | .lbrk l | .mtlc l _ _ => [.lc l]
  | .loopq l _ _ => [.lc l]
  | .add d _ _ | .sub d _ _ | .mul d _ _ | .mulh d _ _ | .mulhu d _ _ | .div d _ _ | .divu d _ _ | .rem d _ _ | .remu d _ _ | .and d _ _
  | .or d _ _ | .xor d _ _ | .andn d _ _ | .shl d _ _ | .shr d _ _ | .sra d _ _ | .rotl d _ _ | .min d _ _ | .max d _ _ | .minu d _ _
  | .maxu d _ _ | .shladd d _ _ _ | .madd d _ _ _ | .clz d _ | .ctz d _ | .popc d _ | .extr d _ _ _ | .dep d _ _ _ | .addi d _ _ | .andi d _ _
  | .ori d _ _ | .xori d _ _ | .shli d _ _ | .shri d _ _ | .srai d _ _ | .ldi d _ | .ldhi d _ _ | .sel d _ _ _ | .fadd d _ _ | .fsub d _ _
  | .fmul d _ _ | .ffma d _ _ _ | .fdiv d _ _ | .fmin d _ _ | .fmax d _ _ | .fexp2 d _ | .flog2 d _ | .itof d _ | .ftoi d _ | .mfsr d _
  | .tsc d | .mflc d _ _ | .desc d _ _ | .rowad d _ _ _ | .tilead d _ _ _ | .incwrap d _ _ | .vext d _ _ _ | .pcnt d _ | .vrsum d _ _ _
  | .vrmax d _ _ _ | .vrmin d _ _ _ | .vramax d _ _ _ | .vramin d _ _ _ | .vcsum d _ _ | .tstat d _ | .tlate d | .sld d _ _ | .srecv _ d
  | .chqry _ d _ | .hqry d _ => [.s d]
  | .cqpop d q => [.s d, .pop q]
  | .cmpeq d _ _ | .cmpne d _ _ | .cmplt d _ _ | .cmpltu d _ _ | .cmpge d _ _ | .cmpgeu d _ _ | .cmpeqi d _ _ | .cmplti d _ _ | .cand d _ _
  | .cor d _ _ | .fcmplt d _ _ | .fcmpeq d _ _ | .vany d _ | .vall d _ => [.c d]
  | .mtsr r _ => [.sys r]
  | .vadd d _ _ _ _ | .vsub d _ _ _ _ | .vmul d _ _ _ _ | .vmin d _ _ _ _ | .vmax d _ _ _ _ | .vscl d _ _ _ _ | .vsel d _ _ _ _
  | .viadd d _ _ _ _ | .visub d _ _ _ _ | .vimul d _ _ _ _ | .vand d _ _ _ _ | .vor d _ _ _ _ | .vxor d _ _ _ _ | .vshl d _ _ _ _
  | .vshr d _ _ _ _ | .vsra d _ _ _ _ | .vimin d _ _ _ _ | .vimax d _ _ _ _ | .vperm d _ _ _ _ | .vrotm d _ _ _ _ | .vzip d _ _ _ _
  | .vuzp d _ _ _ _ | .vslide d _ _ _ _ _ | .vrank d _ _ _ | .vselb d _ _ _ | .vfma d _ _ _ _ | .vfms d _ _ _ _ | .vabs d _ _ _
  | .vneg d _ _ _ | .vrcp d _ _ _ | .vrsq d _ _ _ | .vexp2 d _ _ _ | .vlog2 d _ _ _ | .vtanh d _ _ _ | .vcvt d _ _ _ _ | .vdec d _ _ _ _
  | .vmuls d _ _ _ _ | .vadds d _ _ _ _ | .vpopc d _ _ _ | .viota d _ _ | .vbcst d _ _ _ | .vins d _ _ _ _ | .vscan d _ _ _ | .vmov d _ _
  | .vspl d _ _ _ | .vtopk d _ _ _ _ _ | .vthcnt d _ _ _ _ _ | .vbmp d _ _ | .vhist d _ _ _ | .rcsnap d | .vld d _ _ | .vldp d _ _ _
  | .vldx d _ _ | .qpop d _ | .recv _ d _ | .recvadd _ d _ => [.v d]
  | .vqnt d _ b _ _ => [.v d, .v b]
  | .qtry d _ c => [.v d, .c c]
  | .vcmpeq d _ _ _ _ | .vcmpne d _ _ _ _ | .vcmplt d _ _ _ _ | .vcmple d _ _ _ _ | .vcmpuo d _ _ _ _ | .vclass d _ _ _ _ | .pand d _ _
  | .por d _ _ | .pxor d _ _ | .pandn d _ _ | .pfirst d _ => [.p d]
  | .vcqp _ _ _ q => [.push q]
  | _ => []

/-- Whether two writes conflict (R91): the same register, s0 and c0 apart; of a count queue, two pushes, two pops, or a push and a pop. -/
def Wr.clash : Wr → Wr → Bool
  | .s a, .s b => decide (a = b ∧ a ≠ 0)
  | .v a, .v b => decide (a = b)
  | .p a, .p b => decide (a = b)
  | .c a, .c b => decide (a = b ∧ a ≠ 0)
  | .bt a, .bt b => decide (a = b)
  | .push a, .push b | .push a, .pop b | .pop a, .push b | .pop a, .pop b => decide (a = b)
  | .lc a, .lc b => decide (a = b)
  | .sys a, .sys b => decide (a = b)
  | _, _ => false

/-- The vector registers that an instruction writes. -/
def vwrites (i : Instr) : List (Fin 256) := (writes i).filterMap fun w => match w with | .v r => some r | _ => none

/-- Whether an instruction names a vector register at or above VREGS (R17). -/
def outOfWindow (vregs : Nat) (i : Instr) : Bool := (vreads i ++ vwrites i).any fun r => decide (vregs ≤ r.val)

/-- Whether the end offset of a LOOP lies inside its own bundle (R95). -/
def shortLoop (len : Nat) : Instr → Bool
  | .loop _ _ fin | .loopi _ _ fin | .loopq _ _ fin => decide (fin.toNat < len)
  | _ => false

/-- Mask of a set of slots. -/
def slotMask (l : List Slot) : Nat := (l.map fun t => 2 ^ t.bit).sum

/-- Decode the words of a bundle, each in its slot: nothing for an illegal one. -/
def decodeWords (l : List (Slot × Nat)) : List (Slot × Option SlotWord) := l.map fun e => (e.1, decodeSlot e.1 e.2)

/-- The operand bits that an opcode of a slot uses (R88): those that an encoding may carry set alone. -/
def usedBits (t : Slot) (op : Nat) : Nat :=
  (((List.range (if t.isWide then 40 else 24)).filter fun b => (decFields t op (2 ^ b)).isSome).map (2 ^ ·)).sum

/-- The registers that a slot word names (R91, R92): a word with a defect of R90 item 3 names those of the fields that its opcode uses, the other bits
apart, and its lowest twelve bits, which name no general register, when they hold a number that the opcode does not have (DEDUCED from R92, which takes
the union of both sets; log 16). -/
def namedOp (t : Slot) (w : Nat) : Option Instr :=
  let n := if t.isWide then 40 else 24
  let op := w / 2 ^ n % 128
  let r := w % 2 ^ n
  let u := r &&& usedBits t op
  ((decFields t op r).orElse fun _ => decFields t op u).orElse fun _ => decFields t op (u / 4096 * 4096)

/-- The slots whose writes conflict with another slot's (R90 item 5). -/
def clashing (ws : List (Slot × Instr)) : List Slot :=
  (ws.filter fun x => ws.any fun y => decide (x.1 ≠ y.1) && (writes x.2).any fun a => (writes y.2).any fun b => a.clash b).map (·.1)

/-- Vector registers that a slot reads, as R91 counts them: each once, and for TTASKR the record and every member of its group (R256). One register that two
fields of a slot name counts once (DESIGN CHOICE: R91 counts each register, where the table of R195 gives the number of fields; log 16). -/
def readCount : Instr → Nat
  | .ttaskr _ _ n1 => n1.val + 2
  | i => (vreads i).eraseDups.length

/-- The slots that take part in reading more than six or writing more than three vector registers (R90 item 6). A register that two destination fields of one
slot name counts once (DESIGN CHOICE; log 16). -/
def crowded (ws : List (Slot × Instr)) : List Slot :=
  let r := (ws.map fun x => readCount x.2).sum
  let w := (ws.map fun x => (vwrites x.2).eraseDups.length).sum
  (ws.filter fun x => (decide (6 < r) && !(vreads x.2).isEmpty) || (decide (3 < w) && !(vwrites x.2).isEmpty)).map (·.1)

/-- The illegal-slot mask of the words of a bundle of `len` bytes (R90 items 2 to 6, R92): 0 for a legal one. -/
def illegalMask (vregs len : Nat) (l : List (Slot × Nat)) : Nat :=
  let ws := l.filterMap fun e => (namedOp e.1 e.2).map fun i => (e.1, i)
  let bad := (decodeWords l).filterMap fun e => match e.2 with
    | none => some e.1
    | some w => if outOfWindow vregs w.op || shortLoop len w.op then some e.1 else none
  slotMask (Slot.all.filter fun t => bad.contains t || (clashing ws).contains t || (crowded ws).contains t)

/-- What may not stand in a delay bundle (R124). -/
def notInDelay : Instr → Bool
  | .br _ _ | .brn _ _ | .jmp _ | .call _ | .ret | .eret | .loop _ _ _ | .loopi _ _ _ | .loopq _ _ _ | .suspend | .yield | .endTask
  | .waita _ _ _ => true
  | _ => false

/-- Privileged operations (R102). -/
def isPrivileged : Instr → Bool
  | .eret | .tqcfg _ _ | .tlbi _ _ | .ctxsv _ _ | .ctxld _ _ => true
  | .mtsr r _ => r.privileged
  | _ => false

/-- CTL operations that act once the context's pc and XFER have moved on (log 10). -/
def isLate : Instr → Bool
  | .br _ _ | .brn _ _ | .jmp _ | .call _ | .ret | .suspend | .yield | .endTask | .waita _ _ _ | .trap _ | .eret => true
  | _ => false

/-- Results in flight that an operation of a context adds (R116, R400). -/
def newResults (c : Ctx) : Instr → Nat
  | .vld _ _ _ | .vldp _ _ _ _ | .vldx _ _ _ | .sld _ _ _ | .qpop _ _ | .recv _ _ _ | .recvadd _ _ _ | .srecv _ _ | .rcsnap _ | .tstat _ _ => 1
  | .vtopk _ _ _ _ _ g1 => if g1 = 0 then 0 else 1
  | .vthcnt _ _ _ _ f lg =>
    let n := ((FmtEntry.ofBits (c.entryBits (.column f))).fmt.map fun t => thcntRegs t lg.val).getD 0
    if n = 1 then 0 else n
  | .qtry _ _ _ => 2
  | _ => 0

/-- Cycles from its start to the result of a producer of fixed latency (R127, R149, R195, R213, R259, R340, R388): 0 for every other instruction. -/
def fixedLatency (c : Ctx) : Instr → Nat
  | .prep _ _ | .preps _ _ | .call _ | .loop _ _ _ | .loopi _ _ _ | .loopq _ _ _ | .lbrk _ | .mtlc _ _ _ | .mflc _ _ _ | .add _ _ _ | .sub _ _ _
  | .and _ _ _ | .or _ _ _ | .xor _ _ _ | .andn _ _ _ | .shl _ _ _ | .shr _ _ _ | .sra _ _ _ | .rotl _ _ _ | .min _ _ _ | .max _ _ _
  | .minu _ _ _ | .maxu _ _ _ | .shladd _ _ _ _ | .clz _ _ | .ctz _ _ | .popc _ _ | .extr _ _ _ _ | .dep _ _ _ _ | .addi _ _ _ | .andi _ _ _
  | .ori _ _ _ | .xori _ _ _ | .shli _ _ _ | .shri _ _ _ | .srai _ _ _ | .ldi _ _ | .ldhi _ _ _ | .sel _ _ _ _ | .fmin _ _ _ | .fmax _ _ _
  | .cmpeq _ _ _ | .cmpne _ _ _ | .cmplt _ _ _ | .cmpltu _ _ _ | .cmpge _ _ _ | .cmpgeu _ _ _ | .cmpeqi _ _ _ | .cmplti _ _ _ | .cand _ _ _
  | .cor _ _ _ | .fcmplt _ _ _ | .fcmpeq _ _ _ | .desc _ _ _ | .incwrap _ _ _ => 1
  | .mfsr _ _ | .mtsr _ _ | .tsc _ | .cqpop _ _ | .chqry _ _ _ | .pand _ _ _ | .por _ _ _ | .pxor _ _ _ | .pandn _ _ _ | .pfirst _ _ => 2
  | .itof _ _ | .ftoi _ _ | .rowad _ _ _ _ | .tilead _ _ _ _ => 3
  | .mul _ _ _ | .mulh _ _ _ | .mulhu _ _ _ | .madd _ _ _ _ | .fadd _ _ _ | .fsub _ _ _ | .fmul _ _ _ | .pcnt _ _ | .vany _ _ | .vall _ _
  | .vmov _ _ _ | .vspl _ _ _ _ | .viota _ _ _ | .vbmp _ _ _ | .tlate _ => 4
  | .ffma _ _ _ _ => 5
  | .viadd _ _ _ _ _ | .visub _ _ _ _ _ | .vand _ _ _ _ _ | .vor _ _ _ _ _ | .vxor _ _ _ _ _ | .vshl _ _ _ _ _ | .vshr _ _ _ _ _
  | .vsra _ _ _ _ _ | .vimin _ _ _ _ _ | .vimax _ _ _ _ _ | .vpopc _ _ _ _ | .vcmpeq _ _ _ _ _ | .vcmpne _ _ _ _ _ | .vcmplt _ _ _ _ _
  | .vcmple _ _ _ _ _ | .vcmpuo _ _ _ _ _ | .vclass _ _ _ _ _ | .vrotm _ _ _ _ _ | .vslide _ _ _ _ _ _ | .vzip _ _ _ _ _ | .vuzp _ _ _ _ _
  | .vbcst _ _ _ _ | .vins _ _ _ _ _ | .vext _ _ _ _ => 6
  | .vadd _ _ _ _ _ | .vsub _ _ _ _ _ | .vmul _ _ _ _ _ | .vmin _ _ _ _ _ | .vmax _ _ _ _ _ | .vabs _ _ _ _ | .vneg _ _ _ _ | .vsel _ _ _ _ _
  | .vmuls _ _ _ _ _ | .vadds _ _ _ _ _ | .vcvt _ _ _ _ _ | .vdec _ _ _ _ _ | .vimul _ _ _ _ _ => 8
  | .vfma _ _ _ _ _ | .vfms _ _ _ _ _ | .vscl _ _ _ _ _ | .vperm _ _ _ _ _ => 10
  | .vrmax _ _ _ _ | .vrmin _ _ _ _ | .vramax _ _ _ _ | .vramin _ _ _ _ | .vrank _ _ _ _ => 12
  | .fdiv _ _ _ | .fexp2 _ _ | .flog2 _ _ | .vrcp _ _ _ _ | .vrsq _ _ _ _ | .vexp2 _ _ _ _ | .vlog2 _ _ _ _ | .vtanh _ _ _ _ | .vrsum _ _ _ _
  | .vselb _ _ _ _ | .vhist _ _ _ _ | .vcsum _ _ _ => 16
  | .vqnt _ _ _ _ _ => 20
  | .div _ _ _ | .divu _ _ _ | .rem _ _ _ | .remu _ _ _ | .vscan _ _ _ _ => 24
  | .hqry _ _ => 40
  | .vtopk _ _ _ _ _ g1 => if g1 = 0 then 48 else 0
  | .vthcnt d a p r f lg => if newResults c (.vthcnt d a p r f lg) = 0 then 12 else 0
  | _ => 0

/-- The registers of a write, as results land in them (R402): the hard-wired ones take none. -/
def Wr.dsts : Wr → List Dst
  | .s r => if r = 0 then [] else [.s r]
  | .v r => [.v r]
  | .p r => [.p r]
  | .c r => if r = 0 then [] else [.c r]
  | .bt r => [.bt r]
  | .lc l => (List.range 4).map fun i => .lc l (Fin.ofNat 4 i)
  | .sys r => [.sys r]
  | .push _ | .pop _ => []

/-- The registers in which the results of an instruction land (R402): MTLC and LBRK write one field of a loop. -/
def resultDsts : Instr → List Dst
  | .mtlc l f _ => [.lc l f]
  | .lbrk l => [.lc l 0]
  | i => (writes i).flatMap Wr.dsts

/-- The results of the fixed-latency producers of a bundle that starts in cycle `now`: each with the cycle in which it lands (R401). -/
def fixedResults (c : Ctx) (now : Nat) (ws : List Instr) : List (Dst × Nat) :=
  ws.flatMap fun i => if fixedLatency c i = 0 then [] else (resultDsts i).map fun d => (d, now + fixedLatency c i)

/-- The results of fixed latency of a context that have not landed by a cycle. -/
def Ctx.fixedAfter (c : Ctx) (now : Nat) : List (Dst × Nat) := c.fixed.filter fun e => decide (now < e.2)

/-- A bundle of a context commits in cycle `now` (R401): its results of fixed latency are on their way, each in place of an older one of the register. -/
def Ctx.commits (c : Ctx) (now : Nat) (l : List (Dst × Nat)) : Ctx :=
  { c with ran := now + 1, fixed := (c.fixedAfter now).filter (fun e => !(l.any fun x => decide (x.1 = e.1))) ++ l }

/-- Whether a bundle of these instructions reads a register without empty/full bits: in user mode every bundle reads the loops (R131), and every bundle
reads the system registers that rule it (R117, R126, R174). -/
def plainReads (sup : Bool) (ws : List Instr) : Dst → Bool
  | .p r => ws.any fun i => (preads i).contains r
  | .bt r => ws.any fun i => match i with
    | .br _ t | .brn _ t | .jmp t | .call t => decide (t = r)
    | _ => false
  | .lc l _ => !sup || ws.any fun i => match i with
    | .mflc _ x _ | .lbrk x => decide (x = l)
    | _ => false
  | .sys r => (match r with
    | .epolicyS | .epolicyV _ | .ftbase | .ftsel | .xfer => true
    | _ => false) || ws.any fun i => match i with
    | .mfsr _ x => decide (x = r)
    | _ => false
  | .s _ | .v _ | .c _ => false

/-- Whether a result of a snapshot is still to land in a register without empty/full bits that a bundle reads (R405): the bundle waits for it. -/
def Ctx.plainPending (c : Ctx) (ws : List Instr) : Bool := c.inflight.any fun l => l.fromSnapshot && plainReads c.sup ws l.dst

/-- One step of the decision of R131: loop `n` at a decision point. The increment is of LIDX as of the bundle: one that the bundle's MTLC writes is
overwritten. -/
def decideLoop (src : Ctx) (pc : Offset) (n : Fin 4) (x : Ctx × Option Offset) : Ctx × Option Offset :=
  let l := x.1.lc[n]
  if x.2 = none ∧ l.cnt ≠ 0 ∧ l.fin = pc then
    if l.cnt = 1 then ({ x.1 with lc := x.1.lc.set n { l with cnt := 0 } }, none)
    else ({ x.1 with lc := x.1.lc.set n { l with cnt := l.cnt - 1, idx := (src.lc[n]).idx + 1 } }, some l.beg)
  else x

/-- The decision of R131 at an offset: loops 3 down to 0. -/
def decideLoops (c src : Ctx) (pc : Offset) : Ctx × Option Offset :=
  decideLoop src pc 0 (decideLoop src pc 1 (decideLoop src pc 2 (decideLoop src pc 3 (c, none))))

/-- Move the pc, XFER and the loops of a context past its bundle (R84, R123, R126, R131, R394). `src` is the context as of the bundle. -/
def commitCtx (x src : Ctx) (pc : Offset) (len : Nat) (skip : Option Offset) : Ctx :=
  let d := if src.sup then (x, none) else decideLoops x src pc
  let c := { d.1 with begun := false }
  match xferLeft src.xfer with
  | 0 => match d.2.orElse fun _ => skip with
    | some o => { c with pc := o, seq := false }
    | none => { c with pc := pc + BitVec.ofNat 24 len, seq := true }
  | 1 => { c with pc := xferTarget src.xfer, seq := false, xfer := 0 }
  | n + 2 => { c with pc := pc + BitVec.ofNat 24 len, seq := true, xfer := xferOf (xferTarget src.xfer) (n + 1) (xferTaken src.xfer) }

/-- A slot of the bundle set up: its context, memory and journal copies as of the bundle (R110). -/
def State.issueAt (s : State) (key : Nat) (pc : Offset) (len : Nat) : State :=
  let c := s.ctx key
  { s with issue := ⟨key, pc, len, .ctl, c, s.mem, s.journal? c.ticket, .ok, none⟩ }

/-- The bundle's slots so far: the state they have made, and the outcome of each that did not run. -/
structure Progress where
  state : State
  stops : List (Slot × SlotOutcome)

/-- Run one slot after the others (R111): a slot that traps or waits leaves the state as it was. -/
def runSlot (ex : Instr → State → Out) (p : Progress) (w : SlotWord) : Host.Outcome Progress Fault Refusal :=
  match ex w.op { p.state with issue := { p.state.issue with slot := w.slot, out := .ok } } with
  | .next s =>
    match s.issue.out with
    | .ok => .next ⟨s, p.stops⟩
    | o => .next ⟨p.state, p.stops ++ [(w.slot, o)]⟩
  | .fault f => .fault f
  | .refused r => .refused r

/-- Run slots in order. -/
def runSlots (ex : Instr → State → Out) : List SlotWord → Progress → Host.Outcome Progress Fault Refusal
  | [], p => .next p
  | w :: ws, p =>
    match runSlot ex p w with
    | .next p => runSlots ex ws p
    | .fault f => .fault f
    | .refused r => .refused r

/-- The first trap of a bundle, in order of header bit, with the mask of every slot that traps with its cause (R93). -/
def firstTrap (l : List (Slot × SlotOutcome)) : Option (Cause × Nat × Word × BitVec 32) :=
  let traps := Slot.all.filterMap fun t => (l.find? fun e => decide (e.1 = t)).bind fun e => match e.2 with
    | .trapped c a i => some (t, c, a, i)
    | _ => none
  traps.head?.map fun h => (h.2.1, slotMask ((traps.filter fun e => decide (e.2.1 = h.2.1)).map (·.1)), h.2.2.1, h.2.2.2)

/-- The bundle is over: no bundle is under way. -/
def State.idle (s : State) : State := { s with issue := .idle }

/-- The first dispatch of a restored context (R405): the results of its snapshot count from this cycle. -/
def State.anchorCtx (s : State) (key : Nat) : State := if (s.ctx key).anchor then s.modCtx key fun c => c.anchored s.now else s

/-- A bundle of a context is dispatched (R405), and the context's turn among its core's contexts is noted (R121): a bundle that has been dispatched and whose
slots wait is tried again without a turn. A bundle that traps with BAD_TARGET, that is illegal or that crosses its fetch line has its turn as well (DESIGN
CHOICE: R121 does not say whether it counts; log 16). -/
def State.dispatched (s : State) (key : Nat) : State :=
  let x := s.ctx key
  if x.begun then s else (s.anchorCtx key).modCore (coreOf key) fun c => { c with lastDisp := tset c.lastDisp x.prio.toNat (key % 8) }

/-- A slot waits (R112, R117): the bundle has no effect yet, but what the wait itself asks for stands (a lock request, an exit from retention, the
reason for which the context is not ready). -/
def waitSlot (ex : Instr → State → Out) (s : State) (key : Nat) (w : SlotWord) (skip : Option Offset) : Out :=
  let c := s.ctx key
  let base := if isLate w.op then s.modCtx key fun x => commitCtx x s.issue.src s.issue.pc s.issue.len skip else s
  match ex w.op { base with issue := { base.issue with slot := w.slot, out := .ok } } with
  | .next t => .next ((t.setCtx key { c with wait := (t.ctx key).wait, held := true, begun := true }).idle)
  | .fault f => .fault f
  | .refused r => .refused r

/-- Run the slots of a legal bundle (R110 to R120): in ascending order of header bit, the late CTL operation after the context has moved on; any
trap is taken on the state before the bundle (R120, R391), any wait leaves it as it was. -/
def runWords (ex : Instr → State → Out) (s : State) (key : Nat) (pc : Offset) (len : Nat) (ws : List SlotWord) : Out :=
  let s0 := s.issueAt key pc len
  let src := s0.issue.src
  let finish (p : Progress) : Out :=
    match firstTrap p.stops with
    | some t => .next ((s0.takeTrap key t.1 t.2.1 0 pc pc t.2.2.1 t.2.2.2).idle)
    | none =>
      match (ws.find? fun w => p.stops.any fun e => decide (e.1 = w.slot)) with
      | some w => waitSlot ex s0 key w p.state.issue.skip
      | none => .next (p.state.idle.leaveFull key)
  match runSlots ex (ws.filter fun w => !isLate w.op) ⟨s0, []⟩ with
  | .fault f => .fault f
  | .refused r => .refused r
  | .next p =>
    let moved : State := p.state.modCtx key fun x => (commitCtx x src pc len p.state.issue.skip).commits s.now (fixedResults src s.now (ws.map (·.op)))
    match runSlots ex (ws.filter fun w => isLate w.op) ⟨moved, p.stops⟩ with
    | .fault f => .fault f
    | .refused r => .refused r
    | .next p => finish p

/-- The bytes of a bundle whose header has been read: they lie in its fetch line, and so in its page. -/
def State.bundleBytes (s : State) (key : Nat) (pc : Offset) (len : Nat) : List Byte :=
  (List.range len).map fun i => (s.codeByte key (pc + BitVec.ofNat 24 i)).getD 0

/-- Check and run the bundle at an offset whose header `h` is not zero (R84, R90 to R93, R124): one that reads a register without empty/full bits before a
result of a snapshot has landed there waits (R405), and one that R400 holds is not dispatched, though the snapshot's results count from then on (DEDUCED:
no first dispatch could come before they land; log 20). -/
def runAt (ex : Instr → State → Out) (s : State) (key : Nat) (pc : Offset) (h : Byte) : Out :=
  let c := s.ctx key
  let len := bundleLength h
  let t := s.dispatched key
  if 64 < pc.toNat % 64 + len then .next (t.takeTrap key cIllegalBundle 0 h.toNat pc pc 0 0)
  else
    let l := slotWords (headerSlots h) ((s.bundleBytes key pc len).drop 1)
    let ws := (decodeWords l).filterMap (·.2)
    let bad := illegalMask c.vregs len l
    let priv := (ws.filter fun w => isPrivileged w.op).map (·.slot)
    if bad ≠ 0 then .next (t.takeTrap key cIllegalBundle 0 bad pc pc 0 0)
    else if xferLeft c.xfer ≠ 0 ∧ (ws.any (fun w => notInDelay w.op) ∨ c.lc.toList.any fun l => decide (l.cnt ≠ 0 ∧ l.fin = pc)) then
      .next (t.takeTrap key cIllegalDelay 0 0 pc pc 0 0)
    else if c.sup = false ∧ priv ≠ [] then .next (t.takeTrap key cPriv (slotMask priv) 0 pc pc 0 0)
    else if c.plainPending (ws.map (·.op)) then .next (t.modCtx key fun c => { c with held := true, begun := true })
    else if 64 < c.inflight.length + (c.fixedAfter s.now).length +
        ((ws.map fun w => newResults c w.op).sum + (fixedResults c s.now (ws.map (·.op))).length) then
      .next ((s.anchorCtx key).modCtx key fun c => { c with held := true })
    else runWords ex t key pc len ws

/-- Fetch and run the next bundle of a ready context (R78, R84, R85): a page without a frame is a fetch fault, and a zero byte is padding under
sequential fetch and a bad target otherwise, which has its turn among the contexts of its level as a dispatch has (DESIGN CHOICE: R121 is silent; log 16). -/
def runBundle (ex : Instr → State → Out) (s : State) (key : Nat) : Out :=
  if s.watchdogDue key then .next (s.watchdogTrap key)
  else
    let o := s.fetchAt key
    let s := s.modCtx key fun c => { c with pc := o }
    match s.codeByte key o with
    | none => ex (.fetchFault (Fin.ofNat 128 (coreOf key)) (Fin.ofNat 8 key)) s
    | some h => if h = 0 then .next ((s.dispatched key).takeTrap key cBadTarget 0 0 o o (o.setWidth 64) 0) else runAt ex s key o h

/-- Whether a context can dispatch its next bundle (R121). An ARM that waited goes on once a free context and window room exist (R142). -/
def State.readyCtx (s : State) (key : Nat) : Bool :=
  let c := s.ctx key
  decide (c.life = .running ∧ c.stopReq = false ∧ c.held = false) && (decide (c.wait = .none) || (decide (c.wait = .arm) && s.armRoom key))

/-- The context that a core dispatches (R121): of the highest priority, the first after the one that last dispatched at that level. -/
def State.pickCtx (s : State) (core : Nat) : Option Nat :=
  let ready := ((List.range 8).map (core * 8 + ·)).filter s.readyCtx
  match (ready.map fun k => (s.ctx k).prio.toNat).max? with
  | none => none
  | some lvl =>
    firstAfter 8 (tgetD (s.core core).lastDisp lvl 7) ((ready.filter fun k => decide ((s.ctx k).prio.toNat = lvl)).map (· % 8)) |>.map (core * 8 + ·)

/-- A result of a context is due (R116). -/
def State.dueLanding (s : State) (key : Nat) : Bool :=
  let c := s.ctx key
  decide (c.life = .running ∨ c.life = .ending) && c.inflight.any fun l => l.value.isSome && c.comes l && decide (l.due ≤ s.now)

/-- One dispatch of a core (R121): a result that is due lands first (R116, R405), then the chosen context's bundle runs. -/
def runCore (ex : Instr → State → Out) (s : State) (core : Nat) : Out :=
  match ((List.range 8).map (core * 8 + ·)).find? s.dueLanding with
  | some k => ex (.resultLand (Fin.ofNat 128 core) (Fin.ofNat 8 k)) s
  | none =>
    match s.pickCtx core with
    | some k => runBundle ex s k
    | none => .next s

end Sys2Proof.Machine
end

