-- ==== Sys2Proof/Machine/Engine.lean ====
section
/-!
DEFINITION. Engine: the row accesses of the engines (R263, R321): where they end, the granules they acquire (R354), and the sets that they may not
write (R360).
-/
namespace Sys2Proof.Machine

/-- The context of the task that commanded an engine access, as long as its END has not committed and no rollback has discarded the run of the command:
it runs, or it is saved (R354). -/
def State.commander (s : State) (o : Origin) : Option Ctx :=
  let mine := fun (c : Ctx) => decide (c.ticket = o.ticket ∧ c.run = o.run)
  ((s.ctxs.find? fun e => mine e.2 && decide (e.2.life = .running ∨ e.2.life = .stopped)).map (·.2)).orElse fun _ =>
    ((s.saved.find? fun x => mine x.ctx).map (·.ctx)).orElse fun _ => (s.stored.find? fun x => mine x.ctx).map (·.ctx)

/-- The address by which granules know an access: absolute when local. -/
def granuleAddr (o : Origin) (va : Bool) (addr : Nat) : Nat := if va then addr % 2 ^ 56 else (canonLocal o.quad addr).getD addr

/-- Whether an address lies in a set of the commanding task (R360), whichever of its runs gave the command, until it has ended. -/
def State.inOwnSet (s : State) (o : Origin) (va : Bool) (addr : Nat) : Bool :=
  let covers := fun (c : Ctx) => decide (c.ticket = o.ticket ∧ c.life ≠ .free ∧ c.life ≠ .dormant) && (c.granuleOf va (granuleAddr o va addr)).isSome
  (s.ctxs.any fun e => covers e.2) || (s.saved.any fun x => covers x.ctx) || s.stored.any fun x => covers x.ctx

/-- Whether a read may proceed (R354): it acquires the granule of its row at the engine, and fails with JOURNAL_FULL without an armed journal. -/
def State.acquire (s : State) (o : Origin) (va : Bool) (addr : Nat) : RowRes :=
  match s.commander o with
  | none => .ok 0 s
  | some c =>
    match s.needed c va [granuleAddr o va addr] with
    | none => .ok 0 s
    | some g =>
      if ((s.journal? c.ticket).map (·.armed)).getD false then .hold (s.request g c.ticket c.run none) else .fail cJournalFull

/-- A held access starts the exit from retention of its array (R413). -/
def State.wakeArray (s : State) (o : Origin) (va : Bool) (addr : Nat) : State :=
  if va then s else match canonLocal o.quad (rowOf addr) with
    | some a => s.startExit (arrayOf a)
    | none => s

/-- Note an access: to local memory for retention (R413), to a device virtual address for the translation caches (R291, R296). -/
def State.touchLocal (s : State) (o : Origin) (va : Bool) (addr : Nat) (via : Via := .copy) : State :=
  if va then s.translated via o.part.toNat o.quad (addr % 2 ^ 56) else match canonLocal o.quad (rowOf addr) with
    | some a => s.touch a
    | none => s

/-- A row read by an engine of a quad: local, or device virtual when `va` (R261, R291). -/
def State.engineRead (s : State) (o : Origin) (va : Bool) (addr : Nat) (via : Via := .copy) : RowRes :=
  match s.spot o va addr 1 with
  | .hold => .hold (s.wakeArray o va addr)
  | .fail c => .fail c
  | .absent => .absent
  | .link => .link
  | sp =>
    match s.acquire o va addr with
    | .ok _ s => (s.touchLocal o va addr via).readSpot o.part.toNat sp
    | r => r

/-- A row write by an engine. -/
def State.engineWrite (s : State) (o : Origin) (va : Bool) (addr : Nat) (data : Row) (mask : BitVec 256) (via : Via := .copy) : RowRes :=
  match s.spot o va addr 2 with
  | .hold => .hold (s.wakeArray o va addr)
  | .fail c => .fail c
  | .absent => .absent
  | .link => .link
  | sp => (s.touchLocal o va addr via).writeSpot o.part.toNat data mask false sp

/-- The cause with which an access fails, for a command since tick `since`: PART_MOVED at the scratchpad of a quad that has left its partition in the
meantime (R74, R280). -/
def State.movedCause (s : State) (o : Origin) (since a : Nat) (cause : Cause) : Cause :=
  match (canonLocal o.quad a).bind scratchQuad? with
  | some q => if cause = cLocalRange ∧ (s.quad q).gone.any fun e => decide (e.1 = o.part.toNat ∧ since ≤ e.2) then cPartMoved else cause
  | none => cause

/-- The result of reading several rows in order. -/
inductive RowsRes where
  | ok (rows : List Row) (s : State)
  | fail (cause : Cause) (addr : Nat) (s : State)
  | hold (s : State)
deriving DecidableEq, Repr

/-- Read local rows in order (R354): the first that fails or is held ends the reading. -/
def State.readRows (s : State) (o : Origin) : List Nat → RowsRes
  | [] => .ok [] s
  | a :: t =>
    match s.engineRead o false a with
    | .ok r s =>
      match s.readRows o t with
      | .ok rs s => .ok (r :: rs) s
      | x => x
    | .fail c => .fail c a s
    | .hold s => .hold s
    | .absent | .link => .fail cLocalRange a s

/-- Whether a local write is held for now, and then the exit that it starts (R295, R413). -/
def State.heldWrite (s : State) (o : Origin) (addr : Nat) : Option State :=
  match s.spotLocal o.part.toNat o.quad (rowOf addr) with
  | .hold => some (s.wakeArray o false addr)
  | _ => none

/-- A masked write of `n` bytes at a local address by a path that may not write the sets of its task (R360). -/
def State.setSafeWrite (s : State) (o : Origin) (addr n v : Nat) : RowRes :=
  if s.inOwnSet o false addr then .fail cSetWrite
  else s.engineWrite o false addr (BitVec.ofNat 2048 (v % 256 ^ n * 256 ^ (addr % 256))) (byteMask (addr % 256) n)

/-- Whether a done counter can be reached (R281): an address outside every window of its task gets no add. -/
def State.canAdd (s : State) (o : Origin) (a : Nat) : Bool := decide (s.reach o.part.toNat o.quad (rowOf a) ≠ .range)

end Sys2Proof.Machine
end

