-- ==== Sys2Proof/Machine/CopyFields.lean ====
section
/-!
DEFINITION. CopyFields: the layout of a copy command (R272) and the rows it names.
-/
namespace Sys2Proof.Machine

/-- A field of a copy command: `n` bytes from byte `o`. -/
def cmdField (c : BitVec 512) (o n : Nat) : Nat := nbytes c.toNat o n
/-- OP. -/
def cpOp (c : BitVec 512) : Nat := cmdField c 0 1
/-- AOP. -/
def cpAop (c : BitVec 512) : Nat := cmdField c 1 1
/-- FMTS. -/
def cpFmtS (c : BitVec 512) : Nat := cmdField c 2 1
/-- FMTD. -/
def cpFmtD (c : BitVec 512) : Nat := cmdField c 3 1
/-- A bit of FLAGS: 0 SRCVA, 1 DSTVA, 2 HANDLER, 3 CHK, 4 TAG, 5 MCAST. -/
def cpFlag (c : BitVec 512) (i : Nat) : Bool := (cmdField c 4 1).testBit i
/-- SRC. -/
def cpSrc (c : BitVec 512) : Nat := cmdField c 8 8
/-- DST. -/
def cpDst (c : BitVec 512) : Nat := cmdField c 16 8
/-- ROWLEN. -/
def cpRowLen (c : BitVec 512) : Nat := cmdField c 24 4
/-- NROWS. -/
def cpRows (c : BitVec 512) : Nat := cmdField c 28 4
/-- SPITCH. -/
def cpSPitch (c : BitVec 512) : Nat := cmdField c 32 4
/-- DPITCH. -/
def cpDPitch (c : BitVec 512) : Nat := cmdField c 36 4
/-- OPERAND. -/
def cpOperand (c : BitVec 512) : Nat := cmdField c 40 8
/-- Local address of the done counter. -/
def cpDone (c : BitVec 512) : Nat := cmdField c 48 4 * 256
/-- HANDLER. -/
def cpHandler (c : BitVec 512) : Nat := cmdField c 52 4
/-- TAG, RETADDR or MCMASK. -/
def cpLast (c : BitVec 512) : Nat := cmdField c 56 8

/-- Format of FMTS, or FP32 for a reserved code. -/
def cpFrom (c : BitVec 512) : Fmt := (Fmt.ofCode (cpFmtS c % 16)).getD .fp32
/-- Format of FMTD, or FP32 for a reserved code. -/
def cpTo (c : BitVec 512) : Fmt := (Fmt.ofCode (cpFmtD c % 16)).getD .fp32
/-- RND of FMTD (R191). -/
def cpRnd (c : BitVec 512) : Rnd := Rnd.ofBits (nbits (cpFmtD c) 5 4)
/-- SAT of FMTD (R191). -/
def cpSat (c : BitVec 512) : Bool := (cpFmtD c).testBit 6
/-- Whether the source rows are read (R272): not by FILL, ZERO, or ACC and ACCF with INCW. -/
def cpReads (c : BitVec 512) : Bool :=
  decide (cpOp c = 0 ∨ cpOp c = 5 ∨ ((cpOp c = 3 ∨ cpOp c = 4) ∧ cpAop c ≠ 8))

/-- Element width of a format code: 8 for a reserved one. -/
def codeWidth (k : Nat) : Nat := ((Fmt.ofCode k).map Fmt.width).getD 8

/-- Bytes written per copy row (R272). -/
def cpDl (c : BitVec 512) : Nat :=
  let a := cpFmtS c % 16
  let b := cpFmtD c % 16
  if a = b then cpRowLen c else cpRowLen c * codeWidth b / codeWidth a

/-- The quads that a command writes: those of its mask (R282), or none for a plain destination. -/
def cpQuads (c : BitVec 512) : List Nat := if cpFlag c 5 then (List.range 32).filter fun q => (cpLast c).testBit q else []

/-- The addresses of the destination rows of copy row `r`: absolute scratchpad addresses of every quad of the mask with MCAST (R272, R282). -/
def cpDstRows (c : BitVec 512) (r : Nat) : List Nat :=
  (List.range (cpDl c / 256)).flatMap fun i =>
    let a := rowOf (cpDst c) + r * cpDPitch c + 256 * i
    if cpFlag c 5 then (if a < 0x1000000 then (cpQuads c).map fun q => 0x1000000000 + q * 0x1000000 + a else []) else [a]

/-- Every destination row of a command. -/
def cpAllDst (c : BitVec 512) : List Nat := (List.range (cpRows c)).flatMap (cpDstRows c)

end Sys2Proof.Machine
end

