-- ==== Sys2Proof/Machine/MemSlot.lean ====
section
/-!
DEFINITION. MemSlot: the meanings of the MEM operations (R267, R269, R298, R299, R326, R327, R343 to R345, R348 to R353, R404, R405, R411).
-/
namespace Sys2Proof.Machine

/-- NOP.L (R94). -/
def execNopL (s : State) : Out := s.slotNop

/-- A MEM operation that a FENCE or a waiting push holds (R326, R343). -/
def State.memOp (s : State) (f : State → State) : State := s.memPath 0 f

/-! ### Loads and stores -/

/-- Addresses of VLD and VST (R267). -/
def plainRows (a n : Nat) : List Nat := (List.range n).map fun j => (rowOf a + 256 * j) % 2 ^ 40
/-- Addresses of VLDP and VSTP (R166, R267). -/
def descRows (w0 w1 idx : Word) (n : Nat) : List Nat := (List.range n).map fun j => descAddr w0 w1 (bitsOf idx 63 32) (bitsOf idx 31 0 + j)
/-- Addresses of VLDX and VSTX (R267). -/
def indexRows (a : Nat) (v : VReg) : List Nat :=
  (List.range 8).map fun j => (((rowOf a : Int) + 256 * sext 32 (elem v j 32)) % 2 ^ 40).toNat

/-- A load into a vector register (R116, R267, R399): row j from the j-th address, the other rows zero. -/
def State.loadV (s : State) (d : Fin 256) (l : List Nat) : State :=
  s.pathC l fun addrs s =>
    let rows := addrs.map s.loadRow
    let lat := (addrs.map (loadLatency s.issue.key)).foldl max 0
    ((s.touchAll addrs).produce (.v d) (some (vregOf (rows.map (·.1)))) (rows.findSome? (·.2)) lat).2

/-- A store of a vector register (R267). -/
def State.storeV (s : State) (v : VReg) (p : Pred) (l : List Nat) : State :=
  s.pathC l fun addrs s => s.storeAll (addrs.zipIdx.map fun e => (e.1, vrow v e.2, predRow p e.2))

/-- The odd register of a descriptor pair. -/
def pairReg (a : Fin 64) : Fin 64 := Fin.ofNat 64 (a.val + 1)

/-- VLD. -/
def execVld (d : Fin 256) (a : Fin 64) (n1 : Fin 8) (s : State) : Out :=
  .next (s.slot [.s a] [.v d] fun c s => s.loadV d (plainRows (c.getS a).toNat (n1.val + 1)))
/-- VST. -/
def execVst (d : Fin 256) (a : Fin 64) (p : Fin 16) (n1 : Fin 8) (s : State) : Out :=
  .next (s.slot [.v d, .s a] [] fun c s => s.storeV (c.getV d) (c.getP p) (plainRows (c.getS a).toNat (n1.val + 1)))
/-- VLDP. -/
def execVldp (d : Fin 256) (a b : Fin 64) (n1 : Fin 8) (s : State) : Out :=
  .next (s.slot [.s a, .s (pairReg a), .s b] [.v d] fun c s =>
    s.loadV d (descRows (c.getS a) (c.getS (pairReg a)) (c.getS b) (n1.val + 1)))
/-- VSTP. -/
def execVstp (d : Fin 256) (a b : Fin 64) (p : Fin 16) (n1 : Fin 8) (s : State) : Out :=
  .next (s.slot [.v d, .s a, .s (pairReg a), .s b] [] fun c s =>
    s.storeV (c.getV d) (c.getP p) (descRows (c.getS a) (c.getS (pairReg a)) (c.getS b) (n1.val + 1)))
/-- VLDX. -/
def execVldx (d : Fin 256) (a : Fin 64) (b : Fin 256) (s : State) : Out :=
  .next (s.slot [.s a, .v b] [.v d] fun c s => s.loadV d (indexRows (c.getS a).toNat (c.getV b)))
/-- VSTX. -/
def execVstx (d : Fin 256) (a : Fin 64) (b : Fin 256) (p : Fin 16) (s : State) : Out :=
  .next (s.slot [.v d, .s a, .v b] [] fun c s => s.storeV (c.getV d) (c.getP p) (indexRows (c.getS a).toNat (c.getV b)))
/-- SLD. -/
def execSld (d a : Fin 64) (k : Fin 32) (s : State) : Out :=
  .next (s.slot [.s a] [.s d] fun c s => s.pathC (plainRows (c.getS a).toNat 1) fun l s =>
    let r := s.loadRow (l.headD 0)
    let w := BitVec.ofNat 16384 (nbytes r.1.toNat (8 * k.val) 8)
    ((s.touchAll l).produce (.s d) (some w) r.2 (loadLatency s.issue.key (l.headD 0))).2)
/-- SST. -/
def execSst (d a : Fin 64) (k : Fin 32) (s : State) : Out :=
  .next (s.slot [.s d, .s a] [] fun c s => s.pathC (plainRows (c.getS a).toNat 1) fun l s =>
    s.storeAll [(l.headD 0, BitVec.ofNat 2048 ((c.getS d).toNat * 256 ^ (8 * k.val)), byteMask (8 * k.val) 8)])

/-! ### Copies -/

/-- A copy command of the bundle's task. -/
def State.copyCmd (s : State) (q : Fin 8) (cmd : BitVec 512) : CopyCmd :=
  ⟨0, s.origin, q, cmd, false, 0, none, 0, 0, 0, 0, 0, false, none, 0, 0⟩

/-- The rows of a copy's destination, absolute when local, that lie in a set of the task (R360). -/
def State.copySetRows (s : State) (c : Ctx) (cmd : BitVec 512) : List Nat :=
  let va := cpFlag cmd 1
  ((cpAllDst cmd).filterMap fun a => if va then some (a % 2 ^ 56) else canonLocal (quadOf s.issue.key) a).filter fun a => (c.granuleOf va a).isSome

/-- COPY (R269): one cell of the pool, then its queue. A holding task's copy into one of its sets is deferred (R360). -/
def execCopy (a : Fin 256) (q : Fin 8) (s : State) : Out :=
  .next (s.slot [.v a] [] fun c s =>
    let cmd : BitVec 512 := (c.getV a).setWidth 512
    s.memPath 1 fun s =>
      let rows := if s.holdsAny c.ticket then s.copySetRows c cmd else []
      if rows.isEmpty then
        if s.cellRoom (quadOf s.issue.key) 1 1 then
          let n := s.fresh
          (n.2.joinCopy { s.copyCmd q cmd with id := n.1 }).command n.1 1
        else s.waits
      else match s.needed c (cpFlag cmd 1) rows with
        | some g => (s.request g c.ticket c.run (some s.issue.key)).waits
        | none =>
          match s.journal? c.ticket with
          | none => s
          | some j =>
            let j := { j with deferred := j.deferred ++ [.copy (s.copyCmd q cmd)] }
            if j.fits then s.setJournal c.ticket j else s.trapSlot cJournalFull 0 0)

/-! ### FENCE and DRAIN -/

/-- FENCE (R326): younger operations of the after paths wait for the commands now outstanding on the before paths, and for the accesses that engines still
make for commands that they have accepted (R321). The scope narrows the order and is not needed by a model whose accesses perform whole (log 14). -/
def execFence (before after : BitVec 8) (_scope : Fin 8) (s : State) : Out :=
  .next (s.slot [] [] fun _ s => if s.pushing then s.waits else
    let ids := ((s.me.outstanding.filter fun o => before.getLsbD o.path.val).map (·.id)) ++
      ((s.engineIds s.me.ticket).filter fun e => before.getLsbD e.2).map (·.1)
    if ids.isEmpty || decide (after = 0) then s
    else s.own fun c => { c with fences := c.fences ++ [Fence.mk ids after] })

/-- DRAIN (R327): the context is not ready until the paths have performed. -/
def execDrain (paths : BitVec 8) (_scope : Fin 8) (s : State) : Out :=
  .next (s.slot [] [] fun _ s =>
    if s.pushing then s.waits
    else if s.me.drained paths then s else s.own fun c => { c with wait := .drain paths })

/-! ### Base-die queues -/

/-- The depth of a base-die queue in force: a change is held until the queue is empty (R342). -/
def State.bdqDepth (s : State) (i : Nat) : Nat := ((s.bdQueue i).heldDepth.getD (BitVec.ofNat 12 (s.fld .bdqcfg i 11 0))).toNat
/-- Show the entries held (R342). -/
def State.showBdq (s : State) (i : Nat) : State := s.setFld .bdqstat i 11 0 (s.bdQueue i).entries.length
/-- Whether a partition may push to a queue. -/
def State.mayPush (s : State) (i part : Nat) : Bool := decide (s.bdqDepth i ≠ 0) && (s.fld .bdqcfg i 31 16).testBit part
/-- Whether a partition may pop from a queue. -/
def State.mayPop (s : State) (i part : Nat) : Bool := decide (s.bdqDepth i ≠ 0) && (s.fld .bdqcfg i 47 32).testBit part
/-- The queue a scalar names. -/
def queueIndex (x : Word) : Nat := bitsOf x 9 0

/-- QPUSH (R343): a push that finds the queue full waits, and younger MEM operations of the context wait behind it. -/
def execQpush (a : Fin 256) (b : Fin 64) (s : State) : Out :=
  .next (s.slot [.v a, .s b] [] fun c s => s.memOp fun s =>
    let i := queueIndex (c.getS b)
    let data : BitVec 512 := (c.getV a).setWidth 512
    if s.mayPush i c.part.toNat then
      let q := s.bdQueue i
      if q.entries.length < s.bdqDepth i then
        ((s.setBdq i { q with entries := q.entries ++ [(data, none)] }).showBdq i).first [.bdqPopServe (Fin.ofNat 1024 i)]
      else
        let n := s.fresh
        let s := n.2.count .bdqstat i 63 32 1
        (s.setBdq i { q with pushes := q.pushes ++ [.task n.1 data] }).command n.1 0
    else s.trapSlot cQueueDenied 0 0)

/-- QPOP (R344). -/
def execQpop (d : Fin 256) (b : Fin 64) (s : State) : Out :=
  .next (s.slot [.s b] [.v d] fun c s => s.memOp fun s =>
    let i := queueIndex (c.getS b)
    if s.mayPop i c.part.toNat then
      let n := s.produce (.v d) none none 160
      let q := n.2.bdQueue i
      ((n.2.setBdq i { q with pops := q.pops ++ [(s.issue.key, [n.1], none)] }).command n.1 0).acquiring n.1 |>.first [.bdqPopServe (Fin.ofNat 1024 i)]
    else s.trapSlot cQueueDenied 0 0)

/-- QTRY (R345): the vector destination and the condition bit land together. -/
def execQtry (d : Fin 256) (b : Fin 64) (cb : Fin 8) (s : State) : Out :=
  .next (s.slot [.s b] [.v d, .c cb] fun c s => s.memOp fun s =>
    let i := queueIndex (c.getS b)
    if s.mayPop i c.part.toNat then
      let n := s.produce (.v d) none none 160
      let m := n.2.produce (.c cb) none none 160
      let q := m.2.bdQueue i
      ((m.2.setBdq i { q with pops := q.pops ++ [(s.issue.key, [n.1, m.1], some (c.getV d))] }).command n.1 0).acquiring n.1 |>.first
        [.bdqPopServe (Fin.ofNat 1024 i)]
    else s.trapSlot cQueueDenied 0 0)

/-! ### Data locks -/

/-- A team context has no locks: ASET and AJNL trap with PRIV, as they do in supervisor mode (R347, R394). -/
def State.lockOp (s : State) (f : State → State) : State :=
  if s.issue.src.sup || decide (s.issue.src.logical ≠ 0xFF) then s.trapSlot cPriv 0 0 else s.memOp f

/-- The absolute range of a local set, when it lies in one window of the task's partition (R261, R262, R349). -/
def State.localSet (s : State) (part q lo hi : Nat) : Option (Nat × Nat) :=
  if 2 ^ 40 < hi then none
  else match canonLocal q lo, canonLocal q (hi - 1) with
    | some a, some b =>
      if b ≠ a + (hi - 1 - lo) then none
      else match scratchQuad? a with
        | some x => if scratchQuad? b = some x ∧ s.quadPart x = part then some (a, b + 1) else none
        | none =>
          if bigDie a = bigDie b ∧ (List.range (bigSeg b - bigSeg a + 1)).all (fun i => decide (s.segOwner (bigDie a) (bigSeg a + i) = part))
          then some (a, b + 1) else none
    | _, _ => none

/-- ASET (R348, R349). -/
def execAset (a b : Fin 64) (set : Fin 16) (g : Fin 8) (s : State) : Out :=
  .next (s.slot [.s a, .s b] [] fun c s => s.lockOp fun s =>
    let va := (c.getS a).getLsbD 63
    let addr := if va then bitsOf (c.getS a) 55 0 else bitsOf (c.getS a) 39 0
    let gs := 256 * 4 ^ g.val
    let n := (c.getS b).toNat
    let others := s.me.sets.filter fun x => decide (x.id ≠ set)
    if n = 0 then s.own fun x => { x with sets := others }
    else
      let lo := addr / gs * gs
      let hi := cdiv (addr + n) gs * gs
      let put := fun (l h : Nat) => s.own fun x => { x with sets := others ++ [⟨set, va, l, h, gs⟩] }
      if va then if 2 ^ 56 < hi then s.trapSlot cLocalRange (BitVec.ofNat 64 addr) 0 else put lo hi
      else match s.localSet c.part.toNat (quadOf s.issue.key) lo hi with
        | some r => put r.1 r.2
        | none => s.trapSlot cLocalRange (BitVec.ofNat 64 addr) 0)

/-- AJNL (R351): the area lies in the issuing quad's scratchpad, which becomes the home quad. -/
def execAjnl (a : Fin 64) (s : State) : Out :=
  .next (s.slot [.s a] [] fun c s => s.lockOp fun s =>
    let addr := rowOf ((c.getS a).toNat % 2 ^ 40)
    let q := quadOf s.issue.key
    let rows := ((s.job? c.job.toNat).map Job.jnlRows).getD 0
    let bad := s.trapSlot cLocalRange (BitVec.ofNat 64 addr) 0
    match canonLocal q addr with
    | none => bad
    | some k =>
      let j : Journal := ⟨q, k % 0x1000000 / 256, rows, true, [], [], [], none, false⟩
      if scratchQuad? k ≠ some q ∨ 65536 < j.row + j.total then bad
      else if s.holdsAny c.ticket then s.trapSlot cLockState 0 0
      else (s.disarm c.ticket).setJournal c.ticket j)

/-! ### Tier streams -/

/-- TGO (R298): the start request goes to the engine. -/
def execTgo (a : Fin 64) (e : Fin 4) (s : State) : Out :=
  .next (s.slot [.s a] [] fun c s =>
    s.memPath 3 fun s =>
      let n := s.fresh
      let w := tgetD n.2.wheels e.val .reset
      ({ n.2 with wheels := tset n.2.wheels e.val { w with starts := w.starts ++ [WheelReq.mk n.1 s.origin (c.getS a)] } }).command n.1 3)

/-- TREL (R299): it reaches the engine only after every older MEM-slot access of the context has performed. -/
def execTrel (a : Fin 64) (e : Fin 4) (s : State) : Out :=
  .next (s.slot [.s a] [] fun c s =>
    if s.fenced 0 || s.fenced 3 || s.me.outstanding.any fun o => decide (o.path = 0) then s.waits
    else
      let n := s.fresh
      let w := tgetD n.2.wheels e.val .reset
      let s := { n.2 with wheels := tset n.2.wheels e.val { w with rels := w.rels ++ [WheelReq.mk n.1 s.origin (c.getS a)] } }
      ((s.command n.1 0).command n.1 3).first [.shardRelease e])

/-! ### Translations and context saves -/

/-- TLBI (R411): every cache drops the entries of the partition that hold the page, or with `all` all of them. No younger bundle is dispatched while an access
that has been translated through one, or through the page itself, still waits for the host (log 18). -/
def execTlbi (a : Fin 64) (all : Bool) (s : State) : Out :=
  .next (s.privileged fun s => s.slot [.s a] [] fun c s => s.memOp fun s =>
    let va := bitsOf (c.getS a) 55 0
    let match_ (t : TransEntry) : Bool := if all then decide (t.part = c.part) else t.hits c.part.toNat va 1
    let spans := (s.translations.filter match_).map fun t => (t.va, t.bytes)
    let under := (if all then [(0, 2 ^ 56)] else (va, 1) :: spans).flatMap fun x => s.underWay c.part.toNat x.1 x.2
    let ids := (under.map (·.id)).eraseDups
    let s := s.dropTranslations match_
    if ids.isEmpty then s else s.own fun c => { c with wait := .tlb ids })

/-- The context that CTXSV and CTXLD name (R404). -/
def namedCtx (x : Word) : Nat := bitsOf x 9 3 * 8 + bitsOf x 2 0

/-- CTXSV (R404): the named context of the same core takes a trap that is due (R408) and stops, its image is written, and it is free. -/
def execCtxsv (a b : Fin 64) (s : State) : Out :=
  .next (s.privileged fun s => s.slot [.s a, .s b] [] fun c s => s.memOp fun s =>
    let k := namedCtx (c.getS b)
    let x := s.ctx k
    let addr := rowOf ((c.getS a).toNat % 2 ^ 40)
    if coreOf k ≠ coreOf s.issue.key ∨ k = s.issue.key ∨ x.life = .free then s.trapSlot cCtxState 0 1
    else if x.life = .ending then s.waits
    else
      let n := saveRows x.vregs (decide (x.logical ≠ 0xFF))
      match s.resolve c.part.toNat (quadOf s.issue.key) (plainRows addr n) with
      | .held l => (l.foldl (fun s a => s.startExit a) s).waits
      | .range bad =>
        let s := s.boundary k
        if (s.ctx k).life = .free then s else s.saveFails k bad c.ticket
      | .ok addrs =>
        let s := s.boundary k
        if (s.ctx k).life = .free then s
        else
        let f := s.savedForm k (addrs.map fun a => SaveRow.named a) false []
        let s := (addrs.zip f.1.image).foldl (fun s e => (s.touch e.1).storeRow (localKey e.1) e.2 fullMask) f.2
        ({ s with stored := s.stored ++ [f.1] }.vacate k).settle)

/-- Whether the rows at an address are the image of a saved context (R403; log 20). -/
def State.imageAt (s : State) (part q a : Nat) (x : Saved) : Bool :=
  match s.resolve part q (plainRows a x.image.length) with
  | .ok l => decide (l.map (fun k => s.issue.mem.row (localKey k)) = x.image) && !(l.any fun k => s.issue.mem.poisoned (localKey k))
  | _ => false

/-- What holds a later row of the image of a saved context whose first row lies at an address (R413): CTXLD waits for it. -/
def State.imageHeld (s : State) (part q a : Nat) (x : Saved) : Option (List ArrayId) :=
  match s.resolve part q [rowOf a], s.resolve part q (plainRows a x.image.length) with
  | .ok l, .held arrays => if (l.map fun k => s.issue.mem.row (localKey k)) = x.image.take 1 then some arrays else none
  | _, _ => none

/-- Note the accesses of the rows of an image for retention (R413). -/
def State.touchRows (s : State) (a n : Nat) : State :=
  (plainRows a n).foldl (fun (s : State) r => match canonLocal (quadOf s.issue.key) r with
    | some k => s.touch k
    | none => s) s

/-- The image of a context that CTXLD has loaded, as it still stands in memory: what was on its way to the saved context goes on to the loaded one. -/
def Saved.spent (x : Saved) : Saved :=
  { x with ctx := { x.ctx with inflight := x.ctx.inflight.filter fun l => l.value.isSome, outstanding := [], fences := [] } }

/-- Load a saved context (R405): a context that the scheduler has saved is no longer its work, and an image that CTXSV has made stays in memory. -/
def State.loadImageOf (s : State) (x : Saved) (key : Nat) : State :=
  let s := { s with saved := s.saved.erase x, stored := s.stored.map fun y => if y = x then y.spent else y }
  s.restore x key none

/-- CTXLD (R405): a context that holds granules, or that waits for one, is restored on its home quad alone; elsewhere CTXLD finds no room for it (DESIGN
CHOICE: R358 and R365 name the quad, and R405 gives no cause; log 44). -/
def execCtxld (a b : Fin 64) (s : State) : Out :=
  .next (s.privileged fun s => s.slot [.s a, .s b] [] fun c s => s.memOp fun s =>
    let k := namedCtx (c.getS b)
    let addr := rowOf ((c.getS a).toNat % 2 ^ 40)
    let q := quadOf s.issue.key
    if coreOf k ≠ coreOf s.issue.key ∨ k = s.issue.key then s.trapSlot cCtxState 0 1
    else if (s.ctx k).life ≠ .free then s.trapSlot cCtxState 0 2
    else match s.resolve c.part.toNat q [addr] with
      | .range bad => s.trapSlot cLocalRange (BitVec.ofNat 64 bad) 0
      | .held l => (l.foldl (fun s a => s.startExit a) s).waits
      | .ok _ =>
        match (s.stored ++ s.saved).find? fun x => s.imageAt c.part.toNat q addr x with
        | none => match (s.stored ++ s.saved).findSome? fun x => s.imageHeld c.part.toNat q addr x with
          | some l => (l.foldl (fun s a => s.startExit a) s).waits
          | none => s.trapSlot cCtxState 0 3
        | some x =>
          if s.windowRoom (coreOf k) x.ctx.vregs && (x.homeQuad.all fun h => decide (h = quadOf k)) then (s.touchRows addr x.image.length).loadImageOf x k
          else s.trapSlot cCtxState 0 2)

end Sys2Proof.Machine
end

