-- ==== Sys2Proof/Machine/Owner.lean ====
section
/-!
DEFINITION. Owner: the ringmaster (R47) and the writes that it alone may make.
-/
namespace Sys2Proof.Machine

/-- OWNER.VACANT. -/
def State.vacant (s : State) : Bool := decide (s.fld .owner 0 8 8 = 1)
/-- Whether an agent owns the module. -/
def State.isOwner (s : State) (agent : Nat) : Bool := !s.vacant && decide (s.fld .owner 0 7 0 = agent)
/-- OWNER.DENIED is set by a write that is dropped. -/
def State.denied (s : State) : State := s.raise .owner 0 9
/-- Whether the register pages answer an agent: in recovery none does that is reached through BAR0, the registers of R435 apart (R432). -/
def State.hears (s : State) (agent : Nat) : Bool := s.running || decide (agent ≠ 0)
/-- A write that only the owner may make: dropped and DENIED for any other agent, without effect in recovery on BAR0 (R432). -/
def State.ownerWrite (s : State) (agent : Nat) (f : State → State) : State :=
  if s.hears agent then (if s.isOwner agent then f s else s.denied) else s
/-- A change of owner, which counts in EPOCH: none makes OWNER vacant. -/
def State.changeOwner (s : State) (agent : Option Nat) : State :=
  let s := ({ s with claimed := none }.setFld .owner 0 7 0 (agent.getD 0xFF)).setFld .owner 0 8 8 agent.isNone.toNat
  s.setFld .owner 0 31 16 (s.fld .owner 0 31 16 + 1)
/-- Whether an agent is a candidate (R47). -/
def State.candidate (s : State) (agent : Nat) : Bool := decide (agent < 16) && (s.fld .candmask 0 15 0).testBit agent

end Sys2Proof.Machine
end

