-- ==== Sys2Proof/Machine/Sync.lean ====
section
/-!
DEFINITION. Sync: barriers (R329 to R331), the monitor tables and the fallback of WAITA (R332, R333), and the base-die queues (R342 to R345).
-/
namespace Sys2Proof.Machine

/-! ### Barriers -/

/-- Whether two contexts lie in one instance of a barrier's scope (R11, R329). -/
def sameInstance (scope a b : Nat) : Bool :=
  match scope with
  | 1 => decide (coreOf a = coreOf b)
  | 2 => decide (quadOf a = quadOf b)
  | 3 => decide (dieOf a = dieOf b)
  | _ => true

/-- The contexts of a job's team where they are placed. -/
def State.teamKeys (s : State) (job : Nat) : List Nat :=
  (((s.job? job).bind (·.team)).map fun t => t.places.map fun p => p.core.val * 8 + p.ctx.val).getD []

/-- Release contexts that wait at a barrier. -/
def State.releaseBar (s : State) (scope id job : Nat) (keys : List Nat) : State :=
  let s := { s with barriers := s.barriers.filter fun e => !(decide (e.1 = scope ∧ e.2.1 = id ∧ e.2.2.1 = job) && keys.contains e.2.2.2) }
  keys.foldl (fun s k => s.modCtx k fun c => { c with wait := .none }) s

/-- Modules named by PBAR_n (R330). -/
def State.podModules (s : State) (part : Nat) : List Nat := (List.range 64).filter fun m => (s.reg ⟨.pbar, part⟩).toNat.testBit m

/-- Halves of a POD barrier that are known to be complete are kept (R330, R331), each once. -/
def State.keepHalves (s : State) (part id : Nat) (l : List Nat) : State :=
  { s with podHalves := s.podHalves ++ (l.filter fun m => !s.podHalves.contains (part, id, m)).map fun m => (part, id, m) }

/-- The half of another module comes in (R330): a second one of the id is that of its next round. -/
def State.halfIn (s : State) (part id m : Nat) : State := { s with podHalves := s.podHalves ++ [(part, id, m)] }

/-- A POD barrier releases (R330): each module's half of this round is used up, and the id goes to the team that has arrived at it first of those that
wait. -/
def State.podRound (s : State) (part id job : Nat) (keys : List Nat) : State :=
  let s := { s with podHalves := (List.range 64).foldl (fun l m => l.erase (part, id, m)) s.podHalves, podHolders := terase s.podHolders (part, id) }
  let s := s.releaseBar 5 id job keys
  match s.barriers.find? fun e => decide (e.1 = 5 ∧ e.2.1 = id ∧ ((s.job? e.2.2.1).map Job.part) = some part) with
  | some e => s.holdPod e.2.2.1 id
  | none => s

/-- The POD barrier of a partition (R330): the local half of the team that holds the id is complete, and is told to the other modules once; with every
named module's half it releases. A module outside its own mask releases at once. -/
def State.podRelease (s : State) (part id job : Nat) (keys : List Nat) : State :=
  let me := s.pkgid.toNat
  let named := s.podModules part
  if tget s.podHolders (part, id) ≠ some job then s
  else if !named.contains me then s.podRound part id job keys
  else
    let s := if s.podHalves.contains (part, id, me) then s else ((named.filter (· ≠ me)).foldl (fun (s : State) m => s.ropeFlit (some m) (.barrierHalf part id me)) s).keepHalves part id [me]
    if named.all fun m => s.podHalves.contains (part, id, m) then s.podRound part id job keys else s

/-- BAR_RELEASE (R329, R330): the barrier at which a context waits, once every member has arrived. `halves` are the modules whose halves are known to be
complete; they are kept until the release. -/
def execBarRelease (core : Fin 128) (ctx : Fin 8) (halves : List Nat) (s : State) : Out :=
  let key := core.val * 8 + ctx.val
  .next (match s.barriers.find? fun e => decide (e.2.2.2 = key) with
  | none => s
  | some (scope, id, job, _) =>
    let part := ((s.job? job).map Job.part).getD 0
    let s := if scope = 5 then s.keepHalves part id halves else s
    let keys := (s.teamKeys job).filter fun k => sameInstance scope key k
    if keys.all fun k => s.barriers.contains (scope, id, job, k) then
      if scope = 5 then s.podRelease part id job keys else s.releaseBar scope id job keys
    else s)

/-! ### Monitored waits -/

/-- A sleeper wakes (R332): a team context goes on; another task is pushed to its task queue, once written out. -/
def State.wakeSleeper (s : State) (e : MonEntry) : State :=
  match e.record, e.ctxKey with
  | some r, _ => s.pushRec e.part.toNat r
  | none, some k =>
    let c := s.ctx k
    if c.logical ≠ 0xFF then s.modCtx k fun c => { c with wait := .none }
    else (s.modCtx k fun c => { c with wait := .suspend c.pc }).writeOut k c.pc
  | none, none => s

/-- Drop an entry of the monitor table of a quad, or of those that the Organ keeps. -/
def State.dropEntry (s : State) (q id : Nat) : State :=
  ({ s with monDuty := s.monDuty.filter fun y => decide (y.id ≠ id) }.modQuad q fun x =>
    { x with monitor := x.monitor.filter fun y => decide (y.id ≠ id) }).showMonitor q

/-- The test of a sleeper can no longer reach its row (R262, R352): a context takes a LOCAL_RANGE trap at its next bundle, and a task that is written out is
abandoned (DESIGN CHOICE: R352 says only that such an access traps or fails; log 45). -/
def State.sleeperFails (s : State) (e : MonEntry) : State :=
  match e.record, e.ctxKey with
  | some r, _ => s.abandonRec e.part.toNat r cLocalRange.toNat
  | none, some k =>
    let s := s.modCtx k fun c => { c with wait := .none }
    let pc := (s.ctx k).pc
    s.takeTrap k cLocalRange 0 0 pc pc (BitVec.ofNat 64 (e.addr - 2 ^ 52)) 0
  | none, none => s

/-- The ticket of the task of an entry. -/
def State.sleeper (s : State) (e : MonEntry) : Word :=
  match e.record, e.ctxKey with
  | some r, _ => r.ticket
  | none, some k => (s.ctx k).ticket
  | none, none => 0

/-- Test an entry: it wakes its task, or its next test is in the cycle `next`; a test that an array holds is made as soon as it can be (R413). -/
def State.testEntry (s : State) (q : Nat) (e : MonEntry) (next : Nat) : State :=
  let at_ (s : State) (n : Nat) : State :=
    let f (y : MonEntry) : MonEntry := if y.id = e.id then { y with next := n } else y
    { s with monDuty := s.monDuty.map f }.modQuad q fun x => { x with monitor := x.monitor.map f }
  match s.testWord (s.sleeper e) e.part.toNat e.addr e.val e.mode with
  | .tested true s => (s.dropEntry q e.id).wakeSleeper e
  | .tested false s => at_ s next
  | .held s => at_ s (s.now + 1)
  | .range => (s.dropEntry q e.id).sleeperFails e

/-- MONITOR_RETEST (R332): an entry of a quad's table, or one that the Organ's monitor duty keeps, is tested again; the duty tests it every POLLGAP
cycles. -/
def execMonitorRetest (quad : Fin 32) (id : Nat) (s : State) : Out :=
  .next (match (s.quad quad.val).monitor.find? fun e => decide (e.id = id) with
  | some e => s.testEntry quad.val e 0
  | none =>
    match s.monDuty.find? fun e => decide (e.id = id) with
    | none => s
    | some e => if s.now < e.next then s else s.testEntry quad.val e (s.now + e.gap))

/-- WAITA_POLL (R333): a WAITA that sleeps in place reads its word again, every POLLGAP cycles, as a path-C access of its task (R320, R352, R413). -/
def execWaitaPoll (core : Fin 128) (ctx : Fin 8) (s : State) : Out :=
  let key := core.val * 8 + ctx.val
  let c := s.ctx key
  .next (match c.wait with
  | .word (some due) addr val mode =>
    if s.now < due then s
    else match s.testWord c.ticket c.part.toNat addr val mode with
      | .tested true s => s.modCtx key fun c => { c with wait := .none }
      | .tested false s => s.modCtx key fun c => { c with wait := .word (some (s.now + s.pollGap (quadOf key))) addr val mode }
      | .held s => s
      | .range => s.sleeperFails ⟨0, addr, val, mode, some key, none, c.part, c.prio, 0, 0⟩
  | _ => s)

/-! ### Base-die queues -/

/-- The register that a pop fills: the entry in bytes 0 to 63 (R344). -/
def popValue (e : BitVec 512) : VReg := e.setWidth 16384

/-- A field of a GATHER_CFG packet (R314). -/
def gField (c : BitVec 512) (o n : Nat) : Nat := nbytes c.toNat o n
/-- PART. -/
def gPart (c : BitVec 512) : Nat := gField c 9 1
/-- EN. -/
def gOn (c : BitVec 512) : Bool := decide (gField c 10 1 % 2 = 1)
/-- An unconfigured channel. -/
def GatherChan.empty : GatherChan := ⟨0, [], 0, []⟩
/-- One channel. -/
def State.gatherChan (s : State) (g : Nat) : GatherChan := tgetD s.gather g .empty
/-- Change a channel. -/
def State.modGather (s : State) (g : Nat) (f : GatherChan → GatherChan) : State := { s with gather := tset s.gather g (f (s.gatherChan g)) }

/-- The list of a batch (R318). -/
def Batch.list (b : Batch) : Nat :=
  pack (b.items.map fun e => (32, pack [(8, e.2.rid.toNat), (8, e.2.user.toNat), (8, e.2.deadline), (2, e.1), (2, e.2.nrows), (4, 0)]))

/-- Address of a batch's list. -/
def Batch.listAt (b : Batch) : Nat := gField b.cfg 48 8 + b.num % gField b.cfg 56 4 * 1024

/-- The record of a batch (R318). -/
def Batch.record (b : Batch) (g : Nat) : BitVec 512 :=
  BitVec.ofNat 512 (pack [(8, b.num), (1, g), (1, b.reason), (2, b.items.length), (4, (b.items.map fun e => e.2.nrows).sum), (8, b.closed),
    (8, ((b.items.map fun e => e.2.deadline).min?).getD 0), (8, b.listAt), (24, 0)])

/-- Whether a push that waits at a queue may enter it when it has room: a batch only from a partition that PUSHMASK admits (R318); a QPUSH has been admitted
at its start (R343). -/
def State.admits (s : State) (i : Nat) : PushWait → Bool
  | .task _ _ => true
  | .batch g => match (s.gatherChan g).batches with
    | b :: _ => s.mayPush i (gPart b.cfg)
    | [] => true

/-- A push enters its queue. The next batch of a channel then comes to its turn. -/
def State.enterPush (s : State) (i : Nat) (w : PushWait) : State :=
  let put (s : State) (d : BitVec 512) : State := s.setBdq i { s.bdQueue i with entries := (s.bdQueue i).entries ++ [(d, none)] }
  let s := s.setBdq i { s.bdQueue i with pushes := (s.bdQueue i).pushes.erase w }
  match w with
  | .task id data => (put s data).performed id
  | .batch g => match (s.gatherChan g).batches with
    | b :: t => (put (s.modGather g fun y => { y with batches := t }) (b.record g)).first (if t.isEmpty then [] else [.batchPush (Fin.ofNat 16 g)])
    | [] => s

/-- Take the waiting pushes that now fit, in their order of arrival (R343). -/
def State.admitPushes (s : State) (i : Nat) : Nat → State
  | 0 => s
  | fuel + 1 =>
    if (s.bdQueue i).entries.length < s.bdqDepth i then
      match (s.bdQueue i).pushes.find? (s.admits i) with
      | some w => (s.enterPush i w).admitPushes i fuel
      | none => s
    else s

/-- Serve the requests of a queue in order of arrival (R344, R345): a QPOP is held while the queue is empty, a QTRY is answered. -/
def State.servePops (s : State) (i : Nat) : List (Nat × List Nat × Option VReg) → State
  | [] => s
  | (key, ids, old) :: t =>
    let q := s.bdQueue i
    match q.entries, old with
    | e :: es, _ =>
      let s := s.setBdq i { q with entries := es }
      let s := s.answerWith (ids.headD 0) (popValue e.1) e.2 0 2 (ids.tail.head?.map fun c => (c, true))
      (((s.performed (ids.headD 0)).admitPushes i 1)).servePops i t
    | [], some v =>
      let s := s.answerWith (ids.headD 0) v none 0 2 (ids.tail.head?.map fun c => (c, false))
      (s.performed (ids.headD 0)).servePops i t
    | [], none =>
      let s := s.servePops i t
      s.setBdq i { s.bdQueue i with pops := (key, ids, old) :: (s.bdQueue i).pops }

/-- Bring a queue up to date: waiting pushes, requests, and a held change of DEPTH once it is empty (R342). -/
def State.serveBdq (s : State) (i : Nat) : State :=
  let s := s.admitPushes i (s.bdQueue i).pushes.length
  let l := (s.bdQueue i).pops
  let s := (s.setBdq i { s.bdQueue i with pops := [] }).servePops i l
  let s := if (s.bdQueue i).entries.isEmpty then s.setBdq i { s.bdQueue i with heldDepth := none } else s
  (s.admitPushes i (s.bdQueue i).pushes.length).showBdq i

/-- BDQ_POP_SERVE (R344). -/
def execBdqPopServe (i : Fin 1024) (s : State) : Out := .next (s.serveBdq i.val)

/-- A write of BDQCFG_i (R342): a change of DEPTH is held until the queue is empty. -/
def State.writeBdqcfg (s : State) (i : Nat) (v : Word) : State :=
  let q := s.bdQueue i
  let old := s.bdqDepth i
  let s := s.setReg ⟨.bdqcfg, i⟩ (v &&& (MReg.mk .bdqcfg i).rw)
  (s.setBdq i { q with heldDepth := if q.entries.isEmpty then none else some (BitVec.ofNat 12 old) }).serveBdq i

/-- BDQCFG_WRITE (R47, R342). -/
def execBdqcfgWrite (agent : Nat) (i : Fin 1024) (value : BitVec 64) (s : State) : Out :=
  .next (s.ownerWrite agent fun s => s.writeBdqcfg i.val value)

end Sys2Proof.Machine
end

