-- ==== Sys2Proof/Machine/Rope.lean ====
section
/-!
DEFINITION. Rope: the collectives of the Tightrope (R370 to R385). The base dies act for this module; what other modules send
comes in as operands of the steps, and what this module sends leaves through its ports (log 4).
-/
namespace Sys2Proof.Machine

/-! ### Descriptors (R372 to R374) -/

/-- A field of a collective descriptor: `n` bytes from byte `o`. -/
def cf (c : BitVec 512) (o n : Nat) : Nat := nbytes c.toNat o n
/-- CKIND: 0 ALLREDUCE, 1 ALLGATHER, 2 REDSCAT, 3 BCAST. -/
def cKind (c : BitVec 512) : Nat := cf c 0 1
/-- COP: 0 SUM, 1 MAX, 2 MIN. -/
def cOp (c : BitVec 512) : Nat := cf c 1 1
/-- The element format, or FP32 for a reserved code. -/
def cFmt (c : BitVec 512) : Fmt := (Fmt.ofCode (cf c 2 1)).getD .fp32
/-- COUNT. -/
def cCount (c : BitVec 512) : Nat := cf c 4 4
/-- GROUP. -/
def cGroup (c : BitVec 512) : Nat := cf c 12 2
/-- Whether the kind gathers: its chunks have a source and are not reduced. -/
def cGathers (c : BitVec 512) : Bool := decide (cKind c = 1 ∨ cKind c = 3)
/-- Whether it is a floating SUM, which runs in two phases (R377). -/
def cTwoPhase (c : BitVec 512) : Bool := !cGathers c && decide (cOp c = 0) && (cFmt c).isFloat
/-- Whether the payload is FX48 values (R377). -/
def cSums (c : BitVec 512) : Bool := !cGathers c && decide (cOp c = 0)

/-- Whether an address field of a descriptor is well formed (R372), and, when local, lies in some window of R261. -/
def addrField (q x : Nat) : Bool :=
  if x.testBit 63 then decide (nbits x 62 56 = 0) else decide (nbits x 62 40 = 0) && (canonLocal q x).isSome

/-- The checks of R372 and R374 at HCOLL (R386): whether a descriptor is refused. -/
def badColl (q : Nat) (c : BitVec 512) : Bool :=
  let k := cKind c
  let code := cf c 2 1
  let chunk := cf c 8 4
  let gather := decide (k = 1 ∨ k = 3)
  let okFmt := if gather then decide (code ≤ 10) else if cOp c = 0 then [0, 1, 2, 3, 4, 8].contains code else decide (code ≤ 9)
  decide (3 < k ∨ 2 < cOp c) || (gather && decide (cOp c ≠ 0)) || !okFmt || decide (1 < cf c 3 1) ||
    !((List.range 7).any fun i => decide (chunk = 65536 * 2 ^ i)) || decide (255 < cGroup c ∨ 63 < cf c 14 2) ||
    !addrField q (cf c 32 8) || !addrField q (cf c 48 8) || (cf c 40 8).testBit 63 || decide (cf c 56 8 ≠ 0)

/-- The signature of a collective (R375). -/
def signature (c : BitVec 512) : Nat :=
  checksumFrom (pack [(8, cKind c + 256 * cOp c + 65536 * cf c 2 1), (8, cCount c), (8, cf c 8 4), (8, cGroup c)]) 0 4 0

/-- Elements per chunk. -/
def cEpc (c : BitVec 512) : Nat := cf c 8 4 * 8 / (cFmt c).width
/-- Chunks per segment. -/
def cK (c : BitVec 512) : Nat := cdiv (cCount c) (cEpc c)
/-- N. -/
def Coll.n (x : Coll) : Nat := x.members.length
/-- Chunks of a collective (R373). -/
def Coll.total (x : Coll) : Nat := if cKind x.cmd = 1 ∨ cKind x.cmd = 2 then x.n * cK x.cmd else cK x.cmd
/-- The owner or source of a chunk (R373). -/
def Coll.owner (x : Coll) (ch : Nat) : Nat :=
  match cKind x.cmd with
  | 0 => ch % x.n
  | 3 => 0
  | _ => ch / cK x.cmd
/-- Elements of a chunk. -/
def Coll.size (x : Coll) (ch : Nat) : Nat :=
  let j := ch % cK x.cmd
  min ((j + 1) * cEpc x.cmd) (cCount x.cmd) - j * cEpc x.cmd
/-- First element of a chunk within the input of a member. -/
def Coll.inAt (x : Coll) (ch : Nat) : Nat :=
  let j := ch % cK x.cmd * cEpc x.cmd
  if cKind x.cmd = 2 then ch / cK x.cmd * cCount x.cmd + j else j
/-- First element of a chunk within the output of a member that holds it. -/
def Coll.outAt (x : Coll) (ch : Nat) : Nat :=
  let j := ch % cK x.cmd * cEpc x.cmd
  if cKind x.cmd = 1 then ch / cK x.cmd * cCount x.cmd + j else j
/-- Whether the output of a member holds a chunk. -/
def Coll.holds (x : Coll) (me ch : Nat) : Bool := decide (cKind x.cmd ≠ 2) || decide (x.owner ch = me)
/-- Whether a member contributes or sources a chunk. -/
def Coll.sources (x : Coll) (me ch : Nat) : Bool := !cGathers x.cmd || decide (x.owner ch = me)

/-! ### The module's place in a group -/

/-- Members of a group, by module, in order of rank (R370). -/
def State.groupMembers (s : State) (g : Nat) : List Nat := (List.range 64).filter fun m => (s.reg ⟨.tgrp, g⟩).toNat.testBit m
/-- This module's rank among members. -/
def State.rankIn (s : State) (l : List Nat) : Option Nat := l.findIdx? fun m => decide (m = s.pkgid.toNat)
/-- This module's rank in a collective: that of its descriptor when it is no member. -/
def State.rank (s : State) (x : Coll) : Nat := (s.rankIn x.members).getD (cf x.cmd 14 2)

/-- Whether this module is member 0 of a collective, which decides (R376): one whose group is empty here decides for itself. -/
def State.leads (s : State) (x : Coll) : Bool := x.members.isEmpty || decide (s.rankIn x.members = some 0)

/-- Word w of a named-buffer entry (R371). -/
def State.bufWord (s : State) (part b w : Nat) : Nat := (s.reg ⟨.tnb, part * 1024 + 4 * b + w⟩).toNat

/-- Whether a buffer reference is usable for `count` elements of a format (R371, R376 cause 4). -/
def State.bufOk (s : State) (part ref code count : Nat) : Bool :=
  let b := ref % 256
  let base := s.bufWord part b 0
  let w1 := s.bufWord part b 1
  let width := ((Fmt.ofCode code).map Fmt.width).getD 8
  decide (base % 256 = 0 ∧ base < 2 ^ 56 ∧ nbits w1 47 40 = 1 ∧ nbits w1 63 48 = 0 ∧ s.bufWord part b 2 = 0 ∧ s.bufWord part b 3 = 0) &&
    decide (nbits w1 39 32 = code) && decide (count = 0 ∨ ref / 256 + cdiv (count * width) 2048 ≤ nbits w1 31 0)

/-- Device VA of the first row of a buffer reference. -/
def State.bufVa (s : State) (part ref : Nat) : Nat := s.bufWord part (ref % 256) 0 + ref / 256 * 256

/-- The local checks of R376: the lowest failing cause, or 0. -/
def State.collCheck (s : State) (part : Nat) (c : BitVec 512) : Nat :=
  let g := cGroup c
  let l := s.groupMembers g
  let n := l.length
  let segs := fun (many : Bool) => if many then n * cCount c else cCount c
  let inOk := (decide (cKind c = 3) && decide (s.rankIn l ≠ some 0)) || s.bufOk part (cf c 16 4) (cf c 2 1) (segs (decide (cKind c = 2)))
  let outOk := s.bufOk part (cf c 20 4) (cf c 2 1) (segs (decide (cKind c = 1)))
  if s.fld .tgrpc g 4 4 = 0 ∨ s.fld .tgrpc g 3 0 ≠ part ∨ (s.rankIn l).isNone then 2
  else if s.rankIn l ≠ some (cf c 14 2) then 3
  else if !inOk || !outOk then 4
  else 0

/-! ### The live collectives -/

/-- A live collective. -/
def State.coll? (s : State) (g q : Nat) : Option Coll := (s.colls.find? fun e => decide (e.1 = g ∧ e.2.1 = q)).map (·.2.2)
/-- Change a collective. -/
def State.modColl (s : State) (g q : Nat) (f : Coll → Coll) : State :=
  { s with colls := s.colls.map fun e => if e.1 = g ∧ e.2.1 = q then (g, q, f e.2.2) else e }
/-- Remove a collective. -/
def State.dropColl (s : State) (g q : Nat) : State := { s with colls := s.colls.filter fun e => !decide (e.1 = g ∧ e.2.1 = q) }
/-- A chunk that nothing has touched. -/
def Chunk.fresh : Chunk := ⟨none, [], [], [], 0, false, false, none, false, false, false, [], false⟩
/-- One chunk of a collective. -/
def Coll.chunk (x : Coll) (ch : Nat) : Chunk := tgetD x.chunks ch .fresh
/-- Change one chunk. -/
def State.modChunk (s : State) (g q ch : Nat) (f : Chunk → Chunk) : State :=
  s.modColl g q fun x => { x with chunks := tset x.chunks ch (f (x.chunk ch)) }

/-- The event source of a collective's reports: the base die of the issuing quad's die. -/
def Coll.src (x : Coll) : BitVec 16 := srcDie (x.org.quad / 8)

/-- A fault record of a collective (R380, R409). -/
def State.collFault (s : State) (x : Coll) (cause : Cause) (addr ch : Nat) : State :=
  s.postFault { cause := cause, src := 4, part := x.org.part.toNat, job := some x.org.job.toNat, unit := cGroup x.cmd, addr := addr, done := ch,
                ticket := x.org.ticket }

/-- Whether a local address lies in a quad that has left the collective's partition since its acceptance, though it may have come back (R383). -/
def State.quadGone (s : State) (x : Coll) (a : Nat) : Bool :=
  match (canonLocal x.org.quad a).bind scratchQuad? with
  | some q => decide (s.quadPart q ≠ x.org.part.toNat) || (s.quad q).gone.any fun e => decide (e.1 = x.org.part.toNat ∧ x.accepted ≤ e.2)
  | none => false

/-- The local or device virtual address of a descriptor (bit 63: device VA). -/
def ropeVa (addr : Nat) : Bool := addr.testBit 63
/-- Its address bits. -/
def ropeAddr (addr : Nat) : Nat := if ropeVa addr then addr % 2 ^ 56 else addr % 2 ^ 40

/-- Where a write on path T ends (R360, R383): a moved quad and a set of the task are not written. -/
def State.ropeSpot (s : State) (x : Coll) (addr need width : Nat) : Spot :=
  let a := ropeAddr addr
  if !ropeVa addr && s.quadGone x a then .fail cPartMoved
  else if s.inOwnSet x.org (ropeVa addr) a then .fail cSetWrite
  else if ropeVa addr then s.spotVa x.org.part.toNat a need width
  else s.spotLocal x.org.part.toNat x.org.quad a

/-- Park what a collective has to write (R293, R426). -/
def State.ropePark (s : State) (g q : Nat) (x : Coll) (a : Nat) (link : Bool) : State :=
  if link then s.parkLink x.org.part.toNat a (.collWrites g q)
  else s.park x.org.part.toNat a (some x.org.job.toNat) x.org.ticket 4 (cGroup x.cmd) 0 (.collWrites g q)

/-- A write on path T that does not end in memory: an absent page and the host link park it, zeroing and retention hold it, any other failure is recorded
and the write is over (R293, R383, R413, R426). Answers whether it is over. -/
def State.ropeStops (s : State) (g q : Nat) (x : Coll) (addr : Nat) : Spot → Bool × State
  | .absent => (false, s.ropePark g q x (ropeAddr addr) false)
  | .link => (false, s.ropePark g q x (ropeAddr addr) true)
  | .hold => (false, s.wakeArray x.org (ropeVa addr) (ropeAddr addr))
  | .fail c => (true, s.collFault x c (ropeAddr addr) 0)
  | .mem _ | .regs _ => (true, s.collFault x cPerm (ropeAddr addr) 0)

/-- Write the flag of a collective (R376, R383): whether that is over, and whether the flag is written. -/
def State.flagPut (s : State) (g q : Nat) (x : Coll) (v : Nat) : Bool × Bool × State :=
  let addr := cf x.cmd 32 8 / 8 * 8
  let s := s.flushPuts
  match s.ropeSpot x addr 2 8 with
  | .mem k => (true, true, (s.touchLocal x.org (ropeVa addr) (ropeAddr addr) .die).storeSpan k 8 v)
  | .regs off =>
    if s.engineMayWrite x.org.part.toNat off then (true, true, s.writeAt x.org.part.toNat 8 v (.regs off))
    else (true, false, s.collFault x cPerm (ropeAddr addr) 0)
  | sp => let r := s.ropeStops g q x addr sp; (r.1, false, r.2)

/-- The bytes of a report (R381). -/
def reportBytes (kind prio g q ch member hop expected received time : Nat) : BitVec 512 :=
  BitVec.ofNat 512 (pack [(1, kind), (1, prio), (2, g), (4, q), (4, ch), (2, member), (2, hop), (8, expected), (8, received), (8, time), (24, 0)])

/-- Write a report into the area at ERRADDR (R381): the report first, then the count as a read-modify-write (R277, R292), then the event. Answers whether
that is over. -/
def State.reportPut (s : State) (g q : Nat) (x : Coll) (bytes : BitVec 512) : Bool × State :=
  let addr := cf x.cmd 48 8 / 256 * 256
  let s := s.flushPuts
  match s.ropeSpot x addr 6 8 with
  | .mem k =>
    if s.mem.poisoned k then (true, s.collFault x cPoison (ropeAddr addr) 0)
    else
      let n := s.mem.readLe k 8
      let row := addr + 256 * (1 + n % 8)
      match s.ropeSpot x row 2 256 with
      | .mem r =>
        let s := (s.touchLocal x.org (ropeVa addr) (ropeAddr addr) .die).storeRow r (bytes.setWidth 2048) fullMask
        (true, (s.putBytes k 8 (n + 1)).postEvent { src := x.src, kind := 6, item := row })
      | sp => s.ropeStops g q x row sp
  | sp => s.ropeStops g q x addr sp

/-- Forget a collective that has ended here, once every member has committed every chunk, or that is aborted (R380, R382): until then another member may
have a chunk sent again. -/
def State.collForget (s : State) (g q : Nat) : State :=
  match s.coll? g q with
  | none => s
  | some x =>
    let all := (List.range x.total).all fun ch => (List.range x.n).all fun m => !x.holds m ch || (x.chunk ch).doneBy.contains m
    if x.ended && x.reports.isEmpty && (x.aborted || all) then s.dropColl g q else s

/-- Write what a collective has to write, in order: its reports, then its flag (R376, R383). With its flag it has ended here, and its slot is free; its
stamp is posted (R421). One whose flag cannot be written ends without a stamp (DESIGN CHOICE: R421 names the flag write alone as its finish; log 16). -/
def State.collFlush (s : State) (g q : Nat) : Nat → State
  | 0 => s
  | n + 1 =>
    match s.coll? g q with
    | none => s
    | some x =>
      if s.parked.any fun p => decide (p.work = ParkWork.collWrites g q) then s
      else match x.reports, x.flag with
        | b :: t, _ =>
          let r := s.reportPut g q x b
          if r.1 then (r.2.modColl g q fun y => { y with reports := t }).collFlush g q n else r.2
        | [], some v =>
          let r := s.flagPut g q x v
          let stamped (s : State) : State :=
            if r.2.1 then s.stamp x.org.part.toNat 5 x.org.job.toNat (g * 2 ^ 32 + q) x.accepted x.goAt x.src else s
          if r.1 then (stamped (r.2.2.modColl g q fun y => { y with flag := none, ended := true })).collForget g q else r.2.2
        | [], none => s.collForget g q

/-- Report something at this member (R380, R381). -/
def State.report (s : State) (g q : Nat) (bytes : BitVec 512) : State :=
  (s.modColl g q fun x => { x with reports := x.reports ++ [bytes] }).collFlush g q 64

/-- A write of a collective to the host has failed with PERM (R426), and what follows it goes on. -/
def State.collWriteLost (s : State) (g q a : Nat) : State :=
  match s.coll? g q with
  | none => s
  | some x =>
    let s := s.collFault x cPerm a 0
    let skip (x : Coll) : Coll := match x.reports with
      | _ :: t => { x with reports := t }
      | [] => { x with flag := none, ended := true }
    (s.modColl g q skip).collFlush g q 64

/-- Send a message of a collective to a module: urgent collectives travel on virtual channel 1 (R369). -/
def State.collMsg (s : State) (x : Coll) (module_ bytes : Nat) (m : OutMsg) : State :=
  s.ropeSend ⟨some module_, if cf x.cmd 3 1 = 1 then 1 else 0, x.org.quad / 8, cdiv bytes 128 * 128, m⟩
/-- Send a message of a collective to other members, by rank. -/
def State.collSend (s : State) (x : Coll) (to_ : List Nat) (bytes : Nat) (m : OutMsg) : State :=
  (to_.filter fun r => decide (r ≠ s.rank x)).foldl (fun (s : State) r => s.collMsg x (x.members.getD r 0) bytes m) s

/-- Every member of a collective, by rank. -/
def Coll.ranks (x : Coll) : List Nat := List.range x.n

/-- A chunk fails at this module (R380): reported here when this member's output holds it, and told to the other members it would reach. `local_`
marks a write fault, which is reported at this member alone. -/
def State.chunkFails (s : State) (g q ch : Nat) (kind member hop expected received : Nat) (local_ : Bool) : State :=
  match s.coll? g q with
  | none => s
  | some x =>
    let bytes := reportBytes kind (cf x.cmd 3 1) g q ch member hop expected received s.tbase.toNat
    let s := if kind = 1 then s.count .tcnt 0 23 0 1 else s
    let s := s.modChunk g q ch fun k => { k with failed := k.failed || !k.committed }
    let s := if local_ then s else s.collSend x (x.ranks.filter fun m => x.holds m ch) 128 (.chunkReport g q bytes)
    if local_ || x.holds (s.rank x) ch then s.report g q bytes else s

/-- A report of another member reaches this one, whose output the chunk would reach (R380): written here too, with the fault record of an access fault. -/
def State.reportIn (s : State) (g q : Nat) (bytes : BitVec 512) : State :=
  match s.coll? g q with
  | none => s
  | some x =>
    let ch := nbytes bytes.toNat 8 4
    let k := x.chunk ch
    let s := if k.committed then s else s.modChunk g q ch fun k => { k with failed := true }
    let s := if nbytes bytes.toNat 0 1 = 3 then s.collFault x (BitVec.ofNat 8 (nbytes bytes.toNat 24 1)) 0 ch else s
    s.report g q bytes

/-! ### Reading and writing the buffers -/

/-- The words of a chunk that is not summed: 64-bit words, zero padded (R373, R379). -/
def chunkWords (bits n w : Nat) : List Nat := (List.range (cdiv (n * w) 64)).map fun i => nbits bits (64 * i + 63) (64 * i)
/-- The bits of a list of words. -/
def wordsBits (l : List Nat) : Nat := pack (l.map fun v => (8, v))

/-- Contribution of a list of values to the chunk checksum (R379), each value taken modulo p. -/
def valueSum (l : List Int) : Nat := ((l.zipIdx.map fun e => ((e.2 : Int) + 1) * e.1).sum % (chunkP : Int)).toNat

/-- The checksum of a chunk's payload (R379). -/
def payloadSum (sums : Bool) (l : List Nat) : Nat := valueSum (l.map fun v => if sums then sext 48 v else (v : Int))

/-- FX48 NaN, -Inf and +Inf (R188). -/
def fxNan : Nat := 0x800000000000
/-- See R188. -/
def fxNegInf : Nat := 0x800000000001
/-- See R188. -/
def fxPosInf : Nat := 0x7FFFFFFFFFFF
/-- Whether a code is reserved (R188). -/
def fxReserved (n : Nat) : Bool := decide (n = fxNan ∨ n = fxNegInf ∨ n = fxPosInf)

/-- ToFX (R189). -/
def toFx (e : Int) : Val → Nat
  | .nan => fxNan
  | .inf neg => if neg then fxNegInf else fxPosInf
  | .fin neg m x => wrapInt 48 (if neg then -(roundScaled .rne neg m 1 (x + 38 - e) : Int) else roundScaled .rne neg m 1 (x + 38 - e))

/-- Add (R189). -/
def fxAdd (a b : Nat) : Nat :=
  if a = fxNan ∨ b = fxNan ∨ (a = fxPosInf ∧ b = fxNegInf) ∨ (a = fxNegInf ∧ b = fxPosInf) then fxNan
  else if fxReserved a then a
  else if fxReserved b then b
  else wrapInt 48 (max (-(2 ^ 47 - 2)) (min (2 ^ 47 - 2) (sext 48 a + sext 48 b)))

/-- FromFX (R189): an exact zero is +0; for INT32 the sum saturates (R377). -/
def fromFx (f : Fmt) (e : Int) (n : Nat) : Nat :=
  if f.isInt then writeInt f true (sext 48 n)
  else if n = fxNan then f.nanBits
  else if n = fxPosInf then cvtFloat f .rne false (.inf false)
  else if n = fxNegInf then cvtFloat f .rne false (.inf true)
  else
    let v := sext 48 n
    if v = 0 then 0 else cvtFloat f .rne false (.fin (decide (v < 0)) v.natAbs (e - 38))

/-- The largest exponent of the finite, non-zero elements (R377); -149 when there are none. -/
def maxExponent (f : Fmt) (l : List Nat) : Int :=
  (l.map fun v => match floatVal f v with
    | .fin _ m e => if m = 0 then (-149 : Int) else (Nat.log2 m : Int) + e
    | .inf _ | .nan => -149).foldl max (-149)

/-- Rows read for a chunk: all of them, or what stopped the reading. -/
inductive ChunkRead where
  | ok (bits : Nat) (s : State)
  | fail (cause : Cause) (addr : Nat)
  | absent (addr : Nat)
  | link (addr : Nat)
  | hold (s : State)

/-- Read `n` rows from a device VA, the first in the low bits. -/
def State.readChunk (s : State) (o : Origin) (va : Nat) : Nat → ChunkRead
  | 0 => .ok 0 s
  | n + 1 =>
    match s.engineRead o true va .die with
    | .ok r s =>
      match s.readChunk o (va + 256) n with
      | .ok b s => .ok (r.toNat + 2 ^ 2048 * b) s
      | x => x
    | .fail c => .fail c va
    | .absent => .absent va
    | .link => .link va
    | .hold s => .hold s

/-- Device VAs of the rows of this member's part of a chunk. -/
def Coll.inRows (x : Coll) (ch : Nat) : List Nat :=
  let w := (cFmt x.cmd).width
  let first := x.inAt ch * w
  (List.range (cdiv (first + x.size ch * w) 2048 - first / 2048)).map fun i => x.bufIn + first / 2048 * 256 + 256 * i

/-- Whether an access of a chunk is parked. -/
def State.chunkParked (s : State) (g q ch : Nat) : Bool := s.parked.any fun p => decide (p.work = ParkWork.collective g q ch)

/-- Whether a read of an earlier chunk waits for its granule, which holds the later reads of the command (R321, R354). -/
def State.chunksHeld (s : State) (x : Coll) (g q ch : Nat) : Bool :=
  (s.commander x.org).isSome && (List.range ch).any fun c =>
    !(x.chunk c).sourced && x.sources (s.rank x) c && !s.chunkParked g q c && (x.inRows c).any fun a => match s.acquire x.org true a with
      | .hold _ => true
      | .ok _ _ | .fail _ | .absent | .link => false

/-- The elements of this member's part of a chunk. -/
def State.readElems (s : State) (x : Coll) (g q ch : Nat) : ChunkRead :=
  let w := (cFmt x.cmd).width
  let first := x.inAt ch * w
  let last := first + x.size ch * w
  if s.chunksHeld x g q ch then .hold s
  else match s.readChunk x.org (x.bufIn + first / 2048 * 256) (cdiv last 2048 - first / 2048) with
  | .ok b s => .ok (b / 2 ^ (first % 2048) % 2 ^ (x.size ch * w)) s
  | r => r

/-- The bits of a list of fields of `w` bits. -/
def packLanesOf (w : Nat) : List Nat → Nat
  | [] => 0
  | v :: t => v % 2 ^ w + 2 ^ w * packLanesOf w t

/-- The fields of `w` bits of a value. -/
def fields (w n bits : Nat) : List Nat := (List.range n).map fun i => nbits bits (w * i + w - 1) (w * i)

/-- Write `len` bits from bit `at_` of the output on, row by row: a byte that is only partly covered keeps its other bits. A row of which only a part is
written fails when it is poisoned (R268, R380). Answers the fault that stopped it. -/
def State.writeBits (s : State) (x : Coll) (at_ len bits : Nat) : List Nat → Option (Cause × Nat) × State
  | [] => (none, s)
  | row :: t =>
    let a := x.bufOut + 256 * row
    let lo := max at_ (2048 * row) - 2048 * row
    let hi := min (at_ + len) (2048 * row + 2048) - 2048 * row
    let key := match s.spotVa x.org.part.toNat a 2 with | .mem k => some k | _ => none
    let old := (key.map fun k => (s.mem.row k).toNat).getD 0
    let new := nset old (hi - 1) lo (bits / 2 ^ (2048 * row + lo - at_))
    let b0 := lo / 8
    let b1 := cdiv hi 8
    if s.inOwnSet x.org true a then (some (cSetWrite, a), s)
    else if decide (b1 - b0 ≠ 256) && (key.map s.mem.poisoned).getD false then (some (cPoison, a), s)
    else match s.engineWrite x.org true a (BitVec.ofNat 2048 new) (byteMask b0 (b1 - b0)) .die with
      | .ok _ s => s.writeBits x at_ len bits t
      | .fail c => (some (c, a), s)
      | .absent | .link | .hold _ => (some (cNotPresent, a), s)

/-! ### Chunks (R373 to R383) -/

/-- HOPID of R379 for this module. -/
def State.hopId (s : State) (kind port : Nat) : Nat := s.pkgid.toNat * 1024 + kind * 128 + port

/-- Park an access of a chunk (R380). -/
def State.parkChunk (s : State) (x : Coll) (g q ch a : Nat) (link : Bool) : State :=
  if s.chunkParked g q ch then s
  else if link then s.parkLink x.org.part.toNat a (.collective g q ch)
  else s.park x.org.part.toNat a (some x.org.job.toNat) x.org.ticket 4 g ch (.collective g q ch)

/-- The flag of a member whose output is complete, with what it sources (R383). -/
def State.collSettle (s : State) (g q : Nat) : State :=
  match s.coll? g q with
  | none => s
  | some x =>
    let me := s.rank x
    let ids := List.range x.total
    let out := x.going && ids.all fun ch => (!x.holds me ch || (x.chunk ch).committed) && (!cGathers x.cmd || !x.sources me ch || (x.chunk ch).sourced)
    if out && !x.ended && x.flag.isNone then (s.modColl g q fun x => { x with flag := some (cf x.cmd 40 8) }).collFlush g q 64 else s

/-- A member has committed a chunk (R380, R382): once every member that holds it has, it is over. -/
def State.committedBy (s : State) (g q ch member : Nat) : State :=
  match s.coll? g q with
  | none => s
  | some x =>
    let by_ := member :: (x.chunk ch).doneBy.filter (· ≠ member)
    let all := x.ranks.all fun m => !x.holds m ch || by_.contains m
    (s.modChunk g q ch fun k => { k with doneBy := by_, failed := k.failed && !all }).collForget g q

/-- Write a delivered chunk into the output (R379, R380), when its checksum still matches (KIND 3): nothing is written while a page is absent; a write that
faults leaves the rows before it. -/
def State.commitChunk (s : State) (g q ch : Nat) : State :=
  match s.coll? g q with
  | none => s
  | some x =>
    match (x.chunk ch).delivery with
    | none => s
    | some d =>
      let f := cFmt x.cmd
      let n := x.size ch
      let bits := if cSums x.cmd then packLanesOf f.width (d.2.1.map (fromFx f d.1)) else wordsBits d.2.1
      let got := payloadSum (cSums x.cmd) d.2.1
      let at_ := x.outAt ch * f.width
      let last := at_ + n * f.width
      let rows := (List.range (cdiv last 2048 - at_ / 2048)).map (at_ / 2048 + ·)
      let part := x.org.part.toNat
      if got ≠ d.2.2 then
        (s.modChunk g q ch fun k => { k with delivery := none }).chunkFails g q ch 1 (if cGathers x.cmd then x.owner ch else 0xFFFF)
          (s.hopId 3 (x.org.quad / 8)) d.2.2 got false
      else match rows.find? fun r => let sp := s.spotVa part (x.bufOut + 256 * r) 2; decide (sp = .absent ∨ sp = .link) with
      | some r => s.parkChunk x g q ch (x.bufOut + 256 * r) (decide (s.spotVa part (x.bufOut + 256 * r) 2 = .link))
      | none =>
        match s.writeBits x at_ (n * f.width) bits rows with
        | (none, s) =>
          let s := (s.modChunk g q ch fun k => { k with committed := true, failed := false, delivery := none }).committedBy g q ch (s.rank x)
          (s.collSend x x.ranks 128 (.committed g q ch (s.rank x))).collSettle g q
        | (some (c, a), s) =>
          ((s.modChunk g q ch fun k => { k with delivery := none }).chunkFails g q ch 3 (s.rank x) (s.hopId 3 (x.org.quad / 8)) 0 c.toNat true).collFault
            x c a ch

/-- A delivery of a chunk at this member (R377, R379): verified, then written, unless the chunk is committed already; one that comes before this member's
own go waits for it. -/
def State.deliver (s : State) (g q ch : Nat) (e : Int) (data : List Nat) (sum hop : Nat) : State :=
  match s.coll? g q with
  | none => s
  | some x =>
    if (x.chunk ch).committed || !x.holds (s.rank x) ch || decide (x.total ≤ ch) then s
    else
      let got := payloadSum (cSums x.cmd) data
      if got ≠ sum then s.chunkFails g q ch 1 (if cGathers x.cmd then x.owner ch else 0xFFFF) hop sum got false
      else
        let s := s.modChunk g q ch fun k => { k with delivery := some (e, data, sum) }
        if x.going then s.commitChunk g q ch else s

/-- The larger or smaller of two elements (R378). -/
def pickElem (f : Fmt) (max_ : Bool) (a b : Nat) : Nat :=
  if f.isFloat then
    let x := floatVal f a
    let y := floatVal f b
    if x.isNan || y.isNan then f.nanBits else if (x.below y) = max_ then b else a
  else if decide (intVal f a < intVal f b) = max_ then b else a

/-- Reduce a contribution into what an owner holds (R377, R378): the first one makes its NaNs canonical for MAX and MIN. -/
def combine (c : BitVec 512) (n : Nat) (acc data : List Nat) : List Nat :=
  if cSums c then (if acc.isEmpty then data else List.zipWith fxAdd acc data)
  else
    let f := cFmt c
    let old := if acc.isEmpty then data else acc
    let l := List.zipWith (pickElem f (decide (cOp c = 1))) (fields f.width n (wordsBits old)) (fields f.width n (wordsBits data))
    chunkWords (packLanesOf f.width l) n f.width

/-- Send the result of a chunk to the members that receive it (R373, R379). -/
def State.sendResult (s : State) (x : Coll) (g q ch : Nat) (e : Int) (data : List Nat) (sum hop : Nat) : State :=
  let special := cSums x.cmd && data.any fxReserved
  let s := s.collSend x (x.ranks.filter fun m => x.holds m ch && !(x.chunk ch).doneBy.contains m) (8 * data.length)
    (.delivery g q ch (s.rank x) e data sum special)
  s.deliver g q ch e data sum hop

/-- The owner's unit, once every contribution is in (R377, R378): a sum that fails its check discards the chunk's contributions. -/
def State.reduceChunk (s : State) (g q ch : Nat) : State :=
  match s.coll? g q with
  | none => s
  | some x =>
    let k := x.chunk ch
    if k.bitmap.length < x.n then s
    else
      let got := payloadSum (cSums x.cmd) k.acc
      if cSums x.cmd && !k.special && decide (k.pred % chunkP ≠ got) then
        (s.modChunk g q ch fun k => { k with acc := [], bitmap := [], pred := 0 }).chunkFails g q ch 1 0xFFFF (s.hopId 2 0) (k.pred % chunkP) got false
      else
        (s.modChunk g q ch fun k => { k with reduced := true }).sendResult x g q ch (k.expo.getD 38) k.acc got (s.hopId 3 (x.org.quad / 8))

/-- A contribution reaches the owner of its chunk (R377 to R380). -/
def State.contribute (s : State) (g q ch member : Nat) (data : List Nat) (sum : Nat) (special : Bool) (hop : Nat) : State :=
  match s.coll? g q with
  | none => s
  | some x =>
    let k := x.chunk ch
    if cGathers x.cmd || decide (x.total ≤ ch ∨ x.owner ch ≠ s.rank x ∨ x.n ≤ member) || (cTwoPhase x.cmd && k.expo.isNone) then s
    else
      let got := payloadSum (cSums x.cmd) data
      if got ≠ sum then s.chunkFails g q ch 1 member hop sum got false
      else if k.bitmap.contains member then s.count .tcnt 0 47 24 1
      else
        (s.modChunk g q ch fun k => { k with
          bitmap := member :: k.bitmap, acc := combine x.cmd (x.size ch) k.acc data, pred := k.pred + sum,
          special := k.special || (cSums x.cmd && special) }).reduceChunk g q ch

/-- A read of this member's input fails, or waits (R380): the fault record goes with a report of this member. -/
def State.readStops (s : State) (x : Coll) (g q ch : Nat) : ChunkRead → State
  | .ok _ s => s
  | .fail c a =>
    let s := (s.modChunk g q ch fun k => { k with sourced := true }).chunkFails g q ch 3 (s.rank x) (s.hopId 0 0) 0 c.toNat false
    if x.holds (s.rank x) ch then s.collFault x c a ch else s
  | .absent a => s.parkChunk x g q ch a false
  | .link a => s.parkChunk x g q ch a true
  | .hold s => s.modChunk g q ch fun k => { k with waits := true }

/-- A read of a chunk that waited is made now. -/
def State.chunkReads (s : State) (x : Coll) (g q ch : Nat) : State :=
  if (x.chunk ch).waits then s.modChunk g q ch fun k => { k with waits := false } else s

/-- Read and send this member's contribution to a chunk (R377, R378); E is known for a floating SUM. -/
def State.contributeOwn (s : State) (g q ch : Nat) (e : Int) : State :=
  match s.coll? g q with
  | none => s
  | some x =>
    let s := s.chunkReads x g q ch
    match s.readElems x g q ch with
    | .ok bits s =>
      let f := cFmt x.cmd
      let l := fields f.width (x.size ch) bits
      let data :=
        if cTwoPhase x.cmd then l.map fun v => toFx e (floatVal f v)
        else if cSums x.cmd then l.map fun v => wrapInt 48 (intVal f v)
        else chunkWords bits (x.size ch) f.width
      let sum := payloadSum (cSums x.cmd) data
      let special := cSums x.cmd && data.any fxReserved
      let me := s.rank x
      let s := s.modChunk g q ch fun k => { k with sourced := true }
      if x.owner ch = me then s.contribute g q ch me data sum special (s.hopId 0 0)
      else (s.collSend x [x.owner ch] (8 * data.length) (.contribution g q ch me e data sum special)).collSettle g q
    | r => s.readStops x g q ch r

/-- An exponent reaches the owner of a chunk (R377): with the last of them, E goes to every member. -/
def State.exponentIn (s : State) (g q ch member : Nat) (e : Int) : State :=
  match s.coll? g q with
  | none => s
  | some x =>
    let k := x.chunk ch
    if !cTwoPhase x.cmd || k.expo.isSome || decide (x.owner ch ≠ s.rank x ∨ x.n ≤ member ∨ x.total ≤ ch) then s
    else
      let l := tset k.expos member e
      if l.length < x.n then s.modChunk g q ch fun k => { k with expos := l }
      else
        let top := (l.map (·.2)).foldl max (-149)
        let s := s.modChunk g q ch fun k => { k with expos := l, expo := some top }
        let s := s.collSend x x.ranks 128 (.expo g q ch (s.rank x) top true)
        s.contributeOwn g q ch top

/-- Read this member's part of a chunk and send it on its way (R373, R377). -/
def State.sourceChunk (s : State) (g q ch : Nat) : State :=
  match s.coll? g q with
  | none => s
  | some x =>
    let me := s.rank x
    let k := x.chunk ch
    if !x.going || !x.sources me ch || s.chunkParked g q ch then s
    else
    let s := s.chunkReads x g q ch
    if cGathers x.cmd then
      match s.readElems x g q ch with
      | .ok bits s =>
        let data := chunkWords bits (x.size ch) (cFmt x.cmd).width
        let s := s.modChunk g q ch fun k => { k with sourced := true, reduced := true, acc := data }
        (s.sendResult x g q ch 0 data (payloadSum false data) (s.hopId 0 0)).collSettle g q
      | r => s.readStops x g q ch r
    else if cTwoPhase x.cmd then
      match k.expo with
      | some e => s.contributeOwn g q ch e
      | none =>
        match s.readElems x g q ch with
        | .ok bits s =>
          let e := maxExponent (cFmt x.cmd) (fields (cFmt x.cmd).width (x.size ch) bits)
          if x.owner ch = me then s.exponentIn g q ch me e else s.collSend x [x.owner ch] 128 (.expo g q ch me e false)
        | r => s.readStops x g q ch r
    else s.contributeOwn g q ch 38

/-- Read every part that has not been read. -/
def State.pumpColl (s : State) (g q : Nat) : State :=
  match s.coll? g q with
  | none => s
  | some x => ((List.range x.total).filter fun ch => !(x.chunk ch).sourced).foldl (fun s ch => s.sourceChunk g q ch) s

/-- Make again the reads that wait for a granule or an array (R354, R413), in the order of their chunks. -/
def State.pumpHeld (s : State) (g q : Nat) : State :=
  match s.coll? g q with
  | none => s
  | some x => ((List.range x.total).filter fun ch => (x.chunk ch).waits).foldl (fun s ch => s.sourceChunk g q ch) s

/-- A parked access of a chunk resumes (R293): the write of a delivery, else the read. -/
def State.resumeChunk (s : State) (g q ch : Nat) : State :=
  match (s.coll? g q).map fun x => (x.chunk ch).delivery with
  | some (some _) => s.commitChunk g q ch
  | _ => s.sourceChunk g q ch

/-! ### Acceptance, agreement and re-runs (R375, R376, R382, R385) -/

/-- Go or abort reaches this member (R376): an abort writes the report and posts its event, then writes the flag, which ends the collective. -/
def State.decideColl (s : State) (g q : Nat) (cause : Option Nat) (lowest : Nat) : State :=
  match s.coll? g q with
  | none => s
  | some x =>
    if x.going || x.aborted then s
    else match cause with
      | none =>
        let s := (s.modColl g q fun x => { x with going := true, goAt := s.tbase.toNat }).pumpColl g q
        ((x.chunks.filter fun e => e.2.delivery.isSome).foldl (fun (s : State) e => s.commitChunk g q e.1) s).collSettle g q
      | some c =>
        let bytes := reportBytes 2 (cf x.cmd 3 1) g q c lowest 0 0 0 s.tbase.toNat
        (s.modColl g q fun x => { x with aborted := true, flag := some (2 ^ 63 + c) }).report g q bytes

/-- Member 0 compares what it has received (R376), once every member has sent its vote. -/
def State.agreeColl (s : State) (g q : Nat) (votes : List Vote) : State :=
  match s.coll? g q with
  | none => s
  | some x =>
    let me := s.rank x
    let l := votes.filter fun v => decide (v.member ≠ me)
    let all := ⟨me, x.sig, x.cause⟩ :: l
    if x.going || !s.leads x || !((List.range x.n).all fun m => all.any fun v => decide (v.member = m)) then s
    else
      let sigs := all.all fun v => decide (v.sig = x.sig)
      let bad := all.filter fun v => decide (v.cause ≠ 0)
      let cause := if !sigs then some 1 else (bad.map (·.cause)).min?
      let lowest := if !sigs then 0xFFFF else ((bad.map (·.member)).min?).getD 0xFFFF
      let s := s.collSend x x.ranks 128 (.decision g q cause lowest)
      s.decideColl g q cause lowest

/-- Live collectives of a class at the module (R385). -/
def State.liveColls (s : State) (urgent : Bool) : Nat := (s.colls.filter fun e => !e.2.2.ended && decide ((cf e.2.2.cmd 3 1 = 1) = urgent)).length

/-- A base die accepts a collective (R375, R376, R385): its SEQ, its local checks, its vote to member 0. A collective of one member agrees with itself. -/
def State.acceptColl (s : State) (r : CollReq) : State :=
  let g := cGroup r.cmd
  let q := tgetD s.collSeq g 0
  let part := r.org.part.toNat
  let cause := s.collCheck part r.cmd
  let members := s.groupMembers g
  let x : Coll := ⟨r.org, r.cmd, members, s.bufVa part (cf r.cmd 16 4), s.bufVa part (cf r.cmd 20 4), signature r.cmd, cause, false, false, false, [],
    none, [], s.tbase.toNat, 0, [⟨r.id, r.org.ticket, none⟩]⟩
  let s := ({ s with collSeq := tset s.collSeq g ((q + 1) % 2 ^ 32), colls := s.colls ++ [(g, q, x)] }).accepted r.id
  if s.leads x then (if members.length ≤ 1 then s.agreeColl g q [] else s)
  else s.collMsg x (members.headD 0) 128 (.vote g q ⟨s.rank x, x.sig, x.cause⟩)

/-- Re-run one chunk at its owner (R382): it sends again the result that it holds; without one, each member whose bit is clear reads its input again, to which
the owner asks it. A chunk that every member has committed is skipped. -/
def State.rerunChunk (s : State) (x : Coll) (g q ch : Nat) : State :=
  let me := s.rank x
  let k := x.chunk ch
  if x.owner ch ≠ me ∨ (x.ranks.all fun m => !x.holds m ch || k.doneBy.contains m) = true then s
  else if k.reduced then s.sendResult x g q ch (k.expo.getD 38) k.acc (payloadSum (cSums x.cmd) k.acc) (s.hopId 3 (x.org.quad / 8))
  else
    let clear := x.ranks.filter fun m => x.sources m ch && !k.bitmap.contains m
    let s := s.collSend x clear 128 (.resend g q [ch])
    if clear.contains me then s.sourceChunk g q ch else s

/-- The owner of chunks asks this member for its contribution again (R382). -/
def State.resendIn (s : State) (g q : Nat) (l : List Nat) : State :=
  match s.coll? g q with
  | none => s
  | some x => (l.filter fun ch => x.going && decide (ch < x.total)).foldl (fun (s : State) ch => s.sourceChunk g q ch) s

/-- Re-run chunks of a collective by an HRECH of this module (R382), of which the owners of its chunks are told, or by one of another member: an ended or
unknown collective ignores the former. -/
def State.rerun (s : State) (g q : Nat) (l : List Nat) (own : Bool) : State :=
  match s.coll? g q with
  | none => if own then s.count .tcnt 0 63 48 1 else s
  | some x =>
    if own && x.ended then s.count .tcnt 0 63 48 1
    else if !x.going then s
    else
      let l := l.filter fun ch => decide (ch < x.total)
      let told (s : State) (m : Nat) : State :=
        let mine := l.filter fun ch => decide (x.owner ch = m)
        if mine.isEmpty then s else s.collSend x [m] 128 (.rehelp g q mine)
      let s := if own then x.ranks.foldl told s else s
      l.foldl (fun (s : State) ch => s.rerunChunk ((s.coll? g q).getD x) g q ch) s

/-- An HRECH of this module reaches its base die (R382, R387): the collective makes the accesses of its re-runs for it (R321). -/
def State.rechunk (s : State) (g q : Nat) (l : List Nat) (c : CollCmd) : State :=
  (s.modColl g q fun x => if x.going && !x.ended then { x with cmds := x.cmds ++ [{ c with chunks := some (l.filter fun ch => decide (ch < x.total)) }] } else x).rerun
    g q l true

/-- COLL_ACCEPT (R375, R385): the oldest collective of the die whose set has a slot. -/
def execCollAccept (die : Fin 4) (s : State) : Out :=
  .next (match (s.die die.val).collReqs.find? fun r =>
      let urgent := decide (cf r.cmd 3 1 = 1)
      decide (s.liveColls urgent < if urgent then 16 else 64) with
  | none => s
  | some r => (s.modDie die.val fun d => { d with collReqs := d.collReqs.filter fun y => decide (y.id ≠ r.id) }).acceptColl r)

/-- COLL_AGREE (R376). -/
def execCollAgree (group : Fin 256) (seq : BitVec 32) (votes : List Vote) (s : State) : Out := .next (s.agreeColl group.val seq.toNat votes)

/-- COLL_GO_ABORT (R376). -/
def execCollGoAbort (group : Fin 256) (seq : BitVec 32) (cause : Option Nat) (lowest : Nat) (s : State) : Out :=
  .next (s.decideColl group.val seq.toNat cause lowest)

/-- CHUNK_EXPONENT (R377): at the owner an exponent, at a member the agreed E. -/
def execChunkExponent (group : Fin 256) (seq : BitVec 32) (chunk member : Nat) (expo : Int) (agreed : Bool) (s : State) : Out :=
  let g := group.val
  let q := seq.toNat
  .next (if agreed then
    match s.coll? g q with
    | none => s
    | some x =>
      if x.going && cTwoPhase x.cmd && decide (chunk < x.total ∧ x.owner chunk ≠ s.rank x) then
        (s.modChunk g q chunk fun k => { k with expo := some expo }).contributeOwn g q chunk expo
      else s
  else s.exponentIn g q chunk member expo)

/-- COLL_CONTRIBUTION (R377). -/
def execCollContribution (group : Fin 256) (seq : BitVec 32) (chunk member : Nat) (data : List Nat) (sum : Nat) (special : Bool) (hop : BitVec 16)
    (s : State) : Out := .next (s.contribute group.val seq.toNat chunk member data sum special hop.toNat)

/-- COLL_DELIVERY (R377). -/
def execCollDelivery (group : Fin 256) (seq : BitVec 32) (chunk : Nat) (expo : Int) (data : List Nat) (sum : Nat) (hop : BitVec 16) (s : State) :
    Out := .next (s.deliver group.val seq.toNat chunk expo data sum hop.toNat)

end Sys2Proof.Machine
end

