-- ==== Sys2Proof/Machine/Locks.lean ====
section
/-!
DEFINITION. Locks: the slices of the Ticket Booth (R355 to R358), the arrival of grants (R354, R362, R363) and of wounds (R363).
-/
namespace Sys2Proof.Machine

/-- Put a waiter in ticket order (R356). -/
def insertWaiter (r : LockReq) : List LockReq → List LockReq
  | [] => [r]
  | w :: t => if w.ticket.toNat ≤ r.ticket.toNat then w :: insertWaiter r t else r :: w :: t

/-- The partition of a task, as its ticket's job or granules tell: that of its context, its saved form or its record. -/
def State.partOf (s : State) (t : Word) : Nat :=
  match s.runnerOf t with
  | some k => (s.ctx k).part.toNat
  | none => match s.saved.find? fun x => decide (x.ctx.ticket = t) with
    | some x => x.ctx.part.toNat
    | none => (((s.journal? t).bind (·.retained)).bind fun r => (s.job? r.job.toNat).map Job.part).getD 0

/-- Wound a holder once (R356, R363): WOUNDED is set, and the wound goes to the holder. -/
def State.wound (s : State) (t : Word) : State :=
  if s.wounds.contains t then s
  else
    let s := ({ s with wounds := s.wounds ++ [t] }).count .lkstat (s.partOf t) 31 0 1
    let s := s.mapCtxs fun c => if c.ticket = t ∧ (c.life = .running ∨ c.life = .stopped) then { c with cflags := c.cflags ||| 2 } else c
    s.first [.wound t]

/-- The youngest holder of a slice. -/
def Die.youngest (d : Die) : Option Word := (d.booth.map fun e => e.holder).foldl (fun b t => match b with
  | none => some t
  | some x => if x.toNat < t.toNat then some t else some x) none

/-- Decide a request of a slice (R356, R357). -/
def State.decideLock (s : State) (k : Nat) (r : LockReq) : State :=
  let d := s.die k
  match d.booth.find? fun e => decide (e.gran = r.gran) with
  | some e =>
    if e.holder = r.ticket then
      s.modDie k fun d => { d with
        booth := d.booth.map fun x => if x.gran = r.gran then { x with holderRun := r.run } else x, grants := d.grants ++ [r] }
    else
      let s := if r.ticket.toNat < e.holder.toNat then s.wound e.holder else s
      s.modDie k fun d => { d with booth := d.booth.map fun x => if x.gran = r.gran then { x with waiters := insertWaiter r x.waiters } else x }
  | none =>
    if d.booth.length < 65536 then
      (s.modDie k fun d => { d with booth := d.booth ++ [LockEntry.mk r.gran r.ticket r.run []], grants := d.grants ++ [r] }).showBooth k
    else
      let s := match d.youngest with
        | some t => if r.ticket.toNat < t.toNat ∧ !s.wounds.contains t then (s.count .boothstat k 63 32 1).wound t else s
        | none => s
      s.modDie k fun d => { d with fullWaiters := d.fullWaiters ++ [r] }

/-- LOCK_REQUEST (R356, R357): the oldest request that has reached the slice. -/
def execLockRequest (slice : Fin 4) (s : State) : Out :=
  .next (match (s.die slice.val).requests with
  | [] => s
  | r :: t => (s.modDie slice.val fun d => { d with requests := t }).decideLock slice.val r)

/-- The context of the run that asked for a granule: running or saved. -/
def State.asker (s : State) (r : LockReq) : Option Ctx :=
  s.commander ⟨r.ticket, r.run, 0, 0, 0, 0, false⟩

/-- Return a grant at once (R363): a release without publication. Requests that wait for a free entry are decided again (R357). -/
def State.returnGrant (s : State) (k : Nat) (r : LockReq) : State :=
  let d := s.die k
  match d.booth.find? fun e => decide (e.gran = r.gran ∧ e.holder = r.ticket ∧ e.holderRun = r.run) with
  | none => s
  | some e =>
    let booth := match e.waiters with
      | [] => d.booth.filter fun x => decide (x.gran ≠ r.gran)
      | w :: ws => d.booth.map fun (x : LockEntry) => if x.gran = r.gran then { x with holder := w.ticket, holderRun := w.run, waiters := ws } else x
    (s.modDie k fun d => { d with
      booth := booth, grants := d.grants ++ e.waiters.head?.toList
      requests := d.fullWaiters ++ d.requests
      fullWaiters := [] }).showBooth k

/-- Read again the collectives of a ticket, whose reads may wait for a granule (R354). -/
def State.pumpTicket (s : State) (t : Word) : State :=
  (s.colls.filter fun e => decide (e.2.2.org.ticket = t)).foldl (fun s e => s.pumpHeld e.1 e.2.1) s

/-- Whether a grant still stands in its slice: its granule has not been released and given on meanwhile (R363). -/
def Die.stands (d : Die) (r : LockReq) : Bool := d.booth.any fun e => decide (e.gran = r.gran ∧ e.holder = r.ticket ∧ e.holderRun = r.run)

/-- LOCK_GRANT (R354, R358, R362): the oldest grant on its way arrives. The first grant of a task sets HOLDS and stores its retained continuation; a
requester saved under WOUNDWAIT becomes ready with the grant that path C waits for. A grant whose granule has been released meanwhile is nothing (R363). -/
def execLockGrant (slice : Fin 4) (s : State) : Out :=
  let k := slice.val
  .next (match (s.die k).grants with
  | [] => s
  | r :: t =>
    let s := s.modDie k fun d => { d with grants := t }
    if (s.die k).stands r = false then s
    else match s.asker r, s.journal? r.ticket with
    | some c, some j =>
      let first := j.granules.isEmpty
      let j := { j with granules := r.gran :: j.granules.filter fun g => decide (g ≠ r.gran), retained := if first then c.retained else j.retained }
      let up (c : Ctx) : Ctx := if c.ticket = r.ticket ∧ c.run = r.run then
        { c with cflags := c.cflags ||| 1, held := false, wait := if c.lockFor = some r.gran then .none else c.wait } else c
      let ready (x : Saved) : Saved :=
        if x.ctx.ticket = r.ticket ∧ x.ctx.run = r.run then 
          { x with ctx := up x.ctx, ready := x.ready || decide (x.ctx.lockFor = some r.gran), homeQuad := some j.quad } else x
      let s := (s.setJournal r.ticket j).mapCtxs up
      ({ s with saved := s.saved.map ready, stored := s.stored.map fun (x : Saved) =>
        if x.ctx.ticket = r.ticket ∧ x.ctx.run = r.run then { x with ctx := up x.ctx, homeQuad := some j.quad } else x }).pumpTicket r.ticket
    | _, _ => (s.returnGrant k r).pumpTicket r.ticket)

/-- WOUND (R363): a wound reaches a holder, which is rolled back. -/
def execWound (ticket : BitVec 64) (s : State) : Out :=
  .next (if s.wounds.contains ticket then s.rollback ticket false else s)

/-- The request of two for which path C has asked last: of several, the one that a saved context waits for (DESIGN CHOICE, log 16). -/
def LockReq.later (a : LockReq) (b : Option LockReq) : Option LockReq :=
  match b with
  | some x => if a.last < x.last then some x else some a
  | none => some a

/-- The request for which path C of a context waits, of those that are not granted: its bundle has been dispatched, and waits. -/
def State.lockWait (s : State) (key : Nat) : Option LockReq :=
  let c := s.ctx key
  let mine := fun (r : LockReq) => c.begun && decide (r.ctxKey = some key ∧ r.ticket = c.ticket ∧ r.run = c.run)
  ((List.range 4).flatMap fun k =>
    let d := s.die k
    (d.requests ++ d.fullWaiters ++ d.booth.flatMap (·.waiters)).filter mine).foldr LockReq.later none

/-- WOUNDWAIT_EXPIRY (R358): a DEAL task or a handler whose path C has waited WOUNDWAIT cycles is saved, for a core of its home quad.
Without room it stays stopped. One that takes a trap there first no longer waits (R408). -/
def execWoundwaitExpiry (core : Fin 128) (ctx : Fin 8) (s : State) : Out :=
  let key := core.val * 8 + ctx.val
  let c := s.ctx key
  let limit := s.fld .lkcfg c.part.toNat 31 0
  .next (match s.lockWait key with
  | none => s
  | some r =>
    if c.life ≠ .running ∨ c.logical ≠ 0xFF ∨ limit = 0 ∨ s.now < r.since + limit then s
    else
      let s := s.count .lkstat c.part.toNat 63 32 1
      if c.atBoundary && s.watchdogDue key then s.stopAt key true
      else (s.modCtx key fun c => { c with wait := .lock r.gran }).saveOrWait key false)

end Sys2Proof.Machine
end

