-- ==== Sys2Proof/Machine/TileFields.lean ====
section
/-!
DEFINITION. TileFields: the layout of a tile-task record (R236), its formats (R235, R237), its checks (R238) and the throttle level (R254, R307).
-/
namespace Sys2Proof.Machine

/-- A field of a tile record: `n` bytes from byte `o`. -/
def tf (c : BitVec 512) (o n : Nat) : Nat := nbytes c.toNat o n
/-- TKIND 1. -/
def tPreload (c : BitVec 512) : Bool := decide (tf c 0 1 = 1)
/-- A bit of FLAGS: 0 ABSMAX, 1 SKIPZ, 2 AREG, 3 SCALE. -/
def tFlag (c : BitVec 512) (i : Nat) : Bool := (tf c 1 1).testBit i
/-- The tag of shard kb (R236): 0 for an untagged shard. -/
def tTag (c : BitVec 512) (kb : Nat) : BitVec 32 := BitVec.ofNat 32 (tf c 8 4 + kb)
/-- MROWS. -/
def tRows (c : BitVec 512) : Nat := tf c 28 2
/-- KBLK. -/
def tBlocks (c : BitVec 512) : Nat := tf c 30 2
/-- WAITVAL. -/
def tWaitVal (c : BitVec 512) : Nat := tf c 46 2
/-- Address of the dependence word. -/
def tWaitAddr (c : BitVec 512) : Nat := tf c 56 4 * 256
/-- Address of the done counter. -/
def tDoneAddr (c : BitVec 512) : Nat := tf c 60 4 * 256

/-- Whether a format byte keeps its unused bits zero (R237). -/
def fmtByteOk (b : Nat) : Bool := if 128 ≤ b then decide (nbits b 6 4 = 0) else decide (nbits b 6 3 = 0)
/-- The 16-bit entry of a format byte (R237): of a column, as of the bundle, or of an explicit code. -/
def Ctx.fmtByte (c : Ctx) (b : Nat) : BitVec 16 :=
  BitVec.ofNat 16 (if 128 ≤ b then b % 16 else c.entryBits (.column (Fin.ofNat 8 b)))

/-- The entry of FMTA, FMTW or FMTC of a record. -/
def entryOf (x : BitVec 16) : FmtEntry := FmtEntry.ofBits x.toNat
/-- The format of an entry that has been checked. -/
def fmtOf (x : BitVec 16) : Fmt := (entryOf x).fmt.getD .fp32

/-- The stationary format (R235). -/
def stationary (a w : Fmt) : Fmt := if w = .cb4 then (if a = .bf16 then .bf16 else .e4m3) else w
/-- Code of a stationary format. -/
def sfCode : Fmt → BitVec 4
  | .bf16 => 0 | .fp32 => 1 | .fp16 => 2 | .e4m3 => 3 | .e5m2 => 4 | .int8 => 5 | .uint8 => 6 | .int16 => 7 | .int32 => 8 | .int64 => 9
  | .cb4 => 10 | .fx48 => 11

/-- Memory rows per K block of the A operand (R239). -/
def blockRows (a : Fmt) (m : Nat) : Nat := if a.width = 16 then m else cdiv m 2

/-- Whether a record fails a check of the first group of R238. `n` is the number of staging registers, 0 for TTASK; a reserved FMTC has no output
row length, and is left to the second group (log 36). A check that R238 does not confine to a kind holds for a PRELOAD too, although its task then ignores the
field (R236; DEDUCED, log 36). Where FMTA is neither an 8-bit format nor BF16, which the second group refuses, staging is measured with a row of memory for
each token row (DESIGN CHOICE: R239 gives the rows of the accepted formats alone; log 36). -/
def badTile (c : BitVec 512) (fa fc : BitVec 16) (n : Nat) : Bool :=
  let areg := decide (n ≠ 0)
  let wa := ((entryOf fa).fmt.map Fmt.width).getD 16
  let h := if wa = 8 then cdiv (tRows c) 2 else tRows c
  decide (1 < tf c 0 1) || decide (nbits (tf c 1 1) 7 4 ≠ 0) || !fmtByteOk (tf c 2 1) || !fmtByteOk (tf c 3 1) || (tFlag c 2 != areg) ||
    decide (tBlocks c < 1 ∨ 64 < tBlocks c) ||
    decide (tf c 45 1 ≠ 0) || !fmtByteOk (tf c 44 1) || decide (tRows c < 1 ∨ 1024 < tRows c) ||
    if tPreload c then tFlag c 2 || decide (tf c 8 4 = 0)
    else
      (match (entryOf fc).fmt with
         | some f => decide (tf c 40 4 = 0 ∨ tf c 40 4 % (16 * f.width) ≠ 0)
         | none => false) ||
        (areg && decide (8 * n < tBlocks c * h))

/-- The entry that fails a check of the second group of R238, if one does: of several the first in the order A, W, C, and for a pairing that R181 refuses that
of W (DESIGN CHOICE: the spec does not say which one INFO shows; log 36). -/
def tileFormat (c : BitVec 512) (fa fw fc : BitVec 16) : Option (BitVec 16) :=
  let a := entryOf fa
  let w := entryOf fw
  let o := entryOf fc
  let okA := a.reservedZero && !a.scaled && (match a.fmt with
    | some f => decide (f = .bf16 ∨ f = .e4m3 ∨ f = .e5m2 ∨ f = .int8 ∨ f = .uint8)
    | none => false)
  let int := fmtOf fa = .int8 || fmtOf fa = .uint8
  let okW := w.reservedZero && (match w.fmt with
    | some f => (f = .bf16 || f = .e4m3 || f = .e5m2 || f = .int8 || f = .cb4) && (!w.scaled || f = .cb4) && (decide (f = .int8) == int)
    | none => false)
  let okC := o.reservedZero && !o.scaled && (match o.fmt with
    | some f => f.isFloat || (int && (f = .int8 || f = .uint8 || f = .int16 || f = .int32))
    | none => false)
  if !okA then some fa else if !okW then some fw else if !tPreload c && !okC then some fc else none

/-- LATE of a tier stream engine (R306). -/
def State.late (s : State) (e : Nat) : Nat := s.fld .wlate e 55 0
/-- The throttle level of an engine (R307): the thresholds that are not zero and that LATE has reached. -/
def State.lateLevel (s : State) (e : Nat) : Nat :=
  let th := (List.range 4).map (fun i => s.fld .wthr0 e (16 * i + 15) (16 * i)) ++ (List.range 3).map fun i => s.fld .wthr1 e (16 * i + 15) (16 * i)
  (th.filter fun t => decide (t ≠ 0 ∧ t * 1024 ≤ s.late e)).length
/-- PWRSTAT.PLEVEL. -/
def State.plevel (s : State) : Nat := s.fld .pwrstat 0 18 16
/-- The throttle level of a quad (R254). -/
def State.quadLevel (s : State) (q : Nat) : Nat := if (s.quad q).tqthr.toNat < 4 then s.lateLevel (s.quad q).tqthr.toNat else 0

end Sys2Proof.Machine
end

