-- ==== Sys2Proof/Machine/Tile.lean ====
section
/-!
DEFINITION. Tile: the tile scheduler and the matrix arrays (R184, R185, R239 to R254). TILE_START gives a record its array; TILE_DONE loads its
shards, streams its blocks and drains it, as one step (log 14).
-/
namespace Sys2Proof.Machine

/-! ### The dependence test -/

/-- Change one record of a quad's tile queue. -/
def State.modTile (s : State) (q id : Nat) (f : TileRec → TileRec) : State :=
  s.modQuad q fun x => { x with tiles := x.tiles.map fun t => if t.id = id then f t else t }

/-- A tile task fails (R253): 2^32 to its done counter, a fault record, and the buffers of its array left with VALID cleared. -/
def State.tileFail (s : State) (q : Nat) (t : TileRec) (cause : Cause) (addr : Nat) : State :=
  let s := s.doneAdd t.org (tDoneAddr t.cmd) (2 ^ 32)
  let s := s.postFault { cause := cause, src := 2, part := t.org.part.toNat, job := some t.org.job.toNat, unit := q, addr := addr, ticket := t.org.ticket }
  let stop := fun (y : MatArray) => match y.task with
    | some r => if r.id = t.id then
        { y with task := none, evict := [], buf0 := { y.buf0 with valid := false }, buf1 := { y.buf1 with valid := false } } else y
    | none => y
  (s.modQuad q fun x => { x with
      tiles := x.tiles.filter fun r => decide (r.id ≠ t.id)
      arrays := x.arrays.map stop
      failed := x.failed + 1 }).performed t.id

/-- The dependence test of a record (R243): what it changes. A poisoned row under its word fails the task with POISON (DESIGN CHOICE: R253 names POISON for
operands and scales alone; log 36). -/
def State.tileDep (s : State) (q : Nat) (t : TileRec) : State :=
  if tWaitVal t.cmd = 0 then s.modTile q t.id fun r => { r with depOk := true }
  else match s.engineRead t.org false (tWaitAddr t.cmd) with
    | .ok r s =>
      let w := nbytes r.toNat 0 8
      if w / 2 ^ 32 ≠ 0 then s.tileFail q t cDepFailed (tWaitAddr t.cmd)
      else if tWaitVal t.cmd ≤ w % 2 ^ 32 then s.modTile q t.id fun r => { r with depOk := true }
      else s
    | .fail c => s.tileFail q t c (tWaitAddr t.cmd)
    | .hold s => s
    | .absent | .link => s

/-- The oldest record of each job in a tile queue (R242). -/
def tileHeads (l : List TileRec) : List TileRec :=
  l.foldl (fun heads t => if heads.any fun h => decide (h.org.job = t.org.job) then heads else heads ++ [t]) []

/-- TILE_DEP_RETEST (R243): only the oldest record of a job is tested. -/
def execTileDepRetest (quad : Fin 32) (id : Nat) (s : State) : Out :=
  .next (match (tileHeads (s.quad quad.val).tiles).find? fun t => decide (t.id = id ∧ t.depOk = false) with
  | some t => s.tileDep quad.val t
  | none => s)

/-! ### Starting a task -/

/-- Stationary format of a record. -/
def TileRec.sf (t : TileRec) : Fmt := stationary (fmtOf t.fmtA) (fmtOf t.fmtW)

/-- Whether a buffer holds a shard of a tag in a stationary format (R244, R245). -/
def StatBuf.hit (b : StatBuf) (tag : BitVec 32) (sf : Fmt) : Bool := b.valid && decide (tag ≠ 0 ∧ b.tag = tag ∧ b.sf = sfCode sf)

/-- The free array that a task is given (R244). -/
def chooseArray (arrays : List MatArray) (t : TileRec) : Option Nat :=
  let free := (List.range 4).filter fun i => ((arrays.getD i .reset).task).isNone
  let at_ := fun i => arrays.getD i .reset
  let tag := tTag t.cmd 0
  ((free.find? fun i => (at_ i).buf0.hit tag t.sf || (at_ i).buf1.hit tag t.sf).orElse fun _ =>
    free.find? fun i => !(at_ i).buf0.valid || !(at_ i).buf1.valid).orElse fun _ =>
    let used := fun i => max (at_ i).buf0.lastUse (at_ i).buf1.lastUse
    free.find? fun i => free.all fun j => decide (used i ≤ used j)

/-- A quad's starts that the lateness gap held back go on: THRCYC counts the cycles (R254, R257). -/
def State.unthrottled (s : State) (q : Nat) : State :=
  s.modQuad q fun x => { x with throttled := none, thrcyc := x.thrcyc + (s.now - x.throttled.getD s.now) }

/-- Whether less than a gap has passed since the last tile start of a quad. -/
def State.inGap (s : State) (q gap : Nat) : Bool :=
  match (s.quad q).lastStart with
  | some t => decide (s.now < t + gap)
  | none => false

/-- TILE_START (R242 to R244, R254, R435): the heads that have not passed their dependence test are tested; then, when an array is free and the lateness gap
and the power gap have passed, the tile Roundabout chooses a ready record and it takes an array. The lateness gap counts in THRCYC from the first start
that it held back. -/
def execTileStart (quad : Fin 32) (s : State) : Out :=
  let q := quad.val
  let s := ((tileHeads (s.quad q).tiles).filter fun t => !t.depOk).foldl (fun s t => s.tileDep q t) s
  let x := s.quad q
  let ready := (tileHeads x.tiles).filter (·.depOk)
  .next (
    if ready.isEmpty || x.arrays.toList.all fun y => y.task.isSome then s
    else if s.inGap q (32 * s.quadLevel q) then s.modQuad q fun x => { x with throttled := some (x.throttled.getD s.now) }
    else if s.inGap q (32 * s.plevel) then s.unthrottled q
    else
      let lvl := (ready.map fun t => t.org.prio.toNat).foldl max 0
      let at_ := ready.filter fun t => decide (t.org.prio.toNat = lvl)
      let g := x.tileRa.grant 4096 (fun _ => 1) (at_.map fun t => t.org.job.toNat)
      match g.1.bind fun j => at_.find? fun t => decide (t.org.job.toNat = j) with
      | none => s
      | some t =>
        match chooseArray x.arrays.toList t with
        | none => s
        | some i =>
          let i : Fin 4 := Fin.ofNat 4 i
          (s.unthrottled q).modQuad q fun x => { x with
            tiles := x.tiles.filter fun r => decide (r.id ≠ t.id)
            tileRa := g.2
            arrays := x.arrays.set i { x.arrays[i] with
              task := some { t with began := s.tbase.toNat, skip := x.tqskip }
              acc := if tPreload t.cmd then x.arrays[i].acc else List.replicate (tRows t.cmd) (List.replicate 128 0) }
            lastStart := some s.now })

/-! ### Shards (R240, R245) -/

/-- Local addresses of the rows of shard kb. -/
def shardAddrs (t : TileRec) (kb : Nat) : List Nat :=
  let base := (tf t.cmd 4 4 + kb * tf t.cmd 32 4) % 2 ^ 32 * 256
  let e := entryOf t.fmtW
  let n := match fmtOf t.fmtW with
    | .bf16 => 128
    | .cb4 => 32 + if e.scaled then 256 / e.blk else 0
    | _ => 64
  (List.range n).map fun i => (base + 256 * i) % 2 ^ 40

/-- Element W[k][n] of a shard as a bit pattern of the stationary format. -/
def shardElem (t : TileRec) (rows : List Row) (k n : Nat) : Nat :=
  let row := fun i => (rows.getD i 0).toNat
  let e := entryOf t.fmtW
  match fmtOf t.fmtW with
  | .bf16 => nbytes (row k) (2 * n) 2
  | .cb4 =>
    let b := nbytes (row (k / 4)) (64 * (k % 4) + n / 2) 1
    let code := if n % 2 = 0 then b % 16 else b / 16
    let v := floatVal .bf16 (nbits t.cbook.toNat (16 * code + 15) (16 * code))
    let w := k / e.blk * 128 + n
    let v := if e.scaled then scaledVal v (nbytes (row (32 + w / 64)) (4 * (w % 64)) 4) else v
    cvtFloat t.sf e.rnd e.sat v
  | _ => nbytes (row (k / 2)) (128 * (k % 2) + n) 1

/-- A loaded shard (R245): SPECIAL when any value is Inf or NaN. -/
def loadShard (t : TileRec) (rows : List Row) (tag : BitVec 32) (use : Nat) : StatBuf :=
  let l := (List.range 128).map fun k => (List.range 128).map fun n => shardElem t rows k n
  let special := t.sf.isFloat && l.any fun r => r.any fun x => match floatVal t.sf x with
    | .nan | .inf _ => true
    | .fin _ _ _ => false
  ⟨true, tag, sfCode t.sf, special, l, use⟩

/-- How a run goes on: the array and the state, a failure, or a hold. -/
inductive TileRes (α : Type) where
  | ok (x : α) (s : State)
  | fail (cause : Cause) (addr : Nat) (s : State)
  | hold (s : State)

/-- Bring shard kb into a buffer of the array (R245); `prev` is the buffer of the block before. Answers the buffer, 0 or 1. -/
def State.needShard (s : State) (t : TileRec) (x : MatArray) (kb : Nat) (prev : Option Bool) : TileRes (MatArray × Bool) :=
  let tag := tTag t.cmd kb
  let n := s.fresh
  if x.buf0.hit tag t.sf then .ok ({ x with buf0 := { x.buf0 with lastUse := n.1 } }, false) n.2
  else if x.buf1.hit tag t.sf then .ok ({ x with buf1 := { x.buf1 with lastUse := n.1 } }, true) n.2
  else
    let b := match prev with
      | some p => !p
      | none => if !x.buf0.valid then false else if !x.buf1.valid then true else decide (x.buf1.lastUse < x.buf0.lastUse)
    match n.2.readRows t.org (shardAddrs t kb) with
    | .ok rows s =>
      let buf := loadShard t rows tag n.1
      .ok (if b then { x with buf1 := buf } else { x with buf0 := buf }, b) s
    | .fail c a s => .fail c a s
    | .hold s => .hold s

/-! ### Streaming (R184, R185, R239, R247, R248) -/

/-- The bits of the 128 elements of the slice of token row m of a block. -/
def sliceBits (t : TileRec) (rows : List Row) (m : Nat) : List Nat :=
  let w := (fmtOf t.fmtA).width
  let r := (if w = 16 then rows.getD m 0 else rows.getD (m / 2) 0).toNat
  let off := if w = 16 then 0 else 128 * (m % 2)
  (List.range 128).map fun k => nbytes r (off + k * (w / 8)) (w / 8)

/-- The exact sum of the products of a block (R184). -/
def blockSum : List Val → Val
  | [] => .zero
  | x :: l => l.foldl (fun a b => a.add .rne b) x

/-- One block's step of an accumulator element (R184): an FP32 or INT32 bit pattern. -/
def accStep (int : Bool) (acc : Nat) (products : List Val) : Nat :=
  let p := blockSum products
  if int then wrapInt 32 (acc + p.toInt)
  else rne32 ((floatVal .fp32 acc).add .rne (floatVal .fp32 (rne32 p)))

/-- Stream block kb past a buffer (R247). Answers the accumulators and the groups of 16 rows that are skipped (R248). -/
def streamBlock (t : TileRec) (skip : Bool) (buf : StatBuf) (rows : List Row) (acc : List (List Nat)) : List (List Nat) × Nat :=
  let a := fmtOf t.fmtA
  let cols := (List.range 128).map fun n => buf.shard.map fun r => valOf t.sf (r.getD n 0)
  let slices := (List.range (tRows t.cmd)).map fun m => (sliceBits t rows m).map fun x => valOf a x
  let zero := slices.map fun r => r.all fun v => v.isZero
  let groups := (List.range (cdiv (tRows t.cmd) 16)).filter fun g => ((zero.drop (16 * g)).take 16).all id
  let new := (slices.zip acc).map fun e => (cols.zip e.2).map fun c => accStep a.isInt c.2 ((e.1.zip c.1).map fun p => p.1.mul p.2)
  (new, if skip && !buf.special then groups.length else 0)

/-- The A rows of a block: from staging, or by Desc from memory (R166, R239). -/
def State.blockOperand (s : State) (t : TileRec) (kb : Nat) : RowsRes :=
  let h := blockRows (fmtOf t.fmtA) (tRows t.cmd)
  if tFlag t.cmd 2 then
    .ok ((List.range h).map fun i => vrow (t.staging.getD ((kb * h + i) / 8) 0) ((kb * h + i) % 8)) s
  else
    let d := fun i => descAddr (BitVec.ofNat 64 (tf t.cmd 12 8)) (BitVec.ofNat 64 (tf t.cmd 20 8)) kb i
    s.readRows t.org ((List.range h).map d)

/-- Replace an array of a quad. -/
def State.setArray (s : State) (q : Nat) (arr : Fin 4) (x : MatArray) : State := s.modQuad q fun y => { y with arrays := y.arrays.set arr x }

/-- Run the next K block of a task on its array (R245, R247, R248): its shard is loaded, and, but for a PRELOAD, its A rows stream past it. -/
def State.runBlock (s : State) (q : Nat) (arr : Fin 4) (t : TileRec) : TileRes Unit :=
  match (match t.cur with
    | some b => TileRes.ok ((s.quad q).arrays[arr], b) s
    | none => s.needShard t (s.quad q).arrays[arr] t.kb t.prev) with
  | .fail c a s => .fail c a s
  | .hold s => .hold s
  | .ok (x, b) s =>
    let next : MatArray := { x with task := some { t with kb := t.kb + 1, prev := some b, cur := none } }
    if tPreload t.cmd then .ok () (s.setArray q arr next)
    else match (s.setArray q arr { x with task := some { t with cur := some b } }).blockOperand t t.kb with
      | .fail c a s => .fail c a s
      | .hold s => .hold s
      | .ok rows s =>
        let r := streamBlock t (tFlag t.cmd 1 && t.skip) (if b then x.buf1 else x.buf0) rows x.acc
        .ok () ((s.setArray q arr { next with acc := r.1 }).modQuad q fun y => { y with skipped := y.skipped + r.2 })

/-- Run up to `n` further K blocks of the task of an array. -/
def State.runBlocks (q : Nat) (arr : Fin 4) : Nat → State → TileRes Unit
  | 0, s => .ok () s
  | n + 1, s =>
    match (s.quad q).arrays[arr].task with
    | none => .ok () s
    | some t =>
      match s.runBlock q arr t with
      | .ok _ s => State.runBlocks q arr n s
      | r => r

/-! ### The drain (R250 to R252) -/

/-- An accumulator element as an exact value, its column scale applied (R250). -/
def drainVal (t : TileRec) (scales : Nat) (acc n : Nat) : Val :=
  let v := if (fmtOf t.fmtA).isInt then Val.ofInt (intVal .int32 acc) else floatVal .fp32 acc
  if tFlag t.cmd 3 then scaledVal v (nbytes scales (4 * n) 4) else v

/-- An output element (R250): an unscaled integer is written by the integer rule of R179, every other value as an exact real. -/
def drainBits (t : TileRec) (v : Val) (acc : Nat) : Nat :=
  let f := fmtOf t.fmtC
  let e := entryOf t.fmtC
  if f.isFloat then cvtFloat f e.rnd e.sat v
  else if tFlag t.cmd 3 then wrapInt f.width (roundToInt f e.rnd v)
  else writeInt f e.sat (intVal .int32 acc)

/-- An output row and the abs-max of its elements (R250). -/
def drainRow (t : TileRec) (scales : Nat) (acc : List Nat) : Nat × Nat :=
  let vs := acc.zipIdx.map fun e => (e.1, drainVal t scales e.1 e.2)
  let w := (fmtOf t.fmtC).width
  (vs.foldr (fun e x => drainBits t e.2 e.1 % 2 ^ w + 2 ^ w * x) 0, (vs.map fun e => rne32 e.2.abs).foldl max 0)

/-- The writes of the output rows, each at most 256 bytes of one memory row: address, bytes and data (R250). -/
def drainWrites (t : TileRec) (rows : List Nat) : List (Nat × Nat × Nat) :=
  let b := 16 * (fmtOf t.fmtC).width
  rows.zipIdx.flatMap fun e =>
    let a := (tf t.cmd 36 4 * 256 + e.2 * tf t.cmd 40 4) % 2 ^ 40
    (List.range (cdiv b 256)).map fun i => ((a + 256 * i) % 2 ^ 40, min b 256, nbytes e.1 (256 * i) (min b 256))

/-- Write output rows in order (R250, R253): rows written before a failure stay written. -/
def State.drainAll (s : State) (o : Origin) : List (Nat × Nat × Nat) → TileRes Unit
  | [] => .ok () s
  | w :: t =>
    match s.setSafeWrite o w.1 w.2.1 w.2.2 with
    | .ok _ s => s.drainAll o t
    | .fail c => .fail c w.1 s
    | .hold s => .hold s
    | .absent | .link => .fail cLocalRange w.1 s

/-- Merge an abs-max into its word (R251): one indivisible step on bits [31:0]. -/
def State.mergeAmax (s : State) (o : Origin) (addr amax : Nat) : State :=
  match s.spotLocal o.part.toNat o.quad (rowOf addr) with
  | .mem k => s.storeBytes k 4 (max (s.mem.readLe k 4) amax)
  | _ => s

/-- The end of a task (R246, R252): its done increment, its array free, and the evictions that waited for it (R258). -/
def State.tileEnd (s : State) (q : Nat) (arr : Fin 4) (t : TileRec) : State :=
  let x := (s.quad q).arrays[arr]
  let clear := fun (b : StatBuf) => if x.evict.contains b.tag then { b with valid := false } else b
  let s := s.doneAdd t.org (tDoneAddr t.cmd) 1
  let s := s.modQuad q fun y => { y with
    arrays := y.arrays.set arr { x with task := none, evict := [], buf0 := clear x.buf0, buf1 := clear x.buf1 }
    completed := y.completed + 1 }
  (s.stamp t.org.part.toNat 2 t.org.job.toNat (tf t.cmd 60 4) t.enq t.began (srcTile q)).performed t.id

/-- Drain a streamed task (R250 to R253). -/
def State.drainTask (s : State) (q : Nat) (arr : Fin 4) (t : TileRec) : TileRes Unit :=
  let scaleAddrs := if tFlag t.cmd 3 then [tf t.cmd 48 4 * 256, (tf t.cmd 48 4 + 1) % 2 ^ 32 * 256] else []
  let amaxAddr := tf t.cmd 52 4 * 256
  match s.readRows t.org scaleAddrs with
  | .fail c a s => .fail c a s
  | .hold s => .hold s
  | .ok rows s =>
    let scales := pack (rows.map fun r => (256, r.toNat))
    let out := (s.quad q).arrays[arr].acc.map (drainRow t scales)
    let writes := drainWrites t (out.map (·.1))
    let ports := writes.map (·.1) ++ [tDoneAddr t.cmd] ++ if tFlag t.cmd 0 then [amaxAddr] else []
    match ports.findSome? fun a => s.heldWrite t.org a with
    | some s => .hold s
    | none =>
      match s.drainAll t.org writes with
      | .fail c a s => .fail c a s
      | .hold s => .hold s
      | .ok _ s =>
        if !s.canAdd t.org (tDoneAddr t.cmd) then .fail cLocalRange (tDoneAddr t.cmd) s
        else if tFlag t.cmd 0 && !s.canAdd t.org amaxAddr then .fail cLocalRange amaxAddr s
        else if tFlag t.cmd 0 && s.inOwnSet t.org false amaxAddr then .fail cSetWrite amaxAddr s
        else
          let s := if tFlag t.cmd 0 then s.mergeAmax t.org amaxAddr ((out.map (·.2)).foldl max 0) else s
          .ok () (s.tileEnd q arr t)

/-- Run the task of an array to its end, from the block at which it stands. -/
def State.runTile (s : State) (q : Nat) (arr : Fin 4) (t : TileRec) : TileRes Unit :=
  let n := if tPreload t.cmd then min (tBlocks t.cmd) 2 else tBlocks t.cmd
  match State.runBlocks q arr (n - t.kb) s with
  | .fail c a s => .fail c a s
  | .hold s => .hold s
  | .ok _ s =>
    if tPreload t.cmd then
      match s.heldWrite t.org (tDoneAddr t.cmd) with
      | some s => .hold s
      | none => if s.canAdd t.org (tDoneAddr t.cmd) then .ok () (s.tileEnd q arr t) else .fail cLocalRange (tDoneAddr t.cmd) s
    else s.drainTask q arr t

/-- TILE_DONE (R245 to R253): a task held by a granule, by zeroing or by retention goes on in a later step. -/
def execTileDone (quad : Fin 32) (arr : Fin 4) (s : State) : Out :=
  .next (match (s.quad quad.val).arrays[arr].task with
  | none => s
  | some t =>
    match s.runTile quad.val arr t with
    | .ok _ s => s
    | .fail c a s => s.tileFail quad.val t c a
    | .hold s => s)

end Sys2Proof.Machine
end

