-- ==== Sys2Proof/Machine/Mat.lean ====
section
/-!
DEFINITION. Mat: the meanings of the MAT operations (R255 to R259).
-/
namespace Sys2Proof.Machine

/-- NOP.M (R94). -/
def execNopM (s : State) : Out := s.slotNop

/-- Check a tile-task record and push it into the quad's tile queue once its cells can be had (R237, R238, R241). -/
def State.pushTile (s : State) (c : Ctx) (rec : BitVec 512) (staging : List VReg) : State :=
  let fa := c.fmtByte (tf rec 2 1)
  let fw := c.fmtByte (tf rec 3 1)
  let fc := c.fmtByte (tf rec 44 1)
  if badTile rec fa fc staging.length then s.trapSlot cBadTile 0 0
  else match tileFormat rec fa fw fc with
    | some e => s.trapSlot cFormat 0 (e.setWidth 32)
    | none =>
      let q := quadOf s.issue.key
      if s.fenced 2 || !s.cellRoom q 0 (1 + 32 * staging.length) then s.waits
      else
        let n := s.fresh
        let t : TileRec := ⟨n.1, n.2.origin, rec, fa, fw, fc, c.cb[(entryOf fw).cb], staging, false, s.tbase.toNat, 0, false, 0, none, none⟩
        (n.2.modQuad q fun x => { x with tiles := x.tiles ++ [t] }).command n.1 2

/-- TTASK (R256). -/
def execTtask (a : Fin 256) (s : State) : Out :=
  .next (s.slot [.v a] [] fun c s => s.pushTile c ((c.getV a).setWidth 512) [])

/-- TTASKR (R256): registers b to b + n1 are the A staging. -/
def execTtaskr (a b : Fin 256) (n1 : Fin 8) (s : State) : Out :=
  let regs := (List.range (n1.val + 1)).map fun i => Fin.ofNat 256 (b.val + i)
  .next (s.slot (Dst.v a :: regs.map Dst.v) [] fun c s => s.pushTile c ((c.getV a).setWidth 512) (regs.map c.getV))

/-- TQCFG (R255): a non-zero upper bit of sa makes the write have no effect. -/
def execTqcfg (a b : Fin 64) (s : State) : Out :=
  .next (s.privileged fun s => s.slot [.s a, .s b] [] fun c s =>
    let sel := (c.getS a).toNat
    let v := c.getS b
    s.modQuad (quadOf s.issue.key) fun x =>
      if sel = 0 then { x with tqmin := v.setWidth 12 }
      else if sel = 1 then { x with tqcap := v.setWidth 13 }
      else if sel = 2 then { x with tqskip := v.getLsbD 0 }
      else if sel = 3 then { x with tqthr := v.setWidth 3 }
      else x)

/-- Bits of a stationary buffer as TSTAT shows them (R257). -/
def StatBuf.bits (b : StatBuf) : Nat := b.tag.toNat + b.valid.toNat * 2 ^ 32 + b.special.toNat * 2 ^ 33 + b.sf.toNat * 2 ^ 36

/-- A status value of a quad's scheduler for a job (R257). -/
def State.tileStat (s : State) (q : Nat) (job : BitVec 12) (which : Fin 16) : Nat :=
  let x := s.quad q
  let busy := x.arrays.toList.filterMap (·.task)
  let sel := which.val
  if sel = 0 then x.tiles.length
  else if sel = 1 then (x.tiles.filter fun t => decide (t.org.job = job)).length
  else if sel = 2 then ((List.range 4).map fun i => if ((x.arrays.toList.getD i .reset).task).isSome then 2 ^ i else 0).sum
  else if sel = 3 then ((x.tiles ++ busy).map fun t => 1 + 32 * t.staging.length).sum
  else if sel = 12 then x.completed % 2 ^ 64
  else if sel = 13 then x.failed % 2 ^ 64
  else if sel = 14 then x.skipped % 2 ^ 64
  else if sel = 15 then x.thrcyc % 2 ^ 64
  else
    let arr := x.arrays.toList.getD ((sel - 4) / 2) .reset
    (if sel % 2 = 0 then arr.buf0 else arr.buf1).bits

/-- TSTAT (R116, R257). -/
def execTstat (d : Fin 64) (which : Fin 16) (s : State) : Out :=
  .next (s.slot [] [.s d] fun c s =>
    (s.produce (.s d) (some (BitVec.ofNat 16384 (s.tileStat (quadOf s.issue.key) c.job which))) none 8).2)

/-- Whether a running task uses a buffer of its array (R258): that of the block before the next, or the one that the next block matches. -/
def MatArray.uses (x : MatArray) (second : Bool) : Bool :=
  match x.task with
  | none => false
  | some t => decide (t.prev = some second ∨ t.cur = some second) || (if second then x.buf1 else x.buf0).hit (tTag t.cmd t.kb) t.sf

/-- Evict a tag from an array (R258): at once from a buffer that no task uses, else when the task's done increment has been performed; no later task
matches the tag. -/
def MatArray.evictTag (x : MatArray) (tag : BitVec 32) : MatArray :=
  let clear (b : StatBuf) (used : Bool) : StatBuf := if b.tag = tag && !used then { b with valid := false } else b
  { x with
    buf0 := clear x.buf0 (x.uses false)
    buf1 := clear x.buf1 (x.uses true)
    evict := if x.task.isSome then tag :: x.evict else x.evict }

/-- TEVICT (R258): a tag of 0 has no effect. -/
def execTevict (a : Fin 64) (s : State) : Out :=
  .next (s.slot [.s a] [] fun c s =>
    let tag : BitVec 32 := (c.getS a).setWidth 32
    if tag = 0 then s else s.modQuad (quadOf s.issue.key) fun x => { x with arrays := x.arrays.map fun y => y.evictTag tag })

/-- TLATE (R259). -/
def execTlate (d : Fin 64) (s : State) : Out :=
  .next (s.slot [] [.s d] fun _ s =>
    let q := quadOf s.issue.key
    let e := (s.quad q).tqthr.toNat
    let late := if e < 4 then min (s.late e) (2 ^ 56 - 1) else 0
    s.own fun x => x.setS d (BitVec.ofNat 64 (s.quadLevel q + late * 256)))

end Sys2Proof.Machine
end

