-- ==== Sys2Proof/Machine/Barker.lean ====
section
/-!
DEFINITION. Barker: the refresh of the HBM4E banks (R313), and the request gatherer (R314 to R319).
-/
namespace Sys2Proof.Machine

/-! ### Refresh -/

/-- Refreshes that a bank owes (R313). -/
def State.owed (s : State) (ch bank : Nat) : Nat := ((s.refresh.find? fun r => decide (r.1 = ch ∧ r.2.1 = bank)).map (·.2.2)).getD 0
/-- Set what a bank owes. -/
def State.setOwed (s : State) (ch bank n : Nat) : State :=
  let rest := s.refresh.filter fun r => !decide (r.1 = ch ∧ r.2.1 = bank)
  { s with refresh := if n = 0 then rest else (ch, bank, n) :: rest }

/-- REFRESH_DUE (R313): on a bank that owes eight refreshes it forces one of all banks of the channel, which stalls them for 790 cycles. -/
def execRefreshDue (ch : Fin 128) (bank : Nat) (s : State) : Out :=
  let n := s.owed ch.val bank
  .next (if n < 8 then s.setOwed ch.val bank (n + 1)
    else (({ s with refresh := s.refresh.filter fun r => decide (r.1 ≠ ch.val) }).count .hlat ch.val 15 0 1).count .hlat ch.val 47 16 790)

/-- BANK_REFRESH (R313): the controller performs a refresh that an idle bank owes. -/
def execBankRefresh (ch : Fin 128) (bank : Nat) (s : State) : Out := .next (s.setOwed ch.val bank (s.owed ch.val bank - 1))

/-! ### Channels -/

/-- Count in GCNT_g: 0 DUPROWS, 1 STRAY, 2 DUPREQ, 3 REJECTS (R319). -/
def State.gatherCount (s : State) (g i : Nat) : State := s.count .gcnt g (16 * i + 15) (16 * i) 1

/-- An access of the Barker fails (R314): its fault record goes to the partition's fault queue. -/
def State.gatherFault (s : State) (g part : Nat) (cause : Cause) (addr : Nat) : State :=
  s.postFault { cause := cause, src := 9, part := part, job := none, unit := g, addr := addr }

/-- A write of GDB_g (R315, R319): dropped while the channel is disabled, and rejected when it overruns the ring. -/
def State.gatherRing (s : State) (g : Nat) (tail : BitVec 32) : State :=
  let c := (s.gatherChan g).cfg
  if gOn c = false then s
  else if gField c 32 4 < (tail.toNat + 2 ^ 32 - s.fld .gstat g 31 0) % 2 ^ 32 then s.gatherCount g 3
  else s.setFld .gdb g 31 0 tail.toNat

/-- GATHER_DOORBELL (R315, R319, R430): any agent may write GDB_g. -/
def execGatherDoorbell (agent : Nat) (g : Fin 16) (tail : BitVec 32) (s : State) : Out := .next (if s.hears agent then s.gatherRing g.val tail else s)

/-- Handle a request entry (R315). -/
def State.gatherRequest (s : State) (g : Nat) (x : Nat) : State :=
  let ch := s.gatherChan g
  let c := ch.cfg
  let stage := nbytes x 8 2
  let rows := nbytes x 10 2
  let new : Stage := ⟨BitVec.ofNat 64 (nbytes x 0 8), rows, nbytes x 16 8, BitVec.ofNat 64 (nbytes x 24 8), 0, none, false⟩
  if gField c 20 2 ≤ stage ∨ rows = 0 ∨ gField c 14 2 < rows ∨ nbytes x 12 4 ≠ 0 ∨ nbytes x 32 32 ≠ 0 then s.gatherCount g 3
  else match tget ch.stages stage with
    | none => s.modGather g fun y => { y with stages := tset y.stages stage new }
    | some old =>
      if old.rid = new.rid then s.gatherCount g 2
      else if old.batched then s.modGather g fun y => { y with stages := tset y.stages stage new }
      else s.gatherCount g 3

/-- HEAD passes the entry of a channel that it names. -/
def State.gatherPass (s : State) (g : Nat) : State := s.setFld .gstat g 31 0 (s.fld .gstat g 31 0 + 1)

/-- Address of the entry at HEAD of a channel (R315). -/
def State.gatherHead (s : State) (g : Nat) : Nat :=
  let c := (s.gatherChan g).cfg
  gField c 24 8 + s.fld .gstat g 31 0 % gField c 32 4 * 64

/-- An entry that cannot be read is rejected, and HEAD passes it (R314). -/
def State.gatherReject (s : State) (g : Nat) (cause : Cause) : State :=
  ((s.gatherFault g (gPart (s.gatherChan g).cfg) cause (s.gatherHead g)).gatherCount g 3).gatherPass g

/-- Whether an access of the Barker waits for port 0 (R426). -/
def State.waitsLink (s : State) (w : ParkWork) : Bool := s.parked.any fun p => decide (p.work = w)

/-- GATHER_ENTRY (R314, R315, R430): the Barker reads the entry at HEAD. One in the host waits for port 0 (R426). -/
def execGatherEntry (g : Fin 16) (s : State) : Out :=
  let c := (s.gatherChan g.val).cfg
  let addr := s.gatherHead g.val
  .next (if gOn c = false ∨ s.fld .gstat g.val 31 0 = s.fld .gdb g.val 31 0 ∨ s.waitsLink (.gatherEntry g.val) then s
    else match s.spotVa (gPart c) (rowOf addr) 1 with
      | .link => s.parkLink (gPart c) addr (.gatherEntry g.val)
      | spot => match s.readSpot (gPart c) spot with
        | .ok row s => (s.gatherRequest g.val (nbytes row.toNat (addr % 256) 64)).gatherPass g.val
        | .absent => s.gatherReject g.val cNotPresent
        | .fail x => s.gatherReject g.val x
        | .link | .hold _ => s)

/-- Write an arrived row at its place (R314, R316): a row that cannot be written is stray, and one to the
host waits for port 0 (R426). -/
def State.gatherPut (s : State) (g : Nat) (offset : BitVec 28) (part addr : Nat) (data : Row) (written : State → State) : State :=
  let stray (cause : Cause) : State := (s.gatherFault g part cause addr).gatherCount g 1
  match s.spotVa part addr 2 with
  | .mem k => written (s.storeRow k data fullMask)
  | .link => s.parkLink part addr (.gatherRow g offset data)
  | .absent => stray cNotPresent
  | .fail c => stray c
  | .regs off => match s.writeSpot part data fullMask false (.regs off) with
    | .ok _ s => written s
    | _ => stray cPerm
  | .hold => s

/-- Row j of a stage arrives (R316). -/
def State.gatherArrive (s : State) (g : Nat) (offset : BitVec 28) (data : Row) : State :=
  let ch := s.gatherChan g
  let c := ch.cfg
  let stage := offset.toNat / 256 / 1024
  let j := offset.toNat / 256 % 1024
  match tget ch.stages stage with
  | none => s.gatherCount g 1
  | some x =>
    if gOn c = false ∨ gField c 20 2 ≤ stage ∨ x.nrows ≤ j then s.gatherCount g 1
    else if x.bitmap.getLsbD j then s.gatherCount g 0
    else if x.batched then s.gatherCount g 1
    else s.gatherPut g offset (gPart c) (gField c 40 8 + (stage * gField c 14 2 + j) * 256) data fun s =>
      let bits := x.bitmap ||| BitVec.ofNat 1024 (2 ^ j)
      let full := (List.range x.nrows).all fun i => bits.getLsbD i
      s.modGather g fun y => { y with
        stages := tset y.stages stage { x with bitmap := bits, complete := if full then some s.tbase.toNat else none } }

/-- GATHER_ROW (R316): the Barker's row windows do not answer in recovery (R432). -/
def execGatherRow (g : Fin 16) (offset : BitVec 28) (data : BitVec 2048) (s : State) : Out := .next (if s.running then s.gatherArrive g.val offset data else s)

/-! ### Batches -/

/-- The complete unbatched requests of a channel, by completion tick, then by stage (R317). -/
def GatherChan.ready (ch : GatherChan) : List (Nat × Stage) :=
  (ch.stages.filter fun e => e.2.complete.isSome && !e.2.batched).mergeSort fun a b =>
    let x := a.2.complete.getD 0
    let y := b.2.complete.getD 0
    decide (x < y ∨ (x = y ∧ a.1 ≤ b.1))

/-- Close a batch (R317, R318). -/
def GatherChan.close (ch : GatherChan) (reason tick : Nat) (items : List (Nat × Stage)) : GatherChan :=
  { ch with
    stages := ch.stages.map fun e => if items.any fun i => decide (i.1 = e.1) then (e.1, { e.2 with batched := true }) else e
    nextBatch := ch.nextBatch + 1
    batches := ch.batches ++ [⟨ch.cfg, ch.nextBatch, reason, items, tick, false⟩] }

/-- Close batches by count, while enough requests are complete (R317). -/
def GatherChan.closeFull (ch : GatherChan) (tick b : Nat) : Nat → GatherChan
  | 0 => ch
  | n + 1 => if 0 < b ∧ b ≤ ch.ready.length then (ch.close 0 tick (ch.ready.take b)).closeFull tick b n else ch

/-- What the Barker does on a channel in a tick (R317). -/
def State.gatherStep (s : State) (g : Nat) : State :=
  let tick := s.tbase.toNat
  s.modGather g fun ch =>
    let ch := ch.closeFull tick (gField ch.cfg 12 2) ch.stages.length
    let l := ch.ready
    match (l.map fun e => e.2.deadline).min? with
    | none => ch
    | some d => if d ≤ tick + gField ch.cfg 16 4 then ch.close 1 tick l else ch

/-- GATHER_TICK (R317). -/
def execGatherTick (g : Fin 16) (s : State) : Out := .next (if (tget s.gather g.val).isSome then s.gatherStep g.val else s)

/-- The rows of a batch's list, each with its place and the bytes that it holds: COUNT entries of 32 bytes, which for a batch of REASON 2 may pass the 1,024
bytes of its place in the ring. -/
def Batch.listRows (b : Batch) : List (Nat × Nat) :=
  (List.range (cdiv (32 * b.items.length) 256)).map fun i => (256 * i, min 256 (32 * b.items.length - 256 * i))

/-- The list of the oldest batch of a channel is written, or lost (R314). -/
def State.listOver (s : State) (g : Nat) : State :=
  s.modGather g fun y => { y with batches := match y.batches with
    | b :: t => { b with listDone := true } :: t
    | [] => [] }

/-- Write the rows of a batch's list: all of them, or what stops the first that cannot be written, with its address and bytes. -/
def State.writeListRows (s : State) (part : Nat) (b : Batch) : List (Nat × Nat) → State × Option (Spot × Nat × Nat)
  | [] => (s, none)
  | e :: t =>
    let at_ := b.listAt + e.1
    match s.spotVa part at_ 2 e.2 with
    | .mem k => (s.storeBytes k e.2 (nbytes b.list e.1 e.2)).writeListRows part b t
    | .regs off => match s.writeSpot part (BitVec.ofNat 2048 (nbytes b.list e.1 e.2)) (byteMask 0 e.2) false (.regs off) with
      | .ok _ s => s.writeListRows part b t
      | _ => (s, some (.fail cPerm, at_, e.2))
    | sp => (s, some (sp, at_, e.2))

/-- Write the list of a channel's oldest batch (R314, R318, R430): one that cannot be written is lost, and one that the host holds up waits, and is then
written again (R424, R426). -/
def State.writeList (s : State) (g : Nat) (b : Batch) : State :=
  let part := gPart b.cfg
  if s.waitsLink (.gatherList g) then s
  else match s.writeListRows part b b.listRows with
  | (s, none) => s.listOver g
  | (s, some (.link, a, n)) => s.parkLink part a (.gatherList g) n
  | (s, some (.absent, a, _)) => (s.gatherFault g part cNotPresent a).listOver g
  | (s, some (.fail c, a, _)) => (s.gatherFault g part c a).listOver g
  | (s, some (.hold, _)) | (s, some (.mem _, _)) | (s, some (.regs _, _)) => s

/-- BATCH_PUSH (R318): the oldest closed batch of a channel. Its list is written, then its record is pushed once its queue admits it: it joins those that wait
there in its order of arrival (R343), and a wait counts once in BLOCKED. -/
def execBatchPush (g : Fin 16) (s : State) : Out :=
  .next (match (s.gatherChan g.val).batches with
  | [] => s
  | b :: _ =>
    let s := if b.listDone then s else s.writeList g.val b
    let q := gField b.cfg 22 2 % 1024
    let here (s : State) : Bool := (s.bdQueue q).pushes.contains (.batch g.val)
    if !((s.gatherChan g.val).batches.head?.any fun b => b.listDone) || here s then s
    else
      let s := (s.setBdq q { s.bdQueue q with pushes := (s.bdQueue q).pushes ++ [.batch g.val] }).serveBdq q
      if here s then s.count .bdqstat q 63 32 1 else s)

/-- Configure a channel by a GATHER_CFG packet (R314). -/
def State.gatherConfig (s : State) (p : BitVec 512) : State :=
  let g := gField p 8 1
  let tick := s.tbase.toNat
  let s := { s with parked := s.parked.filter fun p => decide (p.work ≠ ParkWork.gatherEntry g) }
  let s := s.modGather g fun ch =>
    let ch := if gOn ch.cfg && !ch.ready.isEmpty then ch.close 2 tick ch.ready else ch
    { ch with cfg := p, stages := [] }
  ((s.setFld .gdb g 31 0 0).setFld .gstat g 31 0 0).setFld .gstat g 32 32 (gOn p).toNat

/-- Whether a GATHER_CFG packet breaks its limits (R314). -/
def badGather (p : BitVec 512) : Bool :=
  let power (n lo hi : Nat) : Bool := decide (lo ≤ n ∧ n ≤ hi) && (List.range 17).any fun i => decide (n = 2 ^ i)
  !(decide (gField p 8 1 < 16 ∧ gField p 9 1 < 16 ∧ gField p 10 1 < 2 ∧ gField p 11 1 = 0 ∧ 1 ≤ gField p 12 2 ∧ gField p 12 2 ≤ 32) &&
    decide (1 ≤ gField p 14 2 ∧ gField p 14 2 ≤ 1024 ∧ 1 ≤ gField p 20 2 ∧ gField p 20 2 ≤ 1024 ∧ gField p 22 2 < 1024) &&
    decide (gField p 24 8 % 64 = 0 ∧ gField p 36 4 = 0 ∧ gField p 40 8 % 256 = 0 ∧ gField p 48 8 % 1024 = 0 ∧ gField p 60 4 = 0) &&
    power (gField p 32 4) 16 65536 && power (gField p 56 4) 2 65536)

end Sys2Proof.Machine
end

