-- ==== Sys2Proof/Machine/Com.lean ====
section
/-!
DEFINITION. Com: the COM operations: channels (R190, R334 to R341), the sending of collectives (R386 to R388), and the travel of channel elements and
credits (R336, R338).
-/
namespace Sys2Proof.Machine

/-- NOP.X (R94). -/
def execNopX (s : State) : Out := s.slotNop

/-! ### Channel entries -/

/-- Whether a 16-bit entry names a format that a channel accepts (R182, R190). -/
def chFormat (x : Nat) : Bool :=
  let e := FmtEntry.ofBits x
  e.reservedZero && !e.scaled && (match e.fmt with | some f => f.plain | none => false)

/-- Whether an entry keeps R334 and R190. -/
def chEntryOk (e : BitVec 128) : Bool :=
  if !chFlag e 0 then decide (e = 0)
  else
    let scalar := chFlag e 2
    let rows := chField e 4 1
    decide (chField e 0 1 < 8 ∧ chField e 1 1 < 128 ∧ chField e 2 1 < 64 ∧ 1 ≤ chField e 3 1 ∧ chField e 3 1 ≤ 64 ∧ chField e 5 1 = 0 ∧
      chField e 7 1 = 0 ∧ chField e 12 4 = 0) &&
    (if scalar then decide (rows = 0 ∧ chField e 8 4 = 0) else decide (1 ≤ rows ∧ rows ≤ 8) && chFormat (chField e 8 2) && chFormat (chField e 10 2))

/-- Whether a peer entry names an end back and agrees with it (R335). -/
def chMatch (e peer : BitVec 128) (logical ch : Nat) : Bool :=
  chFlag peer 0 && decide (chFlag peer 1 ≠ chFlag e 1 ∧ chFlag peer 2 = chFlag e 2 ∧ chField peer 1 1 = logical ∧ chField peer 2 1 = ch ∧
    chField peer 3 2 = chField e 3 2 ∧ chField peer 6 1 = chField e 6 1 ∧ chField peer 8 4 = chField e 8 4)

/-- The other end of a channel of a team context, when both ends match (R335, R339). -/
def State.chPeer (s : State) (c : Ctx) (key ch : Nat) : Option (Nat × Nat) :=
  let e := (s.chan (coreOf key) ch).entry
  let pch := chField e 2 1 % 64
  match s.teamCore c.job.toNat (chField e 1 1) with
  | none => none
  | some core => if c.logical ≠ 0xFF ∧ chEntryOk e ∧ chMatch e (s.chan core pch).entry c.logical.toNat ch then some (core, pch) else none

/-- An operation on one end of a channel (R336, R337): the entry must be valid, of this direction and kind, of this many rows, and match its
peer. -/
def State.channelOp (s : State) (c : Ctx) (ch : Nat) (recv scalar : Bool) (n : Nat) (f : BitVec 128 → Nat × Nat → State → State) : State :=
  let e := (s.chan (coreOf s.issue.key) ch).entry
  let rows := if scalar then 0 else if recv then chSinkRows e else chField e 4 1
  match s.chPeer c s.issue.key ch with
  | some p => if chFlag e 0 ∧ chFlag e 1 = recv ∧ chFlag e 2 = scalar ∧ rows = n then f e p s else s.trapSlot cBadChannel 0 0
  | none => s.trapSlot cBadChannel 0 0

/-! ### Sending (R336) -/

/-- Send an element: it waits for a credit and for the older path-C writes of the context, takes the credit and travels in its slot. -/
def State.sendElem (s : State) (c : Ctx) (ch : Nat) (scalar : Bool) (n data : Nat) : State :=
  s.channelOp c ch false scalar n fun e p s =>
    let core := coreOf s.issue.key
    if s.pushing || s.fenced 6 || decide (chField e 3 1 ≤ (s.chan core ch).taken) then s.waits
    else
      let x := s.fresh
      let s := (x.2.command x.1 6).modChan core ch fun k => { k with taken := k.taken + 1 }
      let due := s.now + chLatency core p.1 + (if scalar then 0 else n - 1)
      s.modChan p.1 p.2 fun k => { k with flying := k.flying ++ [Elem.mk data due x.1 none] }

/-- SEND. -/
def execSend (ch : Fin 64) (v : Fin 256) (n1 : Fin 8) (s : State) : Out :=
  .next (s.slot [.v v] [] fun c s => s.sendElem c ch.val false (n1.val + 1) ((c.getV v).toNat % 256 ^ (256 * (n1.val + 1))))
/-- SSEND. -/
def execSsend (ch a : Fin 64) (s : State) : Out :=
  .next (s.slot [.s a] [] fun c s => s.sendElem c ch.val true 0 (c.getS a).toNat)

/-! ### Receiving (R190, R337, R338) -/

/-- Receive an element: the destination is empty from dispatch (R116). -/
def State.recvElem (s : State) (c : Ctx) (ch : Nat) (scalar : Bool) (n : Nat) (d : Dst) (old : Option VReg) : State :=
  s.channelOp c ch true scalar n fun _ _ s =>
    let core := coreOf s.issue.key
    let x := s.produce d none none 2
    (x.2.modChan core ch fun k => { k with recvs := k.recvs ++ [⟨x.1, old, c.job.toNat⟩] }).acquiring x.1 |>.serveChan core ch 64

/-- RECV. -/
def execRecv (ch : Fin 64) (v : Fin 256) (n1 : Fin 8) (s : State) : Out :=
  .next (s.slot [] [.v v] fun c s => s.recvElem c ch.val false (n1.val + 1) (.v v) none)
/-- RECVADD: it reads its destination. -/
def execRecvadd (ch : Fin 64) (v : Fin 256) (n1 : Fin 8) (s : State) : Out :=
  .next (s.slot [.v v] [.v v] fun c s => s.recvElem c ch.val false (n1.val + 1) (.v v) (some (c.getV v)))
/-- SRECV. -/
def execSrecv (ch d : Fin 64) (s : State) : Out :=
  .next (s.slot [] [.s d] fun c s => s.recvElem c ch.val true 0 (.s d) none)

/-- CHANNEL_ARRIVAL (R338): the oldest element in flight is present, and the committed receives are served. -/
def execChannelArrival (core : Fin 128) (ch : Fin 64) (s : State) : Out :=
  .next (match (s.chan core.val ch.val).flying with
  | [] => s
  | x :: xs =>
    if s.now < x.due then s
    else ((s.modChan core.val ch.val fun k => { k with flying := xs, elems := k.elems ++ [x] }).performed x.id).serveChan core.val ch.val 64)

/-- CHANNEL_CREDIT (R336): a credit returns to the send end. -/
def execChannelCredit (core : Fin 128) (ch : Fin 64) (s : State) : Out :=
  .next (match (s.chan core.val ch.val).returning with
  | [] => s
  | due :: t => if s.now < due then s else s.modChan core.val ch.val fun k => { k with returning := t, taken := k.taken - 1 })

/-! ### CHCFG and CHQRY (R339, R340) -/

/-- Whether an end of a channel is idle (R339): no element, buffered or in flight, and every credit at home. -/
def Chan.isIdle (k : Chan) : Bool := k.elems.isEmpty && k.flying.isEmpty && decide (k.taken = 0) && k.returning.isEmpty

/-- CHCFG (R101, R339). -/
def execChcfg (ch a : Fin 64) (s : State) : Out :=
  .next (if s.issue.src.logical = 0xFF then s.trapSlot cPriv 0 0
  else s.slot [.s a] [] fun c s =>
    s.pathC [rowOf ((c.getS a).toNat % 2 ^ 40)] fun l s =>
      let r := s.rowValue (l.headD 0)
      let new : BitVec 128 := BitVec.ofNat 128 (nbytes r.1.toNat (16 * bitsOf (c.getS a) 7 4) 16)
      let core := coreOf s.issue.key
      let k := s.chan core ch.val
      let idlePeer := !chFlag k.entry 0 || (match s.teamCore c.job.toNat (chField k.entry 1 1) with
        | some p => (s.chan p (chField k.entry 2 1 % 64)).isIdle
        | none => true)
      if !k.isIdle || !idlePeer || !chEntryOk new then s.trapSlot cBadChannel 0 0
      else if s.cellRoom (core / 4) 3 (chCells new) then r.2.modChan core ch.val fun k => { k with entry := new, cells := chCells new }
      else s.waits)

/-- CHQRY (R340). -/
def execChqry (ch d : Fin 64) (which : Fin 4) (s : State) : Out :=
  .next (s.slot [] [.s d] fun _ s =>
    let k := s.chan (coreOf s.issue.key) ch.val
    let used := if chFlag k.entry 1 then k.elems.length else k.taken
    let v := match which with
      | 0 => used
      | 1 => chField k.entry 3 1 - used
      | 2 => chField k.entry 0 8
      | 3 => chField k.entry 8 8
    s.own fun x => x.setS d (BitVec.ofNat 64 v))

/-! ### Collectives (R386 to R388) -/

/-- HCOLL (R386): the descriptor is checked and sent to the base die of the issuing die. -/
def execHcoll (a : Fin 64) (s : State) : Out :=
  .next (s.slot [.s a] [] fun c s =>
    let addr := (c.getS a).toNat % 2 ^ 40
    if s.fenced 4 then s.waits
    else s.pathC [rowOf addr] fun l s =>
      let r := s.rowValue (l.headD 0)
      let desc : BitVec 512 := BitVec.ofNat 512 (nbytes r.1.toNat (64 * (addr / 64 % 4)) 64)
      let far (x : Nat) : Bool := !x.testBit 63 && decide (s.reach c.part.toNat (quadOf s.issue.key) x = .range)
      if badColl (quadOf s.issue.key) desc || far (cf desc 32 8) || far (cf desc 48 8) then s.trapSlot cBadColl 0 0
      else
        let n := r.2.fresh
        let q : CollReq := ⟨n.1, n.2.origin, desc⟩
        (n.2.modDie (dieOf s.issue.key) fun d => { d with collReqs := d.collReqs ++ [q] }).command n.1 4)

/-- HRECH (R387): the list goes to the base die, which acts on each chunk (R382). -/
def execHrech (a : Fin 64) (s : State) : Out :=
  .next (s.slot [.s a] [] fun c s =>
    let addr := (c.getS a).toNat % 2 ^ 40
    if s.fenced 4 then s.waits
    else s.pathC [rowOf addr] fun l s =>
      let r := s.rowValue (l.headD 0)
      let word := fun i => nbytes r.1.toNat (8 * i) 8
      let n := word 1
      if nbits (word 0) 63 48 ≠ 0 ∨ n = 0 ∨ 30 < n then s.trapSlot cBadColl 0 0
      else
        let f := r.2.fresh
        f.2.rechunk (nbits (word 0) 15 0) (nbits (word 0) 47 16) ((List.range n).map fun i => word (i + 2)) ⟨f.1, c.ticket, none⟩)

/-- The status word of HQRY (R388). -/
def collStatus (x : Coll) : Nat :=
  let done := (x.chunks.filter fun e => e.2.committed).length
  let bad := (x.chunks.filter fun e => e.2.failed).length
  let state := if x.ended then 0 else if !x.going then 1 else if bad = 0 then 2 else 3
  if state = 0 then 0 else state + 4 * min done (2 ^ 30 - 1) + 2 ^ 32 * min bad (2 ^ 32 - 1)

/-- HQRY (R388). -/
def execHqry (d a : Fin 64) (s : State) : Out :=
  .next (s.slot [.s a] [.s d] fun c s =>
    let x := c.getS a
    let g := bitsOf x 15 0
    let v := if x.getLsbD 63 then tgetD s.collSeq g 0 else ((s.coll? g (bitsOf x 47 16)).map collStatus).getD 0
    s.own fun y => y.setS d (BitVec.ofNat 64 v))

end Sys2Proof.Machine
end

