-- ==== Sys2Proof/Machine/Fetch.lean ====
section
/-!
DEFINITION. Fetch: code pages (R77 to R82), and the landing of results (R116, R399, R405).
-/
namespace Sys2Proof.Machine

/-- Read `n` bytes as queue `q` of a partition reads them (R36): queue 0 by device physical address, every other through translations. -/
def State.readBytes (s : State) (q part a : Nat) : Nat → ArgRes
  | 0 => .ok []
  | n + 1 =>
    match s.spotQ q part a 1 with
    | .mem k =>
      if s.mem.poisoned k then .fail cPoison a
      else match s.readBytes q part (a + 1) n with
        | .ok l => .ok ((s.mem.read k).setWidth 64 :: l)
        | r => r
    | .absent => .absent a
    | .link => .link
    | .regs _ | .hold => .fail cPerm a
    | .fail c => .fail c a

/-- Read a page of a registered image (R77, R78): outside the image it fails with FETCH. -/
def State.readPage (s : State) (part : Nat) (image : BitVec 8) (page : Nat) : ArgRes :=
  match tget s.images (imageKey part image) with
  | none => .fail cFetch 0
  | some x =>
    if x.bytes ≤ page * 4096 then .fail cFetch 0
    else s.readBytes (if x.phys then 0 else 1) part (x.src + page * 4096) 4096

/-- Bytes as cells from offset 0: zero bytes are not listed. -/
def cellsOf (l : List Word) : List Host.Cell := (l.zipIdx.map fun e => (e.2, e.1.setWidth 8)).filter fun e => decide (e.2 ≠ 0)

/-- The page of the next bundle of a context (R79). -/
def State.nextPage (s : State) (key : Nat) : Nat := (s.fetchAt key).toNat / 4096

/-- Whether a frame of a core holds a protected page (R79). A dormant handler has no next bundle to fetch, so its entry's page is not protected (DESIGN
CHOICE: R79 does not say; log 16). -/
def State.protectedFrame (s : State) (core : Nat) (f : Frame) : Bool :=
  (List.range 8).any fun i =>
    let k := core * 8 + i
    let c := s.ctx k
    decide (c.life ≠ .free ∧ c.life ≠ .dormant ∧ c.part = f.part ∧ c.image = f.image) &&
      (decide (f.page = s.nextPage k) || (decide (xferLeft c.xfer ≠ 0 ∧ f.page = (xferTarget c.xfer).toNat / 4096)))

/-- Load a page into a frame of a core (R79): when all 64 are taken, in place of the unprotected one that was loaded longest ago. -/
def State.loadFrame (s : State) (core : Nat) (f : Frame) : State :=
  let old := ((s.core core).frames).filter fun x => decide (x.part ≠ f.part ∨ x.image ≠ f.image ∨ x.page ≠ f.page)
  let kept := if old.length < 64 then old
    else match old.findIdx? fun x => !s.protectedFrame core x with
      | some i => old.eraseIdx i
      | none => old.drop 1
  s.modCore core fun c => { c with frames := kept ++ [f] }

/-- Take a FETCH trap at an offset (R78, R82). FSLOTS is 0, also where the page is that of the LEND of a LOOP with count 0 (DESIGN CHOICE; log 16). -/
def State.fetchTrap (s : State) (key : Nat) (o : Offset) : State :=
  let s := s.modCtx key fun c => { c with wait := .none }
  s.takeTrap key cFetch 0 0 (s.ctx key).pc (s.ctx key).pc (o.setWidth 64) 0

/-- FETCH_FAULT (R78, R82): the fetch of a running context's next bundle finds no frame. The context stops being ready, or traps. -/
def execFetchFault (core : Fin 128) (ctx : Fin 8) (s : State) : Out :=
  let key := core.val * 8 + ctx.val
  let c := s.ctx key
  let o := s.fetchAt key
  .next (if c.life ≠ .running ∨ c.wait ≠ .none ∨ (s.codeByte key o).isSome then s
    else
      let s := s.modCtx key fun c => { c with pc := o }
      match s.readPage c.part.toNat c.image (o.toNat / 4096) with
      | .fail _ _ => s.fetchTrap key o
      | .ok _ | .absent _ | .link => s.modCtx key fun c => { c with wait := .fetch o })

/-- Whether a context waits for a page, and for which of its offsets. -/
def pageWait (w : Wait) (page : Nat) : Option Offset :=
  match w with
  | .fetch o => if o.toNat / 4096 = page then some o else none
  | .none | .suspend _ | .barrier _ _ | .arm | .pool | .lock _ | .word _ _ _ _ | .drain _ | .tlb _ | .argument | .release => none

/-- The contexts of a core that wait for one page. -/
def State.pageWaiters (s : State) (core : Nat) (part : BitVec 4) (image : BitVec 8) (page : Nat) : List Nat :=
  ((List.range 8).map (core * 8 + ·)).filter fun k =>
    let x := s.ctx k
    (pageWait x.wait page).isSome && decide (x.life = .running ∧ x.part = part ∧ x.image = image)

/-- Every context that waits for a page takes a FETCH trap, at the offset whose fetch failed (R78, R82). -/
def State.trapWaiters (s : State) (core : Nat) (part : BitVec 4) (image : BitVec 8) (page : Nat) : State :=
  (s.pageWaiters core part image page).foldl (fun s k => s.fetchTrap k ((pageWait (s.ctx k).wait page).getD 0)) s

/-- Whether the load of a page into a core is parked already: a second fetch fault on the page waits for the same load (R78). -/
def State.pageParked (s : State) (core : Nat) (part : BitVec 4) (image : BitVec 8) (page : Nat) : Bool :=
  s.parked.any fun p => decide (p.work = ParkWork.page core part image page)

/-- PAGE_LOAD (R78 to R80): the fetch duty loads the page that a context waits for, and every context that waits for it resumes. A page that cannot
be read traps them, or parks the load. -/
def execPageLoad (core : Fin 128) (ctx : Fin 8) (s : State) : Out :=
  let key := core.val * 8 + ctx.val
  let c := s.ctx key
  .next (match c.life, c.wait with
  | .running, .fetch o =>
    let page := o.toNat / 4096
    let part := c.part.toNat
    let waiters := s.pageWaiters core.val c.part c.image page
    match s.readPage part c.image page with
    | .fail _ _ => s.trapWaiters core.val c.part c.image page
    | .ok l =>
      let s := (s.loadFrame core.val ⟨c.part, c.image, page, cellsOf l⟩).count .fetchtune 0 55 24 1
      waiters.foldl (fun s k => s.modCtx k fun c => { c with wait := .none, held := false }) s
    | .absent a =>
      if s.pageParked core.val c.part c.image page then s
      else s.park part a (some c.job.toNat) 0 6 0 0 (.page core.val c.part c.image page)
    | .link =>
      let at_ := ((tget s.images (imageKey part c.image)).map fun x => x.src + page * 4096).getD 0
      if s.pageParked core.val c.part c.image page then s else s.parkLink part at_ (.page core.val c.part c.image page)
  | _, _ => s)

/-- Land a result of a context (R116, R399): the register is full, and poisoned when a poisoned row gave the value. -/
def Ctx.land (c : Ctx) (l : Landing) : Ctx :=
  match l.value with
  | none => c
  | some _ =>
    { (({ c with inflight := c.inflight.filter fun x => decide (x ≠ l) } : Ctx).replay (LogItem.mk 3 0 0 (some l) none none 0)) with held := false }

/-- Land the result of a context that has been due longest, among those wanted. -/
def State.landOne (s : State) (key : Nat) (want : Landing → Bool) : State :=
  let life := (s.ctx key).life
  let due := (s.ctx key).inflight.filter fun l =>
    want l && l.value.isSome && (s.ctx key).comes l && decide (l.due ≤ s.now) && decide (life = .running ∨ life = .ending)
  match due.foldl (fun (b : Option Landing) l => match b with | none => some l | some x => if l.due < x.due then some l else some x) none with
  | none => s
  | some l => (s.modCtx key fun c => c.land l).settle

/-- RESULT_LAND (R116, R399): a value that is due lands, one of a snapshot too (R405). -/
def execResultLand (core : Fin 128) (ctx : Fin 8) (s : State) : Out := .next (s.landOne (core.val * 8 + ctx.val) fun _ => true)

/-- SNAPSHOT_LAND (R405): a register named by a snapshot entry becomes full REMAIN cycles after the restored context's first dispatch. -/
def execSnapshotLand (core : Fin 128) (ctx : Fin 8) (s : State) : Out := .next (s.landOne (core.val * 8 + ctx.val) fun l => l.fromSnapshot)

end Sys2Proof.Machine
end

