-- ==== Sys2Proof/Machine/Sched.lean ====
section
/-!
DEFINITION. Sched: the taking of work (R53, R54, R61 to R63), the placing, slicing, stopping and saving of teams (R51, R65 to R68, R400 to R408).
-/
namespace Sys2Proof.Machine

/-! ### Taking work -/

/-- The base-die port that serves a choice of work of a context, if one does: whether it is a range port, and its die (R53, R61, R62). A take goes to the
die of the context, a steal to the die that holds the range. -/
def State.portOf (s : State) (key : Nat) : Work → Option (Bool × Nat)
  | .queued _ _ => some (false, s.quadPart (quadOf key) % 4)
  | .chunk job => some (true, if 0 < s.rangeLeft job (dieOf key) then dieOf key else s.victim job)
  | .saved _ | .record _ | .returned _ _ => none

/-- What a context would take now: its level, the work, the job Roundabout after the choice, and the port that it asks. -/
def State.wants (s : State) (key : Nat) : Option (Nat × Work × Roundabout × Option (Bool × Nat)) :=
  if s.mayTake key then (s.bestWork key).map fun w => (w.1, w.2.1, w.2.2, s.portOf key w.2.1) else none

/-- Whether a request that stands at a port is still what its context wants. -/
def State.stillAsks (s : State) (port : Bool × Nat) (r : PortReq) : Bool :=
  match s.wants r.key with
  | some (lvl, _, _, some p) => decide (p = port ∧ lvl = r.level ∧ s.quadPart (quadOf r.key) = r.part)
  | _ => false

/-- The older of two requests: in one cycle, that of the lower-numbered requester (R60). -/
def PortReq.older (a b : PortReq) : PortReq := if b.since < a.since ∨ (b.since = a.since ∧ b.key < a.key) then b else a

/-- The oldest request of a list. -/
def oldestReq : List PortReq → Option PortReq
  | [] => none
  | r :: t => some (t.foldl PortReq.older r)

/-- One grant decision of a Roundabout whose members are partitions (R60, R61): the oldest request, at the highest level that waits, of the member. -/
def Roundabout.choose (ra : Roundabout) (share : Nat → Nat) (l : List PortReq) : Option (PortReq × Roundabout) :=
  (l.map (·.level)).max?.bind fun lvl =>
    let top := l.filter fun (r : PortReq) => decide (r.level = lvl)
    let g := ra.grant 16 share (top.map (·.part))
    g.1.bind fun m => (oldestReq (top.filter fun (r : PortReq) => decide (r.part = m))).map fun r => (r, g.2)

/-- The requests that stand at a port of a base die. -/
def Die.reqs (d : Die) (range : Bool) : List PortReq := if range then d.rangeReqs else d.takeReqs
/-- Change the requests of a port. -/
def Die.setReqs (d : Die) (range : Bool) (l : List PortReq) : Die := if range then { d with rangeReqs := l } else { d with takeReqs := l }

/-- A request arrives at a port of a base die. -/
def State.atPort (s : State) (range : Bool) (d : Nat) (r : PortReq) : State := s.modDie d fun x => x.setReqs range (x.reqs range ++ [r])

/-- A context asks a port (R61): through the hub link of its die when the port is another die's. A request that stands already stays in its place. -/
def State.ask (s : State) (key lvl : Nat) (port : Bool × Nat) : State :=
  let r := PortReq.mk key (s.quadPart (quadOf key)) lvl s.now
  let same (x : PortReq) : Bool := decide (x.key = key ∧ x.level = lvl ∧ x.part = r.part)
  let here := dieOf key
  if ((s.die port.2).reqs port.1).any same || (s.die here).hubReqs.any same then s
  else if port.2 = here then s.atPort port.1 here r
  else s.modDie here fun x => { x with hubReqs := x.hubReqs ++ [r] }

/-- The hub link of a die carries one request to its port (R61): remote takes and steals take turns by the link's Roundabout. -/
def State.serveHub (s : State) (d : Nat) : State :=
  match (s.die d).hubRa.choose s.shareOf (s.die d).hubReqs with
  | none => s
  | some (r, ra) =>
    let s := s.modDie d fun x => { x with hubRa := ra, hubReqs := x.hubReqs.erase r }
    match s.wants r.key with
    | some (lvl, _, _, some p) => if lvl = r.level then s.atPort p.1 p.2 { r with since := s.now } else s
    | _ => s

/-- The hub link of a die carries every request that waits for it. -/
def State.serveHubs (s : State) (d : Nat) : State := (s.die d).hubReqs.foldl (fun (s : State) _ => s.serveHub d) s

/-- A port of a base die serves one request (R60, R61); a request whose context wants something else by now has left the port. -/
def State.servePort (s : State) (range : Bool) (d : Nat) : State :=
  let s := s.modDie d fun x => x.setReqs range ((x.reqs range).filter (s.stillAsks (range, d)))
  let ra := if range then (s.die d).rangeRa else (s.die d).takeRa
  match ra.choose s.shareOf ((s.die d).reqs range) with
  | none => s
  | some (r, ra) =>
    let s := s.modDie d fun x =>
      let y := x.setReqs range ((x.reqs range).erase r)
      if range then { y with rangeRa := ra } else { y with takeRa := ra }
    match s.wants r.key with
    | some (lvl, w, ra, _) => s.giveWork r.key lvl w ra
    | none => s

/-- A port serves the requests that stand at it, one after the other. -/
def State.servePorts (s : State) (range : Bool) (d : Nat) : State := ((s.die d).reqs range).foldl (fun (s : State) _ => s.servePort range d) s

/-- A free context takes work that no port serves, or asks the port that serves it (R61, R63). -/
def State.seek (s : State) (key : Nat) : State :=
  match s.wants key with
  | none => s
  | some (lvl, w, ra, none) => s.giveWork key lvl w ra
  | some (lvl, _, _, some p) => s.ask key lvl p

/-- A free context looks for work of a kind (R63), and the port that it asks serves one request: its own, unless another goes first. -/
def State.take (s : State) (key : Nat) (want : Work → Bool) : State :=
  match s.wants key with
  | none => s
  | some (lvl, w, ra, port) =>
    if want w then
      match port with
      | none => s.giveWork key lvl w ra
      | some p => ((s.ask key lvl p).serveHubs (dieOf key)).servePort p.1 p.2
    else s

/-- TAKE_WORK (R63): a free context takes work of the first class that is not empty at the highest waiting level. -/
def execTakeWork (core : Fin 128) (ctx : Fin 8) (s : State) : Out := .next (s.take (core.val * 8 + ctx.val) fun _ => true)

/-- Whether the range of a job at the die of a context has records left. -/
def State.ownRange (s : State) (key job : Nat) : Bool :=
  let r := s.range job (dieOf key)
  decide (r.1 < r.2)

/-- CHUNK_TAKE (R53): a take from the range of the context's die. -/
def execChunkTake (core : Fin 128) (ctx : Fin 8) (s : State) : Out :=
  let key := core.val * 8 + ctx.val
  .next (s.take key fun w => match w with
    | .chunk j => s.ownRange key j
    | _ => false)

/-- CHUNK_STEAL (R54): the range of the context's die is empty, and its die steals before the take. -/
def execChunkSteal (core : Fin 128) (ctx : Fin 8) (s : State) : Out :=
  let key := core.val * 8 + ctx.val
  .next (s.take key fun w => match w with
    | .chunk j => !s.ownRange key j
    | _ => false)

/-! ### Teams -/

/-- CORES of a card (R48). -/
def Job.cores (j : Job) : Nat := nbytes j.card.toNat 64 16
/-- DRAIN of a card (R48). -/
def Job.drain (j : Job) : Nat := nbytes j.card.toNat 32 4
/-- CHANTAB of a card (R48). -/
def Job.chanTab (j : Job) : Nat := nbytes j.card.toNat 80 8
/-- The logical cores of a team, lowest first (R22). -/
def Job.logicals (j : Job) : List Nat := (List.range 128).filter fun i => j.cores.testBit i
/-- Whether a team waits to be placed. -/
def Team.waits (t : Team) : Bool := decide (t.phase = .waiting ∨ t.phase = .swapped)
/-- The slice length of a partition (R76): 0 acts as 1. -/
def State.sliceLen (s : State) (part : Nat) : Nat := max 1 (s.fld .psched part 47 16)

/-- Whether a swapped team waits for a card that a full pool holds (R56): a context of it is not ready to be restored. -/
def State.teamHeld (s : State) (job : Nat) : Bool :=
  s.saved.any fun x => x.team && decide (x.ctx.job.toNat = job) && s.held.any fun h => decide (h.1 = x.ctx.ticket)

/-- Whether another team of the partition that fits it goes first (R65): higher priority, or the same and earlier. -/
def State.teamFirst (s : State) (job : Nat) (j : Job) (t : Team) : Bool :=
  s.jobs.any fun e => match e.2.team with
    | some u => u.waits && !s.teamHeld e.1 && decide (e.1 ≠ job ∧ e.2.part = j.part ∧ e.2.teamSize ≤ s.coresOf j.part ∧
        (j.prio < e.2.prio ∨ (j.prio = e.2.prio ∧ u.order < t.order)))
    | none => false

/-- The saved form of a team's logical core (R406). -/
def State.savedMember (s : State) (job logical : Nat) : Option Saved :=
  s.saved.find? fun x => x.team && decide (x.ctx.job.toNat = job ∧ x.ctx.logical.toNat = logical)

/-- Whether a list of places names every logical core of a team once, on distinct cores of its partition that stay in it (R51, R65). -/
def State.placesOk (s : State) (j : Job) (l : List Place) : Bool :=
  decide (l.length = j.teamSize) && (j.logicals.all fun i => l.any fun p => decide (p.logical.val = i)) && decide ((l.map fun p => p.core).Nodup) &&
  l.all fun p =>
    let q := p.core.val / 4
    decide (s.quadPart q = j.part) && !s.quadMoving q && (s.quad q).zeroEnd.isNone

/-- Whether a place can be used now (R65, R365): its context is free, its core has window room and no other team context, and a saved holder of locks
returns to its home quad. -/
def State.placeFree (s : State) (job : Nat) (j : Job) (p : Place) : Bool :=
  decide ((s.ctx (placeKey p)).life = .free) && s.windowRoom p.core.val j.vregs &&
  ((List.range 8).all fun i => let c := s.ctx (p.core.val * 8 + i); decide (c.life = .free ∨ c.logical = 0xFF)) &&
  (match (s.savedMember job p.logical.val).bind (·.homeQuad) with
   | some q => decide (q = p.core.val / 4)
   | none => true)

/-- Entry `n` of a channel table that was read as doublewords. -/
def chanEntry (words : List (BitVec 64)) (n : Nat) : BitVec 128 := (words.getD (2 * n + 1) 0) ++ (words.getD (2 * n) 0)
/-- The logical core whose end entry `n` of a team's channel table describes (R334, log 22): the one that its peer entry names. -/
def chanOwner (words : List (BitVec 64)) (n : Nat) : Nat := chField (chanEntry words (chField (chanEntry words n) 2 1)) 1 1

/-- The channel ends of a team core (R51, R406): those of its save, or empty ones from the one table at CHANTAB, with the cells of its own receive
ends reserved (R335, log 22). -/
def State.memberChans (s : State) (job : Nat) (j : Job) (p : Place) : Option (List (Nat × Chan)) :=
  match s.savedMember job p.logical.val with
  | some x => some x.chans
  | none =>
    match s.readArgs j.part j.chanTab 128 with
    | .ok l => some ((List.range 64).map fun n =>
        (n, { Chan.empty with entry := chanEntry l n, cells := if chanOwner l n = p.logical.val then chCells (chanEntry l n) else 0 }))
    | .absent _ | .link | .fail _ _ => none

/-- Put the channel ends of a team on its cores; nothing when a table cannot be read, or when the reservations do not fit (R335). -/
def State.placeChans (s : State) (job : Nat) (j : Job) (l : List Place) : Option State :=
  let empty := l.foldl (fun (s : State) p => s.modCore p.core.val fun c => { c with chans := [] }) s
  let full := l.foldl (fun (a : Option State) p => a.bind fun t =>
    (s.memberChans job j p).map fun ch => t.modCore p.core.val fun c => { c with chans := ch }) (some empty)
  full.bind fun t =>
    if (List.range 32).all fun q =>
      let more := (t.cellsUsed q).getD 3 0 - (empty.cellsUsed q).getD 3 0
      empty.cellRoom q 3 more
    then some t else none

/-- A context of a team that is placed and waits for the release cycle. -/
def memberCtx (s : State) (key job : Nat) (j : Job) (logical : Nat) (ticket : Word) (life : Life) (wait : Wait) : Ctx :=
  { Ctx.reset with job := BitVec.ofNat 12 job, part := BitVec.ofNat 4 j.part, logical := BitVec.ofNat 8 logical, prio := BitVec.ofNat 5 j.prio,
                   image := j.image, vregs := j.vregs, life := life, wait := wait, ticket := ticket, chunks := (s.ctx key).chunks }

/-- Make the task of a team core with its argument record (R50): it waits for its release, at which its core stamps its ticket (R25). A context that has
been released while its read was parked has its ticket. TASKID is the logical core (R163). -/
def State.startMember (s : State) (key job : Nat) (j : Job) (logical : Nat) (ticket : Word) (args : List Word) : State :=
  let r : ContRec := ⟨ticket, j.entry, j.image, BitVec.ofNat 12 job, 0, 0, args⟩
  (s.startRec key r (BitVec.ofNat 32 logical) j.part j.prio j.vregs logical).modCtx key fun c => { c with life := .stopped, wait := .release }

/-- Make the context of a team core (R50, R51): its argument record is read; a page that is absent parks the read, and any other failure leaves
the team without that task. With ARGCOUNT 0 there is no record, and s1 to s6 are zero (DESIGN CHOICE: the spec names no value; log 16). -/
def State.makeMember (s : State) (key job : Nat) (j : Job) (logical : Nat) (ticket : Word) : State :=
  let i := j.logicals.idxOf logical
  let va := j.argBase + i * j.argSize
  let wait := s.setCtx key (memberCtx s key job j logical ticket .stopped .argument)
  if j.argCount = 0 then s.startMember key job j logical ticket []
  else match s.readArgs j.part va (j.argSize / 8) with
    | .ok l => s.startMember key job j logical ticket (if j.argSize < 48 then l ++ [BitVec.ofNat 64 i] else l)
    | .absent a => wait.park j.part a (some job) 0 6 0 0 (.argument key)
    | .link => wait.parkLink j.part va (.argument key)
    | .fail c a =>
      (s.postFault { cause := c, src := 5, part := j.part, job := some job, addr := a }).setCtx key (memberCtx s key job j logical ticket .abandoned .none)

/-- Load the pages of a job's image into a core, from page 0 up, at most 64 (R51). -/
def State.loadImage (s : State) (core : Nat) (j : Job) : State :=
  let pages := ((tget s.images (imageKey j.part j.image)).map fun x => x.bytes / 4096).getD 0
  (List.range (min pages 64)).foldl (fun (s : State) p =>
    match s.readPage j.part j.image p with
    | .ok l => s.loadFrame core ⟨BitVec.ofNat 4 j.part, j.image, p, cellsOf l⟩
    | .absent _ | .link | .fail _ _ => s) s

/-- Place a team whose places are all usable (R51, R65, R68, R406); nothing when it cannot be placed now. -/
def State.placeTeam (s : State) (job : Nat) (j : Job) (t : Team) (l : List Place) (release : Nat) : Option State :=
  (s.placeChans job j l).bind fun s =>
    let s := l.foldl (fun (s : State) p =>
      match t.phase, s.savedMember job p.logical.val with
      | .waiting, _ => (s.loadImage p.core.val j).makeMember (placeKey p) job j p.logical.val 0
      | _, some x => if x.ctx.life = .free then s else s.setCtx (placeKey p) (memberCtx s (placeKey p) job j p.logical.val x.ctx.ticket .stopped .release)
      | _, none => s) s
    some (
      let len := s.sliceLen j.part
      let charge := min t.carried len
      s.modTeam job fun t => { t with
        phase := .placed, places := l, release := release, sliceEnd := release + (len - charge), carried := t.carried - charge
        stopAt := none, stopPoint := none })

/-- Pre-empt a context for a waiting team or a resize (R64): its argument read is given up, or it is saved. The page that a saved context waited for stays
asked for (R78). A WATCHDOG trap that is due is taken first (R408). A dormant handler is saved too (DESIGN CHOICE: the spec does not say how one leaves a
MOVING quad; log 16). -/
def State.preempt (s : State) (key : Nat) : State :=
  let c := s.ctx key
  if c.life = .running ∧ c.wait = .argument then
    { s with parked := s.parked.filter fun p => decide (p.work ≠ ParkWork.argument key) }.modCtx key fun c => { c with life := .free, wait := .none }
  else if c.life = .running ∨ c.life = .dormant then s.stopAt key true
  else s

/-- Make room for a waiting team on the cores it reserves (R66): contexts of lower priority are stopped. -/
def State.makeRoom (s : State) (j : Job) (l : List Place) : State :=
  l.foldl (fun (s : State) p => ((List.range 8).map (p.core.val * 8 + ·)).foldl (fun (s : State) k =>
    let c := s.ctx k
    if c.life = .free ∨ j.prio ≤ c.prio.toNat then s
    else if c.logical ≠ 0xFF then s.stopTeam c.job.toNat
    else s.preempt k) s) s

/-- Whether work of a higher level than a team's waits for the contexts of its places (R59, R71). -/
def State.higherWaits (s : State) (j : Job) (l : List Place) : Bool := l.any fun p => (s.workList (placeKey p)).any fun w => decide (j.prio < w.1)

/-- TEAM_PLACE (R51, R65, R66, R68, R71): the scheduler's choice of places for a waiting team, and of its release cycle. A team that can be placed is
loaded or restored, unless work of a higher level waits for a place; otherwise it reserves the cores, on which lower priorities make room. A slice with
no length is a turn skipped. -/
def execTeamPlace (job : Fin 4096) (place : List Place) (release : Nat) (s : State) : Out :=
  .next (match s.job? job.val with
  | none => s
  | some j =>
    match j.team with
    | none => s
    | some t =>
      if !t.waits || !s.placesOk j place || s.teamFirst job.val j t || s.teamHeld job.val ||
          decide (release < s.now ∨ s.now + 256 + (s.fld .schedtune 0 23 0) < release) then s
      else if place.all fun p => s.placeFree job.val j p then
        let len := s.sliceLen j.part
        if s.higherWaits j place then s.modTeam job.val fun t => { t with places := place }
        else if len ≤ t.carried then
          let n := s.fresh
          n.2.modTeam job.val fun t => { t with carried := t.carried - len, order := n.1, places := [] }
        else (s.placeTeam job.val j t place release).getD s
      else (s.modTeam job.val fun t => { t with places := place }).makeRoom j place)

/-- A context made for a team starts in the release cycle, or waits for its argument record (R50, R51). -/
def Ctx.releaseFresh (c : Ctx) : Ctx :=
  match c.life, c.wait with
  | .stopped, .release => { c with life := .running, wait := .none }
  | .stopped, .argument => { c with life := .running }
  | _, _ => c

/-- Restore a team core's context and channels at the release cycle (R406): its snapshot counts from there, the elements of its log stand ahead of
later ones, and receives not yet served come after them. A saved barrier arrival is presented again (R331). -/
def State.restoreMember (s : State) (job : Nat) (p : Place) (release : Nat) : State :=
  match s.savedMember job p.logical.val with
  | none => s
  | some x =>
    let key := (placeKey p)
    let s := { s with saved := s.saved.filter fun y => !(y.team && decide (y.ctx.job.toNat = job ∧ y.ctx.logical = x.ctx.logical)) }
    let s := s.modCore p.core.val fun c => { c with chans := c.chans.map fun (e : Nat × Chan) => (e.1, { e.2 with
      elems := (x.log.filter fun i => decide (i.kind = 1 ∧ i.chan = e.1)).filterMap fun i => i.elem.map fun y => Elem.mk y.data s.now 0 y.poison }) }
    if x.ctx.life = .free then s
    else if x.ctx.wait = .argument then
      match s.job? job with
      | none => s
      | some j =>
        (s.makeMember key job j p.logical.val x.ctx.ticket).modCtx key Ctx.releaseFresh
    else
      let s := s.restore x key (some release)
      let s := match (s.ctx key).wait with
        | .barrier scope id => s.arrive scope id job key
        | _ => s
      (List.range 64).foldl (fun (s : State) n => s.serveChan p.core.val n 64) s

/-- The places whose contexts take their tickets at a release (R25): those whose tasks have never run. -/
def State.unstamped (s : State) (job : Nat) (t : Team) : List Place :=
  if t.firstRelease.isSome then [] else t.places.filter fun p => let c := s.ctx (placeKey p); c.ofTeam job && decide (c.life = .stopped)

/-- A team core stamps the ticket of its task at the release (R25). -/
def State.stampMember (s : State) (key prio : Nat) : State :=
  match s.stampCore (coreOf key) prio with
  | none => s
  | some x => x.2.modCtx key fun c => { c with ticket := x.1, retained := c.retained.map fun r => { r with ticket := x.1 } }

/-- TEAM_RELEASE (R25, R51, R406): in the release cycle every team core stamps its ticket and starts, and TEAMCYC agrees on all of them. When a core has
stamped a ticket in this tick the release moves by a cycle (DEDUCED: R25 holds the second stamp, R51 keeps one release cycle; log 16). -/
def execTeamRelease (job : Fin 4096) (s : State) : Out :=
  .next (match s.job? job.val with
  | none => s
  | some j =>
    match j.team with
    | none => s
    | some t =>
      if t.phase ≠ .placed ∨ s.now < t.release then s
      else if (s.unstamped job.val t).any fun p => (s.stampCore p.core.val j.prio).isNone then
        s.modTeam job.val fun t => { t with release := s.now + 1, sliceEnd := t.sliceEnd + (s.now + 1 - t.release) }
      else
        let fresh := t.firstRelease.isNone
        let s := (s.unstamped job.val t).foldl (fun (s : State) p => s.stampMember (placeKey p) j.prio) s
        let s := t.places.foldl (fun (s : State) p =>
          if fresh then s.modCtx (placeKey p) fun c => if c.ofTeam job.val then c.releaseFresh else c
          else s.restoreMember job.val p t.release) s
        (s.modTeam job.val fun t => { t with phase := .running, firstRelease := some (t.firstRelease.getD t.release) }).firstTask job.val)

/-! ### Slices -/

/-- Whether a saved context can be restored only on the cores of a team (R67). -/
def State.savedWaits (s : State) (t : Team) (x : Saved) : Bool :=
  let cores := t.places.map fun p => p.core.val
  match x.homeQuad with
  | some q => cores.any fun c => decide (c / 4 = q)
  | none => !((List.range 128).any fun i => decide (s.quadPart (i / 4) = x.ctx.part.toNat) && !cores.contains i && s.windowRoom i x.ctx.vregs &&
      (List.range 8).any fun k => s.mayTake (i * 8 + k))

/-- Whether a team or a saved context waits for a team's cores (R67): a waiting team that fits the partition and has reserved none or some of them. -/
def State.hasWaiter (s : State) (job : Nat) (j : Job) (t : Team) : Bool :=
  (s.jobs.any fun e => match e.2.team with
    | some u => u.waits && !s.teamHeld e.1 && decide (e.1 ≠ job ∧ e.2.part = j.part ∧ e.2.teamSize ≤ s.coresOf j.part) &&
        (u.places.isEmpty || u.places.any fun p => t.places.any fun r => decide (r.core = p.core))
    | none => false) ||
  s.saved.any fun x => x.ready && !x.team && decide (x.ctx.part.toNat = j.part) && s.savedWaits t x

/-- Whether a team stands on a quad that is to move (R73). -/
def State.teamMoving (s : State) (t : Team) : Bool := t.places.any fun p => s.quadMoving (p.core.val / 4)

/-- SLICE_STOP_REQUEST (R67, R73): from DRAIN cycles before the slice end, a waiter or a move of a quad stops the team. -/
def execSliceStopRequest (job : Fin 4096) (s : State) : Out :=
  .next (match s.job? job.val with
  | none => s
  | some j =>
    match j.team with
    | none => s
    | some t => if t.phase = .running ∧ t.sliceEnd ≤ s.now + j.drain ∧ (s.hasWaiter job.val j t ∨ s.teamMoving t) then s.stopTeam job.val else s)

/-- SLICE_END (R67, R68): no waiter has appeared, and the slice is renewed with the charge. -/
def execSliceEnd (job : Fin 4096) (s : State) : Out :=
  .next (match s.job? job.val with
  | none => s
  | some j =>
    match j.team with
    | none => s
    | some t =>
      if t.phase = .running ∧ t.sliceEnd ≤ s.now ∧ s.hasWaiter job.val j t = false ∧ s.teamMoving t = false then
        let len := s.sliceLen j.part
        let charge := min t.carried len
        s.modTeam job.val fun t => { t with sliceEnd := t.sliceEnd + (len - charge), carried := t.carried - charge }
      else s)

/-- Whether the tile tasks and copies of a team in the queues of its quads have drained and no context of it is ending (R67). What SPAWNed tasks of the job
have issued is not the team's (R147). -/
def State.teamDrained (s : State) (job : Nat) (t : Team) : Bool :=
  let mine (o : Origin) : Bool := o.team && decide (o.job.toNat = job)
  (t.places.all fun p =>
    let q := s.quad (p.core.val / 4)
    (q.copies.all fun c => !mine c.org) && (q.tiles ++ q.arrays.toList.filterMap (·.task)).all fun x => !mine x.org) &&
  t.places.all fun p => let c := s.ctx (placeKey p); !c.ofTeam job || decide (c.life ≠ .ending)

/-- Elements buffered or in flight towards a core, as items of its arrival log (R338, R346). -/
def Core.logOf (c : Core) (time : Nat) : List LogItem :=
  c.chans.flatMap fun e => (e.2.elems ++ e.2.flying).map fun x => LogItem.mk 1 e.1 (chSinkRows e.2.entry) none (some x) none time

/-- The channel ends of a core as they are saved: elements are in the log, and credits on their way have arrived. -/
def Core.savedChans (c : Core) : List (Nat × Chan) :=
  c.chans.map fun (e : Nat × Chan) => (e.1, { e.2 with elems := [], flying := [], taken := e.2.taken - e.2.returning.length, returning := [] })

/-- What a context's core still owes its team when it is saved (R67): the parked read of its arguments, its barrier arrival and its channel ends are
taken up again at the restore. -/
def State.leaveCore (s : State) (job : Nat) (p : Place) (sent : List Nat) : State :=
  let s := { s with
    parked := s.parked.filter fun x => decide (x.work ≠ ParkWork.argument (placeKey p))
    barriers := s.barriers.filter fun e => decide (e.2.2.1 ≠ job ∨ e.2.2.2 ≠ (placeKey p)) }
  sent.foldl (fun (s : State) id => s.performed id) (s.modCore p.core.val fun c => { c with chans := [] })

/-- Save one core of a team (R67, R401): its context, or the channels alone when its task has ended. -/
def State.saveMember (s : State) (job : Nat) (j : Job) (p : Place) : SaveRes :=
  let core := s.core p.core.val
  let c := s.ctx (placeKey p)
  let log := core.logOf s.tbase.toNat
  let sent := core.chans.flatMap fun e => e.2.flying.map fun x => x.id
  let s := s.modCore p.core.val fun c => { c with chans := c.savedChans }
  if c.ofTeam job then
    match s.saveCtx (placeKey p) true log with
    | .done s => .done (s.leaveCore job p sent)
    | r => r
  else
    let ended : Ctx := { memberCtx s (placeKey p) job j p.logical.val 0 .free .none with chunks := [] }
    let x := s.placeLog (Saved.mk [] ended p.core.val true none log core.savedChans true [])
    .done (({ x.2 with saved := x.2.saved ++ [x.1] } : State).leaveCore job p sent)

/-- Save the cores of a team one after the other: all of them, or what stops the first that cannot be saved. -/
def State.saveMembers (s : State) (job : Nat) (j : Job) : List Place → SaveRes
  | [] => .done s
  | p :: l =>
    match s.saveMember job j p with
    | .done s => s.saveMembers job j l
    | r => r

/-- A team whose contexts have been saved is swapped out, and its overrun is counted (R67, R68): a wait for room counts from the stop deadline on, as R68
counts (DESIGN CHOICE: R76 does not say whether a wait before the deadline counts; log 16). -/
def State.swapped (s : State) (job : Nat) (j : Job) (t : Team) : State :=
  let late := s.now - ((t.stopAt.getD s.now) + j.drain)
  let n := s.fresh
  (n.2.modTeam job fun t => { t with phase := .swapped, places := [], carried := t.carried + late, order := n.1 }).overrun j.part late

/-- Save a stopped team whole (R67, R76): it waits at its stop point while a save finds no room. A save outside every window leaves the team stopped and
unsaved, with a LOCAL_RANGE record in the partition fault queue (R404). -/
def State.saveTeam (s : State) (job : Nat) (j : Job) (t : Team) : State :=
  match s.saveMembers job j t.places with
  | .done s => s.swapped job j t
  | .noRoom => s.modTeam job fun t => { t with phase := .stopped, stopPoint := some (t.stopPoint.getD s.now) }
  | .wait p q l => (s.wakeRows p q l).modTeam job fun t => { t with phase := .stopped, stopPoint := some (t.stopPoint.getD s.now) }
  | .bad a =>
    (s.modTeam job fun t => { t with phase := .stopped, stopPoint := none }).postFault
      { cause := cLocalRange, src := 7, part := j.part, job := none, addr := a }

/-- STOP_POINT (R67, R68): a stopping team has drained. It is saved, or waits at its stop point for room (R76). -/
def execStopPoint (job : Fin 4096) (s : State) : Out :=
  .next (match s.job? job.val with
  | none => s
  | some j =>
    match j.team with
    | none => s
    | some t => if t.phase = .stopping ∧ s.teamDrained job.val t then s.saveTeam job.val j t else s)

/-- Save a DEAL context that waits for room, if there is room now. A context whose launched card is still held, or that waits for a granule, is not ready
(R56, R358). -/
def State.retrySave (s : State) (key : Nat) : State :=
  let c := s.ctx key
  if c.stopReq && decide (c.logical = 0xFF ∧ (c.life = .stopped ∨ c.life = .dormant)) then
    s.saveOrWait key (!(s.held.any fun h => decide (h.1 = c.ticket)) && c.lockFor.isNone)
  else s

/-- Arrival logs of the saved contexts of a job that wait for room are written as far as there is some. -/
def State.retryLogs (s : State) (job : Nat) : State :=
  let x := s.placeLogs (fun x => decide (x.ctx.job.toNat = job)) s.saved
  { x.2 with saved := x.1 }

/-- SAVE_RETRY (R76): saves of a job that wait for room are tried again, those of a handler whose job has completed too. -/
def execSaveRetry (job : Fin 4096) (s : State) : Out :=
  let t := (s.ctxs.filter fun e => decide (e.2.job.toNat = job.val)).foldl (fun (s : State) e => s.retrySave e.1) (s.retryLogs job.val)
  .next (match s.job? job.val with
  | none => t
  | some j =>
    match j.team with
    | some x => if x.phase = .stopped ∧ x.stopPoint.isSome then t.saveTeam job.val j x else t
    | none => t)

end Sys2Proof.Machine
end

