-- ==== Sys2Proof/Machine/Card.lean ====
section
/-!
DEFINITION. Card: the checks of a job card (R27, R48 to R50, R335), the start of a job (R21, R50, R417) and the pending-launch pool (R55, R56, R61).
-/
namespace Sys2Proof.Machine

/-- What a check of a card says: it passes; it fails with a stop cause of R43, a subcode and an address; its argument array has a fault at an address; or it
cannot be made while the host link is down, for an access to an address. -/
inductive CardRes where
  | ok
  | bad (cause subcode faddr : Nat)
  | badArgs (faddr : Nat)
  | wait (va : Nat)
deriving DecidableEq, Repr

/-- A job that is not started, for the fields of its card. -/
def jobOf (card : BitVec 1024) (cardAddr : Nat) : Job := ⟨card, cardAddr, 0, 0, none, false, 0, 0, 0, 0, 0, false, false, [], none⟩

/-- FAULTQ keeps the limits of R48. -/
def faultQOk (q : Nat) : Bool := decide (q < 1024 ∨ q = 0xFFFF)

/-- The fields of a card in byte order, each with its offset and whether it passes (R48, R49), but for the image and what follows it in memory. -/
def State.cardFields (s : State) (part : Option Nat) (j : Job) : List (Nat × Bool) :=
  let f (o n : Nat) : Nat := nbytes j.card.toNat o n
  let gang := decide (f 0 1 = 1)
  let root := s.pageOf j.part j.root
  let bytes := ((tget s.images (imageKey j.part j.image)).map (·.bytes)).getD 0
  [(0, decide (f 0 1 ≤ 1)), (1, decide (f 1 1 ≤ 31)),
   (2, decide (f 2 1 < 16) && (match part with | some p => decide (f 2 1 = p) | none => true)),
   (4, decide (f 4 4 < bytes)),
   (16, decide (f 16 4 ≤ 48 ∧ f 16 4 % 8 = 0)), (20, !gang || decide (f 20 4 = 0 ∨ f 20 4 = j.teamSize)),
   (24, decide (1 ≤ f 24 2)), (28, decide (32 ≤ f 28 2 ∧ f 28 2 ≤ 256 ∧ f 28 2 % 32 = 0)), (30, decide (f 30 2 ≤ 1024)), (36, decide (f 36 4 = 0)),
   (40, decide (j.root % 16 = 0 ∧ j.root < 2 ^ 56) && (match root with | some p => decide (p.pa + (j.root - p.va) < 0x3000000000) | none => false)),
   (48, decide (f 48 8 % 64 = 0)), (56, faultQOk (f 56 2)), (58, decide (f 58 6 = 0)),
   (64, if gang then decide (j.cores ≠ 0 ∧ j.cores < 2 ^ (s.coresOf j.part)) else decide (j.cores = 0)),
   (80, if gang then decide (j.chanTab % 1024 = 0) else decide (j.chanTab = 0)), (88, decide (f 88 40 = 0))]

/-- The channel table of a team (R51, log 22): the doublewords of its 64 entries. -/
def State.chanTable (s : State) (j : Job) : Except CardRes (List (BitVec 64)) :=
  match s.readArgs j.part j.chanTab 128 with
  | .ok ws => .ok ws
  | .absent a => .error (.bad qAddrFault 0 a)
  | .link => .error (.wait j.chanTab)
  | .fail c a => .error (if c = cPoison then .bad qPoison 0 a else .bad qAddrFault 0 a)

/-- Whether the channel table of a team keeps R335: entry `n` is the end of the core that its peer entry names (log 22). -/
def chansOk (j : Job) (words : List (BitVec 64)) : Bool :=
  let entry (n : Nat) : BitVec 128 := chanEntry words n
  let valid := (List.range 64).filter fun n => chFlag (entry n) 0
  ((List.range 64).all fun n => chEntryOk (entry n)) &&
  (valid.all fun n =>
    let owner := chanOwner words n
    j.cores.testBit (chField (entry n) 1 1) && j.cores.testBit owner && chMatch (entry n) (entry (chField (entry n) 2 1)) owner n) &&
  decide (((valid.filter fun n => !chFlag (entry n) 1).map fun n => chField (entry n) 6 1).Nodup)

/-- The first address of an argument array, from `va` on, whose page is not mapped with R permission (R50). -/
def State.argsUnmapped (s : State) (part va fin : Nat) : Nat → Option Nat
  | 0 => some va
  | n + 1 =>
    if fin ≤ va then none
    else match s.pageOf part va with
      | some p => if p.perm.toNat % 2 = 1 then s.argsUnmapped part (p.va + p.bytes) fin n else some va
      | none => some va

/-- Check a card (R49, R50, R335). `part` is the partition that it must name. A CHANTAB that cannot be read is found before a byte of 88 and above that is
not zero (DESIGN CHOICE: R43 and R49 do not order the two; log 16). -/
def State.checkCard (s : State) (part : Option Nat) (card : BitVec 1024) : CardRes :=
  let j := jobOf card 0
  let image := (tget s.images (imageKey j.part j.image)).isSome
  let fields := s.cardFields part j
  match (fields.filter fun f => !f.2).head? with
  | some (o, _) => if 3 < o ∧ !image then .bad qBadImage 0 0 else
      if 80 < o ∧ j.gang then
        match s.chanTable j with
        | .error e => e
        | .ok t => if chansOk j t then .bad qBadCard o 0 else .bad qBadCard 80 0
      else .bad qBadCard o 0
  | none =>
    if !image then .bad qBadImage 0 0
    else
      let chans := if j.gang then
          match s.chanTable j with
          | .error e => e
          | .ok t => if chansOk j t then .ok else .bad qBadCard 80 0
        else .ok
      match chans with
      | .bad c o a => .bad c o a
      | .wait a => .wait a
      | .badArgs a => .badArgs a
      | .ok =>
        let size := j.argCount * j.argSize
        if size = 0 then .ok
        else match s.argsUnmapped j.part j.argBase (j.argBase + size) (s.pages.length + 1) with
          | some a => .badArgs a
          | none => .ok

/-- The free job slot that the Organ assigns: the lowest (DESIGN CHOICE: R21 says only that it assigns one; log 16). -/
def State.freeSlot (s : State) : Option Nat := (List.range 4096).find? fun i => (s.job? i).isNone

/-- What comes of the start of a job: it has taken a slot, or it waits. -/
inductive StartRes where
  | started (slot : Nat) (s : State)
  | wait (s : State)
deriving DecidableEq, Repr

/-- Start a job whose card has passed its checks (R50, R52, R417): it takes a slot, and its root is zeroed. It waits for a free slot, and for the lines of
its root that the host may hold (R424). -/
def State.startJob (s : State) (card : BitVec 1024) (cardAddr : Nat) : StartRes :=
  match s.freeSlot with
  | none => .wait s
  | some slot =>
    let held := s.rootHeld (jobOf card cardAddr)
    if !held.isEmpty then .wait (s.snoop held) else
    let now := s.tbase.toNat
    let n := s.fresh
    let base := jobOf card cardAddr
    let team : Team := ⟨.waiting, [], none, 0, 0, none, none, 0, n.1⟩
    let j := { base with start := now, enq := now, team := if base.gang then some team else none }
    let s := { n.2 with jobs := tset n.2.jobs slot j }
    let s := match s.pageOf j.part j.root with
      | some p => s.storeBytes (p.pa + (j.root - p.va)) 16 0
      | none => s
    let s := if j.gang then s
      else if j.argCount = 0 then
        (s.modJob slot fun j => { j with complete := true, finish := now }).first [.completionRecord (Fin.ofNat 4096 slot)]
      else s.dealSplit slot
    .started slot s

/-! ### The pending-launch pool -/

/-- Held cards of a partition enter its freed entries in ticket order, and their contexts become ready (R56). -/
def State.enterHeld (s : State) (part : BitVec 4) : Nat → State
  | 0 => s
  | n + 1 =>
    let mine := s.held.filter fun h => decide (h.2.1 = part)
    match (mine.map fun h => h.1.toNat).min? with
    | none => s
    | some t =>
      if 256 ≤ (s.pool.filter fun e => decide (e.1 = part)).length then s
      else match mine.find? fun h => decide (h.1.toNat = t) with
        | none => s
        | some h =>
          let up (x : Saved) : Saved := if x.ctx.ticket = h.1 then { x with ready := true } else x
          { s with held := s.held.erase h, pool := s.pool ++ [(part, h.2.2)], saved := s.saved.map up }.enterHeld part n

/-- An entry of the pool is over: its place goes to a held card. -/
def State.poolGone (s : State) (part : BitVec 4) (card : BitVec 1024) : State :=
  { s with pool := s.pool.erase (part, card) }.enterHeld part s.held.length

/-- A card of the pool is rejected (R55): BAD_IMAGE, BAD_CARD, or PERM for its argument array, to the queue that it names. -/
def State.poolReject (s : State) (part : BitVec 4) (card : BitVec 1024) (cause faddr : Nat) : State :=
  let fq := cardFaultQ card
  let c := if cause = qBadImage then cBadImage else if cause = qAddrFault then cPerm else cBadCard
  (s.postTo { cause := c, src := 5, part := part.toNat, job := none, addr := faddr } (if faultQOk fq then some fq else none)).poolGone part card

/-- POOL_DUTY (R55, R61): the oldest card of the partition that the pool Roundabout grants is checked, and started or rejected. A card that finds no
free slot waits, one whose channel table lies behind the host link waits for the link (R426), and one whose root's lines the host may hold for them (R424). -/
def execPoolDuty (s : State) : Out :=
  let waits (e : BitVec 4 × BitVec 1024) : Bool := s.parked.any fun p => decide (p.work = ParkWork.poolCard e.1 e.2)
  let firsts := ((List.range 16).filterMap fun p => s.pool.find? fun e => decide (e.1.toNat = p)).filter fun e => !waits e
  let prio (e : BitVec 4 × BitVec 1024) : Nat := min 31 (nbytes e.2.toNat 1 1)
  let level := ((firsts.map prio).max?).getD 0
  let g := s.poolRa.grant 16 s.shareOf ((firsts.filter fun e => decide (prio e = level)).map fun e => e.1.toNat)
  .next (match g.1.bind fun p => firsts.find? fun e => decide (e.1.toNat = p) with
  | none => s
  | some e =>
    match s.checkCard (some e.1.toNat) e.2 with
    | .wait a => s.parkLink e.1.toNat a (.poolCard e.1 e.2)
    | .ok =>
      match s.startJob e.2 0 with
      | .wait s => s
      | .started _ x => { x with poolRa := g.2 }.poolGone e.1 e.2
    | .bad cause _ faddr => { s with poolRa := g.2 }.poolReject e.1 e.2 (if cause = qBadImage then qBadImage else qBadCard) faddr
    | .badArgs faddr => { s with poolRa := g.2 }.poolReject e.1 e.2 qAddrFault faddr)

end Sys2Proof.Machine
end

