-- ==== Sys2Proof/Machine/CopyEng.lean ====
section
/-!
DEFINITION. CopyEng: the copy engine (R270 to R287): starting a command and checking it, its rows, accumulates and atomics, its completion and its
failure, and the arrivals of handlers (R283, R284). One step performs the rows of one unit: one memory row of the side with fewer rows.
-/
namespace Sys2Proof.Machine

/-! ### The checks of a start (R191, R272, R273) -/

/-- Whether a command breaks a limit of R272 or a BAD_COPY condition of R273. -/
def badCopy (c : BitVec 512) : Bool :=
  let op := cpOp c
  let aop := cpAop c
  let acc := decide (op = 3 ∨ op = 4)
  let ret := decide (op = 4 ∨ op = 5)
  let operand := decide (op = 1 ∨ op = 5) || (acc && decide (aop = 8 ∨ aop = 9)) || (decide (op = 0) && cpFlag c 3)
  let hand := cmdField c 52 4
  let last := cpLast c
  decide (5 < op) || decide (cmdField c 5 3 ≠ 0) || cpFlag c 6 || cpFlag c 7 || decide (9 < aop) || (decide (aop ≠ 0) && !acc) ||
    (cpReads c && decide (2 ^ (if cpFlag c 0 then 56 else 40) ≤ cpSrc c)) || decide (2 ^ (if cpFlag c 1 then 56 else 40) ≤ cpDst c) ||
    decide (cpRowLen c % 256 ≠ 0 ∨ cpRowLen c < 256 ∨ 2 ^ 24 < cpRowLen c) || decide (cpSPitch c % 256 ≠ 0 ∨ cpDPitch c % 256 ≠ 0) ||
    (decide (cpOperand c ≠ 0) && !operand) || (decide (op = 0) && cpFlag c 3 && decide (nbits (cpOperand c) 62 61 ≠ 0)) ||
    (cpFlag c 2 && (cpFlag c 5 || cpFlag c 1)) || (decide (hand ≠ 0) && !cpFlag c 2) || hand.testBit 7 ||
    (cpFlag c 4 && (decide (op ≠ 3) || cpFlag c 5 || decide (nbits last 15 11 ≠ 0) || (!cpFlag c 1 && decide (nbits last 63 48 ≠ 0)))) ||
    (cpFlag c 5 && (cpFlag c 1 || ret || decide (last = 0 ∨ 2 ^ 32 ≤ last) || decide (0x1000000 ≤ cpDst c ∨ 0x1000000 ≤ cpDone c))) ||
    (ret && decide (2 ^ 40 ≤ last)) || (decide (last ≠ 0) && !(cpFlag c 4 || cpFlag c 5 || ret)) ||
    (decide (op = 5) && decide (cpRows c ≠ 1 ∨ cpRowLen c ≠ 256))

/-- The formats in FMTD that an AOP accepts (R275). -/
def aopAccepts (aop : Nat) (f : Fmt) : Bool :=
  if aop ≤ 2 then f = .bf16 || f = .fp32 || f = .fp16 || f.isInt
  else if aop = 3 then f = .bf16 || f = .fp32 || f = .fp16
  else if aop ≤ 6 then f.isInt
  else if aop = 7 then f.plain
  else f = .int32 || f = .int64

/-- Whether a command fails with FORMAT (R191, R273). FX48 in both format bytes is accepted, as equal codes (DESIGN CHOICE: R181 marks FX48 as not
accepted, R191 fails it only while the codes differ; log 26). -/
def badCopyFormat (c : BitVec 512) : Bool :=
  let a := cpFmtS c % 16
  let b := cpFmtD c % 16
  let n := cpRowLen c * codeWidth b
  let op := cpOp c
  decide (16 ≤ cpFmtS c) || decide (128 ≤ cpFmtD c) || decide (12 ≤ a) || decide (12 ≤ b) || (decide (a ≠ b) && decide (10 ≤ a ∨ 10 ≤ b)) ||
    (decide (a ≠ b) && decide (n % codeWidth a ≠ 0 ∨ n / codeWidth a % 256 ≠ 0 ∨ n / codeWidth a = 0)) ||
    (decide (op = 3 ∨ op = 4) && !aopAccepts (cpAop c) (cpTo c)) || (decide (op = 5) && decide (a ≠ 9 ∨ b ≠ 9)) ||
    (decide (op = 1 ∨ op = 2) && decide (a ≠ b))

/-! ### Completion and failure (R279, R281) -/

/-- The local addresses of the done counters (R272, R282): DONEADDR itself also for a MCAST that names no quad or no offset of the window (log 23). -/
def cpCounters (c : BitVec 512) : List Nat :=
  if cpFlag c 5 ∧ cpDone c < 0x1000000 ∧ cpLast c ≠ 0 ∧ cpLast c < 2 ^ 32 then (cpQuads c).map fun q => 0x1000000000 + q * 0x1000000 + cpDone c
  else [cpDone c]

/-- A command leaves its queue: its cell returns, and its context may go on. -/
def State.copyGone (s : State) (q : Nat) (c : CopyCmd) : State :=
  let s := s.modQuad q fun x => { x with copies := x.copies.filter fun y => decide (y.id ≠ c.id) }
  (s.stamp c.org.part.toNat 3 c.org.job.toNat (cmdField c.cmd 48 4) c.enq c.began (srcCopy q)).performed c.id

/-- A done counter of a command that an array holds (R295, R413): the add waits, and the command is under way until it has performed. -/
def State.heldCounter (s : State) (c : CopyCmd) : Option Nat :=
  (cpCounters c.cmd).find? fun a => match s.reach c.org.part.toNat c.org.quad (rowOf a) with
    | .hold _ => true
    | .ok _ | .range => false

/-- Replace a command of a quad, at the end of the list, so that started commands take turns. -/
def State.putCopy (s : State) (q : Nat) (c : CopyCmd) : State :=
  s.modQuad q fun x => { x with copies := (x.copies.filter fun y => decide (y.id ≠ c.id)) ++ [c] }

/-- A command fails (R281): 2^32 to its done counters and a fault record with the copy rows performed. -/
def State.copyFailNow (s : State) (q : Nat) (c : CopyCmd) (f : CopyFault) : State :=
  let s := (cpCounters c.cmd).foldl (fun s a => s.doneAdd c.org a (2 ^ 32)) s
  let s := s.postFault { cause := f.cause, src := 1, part := c.org.part.toNat, job := some c.org.job.toNat, unit := q, addr := f.addr, done := f.rows,
                         ticket := c.org.ticket, hop := f.hop, expected := f.expected, received := f.received }
  let s := { s with parked := s.parked.filter fun p => decide (p.work ≠ ParkWork.copy q c.id) }
  s.copyGone q c

/-- A command fails, once its done counters can be reached. -/
def State.copyFail (s : State) (q : Nat) (c : CopyCmd) (cause : Cause) (addr rows hop expected received : Nat) : State :=
  let f : CopyFault := ⟨cause, addr, rows, hop, expected, received⟩
  match s.heldCounter c with
  | some a =>
    let s := { s with parked := s.parked.filter fun p => decide (p.work ≠ ParkWork.copy q c.id) }
    (s.wakeArray c.org false a).putCopy q { c with parked := none, finished := true, failed := some f }
  | none => s.copyFailNow q c f

/-- An arrival of a HANDLER copy (R283). -/
def arrivalOf (q : Nat) (c : CopyCmd) : ArrivalRec :=
  ⟨BitVec.ofNat 8 (cmdField c.cmd 53 1), BitVec.ofNat 64 (rowOf (cpDst c.cmd)), BitVec.ofNat 64 (cpRows c.cmd * cpDl c.cmd),
    BitVec.ofNat 64 (cmdField c.cmd 54 2), c.org.part, c.org.job, q, some (cpDone c.cmd), c.org.ticket, cpRows c.cmd, false⟩

/-- The done adds of a command (R279, R286): with CHK the checksum of the data delivered goes into word 1 of each done row, then each counter gets its add. -/
def State.copyAdds (s : State) (c : CopyCmd) : State :=
  let sum (s : State) (a : Nat) : State := match s.reach c.org.part.toNat c.org.quad a with
    | .ok k => s.storeBytes (localKey k + 8) 8 c.dstSum
    | .hold _ | .range => s
  (cpCounters c.cmd).foldl (fun s a => (if cpFlag c.cmd 3 then sum s a else s).doneAdd c.org a 1) s

/-- COPY_DONE (R279, R281, R283, R286): the done adds, then the arrival goes to its core. A done counter that no window reaches fails the command; one
whose array holds the add keeps the command until the add performs (R295, R413). -/
def execCopyDone (quad : Fin 32) (id : Nat) (s : State) : Out :=
  let q := quad.val
  .next (match (s.quad q).copies.find? fun c => decide (c.id = id ∧ c.finished) with
  | none => s
  | some c =>
    match s.heldCounter c, c.failed, (cpCounters c.cmd).find? fun a => decide (s.reach c.org.part.toNat q (rowOf a) = .range) with
    | some a, _, _ => s.wakeArray c.org false a
    | none, some f, _ => s.copyFailNow q c f
    | none, none, some a => s.copyFail q c (s.movedCause c.org c.enq a cLocalRange) (cpDone c.cmd) (cpRows c.cmd) 0 0 0
    | none, none, none =>
      let s := (s.copyAdds c).copyGone q c
      if cpFlag c.cmd 2 then
        let core := cmdField c.cmd 52 1 % 128
        (s.modCore core fun x => { x with arriving := x.arriving ++ [arrivalOf q c] }).first [.arrival (Fin.ofNat 128 core)]
      else s)

/-! ### Row operations (R274 to R277) -/

/-- One accumulated element and its status flags (R275, R276): bit 0 ABOVE, bit 1 LIMIT. -/
def accElem (aop : Nat) (f : Fmt) (rnd : Rnd) (sat : Bool) (bound old x : Nat) : Nat × Nat :=
  let fl := fun (g : Val → Val → Val) => cvtFloat f rnd sat (g (floatVal f old) (floatVal f x))
  let int := fun (g : Int → Int → Int) => wrapInt f.width (g (intVal f old) (intVal f x))
  match aop with
  | 0 => (if f.isFloat then fl (fun a b => a.add rnd b) else writeInt f sat (intVal f old + intVal f x), 0)
  | 1 => (if f.isFloat then fl Val.max else int max, 0)
  | 2 => (if f.isFloat then fl Val.min else int min, 0)
  | 3 => (fl fun a b => if a.isNan || b.isNan then .nan else a.abs.max b.abs, 0)
  | 4 => (old &&& x, 0)
  | 5 => (old ||| x, 0)
  | 6 => (old ^^^ x, 0)
  | 7 => (x, 0)
  | 8 => (if bound ≤ old then 0 else old + 1, if bound < old then 1 else if old = bound then 2 else 0)
  | _ => if bound < old then (old, 1) else (min (old + x) bound, if bound < old + x then 2 else 0)

/-- One destination row of ACC or ACCF (R275): the new row and its status flags. -/
def accRow (c : BitVec 512) (old src : Nat) : Nat × Nat :=
  let f := cpTo c
  let w := f.width
  let one := fun i => accElem (cpAop c) f (cpRnd c) (cpSat c) (cpOperand c % 2 ^ w) (old / 2 ^ (w * i) % 2 ^ w) (src / 2 ^ (w * i) % 2 ^ w)
  (packLanes w (fun i => (one i).1) 0 (2048 / w), (List.range (2048 / w)).foldl (fun n i => n ||| (one i).2) 0)

/-- The destination row of CAS (R276): bit 2 is MATCH. -/
def casRow (c : BitVec 512) (old src : Nat) : Nat × Nat :=
  let i := nbits (cpSrc c) 7 3
  let j := nbits (cpDst c) 7 3
  if nbytes old (8 * j) 8 = cpOperand c then (nset old (64 * j + 63) (64 * j) (nbytes src (8 * i) 8), 4) else (old, 0)

/-- How the processing of a unit goes on. -/
inductive CopyRes where
  | ok (c : CopyCmd) (s : State)
  | fail (cause : Cause) (addr : Nat) (s : State)
  | absent (addr : Nat) (s : State)
  | link (addr : Nat) (s : State)
  | hold (s : State)

/-- Read the source rows of a unit (R263, R280, R354). -/
def State.copyRead (s : State) (c : CopyCmd) : List Nat → List Row → CopyRes × List Row
  | [], acc => (.ok c s, acc.reverse)
  | a :: t, acc =>
    match s.engineRead c.org (cpFlag c.cmd 0) a with
    | .ok r s => s.copyRead c t (r :: acc)
    | .fail x => (.fail x a s, [])
    | .absent => (.absent a s, [])
    | .link => (.link a s, [])
    | .hold s => (.hold s, [])

/-- The permissions that the destination needs (R278). -/
def cpNeed (c : BitVec 512) : Nat := if 3 ≤ cpOp c then 6 else 2

/-- The first destination or returned row of a unit that is not there yet (R293, R426), or is held: nothing of the unit is performed then. Each row comes
with whether it is virtual. A row that fails is left to its own access. -/
def State.copyBlocked (s : State) (c : CopyCmd) : List (Bool × Nat) → Option CopyRes
  | [] => none
  | (va, a) :: t =>
    match s.spot c.org va a (if va then cpNeed c.cmd else 2) with
    | .absent => some (.absent a s)
    | .link => some (.link a s)
    | .hold => some (.hold (s.wakeArray c.org va a))
    | .fail _ => none
    | .mem _ | .regs _ => s.copyBlocked c t

/-- A read-modify-write at a memory port (R277), in host memory with a separate write (R425). A poisoned row keeps its data and its poison (R268): its status
flags are free values (log 21). Answers the old row, whether it is poisoned, and the flags. -/
def State.portStep (s : State) (c : CopyCmd) (k src : Nat) : Nat × Bool × Nat × State :=
  let s := s.flushPuts
  let old := (s.mem.row k).toNat
  let r := if cpOp c.cmd = 5 then casRow c.cmd old src else accRow c.cmd old src
  if s.mem.poisoned k then
    let f := s.freeVal 3
    (old, true, if cpOp c.cmd = 5 then f.1.toNat / 4 * 4 else f.1.toNat % 4, f.2)
  else (old, false, r.2, s.putRow k (BitVec.ofNat 2048 r.1) fullMask)

/-- Write the destination rows of a unit (R274 to R277): each with the address and the row that it receives. `ret` is where the first old row is
returned. -/
def State.copyWrite (s : State) (c : CopyCmd) (ret : Nat) : List (Nat × Nat) → CopyRes
  | [] => .ok c s
  | (a, data) :: t =>
    let va := cpFlag c.cmd 1
    if cpOp c.cmd < 3 then
      match s.engineWrite c.org va a (BitVec.ofNat 2048 data) fullMask with
      | .ok _ s => s.copyWrite c ret t
      | .fail x => .fail x a s
      | .absent => .absent a s
      | .link => .link a s
      | .hold s => .hold s
    else
      match s.spot c.org va a 6 with
      | .mem k =>
        let r := (s.touchLocal c.org va a).portStep c k data
        let c := { c with flags := c.flags ||| r.2.2.1 }
        if cpOp c.cmd = 3 then r.2.2.2.copyWrite c ret t
        else match r.2.2.2.engineWrite c.org false ret (BitVec.ofNat 2048 r.1) fullMask with
          | .ok _ s =>
            let s := if r.2.1 then { s with mem := s.mem.setPoison (localKey ((canonLocal c.org.quad ret).getD ret)) } else s
            s.copyWrite c (ret + 256) t
          | .fail x => .fail x ret r.2.2.2
          | .absent | .link => .fail cLocalRange ret r.2.2.2
          | .hold s => .hold s
      | .fail x => .fail x a s
      | .regs _ => .fail cPerm a s
      | .absent => .absent a s
      | .link => .link a s
      | .hold => .hold s

/-- Units of one copy row: the rows of the side that has fewer. -/
def cpUnits (c : BitVec 512) : Nat := min (cpRowLen c / 256) (cpDl c / 256)

/-- The data that a unit delivers (R191, R274), from its source rows. -/
def cpData (c : BitVec 512) (rows : List Row) : Nat :=
  let nd := cpDl c / 256 / cpUnits c
  let src := pack (rows.map fun r => (256, r.toNat))
  if cpOp c = 1 then packLanes 64 (fun _ => cpOperand c) 0 (32 * nd)
  else if cpOp c = 2 then 0
  else if cpFmtS c % 16 = cpFmtD c % 16 then src
  else
    let w := (cpFrom c).width
    packLanes (cpTo c).width (fun i => cvt (src / 2 ^ (w * i) % 2 ^ w) (cpFrom c) (cpTo c) (cpRnd c) (cpSat c)) 0 (rows.length * 2048 / w)

/-- The rows of a unit in the order of their accesses: each destination row, and then where its old row is returned. Each comes with whether it is virtual. -/
def unitRows (va : Bool) (ret : Option Nat) : List Nat → List (Bool × Nat)
  | [] => []
  | a :: t => (va, a) :: ((ret.map fun r => (false, r)).toList ++ unitRows va (ret.map (· + 256)) t)

/-- Perform the next unit of a started command. With MCAST a row at or beyond the end of a quad's scratchpad fails (R261, R282). The destination port
computes its checksum over the data that arrives (R286), which `CopyCmd.wire` may have altered on its way (log 27). -/
def State.copyUnit (s : State) (c : CopyCmd) : CopyRes :=
  let u := cpUnits c.cmd
  let r := c.row / u
  let i := c.row % u
  let ns := cpRowLen c.cmd / 256 / u
  let nd := cpDl c.cmd / 256 / u
  let wrap := fun (va : Bool) (a : Nat) => a % 2 ^ (if va then 56 else 40)
  let src := if cpReads c.cmd then
      (List.range ns).map fun j => wrap (cpFlag c.cmd 0) (rowOf (cpSrc c.cmd) + r * cpSPitch c.cmd + 256 * (i * ns + j))
    else []
  let dst := fun (base : Nat) => (List.range nd).map fun j =>
    (wrap (cpFlag c.cmd 1) (base + r * cpDPitch c.cmd + 256 * (i * nd + j)), j)
  let bases := if cpFlag c.cmd 5 then (cpQuads c.cmd).map fun q => 0x1000000000 + q * 0x1000000 + rowOf (cpDst c.cmd) else [rowOf (cpDst c.cmd)]
  match s.copyRead c src [] with
  | (.ok c s, rows) =>
    let sent := cpData c.cmd rows
    let sends := cpReads c.cmd || decide (cpOp c.cmd < 3)
    let data := if sends then (sent ^^^ c.wire) % 2 ^ (2048 * nd) else sent
    let ret := rowOf (cpLast c.cmd) + r * cpDl c.cmd + 256 * i * nd
    let inside (b a : Nat) : Bool := !cpFlag c.cmd 5 || decide (a - (b - rowOf (cpDst c.cmd)) < 0x1000000)
    let all := bases.flatMap fun b => (dst b).map fun e => (b, e.1, nbytes data (256 * e.2) 256)
    let writes := (all.filter fun e => inside e.1 e.2.1).map fun e => e.2
    match s.copyBlocked c (unitRows (cpFlag c.cmd 1) (if 4 ≤ cpOp c.cmd then some ret else none) (writes.map (·.1))) with
    | some x => x
    | none =>
      let bytes := (pack (rows.map fun x => (256, x.toNat)))
      let sum (x n : Nat) : Nat := if cpFlag c.cmd 3 && sends then checksumFrom x (32 * nd * c.row) (32 * nd) n else 0
      let c := { c with
        srcSum := if cpFlag c.cmd 3 then checksumFrom bytes (32 * ns * c.row) (32 * rows.length) c.srcSum else 0
        dstSum := sum sent c.dstSum
        gotSum := sum data c.gotSum
        wire := 0
        row := c.row + 1 }
      match s.copyWrite c ret writes, all.find? fun e => !inside e.1 e.2.1 with
      | .ok _ s, some e => .fail cLocalRange e.2.1 s
      | x, _ => x
  | (x, _) => x

/-! ### Commands (R270) -/

/-- A started command that has performed every row (R276, R279): the checks of hop 0 and of hop 1 (R286), then the status row. -/
def State.copyEnd (s : State) (q : Nat) (c : CopyCmd) : State :=
  let expected := cpOperand c.cmd % 2 ^ 61
  if cpOp c.cmd = 0 && cpFlag c.cmd 3 && !(cpOperand c.cmd).testBit 63 && decide (c.srcSum ≠ expected) then
    s.copyFail q c cChecksum 0 (cpRows c.cmd) 0 expected c.srcSum
  else if cpFlag c.cmd 3 && decide (c.dstSum ≠ c.gotSum) then s.copyFail q c cChecksum 0 (cpRows c.cmd) 1 c.dstSum c.gotSum
  else
    let ret := rowOf (cpLast c.cmd) + cpRows c.cmd * cpDl c.cmd
    let done (s : State) : State := (s.putCopy q { c with finished := true }).first [.copyDone (Fin.ofNat 32 q) c.id]
    if 4 ≤ cpOp c.cmd ∧ cpRows c.cmd ≠ 0 then
      match s.engineWrite c.org false ret (BitVec.ofNat 2048 (c.flags % 8)) fullMask with
      | .ok _ s => done s
      | .fail x => s.copyFail q c (s.movedCause c.org c.enq ret x) ret (cpRows c.cmd) 0 0 0
      | .hold s => s.putCopy q c
      | .absent | .link => s
    else done s

/-- Park a started command at its faulting address (R293, R426). -/
def State.copyPark (s : State) (q : Nat) (c : CopyCmd) (addr : Nat) (link : Bool) : State :=
  let s := s.putCopy q { c with parked := some addr }
  if link then s.parkLink c.org.part.toNat addr (.copy q c.id)
  else s.park c.org.part.toNat addr (some c.org.job.toNat) c.org.ticket 1 q (c.row / cpUnits c.cmd) (.copy q c.id)

/-- The test-and-set of an idempotence tag (R287), at the port of its bitmap row (R277): whether the bit was set. Bit 3 of the command's flags tells that the
tag has been taken. The bit of a poisoned row is a free value (log 21). -/
def State.copyTag (s : State) (c : CopyCmd) : CopyRes × Bool :=
  let va := cpFlag c.cmd 1
  let addr := nbits (cpLast c.cmd) 63 16 * 256
  let bit := nbits (cpLast c.cmd) 10 0
  let s := s.flushPuts
  let c := { c with flags := c.flags ||| 8 }
  match s.spot c.org va addr 6 with
  | .mem k =>
    if s.mem.poisoned k then
      let f := s.freeVal 1
      (.ok c f.2, f.1.toNat = 1)
    else
      let b := nbytes (s.mem.row k).toNat (bit / 8) 1
      (.ok c ((s.touchLocal c.org va addr).putBytes (k + bit / 8) 1 (b ||| 2 ^ (bit % 8))), b.testBit (bit % 8))
  | .fail x => (.fail x addr s, false)
  | .regs _ => (.fail cPerm addr s, false)
  | .absent => (.absent addr s, false)
  | .link => (.link addr s, false)
  | .hold => (.hold (s.wakeArray c.org va addr), false)

/-- Go on with a started command: its tag, then its units, then its end. -/
def State.copyStep (s : State) (q : Nat) (c : CopyCmd) : State :=
  let rows := c.row / cpUnits c.cmd
  let next (x : CopyRes) (k : CopyCmd → State → State) : State := match x with
    | .ok c s => k c s
    | .fail cause a s => s.copyFail q c (s.movedCause c.org c.enq a cause) a rows 0 0 0
    | .absent a s => s.copyPark q c a false
    | .link a s => s.copyPark q c a true
    | .hold s => s.putCopy q c
  if cpRows c.cmd = 0 ∨ c.row = cpRows c.cmd * cpUnits c.cmd then s.copyEnd q c
  else if cpFlag c.cmd 4 && !(c.flags.testBit 3) then
    let t := s.copyTag c
    next t.1 fun c s =>
      if t.2 then ((s.count .duptag q 31 0 1).putCopy q { c with finished := true }).first [.copyDone (Fin.ofNat 32 q) c.id]
      else s.putCopy q c
  else next (s.copyUnit c) fun c s => if c.row = cpRows c.cmd * cpUnits c.cmd then s.copyEnd q c else s.putCopy q c

/-- Start a command (R273, R282, R283): the checks that are made before anything is written. -/
def State.copyStart (s : State) (q : Nat) (c : CopyCmd) : State :=
  let c := { c with started := true, began := s.tbase.toNat }
  let core := cmdField c.cmd 52 1 % 128
  let foreign := (cpQuads c.cmd).find? fun x => decide (s.quadPart x ≠ c.org.part.toNat)
  if badCopy c.cmd then s.copyFail q c cBadCopy 0 0 0 0 0
  else if badCopyFormat c.cmd then s.copyFail q c cFormat 0 0 0 0 0
  else if cpFlag c.cmd 2 && decide (s.quadPart (core / 4) ≠ c.org.part.toNat) then
    s.copyFail q c (s.movedCause c.org c.enq (0x1000000000 + core / 4 * 0x1000000) cLocalRange) 0 0 0 0 0
  else match foreign with
    | some x =>
      let a := 0x1000000000 + x * 0x1000000 + cpDst c.cmd
      s.copyFail q c (s.movedCause c.org c.enq a cLocalRange) a 0 0 0 0
    | none => s.putCopy q c

/-- The first command of each queue that has not started, of the queues that no parked command holds back (R270). -/
def copyHeads (l : List CopyCmd) : List CopyCmd :=
  let open_ := l.filter fun c => !c.started && !(l.any fun p => decide (p.queue = c.queue) && p.parked.isSome)
  open_.foldl (fun (heads : List CopyCmd) c => if heads.any fun h => decide (h.queue = c.queue) then heads else heads ++ [c]) []

/-- The command that a quad's engine starts next (R270), with the state of its choosers: at most 16 are started at once. -/
def Quad.pickCopy (x : Quad) : Option (CopyCmd × Roundabout × List (Nat × Nat)) :=
  let heads : List CopyCmd := copyHeads x.copies
  if 16 ≤ (x.copies.filter fun c => c.started && !c.finished).length then none
  else
    let lvl : Nat := (heads.map fun (c : CopyCmd) => c.org.prio.toNat).foldl max 0
    let at_ : List CopyCmd := heads.filter fun c => decide (c.org.prio.toNat = lvl)
    let g := x.copyRa.grant 4096 (fun _ => 1) (at_.map fun c => c.org.job.toNat)
    g.1.bind fun j =>
      let mine := at_.filter fun c => decide (c.org.job.toNat = j)
      let turn := firstAfter 8 (tgetD x.queueTurn j 7) (mine.map fun c => c.queue.val)
      (turn.bind fun k => mine.find? fun c => decide (c.queue.val = k)).map fun c => (c, g.2, tset x.queueTurn j c.queue.val)

/-- The kind of a command, as the opcode table names its step: a command with a reserved OP is found by COPY_OP. -/
def cpKind (c : BitVec 512) : Nat := if 5 < cpOp c then 0 else cpOp c

/-- The next unit of the started commands of one OP that are not parked, in turn: a command goes to the end of its quad's list with each turn. -/
def State.copyTurn (s : State) (q kind : Nat) : State :=
  match (s.quad q).copies.find? fun c => c.started && !c.finished && c.parked.isNone && decide (cpKind c.cmd = kind) with
  | some c => s.copyStep q c
  | none => s

/-- One step of a quad's copy engine for commands of one OP (R270): while fewer than 16 are started the next command starts, if it is of this OP; and
the started ones go on in turn, row by row. -/
def State.copyEngine (s : State) (q kind : Nat) : State :=
  match (s.quad q).pickCopy with
  | some (c, ra, turn) =>
    if cpKind c.cmd = kind then ((s.modQuad q fun y => { y with copyRa := ra, queueTurn := turn }).copyStart q c).copyTurn q kind else s.copyTurn q kind
  | none => s.copyTurn q kind

/-- COPY_OP (R274). -/
def execCopyOp (quad : Fin 32) (s : State) : Out := .next (s.copyEngine quad.val 0)
/-- FILL (R274). -/
def execFill (quad : Fin 32) (s : State) : Out := .next (s.copyEngine quad.val 1)
/-- ZERO (R274). -/
def execZero (quad : Fin 32) (s : State) : Out := .next (s.copyEngine quad.val 2)
/-- ACC (R275). -/
def execAcc (quad : Fin 32) (s : State) : Out := .next (s.copyEngine quad.val 3)
/-- ACCF (R276). -/
def execAccf (quad : Fin 32) (s : State) : Out := .next (s.copyEngine quad.val 4)
/-- CAS (R276). -/
def execCas (quad : Fin 32) (s : State) : Out := .next (s.copyEngine quad.val 5)

/-! ### Arrivals (R284) -/

/-- The lowest-numbered context of a core that is armed with a class, dormant or running. -/
def State.armedOf (s : State) (core : Nat) (cls : BitVec 8) : Option Nat :=
  ((List.range 8).map (core * 8 + ·)).find? fun k => match (s.ctx k).armed with
    | some e => decide (e.2 = cls)
    | none => false

/-- ARRIVAL (R20, R284): to a dormant handler, to the arrival list behind those of its class that wait there, into a HANDLER continuation, or discarded. A
start whose core has stamped a ticket in this tick waits for the next one (R25). The HANDLER continuation of an overflow starts s4 to s6 at zero (DESIGN
CHOICE: R20 gives s1 to s3 alone; log 25). -/
def execArrival (core : Fin 128) (s : State) : Out :=
  let i := core.val
  .next (match (s.core i).arriving with
  | [] => s
  | a :: t =>
    let s0 := s.modCore i fun c => { c with arriving := t }
    let ahead := (s.core i).arrivals.any fun b => decide (b.cls = a.cls)
    match if ahead then none else s.dormantOf i a.cls with
    | some k => (s0.startHandler k a).getD s
    | none =>
      if (s.core i).arrivals.length < 32 then s0.modCore i fun c => { c with arrivals := c.arrivals ++ [a] }
      else match s.armedOf i a.cls with
        | some k =>
          let c := s.ctx k
          (match s0.stampCore i c.prio.toNat, c.armed with
           | some x, some e =>
             x.2.pushRec c.part.toNat ⟨x.1, e.1, c.image, c.job, 0, 4, [a.s1, a.s2, a.s3]⟩
           | _, _ => s)
        | none =>
          let s := s0.postFault { cause := cNoHandler, src := 1, part := a.part.toNat, job := some a.job.toNat, unit := a.quad, done := a.rows,
                                  ticket := a.ticket }
          match a.doneKey with
          | some d => s.doneAdd ⟨a.ticket, 0, a.job, a.part, 0, a.quad, false⟩ d (2 ^ 32)
          | none => s)

end Sys2Proof.Machine
end

