-- ==== Sys2Proof/Machine/Wheel.lean ====
section
/-!
DEFINITION. Wheel: the Wheel engines (R296 to R312): starts and releases, itinerary steps, hops, residency slots, stream groups and lateness.
-/
namespace Sys2Proof.Machine

/-! ### Engines, spokes and steps -/

/-- One engine. -/
def State.wheel (s : State) (e : Nat) : Wheel := tgetD s.wheels e .reset
/-- Change one engine. -/
def State.modWheel (s : State) (e : Nat) (f : Wheel → Wheel) : State := { s with wheels := tset s.wheels e (f (s.wheel e)) }
/-- A spoke that runs. -/
def State.spoke? (s : State) (e k : Nat) : Option Spoke := tget (s.wheel e).spokes k
/-- Replace a spoke. -/
def State.setSpoke (s : State) (e k : Nat) (x : Spoke) : State := s.modWheel e fun w => { w with spokes := tset w.spokes k x }

/-- A field of a step (R300): `n` bytes from byte `o`. -/
def stField (c : BitVec 256) (o n : Nat) : Nat := nbytes c.toNat o n
/-- STEP. -/
def stCode (c : BitVec 256) : Nat := stField c 0 1
/-- FROM. -/
def stFrom (c : BitVec 256) : Nat := stField c 1 1
/-- TO. -/
def stTo (c : BitVec 256) : Nat := stField c 2 1
/-- A bit of FLAGS: 0 CHK, 1 DEADLINE, 2 CHAIN, 3 SLOT, 4 CONS. -/
def stFlag (c : BitVec 256) (i : Nat) : Bool := (stField c 3 1).testBit i
/-- SHARDBYTES. -/
def stBytes (c : BitVec 256) : Nat := stField c 4 4
/-- SRCADDR. -/
def stSrc (c : BitVec 256) : Nat := stField c 8 8
/-- DSTADDR. -/
def stDst (c : BitVec 256) : Nat := stField c 16 8
/-- DEADLINE. -/
def stDeadline (c : BitVec 256) : Nat := stField c 24 4
/-- ARG. -/
def stArg (c : BitVec 256) : Nat := stField c 28 4
/-- Rows that a hop moves (R305): those of the shard, and the trailer with CHK. -/
def stRows (c : BitVec 256) : Nat := stBytes c / 256 + (stFlag c 0).toNat

/-- Whether a step breaks R300 or the step table, at its index (R301, R302): a field that its code does not use is zero. -/
def badStep (c : BitVec 256) (index : Nat) : Bool :=
  let code := stCode c
  let into := stTo c
  let arg := stArg c
  let tier := decide (1 ≤ into ∧ into ≤ 4)
  let unused (l : List (Nat × Nat)) : Bool := l.all fun x => decide (stField c x.1 x.2 = 0)
  !(match code with
    | 1 => decide (stField c 3 1 < 32 ∧ stFrom c ≤ 4 ∧ stFrom c ≠ into ∧ stBytes c % 256 = 0 ∧ 256 ≤ stBytes c ∧ stBytes c ≤ 2 ^ 24) && tier && (stFlag c 1 || decide (stDeadline c = 0)) &&
        (!stFlag c 3 || decide (stFrom c = 2 ∨ into = 2))
    | 2 => unused [(1, 1), (3, 1), (4, 4), (8, 8), (16, 8), (24, 4)] && tier
    | 3 => unused [(1, 1), (2, 1), (3, 1), (4, 4), (8, 8), (16, 8), (24, 4)] && decide (arg < 8)
    | 4 => unused [(1, 1), (3, 1), (4, 4), (8, 8), (16, 8), (24, 4)] && tier && decide (arg < 2 ^ 28 ∧ 1 ≤ nbits arg 21 16)
    | 5 => unused [(1, 1), (2, 1), (3, 1), (4, 4), (8, 8), (24, 4), (28, 4)]
    | 6 => unused [(1, 1), (2, 1), (3, 1), (4, 4), (16, 8)] && decide (stSrc c < index)
    | 7 => unused [(1, 1), (2, 1), (3, 1), (4, 4), (24, 4)] && decide (arg < 4)
    | 8 => unused [(1, 1), (2, 1), (3, 1), (4, 4), (8, 8), (24, 4), (28, 4)]
    | 9 => unused [(1, 1), (3, 1), (4, 4), (8, 8), (16, 8), (24, 4)] && tier && decide (1 ≤ arg ∧ arg ≤ 64)
    | _ => false)

/-- Address of the current step. -/
def Spoke.at (x : Spoke) : Nat := x.addr + 32 * x.index

/-- The step in hand, when its row is held (R301). -/
def Spoke.step? (x : Spoke) : Option (BitVec 256) := (tget x.rows (rowOf x.at)).map fun r => BitVec.ofNat 256 (nbytes r.1.toNat (x.at % 256) 32)

/-- The newest group that a spoke has joined for a tier (R310). -/
def Spoke.groupOf (x : Spoke) (tier : Nat) : Option GroupMem := x.groups.find? fun g => g.joined && decide (g.tier = tier)

/-- The group that a spoke waits to join (R310). -/
def Spoke.joining (x : Spoke) : Option GroupMem := x.groups.find? fun g => !g.joined

/-- Whether a hop is a group hop of a member that does not lead: its shard comes from the leader (R310). -/
def Spoke.follows (x : Spoke) (h : HopRec) : Bool :=
  match h.group with
  | some g => !(x.groups.any fun y => decide (y.id = g.1 ∧ y.tier = stTo h.step ∧ y.me = 0))
  | none => false

/-- Whether a hop's read of its source has ended (R304): with CHK only when no retry can read it again (R305). -/
def HopRec.readOver (h : HopRec) : Bool := h.moved || (!h.arrived.isEmpty && (!stFlag h.step 0 || h.retried))

/-- The streams of the accesses that a hop has still to make (R303): its reads and its writes, and the add to its done row. A follower reads nothing. -/
def Spoke.streams (x : Spoke) (h : HopRec) : Nat :=
  let r := if x.follows h || h.readOver then 0 else if 3 ≤ stFrom h.step then 1 else 4
  let w := if h.moved then 0 else if 3 ≤ stTo h.step then 2 else 4
  r ||| w ||| (if stArg h.step = 0 then 0 else 3)

/-- The hop that makes the chained shard a hop consumes (R304), once it is issued. -/
def Spoke.maker (x : Spoke) (h : HopRec) : Option HopRec :=
  h.consumes.bind fun j => x.hops.find? fun o => decide (stTo o.step = stFrom h.step ∧ o.chained = some j)

/-- Whether a hop waits for a chained shard that is not issued, or whose own hop waits so: it has made no access (R302). -/
def Spoke.unfedIn (x : Spoke) (h : HopRec) : Nat → Bool
  | 0 => true
  | n + 1 => !h.moved && h.arrived.isEmpty && h.consumes.isSome && (match x.maker h with
    | none => true
    | some m => x.unfedIn m n)

/-- See `unfedIn`: hops that feed each other in a ring wait for ever. -/
def Spoke.unfed (x : Spoke) (h : HopRec) : Bool := x.unfedIn h (x.hops.length + 1)

/-- Whether accesses of earlier steps in the named streams have still to perform (R302, R303). -/
def Spoke.busy (x : Spoke) (mask : Nat) : Bool :=
  x.hops.any fun h => !h.finished && !x.unfed h && decide (x.streams h &&& mask ≠ 0)

/-- Unreleased shards of a window (R304). -/
def Spoke.held (x : Spoke) (tier : Nat) : Nat := (x.hops.filter fun h => !h.released && decide (stTo h.step = tier)).length

/-- Forget the hops that are finished and released. -/
def Spoke.tidy (x : Spoke) : Spoke := { x with hops := x.hops.filter fun h => !(h.finished && h.released) }

/-! ### Lateness (R306, R307) -/

/-- The throttle level of an engine (R307). -/
def State.wheelLevel (s : State) (e : Nat) : Nat :=
  let late := s.fld .wlate e 55 0
  let th := (List.range 4).map (fun i => s.fld .wthr0 e (16 * i + 15) (16 * i)) ++ (List.range 3).map fun i => s.fld .wthr1 e (16 * i + 15) (16 * i)
  (th.filter fun t => decide (t ≠ 0 ∧ t * 1024 ≤ late)).length

/-- Add to the lateness of an engine: LATE takes it in this cycle's turn, WLSUM at once (R306). -/
def State.addLate (s : State) (e x : Nat) : State := (s.modWheel e fun w => { w with added := w.added + x }).count .wlsum e 63 0 x

/-- One cycle of LATE (R306): it falls by LEAK, then takes the additions of the cycle; the level follows (R307). -/
def State.lateCycle (s : State) (e : Nat) : State :=
  let late := min (s.fld .wlate e 55 0 - s.fld .wthr1 e 63 48 + (s.wheel e).added) (2 ^ 56 - 1)
  let s := (s.modWheel e fun w => { w with added := 0 }).setFld .wlate e 55 0 late
  s.setFld .wlate e 58 56 (s.wheelLevel e)

/-- LATE_DECAY (R306, R307). -/
def execLateDecay (e : Fin 4) (s : State) : Out := .next (s.lateCycle e.val)

/-! ### The end of a spoke -/

/-- The notice by which a member leaves its group (log 30). -/
def leftGroup : Nat := 2 ^ 64

/-- A spoke becomes free: its parked access and its fills not yet applied are gone; slots stay owned (R308, R312). -/
def State.dropSpoke (s : State) (e k : Nat) : State :=
  let s := s.modWheel e fun w => { w with spokes := terase w.spokes k }
  { s with
    parked := s.parked.filter fun p => match p.work with
      | .spoke e' k' _ _ => !decide (e' = e ∧ k' = k)
      | _ => true
    fills := s.fills.filter fun f => decide (f.owner ≠ 16 * e + k) }

/-- Add 2^32 to the done row of a hop that does not finish (R302, R312); one that has finished, and whose add is still held, adds its 1 (R306). -/
def State.hopLost (s : State) (o : Origin) (h : HopRec) : State :=
  if stArg h.step = 0 then s else s.doneAdd o (stArg h.step * 256) (if h.moved then 1 else 2 ^ 32)

/-- What went wrong with a hop's checksum (R305). -/
structure SumFault where
  hop : Nat
  expected : Nat
  received : Nat
deriving DecidableEq, Repr

/-- A spoke fails (R310, R312). -/
def State.spokeFail (s : State) (e k : Nat) (x : Spoke) (cause : Cause) (addr stepAddr : Nat) (sum : SumFault := ⟨0, 0, 0⟩) : State :=
  let s := (x.hops.filter fun h => !h.finished).foldl (fun (s : State) h => s.hopLost x.org h) s
  let s := s.postFault { cause := cause, src := 3, part := x.org.part.toNat, job := some x.org.job.toNat, unit := 16 * e + k, addr := addr,
                         ticket := x.org.ticket, hop := sum.hop, expected := sum.expected, received := sum.received, step := stepAddr }
  let s := x.groups.foldl (fun (s : State) g => s.ropeFlit none (.abortGroup g.id g.me)) s
  s.dropSpoke e k

/-- Whether a park holds hop `n` of a spoke, or with `n` the number of its next hop its next step (R293, R312): one at that hop, or before it. -/
def State.spokeParked (s : State) (e k n : Nat) : Bool :=
  s.parked.any fun p => match p.work with
    | .spoke e' k' m _ => decide (e' = e ∧ k' = k ∧ m ≤ n)
    | _ => false

/-- A hop or a step of a spoke parks on a page that is not present, or on the host link (R293, R312, R426): its later steps are held. -/
def State.spokePark (s : State) (e k : Nat) (x : Spoke) (n stepAddr addr : Nat) (link : Bool) : State :=
  if link then s.parkLink x.org.part.toNat addr (.spoke e k n stepAddr)
  else s.park x.org.part.toNat addr (some x.org.job.toNat) x.org.ticket 3 (16 * e + k) 0 (.spoke e k n stepAddr)

/-! ### Starting and releasing (R298, R299) -/

/-- The partition that owns a spoke (R296). -/
def State.spokePart (s : State) (e k : Nat) : Nat := s.fld .wspoke e (4 * k + 3) (4 * k)

/-- SPOKE_START (R298): the oldest start request reaches its engine. -/
def execSpokeStart (e : Fin 4) (s : State) : Out :=
  .next (match (s.wheel e.val).starts with
  | [] => s
  | r :: t =>
    let k := nbits r.sa.toNat 59 56
    let addr := nbits r.sa.toNat 55 0 / 32 * 32
    let va := r.sa.getLsbD 63
    let s := s.modWheel e.val fun w => { w with starts := t }
    let deny (cause : Cause) : State :=
      (s.performed r.id).postFault
        { cause := cause, src := 3, part := r.org.part.toNat, job := some r.org.job.toNat, unit := 16 * e.val + k, ticket := r.org.ticket, step := addr }
    if s.spokePart e.val k ≠ r.org.part.toNat then deny cSpokeDenied
    else if (s.spoke? e.val k).isSome then deny cSpokeBusy
    else (s.accepted r.id).setSpoke e.val k {
      id := r.id, org := r.org, addr := if va then addr else addr % 2 ^ 40, va := va, index := 0, origin := s.now, windows := #v[0, 8, 4, 2, 2], loops := []
      hops := [], nextHop := 0, nchained := Vector.replicate 5 0, nconsumed := Vector.replicate 5 0, rows := [], groups := []
      readAt := s.tbase.toNat, began := s.tbase.toNat })

/-- Note that a shard of a window has been released, to the leaders of the groups of its tier (R311). -/
def State.noteRelease (s : State) (e k tier : Nat) : State :=
  match s.spoke? e k with
  | none => s
  | some x =>
    let told (g : GroupMem) : GroupMem := if g.joined ∧ g.tier = tier then { g with rel := tset g.rel g.me (tgetD g.rel g.me 0 + 1) } else g
    let s := s.setSpoke e k { x with groups := x.groups.map told }
    (x.groups.filter fun g => g.joined && decide (g.tier = tier ∧ g.me ≠ 0)).foldl (fun (s : State) g =>
      s.ropeFlit none (.notice g.id g.me (tgetD g.rel g.me 0 + 1))) s

/-- SHARD_RELEASE (R299): the oldest TREL reaches its engine. -/
def execShardRelease (e : Fin 4) (s : State) : Out :=
  .next (match (s.wheel e.val).rels with
  | [] => s
  | r :: t =>
    let k := nbits r.sa.toNat 3 0
    let tier := nbits r.sa.toNat 6 4
    let s := (s.modWheel e.val fun w => { w with rels := t }).performed r.id
    let spurious := s.count .wspur e.val 31 0 1
    match s.spoke? e.val k with
    | none => spurious
    | some x =>
      if s.spokePart e.val k ≠ r.org.part.toNat ∨ tier = 0 ∨ 4 < tier then spurious
      else match x.hops.find? fun h => !h.released && h.chained.isNone && decide (stTo h.step = tier) with
        | none => spurious
        | some h =>
          let x := { x with hops := x.hops.map fun (y : HopRec) => if y.n = h.n then { y with released := true } else y }
          (s.setSpoke e.val k x.tidy).noteRelease e.val k tier)

/-- RELEASE_NOTICE (R311): a member's count of releases reaches the leader: `m` is 64 times the group plus the member (log 30). -/
def execReleaseNotice (e : Fin 4) (k : Fin 16) (m count : Nat) (s : State) : Out :=
  .next (match s.spoke? e.val k.val with
  | none => s
  | some x =>
    let told (g : GroupMem) : GroupMem := if g.joined ∧ g.me = 0 ∧ g.id = m / 64 ∧ m % 64 ≠ 0 then { g with rel := tset g.rel (m % 64) count } else g
    s.setSpoke e.val k.val { x with groups := x.groups.map told })

/-! ### The order of a spoke's accesses (R303, R354) -/

/-- The tier of a device physical address (R289, R297). -/
def tierOf (pa : Nat) : Option Nat :=
  if pa < 0x3000000000 then some 2
  else if 0x10000000000 ≤ pa ∧ pa < 0x20000000000 then some 1
  else if 0x4000000000000 ≤ pa then some 0
  else none

/-- Device VA of a residency slot of a partition (R308). -/
def State.slotVa (s : State) (part slot : Nat) : Nat := s.fld .pres part 55 17 * 2 ^ 17 + slot * s.fld .presz part 31 16 * 2 ^ 17

/-- The slot that a hop names on a side. -/
def slotOf (c : BitVec 256) (source : Bool) : Option Nat :=
  if stFlag c 3 then
    if source then (if stFrom c = 2 then some (stSrc c) else none) else (if stTo c = 2 then some (stDst c) else none)
  else none

/-- Where a hop's access to a row of a tier ends (R297, R302): an address that maps to another tier fails with BAD_STEP. -/
def State.hopSpot (s : State) (o : Origin) (tier a need : Nat) : Spot :=
  if tier ≤ 2 then
    match s.pageOf o.part.toNat a with
    | none => .absent
    | some p =>
      if p.perm.toNat &&& need ≠ need then .fail cPerm
      else if tierOf (p.pa + (a - p.va)) ≠ some tier then .fail cBadStep
      else s.spotVa o.part.toNat a need
  else match canonLocal o.quad a with
    | none => .fail cLocalRange
    | some x => if (scratchQuad? x).isSome ≠ decide (tier = 4) then .fail cBadStep else s.spotLocal o.part.toNat o.quad a

/-- The rows of a hop on one side, in ascending order. -/
def State.hopRows (s : State) (x : Spoke) (h : HopRec) (source : Bool) : List Nat :=
  let tier := if source then stFrom h.step else stTo h.step
  let base := match slotOf h.step source with
    | some n => s.slotVa x.org.part.toNat n
    | none => rowOf (if source then stSrc h.step else stDst h.step)
  (List.range (stRows h.step)).map fun i => (base + 256 * i) % (if tier ≤ 2 then 2 ^ 56 else 2 ^ 40)

/-- Keys of the memory rows of a hop's side. -/
def State.hopKeys (s : State) (x : Spoke) (h : HopRec) (source : Bool) : List Nat :=
  if source && x.follows h then []
  else (s.hopRows x h source).filterMap fun a =>
    match s.hopSpot x.org (if source then stFrom h.step else stTo h.step) a 0 with
    | .mem k => some k
    | _ => none

/-- The key of a hop's done row. -/
def doneKey (x : Spoke) (h : HopRec) : Option Nat := if stArg h.step = 0 then none else (canonLocal x.org.quad (stArg h.step * 256)).map localKey

/-- Whether the current step waits for accesses of earlier steps (R302): no maker of an unfed hop is issued while it does. -/
def Spoke.settling (x : Spoke) : Bool := (x.step?.map fun c => [3, 7, 8].contains (stCode c)).getD false

/-- The hops before another one whose accesses keep their order with its own (R303): an unfed hop is none while its maker cannot be issued. -/
def Spoke.before (x : Spoke) (h : HopRec) : List HopRec :=
  x.hops.filter fun o => decide (o.n < h.n) && !o.finished && !(x.settling && x.unfed o)

/-- Whether an earlier hop of the spoke still has to access a row that this one accesses (R303): its read of the shard that this one makes comes
after. -/
def State.hopBehind (s : State) (x : Spoke) (h : HopRec) : Bool :=
  let src := s.hopKeys x h true
  let dst := s.hopKeys x h false
  (x.before h).any fun o =>
    !(o.consumes.isSome && decide (o.consumes = h.chained ∧ stFrom o.step = stTo h.step)) &&
      ((!o.moved && (s.hopKeys x o false).any (fun a => src.contains a || dst.contains a)) ||
        (!o.readOver && (s.hopKeys x o true).any fun a => dst.contains a) ||
        (doneKey x o).any fun a => src.contains a || dst.contains a)

/-- Whether a hop has the shard that it consumes, or has read it already (R304). -/
def Spoke.fed (x : Spoke) (h : HopRec) : Bool := h.consumes.isNone || !h.arrived.isEmpty || ((x.maker h).map (·.moved)).getD false

/-- Whether a hop can make its next access. -/
def State.hopReady (s : State) (e k : Nat) (x : Spoke) (h : HopRec) : Bool :=
  x.fed h && h.slotReady && !s.hopBehind x h && !s.spokeParked e k h.n

/-- Whether a read of a hop before number `n` waits for its granule, which holds the later reads of the itinerary (R321, R354). -/
def State.readHeld (s : State) (e k : Nat) (x : Spoke) (n : Nat) : Bool :=
  x.hops.any fun h => decide (h.n < n) && !h.moved && h.arrived.isEmpty && !x.follows h && s.hopReady e k x h &&
    (match (s.hopRows x h true)[h.got.length]? with
     | some a => match s.acquire x.org (decide (stFrom h.step ≤ 2)) a with
       | .hold _ => true
       | .ok _ _ | .fail _ | .absent | .link => false
     | none => false)

/-! ### Steps (R301, R302) -/

/-- Cycles that a row of an itinerary takes to arrive (R301): R297 by the tier of a device VA, R266 for a core of the issuing quad else. -/
def State.itinLatency (s : State) (x : Spoke) (a : Nat) : Nat :=
  if x.va then
    match (s.pageOf x.org.part.toNat a).bind fun p => tierOf (p.pa + (a - p.va)) with
    | some 0 => 2000
    | some 1 => 700
    | some _ => 450
    | none => 0
  else ((canonLocal x.org.quad a).map (loadLatency (32 * x.org.quad))).getD 0

/-- Address of the row after that of the current step. -/
def Spoke.nextRow (x : Spoke) : Nat := (rowOf x.at + 256) % (if x.va then 2 ^ 56 else 2 ^ 40)

/-- A spoke that works in the row of its current step: it holds no row but this one and the next (R301). -/
def Spoke.keepRows (x : Spoke) : Spoke := { x with rows := x.rows.filter fun r => decide (r.1 = rowOf x.at ∨ r.1 = x.nextRow) }

/-- A row of the itinerary is read, and arrives after its latency (R301). -/
def Spoke.take (x : Spoke) (s : State) (a : Nat) (row : Row) : Spoke := { x with rows := tset x.rows a (row, s.now + s.itinLatency x a) }

/-- Read the next row ahead, when it can be read (R301). -/
def State.readAhead (s : State) (e k : Nat) (x : Spoke) : State :=
  if (tget x.rows x.nextRow).isSome || s.readHeld e k x x.nextHop then s
  else match s.engineRead x.org x.va x.nextRow (.wheel e) with
    | .ok row s => s.setSpoke e k (x.take s x.nextRow row)
    | .hold _ | .fail _ | .absent | .link => s

/-- Run the current step of a spoke, when it has the code of the event (R301): its row is read when the spoke first needs it, which is then the step's read
too (R421; log 39), and the step is tested no earlier than the row's arrival. A step that breaks the rules fails the spoke, and a parked spoke runs none. -/
def State.spokeStep (s : State) (e k code : Nat) (f : Spoke → BitVec 256 → State → State) : State :=
  match s.spoke? e k with
  | none => s
  | some x =>
    let a := rowOf x.at
    let park (link : Bool) : State := s.spokePark e k x x.nextHop x.at x.at link
    if s.spokeParked e k x.nextHop then s
    else match tget x.rows a with
      | some r =>
        let c : BitVec 256 := BitVec.ofNat 256 (nbytes r.1.toNat (x.at % 256) 32)
        if s.now < r.2 then s
        else if badStep c x.index then s.spokeFail e k x cBadStep 0 x.at
        else if stCode c ≠ code then s
        else
          let s := (s.setSpoke e k x.keepRows).readAhead e k x.keepRows
          f ((s.spoke? e k).getD x) c s
      | none =>
        if s.readHeld e k x x.nextHop then s
        else match s.engineRead x.org x.va a (.wheel e) with
        | .ok row s => s.setSpoke e k ({ x.keepRows with readAt := s.tbase.toNat }.take s a row)
        | .fail cause => s.spokeFail e k x (if x.va then cause else s.movedCause x.org x.began x.at cause) x.at x.at
        | .absent => park false
        | .link => park true
        | .hold s => s

/-- The current step, issued at a tick, is over, and the next one follows (R421: the step is stamped). -/
def State.stepOver (s : State) (e k : Nat) (x : Spoke) (issued : Nat) : State :=
  (s.setSpoke e k { x with index := x.index + 1, readAt := s.tbase.toNat }).stamp x.org.part.toNat 4 x.org.job.toNat (x.at / 32) x.readAt issued (srcWheel e)

/-- The current step is issued and over at once. -/
def State.stepDone (s : State) (e k : Nat) (x : Spoke) : State := s.stepOver e k x s.tbase.toNat

/-- WAITREL (R302). -/
def execWaitrel (e : Fin 4) (k : Fin 16) (s : State) : Out :=
  .next (s.spokeStep e.val k.val 2 fun x c s => if x.held (stTo c) ≤ stArg c then s.stepDone e.val k.val x else s)

/-- BARRIER (R302, R303). -/
def execBarrier (e : Fin 4) (k : Fin 16) (s : State) : Out :=
  .next (s.spokeStep e.val k.val 3 fun x c s => if x.busy (stArg c) then s else s.stepDone e.val k.val x)

/-- SETWIN (R302). -/
def execSetwin (e : Fin 4) (k : Fin 16) (s : State) : Out :=
  .next (s.spokeStep e.val k.val 9 fun x c s => s.stepDone e.val k.val { x with windows := x.windows.set! (stTo c) (stArg c) })

/-- ITIN_LOOP (R302): at most four live counters, keyed by step index. -/
def execItinLoop (e : Fin 4) (k : Fin 16) (s : State) : Out :=
  .next (s.spokeStep e.val k.val 6 fun x c s =>
    let live := tget x.loops x.index
    let n := live.getD (stArg c - 1)
    if n = 0 then s.stepDone e.val k.val { x with loops := terase x.loops x.index }
    else if live.isNone ∧ 4 ≤ x.loops.length then s.spokeFail e.val k.val x cBadStep 0 x.at
    else
      let s := s.stepDone e.val k.val { x with loops := tset x.loops x.index (n - 1), origin := x.origin + 16 * stDeadline c }
      match s.spoke? e.val k.val with
      | some y => s.setSpoke e.val k.val { y with index := stSrc c }
      | none => s)

/-- An address word of MARK and END: local unless bit 63 is set (R302). -/
def wordAddr (d : Nat) : Bool × Nat := if d.testBit 63 then (true, d % 2 ^ 56 / 8 * 8) else (false, d % 2 ^ 40 / 8 * 8)

/-- Write a word for MARK, or with `add` add to it for END (R302): MARK fails in a set of its task (R360). The step waits, parks or fails as its
access does. The add is a read-modify-write (R277, R425). -/
def State.spokeWord (s : State) (e k : Nat) (x : Spoke) (d v : Nat) (add : Bool) (f : State → State) : State :=
  let a := wordAddr d
  let need := if add && a.1 then 6 else 2
  if !add && s.inOwnSet x.org a.1 a.2 then s.spokeFail e k x cSetWrite a.2 x.at
  else match if a.1 then s.spotVa x.org.part.toNat a.2 need 8 else s.spotLocal x.org.part.toNat x.org.quad a.2 with
    | .hold => s.wakeArray x.org a.1 a.2
    | .absent => s.spokePark e k x x.nextHop x.at a.2 false
    | .link => s.spokePark e k x x.nextHop x.at a.2 true
    | .fail c => s.spokeFail e k x (if a.1 then c else s.movedCause x.org x.began a.2 c) a.2 x.at
    | .regs off =>
      if add then s.spokeFail e k x cPerm a.2 x.at
      else match s.writeSpot x.org.part.toNat (BitVec.ofNat 2048 (v % 2 ^ 64 * 256 ^ (a.2 % 256))) (byteMask (a.2 % 256) 8) false (.regs (rowOf off)) with
        | .ok _ s => f s
        | _ => s.spokeFail e k x cPerm a.2 x.at
    | .mem key =>
      if add && s.mem.poisoned key then s.spokeFail e k x cPoison a.2 x.at
      else
        let s := (s.touchLocal x.org a.1 a.2 (.wheel e)).flushPuts
        f (if add then s.putBytes key 8 (s.mem.readLe key 8 + v) else s.storeBytes key 8 v)

/-- MARK (R302). The item of its event is left open by the spec: a free value (log 3). -/
def execMark (e : Fin 4) (k : Fin 16) (s : State) : Out :=
  .next (s.spokeStep e.val k.val 7 fun x c s =>
    if x.busy 7 then s
    else s.spokeWord e.val k.val x (stDst c) (stSrc c) false fun s =>
      let s := if (stArg c).testBit 1 then
          let i := s.freeVal 64
          i.2.postEvent { src := srcWheel e.val, kind := 7, item := i.1.toNat }
        else s
      s.stepDone e.val k.val (if (stArg c).testBit 0 then { x with origin := s.now } else x))

/-- The spoke is free after END: its group learns that it has left, and hops that wait for a chained shard never issued are discarded (R302, R310). -/
def State.endSpoke (s : State) (e k : Nat) (x : Spoke) : State :=
  let s := (x.groups.filter GroupMem.joined).foldl (fun (s : State) g => s.ropeFlit none (.notice g.id g.me leftGroup)) s
  (s.stamp x.org.part.toNat 4 x.org.job.toNat (x.at / 32) x.readAt s.tbase.toNat (srcWheel e)).dropSpoke e k

/-- ITIN_END (R302): END discards the hops that are still unfed before its own add. -/
def execItinEnd (e : Fin 4) (k : Fin 16) (s : State) : Out :=
  .next (s.spokeStep e.val k.val 8 fun x c s =>
    if x.busy 7 then s
    else
      let s := (x.hops.filter fun h => !h.finished).foldl (fun (s : State) h => s.hopLost x.org h) s
      let x := { x with hops := x.hops.filter fun h => h.finished }
      let s := s.setSpoke e.val k.val x
      if stDst c = 0 then s.endSpoke e.val k.val x
      else s.spokeWord e.val k.val x (stDst c) 1 true fun s => s.endSpoke e.val k.val x)

/-! ### Stream groups (R310, R311) -/

/-- MCAST (R310): the spoke asks to join; the step completes when every member has joined. A spoke that joins a group of a tier again starts anew
in it. -/
def execMcast (e : Fin 4) (k : Fin 16) (s : State) : Out :=
  .next (s.spokeStep e.val k.val 4 fun x c s =>
    if x.joining.isSome then s
    else
      let g : GroupMem := {
        id := nbits (stArg c) 15 0, size := nbits (stArg c) 21 16 + 1, tier := stTo c, me := nbits (stArg c) 27 22
        joined := false, hops := 0, rel := [], aborted := false, asked := s.tbase.toNat }
      let others := x.groups.filter fun y => !decide (y.id = g.id ∧ y.tier = g.tier)
      (s.setSpoke e.val k.val { x with groups := g :: others }).ropeFlit none (.join g.id g.size g.tier (x.windows.toList.getD g.tier 0) g.me))

/-- GROUP_JOIN (R310): what the other members say as they join: member, member count, tier and window size. A mismatch fails the spoke, and with
every member there the MCAST step is over. A member count of 0 stands for the failure message of a member of the tier's group (log 30). -/
def execGroupJoin (e : Fin 4) (k : Fin 16) (joins : List (Nat × Nat × Nat × Nat)) (s : State) : Out :=
  .next (match s.spoke? e.val k.val with
  | none => s
  | some x =>
    let failed (g : GroupMem) : Bool := g.joined && joins.any fun j => decide (j.2.1 = 0 ∧ j.2.2.1 = g.tier)
    let x := { x with groups := x.groups.map fun (g : GroupMem) => if failed g then { g with aborted := true } else g }
    let s := s.setSpoke e.val k.val x
    let here := joins.filter fun j => decide (j.2.1 ≠ 0)
    match x.joining with
    | none => s
    | some g =>
      if here.any fun j => decide (j.2 ≠ (g.size, g.tier, x.windows.toList.getD g.tier 0)) then s.spokeFail e.val k.val x cMcastMismatch 0 x.at
      else if (List.range g.size).all fun m => decide (m = g.me) || here.any fun j => decide (j.1 = m) then
        let full (y : GroupMem) : GroupMem := if y.joined then y else { y with joined := true, rel := (List.range g.size).map fun m => (m, 0) }
        s.stepOver e.val k.val { x with groups := x.groups.map full } g.asked
      else s)

/-! ### Residency slots (R308, R309) -/

/-- Whether a hop may name a slot (R308). -/
def State.slotFits (s : State) (part slot : Nat) (c : BitVec 256) : Bool :=
  decide (slot < s.fld .presz part 15 0 ∧ stRows c * 256 ≤ s.fld .presz part 31 16 * 2 ^ 17)
/-- The owner of a slot: 16 times its engine plus its spoke. -/
def State.slotOwner (s : State) (part slot : Nat) : Option Nat := (s.residency.find? fun r => decide (r.1 = part ∧ r.2.1 = slot)).map (·.2.2)
/-- EVICT (R308): once the spoke's issued accesses to the slot have performed, the eviction goes to the residency table. -/
def execEvict (e : Fin 4) (k : Fin 16) (s : State) : Out :=
  .next (s.spokeStep e.val k.val 5 fun x c s =>
    let slot := stDst c
    let part := x.org.part.toNat
    let uses := x.hops.any fun h => !x.unfed h && ((!h.readOver && slotOf h.step true == some slot) || (!h.moved && slotOf h.step false == some slot))
    if uses then s
    else if s.slotOwner part slot ≠ some (16 * e.val + k.val) then s.spokeFail e.val k.val x cSlotOwner 0 x.at
    else { s with evictions := s.evictions ++ [SlotReq.mk part slot (16 * e.val + k.val) 0 s.now] }.stepDone e.val k.val x)

/-- Apply one fill (R308, R309): one that meets an eviction of its slot in the same slot-cycle is put off to the next, which counts as lateness. -/
def State.applyFill (s : State) (evicted : List SlotReq) (f : SlotReq) : State :=
  let e := f.owner / 16
  let k := f.owner % 16
  if evicted.any fun x => decide (x.part = f.part ∧ x.slot = f.slot) then
    { s with fills := s.fills ++ [{ f with since := (f.since / 16 + 1) * 16 }] }.addLate e 16
  else match s.spoke? e k with
    | none => s
    | some x =>
      let ready := s.setSpoke e k { x with hops := x.hops.map fun (h : HopRec) => if h.n = f.hop then { h with slotReady := true } else h }
      match s.slotOwner f.part f.slot with
      | none => { ready with residency := ready.residency ++ [(f.part, f.slot, f.owner)] }
      | some o =>
        if o = f.owner then ready
        else s.spokeFail e k x cSlotOwner 0 (((x.hops.find? fun h => decide (h.n = f.hop)).map (·.stepAddr)).getD x.at)

/-- Apply what reached the slots in one slot-cycle (R309): evictions first, then fills, the lower engine and the lower spoke first. -/
def State.slotCycle (s : State) (n : Nat) : State :=
  let inCycle (x : SlotReq) : Bool := decide (x.since / 16 = n)
  let ev := s.evictions.filter inCycle
  let fills := (s.fills.filter inCycle).mergeSort fun a b => decide (a.owner ≤ b.owner)
  let freed := s.residency.filter fun r => !(ev.any fun x => decide (x.part = r.1 ∧ x.slot = r.2.1 ∧ x.owner = r.2.2))
  fills.foldl (fun (s : State) f => s.applyFill ev f)
    { s with evictions := s.evictions.filter fun x => !inCycle x, fills := s.fills.filter fun x => !inCycle x, residency := freed }

/-- SLOT_CYCLE (R309): the slot-cycles of 16 cycles that are over, in order. -/
def execSlotCycle (s : State) : Out :=
  let due := ((s.evictions ++ s.fills).map (·.since / 16)).filter fun n => decide (n < s.now / 16)
  .next ((due.mergeSort fun a b => decide (a ≤ b)).eraseDups.foldl State.slotCycle s)

/-! ### Hops (R302 to R306) -/

/-- HOP (R302, R304, R308, R310, R311): the hop is issued when its window has room, and a leader's group hop when every member has released enough. -/
def execHop (e : Fin 4) (k : Fin 16) (s : State) : Out :=
  .next (s.spokeStep e.val k.val 1 fun x c s =>
    let into := stTo c
    let part := x.org.part.toNat
    let size := x.windows.toList.getD into 0
    let group := if stFrom c = 0 then x.groupOf into else none
    let paced : Bool := match group with
      | some g => decide (g.me = 0) && (match (g.rel.map (·.2)).min? with | some m => decide (size + m ≤ g.hops) | none => false)
      | none => false
    let slots := (slotOf c true).toList ++ (slotOf c false).toList
    if (group.map (·.aborted)).getD false then s.spokeFail e.val k.val x cMcastAbort 0 x.at
    else if slots.any fun n => !s.slotFits part n c then s.spokeFail e.val k.val x cBadStep 0 x.at
    else if size ≤ x.held into ∨ paced then s
    else
      let fill := slotOf c false
      let h : HopRec := {
        n := x.nextHop, step := c, stepAddr := x.at, origin := x.origin, slotReady := fill.isNone, readAt := x.readAt
        chained := if stFlag c 2 then some (x.nchained.toList.getD into 0) else none
        consumes := if stFlag c 4 then some (x.nconsumed.toList.getD (stFrom c) 0) else none
        group := group.map fun g => (g.id, g.hops)
        got := [], arrived := [], put := 0
        retried := false, moved := false, finished := false, released := false, issued := s.tbase.toNat }
      let counted (g : GroupMem) : GroupMem := if (group.map (·.id)) = some g.id ∧ g.tier = into then { g with hops := g.hops + 1 } else g
      let x := { x with
        hops := x.hops ++ [h], nextHop := x.nextHop + 1, index := x.index + 1, readAt := s.tbase.toNat
        nchained := if stFlag c 2 then x.nchained.set! into (x.nchained.toList.getD into 0 + 1) else x.nchained
        nconsumed := if stFlag c 4 then x.nconsumed.set! (stFrom c) (x.nconsumed.toList.getD (stFrom c) 0 + 1) else x.nconsumed
        groups := x.groups.map counted }
      let s := s.setSpoke e.val k.val x
      match fill with
      | some n => { s with fills := s.fills ++ [SlotReq.mk part n (16 * e.val + k.val) h.n s.now] }
      | none => s)

/-- How the accesses of a hop on one side go on. -/
inductive HopRes where
  | ok (s : State)
  | fail (cause : Cause) (addr : Nat) (s : State)
  | absent (addr : Nat) (s : State)
  | link (addr : Nat) (s : State)
  | hold (s : State)
deriving DecidableEq, Repr

/-- A row that the leader of a stream group has read goes to the other members (R310, R449); the rows that a retry reads again do not. -/
def State.forwardRow (s : State) (x : Spoke) (h : HopRec) (row : Row) : State :=
  match h.group with
  | some g => if x.follows h || h.retried then s else s.ropeSend ⟨none, 0, 0, 256, .shard g.1 g.2 h.got.length row⟩
  | none => s

/-- Read on the source rows of a hop, in order (R302, R354): what it has read stays with it. -/
def State.hopRead (s : State) (e : Nat) (x : Spoke) (h : HopRec) : List Nat → HopRec × HopRes
  | [] => (h, .ok s)
  | a :: t =>
    let va := decide (stFrom h.step ≤ 2)
    match s.hopSpot x.org (stFrom h.step) a 1 with
    | .fail c => (h, .fail c a s)
    | .absent => (h, .absent a s)
    | .link => (h, .link a s)
    | .hold => (h, .hold (s.wakeArray x.org va a))
    | .mem _ | .regs _ =>
      match s.engineRead x.org va a (.wheel e) with
      | .ok r s => (s.forwardRow x h r).hopRead e x { h with got := h.got ++ [r] } t
      | .fail c => (h, .fail c a s)
      | .absent => (h, .absent a s)
      | .link => (h, .link a s)
      | .hold s => (h, .hold s)

/-- Write on the destination rows of a hop, in ascending order: rows already written stay written (R302, R312). -/
def State.hopWrite (s : State) (e : Nat) (x : Spoke) (h : HopRec) : List (Nat × Row) → HopRec × HopRes
  | [] => (h, .ok s)
  | (a, r) :: t =>
    let va := decide (stTo h.step ≤ 2)
    match s.hopSpot x.org (stTo h.step) a 2 with
    | .fail c => (h, .fail c a s)
    | .absent => (h, .absent a s)
    | .link => (h, .link a s)
    | .hold => (h, .hold (s.wakeArray x.org va a))
    | .mem _ | .regs _ =>
      if s.inOwnSet x.org va a then (h, .fail cSetWrite a s)
      else match s.engineWrite x.org va a r fullMask (.wheel e) with
        | .ok _ s => s.hopWrite e x { h with put := h.put + 1 } t
        | .fail c => (h, .fail c a s)
        | .absent => (h, .absent a s)
        | .link => (h, .link a s)
        | .hold s => (h, .hold s)

/-- Whether an earlier hop of the spoke still has to access the done row of this one (R303). -/
def State.addBehind (s : State) (x : Spoke) (h : HopRec) (key : Nat) : Bool :=
  (x.before h).any fun o =>
    doneKey x o == some key || (!o.moved && (s.hopKeys x o false).contains key) || (!o.readOver && (s.hopKeys x o true).contains key)

/-- Bytes as rows. -/
def rowsOf (l : List Byte) : Nat → List Row
  | 0 => []
  | n + 1 => BitVec.ofNat 2048 (pack ((l.take 256).map fun b => (1, b.toNat))) :: rowsOf (l.drop 256) n

/-- Expected and computed checksum of a shard with its trailer (R305). -/
def shardSums (rows : List Row) : Nat × Nat :=
  let data := rows.dropLast
  let x := pack (data.map fun r => (256, r.toNat))
  (nbits ((rows.getLast?.map (·.toNat)).getD 0) 60 0, checksumFrom x 0 (32 * data.length) 0)

/-- Change a hop of a spoke. -/
def Spoke.modHop (x : Spoke) (n : Nat) (f : HopRec → HopRec) : Spoke := { x with hops := x.hops.map fun h => if h.n = n then f h else h }

/-- The chained shard that a hop consumes is released when the hop's read of it has ended (R304). -/
def State.releaseMaker (s : State) (e k : Nat) (x : Spoke) (h : HopRec) : State × Spoke :=
  match if h.readOver then x.maker h else none with
  | none => (s, x)
  | some m =>
    if m.released then (s, x)
    else
      let x := x.modHop m.n fun (y : HopRec) => { y with released := true }
      let s := (s.setSpoke e k x).noteRelease e k (stTo m.step)
      (s, (s.spoke? e k).getD x)

/-- The add to the done row of a hop whose rows are written (R302), in the order of its steps (R303): a row outside the windows of the task fails the
spoke. -/
def State.hopAdd (s : State) (e k : Nat) (x : Spoke) (h : HopRec) : State :=
  let a := stArg h.step * 256
  let done (s : State) : State := s.setSpoke e k (x.modHop h.n fun (y : HopRec) => { y with finished := true }).tidy
  if a = 0 then done s
  else if ((canonLocal x.org.quad a).map localKey).any (s.addBehind x h) then s
  else match s.spot x.org false a 2 with
    | .mem _ => (done s).doneAdd x.org a 1
    | .hold => s.wakeArray x.org false a
    | .fail c => s.spokeFail e k x (s.movedCause x.org x.began a c) a h.stepAddr
    | .regs _ | .absent | .link => s

/-- A hop has written its last row, verified (R302, R306): its lateness counts, and its done row gets its add. -/
def State.hopDone (s : State) (e k : Nat) (x : Spoke) (h : HopRec) : State :=
  let h := { h with moved := true, got := [], arrived := [] }
  let x := x.modHop h.n fun _ => h
  let s := s.setSpoke e k x
  let s := if stFlag h.step 1 then s.addLate e (s.now - (h.origin + 16 * stDeadline h.step)) else s
  (s.stamp x.org.part.toNat 4 x.org.job.toNat (h.stepAddr / 32) h.readAt h.issued (srcWheel e)).hopAdd e k x h

/-- A hop that does not go on now keeps what it has read and written (R293, R312). -/
def hopStops (e k : Nat) (x : Spoke) (h : HopRec) : HopRes → State
  | .ok t | .hold t => t.setSpoke e k (x.modHop h.n fun _ => h)
  | .fail c a s => s.spokeFail e k (x.modHop h.n fun _ => h) (s.movedCause x.org x.began a c) a h.stepAddr
  | .absent a s => (s.setSpoke e k (x.modHop h.n fun _ => h)).spokePark e k x h.n h.stepAddr a false
  | .link a s => (s.setSpoke e k (x.modHop h.n fun _ => h)).spokePark e k x h.n h.stepAddr a true

/-- The rows of a hop that have arrived at its destination port are written, from the first that is not (R302, R305). A mismatch of the destination check is
retried once, before the shard that the hop consumes is released. -/
def State.hopArrive (s : State) (e k : Nat) (x : Spoke) (h : HopRec) : State :=
  let r := s.releaseMaker e k (x.modHop h.n fun _ => h) h
  let s := r.1
  let x := r.2
  match s.hopWrite e x h (((s.hopRows x h false).zip h.arrived).drop h.put) with
  | (h, .ok s) =>
    let sums := shardSums h.arrived
    if stFlag h.step 0 ∧ sums.1 ≠ sums.2 then
      if h.retried then s.spokeFail e k x cChecksum 0 h.stepAddr ⟨1, sums.1, sums.2⟩
      else s.setSpoke e k (x.modHop h.n fun _ => { h with retried := true, got := [], arrived := [], put := 0 })
    else
      let r := s.releaseMaker e k (x.modHop h.n fun _ => { h with moved := true }) { h with moved := true }
      r.1.hopDone e k r.2 h
  | (h, r) => hopStops e k x h r

/-- Read the source of a hop and move it (R302, R305, R308): a source check with CHK is hop 0. -/
def State.hopMove (s : State) (e k : Nat) (x : Spoke) (h : HopRec) (corrupt : List Byte) : State :=
  let foreign := match slotOf h.step true with
    | some n => decide (s.slotOwner x.org.part.toNat n ≠ some (16 * e + k))
    | none => false
  if foreign then s.spokeFail e k x cSlotOwner 0 h.stepAddr
  else match s.hopRead e x h ((s.hopRows x h true).drop h.got.length) with
    | (h, .ok s) =>
      let sums := shardSums h.got
      if stFlag h.step 0 ∧ sums.1 ≠ sums.2 then s.spokeFail e k x cChecksum 0 h.stepAddr ⟨0, sums.1, sums.2⟩
      else s.hopArrive e k x
        { h with arrived := if stFlag h.step 0 && decide (corrupt.length = 256 * h.got.length) then rowsOf corrupt h.got.length else h.got }
    | (h, r) => hopStops e k x h r

/-- Whether another member of a hop's group has failed (R310). -/
def Spoke.groupFailed (x : Spoke) (h : HopRec) : Bool :=
  match h.group with
  | some g => x.groups.any fun y => y.aborted && decide (y.id = g.1 ∧ y.tier = stTo h.step)
  | none => false

/-- HOP_FINISH (R302 to R306, R310): hop `n` of a spoke reads its source and writes its destination; one that has done so adds to its done row. `data`
is the shard that a member of a stream group receives from its leader; `corrupt`, when a transmission error reached the destination port of a hop
with CHK, the rows that arrived there. -/
def execHopFinish (e : Fin 4) (k : Fin 16) (n : Nat) (data corrupt : List Byte) (s : State) : Out :=
  .next (match s.spoke? e.val k.val with
  | none => s
  | some x =>
    match x.hops.find? fun h => decide (h.n = n) && !h.finished with
    | none => s
    | some h =>
      if h.moved then s.hopAdd e.val k.val x h
      else if !s.hopReady e.val k.val x h then s
      else if !h.arrived.isEmpty then s.hopArrive e.val k.val x h
      else if x.follows h then
        if data.length = 256 * stRows h.step then s.hopArrive e.val k.val x { h with arrived := rowsOf data (stRows h.step) }
        else if x.groupFailed h then s.spokeFail e.val k.val x cMcastAbort 0 h.stepAddr else s
      else if x.groupFailed h then s.spokeFail e.val k.val x cMcastAbort 0 h.stepAddr
      else if s.readHeld e.val k.val x n then s
      else s.hopMove e.val k.val x h corrupt)

end Sys2Proof.Machine
end

