-- ==== Sys2Proof/Machine/Moves.lean ====
section
/-!
DEFINITION. Moves: quads that change partition (R72 to R74, R332, R366), Big Top segments that change owner (R295), and argument reads, root
additions and other accesses that resume (R293).
-/
namespace Sys2Proof.Machine

/-- Zero local memory from a key on, and re-test what watches it (R74, R295, R332). -/
def State.zeroRange (s : State) (lo n : Nat) : State :=
  let inside := fun a => decide (lo ≤ a ∧ a < lo + n)
  let seen := s.quads.flatMap fun e =>
    (e.2.monitor.filter fun m => inside m.addr).map fun m => Instr.monitorRetest (Fin.ofNat 32 e.1) m.id
  ({ s with
    mem := ⟨s.mem.cells.filter fun c => !inside c.1, s.mem.poison.filter fun a => !inside a⟩
    heldWrites := s.heldWrites.filter fun w => !inside (localKey w.addr) }).first seen

/-- Give back the unstarted records of the chunks that a quad's contexts hold, each as one returned chunk (R73). -/
def State.returnChunks (s : State) (q : Nat) : State :=
  ((List.range 32).map (q * 32 + ·)).foldl (fun (s : State) k =>
    let c := s.ctx k
    let reads (job : Nat) : Bool := decide (c.life = .running ∧ c.wait = .argument ∧ c.logical = 0xFF ∧ c.job.toNat = job)
    let s := c.chunks.foldl (fun (s : State) e =>
      let lo := if reads e.1 then e.2.1 + 1 else e.2.1
      s.modJob e.1 fun j => if lo < e.2.2 then { j with returned := j.returned ++ [(lo, e.2.2)] } else j) s
    s.modCtx k fun c => { c with chunks := (c.chunks.filter fun e => reads e.1).map fun e => (e.1, e.2.1, e.2.1 + 1) }) s

/-- Record the move of a quad to a partition (R72). -/
def State.recordMove (s : State) (q part : Nat) : State :=
  if (s.quad q).zeroEnd.isSome then
    if part = s.quadPart q then s else s.modQuad q fun x => { x with nextMove := some (BitVec.ofNat 4 part) }
  else if s.quadMoving q then
    if part = s.quadPart q then
      ((s.setFld .quadpart q 4 4 0).setFld .quadpart q 11 8 0).modQuad q fun x => { x with moveAt := none }
    else s.setFld .quadpart q 11 8 part
  else if part = s.quadPart q then s
  else
    (((s.setFld .quadpart q 4 4 1).setFld .quadpart q 11 8 part).modQuad q fun x => { x with moveAt := some s.now }).returnChunks q

/-- RESIZE_TIMEOUT (R73): RESWAIT cycles after the move was recorded, the contexts that still run are pre-empted and saved; teams are stopped. -/
def execResizeTimeout (quad : Fin 32) (s : State) : Out :=
  let q := quad.val
  let wait := s.fld .presize (s.quadPart q) 31 0
  .next (match (s.quad q).moveAt with
  | none => s
  | some at_ =>
    if s.quadMoving q = false ∨ wait = 0 ∨ s.now < at_ + wait then s
    else ((List.range 32).map (q * 32 + ·)).foldl (fun (s : State) k =>
      let c := s.ctx k
      if c.life = .free then s else if c.logical ≠ 0xFF then s.stopTeam c.job.toNat else s.preempt k) s)

/-- Fail the parked spokes that a quad has started (R293, R312). -/
def State.failSpokes (s : State) (q : Nat) : State :=
  s.parked.foldl (fun (s : State) p => match p.work with
    | .spoke e k _ step => match s.spoke? e k with
      | some x => if x.org.quad = q ∧ p.link = false then s.spokeFail e k x cPartMoved p.va step else s
      | none => s
    | _ => s) s

/-- Fail the copies and tile tasks of a quad that a move cuts off (R253, R280), and the parked spokes that it has started. Copies of other quads fail at their
next access to it (R74). -/
def State.failMoved (s : State) (q : Nat) : State :=
  let own := s.quad q
  let s := (s.failSpokes q)
  let s := own.copies.foldl (fun (s : State) c => s.copyFailNow q c ⟨cPartMoved, 0, c.row / cpUnits c.cmd, 0, 0, 0⟩) s
  (own.tiles ++ own.arrays.toList.filterMap (·.task)).foldl (fun (s : State) t => s.tileFail q t cPartMoved 0) s

/-- Move the written-out records of a quad's monitor table to the lowest quad of its old partition with a free entry, or leave them to the
Organ (R332), with the POLLGAP of the quad that they leave (DEDUCED; log 16). -/
def State.moveMonitors (s : State) (part : Nat) : List MonEntry → State
  | [] => s
  | e :: t =>
    match (List.range 32).find? fun q => decide (s.quadPart q = part ∧ (s.quad q).monitor.length < 64) with
    | some q => ((s.modQuad q fun x => { x with monitor := x.monitor ++ [e] }).showMonitor q).moveMonitors part t
    | none => { s with monDuty := s.monDuty ++ [{ e with next := s.now + e.gap }] }.moveMonitors part t

/-- The registers of a quad that return to their reset values at its move (R295, R333). -/
def MReg.ofQuad (r : MReg) (q : Nat) : Bool := decide (r.i = q ∧ (r.fam = .qpool ∨ r.fam = .duptag ∨ r.fam = .moncfg ∨ r.fam = .monstat))

/-- A quad and its cores after the zeroing of R74: every register and table at reset, the retention of its scratchpad apart; it has left a partition. -/
def State.resetQuad (s : State) (q part : Nat) : State :=
  let s := s.modQuad q fun x =>
    { Quad.reset with retain := x.retain, gone := (x.gone.filter fun e => decide (e.1 ≠ part)) ++ [(part, s.tbase.toNat)] }
  { s with
    ctxs := s.ctxs.filter fun e => decide (quadOf e.1 ≠ q)
    cores := s.cores.map fun (e : Nat × Core) => if e.1 / 4 = q then (e.1, { Core.reset with lastStamp := e.2.lastStamp }) else e
    cycleSets := s.cycleSets.filter fun e => !e.1.ofQuad q
    mmio := s.mmio.filter fun e => !e.1.ofQuad q }

/-- Unsplit jobs of a partition are split once it holds a core (R52): at QUAD_MOVE, when the quad belongs to its target by R72 (DESIGN CHOICE: the list of
what each step holds names QUAD_ZERO_END; log 16). -/
def State.splitWaiting (s : State) (part : Nat) : State :=
  (s.jobs.filter fun e => e.2.unsplit && decide (e.2.part = part)).foldl (fun (s : State) e => s.dealSplit e.1) s

/-- QUAD_MOVE (R73, R74, R366): every context of a MOVING quad is free, and what they have sent to its counter unit is performed (R228). Holders whose journal lies on the quad are rolled back first; then the quad
belongs to its target, what the old partition had under way there fails, and the zeroing runs for 1,024 cycles. -/
def execQuadMove (quad : Fin 32) (s : State) : Out :=
  let q := quad.val
  let free := ((List.range 32).map (q * 32 + ·)).all fun k => decide ((s.ctx k).life = .free)
  .next (if s.quadMoving q = false ∨ (s.quad q).zeroEnd.isSome ∨ free = false ∨ (s.quad q).rcOps.isEmpty = false then s
  else
    let old := s.quadPart q
    let target := s.fld .quadpart q 11 8
    let homed := s.journals.filter fun e => decide (e.2.quad = q)
    let s := homed.foldl (fun (s : State) e => if e.2.granules.isEmpty then s.disarm e.1 else s.rollback e.1 true) s
    let s := s.returnChunks q
    let records := ((s.quad q).monitor.filter fun m => m.record.isSome).map fun (m : MonEntry) => { m with gap := s.pollGap q }
    let s := s.modQuad q fun x => { x with zeroEnd := some (s.now + 1024), monitor := [] }
    let s := (s.failMoved q).moveMonitors old records
    let s := (s.resetQuad q old).zeroRange (localKey (0x1000000000 + q * 0x1000000)) 0x1000000
    ((s.modQuad q fun x => { x with zeroEnd := some (s.now + 1024) }).modDie (q / 8) fun d => { d with tcache := [] }).splitWaiting target)

/-- QUAD_ZERO_END (R72, R74): QUADPART shows the new partition, an event is posted, and a move recorded meanwhile begins: RESWAIT counts for it
from now (DESIGN CHOICE: R73 counts from the recording, R72 lets the move begin here; log 16). -/
def execQuadZeroEnd (quad : Fin 32) (s : State) : Out :=
  let q := quad.val
  .next (match (s.quad q).zeroEnd with
  | none => s
  | some t =>
    if s.now < t then s
    else
      let part := s.quadPart q
      let next := (s.quad q).nextMove
      let s := ((s.setFld .quadpart q 3 0 part).setFld .quadpart q 4 4 0).setFld .quadpart q 11 8 0
      let s := (s.modQuad q fun x => { x with zeroEnd := none, nextMove := none, moveAt := none }).flushWrites.settle
      let s := s.postEvent { src := srcOrgan (Config.organCore 0).val, kind := 5, item := q }
      match next with
      | some p => s.recordMove q p.toNat
      | none => s)

/-- A write of BTOWN_n (R295): each segment whose owner changes is zeroed, and held for 128 cycles. -/
def State.writeBtown (s : State) (n : Nat) (v : Word) : State :=
  let d := n / 4
  let changed := (List.range 16).filter fun k => decide (nbits v.toNat (4 * k + 3) (4 * k) ≠ s.fld .btown n (4 * k + 3) (4 * k))
  let s := s.setReg ⟨.btown, n⟩ v
  changed.foldl (fun (s : State) k =>
    let seg := 16 * (n % 4) + k
    (s.modDie d fun x => { x with segZero := tset x.segZero seg (s.now + 128) }).zeroRange
      (localKey (0x2000000000 + d * 0x20000000 + seg * 0x800000)) 0x800000) s

/-- BTOWN_WRITE (R47, R295). -/
def execBtownWrite (agent : Nat) (n : Fin 16) (value : BitVec 64) (s : State) : Out :=
  .next (s.ownerWrite agent fun s => s.writeBtown n.val value)

/-- BTOWN_ZERO_END (R295): the zeroing of a segment ends, and what was held goes on. -/
def execBtownZeroEnd (die : Fin 4) (seg : Fin 64) (s : State) : Out :=
  .next (match tget (s.die die.val).segZero seg.val with
  | none => s
  | some t => if s.now < t then s else (s.modDie die.val fun x => { x with segZero := terase x.segZero seg.val }).flushWrites.settle)

end Sys2Proof.Machine
end

