-- ==== Sys2Proof/Machine/Organ.lean ====
section
/-!
DEFINITION. Organ: the command queues (R35 to R44), the packets (R38 to R40, R43, R72, R81, R292, R314) and the administrative window (R37).
-/
namespace Sys2Proof.Machine

/-! ### Queues -/

/-- HEAD of a queue. -/
def State.headOf (s : State) (n : Nat) : Nat := s.fld .qstat n 31 0

/-- A field of a packet. -/
def pkField (p : BitVec 512) (o n : Nat) : Nat := nbytes p.toNat o n

/-- The tick of the doorbell that made a packet visible (R421). -/
def CmdQueue.bellOf (q : CmdQueue) (index : Nat) : Nat :=
  ((q.bells.find? fun b => decide ((b.1 + 2 ^ 32 - (index + 1)) % 2 ^ 32 < 2 ^ 31)).map (·.2)).getD 0

/-- A packet is consumed (R35): HEAD passes it, and HEAD is written to the word at HEADADDR. -/
def State.consume (s : State) (n : Nat) : State :=
  match tget s.queues n with
  | none => s
  | some q =>
    let head := (s.headOf n + 1) % 2 ^ 32
    let bells := q.bells.filter fun b => decide (b.1 ≠ head)
    let s := { (s.setFld .qstat n 31 0 head) with queues := tset s.queues n { q with busy := none, bells := bells } }
    s.organWrite n q.part.toNat q.headAddr 8 head

/-- A packet is complete (R38, R39, R421): it is consumed, and stamped when it asks for it, or when its partition stamps packets and it is no
LAUNCH. -/
def State.packetDone (s : State) (n : Nat) (p : BitVec 512) (job started : Nat) : State :=
  match tget s.queues n with
  | none => s
  | some q =>
    let index := s.headOf n
    let bell := q.bellOf index
    let s := s.consume n
    let wanted := decide (pkField p 1 1 % 2 = 1) || (decide (pkField p 0 1 ≠ 1) && decide (s.fld .pstamp q.part.toNat 0 0 = 1))
    if wanted then
      s.postEvent { src := srcOrgan (n % 4), kind := 4, item := job % 4096 * 256 + (n * 2 ^ 32 + index) * 2 ^ 20, tenq := bell, tstart := started }
    else s

/-- A packet stops its queue (R41): it counts as consumed. -/
def State.packetStop (s : State) (n cause subcode faddr packet : Nat) : State :=
  let index := s.headOf n
  (s.consume n).stopQueue n cause subcode index faddr packet

/-- The copy of the packet at the head of a queue (R42): zero when it cannot be read. -/
def State.packetCopy (s : State) (n : Nat) : Nat :=
  match tget s.queues n with
  | none => 0
  | some q => match s.spotQ n q.part.toNat (q.base + s.headOf n % q.entries * 64) 1 with
    | .mem k => if s.mem.poisoned k then 0 else s.mem.readLe k 64
    | .regs _ | .fail _ | .absent | .link | .hold => 0

/-- What a packet comes to: it is complete, it has started, it stops its queue, or it waits at the head. -/
inductive PacketRes where
  | done (job : Nat) (s : State)
  | started (s : State)
  | stop (cause subcode faddr : Nat)
  | wait (s : State)
  | link (addr : Nat)
deriving DecidableEq, Repr

/-- Whether bytes from `o` on are all zero. -/
def zeroFrom (p : BitVec 512) (o : Nat) : Bool := decide (pkField p o (64 - o) = 0)
/-- A power of two within limits. -/
def powerIn (n lo hi : Nat) : Bool := decide (lo ≤ n ∧ n ≤ hi) && (List.range 33).any fun i => decide (n = 2 ^ i)
/-- Bytes of a page of a MAP or an UNMAP. -/
def pkPage (p : BitVec 512) : Nat := if pkField p 29 1 = 1 then 2 ^ 30 else 2 ^ 17

/-- Whether a QUEUE_CREATE payload breaks its limits (R39, R43). -/
def badCreate (p : BitVec 512) : Bool :=
  !(powerIn (pkField p 16 4) 16 65536 && decide (pkField p 20 2 < 1024 ∧ pkField p 22 1 < 16 ∧ pkField p 23 1 = 0) &&
    powerIn (pkField p 40 4) 4 (2 ^ 31) && zeroFrom p 52)

/-- Whether bytes 1 to 7, or the payload of a packet, break their limits (R38, R39, R43, R72, R292, R314). -/
def badPacket (p : BitVec 512) : Bool :=
  decide (1 < pkField p 1 1) || decide (pkField p 2 6 ≠ 0) ||
  (match pkField p 0 1 with
   | 0 => !zeroFrom p 8
   | 1 => decide (pkField p 8 8 % 128 ≠ 0) || !zeroFrom p 16
   | 2 => decide (pkField p 16 4 % 4096 ≠ 0 ∨ 2 ^ 24 < pkField p 16 4) || !zeroFrom p 21
   | 3 => decide (1 < pkField p 29 1 ∨ pkField p 8 8 % pkPage p ≠ 0 ∨ pkField p 16 8 % pkPage p ≠ 0 ∨ 2 ^ 56 ≤ pkField p 8 8 ∨ 8 ≤ pkField p 28 1) ||
      !zeroFrom p 30
   | 4 => decide (1 < pkField p 29 1 ∨ pkField p 8 8 % pkPage p ≠ 0 ∨ 2 ^ 56 ≤ pkField p 8 8 ∨ pkField p 16 8 ≠ 0 ∨ pkField p 28 1 ≠ 0) ||
      !zeroFrom p 30
   | 5 => decide (pkField p 8 8 % 8 ≠ 0) || !zeroFrom p 24
   | 6 => decide (pkField p 8 8 % 8 ≠ 0 ∨ 3 < pkField p 24 1) || !zeroFrom p 25
   | 7 => decide (15 < pkField p 12 1) || !zeroFrom p 13
   | 8 => badGather p
   | _ => badCreate p)

/-- Run the packet at the head of a queue when its kind is wanted (R39, R43): the checks in their order, then its effect. A slot whose ring does not start
on a multiple of 64 may cross a row or a page: its bytes are read on from the translation of the first, whose row alone is tested for poison (DESIGN CHOICE:
R35 states no alignment of BASE; log 16). A packet that cannot be read
stops the queue whatever is wanted, and an unknown kind belongs to NOP_PACKET. -/
def State.runPacket (s : State) (n : Nat) (want : Nat → Bool) (f : CmdQueue → BitVec 512 → State → PacketRes) : State :=
  match tget s.queues n with
  | none => s
  | some q =>
    if s.running = false ∨ s.live n = false ∨ s.fld .qstat n 33 33 = 1 ∨ q.busy.isSome ∨ s.headOf n = s.fld .qdb n 31 0 then s
    else if s.parked.any fun x => decide (x.work = ParkWork.packet n) then s
    else
      let part := q.part.toNat
      let at_ := q.base + s.headOf n % q.entries * 64
      match s.spotQ n part at_ 1 with
      | .link => s.parkLink part at_ (.packet n)
      | .absent | .fail _ | .regs _ | .hold => s.packetStop n qAddrFault 0 at_ 0
      | .mem k =>
        if s.mem.poisoned k then s.packetStop n qPoison 0 at_ 0
        else
          let p : BitVec 512 := BitVec.ofNat 512 (s.mem.readLe k 64)
          let kind := pkField p 0 1
          if !want (if 9 < kind then 0 else kind) then s
          else if 9 < kind then s.packetStop n qBadKind 0 0 p.toNat
          else if 7 ≤ kind ∧ n ≠ 0 then s.packetStop n qNotOwner 0 0 p.toNat
          else if badPacket p then s.packetStop n qBadReserved 0 0 p.toNat
          else match f q p s with
            | .done job s' => s'.packetDone n p job s.tbase.toNat
            | .started s' => { s' with queues := s'.queues.map fun (e : Nat × CmdQueue) =>
                if e.1 = n then (n, { e.2 with busy := some p, startedAt := s.tbase.toNat }) else e }
            | .stop c sub a => s.packetStop n c sub a p.toNat
            | .wait s => s
            | .link a => s.parkLink part a (.packet n) 8

/-- NOP_PACKET (R39), and packets of an unknown kind (R43). -/
def execNopPacket (q : Fin 1024) (s : State) : Out := .next (s.runPacket q.val (fun k => decide (k = 0)) fun _ _ s => .done 0 s)

/-- The LAUNCH packet (R40, R49, R50): its card is read and checked, and its job starts; without a free slot it waits. -/
def launchPacket (n : Nat) (q : CmdQueue) (p : BitVec 512) (s : State) : PacketRes :=
  let a := pkField p 8 8
  match s.spotQ n q.part.toNat a 1 with
  | .link => .link a
  | .absent | .fail _ | .regs _ | .hold => .stop qAddrFault 0 a
  | .mem k =>
    if s.mem.poisoned k then .stop qPoison 0 a
    else
      let card : BitVec 1024 := BitVec.ofNat 1024 (s.mem.readLe k 128)
      match s.checkCard (if n = 0 then none else some q.part.toNat) card with
      | .bad c sub f => .stop c sub f
      | .badArgs f => .stop qAddrFault 0 f
      | .wait va => .link va
      | .ok => match s.startJob card a with
        | .started job s => .done job s
        | .wait s => .wait s

/-- LAUNCH_PACKET (R49). -/
def execLaunchPacket (q : Fin 1024) (s : State) : Out := .next (s.runPacket q.val (fun k => decide (k = 1)) (launchPacket q.val))

/-- IMAGE (R39, R81): registers a code image, and invalidates the frames of the one it replaces. -/
def execImage (q : Fin 1024) (s : State) : Out :=
  .next (s.runPacket q.val (fun k => decide (k = 2)) fun x p s =>
    let id : BitVec 8 := BitVec.ofNat 8 (pkField p 20 1)
    let keep (c : Core) : Core := { c with frames := c.frames.filter fun f => !decide (f.part = x.part ∧ f.image = id) }
    .done 0 { s with
      images := tset s.images (imageKey x.part.toNat id) ⟨pkField p 8 8, pkField p 16 4, decide (q.val = 0)⟩
      cores := s.cores.map fun e => (e.1, keep e.2) })

/-- The mapped ranges of device physical addresses (R289). -/
def physRanges : List (Nat × Nat) :=
  [(0, 0x3000000000), (0x10000000000, 0x20000000000), (0x30000000000, 0x30200000000), (0x4000000000000, 0x10000000000000)]

/-- What the MAPs that have started and are not complete will map: partition, VA, PA and bytes. -/
def State.mapsUnderWay (s : State) : List (Nat × Nat × Nat × Nat) :=
  s.queues.filterMap fun e => e.2.busy.bind fun p =>
    if pkField p 0 1 = 3 then some (e.2.part.toNat, pkField p 8 8, pkField p 16 8, pkField p 24 4 * pkPage p) else none

/-- The address for which a MAP is refused (R292): a page mapped at that VA already, a VA or PA outside its space, or a page of HBM or LPDDR mapped in
another partition. The pages of a MAP under way on another queue count as mapped: it has passed its checks, and maps all of them. -/
def State.mapFault (s : State) (part : Nat) (p : BitVec 512) : Option Nat :=
  let va := pkField p 8 8
  let pa := pkField p 16 8
  let len := pkField p 24 4 * pkPage p
  if len = 0 then none
  else if 2 ^ 56 < va + len then some va
  else
    let l := (s.pages.map fun x => (x.part.toNat, x.va, x.pa, x.bytes)) ++ s.mapsUnderWay
    match l.find? fun x => decide (x.1 = part ∧ x.2.1 < va + len ∧ va < x.2.1 + x.2.2.2) with
    | some x => some (max va x.2.1)
    | none =>
      if !(physRanges.any fun r => decide (r.1 ≤ pa ∧ pa + len ≤ r.2)) then some pa
      else if pa < 0x20000000000 ∧ (l.any fun x => decide (x.1 ≠ part ∧ x.2.2.1 < pa + len ∧ pa < x.2.2.1 + x.2.2.2)) then some pa
      else none

/-- MAP (R292): every page is checked before any is zeroed or mapped. -/
def execMap (q : Fin 1024) (s : State) : Out :=
  .next (s.runPacket q.val (fun k => decide (k = 3)) fun x p s =>
    match s.mapFault x.part.toNat p with
    | some a => .stop qAddrFault 0 a
    | none => if pkField p 24 4 = 0 then .done 0 s else .started s)

/-- UNMAP (R292). -/
def execUnmap (q : Fin 1024) (s : State) : Out :=
  .next (s.runPacket q.val (fun k => decide (k = 4)) fun _ p s => if pkField p 24 4 = 0 then .done 0 s else .started s)

/-- The packet that has started on a queue completes, unless what it has to wait for has just been asked for, which `f` then answers as an error. -/
def State.busyPacket (s : State) (n kind : Nat) (f : CmdQueue → BitVec 512 → State → Except State State) : State :=
  match tget s.queues n with
  | none => s
  | some q => match q.busy with
    | none => s
    | some p => if pkField p 0 1 = kind then (match f q p s with
      | .ok s => s.packetDone n p 0 q.startedAt
      | .error s => s) else s

/-- The physical pages of a span that another partition mapped last (R294). -/
def State.foreignPages (s : State) (part : BitVec 4) (pa len : Nat) : List (Nat × BitVec 4) :=
  s.pageOwner.filter fun e => decide (pa < 0x20000000000 ∧ pa / 2 ^ 17 ≤ e.1 ∧ e.1 < pa / 2 ^ 17 + len / 2 ^ 17 ∧ e.2 ≠ part)

/-- Zero the physical pages that another partition mapped last, and record who maps them now (R294). -/
def State.claimPages (s : State) (part : BitVec 4) (pa len : Nat) : State :=
  let lo := pa / 2 ^ 17
  let n := len / 2 ^ 17
  let s := (s.foreignPages part pa len).foldl (fun (s : State) e => s.zeroRange (e.1 * 2 ^ 17) (2 ^ 17)) s
  { s with pageOwner := (s.pageOwner.filter fun e => !decide (lo ≤ e.1 ∧ e.1 < lo + n)) ++ (List.range n).map fun i => (lo + i, part) }

/-- Whether page `i` of a MAP is one of 16 that one translation entry serves (R290): its aligned 2 MiB lie inside the MAP. -/
def mergedPage (va size count i : Nat) : Bool :=
  let base := (va + i * size) / 2 ^ 21 * 2 ^ 21
  decide (size = 2 ^ 17 ∧ va ≤ base ∧ base + 2 ^ 21 ≤ va + count * size)

/-- MAP_COMPLETE (R292 to R294): the pages are zeroed where another partition mapped them last, once the host has given back the lines of theirs that it may
hold (R424), the translations are published, and what is parked on them resumes. -/
def execMapComplete (q : Fin 1024) (s : State) : Out :=
  .next (s.busyPacket q.val 3 fun x p s =>
    let va := pkField p 8 8
    let pa := pkField p 16 8
    let size := pkPage p
    let count := pkField p 24 4
    let held := (s.foreignPages x.part pa (count * size)).flatMap fun e => s.linesHeld (e.1 * 2 ^ 17) (2 ^ 17)
    if !held.isEmpty then .error (s.snoop held)
    else
      let s := if pa < 0x20000000000 then s.claimPages x.part pa (count * size) else s
      let new := (List.range count).map fun i =>
        PageMap.mk x.part (va + i * size) (pa + i * size) (decide (size = 2 ^ 30)) (BitVec.ofNat 8 (pkField p 28 1)) (mergedPage va size count i)
      let woken := s.parked.filter fun (y : Parked) => !y.link && decide (y.part = x.part ∧ va ≤ y.va ∧ y.va < va + count * size)
      .ok (({ s with pages := s.pages ++ new }).first (woken.map fun (y : Parked) => Instr.parkResume y.id)))

/-- UNMAP_COMPLETE (R292): the translations of the pages are gone from the tables and from every cache, once no access that has been translated through
them is under way. A translation entry that served a page with others goes with it. -/
def execUnmapComplete (q : Fin 1024) (s : State) : Out :=
  .next (s.busyPacket q.val 4 fun x p s =>
    let va := pkField p 8 8
    let len := pkField p 24 4 * pkPage p
    let gone (y : PageMap) : Bool := decide (y.part = x.part ∧ va ≤ y.va ∧ y.va < va + len ∧ y.bytes = pkPage p)
    let l := s.pages.filter gone
    if l.any fun y => !(s.underWay x.part.toNat y.va y.bytes).isEmpty then .error s
    else
      let split (y : PageMap) : PageMap := if y.merged && l.any fun g => g.merged && decide (g.entry = y.entry) then { y with merged := false } else y
      .ok ({ s with pages := (s.pages.filter fun y => !gone y).map split }.dropTranslations fun t => l.any fun y => t.hits y.part.toNat y.va y.bytes))

/-- FLAG_WRITE (R36, R39, R430). -/
def execFlagWrite (q : Fin 1024) (s : State) : Out :=
  .next (s.runPacket q.val (fun k => decide (k = 5)) fun x p s =>
    let a := pkField p 8 8
    let part := x.part.toNat
    match s.spotQ q.val part a 2 8 with
    | .mem k => .done 0 (s.storeBytes k 8 (pkField p 16 8))
    | .regs off => if q.val ≠ 0 ∧ s.engineMayWrite part off then .done 0 (s.writeAt part 8 (pkField p 16 8) (.regs off)) else .stop qAddrFault 0 a
    | .link => .link a
    | .absent | .fail _ | .hold => .stop qAddrFault 0 a)

/-- The FLAG_WAIT packet (R39, R40): a word whose test fails leaves it at the head. -/
def flagWait (n : Nat) (q : CmdQueue) (p : BitVec 512) (s : State) : PacketRes :=
  let a := pkField p 8 8
  let part := q.part.toNat
  let test (w : Word) (s : State) : PacketRes :=
    if waitTest w (BitVec.ofNat 64 (pkField p 16 8)) (Fin.ofNat 4 (pkField p 24 1)) then .done 0 s else .wait s
  match s.spotQ n part a 1 with
  | .mem k => if s.mem.poisoned k then .stop qPoison 0 a else test (s.mem.word k) s
  | .regs off =>
    if n = 0 then .stop qAddrFault 0 a
    else match s.readSpot part (.regs (off / 256 * 256)) with
      | .ok row s => test (BitVec.ofNat 64 (nbytes row.toNat (off % 256) 8)) s
      | _ => .stop qAddrFault 0 a
  | .link => .link a
  | .absent | .fail _ | .hold => .stop qAddrFault 0 a

/-- FLAG_WAIT (R39). -/
def execFlagWait (q : Fin 1024) (s : State) : Out := .next (s.runPacket q.val (fun k => decide (k = 6)) (flagWait q.val))

/-- PACKET_RETRY (R40): a LAUNCH or a FLAG_WAIT that waits at the head is tried again. -/
def execPacketRetry (q : Fin 1024) (s : State) : Out :=
  .next (s.runPacket q.val (fun k => decide (k = 1 ∨ k = 6)) fun x p s =>
    if pkField p 0 1 = 1 then launchPacket q.val x p s else flagWait q.val x p s)

/-- PART_RESIZE (R72). -/
def execPartResize (q : Fin 1024) (s : State) : Out :=
  .next (s.runPacket q.val (fun k => decide (k = 7)) fun _ p s =>
    let quads := (List.range 32).filter fun i => (pkField p 8 4).testBit i
    .done 0 (quads.foldl (fun (s : State) i => s.recordMove i (pkField p 12 1)) s))

/-- GATHER_CFG (R314). -/
def execGatherCfg (q : Fin 1024) (s : State) : Out :=
  .next (s.runPacket q.val (fun k => decide (k = 8)) fun _ p s => .done 0 (s.gatherConfig p))

/-- Create a queue and its sibling ring from a QUEUE_CREATE packet (R35, R39, R41): its registers start at their reset values. -/
def State.createQueue (s : State) (p : BitVec 512) : State :=
  let n := pkField p 20 2
  let q : CmdQueue := ⟨pkField p 8 8, pkField p 16 4, BitVec.ofNat 4 (pkField p 22 1), pkField p 24 8, pkField p 32 8, pkField p 40 4, pkField p 44 8, 0,
    none, [], 0, []⟩
  let s := { s with queues := tset s.queues n q }
  (((s.setReg ⟨.qstat, n⟩ 0).setReg ⟨.qdb, n⟩ 0).setReg ⟨.qsib, n⟩ 0).setFld .qstat n 32 32 1

/-- QUEUE_CREATE (R39, R43). -/
def execQueueCreate (q : Fin 1024) (s : State) : Out :=
  .next (s.runPacket q.val (fun k => decide (k = 9)) fun _ p s =>
    if pkField p 20 2 = 0 ∨ s.live (pkField p 20 2) then .stop qExists 0 0 else .done 0 (s.createQueue p))

/-! ### Doorbells, restarts and the administrative window -/

/-- Ring the doorbell of a queue (R35): dropped when the queue does not exist or the module is in recovery (R432); an overrun stops the queue. -/
def State.ring (s : State) (n : Nat) (tail : BitVec 32) : State :=
  match tget s.queues n with
  | none => s
  | some q =>
    if s.running = false ∨ s.live n = false then s
    else if q.entries < (tail.toNat + 2 ^ 32 - s.headOf n) % 2 ^ 32 then s.stopQueue n qOverrun 0 (s.headOf n) 0 0
    else { (s.setFld .qdb n 31 0 tail.toNat) with queues := tset s.queues n { q with bells := q.bells ++ [(tail.toNat, s.tbase.toNat)] } }

/-- QUEUE_DOORBELL (R35, R36, R430): QDB_0 is the ringmaster's. -/
def execQueueDoorbell (agent : Nat) (q : Fin 1024) (tail : BitVec 32) (s : State) : Out :=
  .next (if q.val = 0 then s.ownerWrite agent fun s => s.ring 0 tail else s.ring q.val tail)

/-- A write of QSTAT_n (R41, R44): RESTART clears STOPPED. -/
def State.restart (s : State) (n : Nat) (v : Word) : State := if v.getLsbD 34 then s.clearBits ⟨.qstat, n⟩ 0x200000000 else s

/-- QUEUE_RESTART (R41, R430). -/
def execQueueRestart (agent : Nat) (q : Fin 1024) (value : BitVec 64) (s : State) : Out :=
  .next (if q.val = 0 then s.ownerWrite agent fun s => s.restart 0 value else if s.hears agent then s.restart q.val value else s)

/-- Act on the packet of the administrative window (R37). -/
def State.adminCreate (s : State) : State :=
  let p : BitVec 512 := BitVec.ofNat 512 (pack ((List.range 8).map fun w => (8, (s.reg ⟨.admqcreate, w⟩).toNat)))
  let refuse (cause : Nat) : State := (s.raise .admqstat 0 1).setFld .admqstat 0 15 8 cause
  if s.running = false then s
  else if pkField p 0 1 ≠ 9 then refuse qBadKind
  else if pkField p 1 7 ≠ 0 ∨ pkField p 20 2 ≠ 0 ∨ badCreate p then refuse qBadReserved
  else if s.live 0 then refuse qExists
  else (s.createQueue p).raise .admqstat 0 0

/-- ADMQCREATE (R37, R47): a write of word 0 of the window, which acts. -/
def execAdmqcreate (agent : Nat) (value : BitVec 64) (s : State) : Out :=
  .next (s.ownerWrite agent fun s => (s.setReg ⟨.admqcreate, 0⟩ value).adminCreate)

/-- OWNER_LINK_RESET (R47): a reset of the owning agent's link makes OWNER vacant. -/
def execOwnerLinkReset (s : State) : Out := .next (if s.vacant then s else s.changeOwner none)

end Sys2Proof.Machine
end

