-- ==== Sys2Proof/Machine/Soft.lean ====
section
/-!
DEFINITION. Soft: the watchdog (R398), ECC errors (R412) and retention (R413).
-/
namespace Sys2Proof.Machine

/-- WATCHDOG (R391, R398): at a bundle boundary of a context whose count has run out. One that waits inside a bundle's effect takes the trap when that
wait has ended. -/
def execWatchdog (core : Fin 128) (ctx : Fin 8) (s : State) : Out :=
  let key := core.val * 8 + ctx.val
  .next (match (s.ctx key).wait with
  | .none | .fetch _ => if s.watchdogDue key then s.watchdogTrap key else s
  | .suspend _ | .barrier _ _ | .arm | .pool | .lock _ | .word _ _ _ _ | .drain _ | .tlb _ | .argument | .release => s)

/-! ### ECC errors -/

/-- Whether a key of memory lies on the package, under its ECC (R412). -/
def onPackage (k : Nat) : Bool := decide (k < 0x20000000000 ∨ (2 ^ 52 ≤ k ∧ k < 2 ^ 52 + 2 ^ 40))

/-- A queue cell read with an uncorrectable error counts as a poisoned row (R412): its tile record or copy command fails, and a channel element is
poisoned; which row it names is a free value (log 3). So is the row of an entry of a base-die queue (R342). -/
def State.badCell (s : State) (q id : Nat) : State :=
  let x := s.quad q
  match (x.tiles ++ x.arrays.toList.filterMap (·.task)).find? fun t => decide (t.id = id), x.copies.find? fun c => decide (c.id = id) with
  | some t, _ => s.tileFail q t cPoison 0
  | none, some c => s.copyFail q c cPoison 0 (c.row / cpUnits c.cmd) 0 0 0
  | none, none =>
    let f := s.freeVal 40
    let hit (e : Elem) : Elem := if e.id = id then { e with poison := some f.1.toNat } else e
    (List.range 4).foldl (fun (s : State) i => s.modCore (4 * q + i) fun c =>
      { c with chans := c.chans.map fun (y : Nat × Chan) => (y.1, { y.2 with elems := y.2.elems.map hit, flying := y.2.flying.map hit }) }) f.2

/-- The cell of a record in a task queue is read with an uncorrectable error (R412): its task cannot be taken up again and is abandoned (DESIGN CHOICE: no
rule names the outcome of a continuation record that is read from a poisoned row; log 45). -/
def State.badRecord (s : State) (part level i : Nat) : State :=
  let l := tgetD s.taskQueues (queueKey part level) []
  match l[i]? with
  | none => s
  | some r => { s with taskQueues := tset s.taskQueues (queueKey part level) (l.eraseIdx i) }.abandonRec part r.1 cPoison.toNat

/-- What an uncorrectable error does where it lies (R412). -/
def State.uncorrected (s : State) : EccSite → State
  | .row k => if onPackage k then { s with mem := s.mem.setPoison (rowOf k) } else s
  | .scalar core ctx r => s.modCtx (core.val * 8 + ctx.val) fun c => if r = 0 then c else { c with sPoison := setBit c.sPoison r.val true, poisonRow := 0 }
  | .vector core ctx r => s.modCtx (core.val * 8 + ctx.val) fun c => { c with vPoison := setBit c.vPoison r.val true, poisonRow := 0 }
  | .frame core i => s.modCore core.val fun c => { c with frames := c.frames.eraseIdx i }
  | .array q arr => match ((s.quad q.val).arrays[arr]).task with
    | some t => s.tileFail q.val t cPoison 0
    | none => s
  | .cell q id => s.badCell q.val id
  | .entry q i =>
    let f := s.freeVal 40
    f.2.setBdq q.val { (s.bdQueue q.val) with entries := (s.bdQueue q.val).entries.modify i fun e => (e.1, some f.1.toNat) }
  | .record part level i => s.badRecord part.val level.val i
  | .arrival core i => s.modCore core.val fun c => { c with arrivals := c.arrivals.modify i fun a => { a with poison := true } }

/-- ECC_ERROR (R412): a corrected error is counted, any other is counted and handled where it lies. -/
def execEccError (site : EccSite) (corrected : Bool) (s : State) : Out :=
  .next (if corrected then s.count .eccstat 0 31 0 1 else (s.count .eccstat 0 63 32 1).uncorrected site)

/-! ### Retention -/

/-- Whether retention of an array is enabled: its bit of RETQ or RETB (R413, R414). -/
def State.retains (s : State) : ArrayId → Bool
  | .scratch q => (s.reg ⟨.retq, 0⟩).getLsbD q.val
  | .bigTop d => (s.reg ⟨.retb, 0⟩).getLsbD d.val

/-- RETENTION_ENTRY (R413): 4,096 cycles without an access start the entry, and its end leaves the array in retention. -/
def execRetentionEntry (arr : ArrayId) (s : State) : Out :=
  .next (match s.retain arr with
  | .active =>
    if s.retains arr && decide (tgetD s.touched arr 0 + 4096 ≤ s.now) then s.setRetain (.entering (s.now + retainCycles arr)) arr else s
  | .entering t => if t ≤ s.now then s.setRetain .retained arr else s
  | .retained | .exiting _ => s)

/-- RETENTION_EXIT (R413): a cleared bit starts the exit, and at its end the accesses held proceed. -/
def execRetentionExit (arr : ArrayId) (s : State) : Out :=
  .next (match s.retain arr with
  | .exiting t => if t ≤ s.now then ({ (s.setRetain .active arr) with touched := tset s.touched arr s.now }.flushWrites).settle else s
  | .entering _ | .retained => if s.retains arr then s else s.startExit arr
  | .active => s)

/-- Write RETQ or RETB (R413, R414): a cleared bit starts the exit of its array at once. -/
def State.writeRetention (s : State) (big : Bool) (v : Word) : State :=
  let r : MReg := if big then ⟨.retb, 0⟩ else ⟨.retq, 0⟩
  let arrays : List ArrayId := if big then (List.range 4).map fun d => .bigTop (Fin.ofNat 4 d) else (List.range 32).map fun q => .scratch (Fin.ofNat 32 q)
  let s := s.setReg r (v &&& r.rw)
  arrays.foldl (fun (s : State) a => if s.retains a then s else s.startExit a) s

/-- RETENTION_CTRL_WRITE (R413, R414, R47). -/
def execRetentionCtrlWrite (agent : Nat) (big : Bool) (value : BitVec 64) (s : State) : Out :=
  .next (s.ownerWrite agent fun s => s.writeRetention big value)

end Sys2Proof.Machine
end

