-- ==== Sys2Proof/Machine/Mgmt.lean ====
section
/-!
DEFINITION. Mgmt: the register pages as agents reach them (R6, R7, R47, R429, R430) and MCTP register access (R431).
-/
namespace Sys2Proof.Machine

/-- The bits of a register that an access acts on (R430, R431): SIZE 0 all, 1 the low half, 2 the high half. -/
def sizeMask (size : Nat) : Word := if size = 0 then BitVec.allOnes 64 else if size = 1 then 0xFFFFFFFF else 0xFFFFFFFF00000000

/-- What a write leaves in a register, by its access codes (R6), within the bits that the access acts on: `own` are the bits that events of this cycle
have set, which a written 1 does not clear (R7). -/
def MReg.written (r : MReg) (old own v mask : Word) : Word :=
  ((old &&& ~~~(r.rw &&& mask)) ||| (v &&& r.rw &&& mask)) &&& ~~~(r.w1c &&& v &&& mask &&& ~~~own)

/-- A write to CLAIM (R47). -/
def State.claimBy (s : State) (agent : Nat) (v : Word) : State :=
  if v.getLsbD 0 && s.candidate agent then
    if s.vacant then { s.changeOwner (some agent) with claimed := some s.now }
    else if s.claimed = some s.now ∧ agent < s.fld .owner 0 7 0 then s.setFld .owner 0 7 0 agent
    else s
  else s

/-- A write to HANDOVER by the owner (R47): one that names the owner itself changes nothing. -/
def State.handOver (s : State) (agent : Nat) (v : Word) : State :=
  let new := nbits v.toNat 7 0
  if nbits v.toNat 31 16 = s.fld .owner 0 31 16 && s.candidate new && decide (new ≠ agent) then s.changeOwner (some new) else s

/-- Clear the residency slots of a partition (R308). -/
def State.clearSlots (s : State) (part : Nat) : State := { s with residency := s.residency.filter fun r => decide (r.1 ≠ part) }

/-- A write of a register that its writer may write (R6, R429): its action, or its access codes. `agent` writes the bits of `mask`. -/
def State.writeReg (s : State) (agent : Nat) (r : MReg) (v mask : Word) : State :=
  let old := s.reg r
  let new := r.written old (s.ofCycle r).2 v mask
  let plain := s.setReg r new
  match r.fam with
  | .claim => s.claimBy agent (v &&& mask)
  | .handover => s.handOver agent (v &&& mask)
  | .admqcreate => if r.i = 0 then plain.adminCreate else plain
  | .qdb => if mask.getLsbD 0 then s.ring r.i (v.setWidth 32) else s
  | .qstat => s.restart r.i (v &&& mask)
  | .gdb => if mask.getLsbD 0 then s.gatherRing r.i (v.setWidth 32) else s
  | .btown => s.writeBtown r.i new
  | .bdqcfg => s.writeBdqcfg r.i new
  | .retq => s.writeRetention false new
  | .retb => s.writeRetention true new
  | .pres | .presz => plain.clearSlots r.i
  | _ => plain

/-- Whether BAR0 reaches a register: in recovery only those of R435 respond (R432). -/
def State.bar0 (s : State) (r : MReg) : Bool := s.running || decide (r.fam = .pwrcap ∨ r.fam = .pwrstat)

/-- A write of a register by an agent (R47, R430); agent 16 is an engine, whose right was tested at its access. Whether it was dropped, and the state. -/
def State.agentWrite (s : State) (agent : Nat) (r : MReg) (v mask : Word) : Bool × State :=
  let exempt := r.ownerExempt || decide (agent = 16)
  if exempt || s.isOwner agent then (false, s.writeReg agent r v mask) else (true, s.denied)

/-- Whether an access names no register whole and no half of one (R430). -/
def oddAccess (offset : BitVec 33) (size : Fin 4) : Bool := decide (size = 3 ∨ offset.toNat % 8 ≠ 0)

/-- An access of another size or alignment (R430): through BAR0 an unsupported request; it has no effect. -/
def State.oddly (s : State) (agent : Nat) : State := if agent = 0 then s.send .unsupported else s

/-- REGISTER_WRITE (R6, R430): a reserved offset ignores writes. -/
def execRegisterWrite (agent : Nat) (offset : BitVec 33) (size : Fin 4) (value : BitVec 64) (s : State) : Out :=
  .next (if oddAccess offset size then s.oddly agent else match MReg.atOffset offset.toNat with
  | none => s
  | some r => if decide (agent = 0) && !s.bar0 r then s else (s.agentWrite agent r value (sizeMask size.val)).2)

/-- CLAIM (R47). -/
def execClaim (agent : Nat) (value : BitVec 64) (s : State) : Out := .next (if s.hears agent then s.claimBy agent value else s)

/-- HANDOVER (R47). -/
def execHandover (agent : Nat) (value : BitVec 64) (s : State) : Out := .next (s.ownerWrite agent fun s => s.handOver agent value)

/-- The value that an agent reads, and the state after it (R6): the bits outside the access read zero, and WO fields read zero. -/
def State.agentRead (s : State) (r : MReg) (mask : Word) : Word × State :=
  let x := s.readReg r mask
  (x.1 &&& mask, x.2)

/-- READ_CLEAR (R6, R7, R430): a read by an agent answers with the value and clears the RC fields that it reads; a reserved offset reads zero. -/
def execReadClear (agent : Nat) (offset : BitVec 33) (size : Fin 4) (s : State) : Out :=
  .next (if oddAccess offset size then s.oddly agent else match MReg.atOffset offset.toNat with
  | none => s.send (.mctp agent 0 0)
  | some r =>
    if decide (agent = 0) && !s.bar0 r then s
    else
      let x := s.agentRead r (sizeMask size.val)
      x.2.send (.mctp agent 0 x.1))

/-! ### MCTP -/

/-- The agent whose messages come from an endpoint over PCIe (R431): of the enabled entries of AGENTMAP that name it, the lowest. -/
def State.vdmAgent (s : State) (eid : BitVec 8) : Option Nat :=
  ((List.range 15).map (· + 1)).find? fun a => decide (s.fld .agentmap a 8 8 = 1 ∧ s.fld .agentmap a 7 0 = eid.toNat)

/-- Whether agent 1 is heard on a transport (R428): on the one over which it last claimed or confirmed ownership. A claim is heard on both (log 41). -/
def State.bmcHeard (s : State) (i3c claims : Bool) : Bool := claims || s.bmcI3c.isNone || s.bmcI3c == some i3c

/-- The agent that an MCTP message is served for (R428, R431), or none when it is dropped. A source of none is the I3C bus. -/
def State.mctpServed (s : State) (src : Option (BitVec 8)) (claims : Bool) : Option Nat :=
  match src with
  | none => if s.bmcHeard true claims then some 1 else none
  | some eid => (s.vdmAgent eid).filter fun a => decide (a ≠ 1) || s.bmcHeard false claims

/-- Bytes of a register-access request (R431). -/
def mctpField (body : BitVec 128) (o n : Nat) : Nat := nbytes body.toNat o n

/-- Whether a request is malformed: its SIZE, its zero bytes, its offset, or the value of a read (R431). -/
def mctpBad (body : BitVec 128) : Bool :=
  decide (2 < mctpField body 1 1 ∨ mctpField body 2 2 ≠ 0 ∨ mctpField body 4 4 % 8 ≠ 0 ∨ (mctpField body 0 1 = 1 ∧ mctpField body 8 8 ≠ 0))

/-- The bits of a register that a request acts on. -/
def mctpMask (body : BitVec 128) : Word := sizeMask (mctpField body 1 1)

/-- Whether a request is a write of 1 to CLAIM (R47, R428). -/
def mctpClaims (body : BitVec 128) : Bool :=
  decide (mctpField body 0 1 = 2) && !mctpBad body && MReg.atOffset (mctpField body 4 4) == some ⟨.claim, 0⟩ &&
    (BitVec.ofNat 64 (mctpField body 8 8) &&& mctpMask body).getLsbD 0

/-- MCTP_READ (R431): CMD 0x01. A CMD that is neither read nor write is malformed. -/
def execMctpRead (src : Option (BitVec 8)) (body : BitVec 128) (s : State) : Out :=
  let cmd := mctpField body 0 1
  .next (match s.mctpServed src false with
  | none => s
  | some agent =>
    if cmd = 2 then s
    else if cmd ≠ 1 ∨ mctpBad body = true then s.send (.mctp agent 3 0)
    else match MReg.atOffset (mctpField body 4 4) with
      | none => s.send (.mctp agent 2 0)
      | some r =>
        let x := s.agentRead r (mctpMask body)
        x.2.send (.mctp agent 0 x.1))

/-- A claim that agent 1 has made or confirmed over a transport, which is the one served from then on (R428). -/
def State.bmcClaimed (s : State) (src : Option (BitVec 8)) (agent : Nat) (body : BitVec 128) : State :=
  if agent = 1 ∧ mctpClaims body ∧ s.isOwner 1 then { s with bmcI3c := some src.isNone } else s

/-- MCTP_WRITE (R431): CMD 0x02. The write takes effect before its response is sent. -/
def execMctpWrite (src : Option (BitVec 8)) (body : BitVec 128) (s : State) : Out :=
  let cmd := mctpField body 0 1
  .next (match s.mctpServed src (mctpClaims body) with
  | none => s
  | some agent =>
    if cmd = 1 then s
    else if cmd ≠ 2 ∨ mctpBad body = true then s.send (.mctp agent 3 0)
    else match MReg.atOffset (mctpField body 4 4) with
      | none => s.send (.mctp agent 2 0)
      | some r =>
        let x := s.agentWrite agent r (BitVec.ofNat 64 (mctpField body 8 8)) (mctpMask body)
        (x.2.bmcClaimed src agent body).send (.mctp agent (if x.1 then 1 else 0) 0))

end Sys2Proof.Machine
end

