-- ==== Sys2Proof/Machine/Module.lean ====
section
/-!
DEFINITION. Module: the timebase (R422), the ports (R423, R426, R427), host accesses (R424), PLDM (R428), firmware trust and attestation (R432,
R433), and power and cooling (R434 to R436).
-/
namespace Sys2Proof.Machine

/-! ### The timebase -/

/-- The lateness of every Wheel engine that is in use counts through `n` cycles (R306, R307). -/
def State.lateCycles (s : State) : Nat → State
  | 0 => s
  | n + 1 => ((s.wheels.map (·.1)).foldl (fun (s : State) e => s.lateCycle e) s).lateCycles n

/-- TIMEBASE_TICK (R3, R422): the timebase counts one nanosecond, which is nine quarters of a cycle; a slew makes one tick last none or twice as many
(log 5). Before it does, the Barker admits the requests of the tick and closes batches (R317), and the events of
the cycle enter the ring (R419); what waits is tried again, and lateness counts. -/
def execTimebaseTick (s : State) : Out :=
  let before := s.now
  let s := ((s.gather.map (·.1)).foldl (fun (s : State) g => s.gatherStep g) s).enterEvents
  let s := { s with tbase := s.tbase + 1, quarters := s.quarters + (9 - 9 * s.slew).toNat, slew := 0 }
  let s := s.mapCtxs fun (c : Ctx) => { c with held := false }
  .next (s.lateCycles (s.now - before))

/-- PTM_UPDATE (R422, R426): while port 0 is up, at most one nanosecond in each 1,000. -/
def execPtmUpdate (faster : Bool) (s : State) : Out :=
  .next (if s.linkUp && s.lastSlew.all fun t => decide (t + 1000 ≤ s.tbase.toNat) then
    { s with slew := if faster then 1 else -1, lastSlew := some s.tbase.toNat } else s)

/-! ### Ports -/

/-- PORT_LINK_UP (R423, R426, R427): HLINK_k shows the trained setting. On port 0 the accesses that waited proceed. -/
def execPortLinkUp (port : Fin 4) (width : BitVec 5) (rate : BitVec 8) (s : State) : Out :=
  .next (if (width ≠ 8 ∧ width ≠ 16) ∨ (rate ≠ 32 ∧ rate ≠ 64) then s
  else
    let s := s.setReg ⟨.hlink, port.val⟩ (BitVec.ofNat 64 (width.toNat + rate.toNat * 32 + 8192))
    if port = 0 then { s with linkUp := true }.first ((s.parked.filter fun (p : Parked) => p.link).map fun (p : Parked) => Instr.parkResume p.id) else s)

/-- PORT0_LINK_DOWN (R426): OWNER becomes vacant, and accesses to the host wait. -/
def execPort0LinkDown (s : State) : Out :=
  let s := { s.setReg ⟨.hlink, 0⟩ 0 with linkUp := false }
  .next (if s.vacant then s else s.changeOwner none)

/-- PORT_LINK_DOWN (R427, R436): a fabric port, 1 to 3. -/
def execPortLinkDown (port : Fin 4) (s : State) : Out := .next (if port = 0 then s else s.setReg ⟨.hlink, port.val⟩ 0)

/-- Whether the host reaches a physical page through a decoder (R424): no partition has mapped it, or one maps it with PERM bit 0 or 1. -/
def State.hostView (s : State) (pa : Nat) : Bool :=
  let maps := s.pages.filter fun p => decide (p.pa ≤ pa ∧ pa < p.pa + p.bytes)
  maps.isEmpty || maps.any fun p => decide (p.perm.toNat % 4 ≠ 0)

/-- HOST_MEM_ACCESS (R424): a line of 64 bytes at an offset of decoder 0 (LPDDR) or 1 (HBM4E), read or written. Out of host view, or above the decoder,
it completes as an unsupported request: a read returns all ones. The host may hold the line from then on. In recovery nothing answers (R432). -/
def execHostMemAccess (decoder : Fin 2) (offset : BitVec 40) (write : Option (BitVec 512)) (s : State) : Out :=
  let o := offset.toNat / 64 * 64
  let pa := (if decoder = 0 then 0x10000000000 else 0) + o
  .next (if s.linkUp = false ∨ s.running = false then s
  else if (decoder = 1 ∧ 0x3000000000 ≤ o) ∨ s.hostView pa = false then
    match write with
    | some _ => s.send .unsupported
    | none => (s.send .unsupported).send (.hostData (BitVec.allOnes 512))
  else match write with
    | some v =>
      let s := ({ s with hostLines := s.hostLines.filter (· ≠ pa) }).storeBytes pa 64 v.toNat
      { s with hostLines := s.hostLines ++ [pa] }
    | none =>
      let s := { s with hostLines := pa :: s.hostLines.filter (· ≠ pa) }
      if s.mem.poisoned pa then
        let f := s.freeVal 512
        f.2.send (.hostData f.1)
      else s.send (.hostData (BitVec.ofNat 512 (s.mem.readLe pa 64))))

/-! ### PLDM, firmware and attestation -/

/-- PLDM_SENSOR_READ (R428): not in recovery (R432). -/
def execPldmSensorRead (src : Option (BitVec 8)) (sensor : Fin 11) (s : State) : Out :=
  .next (match s.mctpServed src false with
  | some agent => if s.running then s.send (.sensor agent sensor.val (s.sensors.getD sensor.val 0)) else s
  | none => s)

/-- SENSOR_UPDATE (R428). -/
def execSensorUpdate (values : List (BitVec 32)) (s : State) : Out := .next (if values.length = 11 then { s with sensors := values } else s)

/-- The cause that keeps an image from running (R432, SECSTAT.CAUSE), or 0. -/
def bankCause (i : BankImage) (least : BitVec 32) : Nat :=
  if i.ed25519Ok && i.mldsaOk then (if i.svn.toNat < least.toNat then 4 else 0)
  else if i.mldsaOk then 1 else if i.ed25519Ok then 2 else 3

/-- PLDM_FW_UPDATE (R428, R432): the inactive bank takes the image, and becomes active at the next module reset when the image verifies. An
update from an unknown endpoint, or of agent 1 on the transport that is not served, is dropped (R428, R431). -/
def execPldmFwUpdate (update : FwUpdate) (s : State) : Out :=
  let b := 1 - s.activeBank
  .next (match s.mctpServed update.src false with
  | some _ => { s with banks := s.banks.set b update.image, nextBank := if bankCause update.image s.fusedMin = 0 then b else s.activeBank }
  | none => s)

/-- Addresses of host and fabric memory, which a reset of the module leaves. -/
def beyondModule (k : Nat) : Bool := decide ((2 ^ 51 ≤ k ∧ k < 2 ^ 52) ∨ 2 ^ 65 ≤ k)

/-- The registers that the Organ loads as it starts: they read 0 in recovery (R45, R432). -/
def tuneRegs : List MReg := ⟨.schedtune, 0⟩ :: ⟨.fetchtune, 0⟩ :: (List.range 1024).map fun n => ⟨.qtune, n⟩

/-- The module after a reset, before the boot ROM has run: what is not the module's, or is kept by it through a reset, stays; the rest is as after
reset. Free values and names go on from where they are. -/
def State.cleared (s : State) : State :=
  { State.reset with
    mem := ⟨s.mem.cells.filter fun e => beyondModule e.1, s.mem.poison.filter beyondModule⟩
    banks := s.banks
    fusedMin := s.fusedMin
    sensors := s.sensors
    hot := s.hot
    outbox := s.outbox
    agenda := s.agenda
    freeIdx := s.freeIdx
    nextId := s.nextId }

/-- Start the firmware of a bank, or stay in recovery with a cause (R432). -/
def State.startBank (s : State) (b : Fin 2) (cause : Nat) : State :=
  let i := s.banks[b]
  let s := { s with activeBank := b, nextBank := b, running := decide (cause = 0) }
  if cause = 0 then
    { (s.setReg ⟨.secstat, 0⟩ (BitVec.ofNat 64 (b.val * 16 + i.svn.toNat * 2 ^ 32))) with
      fusedMin := if s.fusedMin.toNat < i.svn.toNat then i.svn else s.fusedMin }
  else tuneRegs.foldl (fun (s : State) r => s.setReg r 0) (s.setReg ⟨.secstat, 0⟩ (BitVec.ofNat 64 (1 + cause * 2 + b.val * 16)))

/-- MODULE_RESET (R432, R436): the boot ROM tries the active bank, then the other. A die that is still hot holds the power level. -/
def execModuleReset (s : State) : Out :=
  let b := s.nextBank
  let o := 1 - b
  let first := bankCause s.banks[b] s.fusedMin
  let second := bankCause s.banks[o] s.fusedMin
  let c := s.cleared
  let c := if first = 0 then c.startBank b 0 else if second = 0 then c.startBank o 0 else c.startBank b first
  .next (if s.hot.isEmpty then c else c.setFld .pwrstat 0 18 16 7)

/-- Bytes of a value, lowest first. -/
def bytesOf (v : Nat) : Nat → List Byte
  | 0 => []
  | n + 1 => BitVec.ofNat 8 v :: bytesOf (v / 256) n

/-- The fields of an attestation report, in the order of R433 (log 17): in recovery no image runs, and its digest and version are free values. -/
def State.attest (s : State) (nonce : BitVec 256) : List Byte × State :=
  let i := s.banks[s.activeBank]
  let d := if s.running then (i.digest, s) else s.freeVal 384
  let v := if s.running then (i.svn, d.2) else d.2.freeVal 32
  (bytesOf Config.bootRomDigest.toNat 48 ++ bytesOf d.1.toNat 48 ++ bytesOf v.1.toNat 4 ++ bytesOf s.fusedMin.toNat 4 ++ bytesOf s.pkgid.toNat 1 ++
    bytesOf nonce.toNat 32, v.2)

/-- ATTESTATION_REQUEST (R433). -/
def execAttestationRequest (src : Option (BitVec 8)) (nonce : BitVec 256) (s : State) : Out :=
  .next (match s.mctpServed src false with
  | some agent =>
    let x := s.attest nonce
    x.2.send (.attestation agent x.1 (Config.ed25519Sign x.1) (Config.mldsaSign x.1) Config.certificates)
  | none => s)

/-! ### Power and cooling -/

/-- POWER_WINDOW (R435, R436): the level after a window of an average input power. A cap written in the window is in force from now on. -/
def execPowerWindow (avg : BitVec 16) (s : State) : Out :=
  let w := s.fld .pwrcap 0 15 0
  let p := s.plevel
  let level := if s.hot ≠ [] then 7 else if w = 0 then 0 else if w < avg.toNat then min 7 (p + 1) else if avg.toNat * 100 < w * 95 then p - 1 else p
  .next { ((s.setFld .pwrstat 0 15 0 avg.toNat).setFld .pwrstat 0 18 16 level) with capInForce := w }

/-- The module halts, and says so on the management pins (R436). -/
def State.halt (s : State) : State := if s.halted then s else { s with halted := true }.send .halt

/-- THERMAL_TRIP (R436). -/
def execThermalTrip (die : Fin 4) (celsius : Nat) (s : State) : Out :=
  .next (if celsius < 105 then s
  else
    let s := { s with hot := insertNat s.hot die.val }.setFld .pwrstat 0 18 16 7
    if 120 ≤ celsius then s.halt else s)

/-- THERMAL_RELEASE (R436): with no die hot the level is the cap's again, and without a cap in force it is 0 (R435). -/
def execThermalRelease (die : Fin 4) (celsius : Nat) (s : State) : Out :=
  .next (if 100 ≤ celsius ∨ s.hot.contains die.val = false then s
  else
    let s := { s with hot := s.hot.filter fun d => decide (d ≠ die.val) }
    if s.hot = [] ∧ s.capInForce = 0 then s.setFld .pwrstat 0 18 16 0 else s)

/-- COOLANT_LOSS (R436). -/
def execCoolantLoss (s : State) : Out := .next s.halt

/-- POWER_ALARM (R434). -/
def execPowerAlarm (s : State) : Out := .next (s.raise .pwrstat 0 19)

end Sys2Proof.Machine
end

