-- ==== Sys2Proof/Machine/Ports.lean ====
section
/-!
DEFINITION. Ports: the Tightrope router of each base die and its off-module ports (R368, R369, R449): the first hop of a packet, the two virtual channels,
the flits that leave, and those that arrive.
-/
namespace Sys2Proof.Machine

/-- One off-module port. -/
def State.ropePort (s : State) (link : Nat) : RopePort := tgetD s.ropePorts link .reset
/-- Replace a port. -/
def State.setRopePort (s : State) (link : Nat) (p : RopePort) : State := { s with ropePorts := tset s.ropePorts link p }
/-- The flits that wait at a port or are being sent: its load. -/
def RopePort.load (p : RopePort) : Nat := p.bulk.length + p.urgent.length + p.again.length + p.sending.toList.length

/-! ### Routing (R368) -/

/-- The links that a packet to a module may take as its first hop (R368): those of TROUTE. -/
def State.linksFor (s : State) (m : Nat) : List Nat := (List.range 8).filter fun k => (s.reg ⟨.troute, m⟩).toNat.testBit k

/-- The first hop of a packet: the link with the least load, the lowest of equal ones (R368; log 32). -/
def State.firstHop (s : State) (m : Nat) : Option Nat :=
  (s.linksFor m).foldl (fun (best : Option Nat) k => match best with
    | some b => if (s.ropePort k).load < (s.ropePort b).load then some k else best
    | none => some k) none

/-- The modules that a message goes to: a message of a stream group, whose modules the spec does not name, to every other module towards which TROUTE
names a link; one without a member of the group has no use for it (log 32). -/
def State.ropeDests (s : State) (m : RopeMsg) : List Nat :=
  match m.dest with
  | some d => [d]
  | none => (List.range 64).filter fun d => decide (d ≠ s.pkgid.toNat) && !(s.linksFor d).isEmpty

/-- The chunk that a message carries: its collective, chunk, member, data and checksum. -/
def OutMsg.chunk : OutMsg → Option (Nat × Nat × Nat × Nat × List Nat × Nat)
  | .contribution g q ch m _ data sum _ => some (g, q, ch, m, data, sum)
  | .delivery g q ch m _ data sum _ => some (g, q, ch, m, data, sum)
  | _ => none

/-- The member of a report about a message that carries a chunk (R381): 0xFFFF for the delivery of a result. -/
def OutMsg.reported (m : OutMsg) (gathers : Bool) (member : Nat) : Nat :=
  match m with
  | .delivery _ _ _ _ _ _ _ _ => if gathers then member else 0xFFFF
  | _ => member

/-- A field of a flit of a chunk for another module (log 32): `n` bytes from byte `o`. -/
def tfl (p : BitVec 1024) (o n : Nat) : Nat := nbytes p.toNat o n
/-- Whether two flits are of one chunk: all that they tell of it agrees. -/
def sameChunk (p q : BitVec 1024) : Bool := decide (tfl p 0 6 = tfl q 0 6 ∧ tfl p 8 32 = tfl q 8 32)
/-- The flits of a chunk in the order of their indices. -/
def inOrder (l : List (BitVec 1024)) : List (BitVec 1024) := (List.range l.length).filterMap fun i => l.find? fun p => decide (tfl p 6 2 = i)
/-- The checksum of the words that the flits of a chunk carry, in order (R379). -/
def transitSum (l : List (BitVec 1024)) : Nat :=
  payloadSum (decide (tfl (l.headD 0) 20 1 = 1)) (l.flatMap fun p => (List.range 11).map fun i => tfl p (40 + 8 * i) 8)

/-- A chunk for another module fails a check here (R379, R380): the modules whose output it would reach are told, this one among them. -/
def State.transitFails (s : State) (hop : Nat) (p : BitVec 1024) (got : Nat) : State :=
  let g := tfl p 4 2
  let q := tfl p 8 4
  let bytes := reportBytes 1 (tfl p 21 1) g q (tfl p 12 4) (tfl p 16 2) hop (tfl p 32 8) got s.tbase.toNat
  let s := s.count .tcnt 0 23 0 1
  (List.range 64).foldl (fun (s : State) m =>
    if (tfl p 24 8).testBit m = false then s else if m = s.pkgid.toNat then s.reportIn g q bytes else s.ropeFlit (some m) (.chunkReport g q bytes)) s

/-- The check of a crossing between base dies (R379, KIND 4): the chunk that fails it goes no further. -/
def State.crossFails (s : State) (die : Nat) (m : OutMsg) : Option State :=
  match m with
  | .transitChunk l =>
    let got := transitSum l
    if got = tfl (l.headD 0) 32 8 then none else some (s.transitFails (s.hopId 4 die) (l.headD 0) got)
  | _ => m.chunk.bind fun c => (s.coll? c.1 c.2.1).bind fun x =>
    let got := payloadSum (cSums x.cmd) c.2.2.2.2.1
    if got = c.2.2.2.2.2 then none
    else some (s.chunkFails c.1 c.2.1 c.2.2.1 1 (m.reported (cGathers x.cmd) c.2.2.2.1) (s.hopId 4 die) c.2.2.2.2.2 got false)

/-- A packet joins its channel's buffer of a port, which it reaches 40 cycles later from another base die (R449). -/
def State.toPort (s : State) (k : Nat) (m : RopeMsg) (index count : Nat) : State :=
  let p := s.ropePort k
  let x : RopePkt := ⟨m, index, count, s.now + if k / 2 = m.die then 0 else 40⟩
  s.setRopePort k (if m.channel = 0 then { p with bulk := p.bulk ++ [x] } else { p with urgent := p.urgent ++ [x] })

/-- Route the packets of a message to a module, each by the load of the links (R368): a chunk that fails the check of a crossing goes no further. -/
def State.routeTo (s : State) (m : RopeMsg) (d : Nat) : State :=
  let n := cdiv m.bytes 128
  let r := (List.range n).foldl (fun (s : State) i => match s.firstHop d with
    | some k => s.toPort k m i n
    | none => s) s
  let crossed := (List.range 8).find? fun k => decide (k / 2 ≠ m.die ∧ (s.ropePort k).load < (r.ropePort k).load)
  match crossed.bind fun k => s.crossFails (k / 2) m.msg with
  | some t => t
  | none => r

/-- Route the oldest message that has a link towards a module of its own. -/
def State.routeOne (s : State) : State :=
  match s.ropeOut.find? fun m => (s.ropeDests m).any fun d => !(s.linksFor d).isEmpty with
  | none => s
  | some m => (s.ropeDests m).foldl (fun (s : State) d => s.routeTo m d) { s with ropeOut := s.ropeOut.erase m }

/-! ### Sending (R369, R449) -/

/-- The next packet that a port sends (R369): it goes on with the chunk in progress; at the boundary of a chunk the oldest of channel 1 comes, else the oldest
of channel 0. A packet needs a credit of its channel, and one that has none does not hold back the other channel. -/
def RopePort.pick (p : RopePort) (now : Nat) : Option (RopePkt × RopePort) :=
  let bulk : Option (RopePkt × RopePort) := match p.bulk with
    | x :: t => if x.ready ≤ now ∧ p.bulkTaken < Config.ropeCredits + 1 then some (x, { p with bulk := t, bulkTaken := p.bulkTaken + 1 }) else none
    | [] => none
  let urgent : Option (RopePkt × RopePort) := match p.urgent with
    | x :: t => if x.ready ≤ now ∧ p.urgentTaken < Config.ropeCredits + 1 then some (x, { p with urgent := t, urgentTaken := p.urgentTaken + 1 }) else none
    | [] => none
  let inChunk := p.bulk.head?.any fun x => p.burst.any fun b => decide (b.1 = x.msg)
  if inChunk then bulk.orElse fun _ => urgent else urgent.orElse fun _ => bulk

/-- A port that has been free since cycle `t` starts its next flit: one asked for again first, else a new one, whose end counts from the start of its chunk
(R449). -/
def RopePort.start (p : RopePort) (t now : Nat) : RopePort :=
  match p.again with
  | (n, x) :: r => { p with again := r, sending := some (n, x, t + cdiv 128 94), burst := none }
  | [] => match p.pick now with
    | none => { p with sending := none }
    | some (x, q) =>
      let from_ := max t x.ready
      let b := match p.burst with
        | some b => if b.1 = x.msg ∧ from_ ≤ b.2.1 + cdiv (128 * b.2.2) 94 then (b.1, b.2.1, b.2.2 + 1) else (x.msg, from_, 1)
        | none => (x.msg, from_, 1)
      { q with
        sending := some (p.next, x, b.2.1 + cdiv (128 * b.2.2) 94)
        burst := some b
        next := p.next + 1
        unacked := p.unacked ++ [(p.next, x)] }

/-- A port goes on: a flit that has been sent is on the link for 180 cycles (R449), and the next one starts. -/
def RopePort.goOn (p : RopePort) (now : Nat) : RopePort :=
  match p.sending with
  | some (n, x, t) => if now < t then p else { p with sending := none, crossing := p.crossing ++ [(n, x, t + 180)] }.start t now
  | none => p.start now now

/-- A port up to now: what has crossed its link leaves the module. -/
def State.servePort1 (s : State) (link : Nat) : State :=
  let p := (List.range (s.ropePort link).load).foldl (fun (p : RopePort) _ => p.goOn s.now) ((s.ropePort link).goOn s.now)
  let arrived := p.crossing.filter fun c => decide (c.2.2 ≤ s.now)
  let sent := arrived.map fun c => (some link, OutMsg.flit c.1 c.2.1.index c.2.1.count c.2.1.msg.msg)
  ({ s with outbox := s.outbox ++ sent }).setRopePort link { p with crossing := p.crossing.filter fun c => decide (s.now < c.2.2) }

/-- The routers of the base dies and their ports, once. -/
def State.serveRope (s : State) : State :=
  let s := s.ropeOut.foldl (fun (s : State) _ => s.routeOne) s
  (s.ropePorts.map (·.1)).foldl State.servePort1 s

/-! ### Arriving flits (R368) -/

/-- The peer of a link has received a flit of this module, which gives back its credit, or asks for it again (R368, R369; log 32). -/
def State.flitAnswered (s : State) (link : Nat) (n : BitVec 32) (ok : Bool) : State :=
  let p := s.ropePort link
  match p.unacked.find? fun e => decide (e.1 = n) with
  | none => s
  | some e =>
    if ok then
      let p := { p with unacked := p.unacked.filter (fun e => decide (e.1 ≠ n)), again := p.again.filter fun e => decide (e.1 ≠ n) }
      s.setRopePort link (if e.2.msg.channel = 0 then { p with bulkTaken := p.bulkTaken - 1 } else { p with urgentTaken := p.urgentTaken - 1 })
    else if p.again.contains e then s
    else s.setRopePort link { p with again := p.again ++ [e] }

/-- A flit of a chunk for another module (R368, R369, R379; log 32): with the last of them its checksum is verified (KIND 1), and the chunk goes on towards
its module, its flits together. -/
def State.passChunk (s : State) (link : Nat) (p : BitVec 1024) : State :=
  let l := p :: s.transits.filter fun q => sameChunk p q && decide (tfl q 6 2 ≠ tfl p 6 2)
  let rest := s.transits.filter fun q => !sameChunk p q
  if l.length < tfl p 18 2 then { s with transits := rest ++ l }
  else
    let s := { s with transits := rest }
    let flits := inOrder l
    let got := transitSum flits
    if got = tfl p 32 8 then s.ropeSend ⟨some (tfl p 1 1), if tfl p 2 1 = 0 then 0 else 1, link / 2, 128 * flits.length, .transitChunk flits⟩
    else s.transitFails (s.hopId 1 link) p got

/-- The message that a flit carries, of those that no other step brings (log 32): byte 0 tells its kind. 1: a report of another member (group in bytes
2-3, SEQ in 4-7, the report from 8 on); 2: an HRECH of another member (count in byte 1, chunk indices from 8 on); 3: a member (12-13) has
committed a chunk (8-11); 4: the half of a POD barrier (partition in byte 1, id in 2-3, module in 4); 5: a packet for another module (byte 1) on a
channel (byte 2), which goes on towards it (R329, R368), by itself or, where byte 3 is 1, with the other packets of its chunk: group in bytes 4-5, its index
in 6-7, SEQ in 8-11, chunk in 12-15, member in 16-17, packets in 18-19, whether it carries FX48 values in 20, PRIO in 21, the modules that the chunk
reaches in 24-31, its checksum in 32-39 and eleven words from 40 on; 6: the answer to a flit of this module (its number in 4-7, byte 1 tells whether it has
been received); 7: an owner asks for contributions again (as 2). -/
def State.flitIn (s : State) (link : Nat) (p : BitVec 1024) : State :=
  let b (o n : Nat) : Nat := nbytes p.toNat o n
  let chunks := (List.range (min (b 1 1) 30)).map fun i => b (8 + 4 * i) 4
  match b 0 1 with
  | 1 => s.reportIn (b 2 2) (b 4 4) (BitVec.ofNat 512 (b 8 64))
  | 2 => s.rerun (b 2 2) (b 4 4) chunks false
  | 3 => s.committedBy (b 2 2) (b 4 4) (b 8 4) (b 12 2)
  | 4 => s.halfIn (b 1 1) (b 2 2) (b 4 1)
  | 5 => if b 1 1 = s.pkgid.toNat then s else if b 3 1 = 1 then s.passChunk link p else s.ropeSend ⟨some (b 1 1), if b 2 1 = 0 then 0 else 1, link / 2, 128, .transit p⟩
  | 6 => s.flitAnswered link (BitVec.ofNat 32 (b 4 4)) (decide (b 1 1 ≠ 0))
  | 7 => s.resendIn (b 2 2) (b 4 4) chunks
  | _ => s

/-- LINK_FLIT (R368): a flit that fails its CRC, or that comes before one that is missing, is asked for again; one that has been received before is
removed below the port. In recovery the ports do not answer (R432). -/
def execLinkFlit (link : Fin 8) (n : BitVec 32) (crcOk : Bool) (payload : BitVec 1024) (s : State) : Out :=
  let next := tgetD s.links link.val 0
  .next (if s.running = false then s
    else if !crcOk then s.send (.flitAck link.val n false)
    else if n = next then ({ s with links := tset s.links link.val (n + 1) }.send (.flitAck link.val n true)).flitIn link.val payload
    else s.send (.flitAck link.val n (decide ((next - n).toNat < 2 ^ 31))))

end Sys2Proof.Machine
end

