-- ==== Sys2Proof/Machine/Retire.lean ====
section
/-!
DEFINITION. Retire: the completion record of a job and the freeing of its slot (R417, R418).
-/
namespace Sys2Proof.Machine

/-- DONE of a job (R48). -/
def Job.done (j : Job) : Nat := nbytes j.card.toNat 48 8

/-- STATUS of a completion (R418): DONE, FAULTS, LOST and NOREC. -/
def Job.status (j : Job) (norec : Bool) : Nat := 1 + 2 * (decide (0 < j.nfaults)).toNat + 4 * j.lost.toNat + 8 * norec.toNat

/-- The completion record (R418). -/
def Job.recordBytes (j : Job) (slot : Nat) : Nat :=
  pack [(1, 0x82), (1, j.status false), (2, slot), (1, j.gang.toNat), (1, j.prio), (1, j.part), (1, 0), (8, j.start), (8, j.finish), (4, j.ends), (4, j.spawns),
    (4, j.restarts), (4, j.nfaults), (8, j.cardAddr), (16, 0)]

/-- Free a job slot (R21): a team's channels are gone from its cores, and so is what is left of its saves. -/
def State.freeJob (s : State) (job : Nat) : State :=
  let places := (((s.job? job).bind (·.team)).map (·.places)).getD []
  let s := places.foldl (fun (s : State) p => s.modCore p.core.val fun c => { c with chans := [] }) s
  { s with
    jobs := terase s.jobs job
    podHolders := s.podHolders.filter fun e => decide (e.2 ≠ job)
    ranges := s.ranges.filter fun r => decide (r.1 / 4 ≠ job)
    saved := s.saved.filter fun x => !(x.team && decide (x.ctx.job.toNat = job)) }

/-- The steps of R417 after the record: the event, the stamp (R421) and the freeing of the slot. -/
def State.jobDone (s : State) (job : Nat) (j : Job) (norec : Bool) : State :=
  let src := srcOrgan (Config.organCore 1).val
  let s := s.postEvent { src := src, kind := 1, item := j.done, w0 := j.status norec }
  let s :=
    if s.fld .pstamp j.part 1 1 = 1 then
      s.postEvent { src := src, kind := 4, item := 1 + job % 4096 * 256 + job * 2 ^ 20, tenq := j.enq, tstart := j.first.getD 0, time := some j.finish }
    else s
  s.freeJob job

/-- The completion of a job whose record cannot be written (R417). -/
def State.recordFails (s : State) (job : Nat) (j : Job) (cause : Cause) : State :=
  let s := s.postFault { cause := cause, src := 5, part := j.part, job := some job, addr := j.done }
  s.jobDone job ((s.job? job).getD j) true

/-- Complete a job (R417): its record is written, its event posted and its slot freed. An absent page parks the write, and a failure leaves no record. -/
def State.complete (s : State) (job : Nat) : State :=
  match s.job? job with
  | none => s
  | some j =>
    if j.complete = false ∨ (s.parked.any fun p => decide (p.work = ParkWork.record job)) then s
    else match s.spotVa j.part j.done 2 64 with
      | .mem k => if s.mem.poisoned k then s.recordFails job j cPoison else (s.storeBytes k 64 (j.recordBytes job)).jobDone job j false
      | .regs off =>
        if s.engineMayWrite j.part off then (s.writeAt j.part 64 (j.recordBytes job) (.regs off)).jobDone job j false else s.recordFails job j cPerm
      | .fail c => s.recordFails job j c
      | .absent => s.park j.part j.done (some job) 0 6 0 0 (.record job)
      | .link => s.parkLink j.part j.done (.record job) 64
      | .hold => s

/-- COMPLETION_RECORD (R417). -/
def execCompletionRecord (job : Fin 4096) (s : State) : Out := .next (s.complete job.val)

end Sys2Proof.Machine
end

