-- ==== Sys2Proof/Machine/Resume.lean ====
section
/-!
DEFINITION. Resume: the accesses that waited for a page (R293) or for port 0 (R426) go on, or fail when port 0 stays down.
-/
namespace Sys2Proof.Machine

/-- A parked access is over. -/
def State.unpark (s : State) (id : Nat) : State := { s with parked := s.parked.filter fun p => decide (p.id ≠ id) }

/-- The job of the chunk whose next record a context is reading. -/
def Ctx.readsJob (c : Ctx) : Nat := c.job.toNat

/-- Whether the argument read of a context can go on (R25, R50): nothing stops it, and, for a record of a chunk, a ticket can be stamped in this tick. -/
def State.argumentReady (s : State) (key : Nat) : Bool :=
  let c := s.ctx key
  !c.stopReq && decide (c.logical ≠ 0xFF ∨ (s.die (dieOf key)).lastStamp ≠ some s.tbase.toNat)

/-- The argument read of a context goes on (R50, R293): its task starts, or, in a team, waits for the release it has not had. -/
def State.resumeArgument (s : State) (key : Nat) : State :=
  let c := s.ctx key
  if c.wait ≠ .argument then s
  else if c.logical = 0xFF then s.startChunkRecord key c.readsJob
  else
    match s.job? c.job.toNat with
    | none => s
    | some j =>
      let s := s.makeMember key c.job.toNat j c.logical.toNat c.ticket
      if c.life = .running then s.modCtx key Ctx.releaseFresh else s

/-- Whether a parked access can go on: its page is mapped (R293), or port 0 is up (R426) and no snoop of a line of its row waits for its answer (R424). -/
def State.parkReady (s : State) (p : Parked) : Bool :=
  (if p.link then s.linkUp && !(p.row.any fun r => s.snoops.any fun l => decide (rowOf l = r)) else (s.pageOf p.part.toNat p.va).isSome) &&
  (match p.work with
   | .argument key => s.argumentReady key
   | .copy _ _ | .root _ _ _ | .record _ | .page _ _ _ _ | .spoke _ _ _ _ | .collective _ _ _ | .collWrites _ _ | .gatherRow _ _ _ | .packet _
   | .poolCard _ _ | .organWrite _ _ _ _ _ | .sibPost _ | .gatherEntry _ | .gatherList _ => true)

/-- A copy command goes on at the row where it parked. -/
def State.resumeCopy (s : State) (q id : Nat) : State :=
  s.modQuad q fun x => { x with copies := x.copies.map fun (c : CopyCmd) => if c.id = id then { c with parked := none } else c }

/-- Do again what was parked. A copy, a spoke and a packet go on with their next step. -/
def State.resume (s : State) : ParkWork → State
  | .copy q id => s.resumeCopy q id
  | .root job wexp ticket => s.rootAdd job wexp ticket
  | .record job => s.complete job
  | .page core part image page => s.first (((s.pageWaiters core part image page).take 1).map fun k => .pageLoad (Fin.ofNat 128 core) (Fin.ofNat 8 k))
  | .spoke _ _ _ _ | .packet _ | .poolCard _ _ | .gatherEntry _ | .gatherList _ => s
  | .argument key => s.resumeArgument key
  | .collective g q ch => s.resumeChunk g q ch
  | .collWrites g q => s.collFlush g q 64
  | .gatherRow g offset data => s.gatherArrive g offset data
  | .organWrite q part addr n v => s.organWrite q part addr n v
  | .sibPost n => s.sibFlush n (((tget s.queues n).map fun q => q.posts.length).getD 0)

/-- PARK_RESUME (R293, R426). -/
def execParkResume (id : Nat) (s : State) : Out :=
  .next (match s.parked.find? fun p => decide (p.id = id) with
  | none => s
  | some p => if s.parkReady p then ((s.unpark id).resume p.work).settle else s)

/-! ### Port 0 stays down -/

/-- An access of a chunk of a collective fails with PERM (R280, R380): the write of a delivery, else the read. -/
def State.chunkTimeout (s : State) (g q ch a : Nat) : State :=
  match s.coll? g q with
  | none => s
  | some x =>
    match (x.chunk ch).delivery with
    | some _ =>
      ((s.modChunk g q ch fun k => { k with delivery := none }).chunkFails g q ch 3 (s.rank x) (s.hopId 3 (x.org.quad / 8)) 0 cPerm.toNat true).collFault
        x cPerm a ch
    | none => s.readStops x g q ch (.fail cPerm a)

/-- The argument read of a context fails with PERM (R50). -/
def State.argumentTimeout (s : State) (key a : Nat) : State :=
  let c := s.ctx key
  if c.wait ≠ .argument then s
  else if c.logical = 0xFF then
    let job := c.readsJob
    (s.postFault { cause := cPerm, src := 5, part := ((s.job? job).map Job.part).getD 0, job := some job, addr := a }).modCtx key fun c =>
      { c with chunks := c.dropRecord job, life := .free, wait := .none }
  else
    (s.postFault { cause := cPerm, src := 5, part := c.part.toNat, job := some c.job.toNat, addr := a }).modCtx key fun c =>
      { c with life := .abandoned, wait := .none }

/-- The write of a sibling ring that the host has held up fails: what else its packets write is written, and what waits behind them goes on (DESIGN CHOICE:
no rule names the outcome of such a write; log 16). -/
def State.sibTimeout (s : State) (n : Nat) : State :=
  match tget s.queues n with
  | none => s
  | some q =>
    match q.posts with
    | [] => s
    | (slots, kind) :: t => (s.sibPut n q slots kind).sibFlush n t.length

/-- An access to the host fails with PERM under the failure rule of its engine (R426): R29, R50, R78, R281, R312, R380, R409, R417 and R43 for the
read of a packet. -/
def State.linkTimeout (s : State) (p : Parked) : State :=
  match p.work with
  | .copy q id =>
    match (s.quad q).copies.find? fun c => decide (c.id = id) with
    | some c => s.copyFail q c cPerm p.va (c.row / cpUnits c.cmd) 0 0 0
    | none => s
  | .root job _ ticket =>
    match s.job? job with
    | some j => s.postFault { cause := cPerm, src := 8, part := j.part, job := some job, addr := j.root, ticket := ticket }
    | none => s
  | .record job =>
    match s.job? job with
    | some j => s.recordFails job j cPerm
    | none => s
  | .page core part image page => s.trapWaiters core part image page
  | .spoke e k _ step =>
    match s.spoke? e k with
    | some x => s.spokeFail e k x cPerm p.va step
    | none => s
  | .argument key => s.argumentTimeout key p.va
  | .collective g q ch => s.chunkTimeout g q ch p.va
  | .collWrites g q => s.collWriteLost g q p.va
  | .gatherRow g _ _ => (s.gatherFault g p.part.toNat cPerm p.va).gatherCount g 1
  | .gatherEntry g => s.gatherReject g cPerm
  | .gatherList g => (s.gatherFault g p.part.toNat cPerm p.va).listOver g
  | .packet n => s.packetStop n qAddrFault 0 p.va (s.packetCopy n)
  | .poolCard part card => s.poolReject part card qBadCard 0
  | .organWrite _ _ _ _ _ => s
  | .sibPost n => s.sibTimeout n

/-- Whether a waiting access addresses the memory of the host: one to this module's own memory waits for a snoop (R424), not for port 0. -/
def State.forHost (s : State) (p : Parked) : Bool :=
  match s.workTarget p.part.toNat p.va p.work with
  | some (.host _) => true
  | some (.mem _) | some (.regs _) | none => false

/-- HOST_ACCESS_TIMEOUT (R426): an access to host memory has waited 22,500,000 cycles for port 0. -/
def execHostAccessTimeout (id : Nat) (s : State) : Out :=
  .next (match s.parked.find? fun p => decide (p.id = id) with
  | none => s
  | some p => if p.link && !s.linkUp && s.forHost p && decide (p.since + 22500000 ≤ s.now) then ((s.unpark id).linkTimeout p).settle else s)

end Sys2Proof.Machine
end

