-- ==== Sys2Proof/Machine/Flags.lean ====
section
/-!
DEFINITION. Flags: the tests that write condition bits and predicates: lane compares (R204), lane classes (R205), the keys by which lanes rank
(R221), and the choice of a lane (R207, R208).
-/
namespace Sys2Proof.Machine

/-- x = y of R204: +0 equals -0, and a NaN equals nothing. -/
def laneEq (f : Fmt) (x y : Nat) : Bool := (valOf f x).eq (valOf f y)
/-- x < y of R204. -/
def laneLt (f : Fmt) (x y : Nat) : Bool := (valOf f x).lt (valOf f y)
/-- x ≤ y of R204. -/
def laneLe (f : Fmt) (x y : Nat) : Bool := laneLt f x y || laneEq f x y
/-- x or y is NaN (R204). -/
def laneUo (f : Fmt) (x y : Nat) : Bool := (valOf f x).isNan || (valOf f y).isNan

/-- The class bit of a floating lane (R205). -/
def laneClass (f : Fmt) (x : Nat) : Nat :=
  let ef := x / 2 ^ f.fracBits % 2 ^ f.expBits
  match floatVal f x with
  | .nan => 0
  | .inf neg => if neg then 1 else 7
  | .fin neg m _ =>
    if m = 0 then 4
    else if ef = 0 then (if neg then 3 else 5)
    else if neg then 2 else 6

/-- Whether the key of x lies below the key of y (R221): -0 below +0, and NaN below every number. -/
def keyBelow (f : Fmt) (x y : Nat) : Bool :=
  if f.isFloat then
    let a := floatVal f x
    let b := floatVal f y
    if b.isNan then false else if a.isNan then true else a.below b
  else decide (intVal f x < intVal f y)

/-- Whether lane `i` with bits x ranks ahead of lane `j` with bits y (R221). -/
def ranksAhead (f : Fmt) (i x j y : Nat) : Bool := keyBelow f y x || (!keyBelow f x y && decide (i < j))

/-- Whether a lane passes a threshold (R223): a NaN lane never passes, and a NaN threshold passes no lane. -/
def passes (f : Fmt) (x : Nat) (t : Val) : Bool :=
  let a := valOf f x
  if a.isNan || t.isNan then false else !(a.below t)

/-- The threshold of a VTHCNT (R223). -/
def threshold (f : Fmt) (w : Word) : Val :=
  if f.isFloat then fp32Of w.toNat else if f = .uint8 then Val.ofInt w.toNat else Val.ofInt w.toInt

/-- A lane's value as a scalar (R207, R220): a floating value as FP32 zero-extended, an integer sign- or zero-extended. -/
def laneScalar (f : Fmt) (x : Nat) : Word :=
  if f.isFloat then BitVec.ofNat 64 (cvt x f .fp32 .rne false) else BitVec.ofInt 64 (intVal f x)

/-- The best of some lanes under an order, the earlier one among equals. -/
def bestLane (better : Nat → Nat → Bool) : List (Nat × Nat) → Option (Nat × Nat)
  | [] => none
  | x :: t => some (t.foldl (fun b y => if better y.2 b.2 then y else b) x)

/-- VRMAX and VRMIN (R187, R207). -/
def reduceBest (big : Bool) (f : Fmt) (v : VReg) (p : Pred) : Word :=
  let l := activeLanes v p f.width
  if f.isFloat && l.any fun x => (floatVal f x.2).isNan then BitVec.ofNat 64 (Fmt.nanBits .fp32)
  else
    match bestLane (fun x y => if big then keyBelow f y x else keyBelow f x y) l with
    | some x => laneScalar f x.2
    | none =>
      if f.isFloat then BitVec.ofNat 64 (Fmt.signBits .fp32 big + Fmt.infBits .fp32)
      else BitVec.ofInt 64 (if big then f.minInt else f.maxInt)

/-- VRAMAX and VRAMIN (R208): NaN lanes are passed over, unless every active lane is NaN. -/
def reduceIndex (big : Bool) (f : Fmt) (v : VReg) (p : Pred) : Word :=
  let l := activeLanes v p f.width
  let nums := l.filter fun x => !(valOf f x.2).isNan
  match bestLane (fun x y => if big then keyBelow f y x else keyBelow f x y) nums with
  | some x => BitVec.ofNat 64 x.1
  | none => match l with
    | x :: _ => BitVec.ofNat 64 x.1
    | [] => BitVec.allOnes 64

/-- Add of R186: the exact sum rounded to FP32, or the exact sum of integers. -/
def treeAdd (f : Fmt) (e : FmtEntry) (x y : Val) : Val :=
  if f.isFloat then floatVal .fp32 (cvtFloat .fp32 e.rnd e.sat (x.add e.rnd y)) else x.add .rne y

/-- One level of the pairwise tree of R186. -/
def treeLevel (g : Val → Val → Val) : List Val → List Val
  | x :: y :: t => g x y :: treeLevel g t
  | l => l

/-- The pairwise tree of R186 over 2^n lanes. -/
def treeSum (g : Val → Val → Val) : Nat → List Val → Val
  | 0, l => l.headD .zero
  | n + 1, l => treeSum g n (treeLevel g l)

/-- VRSUM (R186, R207). -/
def reduceSum (f : Fmt) (e : FmtEntry) (v : VReg) (p : Pred) : Word :=
  let l := (List.range f.lanes).map fun i => if laneOn p f.width i then valOf f (elem v i f.width) else Val.zero
  let r := treeSum (treeAdd f e) (Nat.log2 f.lanes) l
  if f.isFloat then BitVec.ofNat 64 (cvtFloat .fp32 e.rnd e.sat r) else BitVec.ofInt 64 r.toInt

/-- The lanes of VSCAN (R209): inclusive prefix sums in lane order from a running sum. -/
def scanLanes (f : Fmt) (e : FmtEntry) (old v : VReg) (p : Pred) : Nat → Nat → Val → List Nat
  | _, 0, _ => []
  | i, n + 1, y =>
    if laneOn p f.width i then
      let y := treeAdd f e y (valOf f (elem v i f.width))
      (if f.isFloat then cvtFloat f e.rnd e.sat y else writeInt f e.sat y.toInt) :: scanLanes f e old v p (i + 1) n y
    else elem old i f.width :: scanLanes f e old v p (i + 1) n y

end Sys2Proof.Machine
end

