-- ==== Sys2Proof/Machine/Route.lean ====
section
/-!
DEFINITION. Route: the meanings of the data-movement and routing operations of the vector slots (R211 to R232), and of the quad's counter unit
(R229).
-/
namespace Sys2Proof.Machine

/-! ### Moving lanes (R212, R214 to R218) -/

/-- VMOV (R214). -/
def execVmov (d a : Fin 256) (p : Fin 16) (s : State) : Out :=
  s.slotV [.v a] d fun c => mergeLanes 8 (c.getV d) (c.getP p) fun j => elem (c.getV a) j 8

/-- VROTM (R215): 2,048 bytes of the pair a‖b from a byte offset. -/
def execVrotm (d a b : Fin 256) (p : Fin 16) (off : BitVec 9) (s : State) : Out :=
  s.slotV [.v a, .v b] d fun c => mergeLanes 8 (c.getV d) (c.getP p) fun j =>
    let k := off.toNat + j
    if k < 2048 then elem (c.getV a) k 8 else elem (c.getV b) (k - 2048) 8

/-- VSLIDE (R216). -/
def execVslide (d a b : Fin 256) (p : Fin 16) (f : Fin 8) (n : BitVec 9) (s : State) : Out :=
  s.lanewise [.v a, .v b] d p (.column f) Fmt.plain fun c f _ i =>
    let j := i + n.toNat
    if j < f.lanes then elem (c.getV a) j f.width
    else if j < 2 * f.lanes then elem (c.getV b) (j - f.lanes) f.width
    else 0

/-- VPERM (R217): the index counts within groups of min(L, 2^w) lanes. -/
def execVperm (d a b : Fin 256) (p : Fin 16) (f : FmtSel) (s : State) : Out :=
  s.lanewise [.v a, .v b] d p f Fmt.plain fun c f _ i =>
    let g := min f.lanes (2 ^ f.width)
    elem (c.getV a) (g * (i / g) + elem (c.getV b) i f.width % g) f.width

/-- VZIP (R218). -/
def execVzip (d a b : Fin 256) (p : Fin 16) (f : FmtSel) (s : State) : Out :=
  s.lanewise [.v a, .v b] d p f Fmt.plain fun c f _ i =>
    if i % 2 = 0 then elem (c.getV a) (i / 2) f.width else elem (c.getV b) ((i - 1) / 2) f.width

/-- VUZP (R218). -/
def execVuzp (d a b : Fin 256) (p : Fin 16) (f : FmtSel) (s : State) : Out :=
  s.lanewise [.v a, .v b] d p f Fmt.plain fun c f _ i =>
    if i < f.lanes / 2 then elem (c.getV a) (2 * i) f.width else elem (c.getV b) (2 * (i - f.lanes / 2)) f.width

/-! ### Filling and single lanes (R219, R220) -/

/-- An integer value written into a format (R219). -/
def fillBits (f : Fmt) (e : FmtEntry) (x : Int) : Nat := if f.isFloat then cvtFloat f e.rnd e.sat (Val.ofInt x) else writeInt f e.sat x

/-- A scalar written into a format (R219): FP32 bits for a floating format, a signed integer for an integer format. -/
def scalarBits (f : Fmt) (e : FmtEntry) (x : Word) : Nat :=
  if f.isFloat then cvtFloat f e.rnd e.sat (fp32Of x.toNat) else writeInt f e.sat x.toInt

/-- VSPL. -/
def execVspl (d : Fin 256) (p : Fin 16) (f : Fin 8) (imm : BitVec 9) (s : State) : Out :=
  s.lanewise [] d p (.column f) Fmt.plain fun _ f e _ => fillBits f e imm.toInt
/-- VIOTA. -/
def execViota (d : Fin 256) (p : Fin 16) (f : FmtSel) (s : State) : Out :=
  s.lanewise [] d p f Fmt.plain fun _ f e i => fillBits f e i
/-- VBCST. -/
def execVbcst (d : Fin 256) (a : Fin 64) (p : Fin 16) (f : FmtSel) (s : State) : Out :=
  s.lanewise [.s a] d p f Fmt.plain fun c f e _ => scalarBits f e (c.getS a)

/-- Take a format from a column for one lane (R220): a lane number at or above L traps with FORMAT. -/
def State.withLane (s : State) (c : Ctx) (f : Fin 8) (lane : BitVec 9) (g : Fmt → FmtEntry → State → State) : State :=
  s.withFmt c (.column f) Fmt.plain .none fun t e s =>
    if lane.toNat < t.lanes then g t e s else s.trapSlot cFormat 0 (BitVec.ofNat 32 (c.entryBits (.column f)))

/-- VEXT. -/
def execVext (d : Fin 64) (a : Fin 256) (f : Fin 8) (lane : BitVec 9) (s : State) : Out :=
  .next (s.slot [.v a] [.s d] fun c s => s.withLane c f lane fun t _ s =>
    s.own fun x => x.setS d (laneScalar t (elem (c.getV a) lane.toNat t.width)))
/-- VINS: it reads its destination. -/
def execVins (d : Fin 256) (a : Fin 64) (p : Fin 16) (f : Fin 8) (lane : BitVec 9) (s : State) : Out :=
  .next (s.slot [.v d, .s a] [.v d] fun c s => s.withLane c f lane fun t e s =>
    s.own fun x => x.setV d (vlanes t.width fun i =>
      if i = lane.toNat ∧ laneOn (c.getP p) t.width i then scalarBits t e (c.getS a) else elem (c.getV d) i t.width))

/-! ### Selection (R221 to R223) -/

/-- The active lanes of a register group, numbered j = r * L + i (R222). -/
def groupLanes (vs : List VReg) (p : Pred) (f : Fmt) : List (Nat × Nat) :=
  vs.zipIdx.flatMap fun v => (activeLanes v.1 p f.width).map fun x => (v.2 * f.lanes + x.1, x.2)

/-- The bitmap of the k lanes that rank first (R222). -/
def topBitmap (f : Fmt) (l : List (Nat × Nat)) (k : Nat) : VReg :=
  BitVec.ofNat 16384 ((l.filter fun x => decide ((l.filter fun y => ranksAhead f y.1 y.2 x.1 x.2).length < k)).map fun x => 2 ^ x.1).sum

/-- The registers of a group of g1 + 1 from a. -/
def groupRegs (a : Fin 256) (g1 : Nat) : List (Fin 256) := (List.range (g1 + 1)).map fun i => Fin.ofNat 256 (a.val + i)

/-- VTOPK: over more than one register the destination is empty until the value lands (R116). -/
def execVtopk (d a : Fin 256) (b : Fin 64) (p : Fin 16) (f g1 : Fin 8) (s : State) : Out :=
  .next (s.slot ((groupRegs a g1.val).map Dst.v ++ [.s b]) [.v d] fun c s =>
    s.withFmt c (.column f) Fmt.plain .none fun t _ s =>
      let r := topBitmap t (groupLanes ((groupRegs a g1.val).map c.getV) (c.getP p) t) (c.getS b).toNat
      if g1 = 0 then s.own fun x => x.setV d r else (s.produce (.v d) (some r) none (48 + 24 * g1.val)).2)

/-- The counts of VTHCNT per row of lanes, as the lanes of its q-th destination register (R223). -/
def rowCounts (f : Fmt) (v : VReg) (p : Pred) (t : Val) (lg q : Nat) : VReg :=
  let span := min (2 ^ lg) f.lanes
  vlanes 32 fun k =>
    let row := 512 * q + k
    if row < f.lanes / span then
      (((List.range span).map (row * span + ·)).filter fun i => laneOn p f.width i && passes f (elem v i f.width) t).length
    else 0

/-- VTHCNT: a destination register at or above VREGS traps with FORMAT, and a group of more than one is empty until it lands. Where another slot of the bundle
writes a register of the group after d, which R91 does not count, the counts land last and stand (DESIGN CHOICE; log 16). -/
def execVthcnt (d a : Fin 256) (b : Fin 64) (p : Fin 16) (f : Fin 8) (lg : Fin 10) (s : State) : Out :=
  .next (s.slot [.v a, .s b] [.v d] fun c s =>
    s.withFmt c (.column f) Fmt.plain .none fun t _ s =>
      let n := thcntRegs t lg.val
      let r := rowCounts t (c.getV a) (c.getP p) (threshold t (c.getS b)) lg.val
      if c.vregs < d.val + n then s.trapSlot cFormat 0 (BitVec.ofNat 32 (c.entryBits (.column f)))
      else if n = 1 then s.own fun x => x.setV d (r 0)
      else
        let regs := groupRegs d (n - 1)
        if regs.any fun g => c.emptyReg (.v g) then s.waits
        else regs.zipIdx.foldl (fun s g => (s.produce (.v g.1) (some (r g.2)) none (12 + 4 * (n - 1))).2) s)

/-! ### Bitmaps, rank and select (R224, R225) -/

/-- VBMP: the lane bitmap of a predicate, in the geometry of its format. -/
def execVbmp (d : Fin 256) (a : Fin 16) (f : Fin 8) (s : State) : Out :=
  s.vop [] d (.column f) (fun f => f.plain || decide (f = .cb4)) .none fun c f _ =>
    vlanes 1 fun i => (decide (i < f.lanes) && laneOn (c.getP a) f.width i).toNat

/-- VRANK. -/
def execVrank (d a b : Fin 256) (p : Fin 16) (s : State) : Out :=
  s.slotV [.v a, .v b] d fun c => mergeLanes 32 (c.getV d) (c.getP p) fun i =>
    let n := min (elem (c.getV b) i 32) 16384
    popcount ((c.getV a).toNat % 2 ^ n) n

/-- The positions of the set bits of a bitmap, in order. -/
def setPositions (v : VReg) : List Nat := (List.range 16384).filter fun i => v.getLsbD i

/-- VSELB. -/
def execVselb (d a b : Fin 256) (p : Fin 16) (s : State) : Out :=
  s.slotV [.v a, .v b] d fun c => mergeLanes 32 (c.getV d) (c.getP p) fun i =>
    (setPositions (c.getV a)).getD (elem (c.getV b) i 32) 0xFFFFFFFF

/-! ### Histograms, count queues and routing counters (R226 to R229) -/

/-- VHIST. -/
def execVhist (d a : Fin 256) (p : Fin 16) (f : FmtSel) (s : State) : Out :=
  s.vop [.v a] d f (fun f => f = .int8 || f = .uint8 || f = .int16 || f = .int32) .none fun c f _ =>
    let l := activeLanes (c.getV a) (c.getP p) f.width
    vlanes 32 fun k => (l.filter fun x => decide (x.2 % 512 = k)).length

/-- VCQP: a push of more than the queue has room for traps with CQ_OVERFLOW and pushes nothing. -/
def execVcqp (a : Fin 256) (p : Fin 16) (n1 : Fin 64) (q : Fin 4) (s : State) : Out :=
  .next (s.slot [.v a] [] fun c s =>
    let l := ((List.range (n1.val + 1)).filter fun i => laneOn (c.getP p) 32 i).map fun i => BitVec.ofNat 32 (elem (c.getV a) i 32)
    if 64 < (c.cq[q]).length + l.length then s.trapSlot cCqOverflow 0 0
    else s.own fun x => { x with cq := x.cq.set q (x.cq[q] ++ l) })

/-- Send an operation to the quad's counter unit (R228). -/
def State.sendCounter (s : State) (op : Nat × Option VReg) : State :=
  s.modQuad (quadOf s.issue.key) fun x => { x with rcOps := x.rcOps ++ [op] }

/-- RCADD: lanes 0 to 63 go to the counter unit, inactive ones as 0. -/
def execRcadd (a : Fin 256) (p : Fin 16) (s : State) : Out :=
  .next (s.slot [.v a] [] fun c s =>
    s.sendCounter (0, some (vlanes 32 fun i => if i < 64 ∧ laneOn (c.getP p) 32 i then elem (c.getV a) i 32 else 0)))

/-- RCSNAP: the destination is empty until the counter unit answers. -/
def execRcsnap (d : Fin 256) (s : State) : Out :=
  .next (s.slot [] [.v d] fun _ s =>
    let n := s.produce (.v d) none none 12
    n.2.sendCounter (n.1, none))

/-- ROUTING_COUNTER_OP (R229): the counter unit performs its oldest operation; an RCSNAP returns the counters and clears them. -/
def execRoutingCounterOp (quad : Fin 32) (s : State) : Out :=
  .next (match (s.quad quad.val).rcOps with
  | [] => s
  | (id, op) :: t =>
    let q := s.quad quad.val
    match op with
    | some v => s.modQuad quad.val fun x =>
        { x with rcOps := t, rct := Vector.ofFn fun i => (x.rct[i]) + BitVec.ofNat 32 (elem v i.val 32) }
    | none =>
      let v := vlanes 32 fun i => (q.rct.getD i 0).toNat
      (s.modQuad quad.val fun x => { x with rcOps := t, rct := Vector.replicate 64 0 }).answer id v none 0 3)

/-! ### Checksums, format table and codebooks (R230 to R232) -/

/-- VCSUM: the scalar holds the index of the first word, and receives the contribution. -/
def execVcsum (d : Fin 64) (a : Fin 256) (n1 : Fin 8) (s : State) : Out :=
  s.slotS [.v a, .s d] d fun c => BitVec.ofNat 64 (checksumFrom (c.getV a).toNat (c.getS d).toNat (32 * (n1.val + 1)) 0)

/-- FTLD: rows from `row` on, wrapping past row 63. -/
def execFtld (a : Fin 256) (b row : Fin 64) (s : State) : Out :=
  .next (s.slot [.v a, .s b] [] fun c s =>
    let n := min (c.getS b).toNat 64
    s.own fun x => { x with ft := Vector.ofFn fun i =>
      let j := (i.val + 64 - row.val) % 64
      if j < n then BitVec.ofNat 128 (elem (c.getV a) j 128) else x.ft[i] })

/-- CBLD. -/
def execCbld (a : Fin 256) (cb : Fin 8) (s : State) : Out :=
  .next (s.slot [.v a] [] fun c s => s.own fun x => { x with cb := x.cb.set cb ((c.getV a).setWidth 256) })

end Sys2Proof.Machine
end

