-- ==== Sys2Proof/Machine/Idle.lean ====
section
/-!
DEFINITION. Idle: what the part's agents do of themselves before a tick of the timebase, when the agenda is empty (log 4): each happening that is
enabled by what the state holds, once, in the order below.
-/
namespace Sys2Proof.Machine

/-- A happening, or nothing when it stops. The writes of its read-modify-writes of host memory follow at once: no host agent acts here (R425). -/
def State.may (s : State) (f : State → Out) : State :=
  match f s with
  | .next t => t.flushPuts
  | .fault _ | .refused _ => s

/-- Happenings in order. -/
def State.mays (s : State) (l : List (State → Out)) : State := l.foldl State.may s

/-- Core and context of a key. -/
def keyCore (k : Nat) : Fin 128 := Fin.ofNat 128 (coreOf k)
/-- See `keyCore`. -/
def keyCtx (k : Nat) : Fin 8 := Fin.ofNat 8 k

/-- The packets of a queue. -/
def idleQueue (n : Nat) : List (State → Out) :=
  let q : Fin 1024 := Fin.ofNat 1024 n
  [execMapComplete q, execUnmapComplete q, execNopPacket q, execLaunchPacket q, execImage q, execMap q, execUnmap q, execFlagWrite q, execFlagWait q,
   execPartResize q, execGatherCfg q, execQueueCreate q]

/-- The places that the model chooses for a waiting team (R51, R66; log 16): each logical core in turn takes the first core of the partition that can hold it
now; else the first that the team has reserved; else the first without contexts of a higher level; else the first that stays in the partition; and there
the lowest free context. -/
def State.choosePlaces (s : State) (job : Nat) (j : Job) : List Place :=
  let stays := (List.range 128).filter fun c => decide (s.quadPart (c / 4) = j.part) && !s.quadMoving (c / 4) && (s.quad (c / 4)).zeroEnd.isNone
  let at_ (c logical : Nat) : Place :=
    Place.mk (Fin.ofNat 128 logical) (Fin.ofNat 128 c)
      (Fin.ofNat 8 (((List.range 8).find? fun i => decide ((s.ctx (c * 8 + i)).life = Life.free)).getD 0))
  let mine := ((j.team.map (·.places)).getD []).map fun p => p.core.val
  let lower (c : Nat) : Bool := (List.range 8).all fun i => let x := s.ctx (c * 8 + i); decide (x.life = .free ∨ x.prio.toNat ≤ j.prio)
  (j.logicals.foldl (fun (acc : List Place) i =>
    let left := stays.filter fun c => !acc.any fun p => decide (p.core.val = c)
    match (((left.find? fun c => s.placeFree job j (at_ c i)).orElse fun _ => left.find? fun c => mine.contains c && lower c).orElse fun _ =>
        left.find? lower).orElse fun _ => left.head? with
    | some c => acc ++ [at_ c i]
    | none => acc) [])

/-- The jobs and their teams. -/
def idleJob (s : State) (job : Nat) : State :=
  let n : Fin 4096 := Fin.ofNat 4096 job
  let s := s.mays [execTeamRelease n, execSliceStopRequest n, execSliceEnd n, execStopPoint n]
  match s.job? job with
  | none => s
  | some j =>
    if (j.team.map Team.waits).getD false then s.may (execTeamPlace n (s.choosePlaces job j) (s.now + 256)) else s

/-- Whose saves may wait for room (R76): the live jobs, and the jobs of the contexts that are resident or saved. -/
def State.saveJobs (s : State) : List Nat :=
  (s.jobs.map (·.1) ++ s.ctxs.map (fun e => e.2.job.toNat) ++ s.saved.map (fun x => x.ctx.job.toNat)).eraseDups

/-- Whether any work waits for a free context. -/
def State.anyWork (s : State) : Bool :=
  !s.saved.isEmpty || (s.taskQueues.any fun e => !e.2.isEmpty) || (s.jobs.any fun e => !e.2.returned.isEmpty) ||
  (s.ranges.any fun r => decide (r.2.1 < r.2.2)) || s.ctxs.any fun e => !e.2.chunks.isEmpty && decide (e.2.life = Life.free)

/-- Free contexts look for work (R63), context 0 of every core first; then the hub links carry what they asked for, and the ports serve it (R61). -/
def idleWork (s : State) : State :=
  if s.anyWork then
    let s := (((List.range 8).flatMap fun k => (List.range 128).map fun c => c * 8 + k)).foldl State.seek s
    let s := (List.range 4).foldl State.serveHubs s
    (List.range 4).foldl (fun (s : State) d => (s.servePorts false d).servePorts true d) s
  else s

/-- What a resident context waits for. -/
def idleCtx (k : Nat) : List (State → Out) :=
  [execFetchFault (keyCore k) (keyCtx k), execPageLoad (keyCore k) (keyCtx k), execWaitaPoll (keyCore k) (keyCtx k), execBarRelease (keyCore k) (keyCtx k) [],
   execWoundwaitExpiry (keyCore k) (keyCtx k), execWatchdog (keyCore k) (keyCtx k)]

/-- A core's arrivals and channels. -/
def idleCore (s : State) (i : Nat) : State :=
  let core : Fin 128 := Fin.ofNat 128 i
  let s := if (s.core i).arrivals.isEmpty then s else s.deliverListed i
  let s := if (s.core i).arriving.isEmpty then s else s.may (execArrival core)
  (s.core i).chans.foldl (fun (s : State) e => s.mays [execChannelArrival core (Fin.ofNat 64 e.1), execChannelCredit core (Fin.ofNat 64 e.1)]) s

/-- A quad's schedulers and engines. -/
def idleQuad (q : Nat) : List (State → Out) :=
  let x : Fin 32 := Fin.ofNat 32 q
  [execRoutingCounterOp x, execTileStart x, execTileDone x 0, execTileDone x 1, execTileDone x 2, execTileDone x 3, execCopyOp x, execFill x, execZero x,
   execAcc x, execAccf x, execCas x, execResizeTimeout x, execQuadMove x, execQuadZeroEnd x]

/-- The copy commands of a quad whose done adds an array has held (R413). -/
def idleCopies (s : State) (q : Nat) : State :=
  s.mays (((s.quad q).copies.filter (·.finished)).map fun c => execCopyDone (Fin.ofNat 32 q) c.id)

/-- The re-tests of a quad's monitor entries that retention holds (R413). -/
def idleMonitor (s : State) (q : Nat) : State :=
  s.mays (((s.quad q).monitor.filter fun e => decide (e.next ≠ 0)).map fun e => execMonitorRetest (Fin.ofNat 32 q) e.id)

/-- A spoke of a Wheel engine: its next step, and its hops that are not finished. -/
def idleSpoke (s : State) (e k : Nat) : State :=
  let e' : Fin 4 := Fin.ofNat 4 e
  let k' : Fin 16 := Fin.ofNat 16 k
  let s := s.mays [execHop e' k', execWaitrel e' k', execBarrier e' k', execMcast e' k', execEvict e' k', execItinLoop e' k', execMark e' k', execSetwin e' k',
    execItinEnd e' k']
  match tget (s.wheel e).spokes k with
  | none => s
  | some x => (x.hops.filter fun h => !h.finished).foldl (fun (s : State) h => s.may (execHopFinish e' k' h.n [] [])) s

/-- A Wheel engine. -/
def idleWheel (s : State) (e : Nat) : State :=
  let s := s.mays [execSpokeStart (Fin.ofNat 4 e), execShardRelease (Fin.ofNat 4 e)]
  ((s.wheel e).spokes.map (·.1)).foldl (fun (s : State) k => idleSpoke s e k) s

/-- A die with its base die. -/
def idleDie (d : Nat) : List (State → Out) :=
  let x : Fin 4 := Fin.ofNat 4 d
  [execLockRequest x, execLockGrant x, execCollAccept x] ++ (List.range 64).map fun g => execBtownZeroEnd x (Fin.ofNat 64 g)

/-- The entry of every array into retention, and its exit (R413). -/
def idleRetention : List (State → Out) :=
  ((List.range 32).map (fun q => ArrayId.scratch (Fin.ofNat 32 q)) ++ (List.range 4).map fun d => ArrayId.bigTop (Fin.ofNat 4 d)).flatMap fun a =>
    [execRetentionEntry a, execRetentionExit a]

/-- Everything that can happen of itself, once. -/
def State.autonomous (s : State) : State :=
  let s := if s.heldWrites.isEmpty then s else s.flushWrites.settle
  let s := (s.queues.map (·.1)).foldl (fun (s : State) n => s.mays (idleQueue n)) s
  let s := if s.pool.isEmpty then s else s.may execPoolDuty
  let s := s.mays (s.monDuty.map fun e => execMonitorRetest 0 e.id)
  let s := s.mays (s.saveJobs.map fun n => execSaveRetry (Fin.ofNat 4096 n))
  let s := (s.jobs.map (·.1)).foldl idleJob s
  let s := (s.ctxs.map (·.1)).foldl (fun (s : State) k => s.mays (idleCtx k)) s
  let s := (s.cores.map (·.1)).foldl idleCore s
  let s := (s.quads.map (·.1)).foldl (fun (s : State) q => idleMonitor (idleCopies (s.mays (idleQuad q)) q) q) s
  let s := s.mays idleRetention
  let s := (s.wheels.map (·.1)).foldl idleWheel s
  let s := if s.fills.isEmpty && s.evictions.isEmpty then s else s.may execSlotCycle
  let s := (s.gather.map (·.1)).foldl (fun (s : State) g => s.mays [execGatherEntry (Fin.ofNat 16 g), execBatchPush (Fin.ofNat 16 g)]) s
  let s := (s.dies.map (·.1)).foldl (fun (s : State) d => s.mays (idleDie d)) s
  let s := (s.colls.map fun e => (e.1, e.2.1)).foldl (fun (s : State) e => (s.pumpHeld e.1 e.2).collFlush e.1 e.2 64) s
  let s := s.serveRope
  let s := (s.parked.map (·.id)).foldl (fun (s : State) i => s.mays [execParkResume i, execHostAccessTimeout i]) s
  idleWork s

end Sys2Proof.Machine
end

