-- ==== Sys2Proof/Machine/Cycle.lean ====
section
/-!
DEFINITION. Cycle: what one step does (log 4), and how an instruction is placed where the next step fetches (log 7).
-/
namespace Sys2Proof.Machine

/-- Whose turn it is after core `i` has run from `s` to `t`: its own again when a result landed, or when the chosen context turned out not to be ready
(a context that is not ready costs no dispatch cycle, R121); else the next core's. -/
def State.turnOf (s : State) (i : Nat) (t : State) : State :=
  let again := ((List.range 8).map (i * 8 + ·)).any fun k => s.dueLanding k || ((t.ctx k).held && !(s.ctx k).held)
  if again then { t with nextCore := i } else t

/-- What happens when the agenda is empty: each core in turn dispatches a bundle of a ready context or lands a result; after the last core the other
agents act, and the timebase ticks. -/
def freeRun (ex : Instr → State → Out) (s : State) : Out :=
  match (List.range 128).find? fun i => decide (s.nextCore ≤ i) &&
      ((s.pickCtx i).isSome || ((List.range 8).map (i * 8 + ·)).any s.dueLanding) with
  | some i =>
    match runCore ex { s with nextCore := i + 1 } i with
    | .next t => .next (s.turnOf i t)
    | .fault f => .fault f
    | .refused r => .refused r
  | none => ex .timebaseTick { s.autonomous with nextCore := 0 }

/-- A host agent writes a row of host memory (R425). -/
def State.hostStore (s : State) (row : Nat) (data : Row) (mask : BitVec 256) : State :=
  if 2 ^ 51 ≤ row ∧ row < 2 ^ 52 then s.storeRow (rowOf row) data mask else s

/-- A host agent answers the snoop of a line (R424): it holds the line no longer, and what waits for it alone goes on. -/
def State.snoopDone (s : State) (line : Nat) : State :=
  { s with hostLines := s.hostLines.filter (· ≠ line), snoops := s.snoops.filter (· ≠ line) }.settle

/-- Bits of the data of a copy command's next unit are altered on their way to the destination port (R286; log 27). -/
def State.flipCopy (s : State) (quad id bits : Nat) : State :=
  s.modQuad quad fun x => { x with copies := x.copies.map fun (c : CopyCmd) => if c.id = id then { c with wire := bits } else c }

/-- An element of a list altered in some bits. -/
def flipAt (l : List Nat) (i bits : Nat) : List Nat := l.zipIdx.map fun e => if e.2 = i then e.1 ^^^ bits else e.1

/-- A message whose payload is altered in one element on its way. -/
def OutMsg.flip (elem bits : Nat) : OutMsg → OutMsg
  | .contribution g q ch m e data sum special => .contribution g q ch m e (flipAt data elem bits) sum special
  | .delivery g q ch m e data sum special => .delivery g q ch m e (flipAt data elem bits) sum special
  | m => m

/-- Bits of one element of a message that leaves on the Tightrope are altered before it crosses to another base die (R379; log 27). -/
def State.flipRope (s : State) (msg elem bits : Nat) : State :=
  { s with ropeOut := s.ropeOut.zipIdx.map fun (x : RopeMsg × Nat) => if x.2 = msg then { x.1 with msg := x.1.msg.flip elem bits } else x.1 }

/-- Whether a happening is a write by a host agent: one that may fall between the read and the write of a read-modify-write of host memory (R425). -/
def Act.isHost : Act → Bool
  | .hostStore _ _ _ => true
  | .event _ | .dispatch _ | .snoopDone _ | .flipCopy _ _ _ | .flipRope _ _ _ => false

/-- Whether an instruction is a slot operation, which only a bundle runs. -/
def isSlotOp (i : Instr) : Bool := !i.slots.isEmpty

/-- One step, given the meaning of the instructions. A halted module takes no step but a module reset (R436). A slot operation on the agenda is
dropped: only a bundle runs one. While a read-modify-write of host memory has read and not written, a write by a host agent may come next; before anything
else its write comes (R277, R425). -/
def cycle (ex : Instr → State → Out) (s : State) : Out :=
  if !s.hostPuts.isEmpty && !s.halted && !(s.agenda.head?.any Act.isHost) then .next s.flushPuts else
  match s.agenda with
  | .event i :: t =>
    if s.halted && decide (i ≠ .moduleReset) then .fault .halted
    else if isSlotOp i then .next { s with agenda := t }
    else ex i { s with agenda := t }
  | .hostStore row data mask :: t =>
    if s.halted then .fault .halted else .next ({ s with agenda := t }.hostStore row data mask)
  | .snoopDone line :: t => if s.halted then .fault .halted else .next ({ s with agenda := t }.snoopDone line)
  | .flipCopy quad id bits :: t => if s.halted then .fault .halted else .next ({ s with agenda := t }.flipCopy quad id bits)
  | .flipRope msg elem bits :: t => if s.halted then .fault .halted else .next ({ s with agenda := t }.flipRope msg elem bits)
  | .dispatch core :: t => if s.halted then .fault .halted else runCore ex { s with agenda := t } core.val
  | [] => if s.halted then .fault .halted else freeRun ex s

/-- The slot and bytes of a word of the opcode table as a bundle of its own: a word that no slot decodes goes to SCA or VA as it is. -/
def wordBundle (nbits w : Nat) : List Byte :=
  match decodeTableSlot nbits w with
  | some x => encodeBundle [x]
  | none =>
    let t := if nbits ≤ 32 then Slot.sca else Slot.va
    BitVec.ofNat 8 (2 ^ t.bit) :: leBytes t.bytes w

/-- Bytes as the cells of a code page from offset 0. -/
def codeCells (l : List Byte) : List Host.Cell := (l.zipIdx.map fun e => (e.2, e.1)).filter fun e => decide (e.2 ≠ 0)

/-- Place a word as the only bundle of page 0 of the code of core 0, context 0, and make that context the one the next step dispatches: running at
priority 31, its pc at offset 0, nothing in flight and no transfer pending; the agenda is empty and core 0 is next (log 7). -/
def State.placeWord (s : State) (nbits w : Nat) : State :=
  let c := s.ctx 0
  let frame : Frame := ⟨c.part, c.image, 0, codeCells (wordBundle nbits w)⟩
  let s := s.modCore 0 fun x =>
    { x with frames := frame :: x.frames.filter (fun f => decide (f.page ≠ 0 ∨ f.image ≠ c.image ∨ f.part ≠ c.part)), lastDisp := tset x.lastDisp 31 7 }
  { s.setCtx 0 { c with life := .running, wait := .none, stopReq := false, held := false, begun := false, pc := 0, seq := false, xfer := 0, prio := 31, inflight := [] }
    with agenda := [], hostPuts := [], nextCore := 0, issue := .idle, halted := false }

end Sys2Proof.Machine
end

