-- ==== Sys2Proof/Machine/Scalar.lean ====
section
/-!
DEFINITION. Scalar: the meanings of the SCA and ADR operations (R148 to R169).
-/
namespace Sys2Proof.Machine

/-- NOP.S (R94). -/
def execNopS (s : State) : Out := s.slotNop
/-- NOP.A (R94). -/
def execNopA (s : State) : Out := s.slotNop

/-- ADD (R150). -/
def execAdd (d a b : Fin 64) (s : State) : Out := s.bin d a b fun x y => x + y

/-- SUB (R150). -/
def execSub (d a b : Fin 64) (s : State) : Out := s.bin d a b fun x y => x - y

/-- MUL (R150). -/
def execMul (d a b : Fin 64) (s : State) : Out := s.bin d a b fun x y => x * y

/-- MULH (R150): bits [127:64] of the signed product. -/
def execMulh (d a b : Fin 64) (s : State) : Out := s.bin d a b fun x y => BitVec.ofInt 64 (x.toInt * y.toInt / 2 ^ 64)

/-- MULHU (R150). -/
def execMulhu (d a b : Fin 64) (s : State) : Out := s.bin d a b fun x y => BitVec.ofNat 64 (x.toNat * y.toNat / 2 ^ 64)

/-- DIV (R151): the quotient of -2^63 by -1 wraps to -2^63. -/
def execDiv (d a b : Fin 64) (s : State) : Out := s.bin d a b fun x y => if y = 0 then BitVec.allOnes 64 else BitVec.ofInt 64 (x.toInt.tdiv y.toInt)

/-- DIVU (R151). -/
def execDivu (d a b : Fin 64) (s : State) : Out := s.bin d a b fun x y => if y = 0 then BitVec.allOnes 64 else BitVec.ofNat 64 (x.toNat / y.toNat)

/-- REM (R151). -/
def execRem (d a b : Fin 64) (s : State) : Out := s.bin d a b fun x y => if y = 0 then x else BitVec.ofInt 64 (x.toInt.tmod y.toInt)

/-- REMU (R151). -/
def execRemu (d a b : Fin 64) (s : State) : Out := s.bin d a b fun x y => if y = 0 then x else BitVec.ofNat 64 (x.toNat % y.toNat)

/-- AND (R150). -/
def execAnd (d a b : Fin 64) (s : State) : Out := s.bin d a b fun x y => x &&& y

/-- OR (R150). -/
def execOr (d a b : Fin 64) (s : State) : Out := s.bin d a b fun x y => x ||| y

/-- XOR (R150). -/
def execXor (d a b : Fin 64) (s : State) : Out := s.bin d a b fun x y => x ^^^ y

/-- ANDN (R150). -/
def execAndn (d a b : Fin 64) (s : State) : Out := s.bin d a b fun x y => x &&& ~~~y

/-- SHL (R150): the count is b modulo 64. -/
def execShl (d a b : Fin 64) (s : State) : Out := s.bin d a b fun x y => x <<< (y.toNat % 64)

/-- SHR (R150). -/
def execShr (d a b : Fin 64) (s : State) : Out := s.bin d a b fun x y => x >>> (y.toNat % 64)

/-- SRA (R150). -/
def execSra (d a b : Fin 64) (s : State) : Out := s.bin d a b fun x y => x.sshiftRight (y.toNat % 64)

/-- ROTL (R150). -/
def execRotl (d a b : Fin 64) (s : State) : Out := s.bin d a b fun x y => x.rotateLeft (y.toNat % 64)

/-- MIN (R150), signed. -/
def execMin (d a b : Fin 64) (s : State) : Out := s.bin d a b fun x y => if x.toInt ≤ y.toInt then x else y

/-- MAX (R150), signed. -/
def execMax (d a b : Fin 64) (s : State) : Out := s.bin d a b fun x y => if x.toInt ≤ y.toInt then y else x

/-- MINU (R150), unsigned. -/
def execMinu (d a b : Fin 64) (s : State) : Out := s.bin d a b fun x y => if x.toNat ≤ y.toNat then x else y

/-- MAXU (R150), unsigned. -/
def execMaxu (d a b : Fin 64) (s : State) : Out := s.bin d a b fun x y => if x.toNat ≤ y.toNat then y else x

/-- SHLADD (R150). -/
def execShladd (d a b : Fin 64) (sh : Fin 4) (s : State) : Out := s.bin d a b fun x y => (x <<< sh.val) + y

/-- MADD (R150). -/
def execMadd (d a b x : Fin 64) (s : State) : Out := s.slotS [.s a, .s b, .s x] d fun c => c.getS a * c.getS b + c.getS x

/-- CLZ (R152): 64 for zero. -/
def execClz (d a : Fin 64) (s : State) : Out := s.una d a fun x => BitVec.ofNat 64 (leadingZeros x)

/-- CTZ (R152): 64 for zero. -/
def execCtz (d a : Fin 64) (s : State) : Out := s.una d a fun x => BitVec.ofNat 64 (trailingZeros x)

/-- POPC (R152). -/
def execPopc (d a : Fin 64) (s : State) : Out := s.una d a fun x => BitVec.ofNat 64 (popcount x.toNat 64)

/-- EXTR (R152): `w1` is the width less one. -/
def execExtr (d a lo w1 : Fin 64) (s : State) : Out := s.una d a fun x => BitVec.ofNat 64 (bitsOf x (lo.val + w1.val) lo.val)

/-- DEP (R152): reads its destination. -/
def execDep (d a lo w1 : Fin 64) (s : State) : Out := s.slotS [.s a, .s d] d fun c => BitVec.ofNat 64 (nset (c.getS d).toNat (lo.val + w1.val) lo.val (c.getS a).toNat)

/-- ADDI (R153). -/
def execAddi (d a : Fin 64) (imm : BitVec 12) (s : State) : Out := s.una d a fun x => x + imm.signExtend 64

/-- ANDI (R153). -/
def execAndi (d a : Fin 64) (imm : BitVec 12) (s : State) : Out := s.una d a fun x => x &&& imm.signExtend 64

/-- ORI (R153). -/
def execOri (d a : Fin 64) (imm : BitVec 12) (s : State) : Out := s.una d a fun x => x ||| imm.signExtend 64

/-- XORI (R153). -/
def execXori (d a : Fin 64) (imm : BitVec 12) (s : State) : Out := s.una d a fun x => x ^^^ imm.signExtend 64

/-- SHLI (R153). -/
def execShli (d a sh : Fin 64) (s : State) : Out := s.una d a fun x => x <<< sh.val

/-- SHRI (R153). -/
def execShri (d a sh : Fin 64) (s : State) : Out := s.una d a fun x => x >>> sh.val

/-- SRAI (R153). -/
def execSrai (d a sh : Fin 64) (s : State) : Out := s.una d a fun x => x.sshiftRight sh.val

/-- LDI (R154). -/
def execLdi (d : Fin 64) (imm : BitVec 18) (s : State) : Out := s.slotS [] d fun _ => imm.signExtend 64

/-- LDHI (R154): replaces the 16-bit field k of its destination. -/
def execLdhi (d : Fin 64) (k : Fin 4) (imm : BitVec 16) (s : State) : Out := s.slotS [.s d] d fun c => BitVec.ofNat 64 (nset (c.getS d).toNat (16 * k.val + 15) (16 * k.val) imm.toNat)

/-- CMPEQ (R155). -/
def execCmpeq (d : Fin 8) (a b : Fin 64) (s : State) : Out := s.test d a b fun x y => decide (x = y)

/-- CMPNE (R155). -/
def execCmpne (d : Fin 8) (a b : Fin 64) (s : State) : Out := s.test d a b fun x y => decide (x ≠ y)

/-- CMPLT (R155). -/
def execCmplt (d : Fin 8) (a b : Fin 64) (s : State) : Out := s.test d a b fun x y => decide (x.toInt < y.toInt)

/-- CMPLTU (R155). -/
def execCmpltu (d : Fin 8) (a b : Fin 64) (s : State) : Out := s.test d a b fun x y => decide (x.toNat < y.toNat)

/-- CMPGE (R155). -/
def execCmpge (d : Fin 8) (a b : Fin 64) (s : State) : Out := s.test d a b fun x y => decide (y.toInt ≤ x.toInt)

/-- CMPGEU (R155). -/
def execCmpgeu (d : Fin 8) (a b : Fin 64) (s : State) : Out := s.test d a b fun x y => decide (y.toNat ≤ x.toNat)

/-- CMPEQI (R155). -/
def execCmpeqi (d : Fin 8) (a : Fin 64) (imm : BitVec 12) (s : State) : Out := s.slotC [.s a] d fun c => decide (c.getS a = imm.signExtend 64)

/-- CMPLTI (R155), signed. -/
def execCmplti (d : Fin 8) (a : Fin 64) (imm : BitVec 12) (s : State) : Out := s.slotC [.s a] d fun c => decide ((c.getS a).toInt < imm.toInt)

/-- CAND (R155). -/
def execCand (d a b : Fin 8) (s : State) : Out := s.slotC [.c a, .c b] d fun c => c.getC a && c.getC b

/-- COR (R155). -/
def execCor (d a b : Fin 8) (s : State) : Out := s.slotC [.c a, .c b] d fun c => c.getC a || c.getC b

/-- SEL (R156). -/
def execSel (d a b : Fin 64) (c : Fin 8) (s : State) : Out := s.slotS [.s a, .s b, .c c] d fun x => if x.getC c then x.getS a else x.getS b

/-- FADD (R157). -/
def execFadd (d a b : Fin 64) (s : State) : Out := s.fbin d a b fun x y => rne32 (Val.add .rne x y)

/-- FSUB (R157). -/
def execFsub (d a b : Fin 64) (s : State) : Out := s.fbin d a b fun x y => rne32 (Val.add .rne x y.neg)

/-- FMUL (R157). -/
def execFmul (d a b : Fin 64) (s : State) : Out := s.fbin d a b fun x y => rne32 (x.mul y)

/-- FDIV (R157). -/
def execFdiv (d a b : Fin 64) (s : State) : Out := s.fbin d a b fun x y => divBits x y

/-- FMIN (R158). -/
def execFmin (d a b : Fin 64) (s : State) : Out := s.fbin d a b fun x y => rne32 (x.min y)

/-- FMAX (R158). -/
def execFmax (d a b : Fin 64) (s : State) : Out := s.fbin d a b fun x y => rne32 (x.max y)

/-- FFMA (R157): one rounding. -/
def execFfma (d a b x : Fin 64) (s : State) : Out := s.slotS [.s a, .s b, .s x] d fun c =>
  BitVec.ofNat 64 (rne32 (Val.add .rne ((fp32Of (c.getS a).toNat).mul (fp32Of (c.getS b).toNat)) (fp32Of (c.getS x).toNat)))

/-- FEXP2 (R159). -/
def execFexp2 (d a : Fin 64) (s : State) : Out := s.una d a fun x => BitVec.ofNat 64 (exp2Bits (fp32Of x.toNat))

/-- FLOG2 (R159). -/
def execFlog2 (d a : Fin 64) (s : State) : Out := s.una d a fun x => BitVec.ofNat 64 (log2Bits (fp32Of x.toNat))

/-- FCMPLT (R158): false on NaN. -/
def execFcmplt (d : Fin 8) (a b : Fin 64) (s : State) : Out := s.test d a b fun x y => (fp32Of x.toNat).lt (fp32Of y.toNat)

/-- FCMPEQ (R158): the zeros are equal, false on NaN. -/
def execFcmpeq (d : Fin 8) (a b : Fin 64) (s : State) : Out := s.test d a b fun x y => (fp32Of x.toNat).eq (fp32Of y.toNat)

/-- ITOF (R160). -/
def execItof (d a : Fin 64) (s : State) : Out := s.una d a fun x => BitVec.ofNat 64 (rne32 (Val.ofInt x.toInt))

/-- FTOI (R160): RNE, saturated; NaN gives 0. -/
def execFtoi (d a : Fin 64) (s : State) : Out := s.una d a fun x => BitVec.ofInt 64 (roundToInt .int64 .rne (fp32Of x.toNat))

/-- MFSR (R161): the value as of the bundle. -/
def execMfsr (d : Fin 64) (r : SysReg) (s : State) : Out := s.slotS [] d fun c => s.sysRead s.issue.key c r

/-- MTSR (R161): privileged registers trap outside supervisor mode (R102). -/
def execMtsr (r : SysReg) (a : Fin 64) (s : State) : Out :=
  .next (if r.privileged then s.privileged fun s => s.slot [.s a] [] fun c s => s.own fun x => x.sysWrite r (c.getS a)
    else s.slot [.s a] [] fun c s => s.own fun x => x.sysWrite r (c.getS a))

/-- TSC (R164). -/
def execTsc (d : Fin 64) (s : State) : Out := s.slotS [] d fun _ => s.tbase

/-- MFLC (R165): the field as of the bundle. -/
def execMflc (d : Fin 64) (l field : Fin 4) (s : State) : Out := s.slotS [] d fun c => (c.lc[l]).get field

/-- MTLC (R165). -/
def execMtlc (l field : Fin 4) (a : Fin 64) (s : State) : Out :=
  .next (s.slot [.s a] [] fun c s => s.own fun x => { x with lc := x.lc.set l ((x.lc[l]).put field (c.getS a)) })

/-- DESC (R167). -/
def execDesc (d a b : Fin 64) (s : State) : Out :=
  s.bin d a b fun x y => BitVec.ofNat 64 (y.toNat % 2 ^ 32 * 2 ^ 32 + x.toNat % 2 ^ 32)

/-- ROWAD (R167): tile in bits [63:32] and row in bits [31:0] of s[x]. -/
def execRowad (d a b x : Fin 64) (s : State) : Out :=
  s.slotS [.s a, .s b, .s x] d fun c =>
    BitVec.ofNat 64 (descAddr (c.getS a) (c.getS b) (bitsOf (c.getS x) 63 32) (bitsOf (c.getS x) 31 0))

/-- TILEAD (R167). -/
def execTilead (d a b x : Fin 64) (s : State) : Out :=
  s.slotS [.s a, .s b, .s x] d fun c => BitVec.ofNat 64 (descAddr (c.getS a) (c.getS b) (bitsOf (c.getS x) 31 0) 0)

/-- INCWRAP (R168). -/
def execIncwrap (d a b : Fin 64) (s : State) : Out := s.bin d a b fun x y => if 1 + x.toNat < y.toNat then x + 1 else 0

/-- CQPOP (R169): an empty queue traps whatever EPOLICY holds. A LOOPQ of the bundle has popped before it. -/
def execCqpop (d : Fin 64) (q : Fin 4) (s : State) : Out :=
  .next (s.slot [] [.s d] fun _ s => s.popCount q fun v s => s.own fun x => x.setS d (v.setWidth 64))

end Sys2Proof.Machine
end

