-- ==== Sys2Proof/Machine/Vector.lean ====
section
/-!
DEFINITION. Vector: the meanings of the vector operations (R192 to R209).
-/
namespace Sys2Proof.Machine

/-- NOP.V (R94). -/
def execNopV (s : State) : Out := s.slotNop

/-! ### Floating arithmetic (R196) -/

/-- VADD. -/
def execVadd (d a b : Fin 256) (p : Fin 16) (f : FmtSel) (s : State) : Out :=
  s.floatwise [.v a, .v b] d p f fun c rnd lane => (lane (c.getV a)).add rnd (lane (c.getV b))
/-- VSUB. -/
def execVsub (d a b : Fin 256) (p : Fin 16) (f : FmtSel) (s : State) : Out :=
  s.floatwise [.v a, .v b] d p f fun c rnd lane => (lane (c.getV a)).add rnd (lane (c.getV b)).neg
/-- VMUL. -/
def execVmul (d a b : Fin 256) (p : Fin 16) (f : FmtSel) (s : State) : Out :=
  s.floatwise [.v a, .v b] d p f fun c _ lane => (lane (c.getV a)).mul (lane (c.getV b))
/-- VFMA: rounded once. -/
def execVfma (d a b : Fin 256) (p : Fin 16) (f : FmtSel) (s : State) : Out :=
  s.floatwise [.v d, .v a, .v b] d p f fun c rnd lane => (lane (c.getV d)).add rnd ((lane (c.getV a)).mul (lane (c.getV b)))
/-- VFMS: rounded once. -/
def execVfms (d a b : Fin 256) (p : Fin 16) (f : FmtSel) (s : State) : Out :=
  s.floatwise [.v d, .v a, .v b] d p f fun c rnd lane => (lane (c.getV d)).add rnd ((lane (c.getV a)).mul (lane (c.getV b))).neg
/-- VMIN (R158). -/
def execVmin (d a b : Fin 256) (p : Fin 16) (f : FmtSel) (s : State) : Out :=
  s.floatwise [.v a, .v b] d p f fun c _ lane => (lane (c.getV a)).min (lane (c.getV b))
/-- VMAX (R158). -/
def execVmax (d a b : Fin 256) (p : Fin 16) (f : FmtSel) (s : State) : Out :=
  s.floatwise [.v a, .v b] d p f fun c _ lane => (lane (c.getV a)).max (lane (c.getV b))
/-- VABS. -/
def execVabs (d a : Fin 256) (p : Fin 16) (f : FmtSel) (s : State) : Out :=
  s.floatwise [.v a] d p f fun c _ lane => (lane (c.getV a)).abs
/-- VNEG. -/
def execVneg (d a : Fin 256) (p : Fin 16) (f : FmtSel) (s : State) : Out :=
  s.floatwise [.v a] d p f fun c _ lane => (lane (c.getV a)).neg
/-- VMULS: by the FP32 value in bits [31:0] of a scalar. -/
def execVmuls (d a : Fin 256) (b : Fin 64) (p : Fin 16) (f : FmtSel) (s : State) : Out :=
  s.floatwise [.v a, .s b] d p f fun c _ lane => (lane (c.getV a)).mul (fp32Of (c.getS b).toNat)
/-- VADDS. -/
def execVadds (d a : Fin 256) (b : Fin 64) (p : Fin 16) (f : FmtSel) (s : State) : Out :=
  s.floatwise [.v a, .s b] d p f fun c rnd lane => (lane (c.getV a)).add rnd (fp32Of (c.getS b).toNat)

/-- VSEL (R197): every lane is written, a NaN of a floating format as the canonical NaN. -/
def execVsel (d a b : Fin 256) (p : Fin 16) (f : FmtSel) (s : State) : Out :=
  s.vop [.v a, .v b] d f Fmt.plain .none fun c f _ => vlanes f.width fun i =>
    let x := elem (if laneOn (c.getP p) f.width i then c.getV a else c.getV b) i f.width
    if f.isFloat && (floatVal f x).isNan then f.nanBits else x

/-! ### Transcendentals (R198) -/

/-- VRCP. -/
def execVrcp (d a : Fin 256) (p : Fin 16) (f : FmtSel) (s : State) : Out := s.transcendental d a p f rcpBits
/-- VRSQ. -/
def execVrsq (d a : Fin 256) (p : Fin 16) (f : FmtSel) (s : State) : Out := s.transcendental d a p f rsqBits
/-- VEXP2. -/
def execVexp2 (d a : Fin 256) (p : Fin 16) (f : FmtSel) (s : State) : Out := s.transcendental d a p f exp2Bits
/-- VLOG2. -/
def execVlog2 (d a : Fin 256) (p : Fin 16) (f : FmtSel) (s : State) : Out := s.transcendental d a p f log2Bits
/-- VTANH. -/
def execVtanh (d a : Fin 256) (p : Fin 16) (f : FmtSel) (s : State) : Out := s.transcendental d a p f tanhBits

/-! ### Scaling, quantising, conversion and decode -/

/-- VSCL (R199): a block scale applied exactly, then one rounding. Its block size is the BLK of the entry also when SCALED = 0 (DESIGN CHOICE: R199 takes n
from BLK whatever SCALED holds, and R175 says that BLK is then ignored; log 16). -/
def execVscl (d a b : Fin 256) (p : Fin 16) (f : FmtSel) (s : State) : Out :=
  s.vop [.v a, .v b] d f Fmt.isFloat .ignored fun c f e => mergeLanes f.width (c.getV d) (c.getP p) fun i =>
    cvtFloat f e.rnd e.sat (scaledVal (floatVal f (elem (c.getV a) i f.width)) (elem (c.getV b) (i / e.blk) 32))

/-- A magnitude `num * 2^e`. -/
structure Mag where
  num : Nat
  e : Int
deriving DecidableEq, Repr

/-- The larger of two magnitudes. -/
def Mag.max (x y : Mag) : Mag := if alignTo false x.num x.e (min x.e y.e) < alignTo false y.num y.e (min x.e y.e) then y else x

/-- The magnitude of a finite value, nothing for NaN and infinities. -/
def Val.mag? : Val → Option Mag
  | .fin _ m e => some ⟨m, e⟩
  | .nan | .inf _ => none

/-- The finite entries of a codebook, with their codes (R176). -/
def finiteCodes (cb : BitVec 256) : List (Nat × Val) :=
  (List.range 16).filterMap fun k =>
    let v := floatVal .bf16 (nbits cb.toNat (16 * k + 15) (16 * k))
    v.mag?.map fun _ => (k, v)

/-- Q of R200: the largest magnitude that a code stands for. -/
def quantMax (f : Fmt) (cb : BitVec 256) : Mag :=
  match f with
  | .e4m3 => ⟨448, 0⟩
  | .e5m2 => ⟨57344, 0⟩
  | .int8 => ⟨127, 0⟩
  | _ => (finiteCodes cb).foldl (fun m k => m.max (k.2.mag?.getD ⟨0, 0⟩)) ⟨0, 0⟩

/-- The scale of a block of R200, from the FP32 values of its active lanes. -/
def blockScale (q : Mag) (xs : List Val) : Nat :=
  if xs.any fun x => x.mag?.isNone then 255 * 4096
  else
    let m : Mag := xs.foldl (fun m x => m.max (x.mag?.getD ⟨0, 0⟩)) ⟨0, 0⟩
    if q.num = 0 ∨ m.num = 0 then 0 else encodeScale m.num q.num (m.e - q.e)

/-- How far a codebook value v lies from x / Scale(sc), as |v * Scale(sc) - x| in a unit that is the same for every BF16 v
(R200). -/
def codeDist (sc : Nat) (x v : Val) : Nat :=
  match x, v with
  | .fin s m e, .fin t n g =>
    let e0 := min e (min (g + scalePow sc) (scalePow sc - 133))
    (alignTo t (n * scaleMant sc) (g + scalePow sc) e0 - alignTo s m e e0).natAbs
  | _, _ => 0

/-- The code of an active lane of a block whose scale is in range (R200). -/
def quantCode (f : Fmt) (rnd : Rnd) (cb : BitVec 256) (sc : Nat) (x : Val) : Nat :=
  match x with
  | .nan | .inf _ => 0
  | .fin neg m e =>
    if f = .cb4 then
      match finiteCodes cb with
      | [] => 0
      | k :: ks => (ks.foldl (fun b y => if codeDist sc x y.2 < codeDist sc x b.2 then y else b) k).1
    else if m = 0 then (if f.isFloat then f.signBits neg else 0)
    else if f.isFloat then cvtRat f rnd true neg m (scaleMant sc) (e - scalePow sc)
    else
      let n : Int := roundScaled rnd neg m (scaleMant sc) (e - scalePow sc)
      wrapInt f.width (clampInt f (if neg then -n else n))

/-- VQNT (R200): codes into d and one scale per block into b, both written whole. "e ← 255" is read as a scale whose exponent field is 255
(DEDUCED, log 19). -/
def execVqnt (d a b : Fin 256) (p : Fin 16) (f : FmtSel) (s : State) : Out :=
  .next (s.slot [.v a] [.v d, .v b] fun c s =>
    s.withFmt c f (fun f => f = .e4m3 || f = .e5m2 || f = .int8 || f = .cb4) .required fun f e s =>
      let cb := c.cb[e.cb]
      let val := fun i => floatVal .fp32 (elem (c.getV a) i 32)
      let scales := (List.range (512 / e.blk)).map fun j =>
        blockScale (quantMax f cb) ((((List.range e.blk).map (e.blk * j + ·)).filter fun i => laneOn (c.getP p) 32 i).map val)
      let code := fun i =>
        let sc := scales.getD (i / e.blk) 0
        if i < 512 ∧ laneOn (c.getP p) 32 i ∧ scaleExp sc ≠ 0 ∧ scaleExp sc ≠ 255 then quantCode f e.rnd cb sc (val i) else 0
      s.own fun x => (x.setV d (vlanes f.width code)).setV b (vlanes 32 fun j => scales.getD j 0))

/-- VCVT (R201): the source entry first, then the destination entry, whose RND and SAT apply. -/
def execVcvt (d a : Fin 256) (p : Fin 16) (f : Fin 8) (df : FmtSel) (s : State) : Out :=
  .next (s.slot [.v a] [.v d] fun c s =>
    s.withFmt c (.column f) Fmt.plain .none fun sf _ s => s.withFmt c df Fmt.plain .none fun tf e s =>
      s.own fun x => x.setV d (vlanes tf.width fun i =>
        if min sf.lanes tf.lanes ≤ i then 0
        else if laneOn (c.getP p) sf.width i then cvt (elem (c.getV a) i sf.width) sf tf e.rnd e.sat
        else elem (c.getV d) i tf.width))

/-- VDEC (R202). -/
def execVdec (d a : Fin 256) (p : Fin 16) (f cb : Fin 8) (s : State) : Out :=
  s.lanewise [.v a] d p (.column f) Fmt.isFloat fun c f e i =>
    let k := elem (c.getV a) i 4
    cvt (nbits (c.cb[cb]).toNat (16 * k + 15) (16 * k)) .bf16 f e.rnd e.sat

/-! ### Integer and bitwise operations (R203) -/

/-- VIADD. -/
def execViadd (d a b : Fin 256) (p : Fin 16) (f : FmtSel) (s : State) : Out :=
  s.intwise d a b p f fun f sat x y => writeInt f sat (intVal f x + intVal f y)
/-- VISUB. -/
def execVisub (d a b : Fin 256) (p : Fin 16) (f : FmtSel) (s : State) : Out :=
  s.intwise d a b p f fun f sat x y => writeInt f sat (intVal f x - intVal f y)
/-- VIMUL. -/
def execVimul (d a b : Fin 256) (p : Fin 16) (f : FmtSel) (s : State) : Out :=
  s.intwise d a b p f fun f sat x y => writeInt f sat (intVal f x * intVal f y)
/-- VAND. -/
def execVand (d a b : Fin 256) (p : Fin 16) (f : FmtSel) (s : State) : Out := s.intwise d a b p f fun _ _ x y => x &&& y
/-- VOR. -/
def execVor (d a b : Fin 256) (p : Fin 16) (f : FmtSel) (s : State) : Out := s.intwise d a b p f fun _ _ x y => x ||| y
/-- VXOR. -/
def execVxor (d a b : Fin 256) (p : Fin 16) (f : FmtSel) (s : State) : Out := s.intwise d a b p f fun _ _ x y => x ^^^ y
/-- VSHL: the count is modulo the width, and the low bits are kept. -/
def execVshl (d a b : Fin 256) (p : Fin 16) (f : FmtSel) (s : State) : Out :=
  s.intwise d a b p f fun f _ x y => x * 2 ^ (y % f.width) % 2 ^ f.width
/-- VSHR. -/
def execVshr (d a b : Fin 256) (p : Fin 16) (f : FmtSel) (s : State) : Out := s.intwise d a b p f fun f _ x y => x / 2 ^ (y % f.width)
/-- VSRA: for UINT8 as VSHR. -/
def execVsra (d a b : Fin 256) (p : Fin 16) (f : FmtSel) (s : State) : Out :=
  s.intwise d a b p f fun f _ x y => wrapInt f.width (intVal f x / 2 ^ (y % f.width))
/-- VIMIN. -/
def execVimin (d a b : Fin 256) (p : Fin 16) (f : FmtSel) (s : State) : Out :=
  s.intwise d a b p f fun f _ x y => wrapInt f.width (min (intVal f x) (intVal f y))
/-- VIMAX. -/
def execVimax (d a b : Fin 256) (p : Fin 16) (f : FmtSel) (s : State) : Out :=
  s.intwise d a b p f fun f _ x y => wrapInt f.width (max (intVal f x) (intVal f y))
/-- VPOPC. -/
def execVpopc (d a : Fin 256) (p : Fin 16) (f : FmtSel) (s : State) : Out :=
  s.lanewise [.v a] d p f Fmt.isInt fun c f _ i => popcount (elem (c.getV a) i f.width) f.width

/-! ### Compares, classes and predicates (R204 to R206) -/

/-- VCMPEQ. -/
def execVcmpeq (d : Fin 16) (a b : Fin 256) (p : Fin 16) (f : FmtSel) (s : State) : Out := s.vcompare d a b p f laneEq
/-- VCMPNE. -/
def execVcmpne (d : Fin 16) (a b : Fin 256) (p : Fin 16) (f : FmtSel) (s : State) : Out := s.vcompare d a b p f fun f x y => !laneEq f x y
/-- VCMPLT. -/
def execVcmplt (d : Fin 16) (a b : Fin 256) (p : Fin 16) (f : FmtSel) (s : State) : Out := s.vcompare d a b p f laneLt
/-- VCMPLE. -/
def execVcmple (d : Fin 16) (a b : Fin 256) (p : Fin 16) (f : FmtSel) (s : State) : Out := s.vcompare d a b p f laneLe
/-- VCMPUO. -/
def execVcmpuo (d : Fin 16) (a b : Fin 256) (p : Fin 16) (f : FmtSel) (s : State) : Out := s.vcompare d a b p f laneUo

/-- VCLASS (R205). -/
def execVclass (d : Fin 16) (a : Fin 256) (p : Fin 16) (f : Fin 8) (cls : BitVec 8) (s : State) : Out :=
  .next (s.slot [.v a] [] fun c s => s.withFmt c (.column f) Fmt.isFloat .none fun f _ s => s.own fun x =>
    x.setP d (lanePred f.width fun i => laneOn (c.getP p) f.width i && cls.getLsbD (laneClass f (elem (c.getV a) i f.width))))

/-- PAND. -/
def execPand (d a b : Fin 16) (s : State) : Out := s.slotP [] d fun c => c.getP a &&& c.getP b
/-- POR. -/
def execPor (d a b : Fin 16) (s : State) : Out := s.slotP [] d fun c => c.getP a ||| c.getP b
/-- PXOR. -/
def execPxor (d a b : Fin 16) (s : State) : Out := s.slotP [] d fun c => c.getP a ^^^ c.getP b
/-- PANDN. -/
def execPandn (d a b : Fin 16) (s : State) : Out := s.slotP [] d fun c => c.getP a &&& ~~~c.getP b
/-- PFIRST: the lowest set bit. -/
def execPfirst (d a : Fin 16) (s : State) : Out := s.slotP [] d fun c => c.getP a &&& (0 - c.getP a)
/-- PCNT. -/
def execPcnt (d : Fin 64) (a : Fin 16) (s : State) : Out := s.slotS [] d fun c => BitVec.ofNat 64 (popcount (c.getP a).toNat 2048)
/-- VANY. -/
def execVany (d : Fin 8) (a : Fin 16) (s : State) : Out := s.slotC [] d fun c => decide (c.getP a ≠ 0)
/-- VALL. -/
def execVall (d : Fin 8) (a : Fin 16) (s : State) : Out := s.slotC [] d fun c => decide (c.getP a = BitVec.allOnes 2048)

/-! ### Reductions and scan (R207 to R209) -/

/-- VRSUM. -/
def execVrsum (d : Fin 64) (a : Fin 256) (p : Fin 16) (f : FmtSel) (s : State) : Out := s.reduce d a p f reduceSum
/-- VRMAX. -/
def execVrmax (d : Fin 64) (a : Fin 256) (p : Fin 16) (f : FmtSel) (s : State) : Out := s.reduce d a p f fun f _ => reduceBest true f
/-- VRMIN. -/
def execVrmin (d : Fin 64) (a : Fin 256) (p : Fin 16) (f : FmtSel) (s : State) : Out := s.reduce d a p f fun f _ => reduceBest false f
/-- VRAMAX. -/
def execVramax (d : Fin 64) (a : Fin 256) (p : Fin 16) (f : FmtSel) (s : State) : Out := s.reduce d a p f fun f _ => reduceIndex true f
/-- VRAMIN. -/
def execVramin (d : Fin 64) (a : Fin 256) (p : Fin 16) (f : FmtSel) (s : State) : Out := s.reduce d a p f fun f _ => reduceIndex false f
/-- VSCAN. -/
def execVscan (d a : Fin 256) (p : Fin 16) (f : FmtSel) (s : State) : Out :=
  s.vop [.v a] d f Fmt.plain .none fun c f e =>
    let l := scanLanes f e (c.getV d) (c.getV a) (c.getP p) 0 f.lanes .zero
    BitVec.ofNat 16384 (l.foldr (fun x n => x % 2 ^ f.width + 2 ^ f.width * n) 0)

end Sys2Proof.Machine
end

