-- ==== Sys2Proof/Machine/Dispatch.lean ====
section
/-!
DEFINITION. Dispatch: one arm per constructor of Instr, each a direct call of that instruction's meaning.
-/
namespace Sys2Proof.Machine

/-- The meaning of one instruction or event at one state. -/
def exec (i : Instr) (s : State) : Host.Outcome State Fault Refusal :=
  match i with
  | .nopC => Sys2Proof.Machine.execNopC s
  | .prep t off => Sys2Proof.Machine.execPrep t off s
  | .preps t a => Sys2Proof.Machine.execPreps t a s
  | .br c t => Sys2Proof.Machine.execBr c t s
  | .jmp t => Sys2Proof.Machine.execJmp t s
  | .call t => Sys2Proof.Machine.execCall t s
  | .ret => Sys2Proof.Machine.execRet s
  | .brn c t => Sys2Proof.Machine.execBrn c t s
  | .loop l a fin => Sys2Proof.Machine.execLoop l a fin s
  | .loopi l n fin => Sys2Proof.Machine.execLoopi l n fin s
  | .loopq l q fin => Sys2Proof.Machine.execLoopq l q fin s
  | .lbrk l => Sys2Proof.Machine.execLbrk l s
  | .suspend => Sys2Proof.Machine.execSuspend s
  | .endTask => Sys2Proof.Machine.execEndTask s
  | .spawn a => Sys2Proof.Machine.execSpawn a s
  | .yield => Sys2Proof.Machine.execYield s
  | .waita a b mode => Sys2Proof.Machine.execWaita a b mode s
  | .arm a b => Sys2Proof.Machine.execArm a b s
  | .launch a => Sys2Proof.Machine.execLaunch a s
  | .bar scope id => Sys2Proof.Machine.execBar scope id s
  | .trap n => Sys2Proof.Machine.execTrap n s
  | .eret => Sys2Proof.Machine.execEret s
  | .nopS => Sys2Proof.Machine.execNopS s
  | .nopA => Sys2Proof.Machine.execNopA s
  | .add d a b => Sys2Proof.Machine.execAdd d a b s
  | .sub d a b => Sys2Proof.Machine.execSub d a b s
  | .mul d a b => Sys2Proof.Machine.execMul d a b s
  | .mulh d a b => Sys2Proof.Machine.execMulh d a b s
  | .mulhu d a b => Sys2Proof.Machine.execMulhu d a b s
  | .div d a b => Sys2Proof.Machine.execDiv d a b s
  | .divu d a b => Sys2Proof.Machine.execDivu d a b s
  | .rem d a b => Sys2Proof.Machine.execRem d a b s
  | .remu d a b => Sys2Proof.Machine.execRemu d a b s
  | .and d a b => Sys2Proof.Machine.execAnd d a b s
  | .or d a b => Sys2Proof.Machine.execOr d a b s
  | .xor d a b => Sys2Proof.Machine.execXor d a b s
  | .andn d a b => Sys2Proof.Machine.execAndn d a b s
  | .shl d a b => Sys2Proof.Machine.execShl d a b s
  | .shr d a b => Sys2Proof.Machine.execShr d a b s
  | .sra d a b => Sys2Proof.Machine.execSra d a b s
  | .rotl d a b => Sys2Proof.Machine.execRotl d a b s
  | .min d a b => Sys2Proof.Machine.execMin d a b s
  | .max d a b => Sys2Proof.Machine.execMax d a b s
  | .minu d a b => Sys2Proof.Machine.execMinu d a b s
  | .maxu d a b => Sys2Proof.Machine.execMaxu d a b s
  | .shladd d a b sh => Sys2Proof.Machine.execShladd d a b sh s
  | .madd d a b x => Sys2Proof.Machine.execMadd d a b x s
  | .clz d a => Sys2Proof.Machine.execClz d a s
  | .ctz d a => Sys2Proof.Machine.execCtz d a s
  | .popc d a => Sys2Proof.Machine.execPopc d a s
  | .extr d a lo w1 => Sys2Proof.Machine.execExtr d a lo w1 s
  | .dep d a lo w1 => Sys2Proof.Machine.execDep d a lo w1 s
  | .addi d a imm => Sys2Proof.Machine.execAddi d a imm s
  | .andi d a imm => Sys2Proof.Machine.execAndi d a imm s
  | .ori d a imm => Sys2Proof.Machine.execOri d a imm s
  | .xori d a imm => Sys2Proof.Machine.execXori d a imm s
  | .shli d a sh => Sys2Proof.Machine.execShli d a sh s
  | .shri d a sh => Sys2Proof.Machine.execShri d a sh s
  | .srai d a sh => Sys2Proof.Machine.execSrai d a sh s
  | .ldi d imm => Sys2Proof.Machine.execLdi d imm s
  | .ldhi d k imm => Sys2Proof.Machine.execLdhi d k imm s
  | .cmpeq d a b => Sys2Proof.Machine.execCmpeq d a b s
  | .cmpne d a b => Sys2Proof.Machine.execCmpne d a b s
  | .cmplt d a b => Sys2Proof.Machine.execCmplt d a b s
  | .cmpltu d a b => Sys2Proof.Machine.execCmpltu d a b s
  | .cmpge d a b => Sys2Proof.Machine.execCmpge d a b s
  | .cmpgeu d a b => Sys2Proof.Machine.execCmpgeu d a b s
  | .cmpeqi d a imm => Sys2Proof.Machine.execCmpeqi d a imm s
  | .cmplti d a imm => Sys2Proof.Machine.execCmplti d a imm s
  | .cand d a b => Sys2Proof.Machine.execCand d a b s
  | .cor d a b => Sys2Proof.Machine.execCor d a b s
  | .sel d a b c => Sys2Proof.Machine.execSel d a b c s
  | .fadd d a b => Sys2Proof.Machine.execFadd d a b s
  | .fsub d a b => Sys2Proof.Machine.execFsub d a b s
  | .fmul d a b => Sys2Proof.Machine.execFmul d a b s
  | .ffma d a b x => Sys2Proof.Machine.execFfma d a b x s
  | .fdiv d a b => Sys2Proof.Machine.execFdiv d a b s
  | .fmin d a b => Sys2Proof.Machine.execFmin d a b s
  | .fmax d a b => Sys2Proof.Machine.execFmax d a b s
  | .fexp2 d a => Sys2Proof.Machine.execFexp2 d a s
  | .flog2 d a => Sys2Proof.Machine.execFlog2 d a s
  | .fcmplt d a b => Sys2Proof.Machine.execFcmplt d a b s
  | .fcmpeq d a b => Sys2Proof.Machine.execFcmpeq d a b s
  | .itof d a => Sys2Proof.Machine.execItof d a s
  | .ftoi d a => Sys2Proof.Machine.execFtoi d a s
  | .mfsr d r => Sys2Proof.Machine.execMfsr d r s
  | .mtsr r a => Sys2Proof.Machine.execMtsr r a s
  | .tsc d => Sys2Proof.Machine.execTsc d s
  | .mflc d l field => Sys2Proof.Machine.execMflc d l field s
  | .mtlc l field a => Sys2Proof.Machine.execMtlc l field a s
  | .desc d a b => Sys2Proof.Machine.execDesc d a b s
  | .rowad d a b x => Sys2Proof.Machine.execRowad d a b x s
  | .tilead d a b x => Sys2Proof.Machine.execTilead d a b x s
  | .incwrap d a b => Sys2Proof.Machine.execIncwrap d a b s
  | .cqpop d q => Sys2Proof.Machine.execCqpop d q s
  | .nopV => Sys2Proof.Machine.execNopV s
  | .vadd d a b p f => Sys2Proof.Machine.execVadd d a b p f s
  | .vsub d a b p f => Sys2Proof.Machine.execVsub d a b p f s
  | .vmul d a b p f => Sys2Proof.Machine.execVmul d a b p f s
  | .vfma d a b p f => Sys2Proof.Machine.execVfma d a b p f s
  | .vfms d a b p f => Sys2Proof.Machine.execVfms d a b p f s
  | .vmin d a b p f => Sys2Proof.Machine.execVmin d a b p f s
  | .vmax d a b p f => Sys2Proof.Machine.execVmax d a b p f s
  | .vabs d a p f => Sys2Proof.Machine.execVabs d a p f s
  | .vneg d a p f => Sys2Proof.Machine.execVneg d a p f s
  | .vrcp d a p f => Sys2Proof.Machine.execVrcp d a p f s
  | .vrsq d a p f => Sys2Proof.Machine.execVrsq d a p f s
  | .vexp2 d a p f => Sys2Proof.Machine.execVexp2 d a p f s
  | .vlog2 d a p f => Sys2Proof.Machine.execVlog2 d a p f s
  | .vtanh d a p f => Sys2Proof.Machine.execVtanh d a p f s
  | .vscl d a b p f => Sys2Proof.Machine.execVscl d a b p f s
  | .vqnt d a b p f => Sys2Proof.Machine.execVqnt d a b p f s
  | .vcvt d a p f df => Sys2Proof.Machine.execVcvt d a p f df s
  | .vdec d a p f cb => Sys2Proof.Machine.execVdec d a p f cb s
  | .vmuls d a b p f => Sys2Proof.Machine.execVmuls d a b p f s
  | .vadds d a b p f => Sys2Proof.Machine.execVadds d a b p f s
  | .vsel d a b p f => Sys2Proof.Machine.execVsel d a b p f s
  | .viadd d a b p f => Sys2Proof.Machine.execViadd d a b p f s
  | .visub d a b p f => Sys2Proof.Machine.execVisub d a b p f s
  | .vimul d a b p f => Sys2Proof.Machine.execVimul d a b p f s
  | .vand d a b p f => Sys2Proof.Machine.execVand d a b p f s
  | .vor d a b p f => Sys2Proof.Machine.execVor d a b p f s
  | .vxor d a b p f => Sys2Proof.Machine.execVxor d a b p f s
  | .vshl d a b p f => Sys2Proof.Machine.execVshl d a b p f s
  | .vshr d a b p f => Sys2Proof.Machine.execVshr d a b p f s
  | .vsra d a b p f => Sys2Proof.Machine.execVsra d a b p f s
  | .vimin d a b p f => Sys2Proof.Machine.execVimin d a b p f s
  | .vimax d a b p f => Sys2Proof.Machine.execVimax d a b p f s
  | .vpopc d a p f => Sys2Proof.Machine.execVpopc d a p f s
  | .viota d p f => Sys2Proof.Machine.execViota d p f s
  | .vbcst d a p f => Sys2Proof.Machine.execVbcst d a p f s
  | .vext d a f lane => Sys2Proof.Machine.execVext d a f lane s
  | .vins d a p f lane => Sys2Proof.Machine.execVins d a p f lane s
  | .vcmpeq d a b p f => Sys2Proof.Machine.execVcmpeq d a b p f s
  | .vcmpne d a b p f => Sys2Proof.Machine.execVcmpne d a b p f s
  | .vcmplt d a b p f => Sys2Proof.Machine.execVcmplt d a b p f s
  | .vcmple d a b p f => Sys2Proof.Machine.execVcmple d a b p f s
  | .vcmpuo d a b p f => Sys2Proof.Machine.execVcmpuo d a b p f s
  | .vclass d a p f cls => Sys2Proof.Machine.execVclass d a p f cls s
  | .pand d a b => Sys2Proof.Machine.execPand d a b s
  | .por d a b => Sys2Proof.Machine.execPor d a b s
  | .pxor d a b => Sys2Proof.Machine.execPxor d a b s
  | .pandn d a b => Sys2Proof.Machine.execPandn d a b s
  | .pfirst d a => Sys2Proof.Machine.execPfirst d a s
  | .pcnt d a => Sys2Proof.Machine.execPcnt d a s
  | .vany d a => Sys2Proof.Machine.execVany d a s
  | .vall d a => Sys2Proof.Machine.execVall d a s
  | .vrsum d a p f => Sys2Proof.Machine.execVrsum d a p f s
  | .vrmax d a p f => Sys2Proof.Machine.execVrmax d a p f s
  | .vrmin d a p f => Sys2Proof.Machine.execVrmin d a p f s
  | .vramax d a p f => Sys2Proof.Machine.execVramax d a p f s
  | .vramin d a p f => Sys2Proof.Machine.execVramin d a p f s
  | .vscan d a p f => Sys2Proof.Machine.execVscan d a p f s
  | .vmov d a p => Sys2Proof.Machine.execVmov d a p s
  | .vperm d a b p f => Sys2Proof.Machine.execVperm d a b p f s
  | .vrotm d a b p off => Sys2Proof.Machine.execVrotm d a b p off s
  | .vzip d a b p f => Sys2Proof.Machine.execVzip d a b p f s
  | .vuzp d a b p f => Sys2Proof.Machine.execVuzp d a b p f s
  | .vspl d p f imm => Sys2Proof.Machine.execVspl d p f imm s
  | .vslide d a b p f n => Sys2Proof.Machine.execVslide d a b p f n s
  | .vtopk d a b p f g1 => Sys2Proof.Machine.execVtopk d a b p f g1 s
  | .vthcnt d a b p f lg => Sys2Proof.Machine.execVthcnt d a b p f lg s
  | .vbmp d a f => Sys2Proof.Machine.execVbmp d a f s
  | .vrank d a b p => Sys2Proof.Machine.execVrank d a b p s
  | .vselb d a b p => Sys2Proof.Machine.execVselb d a b p s
  | .vhist d a p f => Sys2Proof.Machine.execVhist d a p f s
  | .vcqp a p n1 q => Sys2Proof.Machine.execVcqp a p n1 q s
  | .rcadd a p => Sys2Proof.Machine.execRcadd a p s
  | .rcsnap d => Sys2Proof.Machine.execRcsnap d s
  | .vcsum d a n1 => Sys2Proof.Machine.execVcsum d a n1 s
  | .ftld a b row => Sys2Proof.Machine.execFtld a b row s
  | .cbld a cb => Sys2Proof.Machine.execCbld a cb s
  | .nopM => Sys2Proof.Machine.execNopM s
  | .ttask a => Sys2Proof.Machine.execTtask a s
  | .ttaskr a b n1 => Sys2Proof.Machine.execTtaskr a b n1 s
  | .tqcfg a b => Sys2Proof.Machine.execTqcfg a b s
  | .tstat d which => Sys2Proof.Machine.execTstat d which s
  | .tevict a => Sys2Proof.Machine.execTevict a s
  | .tlate d => Sys2Proof.Machine.execTlate d s
  | .nopL => Sys2Proof.Machine.execNopL s
  | .vld d a n1 => Sys2Proof.Machine.execVld d a n1 s
  | .vst d a p n1 => Sys2Proof.Machine.execVst d a p n1 s
  | .vldp d a b n1 => Sys2Proof.Machine.execVldp d a b n1 s
  | .vstp d a b p n1 => Sys2Proof.Machine.execVstp d a b p n1 s
  | .vldx d a b => Sys2Proof.Machine.execVldx d a b s
  | .vstx d a b p => Sys2Proof.Machine.execVstx d a b p s
  | .sld d a k => Sys2Proof.Machine.execSld d a k s
  | .sst d a k => Sys2Proof.Machine.execSst d a k s
  | .copy a q => Sys2Proof.Machine.execCopy a q s
  | .fence before after scope => Sys2Proof.Machine.execFence before after scope s
  | .drain paths scope => Sys2Proof.Machine.execDrain paths scope s
  | .qpush a b => Sys2Proof.Machine.execQpush a b s
  | .qpop d b => Sys2Proof.Machine.execQpop d b s
  | .qtry d b c => Sys2Proof.Machine.execQtry d b c s
  | .aset a b set g => Sys2Proof.Machine.execAset a b set g s
  | .ajnl a => Sys2Proof.Machine.execAjnl a s
  | .tgo a e => Sys2Proof.Machine.execTgo a e s
  | .trel a e => Sys2Proof.Machine.execTrel a e s
  | .tlbi a all => Sys2Proof.Machine.execTlbi a all s
  | .ctxsv a b => Sys2Proof.Machine.execCtxsv a b s
  | .ctxld a b => Sys2Proof.Machine.execCtxld a b s
  | .nopX => Sys2Proof.Machine.execNopX s
  | .send ch v n1 => Sys2Proof.Machine.execSend ch v n1 s
  | .recv ch v n1 => Sys2Proof.Machine.execRecv ch v n1 s
  | .recvadd ch v n1 => Sys2Proof.Machine.execRecvadd ch v n1 s
  | .ssend ch a => Sys2Proof.Machine.execSsend ch a s
  | .srecv ch d => Sys2Proof.Machine.execSrecv ch d s
  | .chcfg ch a => Sys2Proof.Machine.execChcfg ch a s
  | .chqry ch d which => Sys2Proof.Machine.execChqry ch d which s
  | .hcoll a => Sys2Proof.Machine.execHcoll a s
  | .hrech a => Sys2Proof.Machine.execHrech a s
  | .hqry d a => Sys2Proof.Machine.execHqry d a s
  | .monitorRetest quad id => Sys2Proof.Machine.execMonitorRetest quad id s
  | .tileDepRetest quad id => Sys2Proof.Machine.execTileDepRetest quad id s
  | .queueDoorbell agent q tail => Sys2Proof.Machine.execQueueDoorbell agent q tail s
  | .queueRestart agent q value => Sys2Proof.Machine.execQueueRestart agent q value s
  | .gatherDoorbell agent g tail => Sys2Proof.Machine.execGatherDoorbell agent g tail s
  | .gatherRow g offset data => Sys2Proof.Machine.execGatherRow g offset data s
  | .registerWrite agent offset size value => Sys2Proof.Machine.execRegisterWrite agent offset size value s
  | .btownWrite agent n value => Sys2Proof.Machine.execBtownWrite agent n value s
  | .bdqcfgWrite agent n value => Sys2Proof.Machine.execBdqcfgWrite agent n value s
  | .retentionCtrlWrite agent big value => Sys2Proof.Machine.execRetentionCtrlWrite agent big value s
  | .claim agent value => Sys2Proof.Machine.execClaim agent value s
  | .handover agent value => Sys2Proof.Machine.execHandover agent value s
  | .admqcreate agent value => Sys2Proof.Machine.execAdmqcreate agent value s
  | .readClear agent offset size => Sys2Proof.Machine.execReadClear agent offset size s
  | .copyDone quad id => Sys2Proof.Machine.execCopyDone quad id s
  | .wound ticket => Sys2Proof.Machine.execWound ticket s
  | .parkResume id => Sys2Proof.Machine.execParkResume id s
  | .completionRecord job => Sys2Proof.Machine.execCompletionRecord job s
  | .fetchFault core ctx => Sys2Proof.Machine.execFetchFault core ctx s
  | .resultLand core ctx => Sys2Proof.Machine.execResultLand core ctx s
  | .arrival core => Sys2Proof.Machine.execArrival core s
  | .lockRequest slice => Sys2Proof.Machine.execLockRequest slice s
  | .lockGrant slice => Sys2Proof.Machine.execLockGrant slice s
  | .batchPush g => Sys2Proof.Machine.execBatchPush g s
  | .bdqPopServe n => Sys2Proof.Machine.execBdqPopServe n s
  | .channelArrival core ch => Sys2Proof.Machine.execChannelArrival core ch s
  | .channelCredit core ch => Sys2Proof.Machine.execChannelCredit core ch s
  | .shardRelease e => Sys2Proof.Machine.execShardRelease e s
  | .collAccept die => Sys2Proof.Machine.execCollAccept die s
  | .releaseNotice e k m count => Sys2Proof.Machine.execReleaseNotice e k m count s
  | .pageLoad core ctx => Sys2Proof.Machine.execPageLoad core ctx s
  | .nopPacket q => Sys2Proof.Machine.execNopPacket q s
  | .launchPacket q => Sys2Proof.Machine.execLaunchPacket q s
  | .image q => Sys2Proof.Machine.execImage q s
  | .map q => Sys2Proof.Machine.execMap q s
  | .mapComplete q => Sys2Proof.Machine.execMapComplete q s
  | .unmap q => Sys2Proof.Machine.execUnmap q s
  | .unmapComplete q => Sys2Proof.Machine.execUnmapComplete q s
  | .flagWrite q => Sys2Proof.Machine.execFlagWrite q s
  | .flagWait q => Sys2Proof.Machine.execFlagWait q s
  | .partResize q => Sys2Proof.Machine.execPartResize q s
  | .gatherCfg q => Sys2Proof.Machine.execGatherCfg q s
  | .queueCreate q => Sys2Proof.Machine.execQueueCreate q s
  | .packetRetry q => Sys2Proof.Machine.execPacketRetry q s
  | .ownerLinkReset => Sys2Proof.Machine.execOwnerLinkReset s
  | .poolDuty => Sys2Proof.Machine.execPoolDuty s
  | .takeWork core ctx => Sys2Proof.Machine.execTakeWork core ctx s
  | .chunkTake core ctx => Sys2Proof.Machine.execChunkTake core ctx s
  | .chunkSteal core ctx => Sys2Proof.Machine.execChunkSteal core ctx s
  | .teamPlace job place release => Sys2Proof.Machine.execTeamPlace job place release s
  | .teamRelease job => Sys2Proof.Machine.execTeamRelease job s
  | .sliceStopRequest job => Sys2Proof.Machine.execSliceStopRequest job s
  | .sliceEnd job => Sys2Proof.Machine.execSliceEnd job s
  | .stopPoint job => Sys2Proof.Machine.execStopPoint job s
  | .saveRetry job => Sys2Proof.Machine.execSaveRetry job s
  | .resizeTimeout quad => Sys2Proof.Machine.execResizeTimeout quad s
  | .quadMove quad => Sys2Proof.Machine.execQuadMove quad s
  | .quadZeroEnd quad => Sys2Proof.Machine.execQuadZeroEnd quad s
  | .snapshotLand core ctx => Sys2Proof.Machine.execSnapshotLand core ctx s
  | .routingCounterOp quad => Sys2Proof.Machine.execRoutingCounterOp quad s
  | .tileStart quad => Sys2Proof.Machine.execTileStart quad s
  | .tileDone quad arr => Sys2Proof.Machine.execTileDone quad arr s
  | .copyOp quad => Sys2Proof.Machine.execCopyOp quad s
  | .fill quad => Sys2Proof.Machine.execFill quad s
  | .zero quad => Sys2Proof.Machine.execZero quad s
  | .acc quad => Sys2Proof.Machine.execAcc quad s
  | .accf quad => Sys2Proof.Machine.execAccf quad s
  | .cas quad => Sys2Proof.Machine.execCas quad s
  | .btownZeroEnd die seg => Sys2Proof.Machine.execBtownZeroEnd die seg s
  | .spokeStart e => Sys2Proof.Machine.execSpokeStart e s
  | .hop e k => Sys2Proof.Machine.execHop e k s
  | .waitrel e k => Sys2Proof.Machine.execWaitrel e k s
  | .barrier e k => Sys2Proof.Machine.execBarrier e k s
  | .mcast e k => Sys2Proof.Machine.execMcast e k s
  | .evict e k => Sys2Proof.Machine.execEvict e k s
  | .itinLoop e k => Sys2Proof.Machine.execItinLoop e k s
  | .mark e k => Sys2Proof.Machine.execMark e k s
  | .itinEnd e k => Sys2Proof.Machine.execItinEnd e k s
  | .setwin e k => Sys2Proof.Machine.execSetwin e k s
  | .hopFinish e k n data corrupt => Sys2Proof.Machine.execHopFinish e k n data corrupt s
  | .groupJoin e k joins => Sys2Proof.Machine.execGroupJoin e k joins s
  | .lateDecay e => Sys2Proof.Machine.execLateDecay e s
  | .slotCycle => Sys2Proof.Machine.execSlotCycle s
  | .refreshDue ch bank => Sys2Proof.Machine.execRefreshDue ch bank s
  | .bankRefresh ch bank => Sys2Proof.Machine.execBankRefresh ch bank s
  | .gatherEntry g => Sys2Proof.Machine.execGatherEntry g s
  | .gatherTick g => Sys2Proof.Machine.execGatherTick g s
  | .barRelease core ctx halves => Sys2Proof.Machine.execBarRelease core ctx halves s
  | .waitaPoll core ctx => Sys2Proof.Machine.execWaitaPoll core ctx s
  | .woundwaitExpiry core ctx => Sys2Proof.Machine.execWoundwaitExpiry core ctx s
  | .collAgree group seq votes => Sys2Proof.Machine.execCollAgree group seq votes s
  | .collContribution group seq chunk member data sum special hop => Sys2Proof.Machine.execCollContribution group seq chunk member data sum special hop s
  | .collDelivery group seq chunk expo data sum hop => Sys2Proof.Machine.execCollDelivery group seq chunk expo data sum hop s
  | .linkFlit link n crcOk payload => Sys2Proof.Machine.execLinkFlit link n crcOk payload s
  | .watchdog core ctx => Sys2Proof.Machine.execWatchdog core ctx s
  | .eccError site corrected => Sys2Proof.Machine.execEccError site corrected s
  | .retentionEntry arr => Sys2Proof.Machine.execRetentionEntry arr s
  | .retentionExit arr => Sys2Proof.Machine.execRetentionExit arr s
  | .timebaseTick => Sys2Proof.Machine.execTimebaseTick s
  | .ptmUpdate faster => Sys2Proof.Machine.execPtmUpdate faster s
  | .portLinkUp port width rate => Sys2Proof.Machine.execPortLinkUp port width rate s
  | .port0LinkDown => Sys2Proof.Machine.execPort0LinkDown s
  | .hostAccessTimeout id => Sys2Proof.Machine.execHostAccessTimeout id s
  | .hostMemAccess decoder offset write => Sys2Proof.Machine.execHostMemAccess decoder offset write s
  | .mctpRead src body => Sys2Proof.Machine.execMctpRead src body s
  | .mctpWrite src body => Sys2Proof.Machine.execMctpWrite src body s
  | .attestationRequest src nonce => Sys2Proof.Machine.execAttestationRequest src nonce s
  | .pldmSensorRead src sensor => Sys2Proof.Machine.execPldmSensorRead src sensor s
  | .sensorUpdate values => Sys2Proof.Machine.execSensorUpdate values s
  | .pldmFwUpdate image => Sys2Proof.Machine.execPldmFwUpdate image s
  | .moduleReset => Sys2Proof.Machine.execModuleReset s
  | .powerWindow avg => Sys2Proof.Machine.execPowerWindow avg s
  | .thermalTrip die celsius => Sys2Proof.Machine.execThermalTrip die celsius s
  | .coolantLoss => Sys2Proof.Machine.execCoolantLoss s
  | .powerAlarm => Sys2Proof.Machine.execPowerAlarm s
  | .portLinkDown port => Sys2Proof.Machine.execPortLinkDown port s
  | .thermalRelease die celsius => Sys2Proof.Machine.execThermalRelease die celsius s
  | .chunkExponent group seq chunk member expo agreed => Sys2Proof.Machine.execChunkExponent group seq chunk member expo agreed s
  | .collGoAbort group seq cause lowest => Sys2Proof.Machine.execCollGoAbort group seq cause lowest s

end Sys2Proof.Machine
end

