-- ==== Sys2Proof/Machine/Step.lean ====
section
/-!
DEFINITION. Step: one step of the machine, and the placing of an instruction where the next step fetches.
-/
namespace Sys2Proof.Machine

/-- One step: the next happening of the agenda, else the next thing that can happen by itself (log 4). -/
def step (s : State) : Host.Outcome State Fault Refusal := cycle exec s

/-- The state with an instruction stored where the next step fetches (log 7). -/
def State.withFetchWord (s : State) (nbits w : Nat) : State := s.placeWord nbits w

end Sys2Proof.Machine
end

