-- ==== Sys2Proof/Safety.lean ====
section
/-!
DEFINITION. Safety: the terms in which claims are stated: the outcomes of steps, the invariants of states, when a slot operation is ready, and what
an operation that writes one register leaves.
-/
namespace Sys2Proof.Safety

open Sys2Proof.Machine

/-! ### Steps -/

/-- A step answers this state. -/
def StepsTo (s t : State) : Prop := step s = .next t

/-- The machine stops at this state. -/
def Stops (s : State) : Prop := (∃ f, step s = .fault f) ∨ ∃ r, step s = .refused r

/-- An invariant is kept by every step. -/
def Kept (inv : State → Prop) : Prop := ∀ s t : State, inv s → StepsTo s t → inv t

/-- Memory is in its canonical form: no two states with the same bytes differ in how they list them. -/
def MemCanonical (s : State) : Prop := s.mem.wf = true

/-- The machine is not halted (R436). -/
def Alive (s : State) : Prop := s.halted = false

/-! ### Slot operations -/

/-- As of its bundle, every register that an operation reads holds a value that is not poisoned, and no register that it writes still waits for an
older value (R114, R117, R399). -/
def Ready (s : State) (srcs dsts : List Dst) : Prop :=
  (∀ r ∈ srcs, s.issue.src.emptyReg r = false ∧ s.issue.src.poisonedReg r = false) ∧ ∀ r ∈ dsts, s.issue.src.emptyReg r = false

/-- A scalar as of the bundle. -/
def srcS (s : State) (r : Fin 64) : Word := s.issue.src.getS r
/-- A vector register as of the bundle. -/
def srcV (s : State) (r : Fin 256) : VReg := s.issue.src.getV r
/-- A predicate as of the bundle. -/
def srcP (s : State) (r : Fin 16) : Pred := s.issue.src.getP r
/-- A condition bit as of the bundle. -/
def srcC (s : State) (r : Fin 8) : Bool := s.issue.src.getC r

/-- The state after the bundle's context has one scalar written, and nothing else. -/
def putS (s : State) (d : Fin 64) (x : Word) : State := s.own fun c => c.setS d x
/-- The state after the bundle's context has one vector register written, and nothing else. -/
def putV (s : State) (d : Fin 256) (x : VReg) : State := s.own fun c => c.setV d x
/-- The state after the bundle's context has one predicate written, and nothing else. -/
def putP (s : State) (d : Fin 16) (x : Pred) : State := s.own fun c => c.setP d x
/-- The state after the bundle's context has one condition bit written, and nothing else. -/
def putC (s : State) (d : Fin 8) (x : Bool) : State := s.own fun c => c.setC d x

/-- The format selection of an operation names an entry of this format that is legal for it (R88, R134, R135, R182). -/
def Takes (s : State) (sel : FmtSel) (f : Fmt) (e : FmtEntry) : Prop :=
  FmtEntry.ofBits (s.issue.src.entryBits sel) = e ∧ e.fmt = some f ∧ e.reservedZero = true

/-- A vector register is written lane by lane: lane i of an active lane is `g i`, and any other keeps its value as of the bundle (R193). -/
def Merged (s : State) (d : Fin 256) (p : Fin 16) (w : Nat) (g : Nat → Nat) (v : VReg) : Prop :=
  ∀ i < 16384 / w, elem v i w = (if laneOn (srcP s p) w i then g i % 2 ^ w else elem (srcV s d) i w)

/-- The exact value of lane i of a vector register as of the bundle. -/
def laneVal (s : State) (f : Fmt) (r : Fin 256) (i : Nat) : Val := floatVal f (elem (srcV s r) i f.width)
/-- The integer in lane i of a vector register as of the bundle. -/
def laneInt (s : State) (f : Fmt) (r : Fin 256) (i : Nat) : Int := intVal f (elem (srcV s r) i f.width)

/-- Nothing that is older in its own context holds an operation of the bundle on a path: no FENCE and, in the MEM slot, no push that waits for room
(R326, R343). -/
def Clear (s : State) (path : Nat) : Prop := s.fenced path = false ∧ (s.issue.slot = .mem → s.pushing = false)

/-- The rows of a path-C access of the bundle's task lie at these absolute addresses, and nothing holds it: no FENCE, no push that waits, no array in
retention or being zeroed, no granule that the task does not hold (R261, R262, R326, R343, R354). -/
def Reaches (s : State) (l addrs : List Nat) : Prop :=
  Clear s 0 ∧ s.resolve s.issue.src.part.toNat (quadOf s.issue.key) l = .ok addrs ∧ s.needed s.issue.src false addrs = none

/-- The next bundle in sequence stands at this offset, all its code being in frames (R84, R123). -/
def NextAt (s : State) (o : Offset) : Prop := s.nextSeqLen s.issue.key s.issue.pc s.issue.len = .found o

/-! ### Bundles -/

/-- Slot words run one after the other from state `a` to state `b`: each either goes on, or stops, leaving the state as it was (R111, R120). -/
def Ran : List SlotWord → State → State → List (Slot × SlotOutcome) → Prop
  | [], a, b, stops => b = a ∧ stops = []
  | w :: ws, a, b, stops => ∃ t, exec w.op { a with issue := { a.issue with slot := w.slot, out := .ok } } = .next t ∧
    if t.issue.out = .ok then Ran ws t b stops else ∃ rest, stops = (w.slot, t.issue.out) :: rest ∧ Ran ws a b rest

/-- A slot of a bundle of `len` bytes is illegal (R90 items 2 to 6, R91): its word decodes to nothing, names a vector register outside the window, or ends a loop inside the bundle;
it writes what another slot writes; or it takes part in too many reads or writes of vector registers. -/
def IllegalSlot (vregs len : Nat) (l : List (Slot × Nat)) (u : Slot) : Prop :=
  let named := l.filterMap fun e => (namedOp e.1 e.2).map fun i => (e.1, i)
  (∃ w, (u, w) ∈ l ∧ ∀ x, decodeSlot u w = some x → outOfWindow vregs x.op = true ∨ shortLoop len x.op = true) ∨
  (∃ i v j, (u, i) ∈ named ∧ (v, j) ∈ named ∧ u ≠ v ∧ ∃ a ∈ writes i, ∃ b ∈ writes j, a.clash b = true) ∨
  (∃ i, (u, i) ∈ named ∧ vreads i ≠ [] ∧ 6 < (named.map fun e => readCount e.2).sum) ∨
  ∃ i, (u, i) ∈ named ∧ vwrites i ≠ [] ∧ 3 < (named.map fun e => (vwrites e.2).eraseDups.length).sum

/-- A mask of slots holds the header bits of just these. -/
def MaskOf (mask : Nat) (f : Slot → Prop) : Prop := mask < 2 ^ 8 ∧ ∀ u : Slot, mask.testBit u.bit = true ↔ f u

/-! ### The other agents -/

/-- This packet stands at the head of a queue that exists, runs and is not stopped, and nothing holds it (R35, R38, R41). -/
def HeadPacket (s : State) (n : Nat) (q : CmdQueue) (p : BitVec 512) : Prop :=
  tget s.queues n = some q ∧ s.running = true ∧ s.live n = true ∧ s.fld .qstat n 33 33 = 0 ∧ q.busy = none ∧ s.headOf n ≠ s.fld .qdb n 31 0 ∧
  (∀ x ∈ s.parked, x.work ≠ .packet n) ∧
  ∃ k, s.spotQ n q.part.toNat (q.base + s.headOf n % q.entries * 64) 1 = .mem k ∧ s.mem.poisoned k = false ∧ p = BitVec.ofNat 512 (s.mem.readLe k 64)

/-- The spoke runs, no park holds its current step, the row of that step has arrived, and the step, which keeps the rules of R300, is `c`; `u` is the
state, and `x` the spoke, with the next row read ahead (R300, R301, R312). -/
def AtStep (s u : State) (e k : Nat) (x : Spoke) (c : BitVec 256) : Prop :=
  ∃ z row arrives, s.spoke? e k = some z ∧ s.spokeParked e k z.nextHop = false ∧ tget z.rows (rowOf z.at) = some (row, arrives) ∧ arrives ≤ s.now ∧
    c = BitVec.ofNat 256 (nbytes row.toNat (z.at % 256) 32) ∧ badStep c z.index = false ∧
    u = (s.setSpoke e k z.keepRows).readAhead e k z.keepRows ∧ u.spoke? e k = some x

/-- No context ends, and none that runs waits: what performs lets nothing else go on (R327, R415). -/
def Quiet (s : State) : Prop := ∀ k, (s.ctx k).life ≠ .ending ∧ ((s.ctx k).life = .running → (s.ctx k).wait = .none)

/-- A copy command of local rows that has started and has rows to come, alone on its quad: no conversion, checksum, tag, multicast or device address (R272), and no
write of host memory is due before it (R425). -/
def RowsToCome (s : State) (q : Nat) (c : CopyCmd) : Prop :=
  (s.quad q).copies = [c] ∧ c.started = true ∧ c.finished = false ∧ c.parked = none ∧ c.wire = 0 ∧ c.failed = none ∧ s.hostPuts = [] ∧
  cpRowLen c.cmd % 256 = 0 ∧ 256 ≤ cpRowLen c.cmd ∧ c.row < cpRows c.cmd * (cpRowLen c.cmd / 256) ∧
  cpFmtS c.cmd % 16 = cpFmtD c.cmd % 16 ∧ ∀ i < 6, i ≠ 2 → cpFlag c.cmd i = false

/-! ### Frames -/

/-- Two states agree on every byte of memory and every poisoned row. -/
def SameMem (s t : State) : Prop := (∀ a, t.mem.read a = s.mem.read a) ∧ ∀ a, t.mem.poisoned a = s.mem.poisoned a

/-- Two states agree on all but the contexts of the cores and the bookkeeping of the bundle under way: memory, management registers, cores, quads, dies,
queues, jobs, journals, channels, engines, links and the timebase are the same. -/
def SameModule (s t : State) : Prop := { t with ctxs := s.ctxs, issue := s.issue } = s

/-- Two states agree on every context but one. -/
def SameOthers (s t : State) (key : Nat) : Prop := ∀ k, k ≠ key → t.ctx k = s.ctx k

end Sys2Proof.Safety
end

