-- ==== Sys2Proof/Certificates/Slice0/Obligations.lean ====
section
/-!
DEFINITION. Obligations: the statements for the provers. `s.issue` holds the bundle under way; the value of a register as of the bundle is `srcS`, `srcV`,
`srcP` or `srcC`.
-/
open Sys2Proof Sys2Proof.Machine Sys2Proof.Safety

/-! ### Scalar operations (R148 to R169) -/

/-- R150: the register-to-register integer operations. Each completes when its registers are ready, and writes its destination, a write to s0 being
discarded (R148). The products of MULH and MULHU are taken at 128 bits. -/
def Obligations.ScalarIntegerResults : Prop :=  ∀ (s : State) (d a b x : Fin 64) (sh : Fin 4), Ready s [.s a, .s b] [.s d] →
    let u := srcS s a
    let v := srcS s b
    let n := bitsOf v 5 0
    exec (.add d a b) s = .next (putS s d (u + v)) ∧
    exec (.sub d a b) s = .next (putS s d (u - v)) ∧
    exec (.mul d a b) s = .next (putS s d (u * v)) ∧
    exec (.mulh d a b) s = .next (putS s d ((u.signExtend 128 * v.signExtend 128).extractLsb' 64 64)) ∧
    exec (.mulhu d a b) s = .next (putS s d ((u.setWidth 128 * v.setWidth 128).extractLsb' 64 64)) ∧
    exec (.and d a b) s = .next (putS s d (u &&& v)) ∧
    exec (.or d a b) s = .next (putS s d (u ||| v)) ∧
    exec (.xor d a b) s = .next (putS s d (u ^^^ v)) ∧
    exec (.andn d a b) s = .next (putS s d (u &&& ~~~v)) ∧
    exec (.shl d a b) s = .next (putS s d (BitVec.ofNat 64 (u.toNat * 2 ^ n))) ∧
    exec (.shr d a b) s = .next (putS s d (BitVec.ofNat 64 (u.toNat / 2 ^ n))) ∧
    exec (.sra d a b) s = .next (putS s d (BitVec.ofInt 64 (u.toInt / 2 ^ n))) ∧
    exec (.rotl d a b) s = .next (putS s d (u <<< n ||| u >>> (64 - n))) ∧
    exec (.min d a b) s = .next (putS s d (BitVec.ofInt 64 (Min.min u.toInt v.toInt))) ∧
    exec (.max d a b) s = .next (putS s d (BitVec.ofInt 64 (Max.max u.toInt v.toInt))) ∧
    exec (.minu d a b) s = .next (putS s d (BitVec.ofNat 64 (Min.min u.toNat v.toNat))) ∧
    exec (.maxu d a b) s = .next (putS s d (BitVec.ofNat 64 (Max.max u.toNat v.toNat))) ∧
    exec (.shladd d a b sh) s = .next (putS s d (BitVec.ofNat 64 (u.toNat * 2 ^ sh.val + v.toNat))) ∧
    (Ready s [.s x] [] → exec (.madd d a b x) s = .next (putS s d (u * v + srcS s x)))

/-- R151: DIV, DIVU, REM and REMU, with their opcodes: the quotient rounds towards zero, the remainder keeps a = b * quotient + remainder, and division
by zero and signed overflow give fixed results. -/
def Obligations.DivisionResults : Prop :=  ∀ (s : State) (d a b : Fin 64), Ready s [.s a, .s b] [.s d] →
    let u := srcS s a
    let v := srcS s b
    ((Instr.div d a b).opRest.1 = 0x06 ∧ (Instr.divu d a b).opRest.1 = 0x07 ∧ (Instr.rem d a b).opRest.1 = 0x08 ∧ (Instr.remu d a b).opRest.1 = 0x09) ∧
    (v = 0 →
      exec (.div d a b) s = .next (putS s d 0xFFFFFFFFFFFFFFFF) ∧ exec (.divu d a b) s = .next (putS s d 0xFFFFFFFFFFFFFFFF) ∧
      exec (.rem d a b) s = .next (putS s d u) ∧ exec (.remu d a b) s = .next (putS s d u)) ∧
    (u = 0x8000000000000000 ∧ v = 0xFFFFFFFFFFFFFFFF →
      exec (.div d a b) s = .next (putS s d 0x8000000000000000) ∧ exec (.rem d a b) s = .next (putS s d 0)) ∧
    (v ≠ 0 ∧ ¬ (u = 0x8000000000000000 ∧ v = 0xFFFFFFFFFFFFFFFF) →
      ∃ q r : Word, exec (.div d a b) s = .next (putS s d q) ∧ exec (.rem d a b) s = .next (putS s d r) ∧
        q.toInt = u.toInt.tdiv v.toInt ∧ u.toInt = v.toInt * q.toInt + r.toInt ∧ (r ≠ 0 → (r.toInt < 0 ↔ u.toInt < 0))) ∧
    (v ≠ 0 →
      ∃ q r : Word, exec (.divu d a b) s = .next (putS s d q) ∧ exec (.remu d a b) s = .next (putS s d r) ∧
        q.toNat = u.toNat / v.toNat ∧ u.toNat = v.toNat * q.toNat + r.toNat)

/-- R152 to R154: bit counts, fields, immediate forms and constants. A field that passes bit 63 decodes to nothing, and so makes its bundle illegal. -/
def Obligations.FieldAndImmediateResults : Prop :=  ∀ (s : State) (d a lo w1 sh : Fin 64) (imm : BitVec 12) (i18 : BitVec 18) (k : Fin 4) (i16 : BitVec 16), Ready s [.s a] [.s d] →
    let u := srcS s a
    let i := imm.signExtend 64
    (∃ n : Nat, exec (.clz d a) s = .next (putS s d (BitVec.ofNat 64 n)) ∧ n ≤ 64 ∧ u.toNat < 2 ^ (64 - n) ∧ (u = 0 → n = 64) ∧ (u ≠ 0 → n < 64 ∧ u.getLsbD (63 - n) = true)) ∧
    (∃ n : Nat, exec (.ctz d a) s = .next (putS s d (BitVec.ofNat 64 n)) ∧ n ≤ 64 ∧ (u = 0 → n = 64) ∧ (u ≠ 0 → u.getLsbD n = true ∧ ∀ j < n, u.getLsbD j = false)) ∧
    exec (.popc d a) s = .next (putS s d (BitVec.ofNat 64 ((List.range 64).filter fun j => u.getLsbD j).length)) ∧
    exec (.addi d a imm) s = .next (putS s d (u + i)) ∧
    exec (.andi d a imm) s = .next (putS s d (u &&& i)) ∧
    exec (.ori d a imm) s = .next (putS s d (u ||| i)) ∧
    exec (.xori d a imm) s = .next (putS s d (u ^^^ i)) ∧
    exec (.shli d a sh) s = .next (putS s d (BitVec.ofNat 64 (u.toNat * 2 ^ sh.val))) ∧
    exec (.shri d a sh) s = .next (putS s d (BitVec.ofNat 64 (u.toNat / 2 ^ sh.val))) ∧
    exec (.srai d a sh) s = .next (putS s d (BitVec.ofInt 64 (u.toInt / 2 ^ sh.val))) ∧
    exec (.ldi d i18) s = .next (putS s d (BitVec.ofInt 64 i18.toInt)) ∧
    (lo.val + w1.val < 64 →
      exec (.extr d a lo w1) s = .next (putS s d (BitVec.ofNat 64 (bitsOf u (lo.val + w1.val) lo.val))) ∧
      (Ready s [.s d] [] → ∃ v : Word, exec (.dep d a lo w1) s = .next (putS s d v) ∧
        ∀ j < 64, v.getLsbD j = if lo.val ≤ j ∧ j ≤ lo.val + w1.val then u.getLsbD (j - lo.val) else (srcS s d).getLsbD j)) ∧
    (64 ≤ lo.val + w1.val → (Instr.extr d a lo w1).wf = false ∧ (Instr.dep d a lo w1).wf = false) ∧
    (Ready s [.s d] [] → ∃ v : Word, exec (.ldhi d k i16) s = .next (putS s d v) ∧
      ∀ j < 64, v.getLsbD j = if j / 16 = k.val then i16.getLsbD (j % 16) else (srcS s d).getLsbD j)

/-- R155 and R156: compares, condition logic and select. A write to c0 has no effect, and c0 reads true. A SEL whose x names no condition bit does not decode. -/
def Obligations.CompareAndSelectResults : Prop :=  ∀ (s : State) (d ca cb : Fin 8) (e a b : Fin 64) (imm : BitVec 12), Ready s [.s a, .s b, .c ca, .c cb] [.s e, .c d] →
    let u := srcS s a
    let v := srcS s b
    exec (.cmpeq d a b) s = .next (putC s d (decide (u = v))) ∧
    exec (.cmpne d a b) s = .next (putC s d (decide (u ≠ v))) ∧
    exec (.cmplt d a b) s = .next (putC s d (decide (u.toInt < v.toInt))) ∧
    exec (.cmpltu d a b) s = .next (putC s d (decide (u.toNat < v.toNat))) ∧
    exec (.cmpge d a b) s = .next (putC s d (decide (u.toInt ≥ v.toInt))) ∧
    exec (.cmpgeu d a b) s = .next (putC s d (decide (u.toNat ≥ v.toNat))) ∧
    exec (.cmpeqi d a imm) s = .next (putC s d (decide (u.toInt = imm.toInt))) ∧
    exec (.cmplti d a imm) s = .next (putC s d (decide (u.toInt < imm.toInt))) ∧
    exec (.cand d ca cb) s = .next (putC s d (srcC s ca && srcC s cb)) ∧
    exec (.cor d ca cb) s = .next (putC s d (srcC s ca || srcC s cb)) ∧
    exec (.sel e a b ca) s = .next (putS s e (if srcC s ca then u else v)) ∧
    exec (.sel e a b 0) s = .next (putS s e u) ∧
    ((Instr.cmpeq d a b).opRest.1 = 0x30 ∧ (Instr.cmpne d a b).opRest.1 = 0x31 ∧ (Instr.cmplt d a b).opRest.1 = 0x32 ∧ (Instr.cmpltu d a b).opRest.1 = 0x33 ∧
      (Instr.cmpge d a b).opRest.1 = 0x34 ∧ (Instr.cmpgeu d a b).opRest.1 = 0x35 ∧ (Instr.cmpeqi d a imm).opRest.1 = 0x36 ∧ (Instr.cmplti d a imm).opRest.1 = 0x37 ∧
      (Instr.cand d ca cb).opRest.1 = 0x38 ∧ (Instr.cor d ca cb).opRest.1 = 0x39 ∧ (Instr.sel e a b ca).opRest = (0x3C, packR3 e.val a.val b.val ca.val)) ∧
    (∀ x < 64, 8 ≤ x → decodeSlot .sca (0x3C * 2 ^ 24 + packR3 e.val a.val b.val x) = none) ∧
    srcC s 0 = true ∧ ∀ y : Bool, (putC s 0 y).me = s.me

/-- R157 to R160: the scalar FP32 operations. The exact value is rounded once, RNE; a NaN result is the canonical NaN, and only the low 32 bits of a
source count. The quotients and the cases that R159 fixes are stated value by value; every other result of FEXP2 and FLOG2 is that of the model's functions, whose
256 places never decide a rounding (DEDUCED, log 13). -/
def Obligations.ScalarFloatResults : Prop :=  ∀ (s : State) (d a b x : Fin 64) (c : Fin 8), Ready s [.s a, .s b] [.s d, .c c] →
    let u := fp32Of (srcS s a).toNat
    let v := fp32Of (srcS s b).toNat
    let round := fun r : Val => BitVec.ofNat 64 (cvtFloat .fp32 .rne false r)
    exec (.fadd d a b) s = .next (putS s d (round (u.add .rne v))) ∧
    exec (.fsub d a b) s = .next (putS s d (round (u.add .rne v.neg))) ∧
    exec (.fmul d a b) s = .next (putS s d (round (u.mul v))) ∧
    exec (.fdiv d a b) s = .next (putS s d (BitVec.ofNat 64 (divBits u v))) ∧
    exec (.fmin d a b) s = .next (putS s d (round (u.min v))) ∧
    exec (.fmax d a b) s = .next (putS s d (round (u.max v))) ∧
    exec (.fexp2 d a) s = .next (putS s d (BitVec.ofNat 64 (exp2Bits u))) ∧
    exec (.flog2 d a) s = .next (putS s d (BitVec.ofNat 64 (log2Bits u))) ∧
    exec (.itof d a) s = .next (putS s d (round (Val.ofInt (srcS s a).toInt))) ∧
    exec (.ftoi d a) s = .next (putS s d (BitVec.ofInt 64 (roundToInt .int64 .rne u))) ∧
    exec (.fcmplt c a b) s = .next (putC s c (u.lt v)) ∧
    exec (.fcmpeq c a b) s = .next (putC s c (u.eq v)) ∧
    (Ready s [.s x] [] → exec (.ffma d a b x) s = .next (putS s d (round ((u.mul v).add .rne (fp32Of (srcS s x).toNat))))) ∧
    (u.isNan = true ∨ v.isNan = true →
      exec (.fadd d a b) s = .next (putS s d 0x7FC00000) ∧ exec (.fsub d a b) s = .next (putS s d 0x7FC00000) ∧
      exec (.fmul d a b) s = .next (putS s d 0x7FC00000) ∧ exec (.fdiv d a b) s = .next (putS s d 0x7FC00000) ∧
      exec (.fcmplt c a b) s = .next (putC s c false) ∧ exec (.fcmpeq c a b) s = .next (putC s c false)) ∧
    (u.isNan = true → exec (.ftoi d a) s = .next (putS s d 0)) ∧
    (∀ (m n : Bool) (x y : Nat) (g h : Int), let sign := fun (z : Nat) => (if m = n then 0 else 2 ^ 31) + z
      (0 < x → 0 < y → divBits (.fin m x g) (.fin n y h) = cvtRat .fp32 .rne false (m != n) x y (g - h)) ∧
      (0 < x → divBits (.fin m x g) (.fin n 0 h) = sign 0x7F800000) ∧ (0 < y → divBits (.fin m 0 g) (.fin n y h) = sign 0) ∧
      divBits (.fin m 0 g) (.fin n 0 h) = 0x7FC00000 ∧ divBits (.inf m) (.inf n) = 0x7FC00000 ∧
      divBits (.inf m) (.fin n y h) = sign 0x7F800000 ∧ divBits (.fin m x g) (.inf n) = sign 0) ∧
    (exp2Bits .nan = 0x7FC00000 ∧ exp2Bits (.inf false) = 0x7F800000 ∧ exp2Bits (.inf true) = 0 ∧
      log2Bits .nan = 0x7FC00000 ∧ log2Bits (.inf false) = 0x7F800000 ∧ log2Bits (.inf true) = 0x7FC00000) ∧
    (∀ x : Val, (x.isZero = true → exp2Bits x = 0x3F800000 ∧ log2Bits x = 0xFF800000) ∧
      (x.lt (Val.ofInt 0) = true → log2Bits x = 0x7FC00000) ∧
      (x.isNan = false → x.lt (Val.ofInt 128) = false → exp2Bits x = 0x7F800000) ∧ (x.lt (Val.ofInt (-150)) = true → exp2Bits x = 0) ∧
      (∀ n : Int, -149 ≤ n → n ≤ 127 → x.eq (Val.ofInt n) = true → exp2Bits x = if -126 ≤ n then (n + 127).toNat * 2 ^ 23 else 2 ^ (n + 149).toNat) ∧
      ∀ n : Int, x.eq (.fin false 1 n) = true → log2Bits x = cvtFloat .fp32 .rne false (Val.ofInt n))

/-- R161 to R165, with R162 and R163: MFSR reads a system register as of the bundle in both modes: the identity registers field by field, and the others as they
were last written; MTSR writes the fields that are not read-only, a privileged register only
in supervisor mode; TSC reads the timebase; MFLC and MTLC read and write one field of a loop. -/
def Obligations.SystemRegisterResults : Prop :=  ∀ (s : State) (d a : Fin 64) (r : SysReg) (l fd : Fin 4), Ready s [.s a] [.s d] →
    exec (.mfsr d r) s = .next (putS s d (s.sysRead s.issue.key s.issue.src r)) ∧
    exec (.tsc d) s = .next (putS s d s.tbase) ∧
    exec (.mflc d l fd) s = .next (putS s d ((s.issue.src.lc[l]).get fd)) ∧
    exec (.mtlc l fd a) s = .next (s.own fun c => { c with lc := c.lc.set l ((c.lc[l]).put fd (srcS s a)) }) ∧
    (r.privileged = false ∨ s.issue.src.sup = true → exec (.mtsr r a) s = .next (s.own fun c => c.sysWrite r (srcS s a))) ∧
    (r.privileged = true ∧ s.issue.src.sup = false → exec (.mtsr r a) s = .next (s.trapSlot cPriv 0 0)) ∧
    (let c := s.issue.src
      let core := s.issue.key / 8 % 128
      let reads := fun (x : SysReg) (n : Nat) => exec (.mfsr d x) s = .next (putS s d (BitVec.ofNat 64 n))
      reads .taskid c.taskIndex.toNat ∧ reads .ticket c.ticket.toNat ∧ reads .jobid c.job.toNat ∧ reads .partid c.part.toNat ∧
      reads .coreid (core + 256 * c.logical.toNat) ∧ reads .quadid (core / 4) ∧ reads .dieid (core / 32) ∧ reads .pkgid s.pkgid.toNat ∧
      reads .ctxid (s.issue.key % 8) ∧ reads .prio c.prio.toNat ∧ (c.cflags.getLsbD 2 = false → reads .wexp c.wexp.toNat) ∧ reads .cflags c.cflags.toNat ∧
      reads .epolicyS c.epolicyS.toNat ∧ (∀ k, reads (.epolicyV k) (c.epolicyV[k]).toNat) ∧ reads .ftbase c.ftbase.toNat ∧ reads .ftsel c.ftsel.toNat ∧
      reads .xfer c.xfer.toNat ∧ reads .trapvec c.trapvec.toNat ∧ reads .traparea c.traparea.toNat ∧ reads .epc c.epc.toNat ∧ reads .exfer c.exfer.toNat ∧
      reads .estat c.estat.toNat ∧ reads .mode c.sup.toNat ∧ (c.logical = 0xFF → reads .teamcyc 0) ∧
      (∀ j team n, c.logical ≠ 0xFF → s.job? c.job.toNat = some j → j.team = some team → team.firstRelease = some n → reads .teamcyc (s.now - n)) ∧
      (s.issue.jnl = none → reads .jnlbase 0)) ∧
    (r.privileged = true ↔ r ∈ [.trapvec, .traparea, .epc, .exfer, .estat]) ∧
    (∀ c : Ctx, ∀ v : Word, (c.sysWrite .epc v).epc = v.setWidth 24 ∧ (c.sysWrite .trapvec v).trapvec = v.setWidth 24 ∧
      (c.sysWrite .exfer v).exfer = v.setWidth 27 ∧ (c.sysWrite .epolicyS v).epolicyS.getLsbD 0 = false ∧
      (c.sysWrite .ftbase v).ftbase = v.setWidth 6 ∧ (c.sysWrite .ftsel v).ftsel = v.setWidth 3 ∧ (c.sysWrite .traparea v).traparea = v.setWidth 40 ∧
      (∀ k : Fin 4, (c.sysWrite (.epolicyV k) v).epolicyV[k] = v) ∧
      (∀ x ∈ [SysReg.taskid, .ticket, .jobid, .partid, .coreid, .quadid, .dieid, .pkgid, .ctxid, .prio, .wexp, .cflags, .xfer, .teamcyc, .jnlbase, .mode],
        c.sysWrite x v = c) ∧ bitsOf (c.sysWrite .estat v).estat 25 24 = bitsOf v 25 24 ∧
      ∀ j < 24, (c.sysWrite .estat v).estat.getLsbD j = c.estat.getLsbD j)

/-- R166 to R169: descriptors, row and tile addresses, INCWRAP and CQPOP; an empty count queue traps with EMPTY_READ, INFO naming the queue. -/
def Obligations.AddressResults : Prop :=  ∀ (s : State) (d a b x : Fin 64) (q : Fin 4), Ready s [.s a, .s b, .s x] [.s d] →
    let u := srcS s a
    let v := srcS s b
    let at_ := fun t i : Nat => BitVec.ofNat 64 ((u.toNat % 2 ^ 32 + t * (v.toNat % 2 ^ 32) + i * (u.toNat / 2 ^ 32) + t * (v.toNat / 2 ^ 32 % 16) % 64) * 256 % 2 ^ 40)
    exec (.desc d a b) s = .next (putS s d (BitVec.ofNat 64 (v.toNat % 2 ^ 32 * 2 ^ 32 + u.toNat % 2 ^ 32))) ∧
    exec (.rowad d a b x) s = .next (putS s d (at_ ((srcS s x).toNat / 2 ^ 32) ((srcS s x).toNat % 2 ^ 32))) ∧
    exec (.tilead d a b x) s = .next (putS s d (at_ ((srcS s x).toNat % 2 ^ 32) 0)) ∧
    exec (.incwrap d a b) s = .next (putS s d (if u.toNat + 1 < v.toNat then u + 1 else 0)) ∧
    (v = 0 ∨ v = 1 ∨ v.toNat - 1 ≤ u.toNat ∨ u = 0xFFFFFFFFFFFFFFFF → exec (.incwrap d a b) s = .next (putS s d 0)) ∧
    ((Instr.desc d a b).opRest.1 = 0x60 ∧ (Instr.rowad d a b x).opRest.1 = 0x61 ∧ (Instr.tilead d a b x).opRest.1 = 0x62 ∧ (Instr.incwrap d a b).opRest.1 = 0x63) ∧
    (∀ n t, s.me.cq[q] = n :: t → exec (.cqpop d q) s = .next (putS (s.own fun c => { c with cq := c.cq.set q t }) d (n.setWidth 64))) ∧
    (s.me.cq[q] = [] → exec (.cqpop d q) s = .next (s.trapSlot cEmptyRead 0 (BitVec.ofNat 32 (512 + q.val))))

/-! ### Control (R94, R122 to R147, R391 to R396) -/

/-- R94: the seven NOPs complete and change nothing. -/
def Obligations.NopsChangeNothing : Prop :=  ∀ s : State, exec .nopC s = .next s ∧ exec .nopS s = .next s ∧ exec .nopA s = .next s ∧ exec .nopV s = .next s ∧ exec .nopM s = .next s ∧
    exec .nopL s = .next s ∧ exec .nopX s = .next s

/-- R122 and R123: branch targets and transfers. A transfer leaves its target in XFER with two delay bundles to come; one that is not taken names the
bundle after the delay bundles, and CALL writes that offset to s63. -/
def Obligations.TransferResults : Prop :=  ∀ (s : State) (t : Fin 4) (c : Fin 8) (a : Fin 64) (off : BitVec 22), Ready s [.s a, .s 63, .c c] [.s 63] →
    let target := s.issue.src.bt[t]
    let go := fun (o : Offset) (taken : Bool) => s.own fun x => { x with xfer := xferOf o 2 taken }
    exec (.prep t off) s = .next (s.own fun x => { x with bt := x.bt.set t (s.issue.pc + off.signExtend 24) }) ∧
    exec (.preps t a) s = .next (s.own fun x => { x with bt := x.bt.set t ((srcS s a).setWidth 24) }) ∧
    exec (.jmp t) s = .next (go target true) ∧
    exec .ret s = .next (go ((srcS s 63).setWidth 24) true) ∧
    (srcC s c = true → exec (.br c t) s = .next (go target true)) ∧
    (srcC s c = false → exec (.brn c t) s = .next (go target true)) ∧
    (∀ d2 o : Offset, s.me.seq = false → s.nextSeq s.issue.key s.me.pc = .found d2 → s.nextSeq s.issue.key d2 = .found o →
      (srcC s c = false → exec (.br c t) s = .next (go o false)) ∧
      (srcC s c = true → exec (.brn c t) s = .next (go o false)) ∧
      exec (.call t) s = .next (putS (go target true) 63 (o.setWidth 64))) ∧
    xferLeft (xferOf target 2 true) = 2 ∧ xferTarget (xferOf target 2 true) = target ∧ xferTaken (xferOf target 2 true) = true ∧
    xferTaken (xferOf target 2 false) = false

/-- R128 to R130 and R133: LOOP, LOOPI and LOOPQ arm a loop with its count, its body's first offset and its last; a count of 0 skips the body, by
the header at LEND, and a 0x00 header there traps with BAD_TARGET; LBRK leaves
one iteration of an armed loop and does not touch an idle one. -/
def Obligations.LoopResults : Prop :=  ∀ (s : State) (l q : Fin 4) (a : Fin 64) (n : BitVec 10) (fin : BitVec 12) (beg : Offset), Ready s [.s a] [] → NextAt s beg →
    let lend := s.issue.pc + fin.setWidth 24
    let armed := fun (u : State) (k : BitVec 32) => u.own fun x => { x with lc := x.lc.set l ⟨k, beg, lend, 0⟩ }
    let k := BitVec.ofNat 32 (Min.min (srcS s a).toNat 0xFFFFFFFF)
    (k ≠ 0 → exec (.loop l a fin) s = .next (armed s k)) ∧
    (n ≠ 0 → exec (.loopi l n fin) s = .next (armed s (n.setWidth 32))) ∧
    (∀ m t, s.me.cq[q] = m :: t → m ≠ 0 →
      exec (.loopq l q fin) s = .next (armed (s.own fun x => { x with cq := x.cq.set q t }) m)) ∧
    (s.me.cq[q] = [] → exec (.loopq l q fin) s = .next (s.trapSlot cEmptyRead 0 (BitVec.ofNat 32 (512 + q.val)))) ∧
    (∀ h : Byte, s.codeByte s.issue.key lend = some h →
      let passes := fun (i : Instr) (u : State) =>
        (h = 0 → exec i s = .next ((armed u 0).trapSlot cBadTarget (lend.setWidth 64) 0)) ∧
        (∀ o : Offset, h ≠ 0 → s.nextSeqLen s.issue.key lend (bundleLength h) = .found o →
          exec i s = .next { armed u 0 with issue := { s.issue with skip := some o } });
      (k = 0 → passes (.loop l a fin) s) ∧ (n = 0 → passes (.loopi l n fin) s) ∧
      (∀ t, s.me.cq[q] = 0 :: t → passes (.loopq l q fin) (s.own fun x => { x with cq := x.cq.set q t }))) ∧
    ((s.issue.src.lc[l]).cnt = 0 → exec (.lbrk l) s = .next (s.own id)) ∧
    ((s.issue.src.lc[l]).cnt ≠ 0 → exec (.lbrk l) s = .next (s.own fun x => { x with lc := x.lc.set l { x.lc[l] with cnt := 1 } }))

/-- R137 and R138: SUSPEND ends the run of a task at NextSeq of its bundle; once s1 to s6 are full its continuation record is pushed and its context is
free, that of a handler too. YIELD does so when other work waits, and is a NOP otherwise; which work counts on a quad that moves (R73) is read by inference (DEDUCED, log 28). Both trap with PRIV in supervisor mode (R394), SUSPEND in a team too (R147).
R29, R139 and R415: END of a task that holds nothing and has nothing outstanding adds its share 2^(64 - WEXP) to the 128-bit root of its job, at the physical
address of TERMROOT, and frees its context. -/
def Obligations.TaskEndResults : Prop :=
  (∀ (s : State) (o : Offset), NextAt s o →
    let k := s.issue.key
    let u := s.own fun c => { c with wait := .suspend o, pc := o }
    let full := (List.range 6).all fun i => u.me.sFull.getLsbD (i + 1)
    let written := ((u.pushRec u.me.part.toNat (u.me.record o)).carry k false).leaveCtx k
    let leaves := s.otherWork k s.issue.src.prio.toNat
    (s.issue.src.sup = false ∧ s.issue.src.logical = 0xFF →
      (full = true → exec .suspend s = .next written ∧ (leaves = true → exec .yield s = .next written)) ∧
      (full = false → exec .suspend s = .next u ∧ (leaves = true → exec .yield s = .next u)) ∧
      (leaves = false → exec .yield s = .next s)) ∧
    (s.issue.src.sup = false ∧ s.issue.src.logical ≠ 0xFF → exec .suspend s = .next (s.trapSlot cPriv 0 0) ∧ exec .yield s = .next s) ∧
    (s.issue.src.sup = true → exec .suspend s = .next (s.trapSlot cPriv 0 0) ∧ exec .yield s = .next (s.trapSlot cPriv 0 0))) ∧
  (∀ (s : State) (j : Job) (p : PageMap),
    s.issue.src.sup = false → s.me.outstanding = [] → s.me.inflight = [] → s.journal? s.me.ticket = none → s.me.armed = none → s.me.cflags.getLsbD 2 = false →
    s.job? s.me.job.toNat = some j → j.complete = false →
    s.pageOf j.part j.root = some p → p.perm.toNat &&& 6 = 6 → p.pa + (j.root - p.va) + 16 ≤ 0x3000000000 → (p.pa + (j.root - p.va)) % 16 = 0 →
    s.mem.poisoned (p.pa + (j.root - p.va)) = false → s.linesHeld (p.pa + (j.root - p.va)) 16 = [] →
    ∃ t, exec .endTask s = .next t ∧
      t.mem.readLe (p.pa + (j.root - p.va)) 16 = (s.mem.readLe (p.pa + (j.root - p.va)) 16 + 2 ^ (64 - s.me.wexp.toNat)) % 2 ^ 128 ∧
      (t.ctx s.issue.key).life = .free ∧
      ∀ a, ¬ (p.pa + (j.root - p.va) ≤ a ∧ a < p.pa + (j.root - p.va) + 16) → t.mem.read a = s.mem.read a)

/-- R140: SPAWN by a task that holds no lock pushes a child made from the image at its address, with the weight exponent of both one higher; a handler and a
task of WEXP 63 trap with SPAWN_DEPTH. -/
def Obligations.SpawnResults : Prop :=  ∀ (s : State) (a : Fin 64) (addr : Nat), Ready s [.s a] [] → s.issue.src.sup = false →
    Reaches s [rowOf ((srcS s a).toNat % 2 ^ 40)] [addr] →
    (s.issue.src.cflags.getLsbD 2 = true ∨ s.me.wexp = 63 → exec (.spawn a) s = .next (s.trapSlot cSpawnDepth 0 0)) ∧
    (s.issue.src.cflags.getLsbD 2 = false → s.me.wexp ≠ 63 → (s.loadRow addr).2 = none → s.journal? s.issue.src.ticket = none →
      (s.core (coreOf s.issue.key)).lastStamp ≠ some s.tbase.toNat →
      ∃ t, exec (.spawn a) s = .next t ∧ t.me.wexp = s.issue.src.wexp + 1 ∧
        let img := nbytes (s.loadRow addr).1.toNat (64 * ((srcS s a).toNat % 2 ^ 40 / 64 % 4)) 64
        let child : ContRec := ⟨ticketOf s.issue.src.prio.toNat s.tbase (coreOf s.issue.key), BitVec.ofNat 24 (nbytes img 8 3), s.issue.src.image, s.issue.src.job,
          s.issue.src.wexp + 1, 0, (List.range 6).map fun i => BitVec.ofNat 64 (nbytes img (16 + 8 * i) 8)⟩
        t.taskQueues = tset s.taskQueues (queueKey s.issue.src.part.toNat (prioOf child.ticket))
          (tgetD s.taskQueues (queueKey s.issue.src.part.toNat (prioOf child.ticket)) [] ++ [(child, none)]) ∧
        t.mem = s.mem)

/-- R141, R332 and R333: WAITA goes on when its test holds; when it fails and the quad's monitor table has a free entry, the context sleeps in that entry, its pc after the
bundle unless it runs a team, and a task other than a team's is written out into the entry once s1 to s6 are full; its context is then free. That one of them that is poisoned is
written out as it stands is the model's choice (log 43). On a full table the context waits in place, reading its word again every POLLGAP cycles, and MONSTAT counts it (R333). -/
def Obligations.WaitaResults : Prop :=  ∀ (s : State) (a b : Fin 64) (mode : Fin 4) (addr : Nat) (o : Offset), Ready s [.s a, .s b] [] → s.issue.src.sup = false →
    Reaches s [rowOf ((srcS s a).toNat % 2 ^ 40)] [addr] → (s.loadRow addr).2 = none →
    let k := (srcS s a).toNat % 2 ^ 40 / 8 % 32
    let q := quadOf s.issue.key
    let w := BitVec.ofNat 64 (nbytes (s.loadRow addr).1.toNat (8 * k) 8)
    let passes := match mode with
      | 0 => decide (w = srcS s b)
      | 1 => decide (w ≠ srcS s b)
      | 2 => decide (w.toNat ≥ (srcS s b).toNat)
      | 3 => decide (w.toNat < (srcS s b).toNat)
    (passes = true → exec (.waita a b mode) s = .next (s.touch addr)) ∧
    (passes = false → NextAt s o → (s.quad q).monitor.length < 64 → s.me.logical = s.issue.src.logical → (∀ m ∈ (s.quad q).monitor, m.ctxKey ≠ some s.issue.key) →
      ∃ t e, exec (.waita a b mode) s = .next t ∧ (t.quad q).monitor = (s.quad q).monitor ++ [e] ∧
        e.addr = localKey addr + 8 * k ∧ e.val = srcS s b ∧ e.mode = mode ∧ t.mem = s.mem ∧
        (s.me.logical ≠ 0xFF → e.ctxKey = some s.issue.key ∧ e.record = none ∧ t.me.wait = .word none e.addr e.val mode ∧ t.me.pc = s.me.pc) ∧
        (s.me.logical = 0xFF → ((List.range 6).all fun i => s.me.sFull.getLsbD (i + 1)) = false →
          e.ctxKey = some s.issue.key ∧ e.record = none ∧ t.me.wait = .word none e.addr e.val mode ∧ t.me.pc = o) ∧
        (s.me.logical = 0xFF → ((List.range 6).all fun i => s.me.sFull.getLsbD (i + 1)) = true →
          e.ctxKey = none ∧ e.record = some (s.me.record o) ∧ t.me.life = .free)) ∧
    (passes = false → 64 ≤ (s.quad q).monitor.length →
      ∃ t, exec (.waita a b mode) s = .next t ∧ t.me = { s.me with wait := .word (some (s.now + s.pollGap q)) (localKey addr + 8 * k) (srcS s b) mode } ∧
        (t.quad q).monitor = (s.quad q).monitor ∧ t.fld .monstat q 63 32 = Min.min (s.fld .monstat q 63 32 + 1) (2 ^ 32 - 1) ∧ t.mem = s.mem)

/-- R142 to R144: ARM makes a free context of the core (the lowest of them: the model's choice, log 16) a dormant handler of the class; LAUNCH enters its card into the partition's pool, or, when the pool is full (R56),
holds it and lets the context leave its core. BAR makes a team context wait at its barrier, and traps with PRIV outside a team; at a POD barrier (R330) the first team
of the partition that arrives with an id holds it. -/
def Obligations.ArmLaunchBarResults : Prop :=  ∀ (s : State) (a b : Fin 64) (addr k : Nat) (scope : Fin 8) (id : Fin 64), Ready s [.s a, .s b] [] → s.issue.src.sup = false →
    (s.armTarget s.issue.key = some k → (s.core (coreOf k)).arrivals = [] →
      ∃ t, exec (.arm a b) s = .next t ∧ (t.ctx k).life = .dormant ∧ (t.ctx k).armed = some ((srcS s a).setWidth 24, (srcS s b).setWidth 8) ∧
        (t.ctx k).job = s.issue.src.job ∧ (t.ctx k).image = s.issue.src.image ∧ (t.ctx k).prio = s.issue.src.prio) ∧
    (s.armTarget s.issue.key = none → exec (.arm a b) s = .next (s.own fun x => { x with wait := .arm }).waits) ∧
    (Reaches s [rowOf ((srcS s a).toNat % 2 ^ 40 / 128 * 128)] [addr] → (s.loadRow addr).2 = none → s.journal? s.issue.src.ticket = none →
      let card := BitVec.ofNat 1024 (nbytes (s.loadRow addr).1.toNat ((srcS s a).toNat % 2 ^ 40 / 128 * 128 % 256) 128);
      let n := (s.pool.filter fun e => decide (e.1 = s.issue.src.part)).length;
      (n < 256 → exec (.launch a) s = .next { s.touch addr with pool := s.pool ++ [(s.issue.src.part, card)] }) ∧
      (256 ≤ n → exec (.launch a) s = .next ({ s.touch addr with held := s.held ++ [(s.issue.src.ticket, s.issue.src.part, card)] }.own fun x =>
        { x with wait := .pool }))) ∧
    (s.issue.src.logical ≠ 0xFF →
      let b := { s.own (fun x => { x with wait := .barrier scope.val id.val }) with
        barriers := s.barriers ++ [(scope.val, id.val, s.issue.src.job.toNat, s.issue.key)] };
      let part := ((s.job? s.issue.src.job.toNat).map Job.part).getD 0;
      (scope ≠ 5 ∨ (tget s.podHolders (part, id.val)).isSome = true → exec (.bar scope id) s = .next b) ∧
      (scope = 5 → tget s.podHolders (part, id.val) = none →
        exec (.bar scope id) s = .next { b with podHolders := tset s.podHolders (part, id.val) s.issue.src.job.toNat })) ∧
    (s.issue.src.logical = 0xFF → exec (.bar scope id) s = .next (s.trapSlot cPriv 0 0))

/-- R145, R391 and R392: TRAP saves NextSeq of its bundle as EPC and XFER as EXFER, clears XFER, records the cause SOFTWARE in ESTAT, enters supervisor mode at
TRAPVEC, and writes a trap record of 64 bytes at TRAPAREA, whose masks of slots are zero (DEDUCED, log 34).
R396: a trap in supervisor mode, or with no handler, is a double trap: EPC, EXFER and ESTAT do not change before the task is abandoned, and its record, where it can
be written, has DOUBLE set and stands at TRAPAREA + 64. -/
def Obligations.TrapAndDoubleTrapResults : Prop :=
  (∀ (s : State) (n : BitVec 12) (o : Offset) (addr : Nat), Ready s [] [] → NextAt s o → s.me.sup = false → s.me.trapvec ≠ 0 →
    (xferLeft s.issue.src.xfer = 1 → xferTaken s.issue.src.xfer = false) → s.journal? s.me.ticket = none →
    s.reach s.me.part.toNat (quadOf s.issue.key) (s.me.traparea.toNat / 128 * 128) = .ok addr → s.mem.poisoned (localKey addr) = false →
    let k := localKey addr
    ∃ t, exec (.trap n) s = .next t ∧ t.me.epc = o ∧ t.me.exfer = s.me.xfer ∧ t.me.xfer = 0 ∧ t.me.estat = 0x12 ∧ t.me.sup = true ∧ t.me.pc = s.me.trapvec ∧
      t.me.seq = false ∧ t.me.s = s.me.s ∧ t.me.v = s.me.v ∧ t.me.p = s.me.p ∧ t.me.c = s.me.c ∧ t.me.traparea = s.me.traparea ∧ t.me.trapvec = s.me.trapvec ∧
      t.mem.readLe k 1 = 0x12 ∧ t.mem.readLe (k + 1) 2 = 0 ∧ t.mem.readLe (k + 4) 3 = o.toNat ∧ t.mem.readLe (k + 7) 1 = s.me.image.toNat ∧
      t.mem.readLe (k + 8) 8 = 0 ∧ t.mem.readLe (k + 16) 8 = s.me.ticket.toNat ∧ t.mem.readLe (k + 24) 8 = s.tbase.toNat ∧ t.mem.readLe (k + 32) 4 = n.toNat ∧
      t.mem.readLe (k + 36) 4 = s.me.xfer.toNat ∧ t.mem.readLe (k + 40) 2 = s.me.job.toNat ∧ t.mem.readLe (k + 44) 20 = 0 ∧
      (∀ a, ¬ (k ≤ a ∧ a < k + 64) → t.mem.read a = s.mem.read a) ∧ SameOthers s t s.issue.key) ∧
  (∀ (s : State) (key : Nat) (cause : Cause) (fs is : Nat) (pc saved : Offset) (fa : Word) (info : BitVec 32),
    (s.ctx key).sup = true ∨ (s.ctx key).trapvec = 0 →
    let area := (s.ctx key).traparea.toNat / 128 * 128 + 64
    let rec_ := trapRecord (s.ctx key) key cause fs is true pc fa info s.tbase
    (∀ u, s.writeTrapRecord key area rec_ = some u → s.takeTrap key cause fs is pc saved fa info = u.abandon key cause.toNat) ∧
    (s.writeTrapRecord key area rec_ = none → s.takeTrap key cause fs is pc saved fa info = s.abandon key cause.toNat) ∧
    rec_ / 256 ^ 3 % 2 = 1)

/-- R146 and R395: ERET leaves supervisor mode and goes on at EPC with the saved XFER (ACTION 0), restarts a task from its retained continuation (ACTION 1), a handler
staying one (DEDUCED, log 42), or
abandons it with INFO = ESTAT.CAUSE (ACTION 2 and 3, and ACTION 1 in a team); in user mode it traps with PRIV. -/
def Obligations.EretResults : Prop :=  ∀ s : State, Ready s [] [] →
    let action := bitsOf s.me.estat 25 24
    let u := s.own fun c => { c with sup := false, watch := s.now, seq := false }
    (s.issue.src.sup = true →
      (action = 0 → ¬ (xferLeft s.me.exfer = 0 ∧ xferTaken s.me.exfer = true) →
        exec .eret s = .next (u.own fun c => { c with xfer := s.me.exfer, pc := s.me.epc })) ∧
      (action = 1 → s.me.logical = 0xFF → ∀ r, s.journal? s.me.ticket = none → s.me.retained = some r →
        exec .eret s = .next ((((u.undo s.me.ticket).countRestart s.me.job.toNat).carry s.issue.key true).startRec s.issue.key { r with cflags := r.cflags &&& 4 ||| 8 }
          s.me.taskIndex s.me.part.toNat s.me.prio.toNat s.me.vregs s.me.logical.toNat)) ∧
      (2 ≤ action ∨ (action = 1 ∧ s.me.logical ≠ 0xFF) → exec .eret s = .next (u.abandon s.issue.key (bitsOf s.me.estat 7 0)))) ∧
    (s.issue.src.sup = false → exec .eret s = .next (s.trapSlot cPriv 0 0))

/-! ### Vector operations (R192 to R232) -/

/-- R196, with R193 and R194: the element-wise floating operations. Each active lane takes the exact result converted once by the entry's RND and SAT; every other
lane of the destination keeps its value. -/
def Obligations.VectorFloatResults : Prop :=  ∀ (s : State) (d a b : Fin 256) (c : Fin 64) (p : Fin 16) (sel : FmtSel) (f : Fmt) (e : FmtEntry),
    Ready s [.v d, .v a, .v b, .s c] [.v d] → Takes s sel f e → f.isFloat = true → e.scaled = false →
    let writes := fun (i : Instr) (g : Nat → Val) => ∃ v, exec i s = .next (putV s d v) ∧ Merged s d p f.width (fun i => cvtFloat f e.rnd e.sat (g i)) v
    let x := laneVal s f a
    let y := laneVal s f b
    let z := laneVal s f d
    let k := fp32Of (srcS s c).toNat
    writes (.vadd d a b p sel) (fun i => (x i).add e.rnd (y i)) ∧
    writes (.vsub d a b p sel) (fun i => (x i).add e.rnd (y i).neg) ∧
    writes (.vmul d a b p sel) (fun i => (x i).mul (y i)) ∧
    writes (.vfma d a b p sel) (fun i => (z i).add e.rnd ((x i).mul (y i))) ∧
    writes (.vfms d a b p sel) (fun i => (z i).add e.rnd ((x i).mul (y i)).neg) ∧
    writes (.vmin d a b p sel) (fun i => (x i).min (y i)) ∧
    writes (.vmax d a b p sel) (fun i => (x i).max (y i)) ∧
    writes (.vabs d a p sel) (fun i => (x i).abs) ∧
    writes (.vneg d a p sel) (fun i => (x i).neg) ∧
    writes (.vmuls d a c p sel) (fun i => (x i).mul k) ∧
    writes (.vadds d a c p sel) (fun i => (x i).add e.rnd k)

/-- R198, R199 and R202: transcendentals, block scaling and codebook decode. A transcendental is taken on the lane converted to FP32 and its FP32 result is
converted into the format. VSCL takes the block of its entry when
SCALED is 0 too, where R175 and R199 differ (log 16). The cases that R198 fixes are stated value by value, those of VEXP2 and VLOG2 in `ScalarFloatResults` (R159); the other results of VEXP2, VLOG2
and VTANH are those of the model's functions, whose 256 places never decide a rounding (DEDUCED, log 13). -/
def Obligations.VectorFunctionResults : Prop :=  ∀ (s : State) (d a b : Fin 256) (p : Fin 16) (sel : FmtSel) (f : Fmt) (e : FmtEntry) (cb : Fin 8),
    Ready s [.v d, .v a, .v b] [.v d] → Takes s sel f e → f.isFloat = true →
    let writes := fun (i : Instr) (g : Nat → Nat) => ∃ v, exec i s = .next (putV s d v) ∧ Merged s d p f.width g v
    let x := fun i => floatVal .fp32 (cvt (elem (srcV s a) i f.width) f .fp32 .rne false)
    let out := fun n : Nat => cvt n .fp32 f e.rnd e.sat
    (e.scaled = false →
      writes (.vrcp d a p sel) (fun i => out (rcpBits (x i))) ∧
      writes (.vrsq d a p sel) (fun i => out (rsqBits (x i))) ∧
      writes (.vexp2 d a p sel) (fun i => out (exp2Bits (x i))) ∧
      writes (.vlog2 d a p sel) (fun i => out (log2Bits (x i))) ∧
      writes (.vtanh d a p sel) (fun i => out (tanhBits (x i))) ∧
      (∀ c : Fin 8, sel = .column c → writes (.vdec d a p c cb) (fun i =>
        let k := elem (srcV s a) i 4
        cvt (bitsOf s.issue.src.cb[cb] (16 * k + 15) (16 * k)) .bf16 f e.rnd e.sat))) ∧
    (∀ (m : Bool) (x : Nat) (g : Int), let sign := fun (z : Nat) => (if m then 2 ^ 31 else 0) + z
      (rcpBits .nan = 0x7FC00000 ∧ rcpBits (.fin m 0 g) = sign 0x7F800000 ∧ rcpBits (.inf m) = sign 0 ∧
        (0 < x → (Val.fin false x g).lt (.fin false 1 (-128)) = true → rcpBits (.fin m x g) = sign 0x7F800000) ∧
        (0 < x → rcpBits (.fin m x g) = cvtRat .fp32 .rne false m 1 x (-g))) ∧
      (rsqBits .nan = 0x7FC00000 ∧ rsqBits (.fin m 0 g) = sign 0x7F800000 ∧ rsqBits (.inf false) = 0 ∧ rsqBits (.inf true) = 0x7FC00000 ∧
        (0 < x → rsqBits (.fin true x g) = 0x7FC00000) ∧
        ∀ n : Int, (floatVal .fp32 x).eq (.fin false 1 (2 * n)) = true → rsqBits (floatVal .fp32 x) = (127 - n).toNat * 2 ^ 23) ∧
      (tanhBits .nan = 0x7FC00000 ∧ tanhBits (.fin m 0 g) = sign 0 ∧ tanhBits (.inf m) = sign 0x3F800000 ∧
        ((Val.fin false x g).lt (Val.ofInt 9) = false → tanhBits (.fin m x g) = sign 0x3F800000))) ∧
    writes (.vscl d a b p sel) (fun i =>
      let sc := elem (srcV s b) (i / e.blk) 32
      let k := bitsOf (BitVec.ofNat 32 sc) 19 12
      cvtFloat f e.rnd e.sat (if k = 0 then .zero else if k = 255 then .nan
        else (laneVal s f a i).mul (.fin false (4096 + sc % 4096) ((k : Int) - 127 - 12))))

/-- R197, R200 and R201: select, quantise and convert. VSEL and VCVT write every lane; VQNT writes one code for each FP32 lane, one scale for each block, and zeros above them.
The fraction bits of a scale whose exponent field is 0 or 255 are the model's choice (log 16 and 19). -/
def Obligations.VectorConversionResults : Prop :=  ∀ (s : State) (d a b : Fin 256) (p : Fin 16) (sel dsel : FmtSel) (col : Fin 8) (f t : Fmt) (e g : FmtEntry),
    Ready s [.v d, .v a, .v b] [.v d, .v b] → Takes s sel f e →
    (f.plain = true → e.scaled = false →
      ∃ v, exec (.vsel d a b p sel) s = .next (putV s d v) ∧ ∀ i < f.lanes,
        let x := elem (srcV s (if laneOn (srcP s p) f.width i then a else b)) i f.width
        elem v i f.width = if f.isFloat = true ∧ (floatVal f x).isNan = true then f.nanBits else x) ∧
    (sel = .column col → Takes s dsel t g → f.plain = true → t.plain = true → e.scaled = false → g.scaled = false →
      ∃ v, exec (.vcvt d a p col dsel) s = .next (putV s d v) ∧ ∀ i < t.lanes,
        elem v i t.width = if Min.min f.lanes t.lanes ≤ i then 0
          else if laneOn (srcP s p) f.width i then cvt (elem (srcV s a) i f.width) f t g.rnd g.sat % 2 ^ t.width else elem (srcV s d) i t.width) ∧
    (f = .e4m3 ∨ f = .e5m2 ∨ f = .int8 ∨ f = .cb4 → e.scaled = true → d ≠ b →
      ∃ v sc, exec (.vqnt d a b p sel) s = .next (putV (putV s d v) b sc) ∧
        (∀ j < 512, elem sc j 32 = if j < 512 / e.blk then
          blockScale (quantMax f s.issue.src.cb[e.cb]) ((((List.range e.blk).map (e.blk * j + ·)).filter fun i => laneOn (srcP s p) 32 i).map (laneVal s .fp32 a)) % 2 ^ 32
          else 0) ∧
        (∀ i < 512, elem v i f.width = (if laneOn (srcP s p) 32 i = true ∧ scaleExp (elem sc (i / e.blk) 32) ≠ 0 ∧ scaleExp (elem sc (i / e.blk) 32) ≠ 255
          then quantCode f e.rnd s.issue.src.cb[e.cb] (elem sc (i / e.blk) 32) (laneVal s .fp32 a i) else 0) % 2 ^ f.width) ∧
        ∀ i < f.lanes, 512 ≤ i → elem v i f.width = 0)

/-- R203: the integer and bitwise lanes. Arithmetic wraps, or saturates when the entry has SAT; a shift count counts modulo the width. -/
def Obligations.VectorIntegerResults : Prop :=  ∀ (s : State) (d a b : Fin 256) (p : Fin 16) (sel : FmtSel) (f : Fmt) (e : FmtEntry),
    Ready s [.v a, .v b] [.v d] → Takes s sel f e → f.isInt = true → e.scaled = false →
    let w := f.width
    let writes := fun (i : Instr) (g : Nat → Nat) => ∃ v, exec i s = .next (putV s d v) ∧ Merged s d p w g v
    let wrap := fun r : Int => (r % 2 ^ w).toNat
    let put := fun r : Int => wrap (if e.sat then Min.min (Max.max r f.minInt) f.maxInt else r)
    let x := laneInt s f a
    let y := laneInt s f b
    let xb := fun i => elem (srcV s a) i w
    let yb := fun i => elem (srcV s b) i w
    writes (.viadd d a b p sel) (fun i => put (x i + y i)) ∧
    writes (.visub d a b p sel) (fun i => put (x i - y i)) ∧
    writes (.vimul d a b p sel) (fun i => put (x i * y i)) ∧
    writes (.vand d a b p sel) (fun i => xb i &&& yb i) ∧
    writes (.vor d a b p sel) (fun i => xb i ||| yb i) ∧
    writes (.vxor d a b p sel) (fun i => xb i ^^^ yb i) ∧
    writes (.vshl d a b p sel) (fun i => xb i * 2 ^ (yb i % w)) ∧
    writes (.vshr d a b p sel) (fun i => xb i / 2 ^ (yb i % w)) ∧
    writes (.vsra d a b p sel) (fun i => wrap (x i / 2 ^ (yb i % w))) ∧
    writes (.vimin d a b p sel) (fun i => wrap (Min.min (x i) (y i))) ∧
    writes (.vimax d a b p sel) (fun i => wrap (Max.max (x i) (y i))) ∧
    writes (.vpopc d a p sel) (fun i => ((List.range w).filter fun j => (xb i).testBit j).length)

/-- R204 and R205: compares and classes set the bytes of the active lanes that pass, and clear every other bit of the predicate. -/
def Obligations.VectorCompareResults : Prop :=  ∀ (s : State) (d p : Fin 16) (a b : Fin 256) (col : Fin 8) (sel : FmtSel) (cls : BitVec 8) (f : Fmt) (e : FmtEntry),
    Ready s [.v a, .v b] [] → Takes s sel f e → f.plain = true → e.scaled = false →
    let writes := fun (i : Instr) (g : Nat → Bool) => ∃ q, exec i s = .next (putP s d q) ∧
      ∀ j < 2048, q.getLsbD j = (laneOn (srcP s p) f.width (j / (f.width / 8)) && g (j / (f.width / 8)))
    let x := fun i => valOf f (elem (srcV s a) i f.width)
    let y := fun i => valOf f (elem (srcV s b) i f.width)
    writes (.vcmpeq d a b p sel) (fun i => (x i).eq (y i)) ∧
    writes (.vcmpne d a b p sel) (fun i => !(x i).eq (y i)) ∧
    writes (.vcmplt d a b p sel) (fun i => (x i).lt (y i)) ∧
    writes (.vcmple d a b p sel) (fun i => (x i).lt (y i) || (x i).eq (y i)) ∧
    writes (.vcmpuo d a b p sel) (fun i => (x i).isNan || (y i).isNan) ∧
    (sel = .column col → f.isFloat = true → writes (.vclass d a p col cls) (fun i => cls.getLsbD (laneClass f (elem (srcV s a) i f.width))))

/-- R206: the predicate operations. p0 reads all ones; a bundle that writes it is illegal. -/
def Obligations.PredicateResults : Prop :=  ∀ (s : State) (d a b : Fin 16) (r : Fin 64) (c : Fin 8), Ready s [] [.s r, .c c] →
    let x := srcP s a
    let y := srcP s b
    exec (.pand d a b) s = .next (putP s d (x &&& y)) ∧
    exec (.por d a b) s = .next (putP s d (x ||| y)) ∧
    exec (.pxor d a b) s = .next (putP s d (x ^^^ y)) ∧
    exec (.pandn d a b) s = .next (putP s d (x &&& ~~~y)) ∧
    (∃ q, exec (.pfirst d a) s = .next (putP s d q) ∧ ∀ j < 2048, q.getLsbD j = true ↔ x.getLsbD j = true ∧ ∀ i < j, x.getLsbD i = false) ∧
    exec (.pcnt r a) s = .next (putS s r (BitVec.ofNat 64 ((List.range 2048).filter fun j => x.getLsbD j).length)) ∧
    exec (.vany c a) s = .next (putC s c ((List.range 2048).any fun j => x.getLsbD j)) ∧
    exec (.vall c a) s = .next (putC s c ((List.range 2048).all fun j => x.getLsbD j)) ∧
    srcP s 0 = BitVec.allOnes 2048 ∧ (Instr.pand 0 a b).wf = false

/-- R186, R187 and R207 to R209: reductions and the scan. A floating sum follows the pairwise tree of R186, each node rounded to FP32, and an integer sum is exact modulo 2^64; the largest
and smallest lanes are those that no active lane lies above or below, -0 below +0, and their index is the lowest of them; a prefix sum runs in lane order. -/
def Obligations.ReductionResults : Prop :=  ∀ (s : State) (r : Fin 64) (d a : Fin 256) (p : Fin 16) (sel : FmtSel) (f : Fmt) (e : FmtEntry),
    Ready s [.v a] [.s r, .v d] → Takes s sel f e → f.plain = true → e.scaled = false →
    let q := srcP s p
    let on := fun i => i < f.lanes ∧ laneOn q f.width i = true
    let x := laneVal s f a
    let int := laneInt s f a
    let node := fun (u v : Val) => floatVal .fp32 (cvtFloat .fp32 e.rnd e.sat (u.add e.rnd v))
    let tops := fun (i j : Nat) => if f.isFloat then (x j).below (x i) = true else int j < int i
    let scalar := fun i => if f.isFloat then BitVec.ofNat 64 (cvtFloat .fp32 .rne false (x i)) else BitVec.ofInt 64 (int i)
    let best := fun (above : Nat → Nat → Prop) (i : Nat) => on i ∧ ∀ j, on j → ¬ above j i
    let index := fun (above : Nat → Nat → Prop) (i : Nat) => on i ∧ (x i).isNan = false ∧ ∀ j, on j → (x j).isNan = false → above i j ∨ (¬ above j i ∧ i ≤ j)
    let nan := fun i => f.isFloat = true ∧ (x i).isNan = true
    (f.isInt = true → exec (.vrsum r a p sel) s = .next (putS s r (BitVec.ofInt 64 ((((List.range f.lanes).filter fun i => laneOn q f.width i).map int).sum)))) ∧
    (∀ (n : Nat) (y : Nat → Nat → Val), f.isFloat = true → f.lanes = 2 ^ n → (∀ i < f.lanes, y 0 i = if laneOn q f.width i then x i else .zero) →
      (∀ k i, y (k + 1) i = node (y k (2 * i)) (y k (2 * i + 1))) → exec (.vrsum r a p sel) s = .next (putS s r (BitVec.ofNat 64 (cvtFloat .fp32 e.rnd e.sat (y n 0))))) ∧
    ((∃ i, on i ∧ nan i) → exec (.vrmax r a p sel) s = .next (putS s r 0x7FC00000) ∧ exec (.vrmin r a p sel) s = .next (putS s r 0x7FC00000)) ∧
    ((∃ i, on i) → (∀ i, on i → ¬ nan i) →
      (∃ i, best tops i ∧ exec (.vrmax r a p sel) s = .next (putS s r (scalar i))) ∧
      (∃ i, best (fun i j => tops j i) i ∧ exec (.vrmin r a p sel) s = .next (putS s r (scalar i)))) ∧
    ((∀ i, ¬ on i) →
      exec (.vrmax r a p sel) s = .next (putS s r (if f.isFloat then 0xFF800000 else BitVec.ofInt 64 f.minInt)) ∧
      exec (.vrmin r a p sel) s = .next (putS s r (if f.isFloat then 0x7F800000 else BitVec.ofInt 64 f.maxInt)) ∧
      exec (.vramax r a p sel) s = .next (putS s r (BitVec.allOnes 64)) ∧ exec (.vramin r a p sel) s = .next (putS s r (BitVec.allOnes 64))) ∧
    (∀ i, on i → (∀ j, on j → nan j ∧ i ≤ j) →
      exec (.vramax r a p sel) s = .next (putS s r (BitVec.ofNat 64 i)) ∧ exec (.vramin r a p sel) s = .next (putS s r (BitVec.ofNat 64 i))) ∧
    (∀ i, index tops i → f.isFloat = true → exec (.vramax r a p sel) s = .next (putS s r (BitVec.ofNat 64 i))) ∧
    (∀ i, index (fun i j => tops j i) i → f.isFloat = true → exec (.vramin r a p sel) s = .next (putS s r (BitVec.ofNat 64 i))) ∧
    (∀ i, f.isInt = true → on i →
      ((∀ j, on j → int j < int i ∨ (int j = int i ∧ i ≤ j)) → exec (.vramax r a p sel) s = .next (putS s r (BitVec.ofNat 64 i))) ∧
      ((∀ j, on j → int i < int j ∨ (int j = int i ∧ i ≤ j)) → exec (.vramin r a p sel) s = .next (putS s r (BitVec.ofNat 64 i)))) ∧
    (∃ w, exec (.vscan d a p sel) s = .next (putV s d w) ∧
      (f.isInt = true → ∀ i < f.lanes, elem w i f.width =
        if laneOn q f.width i then writeInt f e.sat ((((List.range (i + 1)).filter fun j => laneOn q f.width j).map int).sum)
        else elem (srcV s d) i f.width) ∧
      (∀ y : Nat → Val, f.isFloat = true → y 0 = .zero → (∀ i, y (i + 1) = if laneOn q f.width i then node (y i) (x i) else y i) → ∀ i < f.lanes,
        elem w i f.width = if laneOn q f.width i then cvtFloat f e.rnd e.sat (y (i + 1)) % 2 ^ f.width else elem (srcV s d) i f.width))

/-- R214 to R218: moves between lanes and bytes, through the pair of the two sources.
R219 and R220: filling lanes with an immediate, the lane number or a scalar, and reading or writing one lane; a lane number at or above L traps with FORMAT. -/
def Obligations.LaneMoveAndFillResults : Prop :=
  (∀ (s : State) (d a b : Fin 256) (p : Fin 16) (off n : BitVec 9) (col : Fin 8) (sel : FmtSel) (f : Fmt) (e : FmtEntry),
    Ready s [.v a, .v b] [.v d] →
    let u := srcV s a
    let v := srcV s b
    let writes := fun (i : Instr) (w : Nat) (g : Nat → Nat) => ∃ x, exec i s = .next (putV s d x) ∧ Merged s d p w g x
    writes (.vmov d a p) 8 (fun j => elem u j 8) ∧
    writes (.vrotm d a b p off) 8 (fun j => (v.toNat * 256 ^ 2048 + u.toNat) / 256 ^ (off.toNat + j) % 256) ∧
    (Takes s sel f e → f.plain = true → e.scaled = false →
      let w := f.width
      let l := f.lanes
      (sel = .column col → writes (.vslide d a b p col n) w (fun i =>
        if i + n.toNat < l then elem u (i + n.toNat) w else if i + n.toNat < 2 * l then elem v (i + n.toNat - l) w else 0)) ∧
      writes (.vperm d a b p sel) w (fun i =>
        let g := Min.min l (2 ^ w)
        elem u (g * (i / g) + elem v i w % g) w) ∧
      writes (.vzip d a b p sel) w (fun i => if i % 2 = 0 then elem u (i / 2) w else elem v (i / 2) w) ∧
      writes (.vuzp d a b p sel) w (fun i => if i < l / 2 then elem u (2 * i) w else elem v (2 * (i - l / 2)) w))) ∧
  (∀ (s : State) (d a : Fin 256) (r t : Fin 64) (p : Fin 16) (imm lane : BitVec 9) (col : Fin 8) (sel : FmtSel) (f : Fmt) (e : FmtEntry),
    Ready s [.v d, .v a, .s r] [.v d, .s t] → Takes s sel f e → f.plain = true → e.scaled = false →
    let w := f.width
    let writes := fun (i : Instr) (g : Nat → Nat) => ∃ x, exec i s = .next (putV s d x) ∧ Merged s d p w g x
    let int := fun x : Int => if f.isFloat then cvtFloat f e.rnd e.sat (Val.ofInt x) else writeInt f e.sat x
    let scalar := if f.isFloat then cvtFloat f e.rnd e.sat (fp32Of (srcS s r).toNat) else writeInt f e.sat (srcS s r).toInt
    writes (.viota d p sel) (fun i => int i) ∧
    writes (.vbcst d r p sel) (fun _ => scalar) ∧
    (sel = .column col →
      writes (.vspl d p col imm) (fun _ => int imm.toInt) ∧
      (lane.toNat < f.lanes →
        exec (.vext t a col lane) s = .next (putS s t (if f.isFloat then BitVec.ofNat 64 (cvt (elem (srcV s a) lane.toNat w) f .fp32 .rne false)
          else BitVec.ofInt 64 (laneInt s f a lane.toNat))) ∧
        ∃ x, exec (.vins d r p col lane) s = .next (putV s d x) ∧ ∀ i < f.lanes,
          elem x i w = if i = lane.toNat ∧ laneOn (srcP s p) w i = true then scalar % 2 ^ w else elem (srcV s d) i w) ∧
      (f.lanes ≤ lane.toNat →
        exec (.vext t a col lane) s = .next (s.trapSlot cFormat 0 (BitVec.ofNat 32 (s.issue.src.entryBits sel))) ∧
        exec (.vins d r p col lane) s = .next (s.trapSlot cFormat 0 (BitVec.ofNat 32 (s.issue.src.entryBits sel))))))

/-- R221 to R225: selection over a group of registers, threshold counts, lane bitmaps, rank and select. -/
def Obligations.SelectionResults : Prop :=  ∀ (s : State) (d a b : Fin 256) (r : Fin 64) (p : Fin 16) (col : Fin 8) (lg : Fin 10) (f : Fmt) (e : FmtEntry),
    Ready s [.v a, .v b, .s r] [.v d] →
    let q := srcP s p
    (Takes s (.column col) f e → f.plain = true → e.scaled = false →
      let w := f.width
      let bits := fun i => elem (srcV s a) i w
      let span := Min.min (2 ^ lg.val) f.lanes
      let rows := f.lanes / span
      let count := fun k => (((List.range span).map (k * span + ·)).filter fun i => laneOn q w i && passes f (bits i) (threshold f (srcS s r))).length
      (thcntRegs f lg.val = 1 → d.val < s.issue.src.vregs → ∃ v, exec (.vthcnt d a r p col lg) s = .next (putV s d v) ∧
        ∀ k < 512, elem v k 32 = if k < rows then count k else 0) ∧
      (1 < thcntRegs f lg.val → s.issue.src.vregs < d.val + thcntRegs f lg.val →
        exec (.vthcnt d a r p col lg) s = .next (s.trapSlot cFormat 0 (BitVec.ofNat 32 (s.issue.src.entryBits (.column col))))) ∧
      (1 < thcntRegs f lg.val → d.val + thcntRegs f lg.val ≤ s.issue.src.vregs → d.val + thcntRegs f lg.val ≤ 256 →
        (∀ i < thcntRegs f lg.val, s.issue.src.emptyReg (.v (Fin.ofNat 256 (d.val + i))) = false) →
        ∃ t l, exec (.vthcnt d a r p col lg) s = .next t ∧ t.me.inflight = s.me.inflight ++ l ∧ l.length = thcntRegs f lg.val ∧
          ∀ i < thcntRegs f lg.val, t.me.vFull.getLsbD (d.val + i) = false ∧ ∃ z v, l[i]? = some z ∧ z.dst = .v (Fin.ofNat 256 (d.val + i)) ∧ z.value = some v ∧
            ∀ k < 512, elem v k 32 = if 512 * i + k < rows then count (512 * i + k) else 0)) ∧
    (∀ g1 : Fin 8, Takes s (.column col) f e → f.plain = true → e.scaled = false → Ready s ((groupRegs a g1.val).map Dst.v) [] →
      let bits := fun j => elem (srcV s (Fin.ofNat 256 (a.val + j / f.lanes))) (j % f.lanes) f.width
      let active := (List.range ((g1.val + 1) * f.lanes)).filter fun j => laneOn q f.width (j % f.lanes)
      ∃ v : VReg, (∀ j < 16384, v.getLsbD j =
          (active.contains j && decide ((active.filter fun i => ranksAhead f i (bits i) j (bits j)).length < (srcS s r).toNat))) ∧
        (g1 = 0 → exec (.vtopk d a r p col g1) s = .next (putV s d v)) ∧
        (g1 ≠ 0 → exec (.vtopk d a r p col g1) s = .next (s.produce (.v d) (some v) none (48 + 24 * g1.val)).2)) ∧
    (Takes s (.column col) f e → f.plain = true ∨ f = .cb4 → e.scaled = false →
      ∃ v, exec (.vbmp d p col) s = .next (putV s d v) ∧ ∀ i < 16384, v.getLsbD i = (decide (i < f.lanes) && q.getLsbD (i * f.width / 8))) ∧
    (∃ v, exec (.vrank d a b p) s = .next (putV s d v) ∧ Merged s d p 32 (fun i =>
      ((List.range 16384).filter fun j => decide (j < elem (srcV s b) i 32) && (srcV s a).getLsbD j).length) v) ∧
    (∃ v, exec (.vselb d a b p) s = .next (putV s d v) ∧ Merged s d p 32 (fun i =>
      (((List.range 16384).filter fun j => (srcV s a).getLsbD j).getD (elem (srcV s b) i 32) 0xFFFFFFFF)) v)

/-- R226 to R232: histogram, count queues, routing counters, checksums, the format table and the codebooks. A push of more entries than a count queue has room for traps
with CQ_OVERFLOW and pushes nothing. -/
def Obligations.TableAndCounterResults : Prop :=  ∀ (s : State) (d a : Fin 256) (r row : Fin 64) (p : Fin 16) (n1 : Fin 64) (m1 cb : Fin 8) (cq : Fin 4) (sel : FmtSel) (f : Fmt) (e : FmtEntry),
    Ready s [.v a, .s r] [.v d, .s r] →
    let q := srcP s p
    let v := srcV s a
    let l := ((List.range (n1.val + 1)).filter fun i => laneOn q 32 i).map fun i => BitVec.ofNat 32 (elem v i 32)
    let quad := quadOf s.issue.key
    (Takes s sel f e → f = .int8 ∨ f = .uint8 ∨ f = .int16 ∨ f = .int32 → e.scaled = false →
      ∃ x, exec (.vhist d a p sel) s = .next (putV s d x) ∧ ∀ k < 512, elem x k 32 =
        ((List.range f.lanes).filter fun i => laneOn q f.width i && decide (elem v i f.width % 512 = k)).length) ∧
    ((s.issue.src.cq[cq]).length + l.length ≤ 64 → exec (.vcqp a p n1 cq) s = .next (s.own fun x => { x with cq := x.cq.set cq (x.cq[cq] ++ l) })) ∧
    (64 < ((s.issue.src.cq[cq]).length + l.length) → exec (.vcqp a p n1 cq) s = .next (s.trapSlot cCqOverflow 0 0)) ∧
    (∃ x, exec (.rcadd a p) s = .next (s.modQuad quad fun y => { y with rcOps := y.rcOps ++ [(0, some x)] }) ∧
      ∀ i < 512, elem x i 32 = if i < 64 ∧ laneOn q 32 i = true then elem v i 32 else 0) ∧
    exec (.rcsnap d) s = .next ((s.produce (.v d) none none 12).2.modQuad quad fun y => { y with rcOps := y.rcOps ++ [(s.nextId, none)] }) ∧
    (∃ x : Word, exec (.vcsum r a m1) s = .next (putS s r x) ∧ x.toNat =
      ((List.range (32 * (m1.val + 1))).map fun i => ((srcS s r).toNat + i + 1) % (2 ^ 61 - 1) * (elem v i 64 % (2 ^ 61 - 1))).sum % (2 ^ 61 - 1)) ∧
    exec (.ftld a r row) s = .next (s.own fun x => { x with ft := Vector.ofFn fun i : Fin 64 =>
      let j := (i.val + 64 - row.val) % 64
      if j < (Min.min (srcS s r).toNat 64) then v.extractLsb' (128 * j) 128 else x.ft[i] }) ∧
    exec (.cbld a cb) s = .next (s.own fun x => { x with cb := x.cb.set cb (v.setWidth 256) })

/-! ### Matrix, memory, locks, channels and collectives (R255 to R259, R266 to R269, R326, R327, R334 to R353, R386 to R388, R404, R405, R411) -/

/-- R241 and R255 to R259: TTASK and TTASKR push a legal record to the tile queue of the quad once its cells can be had, and trap with BAD_TILE on a bad one; TQCFG
is privileged; TSTAT and TLATE read the scheduler; TEVICT drops a tag from the arrays that run no task. -/
def Obligations.MatrixResults : Prop :=  ∀ (s : State) (a : Fin 256) (x y d : Fin 64) (n1 : Fin 8) (which : Fin 16), Ready s [.v a, .s x, .s y] [.s d] →
    let q := quadOf s.issue.key
    let c := s.issue.src
    let rec_ : BitVec 512 := (srcV s a).setWidth 512
    let fa := c.fmtByte (tf rec_ 2 1)
    let fw := c.fmtByte (tf rec_ 3 1)
    let fc := c.fmtByte (tf rec_ 44 1)
    let pushes := fun (i : Instr) (staging : List VReg) =>
      (badTile rec_ fa fc staging.length = true → exec i s = .next (s.trapSlot cBadTile 0 0)) ∧
      (badTile rec_ fa fc staging.length = false → tileFormat rec_ fa fw fc = none → s.fenced 2 = false → s.cellRoom q 0 (1 + 32 * staging.length) = true →
        ∃ t r, exec i s = .next t ∧ (t.quad q).tiles = (s.quad q).tiles ++ [r] ∧ r.cmd = rec_ ∧ r.staging = staging ∧ r.org = s.origin ∧ r.depOk = false ∧
          t.me.outstanding = s.me.outstanding ++ [⟨r.id, 2⟩] ∧ t.mem = s.mem)
    pushes (.ttask a) [] ∧
    (∀ b : Fin 256, Ready s ((groupRegs b n1.val).map Dst.v) [] → pushes (.ttaskr a b n1) ((groupRegs b n1.val).map (srcV s))) ∧
    (c.sup = false → exec (.tqcfg x y) s = .next (s.trapSlot cPriv 0 0)) ∧
    (c.sup = true → ∃ t, exec (.tqcfg x y) s = .next t ∧
      (srcS s x = 0 → (t.quad q).tqmin = (srcS s y).setWidth 12) ∧ (srcS s x = 1 → (t.quad q).tqcap = (srcS s y).setWidth 13) ∧
      (srcS s x = 2 → (t.quad q).tqskip = (srcS s y).getLsbD 0) ∧ (srcS s x = 3 → (t.quad q).tqthr = (srcS s y).setWidth 3) ∧
      (4 ≤ (srcS s x).toNat → t.quad q = s.quad q)) ∧
    (∃ t l, exec (.tstat d which) s = .next t ∧ t.me.inflight = s.me.inflight ++ [l] ∧ l.dst = .s d ∧ l.due = s.now + 8 ∧
      l.value = some (BitVec.ofNat 16384 (s.tileStat q c.job which))) ∧
    (∃ t, exec (.tevict x) s = .next t ∧ ((srcS s x).setWidth 32 = (0 : BitVec 32) → t = s) ∧
      ((srcS s x).setWidth 32 ≠ (0 : BitVec 32) → ∀ i : Fin 4, ((s.quad q).arrays[i]).task = none →
        (((t.quad q).arrays[i]).buf0.valid = true → ((t.quad q).arrays[i]).buf0.tag ≠ (srcS s x).setWidth 32) ∧
        (((t.quad q).arrays[i]).buf1.valid = true → ((t.quad q).arrays[i]).buf1.tag ≠ (srcS s x).setWidth 32))) ∧
    (let n := (s.quad q).tqthr.toNat;
      exec (.tlate d) s = .next (putS s d (BitVec.ofNat 64 (s.quadLevel q + (if n < 4 then (Min.min (s.late n) (2 ^ 56 - 1)) else 0) * 256))))

/-- R116 and R267: a load empties its destination and puts in flight the rows at its addresses as of the bundle, row j of the register from the j-th address and the
other rows zero; memory does not change. SLD takes one 64-bit word. An address outside the windows traps with LOCAL_RANGE. -/
def Obligations.LoadResults : Prop :=  ∀ (s : State) (d b : Fin 256) (e a c : Fin 64) (n1 : Fin 8) (k : Fin 32) (addrs : List Nat),
    Ready s [.s a, .s (pairReg a), .s c, .v b] [.v d, .s e] →
    let loads := fun (i : Instr) (rows : List Nat) =>
      (Reaches s rows addrs → ∃ t l v, exec i s = .next t ∧ t.me.inflight = s.me.inflight ++ [l] ∧ l.dst = .v d ∧ l.value = some v ∧ t.me.emptyReg (.v d) = true ∧
        l.poison = addrs.findSome? (fun x => (s.loadRow x).2) ∧
        (∀ j < 8, vrow v j = if j < addrs.length then (s.loadRow (addrs.getD j 0)).1 else 0) ∧ SameMem s t ∧ SameOthers s t s.issue.key) ∧
      (∀ x, Clear s 0 → s.resolve s.issue.src.part.toNat (quadOf s.issue.key) rows = .range x →
        exec i s = .next (s.trapSlot cLocalRange (BitVec.ofNat 64 x) 0))
    let u := srcS s a
    loads (.vld d a n1) ((List.range (n1.val + 1)).map fun j => (rowOf u.toNat + 256 * j) % 2 ^ 40) ∧
    loads (.vldp d a c n1) ((List.range (n1.val + 1)).map fun j => descAddr u (srcS s (pairReg a)) (bitsOf (srcS s c) 63 32) (bitsOf (srcS s c) 31 0 + j)) ∧
    loads (.vldx d a b) ((List.range 8).map fun j => (((rowOf u.toNat : Int) + 256 * sext 32 (elem (srcV s b) j 32)) % 2 ^ 40).toNat) ∧
    (∀ x, Reaches s [rowOf u.toNat % 2 ^ 40] [x] → ∃ t l, exec (.sld e a k) s = .next t ∧ t.me.inflight = s.me.inflight ++ [l] ∧ l.dst = .s e ∧
      l.value = some (BitVec.ofNat 16384 (nbytes (s.loadRow x).1.toNat (8 * k.val) 8)) ∧ l.poison = (s.loadRow x).2 ∧ SameMem s t) ∧
    (∀ x, s.issue.jnl = none → (s.loadRow x).1 = s.issue.mem.row (localKey (rowOf x)))

/-- R263 and R267: a store by a task without a journal writes, at the address of each row, the bytes whose predicate bit is set, a later row over an earlier one, and no
other byte of memory. -/
def Obligations.StoreResults : Prop :=  ∀ (s : State) (d b : Fin 256) (e a c : Fin 64) (p : Fin 16) (n1 : Fin 8) (k : Fin 32) (addrs : List Nat),
    Ready s [.v d, .s e, .s a, .s (pairReg a), .s c, .v b] [] → s.journal? s.issue.src.ticket = none → (∀ x ∈ addrs, s.mem.poisoned (localKey x) = false) →
    let hits := fun (x : Nat) (l : List Nat) (p : Pred) =>
      (List.range l.length).filter fun j => decide (localKey (rowOf (l.getD j 0)) = rowOf x) && p.getLsbD (256 * j + x % 256)
    let stores := fun (i : Instr) (rows : List Nat) => Reaches s rows addrs → ∃ t, exec i s = .next t ∧
      ∀ x, t.mem.read x = match (hits x addrs (srcP s p)).getLast? with
        | some j => BitVec.ofNat 8 (elem (srcV s d) (256 * j + x % 256) 8)
        | none => s.mem.read x
    let u := srcS s a
    stores (.vst d a p n1) ((List.range (n1.val + 1)).map fun j => (rowOf u.toNat + 256 * j) % 2 ^ 40) ∧
    stores (.vstp d a c p n1) ((List.range (n1.val + 1)).map fun j => descAddr u (srcS s (pairReg a)) (bitsOf (srcS s c) 63 32) (bitsOf (srcS s c) 31 0 + j)) ∧
    stores (.vstx d a b p) ((List.range 8).map fun j => (((rowOf u.toNat : Int) + 256 * sext 32 (elem (srcV s b) j 32)) % 2 ^ 40).toNat) ∧
    (∀ x, Reaches s [rowOf u.toNat % 2 ^ 40] [x] → x % 256 = 0 → s.mem.poisoned (localKey x) = false → ∃ t, exec (.sst e a k) s = .next t ∧
      t.mem.readLe (localKey x + 8 * k.val) 8 = (srcS s e).toNat ∧
      ∀ y, ¬ (localKey x + 8 * k.val ≤ y ∧ y < localKey x + 8 * k.val + 8) → t.mem.read y = s.mem.read y)

/-- R269, R326, R327 and R343: COPY joins a copy queue of the quad once a cell can be had; FENCE holds the younger operations of its after paths for the commands outstanding
on its before paths, and for those of its task that a base die still holds (R298, R321, R370); DRAIN makes the context not ready until its paths have performed. A push that waits for room holds all three. That FENCE and DRAIN act alike for every
scope is the model's choice (log 14). -/
def Obligations.CopyFenceDrainResults : Prop :=  ∀ (s : State) (a : Fin 256) (q scope : Fin 8) (before after paths : BitVec 8), Ready s [.v a] [] →
    let quad := quadOf s.issue.key
    let ids := (s.me.outstanding.filter fun o => before.getLsbD o.path.val).map (·.id) ++ ((s.engineIds s.me.ticket).filter fun e => before.getLsbD e.2).map (·.1)
    (s.pushing = true → exec (.copy a q) s = .next s.waits ∧ exec (.fence before after scope) s = .next s.waits ∧ exec (.drain paths scope) s = .next s.waits) ∧
    (s.pushing = false → s.fenced 1 = false → s.holdsAny s.issue.src.ticket = false → s.cellRoom quad 1 1 = true →
      ∃ t c, exec (.copy a q) s = .next t ∧ (t.quad quad).copies = (s.quad quad).copies ++ [c] ∧ c.cmd = (srcV s a).setWidth 512 ∧ c.queue = q ∧ c.org = s.origin ∧
        c.finished = false ∧ t.me.outstanding = s.me.outstanding ++ [⟨c.id, 1⟩] ∧ SameMem s t) ∧
    (s.pushing = false → ids = [] ∨ after = 0 → exec (.fence before after scope) s = .next s) ∧
    (s.pushing = false → ids ≠ [] → after ≠ 0 → exec (.fence before after scope) s = .next (s.own fun c => { c with fences := c.fences ++ [⟨ids, after⟩] })) ∧
    (s.pushing = false → s.me.drained paths = true → exec (.drain paths scope) s = .next s) ∧
    (s.pushing = false → s.me.drained paths = false → exec (.drain paths scope) s = .next (s.own fun c => { c with wait := .drain paths }))

/-- R343 to R345: base-die queues. A push to a queue with room appends its 64 bytes; a pop and a try join the queue's pops, their destinations empty; a partition without
the permission traps with QUEUE_DENIED. -/
def Obligations.QueueOperationResults : Prop :=  ∀ (s : State) (a d : Fin 256) (b : Fin 64) (c : Fin 8), Ready s [.v a, .s b] [.v d, .c c] → s.fenced 0 = false → s.pushing = false →
    let i := (srcS s b).toNat % 1024
    let part := s.issue.src.part.toNat
    (s.mayPush i part = false → exec (.qpush a b) s = .next (s.trapSlot cQueueDenied 0 0)) ∧
    (s.mayPush i part = true → (s.bdQueue i).entries.length < s.bdqDepth i → ∃ t, exec (.qpush a b) s = .next t ∧
      (t.bdQueue i).entries = (s.bdQueue i).entries ++ [((srcV s a).setWidth 512, none)] ∧ SameMem s t ∧ t.ctxs = s.ctxs) ∧
    (s.mayPush i part = true → s.bdqDepth i ≤ (s.bdQueue i).entries.length → ∃ t n, exec (.qpush a b) s = .next t ∧
      (t.bdQueue i).pushes = (s.bdQueue i).pushes ++ [.task n ((srcV s a).setWidth 512)] ∧ (t.bdQueue i).entries = (s.bdQueue i).entries) ∧
    (s.mayPop i part = false → exec (.qpop d b) s = .next (s.trapSlot cQueueDenied 0 0) ∧ exec (.qtry d b c) s = .next (s.trapSlot cQueueDenied 0 0)) ∧
    (s.mayPop i part = true →
      (∃ t n, exec (.qpop d b) s = .next t ∧ (t.bdQueue i).pops = (s.bdQueue i).pops ++ [(s.issue.key, [n], none)] ∧ t.me.emptyReg (.v d) = true) ∧
      (∃ t n m, exec (.qtry d b c) s = .next t ∧ (t.bdQueue i).pops = (s.bdQueue i).pops ++ [(s.issue.key, [n, m], some (srcV s d))] ∧ t.me.emptyReg (.v d) = true ∧
        (c ≠ 0 → t.me.emptyReg (.c c) = true)))

/-- R347 to R351: ASET declares, replaces or drops an atomic set whose bounds are rounded out to its granules, a local one in the absolute window that it must not leave; AJNL arms a journal in the issuing quad's scratchpad, and traps
with LOCK_STATE while the task holds a granule. Both trap with PRIV in supervisor mode and in a team. -/
def Obligations.LockDeclarationResults : Prop :=  ∀ (s : State) (a b : Fin 64) (set : Fin 16) (g : Fin 8), Ready s [.s a, .s b] [] →
    let c := s.issue.src
    let others := s.me.sets.filter fun x => decide (x.id ≠ set)
    let gs := 256 * 4 ^ g.val
    let lo := bitsOf (srcS s a) 55 0 / gs * gs
    let hi := (bitsOf (srcS s a) 55 0 + (srcS s b).toNat + gs - 1) / gs * gs
    let row := rowOf ((srcS s a).toNat % 2 ^ 40)
    let quad := quadOf s.issue.key
    (c.sup = true ∨ c.logical ≠ 0xFF → exec (.aset a b set g) s = .next (s.trapSlot cPriv 0 0) ∧ exec (.ajnl a) s = .next (s.trapSlot cPriv 0 0)) ∧
    (c.sup = false → c.logical = 0xFF → s.fenced 0 = false → s.pushing = false →
      (srcS s b = 0 → exec (.aset a b set g) s = .next (s.own fun x => { x with sets := others })) ∧
      (srcS s b ≠ 0 → (srcS s a).getLsbD 63 = true →
        (hi ≤ 2 ^ 56 → exec (.aset a b set g) s = .next (s.own fun x => { x with sets := others ++ [⟨set, true, lo, hi, gs⟩] })) ∧
        (2 ^ 56 < hi → exec (.aset a b set g) s = .next (s.trapSlot cLocalRange (BitVec.ofNat 64 (bitsOf (srcS s a) 55 0)) 0))) ∧
      (srcS s b ≠ 0 → (srcS s a).getLsbD 63 = false →
        let base := bitsOf (srcS s a) 39 0;
        let low := base / gs * gs;
        let high := (base + (srcS s b).toNat + gs - 1) / gs * gs;
        let own := 0x1000000000 + quad * 0x1000000;
        let puts := fun (l h : Nat) => exec (.aset a b set g) s = .next (s.own fun x => { x with sets := others ++ [⟨set, false, l, h, gs⟩] });
        let bad := exec (.aset a b set g) s = .next (s.trapSlot cLocalRange (BitVec.ofNat 64 base) 0);
        (high ≤ 0x1000000 → quad < 32 → s.quadPart quad = c.part.toNat → puts (own + low) (own + high)) ∧
        (∀ q < 32, 0x1000000000 + q * 0x1000000 ≤ low → high ≤ 0x1000000000 + (q + 1) * 0x1000000 → s.quadPart q = c.part.toNat → puts low high) ∧
        (∀ d < 4, 0x2000000000 + d * 0x20000000 ≤ low → high ≤ 0x2000000000 + (d + 1) * 0x20000000 → (∀ n < 64, s.segOwner d n = c.part.toNat) → puts low high) ∧
        (low < 0x1000000 → 0x1000000 < high → bad) ∧ (0x1000000 ≤ low → low < 0x1000000000 → bad) ∧
        (∀ q < 32, 0x1000000000 + q * 0x1000000 ≤ low → low < 0x1000000000 + (q + 1) * 0x1000000 →
          0x1000000000 + (q + 1) * 0x1000000 < high ∨ s.quadPart q ≠ c.part.toNat → bad)) ∧
      (∀ j : Job, s.job? c.job.toNat = some j → canonLocal quad row = some (0x1000000000 + quad * 0x1000000 + row % 0x1000000) → quad < 32 →
        row % 0x1000000 / 256 + (1 + (j.jnlRows + 31) / 32 + j.jnlRows) ≤ 65536 →
        (s.holdsAny c.ticket = true → exec (.ajnl a) s = .next (s.trapSlot cLockState 0 0)) ∧
        (s.holdsAny c.ticket = false → ∃ t n, exec (.ajnl a) s = .next t ∧ t.journal? c.ticket = some n ∧ n.armed = true ∧ n.quad = quad ∧
          n.row = row % 0x1000000 / 256 ∧ n.rows = j.jnlRows ∧ n.granules = [] ∧ n.copies = [] ∧ n.deferred = [])))

/-- R298, R299 and R411: TGO and TREL send their request to the Wheel engine they name and stay outstanding; TLBI in supervisor mode drops the translations of its partition that match
and no other, its context not ready while accesses that have been translated through them have not performed, and traps with PRIV outside it. Which accesses have been
translated, and that only those wait that wait for the host, is the model's choice (log 18). -/
def Obligations.StreamAndTranslationResults : Prop :=  ∀ (s : State) (a : Fin 64) (e : Fin 4) (all : Bool), Ready s [.s a] [] → s.pushing = false → s.fenced 0 = false → s.fenced 3 = false →
    let starts := fun t : State => (t.wheel e.val).starts
    let rels := fun t : State => (t.wheel e.val).rels
    (∃ t, exec (.tgo a e) s = .next t ∧ starts t = starts s ++ [⟨s.nextId, s.origin, srcS s a⟩] ∧ rels t = rels s ∧
      t.me.outstanding = s.me.outstanding ++ [⟨s.nextId, 3⟩] ∧ SameMem s t) ∧
    ((s.me.outstanding.any fun o => decide (o.path = 0)) = false →
      ∃ t, exec (.trel a e) s = .next t ∧ rels t = rels s ++ [⟨s.nextId, s.origin, srcS s a⟩] ∧ starts t = starts s ∧ SameMem s t) ∧
    (let va := bitsOf (srcS s a) 55 0;
      let part := s.issue.src.part;
      let hit := fun (x : TransEntry) => x.part = part ∧ (all = true ∨ (x.va ≤ va ∧ va < x.va + x.bytes));
      let meets := fun (x y : Nat × Nat) => x.1 < y.1 + y.2 ∧ y.1 < x.1 + x.2;
      s.issue.src.sup = true → ∃ t, exec (.tlbi a all) s = .next t ∧ (∀ x ∈ t.translations, ¬ hit x) ∧ (∀ x ∈ s.translations, ¬ hit x → x ∈ t.translations) ∧ SameMem s t ∧
        ((∀ p ∈ s.parked, p.page = none ∨ p.link = false ∨ p.part ≠ part) → t.me = s.me) ∧
        (∀ p ∈ s.parked, ∀ page, p.link = true → p.part = part → p.page = some page →
          (all = true ∧ meets page (0, 2 ^ 56)) ∨ (all = false ∧ ∃ x ∈ s.translations, hit x ∧ meets page (x.va, x.bytes)) → ∃ ids, p.id ∈ ids ∧ t.me.wait = .tlb ids)) ∧
    (s.issue.src.sup = false → exec (.tlbi a all) s = .next (s.trapSlot cPriv 0 0))

/-- R404, R405 and R408: CTXSV stops a context of its core, which first takes a trap that is due, writes its image and frees it; CTXLD restores the context whose image stands at its address. Both are
privileged, and trap with CTX_STATE on a context of another core or their own. An image of which a later row is held
by its array or its port waits, and traps not. Which saved context an image stands for (log 20), and that one that holds granules is loaded on its
home quad alone (log 44), is the model's choice. -/
def Obligations.ContextSaveResults : Prop :=  ∀ (s : State) (a b : Fin 64), Ready s [.s a, .s b] [] → s.fenced 0 = false → s.pushing = false →
    let k := bitsOf (srcS s b) 9 3 * 8 + bitsOf (srcS s b) 2 0
    let part := s.issue.src.part.toNat
    let quad := quadOf s.issue.key
    let addr := rowOf ((srcS s a).toNat % 2 ^ 40)
    (s.issue.src.sup = false → exec (.ctxsv a b) s = .next (s.trapSlot cPriv 0 0) ∧ exec (.ctxld a b) s = .next (s.trapSlot cPriv 0 0)) ∧
    (s.issue.src.sup = true →
      (coreOf k ≠ coreOf s.issue.key ∨ k = s.issue.key → exec (.ctxsv a b) s = .next (s.trapSlot cCtxState 0 1) ∧
        exec (.ctxld a b) s = .next (s.trapSlot cCtxState 0 1)) ∧
      (coreOf k = coreOf s.issue.key → k ≠ s.issue.key →
        ((s.ctx k).life = .free → exec (.ctxsv a b) s = .next (s.trapSlot cCtxState 0 1)) ∧
        (∀ l, (s.ctx k).life ≠ .free → (s.ctx k).life ≠ .ending →
          s.resolve part quad (plainRows addr (saveRows (s.ctx k).vregs (decide ((s.ctx k).logical ≠ 0xFF)))) = .ok l →
          let z := s.boundary k
          let f := z.savedForm k (l.map SaveRow.named) false []
          let u := (l.zip f.1.image).foldl (fun s e => (s.touch e.1).storeRow (localKey e.1) e.2 fullMask) f.2
          (s.watchdogDue k = false → z = s) ∧ ((z.ctx k).life = .free → exec (.ctxsv a b) s = .next z) ∧
          ((z.ctx k).life ≠ .free → exec (.ctxsv a b) s = .next ({ u with stored := u.stored ++ [f.1] }.vacate k).settle) ∧
          f.1.ctx.ticket = (z.ctx k).ticket ∧ f.1.ctx.pc = z.nextBundle k ∧ f.1.ctx.s = (z.ctx k).s ∧ f.1.ctx.v = (z.ctx k).v ∧ f.1.ctx.p = (z.ctx k).p ∧
          f.1.ctx.c = (z.ctx k).c ∧ ((z.ctx k).life = .running → (z.ctx k).stopReq = false → f.1.ctx.life = .stopped)) ∧
        ((s.ctx k).life ≠ .free → exec (.ctxld a b) s = .next (s.trapSlot cCtxState 0 2)) ∧
        (∀ l x, (s.ctx k).life = .free → s.resolve part quad [addr] = .ok l → ((s.stored ++ s.saved).find? fun x => s.imageAt part quad addr x) = some x →
          s.windowRoom (coreOf k) x.ctx.vregs = true →
          (x.homeQuad = none ∨ x.homeQuad = some (quadOf k) → exec (.ctxld a b) s = .next ((s.touchRows addr x.image.length).loadImageOf x k)) ∧
          (∀ h, x.homeQuad = some h → h ≠ quadOf k → exec (.ctxld a b) s = .next (s.trapSlot cCtxState 0 2))) ∧
        (∀ l, (s.ctx k).life = .free → s.resolve part quad [addr] = .ok l → ((s.stored ++ s.saved).find? fun x => s.imageAt part quad addr x) = none →
          (∀ x ∈ s.stored ++ s.saved, s.imageHeld part quad addr x = none) → exec (.ctxld a b) s = .next (s.trapSlot cCtxState 0 3))))

/-- R334 to R337: SEND and SSEND of a team context wait for a credit, take it, and put their element in flight to the peer, to which the pop of an
element gives the credit back; RECV, RECVADD and SRECV empty their
destination and take the oldest element present. A channel that is not configured, of the other direction or kind, or without a matching peer, traps with BAD_CHANNEL.
R339, R340 and R386 to R388: CHCFG writes a channel entry of an idle end of a team context; CHQRY reads an end; HCOLL sends a legal descriptor to the base die; HRECH asks
for chunks again; HQRY reads the status of a collective or its next number, by whose SEQ of 32 bits is meant the model's counter (DEDUCED, log 38). The lanes of a RECVADD's last row
that the element does not reach are added as zeros (log 16). -/
def Obligations.ChannelAndCollectiveResults : Prop :=
  (∀ (s : State) (ch a d : Fin 64) (v : Fin 256) (n1 : Fin 8), Ready s [.v v, .s a] [.v v, .s d] →
    let core := coreOf s.issue.key
    let e := (s.chan core ch.val).entry
    let c := s.issue.src
    (s.chPeer c s.issue.key ch.val = none →
      exec (.send ch v n1) s = .next (s.trapSlot cBadChannel 0 0) ∧ exec (.ssend ch a) s = .next (s.trapSlot cBadChannel 0 0) ∧
      exec (.recv ch v n1) s = .next (s.trapSlot cBadChannel 0 0) ∧ exec (.recvadd ch v n1) s = .next (s.trapSlot cBadChannel 0 0) ∧
      exec (.srecv ch d) s = .next (s.trapSlot cBadChannel 0 0)) ∧
    (∀ p : Nat × Nat, s.chPeer c s.issue.key ch.val = some p → chFlag e 0 = true →
      (chFlag e 1 = true ∨ chFlag e 2 = true ∨ chField e 4 1 ≠ n1.val + 1 → exec (.send ch v n1) s = .next (s.trapSlot cBadChannel 0 0)) ∧
      (chFlag e 1 = true ∨ chFlag e 2 = false → exec (.ssend ch a) s = .next (s.trapSlot cBadChannel 0 0)) ∧
      (chFlag e 1 = false ∨ chFlag e 2 = true ∨ chSinkRows e ≠ n1.val + 1 → exec (.recv ch v n1) s = .next (s.trapSlot cBadChannel 0 0) ∧
        exec (.recvadd ch v n1) s = .next (s.trapSlot cBadChannel 0 0)) ∧
      (chFlag e 1 = false ∨ chFlag e 2 = false → exec (.srecv ch d) s = .next (s.trapSlot cBadChannel 0 0)) ∧
      (∀ x xs, chFlag e 1 = true → (s.chan core ch.val).elems = x :: xs → (s.chan core ch.val).recvs = [] → (∀ z ∈ s.saved ++ s.stored, ∀ m ∈ z.ctx.inflight, m.id ≠ s.nextId) →
        let source := FmtEntry.ofBits (chField e 8 2);
        let sink := FmtEntry.ofBits (chField e 10 2);
        let popped := fun (i : Instr) (g : Dst) (holds : VReg → Prop) => ∃ t l y, exec i s = .next t ∧ (t.chan core ch.val).elems = xs ∧ (t.chan core ch.val).recvs = [] ∧
          l ∈ t.me.inflight ∧ l.dst = g ∧ l.value = some y ∧ l.poison = x.poison ∧ holds y ∧
          SameMem s t ∧ (t.chan p.1 p.2).returning = (s.chan p.1 p.2).returning ++ [s.now + if core / 4 = p.1 / 4 then 6 else if core / 32 = p.1 / 32 then 16 else 44];
        (∀ f g, chFlag e 2 = false → chSinkRows e = n1.val + 1 → source.fmt = some f → sink.fmt = some g →
          let lane := fun i => if f = g then nbits x.data (g.width * i + g.width - 1) (g.width * i)
            else if i < chField e 4 1 * 2048 / f.width then cvt (nbits x.data (f.width * i + f.width - 1) (f.width * i)) f g sink.rnd sink.sat % 2 ^ g.width else 0;
          popped (.recv ch v n1) (.v v) (fun y => ∀ i < 16384 / g.width, elem y i g.width = lane i) ∧
          popped (.recvadd ch v n1) (.v v) (fun y => ∀ i < 16384 / g.width, elem y i g.width =
            if (n1.val + 1) * 2048 / g.width ≤ i then elem (srcV s v) i g.width
            else (if g.isFloat then cvtFloat g sink.rnd sink.sat ((floatVal g (elem (srcV s v) i g.width)).add sink.rnd (floatVal g (lane i)))
              else writeInt g sink.sat (intVal g (elem (srcV s v) i g.width) + intVal g (lane i))) % 2 ^ g.width)) ∧
        (chFlag e 2 = true → popped (.srecv ch d) (.s d) fun y => y.toNat = x.data % 2 ^ 16384)) ∧
      (chFlag e 1 = false → s.pushing = false → s.fenced 6 = false → p ≠ (core, ch.val) →
        (chField e 3 1 ≤ (s.chan core ch.val).taken →
          (chFlag e 2 = false → chField e 4 1 = n1.val + 1 → exec (.send ch v n1) s = .next s.waits) ∧ (chFlag e 2 = true → exec (.ssend ch a) s = .next s.waits)) ∧
        ((s.chan core ch.val).taken < chField e 3 1 →
          (chFlag e 2 = false → chField e 4 1 = n1.val + 1 → ∃ t x, exec (.send ch v n1) s = .next t ∧ (t.chan core ch.val).taken = (s.chan core ch.val).taken + 1 ∧
            (t.chan p.1 p.2).flying = (s.chan p.1 p.2).flying ++ [x] ∧ x.data = (srcV s v).toNat % 256 ^ (256 * (n1.val + 1)) ∧ SameMem s t) ∧
          (chFlag e 2 = true → ∃ t x, exec (.ssend ch a) s = .next t ∧ (t.chan core ch.val).taken = (s.chan core ch.val).taken + 1 ∧
            (t.chan p.1 p.2).flying = (s.chan p.1 p.2).flying ++ [x] ∧ x.data = (srcS s a).toNat ∧ SameMem s t))) ∧
      (chFlag e 1 = true → (s.chan core ch.val).elems = [] →
        (chFlag e 2 = false → chSinkRows e = n1.val + 1 →
          (∃ t, exec (.recv ch v n1) s = .next t ∧ t.me.emptyReg (.v v) = true ∧
            (t.chan core ch.val).recvs = (s.chan core ch.val).recvs ++ [⟨s.nextId, none, c.job.toNat⟩]) ∧
          (∃ t, exec (.recvadd ch v n1) s = .next t ∧ t.me.emptyReg (.v v) = true ∧
            (t.chan core ch.val).recvs = (s.chan core ch.val).recvs ++ [⟨s.nextId, some (srcV s v), c.job.toNat⟩])) ∧
        (chFlag e 2 = true → ∃ t, exec (.srecv ch d) s = .next t ∧ (d ≠ 0 → t.me.emptyReg (.s d) = true) ∧
          (t.chan core ch.val).recvs = (s.chan core ch.val).recvs ++ [⟨s.nextId, none, c.job.toNat⟩])))) ∧
  (∀ (s : State) (ch a d : Fin 64) (which : Fin 4) (addr : Nat), Ready s [.s a] [.s d] →
    let core := coreOf s.issue.key
    let k := s.chan core ch.val
    let row := (s.loadRow addr).1.toNat
    let u := (srcS s a).toNat % 2 ^ 40
    let desc := BitVec.ofNat 512 (nbytes row (64 * (u / 64 % 4)) 64)
    let g := bitsOf (srcS s a) 15 0
    let far := fun x : Nat => x.testBit 63 = false ∧ s.reach s.issue.src.part.toNat (quadOf s.issue.key) x = .range
    let flag := nbytes desc.toNat 32 8
    let err := nbytes desc.toNat 48 8
    (s.issue.src.logical = 0xFF → exec (.chcfg ch a) s = .next (s.trapSlot cPriv 0 0)) ∧
    (∀ new : BitVec 128, s.issue.src.logical ≠ 0xFF → Reaches s [rowOf u] [addr] → (s.loadRow addr).2 = none →
      new = BitVec.ofNat 128 (nbytes row (16 * bitsOf (srcS s a) 7 4) 16) → k.isIdle = true → chFlag k.entry 0 = false →
      (chEntryOk new = false → exec (.chcfg ch a) s = .next (s.trapSlot cBadChannel 0 0)) ∧
      (chEntryOk new = true → s.cellRoom (core / 4) 3 (chCells new) = true →
        exec (.chcfg ch a) s = .next ((s.touch addr).modChan core ch.val fun x => { x with entry := new, cells := chCells new }))) ∧
    exec (.chqry ch d which) s = .next (putS s d (BitVec.ofNat 64 (match which with
      | 0 => if chFlag k.entry 1 then k.elems.length else k.taken
      | 1 => chField k.entry 3 1 - (if chFlag k.entry 1 then k.elems.length else k.taken)
      | 2 => k.entry.toNat % 2 ^ 64
      | 3 => k.entry.toNat / 2 ^ 64))) ∧
    (s.fenced 4 = false → Reaches s [rowOf u] [addr] → (s.loadRow addr).2 = none →
      (badColl (quadOf s.issue.key) desc = true ∨ far flag ∨ far err → exec (.hcoll a) s = .next (s.trapSlot cBadColl 0 0)) ∧
      (badColl (quadOf s.issue.key) desc = false → ¬ far flag → ¬ far err → ∃ t, exec (.hcoll a) s = .next t ∧
        (t.die (dieOf s.issue.key)).collReqs = (s.die (dieOf s.issue.key)).collReqs ++ [⟨s.nextId, s.origin, desc⟩] ∧
        t.me.outstanding = s.me.outstanding ++ [⟨s.nextId, 4⟩] ∧ SameMem s t) ∧
      (nbits (nbytes row 0 8) 63 48 ≠ 0 ∨ nbytes row 8 8 = 0 ∨ 30 < nbytes row 8 8 → exec (.hrech a) s = .next (s.trapSlot cBadColl 0 0)) ∧
      (nbits (nbytes row 0 8) 63 48 = 0 → 1 ≤ nbytes row 8 8 → nbytes row 8 8 ≤ 30 →
        exec (.hrech a) s = .next ((s.touch addr).fresh.2.rechunk (nbits (nbytes row 0 8) 15 0) (nbits (nbytes row 0 8) 47 16)
          ((List.range (nbytes row 8 8)).map fun i => nbytes row (8 * (i + 2)) 8) ⟨s.nextId, s.issue.src.ticket, none⟩))) ∧
    ((srcS s a).getLsbD 63 = true → exec (.hqry d a) s = .next (putS s d (BitVec.ofNat 64 (tgetD s.collSeq g 0)))) ∧
    ((srcS s a).getLsbD 63 = false → s.coll? g (bitsOf (srcS s a) 47 16) = none → exec (.hqry d a) s = .next (putS s d 0)) ∧
    (∀ x, (srcS s a).getLsbD 63 = false → s.coll? g (bitsOf (srcS s a) 47 16) = some x → exec (.hqry d a) s = .next (putS s d (BitVec.ofNat 64 (collStatus x)))))

/-! ### The other agents: events (R35 to R82, R239 to R319, R329 to R333, R354 to R363, R368 to R385, R397 to R436) -/

/-- R47: the ringmaster. CLAIM by a candidate takes a vacant module, of several in one cycle the lowest agent's; HANDOVER by the owner with the current EPOCH passes it to another candidate, a reset of the owner's link
leaves it vacant, and each change counts in EPOCH. Any other HANDOVER changes nothing, or sets DENIED when its agent is not the owner. In recovery no write that comes through BAR0 has an effect (R432). -/
def Obligations.OwnershipResults : Prop :=  ∀ (s : State) (agent : Nat) (v : Word),
    let new := nbits v.toNat 7 0
    let epoch := fun (t : State) => t.fld .owner 0 31 16
    let owned := fun (t : State) (a : Nat) => t.isOwner a = true ∧ t.vacant = false ∧ epoch t = (epoch s + 1) % 2 ^ 16
    (s.running = false → agent = 0 → exec (.claim agent v) s = .next s ∧ exec (.handover agent v) s = .next s) ∧
    (s.running = true ∨ agent ≠ 0 →
      (v.getLsbD 0 = true → s.vacant = true → s.candidate agent = true → ∃ t, exec (.claim agent v) s = .next t ∧ owned t agent) ∧
      (v.getLsbD 0 = false ∨ s.candidate agent = false ∨ (s.vacant = false ∧ ¬ (s.claimed = some s.now ∧ agent < s.fld .owner 0 7 0)) →
        exec (.claim agent v) s = .next s) ∧
      (v.getLsbD 0 = true → s.candidate agent = true → s.vacant = false → s.claimed = some s.now → agent < s.fld .owner 0 7 0 →
        ∃ t, exec (.claim agent v) s = .next t ∧ t.isOwner agent = true ∧ epoch t = epoch s) ∧
      (s.isOwner agent = true → nbits v.toNat 31 16 = epoch s → s.candidate new = true → new ≠ agent → ∃ t, exec (.handover agent v) s = .next t ∧ owned t new) ∧
      (s.isOwner agent = true → nbits v.toNat 31 16 ≠ epoch s ∨ s.candidate new = false → exec (.handover agent v) s = .next s) ∧
      (s.isOwner agent = false → ∃ t, exec (.handover agent v) s = .next t ∧ t.fld .owner 0 9 9 = 1 ∧ t.fld .owner 0 8 0 = s.fld .owner 0 8 0 ∧ epoch t = epoch s ∧ SameMem s t)) ∧
    (s.vacant = false → ∃ t, exec .ownerLinkReset s = .next t ∧ t.vacant = true ∧ epoch t = (epoch s + 1) % 2 ^ 16 ∧ t.fld .owner 0 7 0 = 0xFF) ∧
    (s.vacant = true → exec .ownerLinkReset s = .next s)

/-- R6, R7, R47, R430 and R431: a write of a register without an action of its own, by the owner or to an exempt register, replaces its RW bits and clears its W1C bits within the
bytes of the access; any other agent's write is dropped and sets DENIED. A read answers with the bytes read and clears their RC bits. What events of the same cycle set is left by
both, and is not yet read. Through BAR0 an access of another size or alignment is unsupported and has no effect. An MCTP write is the same write and answers
STATUS 0, or 1 when it was dropped; a reserved offset takes no write and reads zero, STATUS 2 over MCTP. -/
def Obligations.RegisterAccessResults : Prop :=  ∀ (s : State) (agent : Nat) (src : Option (BitVec 8)) (off : BitVec 33) (size : Fin 4) (v : Word),
    let mask := sizeMask size.val
    let body : BitVec 128 := BitVec.ofNat 128 (2 + size.val * 256 + off.toNat * 2 ^ 32 + v.toNat * 2 ^ 64)
    let ask : BitVec 128 := BitVec.ofNat 128 (1 + size.val * 256 + off.toNat * 2 ^ 32)
    (size = 3 ∨ off.toNat % 8 ≠ 0 → exec (.registerWrite 0 off size v) s = .next (s.send .unsupported) ∧ exec (.readClear 0 off size) s = .next (s.send .unsupported)) ∧
    (MReg.atOffset off.toNat = none → size ≠ 3 → off.toNat % 8 = 0 →
      exec (.registerWrite agent off size v) s = .next s ∧ exec (.readClear agent off size) s = .next (s.send (.mctp agent 0 0)) ∧
      (s.mctpServed src false = some agent → off.toNat < 2 ^ 32 →
        exec (.mctpWrite src body) s = .next (s.send (.mctp agent 2 0)) ∧ exec (.mctpRead src ask) s = .next (s.send (.mctp agent 2 0)))) ∧
    (∀ r : MReg, MReg.atOffset off.toNat = some r → r.fam ∉ [.claim, .handover, .admqcreate, .qdb, .qstat, .gdb, .btown, .bdqcfg, .retq, .retb, .pres, .presz, .tbase] →
      let old := s.reg r
      let was := (s.ofCycle r).1
      let own := (s.ofCycle r).2
      let cleared := r.rc &&& mask
      let shown := cleared ||| r.w1c
      let value := ((old &&& ~~~shown) ||| (was &&& shown)) &&& mask
      let written := s.setReg r (((old &&& ~~~(r.rw &&& mask)) ||| (v &&& r.rw &&& mask)) &&& ~~~(r.w1c &&& v &&& mask &&& ~~~own))
      let reads := fun (i : Instr) => ∃ t, exec i s = .next t ∧ t.outbox = s.outbox ++ [(none, .mctp agent 0 value)] ∧ t.reg r = (old &&& ~~~cleared) ||| (own &&& cleared)
      let may := r.ownerExempt = true ∨ s.isOwner agent = true
      ((∀ x, tget s.cycleSets r = some x → x.1 ≠ s.now) → was = old ∧ own = 0) ∧
      (agent ≠ 0 ∨ s.running = true → agent ≠ 16 → size ≠ 3 → off.toNat % 8 = 0 →
        (may → exec (.registerWrite agent off size v) s = .next written) ∧
        (¬ may → exec (.registerWrite agent off size v) s = .next s.denied) ∧ reads (.readClear agent off size)) ∧
      (s.mctpServed src false = some agent → off.toNat < 2 ^ 32 → off.toNat % 8 = 0 → size ≠ 3 →
        (may → exec (.mctpWrite src body) s = .next (written.send (.mctp agent 0 0))) ∧
        (¬ may → exec (.mctpWrite src body) s = .next (s.denied.send (.mctp agent 1 0))) ∧ reads (.mctpRead src ask)))

/-- R37, R295, R342, R413 and R414: writes of the owner that act. The administrative window creates queue 0; a segment whose owner changes reads zero and is held for 128 cycles;
a change of DEPTH is held while the queue holds an entry; a cleared retention bit starts the exit of its array, 1,024 cycles in a scratchpad and 8,192 in a slice of the Big Top. -/
def Obligations.OwnerWriteResults : Prop :=  ∀ (s : State) (agent : Nat) (n : Fin 16) (i : Fin 1024) (v : Word), s.isOwner agent = true → s.running = true ∨ agent ≠ 0 →
    (∃ t, exec (.btownWrite agent n v) s = .next t ∧ t.reg ⟨.btown, n.val⟩ = v ∧
      ∀ k < 16, nbits v.toNat (4 * k + 3) (4 * k) ≠ s.fld .btown n.val (4 * k + 3) (4 * k) →
        tget (t.die (n.val / 4)).segZero (16 * (n.val % 4) + k) = some (s.now + 128) ∧
        ∀ a < 0x800000, t.mem.read (localKey (0x2000000000 + n.val / 4 * 0x20000000 + (16 * (n.val % 4) + k) * 0x800000) + a) = 0) ∧
    ((s.bdQueue i.val).pushes = [] → (s.bdQueue i.val).pops = [] → ∃ t, exec (.bdqcfgWrite agent i v) s = .next t ∧
      t.reg ⟨.bdqcfg, i.val⟩ = v &&& 0x0000FFFFFFFF0FFF ∧ (t.bdQueue i.val).entries = (s.bdQueue i.val).entries ∧
      t.bdqDepth i.val = if (s.bdQueue i.val).entries = [] then nbits v.toNat 11 0 else s.bdqDepth i.val) ∧
    (∃ t, exec (.retentionCtrlWrite agent false v) s = .next t ∧ t.reg ⟨.retq, 0⟩ = v &&& 0xFFFFFFFF ∧
      ∀ q : Fin 32, t.retain (.scratch q) = if v.getLsbD q.val = false ∧ s.retain (.scratch q) = .retained then .exiting (s.now + 1024)
        else match s.retain (.scratch q) with
          | .entering at_ => if v.getLsbD q.val then .entering at_ else .exiting (Max.max at_ s.now + 1024)
          | x => x) ∧
    (∃ t, exec (.retentionCtrlWrite agent true v) s = .next t ∧ t.reg ⟨.retb, 0⟩ = v &&& 0xF ∧
      ∀ d : Fin 4, v.getLsbD d.val = false → s.retain (.bigTop d) = .retained → t.retain (.bigTop d) = .exiting (s.now + 8192)) ∧
    (let p : BitVec 512 := BitVec.ofNat 512 (pack ((8, v.toNat) :: (List.range 7).map fun w => (8, (s.reg ⟨.admqcreate, w + 1⟩).toNat)));
      s.running = true → pkField p 0 1 = 9 → pkField p 1 7 = 0 → pkField p 20 2 = 0 → badCreate p = false → s.live 0 = false →
      ∃ t q, exec (.admqcreate agent v) s = .next t ∧ t.live 0 = true ∧ tget t.queues 0 = some q ∧ q.base = pkField p 8 8 ∧ q.entries = pkField p 16 4 ∧
        q.headAddr = pkField p 24 8 ∧ t.headOf 0 = 0 ∧ t.fld .admqstat 0 0 0 = 1)

/-- R35, R41, R315 and R319: a doorbell raises TAIL, and stops its queue with OVERRUN when more packets would wait than the ring has entries; RESTART clears STOPPED,
unless the queue has stopped anew in this cycle (R7); GDB_g takes its
tail while its channel is enabled, and counts a rejection when it overruns the ring. -/
def Obligations.DoorbellResults : Prop :=  ∀ (s : State) (agent : Nat) (n : Fin 1024) (q : CmdQueue) (g : Fin 16) (tail : BitVec 32) (v : Word), n.val ≠ 0 ∨ s.isOwner agent = true →
    tget s.queues n.val = some q → s.running = true → s.live n.val = true →
    let ahead := (tail.toNat + 2 ^ 32 - s.headOf n.val) % 2 ^ 32
    let c := (s.gatherChan g.val).cfg
    let more := (tail.toNat + 2 ^ 32 - s.fld .gstat g.val 31 0) % 2 ^ 32
    (ahead ≤ q.entries → ∃ t, exec (.queueDoorbell agent n tail) s = .next t ∧ t.fld .qdb n.val 31 0 = tail.toNat ∧ t.headOf n.val = s.headOf n.val ∧ t.mem = s.mem) ∧
    (q.entries < ahead → ∃ t, exec (.queueDoorbell agent n tail) s = .next t ∧ t.fld .qstat n.val 33 33 = 1 ∧ t.fld .qstat n.val 47 40 = 7 ∧
      t.fld .qdb n.val 31 0 = s.fld .qdb n.val 31 0) ∧
    (v.getLsbD 34 = true → ∃ t, exec (.queueRestart agent n v) s = .next t ∧ t.fld .qstat n.val 31 0 = s.fld .qstat n.val 31 0 ∧
      t.fld .qstat n.val 33 33 = ((s.ofCycle ⟨.qstat, n.val⟩).2.getLsbD 33).toNat) ∧
    (v.getLsbD 34 = false → exec (.queueRestart agent n v) s = .next s) ∧
    (gOn c = true → more ≤ gField c 32 4 → ∃ t, exec (.gatherDoorbell agent g tail) s = .next t ∧ t.fld .gdb g.val 31 0 = tail.toNat) ∧
    (gOn c = true → gField c 32 4 < more → ∃ t, exec (.gatherDoorbell agent g tail) s = .next t ∧
      t.fld .gcnt g.val 63 48 = Min.min (s.fld .gcnt g.val 63 48 + 1) 0xFFFF ∧ t.fld .gdb g.val 31 0 = s.fld .gdb g.val 31 0) ∧
    (gOn c = false → exec (.gatherDoorbell agent g tail) s = .next s)

/-- R35, R38, R39, R40, R49, R72 and R81: packets at the head of a queue. A packet that completes moves HEAD on; a NOP has no other effect; IMAGE registers its
image and drops the frames of the one it replaces; a FLAG_WRITE stores its word, and HEAD stands in the word at HEADADDR; a FLAG_WAIT and a LAUNCH that must wait leave HEAD where it is; LAUNCH takes a free job
slot, once the host has given back the lines of its root (R424); QUEUE_CREATE makes its queue; PART_RESIZE records moves; GATHER_CFG configures its channel. A retry is the same packet again. That `freeSlot` is the lowest free one is the model's choice (log 16). -/
def Obligations.PacketResults : Prop :=  ∀ (s : State) (n : Fin 1024) (q : CmdQueue) (p : BitVec 512), HeadPacket s n.val q p → badPacket p = false →
    let kind := pkField p 0 1
    let part := q.part.toNat
    let a := pkField p 8 8
    let passed := fun (t : State) => t.headOf n.val = (s.headOf n.val + 1) % 2 ^ 32
    (kind = 0 → ∃ t, exec (.nopPacket n) s = .next t ∧ passed t ∧ t.images = s.images ∧ t.jobs = s.jobs ∧ t.pages = s.pages ∧ t.ctxs = s.ctxs) ∧
    (kind = 2 → ∃ t, exec (.image n) s = .next t ∧ passed t ∧
      tget t.images (part * 256 + pkField p 20 1) = some ⟨a, pkField p 16 4, decide (n.val = 0)⟩ ∧
      ∀ c, ∀ f ∈ (t.core c).frames, ¬ (f.part = q.part ∧ f.image.toNat = pkField p 20 1)) ∧
    (∀ k h, kind = 5 → s.spotQ n.val part a 2 8 = .mem k → k % 8 = 0 → s.mem.poisoned k = false → s.spotQ n.val part q.headAddr 2 8 = .mem h → h % 8 = 0 → h ≠ k → s.mem.poisoned h = false →
      ∃ t, exec (.flagWrite n) s = .next t ∧ passed t ∧ t.mem.readLe k 8 = pkField p 16 8 ∧ t.mem.readLe h 8 = (s.headOf n.val + 1) % 2 ^ 32 ∧
      ∀ x, ¬ (k ≤ x ∧ x < k + 8) → ¬ (h ≤ x ∧ x < h + 8) → t.mem.read x = s.mem.read x) ∧
    (∀ k, kind = 6 → s.spotQ n.val part a 1 = .mem k → s.mem.poisoned k = false →
      let passes := waitTest (s.mem.word k) (BitVec.ofNat 64 (pkField p 16 8)) (Fin.ofNat 4 (pkField p 24 1));
      (passes = false → exec (.flagWait n) s = .next s ∧ exec (.packetRetry n) s = .next s) ∧
      (passes = true → ∃ t, exec (.flagWait n) s = .next t ∧ exec (.packetRetry n) s = .next t ∧ passed t)) ∧
    (∀ k, kind = 1 → s.spotQ n.val part a 1 = .mem k → s.mem.poisoned k = false →
      let card : BitVec 1024 := BitVec.ofNat 1024 (s.mem.readLe k 128);
      s.checkCard (if n.val = 0 then none else some part) card = .ok →
      (s.freeSlot = none → exec (.launchPacket n) s = .next s ∧ exec (.packetRetry n) s = .next s) ∧
      (∀ slot, s.freeSlot = some slot →
        (s.rootHeld (jobOf card a) ≠ [] → exec (.launchPacket n) s = .next (s.snoop (s.rootHeld (jobOf card a)))) ∧
        (s.rootHeld (jobOf card a) = [] → ∃ t j, exec (.launchPacket n) s = .next t ∧ passed t ∧ t.job? slot = some j ∧ j.card = card ∧ j.cardAddr = a ∧
          j.start = s.tbase.toNat))) ∧
    (n.val = 0 → kind = 9 → pkField p 20 2 ≠ 0 → s.live (pkField p 20 2) = false → ∃ t x, exec (.queueCreate n) s = .next t ∧ passed t ∧
      t.live (pkField p 20 2) = true ∧ tget t.queues (pkField p 20 2) = some x ∧ x.base = a ∧ x.entries = pkField p 16 4 ∧ x.part.toNat = pkField p 22 1) ∧
    (n.val = 0 → kind = 7 → ∃ t, exec (.partResize n) s = .next t ∧ passed t ∧
      ∀ i < 32, (pkField p 8 4).testBit i = true → pkField p 12 1 ≠ s.quadPart i → s.quadMoving i = false → (s.quad i).zeroEnd = none →
        t.quadMoving i = true ∧ t.fld .quadpart i 11 8 = pkField p 12 1 ∧ (t.quad i).moveAt = some s.now) ∧
    (n.val = 0 → kind = 8 → ∃ t, exec (.gatherCfg n) s = .next t ∧ passed t ∧ (t.gatherChan (gField p 8 1)).cfg = p ∧
      (t.gatherChan (gField p 8 1)).stages = [] ∧ t.fld .gdb (gField p 8 1) 31 0 = 0 ∧ t.fld .gstat (gField p 8 1) 31 0 = 0)

/-- R290 and R292 to R294, R424: MAP and UNMAP in two steps. A MAP that passes its checks starts, and on completion each of its pages translates to its own physical page with its
permissions, and the accesses parked on them are to resume; while the host may hold lines of the pages to be zeroed, these are snooped first. The
pages of HBM and LPDDR among them that another partition mapped last then read zero, and no other byte changes but the word of HEAD. An UNMAP takes the translations of its pages from the tables and from
every cache, once no access that has been translated through them is under way. A MAP over a mapped page, over one that another queue maps at the time (log 18), or outside the spaces stops its queue. -/
def Obligations.MappingResults : Prop :=  ∀ (s : State) (n : Fin 1024) (q : CmdQueue) (p : BitVec 512), tget s.queues n.val = some q →
    let part := q.part.toNat
    let va := pkField p 8 8
    let pa := pkField p 16 8
    let size := pkPage p
    let count := pkField p 24 4
    let passed := fun (t : State) => t.headOf n.val = (s.headOf n.val + 1) % 2 ^ 32
    let starts := fun (i : Instr) => ∃ t x, exec i s = .next t ∧ tget t.queues n.val = some x ∧ x.busy = some p ∧ t.headOf n.val = s.headOf n.val ∧ t.pages = s.pages
    (HeadPacket s n.val q p → badPacket p = false → count ≠ 0 →
      (pkField p 0 1 = 3 → s.mapFault part p = none → starts (.map n)) ∧
      (pkField p 0 1 = 3 → ∀ bad, s.mapFault part p = some bad → ∃ t, exec (.map n) s = .next t ∧ passed t ∧ t.fld .qstat n.val 33 33 = 1 ∧
        t.fld .qstat n.val 47 40 = 6 ∧ t.pages = s.pages) ∧
      (pkField p 0 1 = 4 → starts (.unmap n))) ∧
    (let held := (s.foreignPages q.part pa (count * size)).flatMap fun e => s.linesHeld (e.1 * 2 ^ 17) (2 ^ 17);
      q.busy = some p → pkField p 0 1 = 3 → held ≠ [] → exec (.mapComplete n) s = .next (s.snoop held)) ∧
    (q.busy = some p → pkField p 0 1 = 3 → (∀ m ∈ s.pages, m.part = q.part → m.va + m.bytes ≤ va ∨ va + count * size ≤ m.va) →
      (∀ e ∈ s.foreignPages q.part pa (count * size), s.linesHeld (e.1 * 2 ^ 17) (2 ^ 17) = []) → ∃ t, exec (.mapComplete n) s = .next t ∧ passed t ∧
      (∀ i < count, ∀ o < size, ∃ m, t.pageOf part (va + i * size + o) = some m ∧ m.va = va + i * size ∧ m.pa = pa + i * size ∧ m.perm.toNat = pkField p 28 1) ∧
      (∀ o a, ¬ (o = part ∧ va ≤ a ∧ a < va + count * size) → t.pageOf o a = s.pageOf o a) ∧
      (let taken := fun (a : Nat) => ∃ e ∈ s.foreignPages q.part pa (count * size), e.1 * 2 ^ 17 ≤ a ∧ a < (e.1 + 1) * 2 ^ 17;
        ∀ a, (∀ h, t.spotQ n.val part q.headAddr 2 8 = .mem h → a < h ∨ h + 8 ≤ a) →
          (taken a → t.mem.read a = 0 ∧ t.mem.poisoned a = false) ∧ (¬ taken a → t.mem.read a = s.mem.read a)) ∧
      ∀ y ∈ s.parked, y.link = false → y.part = q.part → va ≤ y.va → y.va < va + count * size → Act.event (.parkResume y.id) ∈ t.agenda) ∧
    (q.busy = some p → pkField p 0 1 = 4 →
      let gone := fun (m : PageMap) => m.part = q.part ∧ va ≤ m.va ∧ m.va < va + count * size ∧ m.bytes = size
      let listed := fun (t : State) (m : PageMap) => ∃ b, { m with merged := b } ∈ t.pages
      ((∃ m ∈ s.pages, gone m ∧ s.underWay part m.va m.bytes ≠ []) → exec (.unmapComplete n) s = .next s) ∧
      ((∀ m ∈ s.pages, gone m → s.underWay part m.va m.bytes = []) → ∃ t, exec (.unmapComplete n) s = .next t ∧ passed t ∧
        (∀ m, listed t m ↔ listed s m ∧ ¬ gone m) ∧ ∀ m ∈ s.pages, gone m → ∀ x ∈ t.translations, x.hits part m.va m.bytes = false))

/-- R274 to R279, R283 and R284: the copy engine, on commands without conversion. COPY, FILL and ZERO give the next row of the destination its data; ACC and ACCF combine it lane by lane with the
source row, INCW without one, by the table of R275; CAS compares and swaps one word. ACCF and CAS return the old rows, and with the last of them a status row; no other byte of memory changes. After
the last row the completion follows: it adds 1 to the done counter, and a HANDLER copy's arrival starts a dormant handler of its class with s1 to s3, or is listed. That a step of the engine performs
one row is the model's choice (log 4). -/
def Obligations.CopyEngineResults : Prop :=  ∀ (s u : State) (quad : Fin 32) (c : CopyCmd) (src : Row) (k k1 k2 : Nat),
    let q := quad.val
    let f := cpTo c.cmd
    let w := f.width
    let lane := fun (r : Nat) (i : Nat) => nbits r (w * i + w - 1) (w * i)
    let m := cpRowLen c.cmd / 256
    let last := c.row + 1 = cpRows c.cmd * m
    let at_ := fun (base pitch : Nat) => rowOf base + c.row / m * pitch + 256 * (c.row % m)
    let dst := at_ (cpDst c.cmd) (cpDPitch c.cmd) % 2 ^ 40
    let returned := at_ (cpLast c.cmd) (cpRowLen c.cmd)
    let status := rowOf (cpLast c.cmd) + cpRows c.cmd * cpRowLen c.cmd
    let old := (s.mem.row k).toNat
    let stays := fun (t : State) (l : List Nat) => ∀ a, (∀ x ∈ l, ¬ (x ≤ a ∧ a < x + 256)) → t.mem.read a = s.mem.read a
    let goesOn := fun (t : State) => ∃ x ∈ (t.quad q).copies, x.id = c.id ∧
      (last → x.finished = true ∧ Act.event (.copyDone quad c.id) ∈ t.agenda) ∧ (¬ last → x.finished = false ∧ x.row = c.row + 1)
    let reads := s.engineRead c.org false (at_ (cpSrc c.cmd) (cpSPitch c.cmd) % 2 ^ 40) = .ok src u
    let bound := cpOperand c.cmd % 2 ^ w
    let rounded := fun (x : Val) (n : Nat) => n = cvtFloat f (cpRnd c.cmd) (cpSat c.cmd) x % 2 ^ w
    (RowsToCome s q c → s.spot c.org false dst 2 = .mem k → s.mem.poisoned k = false →
      (cpOp c.cmd = 1 → ∃ t, exec (.fill quad) s = .next t ∧ (∀ i < 32, t.mem.readLe (k + 8 * i) 8 = cpOperand c.cmd) ∧ stays t [k] ∧ goesOn t) ∧
      (cpOp c.cmd = 2 → ∃ t, exec (.zero quad) s = .next t ∧ t.mem.row k = 0 ∧ stays t [k] ∧ goesOn t) ∧
      (reads → cpOp c.cmd = 0 → ∃ t, exec (.copyOp quad) s = .next t ∧ t.mem.row k = src ∧ stays t [k] ∧ goesOn t) ∧
      (cpAop c.cmd = 8 ∨ reads →
        let combined := fun (t : State) => ∀ i < 2048 / w,
          let o := lane old i;
          let x := lane src.toNat i;
          let n := lane (t.mem.row k).toNat i;
          (cpAop c.cmd = 0 → f.isFloat = true → rounded ((floatVal f o).add (cpRnd c.cmd) (floatVal f x)) n) ∧
          (cpAop c.cmd = 0 → f.isInt = true → n = writeInt f (cpSat c.cmd) (intVal f o + intVal f x)) ∧
          (cpAop c.cmd = 1 → f.isFloat = true → rounded ((floatVal f o).max (floatVal f x)) n) ∧
          (cpAop c.cmd = 1 → f.isInt = true → intVal f n = max (intVal f o) (intVal f x)) ∧
          (cpAop c.cmd = 2 → f.isFloat = true → rounded ((floatVal f o).min (floatVal f x)) n) ∧
          (cpAop c.cmd = 2 → f.isInt = true → intVal f n = min (intVal f o) (intVal f x)) ∧
          (cpAop c.cmd = 3 → f.isFloat = true → ((floatVal f o).isNan = true ∨ (floatVal f x).isNan = true → n = f.nanBits) ∧
            ((floatVal f o).isNan = false → (floatVal f x).isNan = false → rounded ((floatVal f o).abs.max (floatVal f x).abs) n)) ∧
          (cpAop c.cmd = 4 → n = o &&& x) ∧ (cpAop c.cmd = 5 → n = o ||| x) ∧ (cpAop c.cmd = 6 → n = o ^^^ x) ∧ (cpAop c.cmd = 7 → n = x) ∧
          (cpAop c.cmd = 8 → n = if bound ≤ o then 0 else o + 1) ∧ (cpAop c.cmd = 9 → n = if bound < o then o else min (o + x) bound);
        (cpOp c.cmd = 3 → ∃ t, exec (.acc quad) s = .next t ∧ combined t ∧ stays t [k] ∧ goesOn t) ∧
        (cpOp c.cmd = 4 → s.spot c.org false returned 2 = .mem k1 → (last → s.spot c.org false status 2 = .mem k2) → [k, k1, k2].Nodup →
          let counts := cpAop c.cmd = 8 ∨ cpAop c.cmd = 9;
          let above := ∃ i < 2048 / w, bound < lane old i;
          let limit := ∃ i < 2048 / w, lane old i ≤ bound ∧ (cpAop c.cmd = 8 → lane old i = bound) ∧ (cpAop c.cmd = 9 → bound < lane old i + lane src.toNat i);
          ∃ t, exec (.accf quad) s = .next t ∧ combined t ∧ (t.mem.row k1).toNat = old ∧ stays t (if last then [k, k1, k2] else [k, k1]) ∧ goesOn t ∧
            (last → ∃ a l : Bool, (t.mem.row k2).toNat = a.toNat + 2 * l.toNat + 4 * (c.flags.testBit 2).toNat ∧
              (a = true ↔ c.flags.testBit 0 = true ∨ (counts ∧ above)) ∧ (l = true ↔ c.flags.testBit 1 = true ∨ (counts ∧ limit))))) ∧
      (reads → cpOp c.cmd = 5 → cpRows c.cmd = 1 → m = 1 → c.flags = 0 → s.spot c.org false returned 2 = .mem k1 → s.spot c.org false status 2 = .mem k2 → [k, k1, k2].Nodup →
        let i := nbits (cpSrc c.cmd) 7 3;
        let j := nbits (cpDst c.cmd) 7 3;
        let hit := nbytes old (8 * j) 8 = cpOperand c.cmd;
        ∃ t, exec (.cas quad) s = .next t ∧ (t.mem.row k1).toNat = old ∧ (t.mem.row k2).toNat = (if hit then 4 else 0) ∧ stays t [k, k1, k2] ∧ goesOn t ∧
          ∀ x < 32, nbytes (t.mem.row k).toNat (8 * x) 8 = if x = j ∧ hit then nbytes src.toNat (8 * i) 8 else nbytes old (8 * x) 8)) ∧
    (∀ a, (s.quad q).copies = [c] → c.finished = true → c.failed = none → cpFlag c.cmd 3 = false → cpFlag c.cmd 5 = false → c.org.quad = q → Quiet s →
      s.reach c.org.part.toNat q (rowOf (cpDone c.cmd)) = .ok a → s.mem.poisoned (localKey a) = false →
      let core := cmdField c.cmd 52 1 % 128;
      ∃ t, exec (.copyDone quad c.id) s = .next t ∧ t.mem.readLe (localKey a) 8 = (s.mem.readLe (localKey a) 8 + 1) % 2 ^ 64 ∧
        (∀ x, ¬ (localKey a ≤ x ∧ x < localKey a + 8) → t.mem.read x = s.mem.read x) ∧ (t.quad q).copies = [] ∧
        (∀ k, ∀ o ∈ (t.ctx k).outstanding, o.id ≠ c.id) ∧
        (t.core core).arriving = (s.core core).arriving ++ if cpFlag c.cmd 2 then [arrivalOf q c] else []) ∧
    (∀ (core : Fin 128) (a : ArrivalRec) (rest : List ArrivalRec), (s.core core.val).arriving = a :: rest →
      (∀ k, s.dormantOf core.val a.cls = some k → (∀ b ∈ (s.core core.val).arrivals, b.cls ≠ a.cls) → (s.core core.val).lastStamp ≠ some s.tbase.toNat → ∃ t, exec (.arrival core) s = .next t ∧
        (t.core core.val).arriving = rest ∧ (t.ctx k).life = .running ∧ (∀ e, (s.ctx k).armed = some e → (t.ctx k).pc = e.1) ∧
        (t.ctx k).getS 1 = a.s1 ∧ (t.ctx k).getS 2 = a.s2 ∧ (t.ctx k).getS 3 = a.s3 ∧ t.mem = s.mem) ∧
      (s.dormantOf core.val a.cls = none → (s.core core.val).arrivals.length < 32 → ∃ t, exec (.arrival core) s = .next t ∧
        (t.core core.val).arriving = rest ∧ (t.core core.val).arrivals = (s.core core.val).arrivals ++ [a] ∧ t.ctxs = s.ctxs ∧ t.mem = s.mem))

/-- R229, R239 to R254: tiles and routing counters. A record without a WAITVAL, or whose word has reached it, passes the dependence test, and a failed word fails the task; a ready record takes a
free array; a task of one BF16 block and row leaves in each output column the rounded sum of its products, adds 1 to its done counter and frees its array. The counter unit adds lane by lane,
and a snapshot answers with the counters and clears them. That a task is done in one step is the model's choice (log 14). -/
def Obligations.TileResults : Prop :=  ∀ (s : State) (quad : Fin 32) (t : TileRec),
    let q := quad.val
    let part := t.org.part.toNat
    let passes := fun (u : State) => (u.quad q).tiles = [{ t with depOk := true }]
    ((s.quad q).tiles = [t] → t.depOk = false →
      (tWaitVal t.cmd = 0 → ∃ u, exec (.tileDepRetest quad t.id) s = .next u ∧ passes u) ∧
      (∀ r v, tWaitVal t.cmd ≠ 0 → s.engineRead t.org false (tWaitAddr t.cmd) = .ok r v →
        let w := nbytes r.toNat 0 8;
        (w < 2 ^ 32 → tWaitVal t.cmd ≤ w → ∃ u, exec (.tileDepRetest quad t.id) s = .next u ∧ passes u) ∧
        (w < tWaitVal t.cmd → exec (.tileDepRetest quad t.id) s = .next v) ∧
        (2 ^ 32 ≤ w → Quiet s → ∃ u, exec (.tileDepRetest quad t.id) s = .next u ∧ (u.quad q).tiles = [] ∧ (u.quad q).failed = (s.quad q).failed + 1))) ∧
    (∀ i : Fin 4, (s.quad q).tiles = [t] → t.depOk = true → (s.quad q).lastStart = none → chooseArray (s.quad q).arrays.toList t = some i.val →
      ∃ u, exec (.tileStart quad) s = .next u ∧ (u.quad q).tiles = [] ∧ ((u.quad q).arrays[i]).task = some { t with began := s.tbase.toNat, skip := (s.quad q).tqskip } ∧
        (u.quad q).lastStart = some s.now ∧ u.mem = s.mem) ∧
    (∀ (arr : Fin 4) (wk : Nat → Nat) (ak ck d : Nat), ((s.quad q).arrays[arr]).task = some t → t.kb = 0 → t.prev = none → t.cur = none →
      ((s.quad q).arrays[arr]).acc = [List.replicate 128 0] → s.commander t.org = none → (∀ a, s.inOwnSet t.org false a = false) → t.org.quad = q → Quiet s →
      t.fmtA = 0 → t.fmtW = 0 → t.fmtC = 0 → tf t.cmd 0 1 = 0 → tf t.cmd 1 1 = 0 → tf t.cmd 8 4 = 0 → tBlocks t.cmd = 1 → tRows t.cmd = 1 →
      (∀ k < 128, s.spotLocal part q (rowOf ((shardAddrs t 0).getD k 0)) = .mem (wk k) ∧ s.mem.poisoned (wk k) = false) →
      s.spotLocal part q (rowOf (descAddr (BitVec.ofNat 64 (tf t.cmd 12 8)) (BitVec.ofNat 64 (tf t.cmd 20 8)) 0 0)) = .mem ak → s.mem.poisoned ak = false →
      s.spotLocal part q (tf t.cmd 36 4 * 256) = .mem ck → s.mem.poisoned ck = false → s.reach part q (tDoneAddr t.cmd) = .ok d → localKey d ≠ ck →
      s.mem.poisoned (localKey d) = false →
      let elemAt := fun (k i : Nat) => valOf .bf16 (nbytes (s.mem.row k).toNat (2 * i) 2);
      ∃ u, exec (.tileDone quad arr) s = .next u ∧ ((u.quad q).arrays[arr]).task = none ∧ (u.quad q).completed = (s.quad q).completed + 1 ∧
        u.mem.readLe (localKey d) 8 = (s.mem.readLe (localKey d) 8 + 1) % 2 ^ 64 ∧
        ∀ n < 128, nbytes (u.mem.row ck).toNat (2 * n) 2 =
          cvtFloat .bf16 .rne false (floatVal .fp32 (accStep false 0 ((List.range 128).map fun k => (elemAt ak k).mul (elemAt (wk k) n)))) % 2 ^ 16) ∧
    (∀ v rest, (s.quad q).rcOps = (0, some v) :: rest → ∃ u, exec (.routingCounterOp quad) s = .next u ∧ (u.quad q).rcOps = rest ∧
      ∀ i : Fin 64, (u.quad q).rct[i] = (s.quad q).rct[i] + BitVec.ofNat 32 (elem v i.val 32)) ∧
    (∀ id rest, (s.quad q).rcOps = (id, none) :: rest → ∃ u v, exec (.routingCounterOp quad) s = .next u ∧ (u.quad q).rcOps = rest ∧
      (∀ i : Fin 64, (u.quad q).rct[i] = 0 ∧ elem v i.val 32 = ((s.quad q).rct[i]).toNat) ∧
      ∀ k, ∀ l ∈ (u.ctx k).inflight, l.id = id → l.value = some v ∧ l.poison = none)

/-- R72 to R74, R295 and R413: quads that move, segments that were zeroed, and retention. A quad whose contexts are all free moves: its scratchpad reads zero, it belongs to its target and is held for
1,024 cycles, at whose end QUADPART shows the target. RESWAIT cycles after the record, a context that still runs is stopped or saved. An array idle for 4,096 cycles enters retention, and an
exit ends at its cycle. -/
def Obligations.MoveAndRetentionResults : Prop :=  ∀ (s : State) (quad : Fin 32) (die : Fin 4) (seg : Fin 64) (at_ : Nat) (arr : ArrayId),
    let q := quad.val
    let target := s.fld .quadpart q 11 8
    let entry := 4096 ≤ s.now - tgetD s.touched arr 0
    (s.quadMoving q = true → (s.quad q).zeroEnd = none → (∀ k, quadOf k = q → (s.ctx k).life = .free) → s.journals = [] → (s.quad q).rcOps = [] → ∃ t, exec (.quadMove quad) s = .next t ∧
      (t.quad q).zeroEnd = some (s.now + 1024) ∧ t.quadPart q = target ∧ (t.quad q).tiles = [] ∧ (t.quad q).copies = [] ∧
      (∀ k, quadOf k = q → t.ctx k = Ctx.reset) ∧ ∀ a < 0x1000000, t.mem.read (localKey (0x1000000000 + q * 0x1000000) + a) = 0) ∧
    ((s.quad q).zeroEnd = some at_ → s.now < at_ → exec (.quadZeroEnd quad) s = .next s) ∧
    ((s.quad q).zeroEnd = some at_ → at_ ≤ s.now → (s.quad q).nextMove = none → Quiet s → ∃ t, exec (.quadZeroEnd quad) s = .next t ∧ (t.quad q).zeroEnd = none ∧
      t.quadPart q = target ∧ t.fld .quadpart q 3 0 = target ∧ t.quadMoving q = false ∧ t.fld .quadpart q 11 8 = 0) ∧
    ((s.quad q).moveAt = some at_ → s.quadMoving q = true → s.fld .presize (s.quadPart q) 31 0 ≠ 0 → at_ + s.fld .presize (s.quadPart q) 31 0 ≤ s.now →
      ∃ t, exec (.resizeTimeout quad) s = .next t ∧ ∀ k, quadOf k = q → (s.ctx k).logical = 0xFF → (s.ctx k).life = .running → (s.ctx k).stopReq = false →
        (t.ctx k).life = .free ∨ (t.ctx k).life = .stopped) ∧
    (tget (s.die die.val).segZero seg.val = some at_ → at_ ≤ s.now → s.heldWrites = [] → Quiet s → ∃ t, exec (.btownZeroEnd die seg) s = .next t ∧ tget (t.die die.val).segZero seg.val = none ∧ t.mem = s.mem) ∧
    (s.retain arr = .active → s.retains arr = true → entry → tgetD s.touched arr 0 ≤ s.now → ∃ t, exec (.retentionEntry arr) s = .next t ∧
      t.retain arr = .entering (s.now + retainCycles arr) ∧ t.mem = s.mem) ∧
    (s.retain arr = .entering at_ → at_ ≤ s.now → ∃ t, exec (.retentionEntry arr) s = .next t ∧ t.retain arr = .retained ∧ t.mem = s.mem) ∧
    (s.retain arr = .active → ¬ (s.retains arr = true ∧ tgetD s.touched arr 0 + 4096 ≤ s.now) → exec (.retentionEntry arr) s = .next s) ∧
    (s.retain arr = .exiting at_ → at_ ≤ s.now → s.heldWrites = [] → Quiet s → ∃ t, exec (.retentionExit arr) s = .next t ∧ t.retain arr = .active ∧ t.mem = s.mem) ∧
    (s.retain arr = .retained → s.retains arr = false → ∃ t, exec (.retentionExit arr) s = .next t ∧ t.retain arr = .exiting (s.now + retainCycles arr))

/-- R329 to R333: what a waiting context waits for. A sleeper whose word passes its test goes on in its place or, when it was written out, joins its task queue, and gives up its entry; one whose
test fails sleeps on. A barrier releases its members once all have arrived. A wait in place reads its word again every POLLGAP cycles.
R354 to R358 and R361 to R363: the Ticket Booth. A request for a free granule is granted when its slice has an entry; one for a held granule waits in ticket order, and an older ticket wounds the
holder; a grant sets HOLDS and keeps the continuation from which a first holder restarts, and one that no longer stands in its slice is nothing; a wounded holder goes back to that continuation with
RESTART set, holding nothing, a handler still one (R363 writes CFLAGS as RESTART alone: DEDUCED, log 42). A task whose path C has waited WOUNDWAIT cycles for a request is saved for its home quad. -/
def Obligations.WaitAndLockResults : Prop :=
  (∀ (s : State) (quad : Fin 32) (core : Fin 128) (ctx : Fin 8) (e : MonEntry) (id : Nat) (halves : List Nat),
    let q := quad.val
    let key := core.val * 8 + ctx.val
    let reads := fun (t : Word) (a k : Nat) (w : Word) => let own := (s.journal? t).bind fun j => j.copyOf (rowOf a)
      (∃ r, own = some (r, false) ∧ w = BitVec.ofNat 64 (nbytes r.toNat (a % 256) 8)) ∨ (own = none ∧ s.mem.poisoned k = false ∧ w = s.mem.word k)
    let gone := fun (t : State) => ∀ y ∈ (t.quad q).monitor, y.id ≠ id
    (∀ a w, (s.quad q).monitor.find? (fun y => decide (y.id = id)) = some e → s.reach e.part.toNat 0 (e.addr - 2 ^ 52) = .ok a → reads (s.sleeper e) a e.addr w →
      let test := waitTest w e.val e.mode;
      (test = false → ∃ t, exec (.monitorRetest quad id) s = .next t ∧ t.ctxs = s.ctxs ∧ t.mem = s.mem ∧
        (t.quad q).monitor = (s.quad q).monitor.map fun y => if y.id = id then { y with next := 0 } else y) ∧
      (∀ k, test = true → e.record = none → e.ctxKey = some k → (s.ctx k).logical ≠ 0xFF → ∃ t, exec (.monitorRetest quad id) s = .next t ∧ gone t ∧
        t.ctx k = { s.ctx k with wait := .none } ∧ SameMem s t ∧ SameOthers s t k) ∧
      (∀ r, test = true → e.record = some r → r.cflags.getLsbD 0 = false → ∃ t, exec (.monitorRetest quad id) s = .next t ∧ gone t ∧ t.ctxs = s.ctxs ∧ t.mem = s.mem ∧
        let n := queueKey e.part.toNat (prioOf r.ticket); tgetD t.taskQueues n [] = tgetD s.taskQueues n [] ++ [(r, none)])) ∧
    (∀ due a v m x w, (s.ctx key).wait = .word (some due) a v m → s.reach (s.ctx key).part.toNat 0 (a - 2 ^ 52) = .ok x → reads (s.ctx key).ticket x a w →
      (s.now < due → exec (.waitaPoll core ctx) s = .next s) ∧
      (due ≤ s.now → waitTest w v m = false →
        exec (.waitaPoll core ctx) s = .next ((s.touch x).setCtx key { s.ctx key with wait := .word (some (s.now + s.pollGap (quadOf key))) a v m })) ∧
      (due ≤ s.now → waitTest w v m = true → ∃ t, exec (.waitaPoll core ctx) s = .next t ∧ t.ctx key = { s.ctx key with wait := .none } ∧ SameMem s t ∧ SameOthers s t key)) ∧
    (∀ scope n job j, s.barriers.find? (fun b => decide (b.2.2.2 = key)) = some (scope, n, job, j) → scope ≠ 5 →
      let members := (s.teamKeys job).filter fun k => sameInstance scope key k;
      ((∀ k ∈ members, (scope, n, job, k) ∈ s.barriers) → ∃ t, exec (.barRelease core ctx halves) s = .next t ∧ (∀ k ∈ members, (t.ctx k).wait = .none ∧ (scope, n, job, k) ∉ t.barriers) ∧
        (∀ k, k ∉ members → t.ctx k = s.ctx k) ∧ t.mem = s.mem) ∧
      ((∃ k ∈ members, (scope, n, job, k) ∉ s.barriers) → exec (.barRelease core ctx halves) s = .next s))) ∧
  (∀ (s : State) (slice : Fin 4) (r : LockReq) (rest : List LockReq),
    let k := slice.val
    let held := (s.die k).booth.find? fun e => decide (e.gran = r.gran)
    ((s.die k).requests = r :: rest → held = none → (s.die k).booth.length < 65536 → ∃ t, exec (.lockRequest slice) s = .next t ∧ (t.die k).requests = rest ∧
      (t.die k).booth = (s.die k).booth ++ [⟨r.gran, r.ticket, r.run, []⟩] ∧ (t.die k).grants = (s.die k).grants ++ [r] ∧ t.mem = s.mem) ∧
    (∀ e, (s.die k).requests = r :: rest → held = some e → e.holder ≠ r.ticket → ∃ t x, exec (.lockRequest slice) s = .next t ∧ (t.die k).requests = rest ∧
      (t.die k).grants = (s.die k).grants ∧ (t.die k).booth.find? (fun y => decide (y.gran = r.gran)) = some x ∧ x.holder = e.holder ∧ x.waiters = insertWaiter r e.waiters ∧
      (r.ticket.toNat < e.holder.toNat → e.holder ∈ t.wounds ∧ (e.holder ∉ s.wounds → Act.event (.wound e.holder) ∈ t.agenda)) ∧
      (e.holder.toNat < r.ticket.toNat → t.wounds = s.wounds)) ∧
    ((s.die k).grants = r :: rest → (s.die k).stands r = false → ∃ t, exec (.lockGrant slice) s = .next t ∧ (t.die k).grants = rest ∧ t.journals = s.journals ∧ t.ctxs = s.ctxs) ∧
    (∀ c j, (s.die k).grants = r :: rest → (s.die k).stands r = true → s.asker r = some c → s.journal? r.ticket = some j → s.colls = [] → ∃ t x, exec (.lockGrant slice) s = .next t ∧
      (t.die k).grants = rest ∧ t.journal? r.ticket = some x ∧ r.gran ∈ x.granules ∧ (∀ g ∈ j.granules, g ∈ x.granules) ∧
      x.retained = (if j.granules = [] then c.retained else j.retained) ∧
      ∀ n, (s.ctx n).ticket = r.ticket → (s.ctx n).run = r.run → tget s.ctxs n ≠ none → (t.ctx n).cflags.getLsbD 0 = true) ∧
    (∀ key x j, r.ticket ∈ s.wounds → s.runnerOf r.ticket = some key → (s.ctx key).life = .running → s.journal? r.ticket = some j → j.ended = false → j.retained = some x →
      ∃ t, exec (.wound r.ticket) s = .next t ∧ r.ticket ∉ t.wounds ∧ t.journal? r.ticket = none ∧ (t.ctx key).life = .running ∧ (t.ctx key).pc = x.pc ∧
        (t.ctx key).ticket = x.ticket ∧ (t.ctx key).cflags = (x.cflags &&& 4) ||| 8 ∧
        ((∀ d < 4, ∀ e ∈ (s.die d).booth, ∀ w ∈ e.waiters, w.ticket ≠ r.ticket) → ∀ d < 4, ∀ e ∈ (t.die d).booth, e.holder ≠ r.ticket)) ∧
    (r.ticket ∉ s.wounds → exec (.wound r.ticket) s = .next s) ∧
    (∀ (core : Fin 128) (ctx : Fin 8) (w : LockReq), let key := core.val * 8 + ctx.val; let c := s.ctx key; let limit := s.fld .lkcfg c.part.toNat 31 0;
      s.lockWait key = some w → c.life = .running → c.logical = 0xFF → limit ≠ 0 → w.since + limit ≤ s.now → s.watchdogDue key = false → ∀ j u, s.journal? c.ticket = some j →
      ((s.count .lkstat c.part.toNat 63 32 1).modCtx key fun y => { y with wait := .lock w.gran }).saveCtx key false [] = .done u → ∃ t, exec (.woundwaitExpiry core ctx) s = .next t ∧ (t.ctx key).life = .free ∧
        (∃ x ∈ t.saved, x.ctx.ticket = c.ticket ∧ x.ready = false ∧ x.homeQuad = some j.quad) ∧ t.mem = u.mem ∧
        t.fld .lkstat c.part.toNat 63 32 = Min.min (s.fld .lkstat c.part.toNat 63 32 + 1) (2 ^ 32 - 1)))

/-- R313 to R318, R336 to R338 and R342 to R345: base-die queues, channels, the gatherer and refresh. A pop or a try that is served takes the oldest entry, the try with its
condition set; a pop of an empty queue waits, and a try answers that there was none. An element that arrives is present, or answers the oldest receive, a RECVADD lane by lane with the
old register, unless the context of that receive is saved (R346). A row of a request goes to its place once; a batch closes by count or by deadline, and its record joins
its queue, or waits in the order of the pushes when the queue is full. A refresh of all banks stalls its channel for 790 cycles, all of which count in HLAT.STALL: read from R313 by inference (log 39). -/
def Obligations.QueueChannelAndGatherResults : Prop :=  ∀ (s : State) (i : Fin 1024) (core : Fin 128) (ch : Fin 64) (g : Fin 16), Quiet s →
    let q := s.bdQueue i.val
    let lands := fun (t : State) (id : Nat) (v : VReg) => ∀ k, ∀ l ∈ (t.ctx k).inflight, l.id = id → l.value = some v
    let serve := fun (t : State) => exec (.bdqPopServe i) s = .next t
    (q.pushes = [] →
      (∀ e es key n, q.entries = e :: es → q.pops = [(key, [n], none)] → ∃ t, serve t ∧ (t.bdQueue i.val).entries = es ∧ (t.bdQueue i.val).pops = [] ∧ lands t n (popValue e.1)) ∧
      (∀ key n, q.entries = [] → q.pops = [(key, [n], none)] → ∃ t, serve t ∧ (t.bdQueue i.val).entries = [] ∧ (t.bdQueue i.val).pops = q.pops ∧ t.ctxs = s.ctxs) ∧
      (∀ e es key n m v, n ≠ m → q.entries = e :: es → q.pops = [(key, [n, m], some v)] → ∃ t, serve t ∧ (t.bdQueue i.val).entries = es ∧ (t.bdQueue i.val).pops = [] ∧
        lands t n (popValue e.1) ∧ lands t m 1) ∧
      (∀ key n m v, n ≠ m → q.entries = [] → q.pops = [(key, [n, m], some v)] → ∃ t, serve t ∧ (t.bdQueue i.val).pops = [] ∧ lands t n v ∧ lands t m 0)) ∧
    (let c := s.chan core.val ch.val;
      (∀ x xs, c.flying = x :: xs → s.now < x.due → exec (.channelArrival core ch) s = .next s) ∧
      (∀ x xs, c.flying = x :: xs → x.due ≤ s.now → c.recvs = [] → ∃ t, exec (.channelArrival core ch) s = .next t ∧
        (t.chan core.val ch.val).flying = xs ∧ (t.chan core.val ch.val).elems = c.elems ++ [x]) ∧
      (∀ x xs r rs, c.flying = x :: xs → x.due ≤ s.now → c.elems = [] → c.recvs = r :: rs →
        (s.recvSaved r = true → ∃ t, exec (.channelArrival core ch) s = .next t ∧ (t.chan core.val ch.val).elems = [x] ∧ (t.chan core.val ch.val).recvs = r :: rs) ∧
        (s.recvSaved r = false → ∃ t, exec (.channelArrival core ch) s = .next t ∧ (t.chan core.val ch.val).elems = [] ∧ (t.chan core.val ch.val).recvs = rs ∧
          let data := if chFlag c.entry 2 then x.data else chConvert c.entry x.data
          (r.old = none → lands t r.id (BitVec.ofNat 16384 data)) ∧
          (∀ old g, let sink := FmtEntry.ofBits (chField c.entry 10 2); r.old = some old → sink.fmt = some g →
            ∃ v, lands t r.id v ∧ ∀ i < 16384 / g.width, let y := nbits data (g.width * i + g.width - 1) (g.width * i)
              elem v i g.width = if chSinkRows c.entry * 2048 / g.width ≤ i then elem old i g.width
                else (if g.isFloat then cvtFloat g sink.rnd sink.sat ((floatVal g (elem old i g.width)).add sink.rnd (floatVal g y))
                  else writeInt g sink.sat (intVal g (elem old i g.width) + intVal g y)) % 2 ^ g.width))) ∧
      (∀ due rest, c.returning = due :: rest → (s.now < due → exec (.channelCredit core ch) s = .next s) ∧
        (due ≤ s.now → ∃ t, exec (.channelCredit core ch) s = .next t ∧ (t.chan core.val ch.val).taken = c.taken - 1 ∧ (t.chan core.val ch.val).returning = rest))) ∧
    (let c := s.gatherChan g.val;
      let part := gPart c.cfg;
      let limit := gField c.cfg 12 2;
      (∀ (off : BitVec 28) (data : Row) x k, let stage := off.toNat / 256 / 1024; let j := off.toNat / 256 % 1024;
        s.running = true → gOn c.cfg = true → tget c.stages stage = some x → stage < gField c.cfg 20 2 → j < x.nrows →
        (x.bitmap.getLsbD j = true → ∃ t, exec (.gatherRow g off data) s = .next t ∧ t.fld .gcnt g.val 15 0 = Min.min (s.fld .gcnt g.val 15 0 + 1) 0xFFFF ∧ t.mem = s.mem) ∧
        (x.bitmap.getLsbD j = false → x.batched = false → s.spotVa part (gField c.cfg 40 8 + (stage * gField c.cfg 14 2 + j) * 256) 2 = .mem k →
          ∃ t y, exec (.gatherRow g off data) s = .next t ∧ t.mem.row k = data ∧ (∀ a, ¬ (k ≤ a ∧ a < k + 256) → t.mem.read a = s.mem.read a) ∧
            tget (t.gatherChan g.val).stages stage = some y ∧ (∀ b < 1024, y.bitmap.getLsbD b = (x.bitmap.getLsbD b || b == j)) ∧
            (y.complete ≠ none ↔ ∀ b < x.nrows, b < 1024 ∧ (b = j ∨ x.bitmap.getLsbD b = true)))) ∧
      (∀ k, let head := s.fld .gstat g.val 31 0; let at_ := gField c.cfg 24 8 + head % gField c.cfg 32 4 * 64;
        let e := nbytes (s.mem.row k).toNat (at_ % 256) 64; let stage := nbytes e 8 2; let rows := nbytes e 10 2;
        gOn c.cfg = true → head ≠ s.fld .gdb g.val 31 0 → s.spotVa part (rowOf at_) 1 = .mem k → s.mem.poisoned k = false → s.waitsLink (.gatherEntry g.val) = false →
        stage < gField c.cfg 20 2 → rows ≠ 0 → rows ≤ gField c.cfg 14 2 → nbytes e 12 4 = 0 → nbytes e 32 32 = 0 → tget c.stages stage = none →
        ∃ t x, exec (.gatherEntry g) s = .next t ∧ t.fld .gstat g.val 31 0 = (head + 1) % 2 ^ 32 ∧ tget (t.gatherChan g.val).stages stage = some x ∧
          x.rid.toNat = nbytes e 0 8 ∧ x.nrows = rows ∧ x.deadline = nbytes e 16 8 ∧ x.user.toNat = nbytes e 24 8 ∧ x.bitmap = 0 ∧ x.complete = none) ∧
      (tget s.gather g.val = some c →
        let tick := s.tbase.toNat;
        let closes := fun (reason : Nat) => ∃ t, exec (.gatherTick g) s = .next t ∧
          (t.gatherChan g.val).batches = c.batches ++ [⟨c.cfg, c.nextBatch, reason, c.ready, tick, false⟩] ∧ (t.gatherChan g.val).nextBatch = c.nextBatch + 1;
        let due := ∃ e ∈ c.ready, e.2.deadline ≤ tick + gField c.cfg 16 4;
        (c.ready.length = limit → limit ≠ 0 → closes 0) ∧ (c.ready.length < limit → due → closes 1) ∧
        (c.ready.length < limit → ¬ due → ∃ t, exec (.gatherTick g) s = .next t ∧ (t.gatherChan g.val).batches = c.batches)) ∧
      (∀ b rest, let n := gField b.cfg 22 2 % 1024; c.batches = b :: rest → b.listDone = true → s.mayPush n (gPart b.cfg) = true →
        (s.bdQueue n).entries.length < s.bdqDepth n → (s.bdQueue n).pushes = [] → (s.bdQueue n).pops = [] → ∃ t, exec (.batchPush g) s = .next t ∧
          (t.bdQueue n).entries = (s.bdQueue n).entries ++ [(b.record g.val, none)] ∧ (t.gatherChan g.val).batches = rest) ∧
      (∀ b rest, let n := gField b.cfg 22 2 % 1024; c.batches = b :: rest → b.listDone = true → (s.bdQueue n).entries ≠ [] → s.bdqDepth n ≤ (s.bdQueue n).entries.length →
        (s.bdQueue n).pops = [] → PushWait.batch g.val ∉ (s.bdQueue n).pushes → ∃ t, exec (.batchPush g) s = .next t ∧ (t.gatherChan g.val).batches = c.batches ∧
          (t.bdQueue n).entries = (s.bdQueue n).entries ∧ (t.bdQueue n).pushes = (s.bdQueue n).pushes ++ [.batch g.val])) ∧
    (∀ bank, let c : Fin 128 := core; let owed := s.owed c.val bank;
      (owed < 8 → ∃ t, exec (.refreshDue c bank) s = .next t ∧ t.owed c.val bank = owed + 1) ∧
      (8 ≤ owed → ∃ t, exec (.refreshDue c bank) s = .next t ∧ (∀ b, t.owed c.val b = 0) ∧
        t.fld .hlat c.val 15 0 = Min.min (s.fld .hlat c.val 15 0 + 1) 0xFFFF ∧ t.fld .hlat c.val 47 16 = Min.min (s.fld .hlat c.val 47 16 + 790) 0xFFFFFFFF) ∧
      (∃ t, exec (.bankRefresh c bank) s = .next t ∧ t.owed c.val bank = owed - 1))

/-- R300 to R304, R308 and R310: the steps of an itinerary. A HOP is issued while its window has room and, when it leads a group, every member has released enough; WAITREL, BARRIER, EVICT, MARK and
END wait for what they name; ITIN_LOOP goes back or passes on; MARK stores its word and END adds 1 to its own, in host memory by a write of its own (R425, `flushPuts`), and frees the spoke; MCAST asks to join
its group. A step that is over gives way to the next. The form of the message by which a member asks to join, its channel, its one flit and that it names no module are the model's choice (logs 30 and 32). -/
def Obligations.ItineraryStepResults : Prop :=  ∀ (s u : State) (e : Fin 4) (k : Fin 16) (x : Spoke) (c : BitVec 256), AtStep s u e.val k.val x c →
    let owner := 16 * e.val + k.val
    let part := x.org.part.toNat
    let passes := fun (i : Instr) (f : State → Spoke → Prop) => ∃ t y, exec i s = .next t ∧ t.spoke? e.val k.val = some y ∧ y.index = x.index + 1 ∧ f t y
    let same := fun (_ : State) (_ : Spoke) => True
    let fails := fun (i : Instr) => ∃ t, exec i s = .next t ∧ t.spoke? e.val k.val = none
    let w := wordAddr (stDst c)
    let word := fun (need : Nat) => if w.1 then u.spotVa part w.2 need 8 else u.spotLocal part x.org.quad w.2
    (stCode c = 1 →
      let size := x.windows.toList.getD (stTo c) 0;
      let group := if stFrom c = 0 then x.groupOf (stTo c) else none;
      let names := (slotOf c true).toList ++ (slotOf c false).toList;
      let issues := passes (.hop e k) fun t y => ∃ h : HopRec, y.hops = x.hops ++ [h] ∧ h.step = c ∧ h.n = x.nextHop ∧ h.origin = x.origin ∧ h.moved = false ∧ h.finished = false ∧
        h.released = false ∧ h.group = group.map (fun g => (g.id, g.hops)) ∧ h.slotReady = (slotOf c false).isNone ∧ y.nextHop = x.nextHop + 1 ∧
        t.fills = u.fills ++ (slotOf c false).toList.map fun n => ⟨part, n, owner, h.n, u.now⟩;
      (∀ g, group = some g → g.aborted = true → fails (.hop e k)) ∧
      ((∀ g, group = some g → g.aborted = false) → (∃ n ∈ names, u.slotFits part n c = false) → fails (.hop e k)) ∧
      ((∀ g, group = some g → g.aborted = false) → (∀ n ∈ names, u.slotFits part n c = true) →
        (size ≤ x.held (stTo c) → exec (.hop e k) s = .next u) ∧
        (∀ g, group = some g → g.me = 0 → (∃ r ∈ g.rel, size + r.2 ≤ g.hops) → exec (.hop e k) s = .next u) ∧
        (x.held (stTo c) < size → (∀ g, group = some g → g.me = 0 → ∀ r ∈ g.rel, g.hops < size + r.2) → issues))) ∧
    (stCode c = 2 → (x.held (stTo c) ≤ stArg c → passes (.waitrel e k) same) ∧ (stArg c < x.held (stTo c) → exec (.waitrel e k) s = .next u)) ∧
    (stCode c = 3 → (x.busy (stArg c) = false → passes (.barrier e k) same) ∧ (x.busy (stArg c) = true → exec (.barrier e k) s = .next u)) ∧
    (stCode c = 4 →
      (x.joining = none → ∃ t y, exec (.mcast e k) s = .next t ∧ t.spoke? e.val k.val = some y ∧ y.index = x.index ∧
        (∃ g, y.joining = some g ∧ g.id = nbits (stArg c) 15 0 ∧ g.size = nbits (stArg c) 21 16 + 1 ∧ g.tier = stTo c ∧ g.me = nbits (stArg c) 27 22 ∧ g.hops = 0) ∧
        t.ropeOut = u.ropeOut ++ [⟨none, 1, 0, 128, .join (nbits (stArg c) 15 0) (nbits (stArg c) 21 16 + 1) (stTo c) (x.windows.toList.getD (stTo c) 0) (nbits (stArg c) 27 22)⟩]) ∧
      (x.joining ≠ none → exec (.mcast e k) s = .next u)) ∧
    (stCode c = 5 → (∀ h ∈ x.hops, x.unfed h = false → (h.readOver = false → slotOf h.step true ≠ some (stDst c)) ∧ (h.moved = false → slotOf h.step false ≠ some (stDst c))) →
      (u.slotOwner part (stDst c) = some owner → passes (.evict e k) fun t _ => t.evictions = u.evictions ++ [⟨part, stDst c, owner, 0, u.now⟩]) ∧
      (u.slotOwner part (stDst c) ≠ some owner → fails (.evict e k))) ∧
    (stCode c = 6 →
      let left := (tget x.loops x.index).getD (stArg c - 1);
      (left = 0 → passes (.itinLoop e k) fun _ y => tget y.loops x.index = none) ∧
      (left ≠ 0 → tget x.loops x.index ≠ none ∨ x.loops.length < 4 → ∃ t y, exec (.itinLoop e k) s = .next t ∧ t.spoke? e.val k.val = some y ∧ y.index = stSrc c ∧
        tget y.loops x.index = some (left - 1) ∧ y.origin = x.origin + 16 * stDeadline c) ∧
      (left ≠ 0 → tget x.loops x.index = none → 4 ≤ x.loops.length → fails (.itinLoop e k))) ∧
    (stCode c = 7 →
      (x.busy 7 = true → exec (.mark e k) s = .next u) ∧
      (x.busy 7 = false → u.inOwnSet x.org w.1 w.2 = true → fails (.mark e k)) ∧
      (∀ key, x.busy 7 = false → u.inOwnSet x.org w.1 w.2 = false → word 2 = .mem key → key % 8 = 0 → u.mem.poisoned key = false → u.hostPuts = [] →
        passes (.mark e k) fun t y => t.mem.readLe key 8 = stSrc c ∧ (∀ z, ¬ (key ≤ z ∧ z < key + 8) → t.mem.read z = u.mem.read z) ∧
          y.origin = if (stArg c).testBit 0 then u.now else x.origin)) ∧
    (stCode c = 8 →
      (x.busy 7 = true → exec (.itinEnd e k) s = .next u) ∧
      ((∀ h ∈ x.hops, h.finished = true) →
        (stDst c = 0 → ∃ t, exec (.itinEnd e k) s = .next t ∧ t.spoke? e.val k.val = none ∧ t.mem = u.mem) ∧
        (∀ key, stDst c ≠ 0 → word (if w.1 then 6 else 2) = .mem key → key % 8 = 0 → u.mem.poisoned key = false → u.hostPuts = [] → ∃ t, exec (.itinEnd e k) s = .next t ∧
          t.spoke? e.val k.val = none ∧ (inHost key = false → t.hostPuts = []) ∧ t.flushPuts.mem.readLe key 8 = (u.mem.readLe key 8 + 1) % 2 ^ 64 ∧
          ∀ z, ¬ (key ≤ z ∧ z < key + 8) → t.flushPuts.mem.read z = u.mem.read z))) ∧
    (stCode c = 9 → passes (.setwin e k) fun _ y => y.windows.toList.getD (stTo c) 0 = stArg c)

/-- R298, R299, R302 to R306 and R308 to R311: spokes, their hops and their slots. A start request of the partition that owns a free spoke makes it run; a release frees the oldest shard of its window;
a hop of one row copies its source row to its destination; a fill makes its spoke the owner of a free slot, an eviction ends that, and a fill that meets one is put off to the next slot-cycle and is late;
a spoke joins its group when every member has. How RELEASE_NOTICE and GROUP_JOIN number their arguments is the model's choice (log 30). -/
def Obligations.SpokeAndHopResults : Prop :=  ∀ (s : State) (e : Fin 4) (k : Fin 16) (r : WheelReq) (rest : List WheelReq) (x : Spoke),
    let owner := 16 * e.val + k.val
    (Quiet s → (s.wheel e.val).starts = r :: rest → nbits r.sa.toNat 59 56 = k.val → s.spokePart e.val k.val = r.org.part.toNat → s.spoke? e.val k.val = none →
      ∃ t y, exec (.spokeStart e) s = .next t ∧ (t.wheel e.val).starts = rest ∧ t.spoke? e.val k.val = some y ∧ y.org = r.org ∧ y.index = 0 ∧ y.origin = s.now ∧
        y.hops = [] ∧ y.va = r.sa.getLsbD 63 ∧ y.addr = nbits r.sa.toNat 55 0 / 32 * 32 % (if r.sa.getLsbD 63 then 2 ^ 56 else 2 ^ 40) ∧ y.windows.toList = [0, 8, 4, 2, 2]) ∧
    (∀ h, let tier := nbits r.sa.toNat 6 4; Quiet s → (s.wheel e.val).rels = r :: rest → nbits r.sa.toNat 3 0 = k.val → s.spokePart e.val k.val = r.org.part.toNat → 1 ≤ tier → tier ≤ 4 →
      s.spoke? e.val k.val = some x → (x.hops.map fun h => h.n).Nodup →
      x.hops.find? (fun h => !h.released && h.chained.isNone && decide (stTo h.step = tier)) = some h → ∃ t y, exec (.shardRelease e) s = .next t ∧ (t.wheel e.val).rels = rest ∧
        t.spoke? e.val k.val = some y ∧ y.held tier + 1 = x.held tier ∧ ∀ z ∈ y.hops, z.n = h.n → z.released = true) ∧
    (∀ m count, ∀ g ∈ x.groups, s.spoke? e.val k.val = some x → g.joined = true → g.me = 0 → g.id = m / 64 → m % 64 ≠ 0 → ∃ t y, exec (.releaseNotice e k m count) s = .next t ∧
      t.spoke? e.val k.val = some y ∧ ∃ z ∈ y.groups, z.id = g.id ∧ z.tier = g.tier ∧ tget z.rel (m % 64) = some count) ∧
    (∀ joins g, s.spoke? e.val k.val = some x → x.joining = some g → (∀ j ∈ joins, j.2.1 ≠ 0) →
      let here := fun (j : Nat × Nat × Nat × Nat) => j.2 = (g.size, g.tier, x.windows.toList.getD g.tier 0);
      ((∀ j ∈ joins, here j) → (∀ m < g.size, m = g.me ∨ ∃ j ∈ joins, j.1 = m) → ∃ t y, exec (.groupJoin e k joins) s = .next t ∧ t.spoke? e.val k.val = some y ∧
        y.index = x.index + 1 ∧ y.joining = none ∧ ∃ z ∈ y.groups, z.id = g.id ∧ z.tier = g.tier ∧ z.joined = true) ∧
      ((∀ j ∈ joins, here j) → (∃ m < g.size, m ≠ g.me ∧ ∀ j ∈ joins, j.1 ≠ m) → ∃ t, exec (.groupJoin e k joins) s = .next t ∧ t.spoke? e.val k.val = some x) ∧
      ((∃ j ∈ joins, ¬ here j) → ∃ t, exec (.groupJoin e k joins) s = .next t ∧ t.spoke? e.val k.val = none)) ∧
    (∀ joins, ∀ g ∈ x.groups, s.spoke? e.val k.val = some x → x.joining = none → g.joined = true → (∃ j ∈ joins, j.2.1 = 0 ∧ j.2.2.1 = g.tier) →
      ∃ t y, exec (.groupJoin e k joins) s = .next t ∧ t.spoke? e.val k.val = some y ∧ y.index = x.index ∧ ∃ z ∈ y.groups, z.id = g.id ∧ z.tier = g.tier ∧ z.aborted = true) ∧
    ((∀ z ∈ s.evictions ++ s.fills, s.now / 16 ≤ z.since / 16) → exec .slotCycle s = .next s) ∧
    (∀ f : SlotReq, f.owner = owner → f.since / 16 < s.now / 16 → s.evictions = [] → s.fills = [f] → s.spoke? e.val k.val = some x → s.slotOwner f.part f.slot = none →
      ∃ t y, exec .slotCycle s = .next t ∧ t.slotOwner f.part f.slot = some owner ∧ t.spoke? e.val k.val = some y ∧ (∀ h ∈ y.hops, h.n = f.hop → h.slotReady = true) ∧ t.fills = []) ∧
    (∀ v : SlotReq, v.since / 16 < s.now / 16 → s.evictions = [v] → s.fills = [] → ∃ t, exec .slotCycle s = .next t ∧ (v.part, v.slot, v.owner) ∉ t.residency ∧ t.evictions = [] ∧
      ∀ y ∈ s.residency, y ≠ (v.part, v.slot, v.owner) → y ∈ t.residency) ∧
    (∀ v f : SlotReq, f.owner = owner → f.part = v.part → f.slot = v.slot → f.since / 16 = v.since / 16 → f.since / 16 < s.now / 16 → s.evictions = [v] → s.fills = [f] →
      ∃ t, exec .slotCycle s = .next t ∧ t.fills = [{ f with since := (f.since / 16 + 1) * 16 }] ∧ t.evictions = [] ∧
        t.fld .wlsum e.val 63 0 = Min.min (s.fld .wlsum e.val 63 0 + 16) (2 ^ 64 - 1)) ∧
    (∀ h src dst, s.spoke? e.val k.val = some x → x.hops.find? (fun y => decide (y.n = h.n) && !y.finished) = some h → h.consumes = none → h.slotReady = true → h.moved = false → h.got = [] → h.arrived = [] → h.put = 0 →
      x.follows h = false → x.groupFailed h = false → s.hopBehind x h = false → s.readHeld e.val k.val x h.n = false → s.spokeParked e.val k.val h.n = false → stRows h.step = 1 → stFlag h.step 0 = false → stFlag h.step 1 = false →
      stFlag h.step 3 = false → stArg h.step = 0 → s.commander x.org = none → (∀ va a, s.inOwnSet x.org va a = false) →
      let wrap := fun (tier a : Nat) => rowOf a % (if tier ≤ 2 then 2 ^ 56 else 2 ^ 40)
      s.hopSpot x.org (stFrom h.step) (wrap (stFrom h.step) (stSrc h.step)) 1 = .mem src → s.mem.poisoned src = false →
      s.hopSpot x.org (stTo h.step) (wrap (stTo h.step) (stDst h.step)) 2 = .mem dst →
      ∃ t y, exec (.hopFinish e k h.n [] []) s = .next t ∧ t.mem.row dst = s.mem.row src ∧ (∀ a, ¬ (dst ≤ a ∧ a < dst + 256) → t.mem.read a = s.mem.read a) ∧
        t.spoke? e.val k.val = some y ∧ ∀ z ∈ y.hops, z.n = h.n → z.finished = true)

/-- R368, R369, R375 to R380, R382, R383 and R385: collectives and the link. A base die accepts a collective under the next SEQ of its group and, as a member, sends its vote; member 0 sends what the votes
agree on; an abort writes its report, then its flag, and ends the collective; contributions and exponents gather at the owner of a chunk, and one whose checksum fails or that comes twice is not reduced; a
delivery that verifies is committed to the output. A flit that fails its CRC, or that comes before one that is missing, is asked for again; a packet for another module goes on towards it, and a
chunk that passes through is sent on once it is whole and its payload sum C holds; in recovery no flit is taken (R432). What bytes a flit carries, and that a passing chunk is gathered before it is
sent on, is the model's choice (log 32). -/
def Obligations.CollectiveResults : Prop :=  ∀ (s : State) (group : Fin 256) (seq : BitVec 32) (x : Coll) (ch : Nat),
    let g := group.val
    let q := seq.toNat
    let me := s.rank x
    let k := x.chunk ch
    let live := s.coll? g q = some x ∧ x.aborted = false
    let open_ := x.flag = none ∧ x.ended = false
    let told := fun (t : State) (m : OutMsg) => ∀ r < x.n, r ≠ me → ∃ y ∈ t.ropeOut, y.dest = some (x.members.getD r 0) ∧ y.msg = m
    (∀ (die : Fin 4) (r : CollReq), let n := cGroup r.cmd; let p := tgetD s.collSeq n 0; let members := s.groupMembers n; let mine := (s.rankIn members).getD (cf r.cmd 14 2);
      (s.die die.val).collReqs = [r] → Quiet s → s.liveColls (decide (cf r.cmd 3 1 = 1)) < (if cf r.cmd 3 1 = 1 then 16 else 64) → 2 ≤ members.length → s.coll? n p = none →
      ∃ t y, exec (.collAccept die) s = .next t ∧ (t.die die.val).collReqs = [] ∧ tgetD t.collSeq n 0 = (p + 1) % 2 ^ 32 ∧ t.coll? n p = some y ∧ y.cmd = r.cmd ∧ y.members = members ∧
        y.going = false ∧ y.ended = false ∧ y.cause = s.collCheck r.org.part.toNat r.cmd ∧ y.sig = signature r.cmd ∧
        t.ropeOut = s.ropeOut ++ if s.rankIn members = some 0 then [] else [⟨some (members.getD 0 0), if cf r.cmd 3 1 = 1 then 1 else 0, r.org.quad / 8, 128,
          .vote n p ⟨mine, signature r.cmd, s.collCheck r.org.part.toNat r.cmd⟩⟩]) ∧
    (∀ votes : List Vote, live → x.going = false → s.rankIn x.members = some 0 → 2 ≤ x.n → (∀ v ∈ votes, v.member ≠ 0) → (∀ m < x.n, m = 0 ∨ ∃ v ∈ votes, v.member = m) →
      ((∃ v ∈ votes, v.sig ≠ x.sig) → ∃ t, exec (.collAgree group seq votes) s = .next t ∧ told t (.decision g q (some 1) 0xFFFF) ∧ ∀ y, t.coll? g q = some y → y.aborted = true) ∧
      ((∀ v ∈ votes, v.sig = x.sig) → (x.cause ≠ 0 ∨ ∃ v ∈ votes, v.cause ≠ 0) → ∃ t c low, exec (.collAgree group seq votes) s = .next t ∧ told t (.decision g q (some c) low) ∧ c ≠ 0 ∧
        (c = x.cause ∨ ∃ v ∈ votes, v.cause = c) ∧ (x.cause ≠ 0 → c ≤ x.cause ∧ low = 0) ∧ (∀ v ∈ votes, v.cause ≠ 0 → c ≤ v.cause ∧ low ≤ v.member) ∧ ∀ y, t.coll? g q = some y → y.aborted = true) ∧
      ((∀ v ∈ votes, v.sig = x.sig ∧ v.cause = 0) → x.cause = 0 → ∃ t, exec (.collAgree group seq votes) s = .next t ∧ told t (.decision g q none 0xFFFF) ∧
        ∀ y, t.coll? g q = some y → y.going = true)) ∧
    (∀ c lowest kf ke kr, live → open_ → x.going = false → x.reports = [] → c < 2 ^ 63 → (∀ p ∈ s.parked, p.work ≠ .collWrites g q) → s.hostPuts = [] →
      let area := cf x.cmd 48 8 / 256 * 256;
      let count := s.mem.readLe ke 8;
      s.ropeSpot x (cf x.cmd 32 8 / 8 * 8) 2 8 = .mem kf → kf % 8 = 0 → s.mem.poisoned kf = false → s.ropeSpot x area 6 8 = .mem ke → ke % 256 = 0 → s.mem.poisoned ke = false →
      s.ropeSpot x (area + 256 * (1 + count % 8)) 2 256 = .mem kr → kr % 256 = 0 → [rowOf kf, ke, kr].Nodup →
      ∃ t, exec (.collGoAbort group seq (some c) lowest) s = .next t ∧ t.coll? g q = none ∧ t.mem.readLe kf 8 = 2 ^ 63 + c ∧ t.mem.readLe ke 8 = (count + 1) % 2 ^ 64 ∧
        t.mem.row kr = (reportBytes 2 (cf x.cmd 3 1) g q c lowest 0 0 0 s.tbase.toNat).setWidth 2048) ∧
    (live → x.going = false → (∀ c < x.total, x.sources me c = false) → (∀ e ∈ x.chunks, e.2.delivery = none) → (∃ c < x.total, x.holds me c = true ∧ (x.chunk c).committed = false) →
      exec (.collGoAbort group seq none 0xFFFF) s = .next (s.modColl g q fun y => { y with going := true, goAt := s.tbase.toNat })) ∧
    (live → x.going = true → exec (.collGoAbort group seq none 0xFFFF) s = .next s) ∧
    (∀ member data sum special hop, live → open_ → cGathers x.cmd = false → ch < x.total → x.owner ch = me → member < x.n → (cTwoPhase x.cmd = true → k.expo ≠ none) →
      let event := Instr.collContribution group seq ch member data sum special hop;
      (payloadSum (cSums x.cmd) data = sum → member ∉ k.bitmap → k.bitmap.length + 1 < x.n → ∃ t y, exec event s = .next t ∧ t.coll? g q = some y ∧
        (y.chunk ch).bitmap = member :: k.bitmap ∧ (y.chunk ch).acc = combine x.cmd (x.size ch) k.acc data ∧ (y.chunk ch).pred = k.pred + sum) ∧
      (payloadSum (cSums x.cmd) data = sum → member ∈ k.bitmap → ∃ t, exec event s = .next t ∧ t.colls = s.colls ∧
        t.fld .tcnt 0 47 24 = Min.min (s.fld .tcnt 0 47 24 + 1) (2 ^ 24 - 1)) ∧
      (payloadSum (cSums x.cmd) data ≠ sum → ∃ t y, exec event s = .next t ∧ t.coll? g q = some y ∧ (y.chunk ch).failed = (k.failed || !k.committed) ∧ (y.chunk ch).bitmap = k.bitmap ∧
        (y.chunk ch).acc = k.acc ∧ t.fld .tcnt 0 23 0 = Min.min (s.fld .tcnt 0 23 0 + 1) (2 ^ 24 - 1))) ∧
    (∀ member expo, live → cTwoPhase x.cmd = true → k.expo = none → x.owner ch = me → member < x.n → ch < x.total → (tset k.expos member expo).length < x.n →
      ∃ t y, exec (.chunkExponent group seq ch member expo false) s = .next t ∧ t.coll? g q = some y ∧ (y.chunk ch).expo = none ∧ tget (y.chunk ch).expos member = some expo) ∧
    (∀ expo data hop key other, live → open_ → x.going = true → k.committed = false → x.holds me ch = true → ch < x.total → cGathers x.cmd = true →
      x.outAt ch * (cFmt x.cmd).width % 2048 = 0 → x.size ch * (cFmt x.cmd).width = 2048 → other < x.total → other ≠ ch → x.holds me other = true → (x.chunk other).committed = false →
      let at_ := x.bufOut + 256 * (x.outAt ch * (cFmt x.cmd).width / 2048);
      at_ % 256 = 0 → at_ < 2 ^ 56 → s.spotVa x.org.part.toNat at_ 2 = .mem key → s.inOwnSet x.org true at_ = false →
      (∃ t y, exec (.collDelivery group seq ch expo data (payloadSum false data) hop) s = .next t ∧ (t.mem.row key).toNat = wordsBits data % 2 ^ 2048 ∧
        (∀ a, ¬ (key ≤ a ∧ a < key + 256) → t.mem.read a = s.mem.read a) ∧ t.coll? g q = some y ∧ (y.chunk ch).committed = true) ∧
      (∀ bad, bad ≠ payloadSum false data → ∃ t y, exec (.collDelivery group seq ch expo data bad hop) s = .next t ∧ t.coll? g q = some y ∧ (y.chunk ch).failed = true ∧
        (y.chunk ch).committed = false)) ∧
    (∀ (link : Fin 8) (n : BitVec 32) ok payload, s.running = false → exec (.linkFlit link n ok payload) s = .next s) ∧
    (∀ (link : Fin 8) (n : BitVec 32) payload, s.running = true → let next := tgetD s.links link.val 0; let b := fun i l => nbytes payload.toNat i l;
      let taken := { s with links := tset s.links link.val (n + 1) }.send (.flitAck link.val n true);
      exec (.linkFlit link n false payload) s = .next (s.send (.flitAck link.val n false)) ∧
      (next = n → b 0 1 = 0 ∨ 7 < b 0 1 → exec (.linkFlit link n true payload) s = .next taken) ∧
      (next = n → b 0 1 = 5 → b 1 1 ≠ s.pkgid.toNat →
        let goes := fun (m : OutMsg) => exec (.linkFlit link n true payload) s = .next (taken.ropeSend ⟨some (b 1 1), if b 2 1 = 0 then 0 else 1, link.val / 2, 128, m⟩);
        (b 3 1 ≠ 1 → goes (.transit payload)) ∧
        (b 3 1 = 1 → b 18 2 = 1 → b 6 2 = 0 → s.transits = [] →
          (transitSum [payload] = b 32 8 → goes (.transitChunk [payload])) ∧
          (transitSum [payload] ≠ b 32 8 → ∃ t, exec (.linkFlit link n true payload) s = .next t ∧ t.transits = [] ∧
            (b 24 8 = 0 → t.ropeOut = s.ropeOut ∧ t.fld .tcnt 0 23 0 = Min.min (s.fld .tcnt 0 23 0 + 1) (2 ^ 24 - 1)))) ∧
        (b 3 1 = 1 → 1 < b 18 2 → s.transits = [] → exec (.linkFlit link n true payload) s = .next { taken with transits := [payload] })) ∧
      (next = n → b 0 1 = 4 → ∃ t, exec (.linkFlit link n true payload) s = .next t ∧ tgetD t.links link.val 0 = n + 1 ∧ (b 1 1, b 2 2, b 4 1) ∈ t.podHalves ∧ t.mem = s.mem) ∧
      (next ≠ n → exec (.linkFlit link n true payload) s = .next (s.send (.flitAck link.val n (decide ((next - n).toNat < 2 ^ 31))))))

/-- R78 to R82, R116, R293, R399, R405 and R426: code pages, results and parked accesses. A context whose next page has no frame waits for it, and every context that waits resumes when it is loaded, its
bytes those of the image; a result that is due fills its register, poisoned when its row was; a parked access goes on once its page is mapped, and one to the host fails after 10 ms of a
link that is down. That RESULT_LAND lands a result of a snapshot too is read from R405 by inference (log 40). -/
def Obligations.FetchLandAndParkResults : Prop :=  ∀ (s : State) (core : Fin 128) (ctx : Fin 8) (l : Landing) (v : VReg) (p : Parked) (words : List Word) (page : Nat),
    let key := core.val * 8 + ctx.val
    let c := s.ctx key
    (let o : Offset := s.fetchAt key;
      let read := s.readPage c.part.toNat c.image (o.toNat / 4096);
      c.life = .running → c.wait = .none →
        (s.codeByte key o ≠ none → exec (.fetchFault core ctx) s = .next s) ∧
        (s.codeByte key o = none → (∀ x a, read ≠ .fail x a) → exec (.fetchFault core ctx) s = .next (s.setCtx key { c with pc := o, wait := .fetch o })) ∧
        (∀ x a, s.codeByte key o = none → read = .fail x a →
          exec (.fetchFault core ctx) s = .next ((s.setCtx key { c with pc := o }).takeTrap key cFetch 0 0 o o (o.setWidth 64) 0))) ∧
    (∀ o : Offset, c.life = .running → c.wait = .fetch o → page = o.toNat / 4096 → s.readPage c.part.toNat c.image page = .ok words → (s.core core.val).frames.length < 64 →
      ∃ t, exec (.pageLoad core ctx) s = .next t ∧ (t.ctx key).wait = .none ∧ (∀ k ∈ s.pageWaiters core.val c.part c.image page, (t.ctx k).wait = .none) ∧
        (∀ j < 4096, t.codeByte key (BitVec.ofNat 24 (page * 4096 + j)) = some ((words.getD j 0).setWidth 8)) ∧
        t.fld .fetchtune 0 55 24 = Min.min (s.fld .fetchtune 0 55 24 + 1) 0xFFFFFFFF ∧ t.mem = s.mem) ∧
    (Quiet s → c.inflight = [l] → l.value = some v → c.life = .running → c.comes l = true →
      let landed := fun (t : State) => (t.ctx key).inflight = [] ∧ (t.ctx key).emptyReg l.dst = false ∧
        (t.ctx key).poisonedReg l.dst = (l.poison.isSome && (match l.dst with | .s r => decide (r ≠ 0) | .v _ => true | .p _ | .c _ | .bt _ | .lc _ _ | .sys _ => false)) ∧
        (match l.dst with
         | .s r => (t.ctx key).getS r = if r = 0 then 0 else v.setWidth 64
         | .v r => (t.ctx key).getV r = v
         | .c r => (t.ctx key).getC r = (decide (r = 0) || v.getLsbD 0)
         | .p _ | .bt _ | .lc _ _ | .sys _ => True);
      (l.due ≤ s.now → (∃ t, exec (.resultLand core ctx) s = .next t ∧ landed t) ∧ (l.fromSnapshot = true → ∃ t, exec (.snapshotLand core ctx) s = .next t ∧ landed t)) ∧
      (s.now < l.due → exec (.resultLand core ctx) s = .next s ∧ exec (.snapshotLand core ctx) s = .next s)) ∧
    (s.parked.find? (fun x => decide (x.id = p.id)) = some p →
      (s.parkReady p = false → exec (.parkResume p.id) s = .next s) ∧
      (∀ q i, Quiet s → p.work = .copy q i → p.link = false → s.pageOf p.part.toNat p.va ≠ none → ∃ t, exec (.parkResume p.id) s = .next t ∧ (∀ x ∈ t.parked, x.id ≠ p.id) ∧
        (∀ y ∈ (t.quad q).copies, y.id = i → y.parked = none) ∧ t.mem = s.mem) ∧
      (p.link = false ∨ s.linkUp = true ∨ s.forHost p = false ∨ s.now < p.since + 22500000 → exec (.hostAccessTimeout p.id) s = .next s) ∧
      (∀ q i y, p.work = .copy q i → p.link = true → s.linkUp = false → s.forHost p = true → p.since + 22500000 ≤ s.now → Quiet s → p.id < s.nextId → (s.quad q).copies = [y] → y.id = i → s.heldCounter y = none →
        ∃ t, exec (.hostAccessTimeout p.id) s = .next t ∧ (∀ x ∈ t.parked, x.id ≠ p.id) ∧ (t.quad q).copies = []))

/-- R29, R30, R50 to R56, R59 to R68, R71, R76, R404, R417 and R418: work, teams and completion. A free context that is alone at its port takes the work chosen for it; a chunk comes from its
die's range, and after a steal of the upper half of the largest range when that is empty; the pool's card becomes a job; a team is placed, unless work of a higher level waits for its cores or its
carried overrun eats the slice, released with the tickets of its cores, stopped at the end of its slice, saved at its stop point, or has its slice renewed; a complete job leaves its record and
its slot. A save that waited for room counts as overrun, that of a handler whose job is complete
too (R76). That `freeSlot` is the lowest slot, and how work is chosen among equals, is the model's choice (log 16). -/
def Obligations.SchedulingResults : Prop :=  ∀ (s u : State) (core : Fin 128) (ctx : Fin 8) (job : Fin 4096) (j : Job) (lvl : Nat) (ra : Roundabout) (port : Bool × Nat),
    let key := core.val * 8 + ctx.val
    let d := dieOf key
    let part := s.quadPart (quadOf key)
    let running := fun (t : State) (pc : Offset) => (t.ctx key).life = .running ∧ (t.ctx key).wait = .none ∧ (t.ctx key).pc = pc ∧ (t.ctx key).sup = false
    let alone := (s.die port.2).reqs port.1 = [] ∧ (s.die d).hubReqs = []
    (s.wants key = none → exec (.takeWork core ctx) s = .next s ∧ exec (.chunkTake core ctx) s = .next s ∧ exec (.chunkSteal core ctx) s = .next s) ∧
    (∀ level i e, s.wants key = some (lvl, .queued level i, ra, some port) → alone → (tgetD s.taskQueues (queueKey part level) [])[i]? = some e →
        ∃ t, exec (.takeWork core ctx) s = .next t ∧ running t e.1.pc ∧ (t.ctx key).ticket = e.1.ticket ∧ (∀ r : Fin 64, r ≠ 0 → (t.ctx key).getS r = e.1.s.getD (r.val - 1) 0) ∧
          tgetD t.taskQueues (queueKey part level) [] = (tgetD s.taskQueues (queueKey part level) []).eraseIdx i) ∧
    (∀ words, s.wants key = some (lvl, .chunk job.val, ra, some port) → alone → s.job? job.val = some j → (s.die d).lastStamp ≠ some s.tbase.toNat → j.argSize = 8 * words.length →
        let own := s.range job.val d;
        let left := fun (v : Nat) => (s.range job.val v).2 - (s.range job.val v).1;
        let chunk := fun (r : Nat × Nat) => chunkSize (r.2 - r.1) j.chunkDiv (s.coresOn j.part d) j.chunkMin;
        let reads := fun (lo : Nat) => s.readArgs j.part (j.argBase + lo * j.argSize) words.length = .ok words;
        (own.1 < own.2 → reads own.1 → ∃ t, exec (.chunkTake core ctx) s = .next t ∧ running t j.entry ∧ t.range job.val d = (own.1 + chunk own, own.2) ∧
          (t.ctx key).taskIndex = BitVec.ofNat 32 own.1) ∧
        (∀ v, own.2 ≤ own.1 → v < 4 → (∀ w < 4, left w ≤ left v ∧ (w < v → left w < left v)) →
          let r := s.range job.val v;
          let lo := r.2 - (r.2 - r.1 + 1) / 2;
          r.1 < r.2 → reads lo → ∃ t, exec (.chunkSteal core ctx) s = .next t ∧ running t j.entry ∧ t.range job.val v = (r.1, lo) ∧ t.range job.val d = (lo + chunk (lo, r.2), r.2))) ∧
    (∀ (p : BitVec 4) card slot, s.pool = [(p, card)] → s.held = [] → (∀ x ∈ s.parked, x.work ≠ .poolCard p card) → s.checkCard (some p.toNat) card = .ok → s.freeSlot = some slot → s.rootHeld (jobOf card 0) = [] →
      ∃ t x, exec .poolDuty s = .next t ∧ t.pool = [] ∧ t.job? slot = some x ∧ x.card = card) ∧
    (s.job? job.val = some j →
      let phase := fun (t : State) (f : Team → Prop) => ∃ y z, t.job? job.val = some y ∧ y.team = some z ∧ f z;
      (∀ k, j.complete = true → (∀ x ∈ s.parked, x.work ≠ .record job.val) → s.spotVa j.part j.done 2 64 = .mem k → k % 64 = 0 → s.mem.poisoned k = false →
        ∃ t, exec (.completionRecord job) s = .next t ∧ t.job? job.val = none ∧ t.mem.readLe k 64 = j.recordBytes job.val ∧ ∀ a, ¬ (k ≤ a ∧ a < k + 64) → t.mem.read a = s.mem.read a) ∧
      (∀ team place release, j.team = some team → team.waits = true → s.placesOk j place = true → s.teamFirst job.val j team = false → s.teamHeld job.val = false → s.now ≤ release →
        release ≤ s.now + 256 + s.fld .schedtune 0 23 0 → (∀ x ∈ place, s.placeFree job.val j x = true) →
        (s.higherWaits j place = true → exec (.teamPlace job place release) s = .next (s.modTeam job.val fun z => { z with places := place })) ∧
        (s.higherWaits j place = false → s.sliceLen j.part ≤ team.carried → ∃ t, exec (.teamPlace job place release) s = .next t ∧
          phase t fun z => z.phase = team.phase ∧ z.places = [] ∧ z.carried = team.carried - s.sliceLen j.part) ∧
        (s.higherWaits j place = false → team.carried < s.sliceLen j.part → s.placeTeam job.val j team place release = some u → exec (.teamPlace job place release) s = .next u ∧
          phase u fun z => z.phase = .placed ∧ z.places = place ∧ z.release = release ∧ z.sliceEnd = release + (s.sliceLen j.part - team.carried))) ∧
      (∀ team, j.team = some team → team.phase = .placed → team.release ≤ s.now → team.firstRelease = none → (∀ x ∈ team.places, (s.core x.core.val).lastStamp ≠ some s.tbase.toNat) →
        (team.places.map fun x => x.core).Nodup → ∃ t, exec (.teamRelease job) s = .next t ∧ (phase t fun z => z.phase = .running ∧ z.firstRelease = some team.release) ∧
        ∀ x ∈ team.places, (s.ctx (placeKey x)).ofTeam job.val = true → (s.ctx (placeKey x)).life = .stopped → (s.ctx (placeKey x)).wait = .release →
          (t.ctx (placeKey x)).life = .running ∧ (t.ctx (placeKey x)).wait = .none ∧ (t.ctx (placeKey x)).ticket = ticketOf j.prio s.tbase x.core.val) ∧
      (∀ team, j.team = some team → team.phase = .running → team.sliceEnd ≤ s.now + j.drain → s.hasWaiter job.val j team = true → ∃ t, exec (.sliceStopRequest job) s = .next t ∧
        (phase t fun z => z.phase = .stopping ∧ z.stopAt = some s.now) ∧
        ∀ x ∈ team.places, (s.ctx (placeKey x)).ofTeam job.val = true → (s.ctx (placeKey x)).life = .running → (s.ctx (placeKey x)).stopReq = false →
          (t.ctx (placeKey x)).life = .stopped) ∧
      (∀ team, j.team = some team → team.phase = .running → team.sliceEnd ≤ s.now → s.hasWaiter job.val j team = false → s.teamMoving team = false → ∃ t,
        exec (.sliceEnd job) s = .next t ∧ phase t fun z => z.phase = .running ∧
          z.sliceEnd = team.sliceEnd + (s.sliceLen j.part - Min.min team.carried (s.sliceLen j.part)) ∧ z.carried = team.carried - Min.min team.carried (s.sliceLen j.part)) ∧
      (∀ team, j.team = some team → team.phase = .stopping → s.teamDrained job.val team = true →
        (s.saveMembers job.val j team.places = .done u → ∃ t, exec (.stopPoint job) s = .next t ∧ phase t fun z => z.phase = .swapped ∧ z.places = []) ∧
        ((∃ o q l, s.saveMembers job.val j team.places = .wait o q l) ∨ s.saveMembers job.val j team.places = .noRoom → ∃ t, exec (.stopPoint job) s = .next t ∧ phase t fun z => z.phase = .stopped ∧ z.stopPoint = some (team.stopPoint.getD s.now)) ∧
        (∀ a, s.saveMembers job.val j team.places = .bad a → ∃ t, exec (.stopPoint job) s = .next t ∧ phase t fun z => z.phase = .stopped ∧ z.stopPoint = none))) ∧
    (∀ c, (∀ x, s.job? job.val = some x → x.team = none) → s.ctxs = [(key, c)] → c.job.toNat = job.val → c.stopReq = true → c.logical = 0xFF → c.life = .stopped →
      s.held = [] → s.saved = [] →
      let save := s.saveCtx key (c.lockFor.isNone) [];
      (save = .done u → exec (.saveRetry job) s = .next (u.overrun c.part.toNat (s.now - c.roomSince.getD s.now)) ∧ (u.ctx key).life = .free ∧ u.saved.length = 1) ∧
      ((∃ o q l, save = .wait o q l) ∨ save = .noRoom → ∃ t, exec (.saveRetry job) s = .next t ∧ (t.ctx key).life = .stopped ∧ (t.ctx key).stopReq = true ∧
        t.saved = s.saved ∧ t.mem = s.mem))

/-- R3, R306, R398, R412, R419, R422 and R434 to R436: time and the hardware around the cores. A tick moves the timebase one nanosecond and the arithmetic clock nine quarters of a cycle, less or more by a slew (how a slew shows in the clock is the model's choice: log 5), after the events of the cycle have entered the ring; LATE falls by
LEAK and takes the cycle's additions; a watchdog that has run out takes its trap; an ECC error is counted, and poisons where it lies when it is not corrected; one of a
task record takes it out of its queue and abandons it (the model's choice: log 45); the power level follows the
window's average against the cap in force, a write of which counts from the next window on, and a die of 105 degrees forces 7; at 120 degrees, or without coolant, the module halts and says so on its management pins. -/
def Obligations.TimeAndHardwareResults : Prop :=  ∀ (s : State) (e : Fin 4) (core : Fin 128) (ctx : Fin 8) (faster : Bool) (avg : BitVec 16) (celsius : Nat),
    let key := core.val * 8 + ctx.val
    let c := s.ctx key
    let cap := s.fld .pwrcap 0 15 0
    let tail := s.fld .evtail 0 31 0
    let n := s.fld .eventries 0 16 0
    (∃ t, exec .timebaseTick s = .next t ∧ t.tbase = s.tbase + 1 ∧ t.quarters = s.quarters + (9 - 9 * s.slew).toNat ∧ t.slew = 0 ∧ (s.evPending = [] → t.mem = s.mem) ∧
      ∀ k, t.ctx k = { s.ctx k with held := false }) ∧
    (∀ src bytes, s.evPending = [(src, bytes)] →
      let full := n = 0 ∨ (tail + 2 ^ 32 - s.fld .evhead 0 31 0) % 2 ^ 32 = n ∨ s.linkUp = false;
      let a := 2 ^ 51 + s.fld .evbase 0 50 0 + tail % n * 64;
      (full → ∃ t, exec .timebaseTick s = .next t ∧ t.mem = s.mem ∧ t.fld .evtail 0 31 0 = tail ∧ t.fld .evtail 0 63 32 = Min.min (s.fld .evtail 0 63 32 + 1) (2 ^ 32 - 1)) ∧
      (¬ full → a % 64 = 0 → a < 2 ^ 52 → s.mem.poisoned a = false → ∃ t, exec .timebaseTick s = .next t ∧ t.mem.readLe a 64 = bytes % 256 ^ 64 ∧
        (∀ z, ¬ (a ≤ z ∧ z < a + 64) → t.mem.read z = s.mem.read z) ∧ t.fld .evtail 0 31 0 = (tail + 1) % 2 ^ 32)) ∧
    (s.linkUp = true → (∀ v, s.lastSlew = some v → v + 1000 ≤ s.tbase.toNat) →
      exec (.ptmUpdate faster) s = .next { s with slew := if faster then 1 else -1, lastSlew := some s.tbase.toNat }) ∧
    (s.linkUp = false ∨ (∃ v, s.lastSlew = some v ∧ s.tbase.toNat < v + 1000) → exec (.ptmUpdate faster) s = .next s) ∧
    (∃ t, exec (.lateDecay e) s = .next t ∧ (t.wheel e.val).added = 0 ∧
      t.fld .wlate e.val 55 0 = Min.min (s.fld .wlate e.val 55 0 - s.fld .wthr1 e.val 63 48 + (s.wheel e.val).added) (2 ^ 56 - 1) ∧
      t.fld .wlate e.val 58 56 = t.wheelLevel e.val) ∧
    (c.wait = .none → s.watchdogDue key = false → exec (.watchdog core ctx) s = .next s) ∧
    (∀ a, c.wait = .none → s.watchdogDue key = true → c.seq = false → c.trapvec ≠ 0 → s.journal? c.ticket = none →
      s.reach c.part.toNat (quadOf key) (c.traparea.toNat / 128 * 128) = .ok a → s.mem.poisoned (localKey a) = false →
      ∃ t, exec (.watchdog core ctx) s = .next t ∧ (t.ctx key).sup = true ∧ (t.ctx key).pc = c.trapvec ∧ (t.ctx key).epc = c.pc ∧ (t.ctx key).exfer = c.xfer ∧
        (t.ctx key).xfer = 0 ∧ (t.ctx key).estat = 0x13 ∧ t.mem.read (localKey a) = 0x13 ∧ SameOthers s t key) ∧
    (∀ site, ∃ t, exec (.eccError site true) s = .next t ∧ t.fld .eccstat 0 31 0 = Min.min (s.fld .eccstat 0 31 0 + 1) (2 ^ 32 - 1) ∧ t.fld .eccstat 0 63 32 = s.fld .eccstat 0 63 32 ∧
      t.mem = s.mem ∧ t.ctxs = s.ctxs ∧ t.quads = s.quads ∧ t.bdq = s.bdq) ∧
    (∀ a, onPackage a = true → ∃ t, exec (.eccError (.row a) false) s = .next t ∧ t.mem.poisoned a = true ∧ t.fld .eccstat 0 63 32 = Min.min (s.fld .eccstat 0 63 32 + 1) (2 ^ 32 - 1) ∧
      (∀ b, t.mem.read b = s.mem.read b) ∧ ∀ b, rowOf b ≠ rowOf a → t.mem.poisoned b = s.mem.poisoned b) ∧
    (∀ (part : Fin 16) (level : Fin 32) (n : Nat) r, let q := queueKey part.val level.val; let l := tgetD s.taskQueues q []
      l[n]? = some r → ∃ t, exec (.eccError (.record part level n) false) s = .next t ∧ tgetD t.taskQueues q [] = l.eraseIdx n ∧ t.ctxs = s.ctxs) ∧
    (∀ r : Fin 64, r ≠ 0 → ∃ t, exec (.eccError (.scalar core ctx r) false) s = .next t ∧ (t.ctx key).poisonedReg (.s r) = true ∧ ∀ x, (t.ctx key).getS x = c.getS x) ∧
    (∃ t, exec (.powerWindow avg) s = .next t ∧ t.fld .pwrstat 0 15 0 = avg.toNat ∧ t.capInForce = cap ∧
      (s.hot ≠ [] → t.plevel = 7) ∧ (s.hot = [] → cap = 0 → t.plevel = 0) ∧
      (s.hot = [] → cap ≠ 0 → (cap < avg.toNat → t.plevel = Min.min 7 (s.plevel + 1)) ∧ (avg.toNat * 100 < cap * 95 → t.plevel = s.plevel - 1) ∧
        (avg.toNat ≤ cap → cap * 95 ≤ avg.toNat * 100 → t.plevel = s.plevel))) ∧
    (105 ≤ celsius → ∃ t, exec (.thermalTrip e celsius) s = .next t ∧ e.val ∈ t.hot ∧ t.plevel = 7 ∧ t.halted = (s.halted || decide (120 ≤ celsius)) ∧
      t.outbox = s.outbox ++ (if s.halted = false ∧ 120 ≤ celsius then [(none, .halt)] else [])) ∧
    (celsius < 105 → exec (.thermalTrip e celsius) s = .next s) ∧
    (celsius < 100 → e.val ∈ s.hot → ∃ t, exec (.thermalRelease e celsius) s = .next t ∧ e.val ∉ t.hot ∧ (t.hot = s.hot.filter fun d => decide (d ≠ e.val)) ∧
      t.plevel = if t.hot = [] ∧ s.capInForce = 0 then 0 else s.plevel) ∧
    (100 ≤ celsius ∨ e.val ∉ s.hot → exec (.thermalRelease e celsius) s = .next s) ∧
    (s.halted = false → exec .coolantLoss s = .next { s with halted := true, outbox := s.outbox ++ [(none, .halt)] }) ∧ (s.halted = true → exec .coolantLoss s = .next s) ∧
    (∃ t, exec .powerAlarm s = .next t ∧ t.fld .pwrstat 0 19 19 = 1 ∧ t.plevel = s.plevel)

/-- R423, R424, R426 to R428, R432 and R433: ports, host accesses, and the management of the module. A port shows what it trained to, and its loss; the loss of port 0 leaves the module without an owner. A host line in
host view is read or written, and may be held by the host from then on (the model's choice: log 33); one out of it is unsupported; in recovery none is served. A claim of agent 1, made or confirmed, settles the transport over which it is heard, and messages that are not heard
have no effect (which transport is heard before any claim, and that a claim is heard on both, is the model's choice: log 41). Sensors, attestation (the order of whose fields is the model's choice: log 17) and the inactive bank answer as asked; a reset runs the first bank whose image verifies and is not too
old, raises the fused minimum to its version, and forgets the rest of the module: that memory then reads zero, that
a register without a stated reset value is zero, and that PKGID is 0 until the management sets it, are the model's choices (logs 1, 2 and 7). -/
def Obligations.PortAndManagementResults : Prop :=  ∀ (s : State) (port : Fin 4) (width : BitVec 5) (rate : BitVec 8) (agent : Nat) (sensor : Fin 11) (values : List (BitVec 32)) (image : BankImage) (nonce : BitVec 256) (src : Option (BitVec 8))
    (offset : BitVec 40) (line : BitVec 512) (dec : Fin 2),
    let o := offset.toNat / 64 * 64
    let pa := (if dec = 0 then 0x10000000000 else 0) + o
    let cause := fun (b : Fin 2) => bankCause s.banks[b] s.fusedMin
    (width = 8 ∨ width = 16 → rate = 32 ∨ rate = 64 → ∃ t, exec (.portLinkUp port width rate) s = .next t ∧ t.fld .hlink port.val 4 0 = width.toNat ∧
      t.fld .hlink port.val 12 5 = rate.toNat ∧ t.fld .hlink port.val 13 13 = 1 ∧ (port = 0 → t.linkUp = true)) ∧
    (∃ t, exec .port0LinkDown s = .next t ∧ t.linkUp = false ∧ t.vacant = true ∧ t.reg ⟨.hlink, 0⟩ = 0 ∧
      (s.vacant = false → t.fld .owner 0 31 16 = (s.fld .owner 0 31 16 + 1) % 2 ^ 16)) ∧
    (port ≠ 0 → exec (.portLinkDown port) s = .next (s.setReg ⟨.hlink, port.val⟩ 0)) ∧
    (s.linkUp = true → s.running = true → dec = 0 ∨ o < 0x3000000000 → s.hostView pa = true → s.mem.poisoned pa = false →
      (∃ t, exec (.hostMemAccess dec offset none) s = .next t ∧ t.outbox = s.outbox ++ [(none, .hostData (BitVec.ofNat 512 (s.mem.readLe pa 64)))] ∧ t.mem = s.mem ∧ pa ∈ t.hostLines) ∧
      ∃ t, exec (.hostMemAccess dec offset (some line)) s = .next t ∧ t.mem.readLe pa 64 = line.toNat ∧ (∀ a, ¬ (pa ≤ a ∧ a < pa + 64) → t.mem.read a = s.mem.read a) ∧
        pa ∈ t.hostLines ∧ ((∀ l ∈ s.hostLines, l % 64 = 0) → t.outbox = s.outbox)) ∧
    (s.linkUp = false ∨ s.running = false → exec (.hostMemAccess dec offset none) s = .next s ∧ exec (.hostMemAccess dec offset (some line)) s = .next s) ∧
    (s.linkUp = true → s.running = true → (dec = 1 ∧ 0x3000000000 ≤ o) ∨ s.hostView pa = false →
      exec (.hostMemAccess dec offset none) s = .next ((s.send .unsupported).send (.hostData (BitVec.allOnes 512))) ∧
      exec (.hostMemAccess dec offset (some line)) s = .next (s.send .unsupported)) ∧
    (∀ body, mctpClaims body = true → s.mctpServed src true = some 1 → s.isOwner 1 = true → ∃ t, exec (.mctpWrite src body) s = .next t ∧
      t.isOwner 1 = true ∧ t.bmcI3c = some src.isNone ∧ t.mctpServed src false = some 1) ∧
    (src = none → s.bmcI3c = some false → s.mctpServed src false = none) ∧
    (s.mctpServed src false = none → exec (.pldmSensorRead src sensor) s = .next s ∧ exec (.attestationRequest src nonce) s = .next s ∧
      exec (.pldmFwUpdate ⟨src, image⟩) s = .next s) ∧
    (s.mctpServed src false = some agent → s.running = true →
      exec (.pldmSensorRead src sensor) s = .next { s with outbox := s.outbox ++ [(none, .sensor agent sensor.val (s.sensors.getD sensor.val 0))] } ∧
      ∃ body, exec (.attestationRequest src nonce) s = .next (s.send (.attestation agent body (Config.ed25519Sign body) (Config.mldsaSign body) Config.certificates)) ∧
        body = bytesOf Config.bootRomDigest.toNat 48 ++ bytesOf (s.banks[s.activeBank]).digest.toNat 48 ++ bytesOf (s.banks[s.activeBank]).svn.toNat 4 ++ bytesOf s.fusedMin.toNat 4 ++
          bytesOf s.pkgid.toNat 1 ++ bytesOf nonce.toNat 32) ∧
    (values.length = 11 → exec (.sensorUpdate values) s = .next { s with sensors := values }) ∧
    (s.mctpServed src false = some agent → ∃ t, exec (.pldmFwUpdate ⟨src, image⟩) s = .next t ∧ t.banks[1 - s.activeBank] = image ∧ t.banks[s.activeBank] = s.banks[s.activeBank] ∧ t.activeBank = s.activeBank ∧
      (image.ed25519Ok = true ∧ image.mldsaOk = true ∧ s.fusedMin ≤ image.svn → t.nextBank = 1 - s.activeBank)) ∧
    (∃ t, exec .moduleReset s = .next t ∧ t.ctxs = [] ∧ t.queues = [] ∧ t.jobs = [] ∧ t.pages = [] ∧ t.tbase = 0 ∧ t.pkgid = 0 ∧ t.halted = false ∧ t.linkUp = false ∧ t.vacant = true ∧
      t.banks = s.banks ∧ (∀ a, beyondModule a = false → t.mem.read a = 0) ∧ (∀ a, beyondModule a = true → t.mem.read a = s.mem.read a) ∧
      (cause s.nextBank = 0 → t.running = true ∧ t.activeBank = s.nextBank ∧ t.fusedMin.toNat = Max.max s.fusedMin.toNat (s.banks[s.nextBank]).svn.toNat) ∧
      (cause s.nextBank ≠ 0 → cause (1 - s.nextBank) = 0 → t.running = true ∧ t.activeBank = 1 - s.nextBank) ∧
      (cause s.nextBank ≠ 0 → cause (1 - s.nextBank) ≠ 0 → t.running = false ∧ t.fusedMin = s.fusedMin ∧ t.fld .secstat 0 0 0 = 1 ∧ t.fld .secstat 0 3 1 = cause s.nextBank))

/-! ### The step, decoding, frames, reset and the invariant (R83 to R94, R110 to R127, R148, R263, R391, R432, R436) -/

/-- R84, R85, R90 to R95, R102, R110 to R124, R131, R391 and R400: when the agenda is empty and no earlier core has anything to do, a core dispatches the bundle that the context
chosen by R121 fetches. A zero header byte, a bundle that crosses its fetch line, illegal slots (with their mask), an illegal delay bundle and a privileged slot trap before any slot runs; a bundle without
room for its results is not dispatched. A legal bundle of any slots runs them in order, a late control operation after the context has moved past the bundle; the first trap in order of header bit
is taken in the state before the bundle, its mask naming every slot that traps with its cause; a slot that waits leaves the context as it was, held until something changes; else the
context stands where R84, its transfer (R123) and the decision of R131 leave it. The order of cores and contexts
(`nextCore`, `turnOf`, `dispatched`) is the model's (logs 4, 5 and 16); that a slot that waits holds its whole bundle (R112 lets the other slots slip), that late control operations run after the
context has moved, and what a held bundle counts from, are too (logs 10 and 20). -/
def Obligations.StepRunsTheDecodedBundle : Prop :=  ∀ (s : State) (core : Fin 128) (k : Nat) (h : Byte),
    s.halted = false → s.agenda = [] → s.hostPuts = [] → s.nextCore ≤ core.val → (∀ i < core.val, s.nextCore ≤ i → s.pickCtx i = none) →
    (∀ n < core.val * 8 + 8, s.nextCore * 8 ≤ n → s.dueLanding n = false) → s.pickCtx core.val = some k → s.watchdogDue k = false →
    let o := s.fetchAt k
    let len := bundleLength h
    let at_ := { s with nextCore := core.val + 1 }.modCtx k fun x => { x with pc := o }
    let c := at_.ctx k
    let t := at_.dispatched k
    let d := t.ctx k
    let issued := t.issueAt k o len
    let l := slotWords (headerSlots h) ((at_.bundleBytes k o len).drop 1)
    let ws := (decodeWords l).filterMap (·.2)
    let stepsTo := fun (x : State) => step s = .next (s.turnOf core.val x)
    let traps := fun (cause : Cause) (mask head : Nat) (fa : Word) => stepsTo (t.takeTrap k cause mask head o o fa 0)
    let full := 64 < c.inflight.length + (c.fixedAfter s.now).length + ((ws.map fun w => newResults c w.op).sum + (fixedResults c s.now (ws.map (·.op))).length)
    let pending := c.plainPending (ws.map (·.op))
    let noDelay := xferLeft c.xfer ≠ 0 ∧ ((∃ w ∈ ws, notInDelay w.op = true) ∨ ∃ n : Fin 4, c.lc[n].cnt ≠ 0 ∧ c.lc[n].fin = o)
    let moved := fun (x : State) (skip : Option Offset) => x.modCtx k fun y => commitCtx y d o len skip
    (at_.codeByte k o = none → ∀ u, exec (.fetchFault core (Fin.ofNat 8 k)) at_ = .next u → stepsTo u) ∧
    (at_.codeByte k o = some 0 → traps cBadTarget 0 0 (o.setWidth 64)) ∧
    (at_.codeByte k o = some h → h ≠ 0 →
      (64 < o.toNat % 64 + len → traps cIllegalBundle 0 h.toNat 0) ∧
      (o.toNat % 64 + len ≤ 64 → (∀ mask, MaskOf mask (IllegalSlot c.vregs len l) → mask ≠ 0 → traps cIllegalBundle 0 mask 0) ∧
        ((∀ u, ¬ IllegalSlot c.vregs len l u) →
          l.map (·.1) = ws.map (·.slot) ∧ (noDelay → traps cIllegalDelay 0 0 0) ∧
          (¬ noDelay → c.sup = false → ∀ mask, MaskOf mask (fun u => ∃ w ∈ ws, w.slot = u ∧ isPrivileged w.op = true) → mask ≠ 0 → traps cPriv mask 0 0) ∧
          (¬ noDelay → (c.sup = true ∨ ∀ w ∈ ws, isPrivileged w.op = false) →
            (pending = true → stepsTo (t.modCtx k fun x => { x with held := true, begun := true })) ∧
            (pending = false → full → stepsTo ((at_.anchorCtx k).modCtx k fun x => { x with held := true })) ∧
            (pending = false → ¬ full → ∀ (e f : State) (early late : List (Slot × SlotOutcome)), Ran (ws.filter fun w => !isLate w.op) issued e early →
              Ran (ws.filter fun w => isLate w.op) ((moved e e.issue.skip).modCtx k fun y => y.commits s.now (fixedResults d s.now (ws.map (·.op)))) f late →
              let stops := early ++ late
              (stops = [] → stepsTo (f.idle.leaveFull k)) ∧
              (∀ u cause fa info mask, (u, .trapped cause fa info) ∈ stops → (∀ x ∈ stops, x.2 ≠ .waiting → u.bit ≤ x.1.bit) →
                MaskOf mask (fun v => ∃ a i, (v, .trapped cause a i) ∈ stops) → stepsTo (issued.takeTrap k cause mask 0 o o fa info).idle) ∧
              (stops ≠ [] → (∀ x ∈ stops, x.2 = .waiting) → ∀ w u, ws.find? (fun w => decide (w.slot ∈ stops.map (·.1))) = some w →
                let base := if isLate w.op then moved issued f.issue.skip else issued
                exec w.op { base with issue := { base.issue with slot := w.slot, out := .ok } } = .next u →
                stepsTo (u.setCtx k { d with wait := (u.ctx k).wait, held := true, begun := true }).idle)))))) ∧
    (∀ (y : Ctx) (skip : Option Offset), let z := commitCtx y c o len skip; let live := fun (n : Fin 4) => y.lc[n].cnt ≠ 0 ∧ y.lc[n].fin = o;
      let next := skip.getD (o + BitVec.ofNat 24 len);
      (c.sup = true → z.lc = y.lc) ∧
      (c.sup = false → (∀ n : Fin 4, (∀ m : Fin 4, n < m → live m → y.lc[m].cnt = 1) →
        (¬ live n → z.lc[n] = y.lc[n]) ∧ (live n → y.lc[n].cnt = 1 → z.lc[n] = { y.lc[n] with cnt := 0 }) ∧
        (live n → y.lc[n].cnt ≠ 1 → z.lc[n] = { y.lc[n] with cnt := y.lc[n].cnt - 1, idx := c.lc[n].idx + 1 } ∧ (∀ m < n, z.lc[m] = y.lc[m]) ∧
          (xferLeft c.xfer = 0 → z.pc = y.lc[n].beg ∧ z.seq = false)))) ∧
      (xferLeft c.xfer = 0 → (c.sup = true ∨ ∀ n, live n → y.lc[n].cnt = 1) → z.pc = next ∧ z.seq = skip.isNone) ∧
      (xferLeft c.xfer = 1 → z.pc = xferTarget c.xfer ∧ z.seq = false ∧ z.xfer = 0) ∧
      (1 < xferLeft c.xfer → z.pc = o + BitVec.ofNat 24 len ∧ z.seq = true ∧ xferLeft z.xfer = xferLeft c.xfer - 1 ∧ xferTarget z.xfer = xferTarget c.xfer))

/-- R424, R425, R436 and log entry 4: the event at the head of the agenda is what a step runs, and nothing else; a slot operation there is dropped, since only a bundle runs one; a write of a
host agent there writes its row of host memory, and no other; the answer to a snoop there frees its line; with nothing on the agenda and no core that can act, the other agents act and the timebase
ticks. While a read-modify-write of host memory has read and not written, its write comes before anything else but the write of a host agent. A halted module stops at every step but
MODULE_RESET. That a wire may alter a command's next unit or a message's element, and when, are happenings of the model (log 27). -/
def Obligations.StepRunsTheNextEvent : Prop :=  ∀ (s : State) (i : Instr) (rest : List Act) (row line quad id bits msg elem : Nat) (data : Row) (mask : BitVec 256) (puts : List (Nat × Row × BitVec 256)),
    let now := { s with agenda := rest }
    (s.hostPuts = [] → s.agenda = .event i :: rest → s.halted = false ∨ i = .moduleReset → isSlotOp i = false → step s = exec i now) ∧
    (s.hostPuts = [] → s.agenda = .event i :: rest → s.halted = false → isSlotOp i = true → step s = .next now) ∧
    (s.hostPuts = puts → s.agenda = .hostStore row data mask :: rest → s.halted = false →
      (2 ^ 51 ≤ row → row < 2 ^ 52 → row % 256 = 0 → mask ≠ 0 → ∃ t, step s = .next t ∧ t.mem = s.mem.writeRow row data mask ∧ t.hostPuts = puts) ∧
      (row < 2 ^ 51 ∨ 2 ^ 52 ≤ row → step s = .next now)) ∧
    (∀ k, s.hostPuts = [(k, data, mask)] → s.halted = false → (∀ r d m, s.agenda.head? ≠ some (.hostStore r d m)) → mask ≠ 0 →
      ∃ t, step s = .next t ∧ t.mem = s.mem.writeRow k data mask ∧ t.hostPuts = [] ∧ ∀ a ∈ s.agenda, a ∈ t.agenda) ∧
    (s.hostPuts = [] → s.halted = false →
      (s.agenda = .snoopDone line :: rest → Quiet s → ∃ t, step s = .next t ∧ line ∉ t.hostLines ∧ line ∉ t.snoops ∧ t.mem = s.mem ∧ ∀ x, x ≠ line → (x ∈ t.hostLines ↔ x ∈ s.hostLines) ∧ (x ∈ t.snoops ↔ x ∈ s.snoops)) ∧
      (s.agenda = .flipCopy quad id bits :: rest → ∃ t, step s = .next t ∧ t.mem = s.mem ∧ (∀ q, q ≠ quad → t.quad q = s.quad q) ∧
        (∀ c ∈ (t.quad quad).copies, c.id = id → c.wire = bits) ∧ ∀ c ∈ (s.quad quad).copies, c.id ≠ id → c ∈ (t.quad quad).copies) ∧
      (s.agenda = .flipRope msg elem bits :: rest → ∃ t, step s = .next t ∧ t.mem = s.mem ∧ t.ropeOut.length = s.ropeOut.length ∧ (∀ n, n ≠ msg → t.ropeOut[n]? = s.ropeOut[n]?) ∧
        ∀ x, s.ropeOut[msg]? = some x → t.ropeOut[msg]? = some { x with msg := x.msg.flip elem bits })) ∧
    (s.halted = true → s.agenda.head? ≠ some (.event .moduleReset) → step s = .fault .halted) ∧
    (s.hostPuts = [] → s.agenda = [] → s.halted = false → (∀ c < 128, s.nextCore ≤ c → s.pickCtx c = none ∧ ∀ n < 8, s.dueLanding (c * 8 + n) = false) →
      step s = exec .timebaseTick { s.autonomous with nextCore := 0 })

/-- R83 to R101: every well-formed slot word is read back from its encoding, which fits its slot, and a word that decodes is the encoding of what it decodes to; a bundle of well-formed words in
ascending order of header bit is read back from its bytes. -/
def Obligations.DecodeAndEncodeAgree : Prop :=  (∀ x : SlotWord, x.wf = true → x.encode < 2 ^ (8 * x.slot.bytes) ∧ decodeSlot x.slot x.encode = some x) ∧
  (∀ (t : Slot) (w : Nat) (x : SlotWord), decodeSlot t w = some x → x.slot = t ∧ x.wf = true ∧ x.encode = w) ∧
  (∀ ws : List SlotWord, (∀ x ∈ ws, x.wf = true) → (ws.map fun x => x.slot.bit).Pairwise (· < ·) →
    (encodeBundle ws).length = bundleLength (bundleHeader ws) ∧
    decodeWords (slotWords (headerSlots (bundleHeader ws)) ((encodeBundle ws).drop 1)) = ws.map fun x => (x.slot, some x))

/-- R86 to R101 and R127: words written out from the spec's encodings decode to the instructions they stand for. -/
def Obligations.WordsDecode : Prop :=  decodeSlot .ctl 0x013FFFC0 = some ⟨.ctl, false, .prep 0 0x3FFFC0⟩ ∧ decodeSlot .ctl 0x14004142 = some ⟨.ctl, false, .waita 4 5 2⟩ ∧
  decodeSlot .ctl 0x08089040 = some ⟨.ctl, false, .loop 2 9 0x40⟩ ∧ decodeSlot .ctl 0x09464047 = some ⟨.ctl, false, .loopi 1 100 0x47⟩ ∧
  decodeSlot .sca 0x27104000 = some ⟨.sca, false, .ldi 4 0x4000⟩ ∧ decodeSlot .adr 0xA8120020 = some ⟨.adr, true, .ldhi 4 2 0x20⟩ ∧
  decodeSlot .va 0x010203040000 = some ⟨.va, false, .vadd 2 3 4 0 (.column 0)⟩ ∧ decodeSlot .vb 0x500000000000 = none ∧
  decodeSlot .mat 0x010005000000 = some ⟨.mat, false, .ttask 5⟩ ∧ decodeSlot .mem 0x010708000003 = some ⟨.mem, false, .vld 7 8 3⟩ ∧
  decodeSlot .com 0x0108A003 = some ⟨.com, false, .send 2 0x28 3⟩ ∧ decodeSlot .ctl 0x17000000 = none

/-- R110, R119, R148, R206 and R263: frames. Writing one register of the bundle's context changes that register, its emptiness and its poison, and nothing else of the machine; s0 and c0 take no write. An operation of the
MAT, MEM and COM slots that goes on changes no register's value, no special register and no pc of its context: only emptiness, results and commands under way, fences, sets and its wait; all of memory stays but
for the stores, whose bytes `StoreResults` states, a receive that answers a saved context, whose log item goes to its save area (R346), AJNL, which may clear rows of the journal area of its task, and CTXSV,
which writes rows of its image. TLATE, CHQRY and HQRY write one register; HRECH and CTXLD leave the context that issues them. Memory holds what is written to it; on a poisoned row a masked write is
discarded and a full one clears the poison (R268). -/
def Obligations.FramesAndMemoryWrites : Prop :=  (∀ (s : State) (d : Fin 64) (x : Word), (putS s d x).me = (if d = 0 then s.me else { s.me with s := s.me.s.set d x, sFull := setBit s.me.sFull d.val true, sPoison := setBit s.me.sPoison d.val false }) ∧
    SameModule s (putS s d x) ∧ SameOthers s (putS s d x) s.issue.key ∧ ∀ r : Fin 64, (putS s d x).me.getS r = if r = d ∧ d ≠ 0 then x else s.me.getS r) ∧
  (∀ (s : State) (d : Fin 256) (x : VReg), (putV s d x).me = { s.me with v := s.me.v.set d x, vFull := setBit s.me.vFull d.val true, vPoison := setBit s.me.vPoison d.val false } ∧
    SameModule s (putV s d x) ∧ SameOthers s (putV s d x) s.issue.key ∧ ∀ r : Fin 256, (putV s d x).me.getV r = if r = d then x else s.me.getV r) ∧
  (∀ (s : State) (d : Fin 16) (x : Pred), (putP s d x).me = (if d = 0 then s.me else { s.me with p := s.me.p.set d x }) ∧ SameModule s (putP s d x) ∧ SameOthers s (putP s d x) s.issue.key ∧
    ∀ r : Fin 16, (putP s d x).me.getP r = if r = d ∧ d ≠ 0 then x else s.me.getP r) ∧
  (∀ (s : State) (d : Fin 8) (x : Bool), (putC s d x).me = (if d = 0 then s.me else { s.me with c := setBit s.me.c d.val x }) ∧ SameModule s (putC s d x) ∧ SameOthers s (putC s d x) s.issue.key ∧
    ∀ r : Fin 8, (putC s d x).me.getC r = if r = d ∧ d ≠ 0 then x else s.me.getC r) ∧
  (∀ (s t : State) (i : Instr) (d a b : Fin 256) (e x y ch : Fin 64) (p : Fin 16) (n1 cb q : Fin 8) (k : Fin 32) (which : Fin 16) (eng c4 : Fin 4) (be af : BitVec 8) (all : Bool),
    exec i s = .next t → t.issue.out = .ok →
    let keeps := t.me = { s.me with sFull := t.me.sFull, vFull := t.me.vFull, inflight := t.me.inflight, fixed := t.me.fixed, outstanding := t.me.outstanding, fences := t.me.fences, sets := t.me.sets, wait := t.me.wait }
    let part := s.issue.src.part.toNat
    let quad := quadOf s.issue.key
    let named := bitsOf (srcS s y) 9 3 * 8 + bitsOf (srcS s y) 2 0
    (i ∈ [.vld d x n1, .vldp d x y n1, .vldx d x b, .sld e x k, .copy a q, .fence be af q, .drain be q, .qpush a x, .qpop d x, .qtry d x cb, .aset x y which q, .tgo x eng, .trel x eng, .tlbi x all,
        .ttask a, .ttaskr a b n1, .tqcfg x y, .tstat e which, .tevict x, .rcadd a p, .rcsnap d, .send ch a n1, .ssend ch x, .chcfg ch x, .hcoll x] →
      keeps ∧ SameMem s t) ∧
    (i = .ajnl x → t.me = s.me ∧ ((∀ j, s.journal? s.issue.src.ticket = some j → j.armed = false) → SameMem s t) ∧
      ∀ j, s.journal? s.issue.src.ticket = some j → let base := localKey (0x1000000000 + j.quad * 0x1000000 + j.row * 256);
        ∀ z, ¬ (base ≤ z ∧ z < base + 256 * j.total) → t.mem.read z = s.mem.read z) ∧
    (i ∈ [.tlate e, .chqry ch e c4, .hqry e x] → ∃ v, t = putS s e v) ∧
    (i = .hrech x → t.me = s.me ∧ (s.colls = [] → SameMem s t)) ∧
    (∀ l, i = .ctxsv x y → Quiet s → s.watchdogDue named = false →
      s.resolve part quad (plainRows (rowOf ((srcS s x).toNat % 2 ^ 40)) (saveRows (s.ctx named).vregs (decide ((s.ctx named).logical ≠ 0xFF)))) = .ok l →
      t.me = s.me ∧ ∀ z, (∀ r ∈ l, ¬ (localKey r ≤ z ∧ z < localKey r + 256)) → t.mem.read z = s.mem.read z) ∧
    (i = .ctxld x y → Quiet s → (∀ z ∈ s.stored ++ s.saved, z.ctx.life ≠ .ending) → (∀ l ∈ s.me.inflight, ∀ n k, ∀ r ∈ (s.chan n k).recvs, l.id ≠ r.id) → t.me = s.me) ∧
    (i ∈ [.recv ch a n1, .recvadd ch a n1, .srecv ch e] → keeps ∧
      ((∀ z ∈ s.saved ++ s.stored, ∀ l ∈ z.ctx.inflight, l.id ≠ s.nextId ∧ ∀ r ∈ (s.chan (coreOf s.issue.key) ch.val).recvs, l.id ≠ r.id) → SameMem s t)) ∧
    (i ∈ [.vst d x p n1, .vstp d x y p n1, .vstx d x b p, .sst e x k] → t.me = s.me)) ∧
  (∀ (m : Mem) (a v n : Nat), (m.writeLe a v (2 ^ n - 1) n).readLe a n = v % 256 ^ n) ∧
  (∀ (m : Mem) (k : Nat) (data : Row) (mask : BitVec 256), k % 256 = 0 →
    let t := m.writeRow k data mask
    (m.poisoned k = false → t.poison = m.poison ∧ ∀ z, t.read z = if k ≤ z ∧ z < k + 256 ∧ mask.getLsbD (z - k) = true then BitVec.ofNat 8 (data.toNat / 256 ^ (z - k)) else m.read z) ∧
    (m.poisoned k = true → mask ≠ fullMask → t = m) ∧
    (mask = fullMask → t.row k = data ∧ t.poisoned k = false ∧ (∀ z, rowOf z ≠ k → t.read z = m.read z ∧ t.poisoned z = m.poisoned z)))

/-- R1, R6, R45, R47, R127, R206, R422, R423 and R432: right after reset, memory is empty and canonical, every management register holds the value of its Reset column, the module is vacant, no context runs, no queue is live, s0 reads
zero, c0 true and p0 all ones, and the timebase is 0. That memory reads zero, and that a register without a stated reset value is zero, is the model's choice (log 1 and 2). -/
def Obligations.ResetState : Prop :=  let s := State.reset
  MemCanonical s ∧ (∀ a, s.mem.read a = 0 ∧ s.mem.poisoned a = false) ∧ (∀ r : MReg, r.fam ≠ .tbase → s.reg r = r.reset) ∧ s.tbase = 0 ∧ s.vacant = true ∧ s.fld .owner 0 31 16 = 0 ∧ s.halted = false ∧
  s.running = true ∧ s.linkUp = false ∧ s.agenda = [] ∧ (∀ n, s.live n = false) ∧ (∀ j, s.job? j = none) ∧ (∀ v a, s.pageOf v a = none) ∧
  ∀ k, (s.ctx k).life = .free ∧ (s.ctx k).sup = false ∧ (s.ctx k).xfer = 0 ∧ (s.ctx k).getS 0 = 0 ∧ (s.ctx k).getC 0 = true ∧ (s.ctx k).getP 0 = BitVec.allOnes 2048 ∧
    (∀ r, (s.ctx k).getS r = 0) ∧ ∀ l : Fin 4, ((s.ctx k).lc[l]).cnt = 0

/-- R263, R268 and log entry 15: every step keeps memory in its canonical form: addresses strictly rising, no zero byte listed, poisoned rows rising. Two states whose memories read alike, byte by byte and poison by
poison, therefore hold equal memories at every step. -/
def Obligations.MemoryStaysCanonical : Prop := Kept MemCanonical
end

