-- ==== Sys2Proof/Laws/Memory.lean ====
section
/-!
SUPPORT. Memory laws: every operation over memory keeps its canonical form, and what a read gives after a write.
-/
namespace Sys2Proof.Laws

open Sys2Proof.Machine

/-! ### Rising lists -/

theorem rising_tail {a : Nat} {l : List Nat} (h : rising (a :: l) = true) : rising l = true := by
  cases l with
  | nil => rfl
  | cons b t => simp only [rising, Bool.and_eq_true] at h; exact h.2

theorem rising_lt {a : Nat} : ∀ {l : List Nat}, rising (a :: l) = true → ∀ x ∈ l, a < x := by
  intro l
  induction l generalizing a with
  | nil => intro _ x hx; cases hx
  | cons b t ih =>
    intro h x hx
    simp only [rising, Bool.and_eq_true, decide_eq_true_eq] at h
    rcases List.mem_cons.mp hx with rfl | hx
    · exact h.1
    · exact Nat.lt_trans h.1 (ih h.2 x hx)

theorem rising_cons {a : Nat} {l : List Nat} (hl : rising l = true) (h : ∀ x ∈ l, a < x) : rising (a :: l) = true := by
  cases l with
  | nil => rfl
  | cons b t => simp only [rising, Bool.and_eq_true, decide_eq_true_eq]; exact ⟨h b (by simp), hl⟩

theorem rising_filter (p : Nat → Bool) : ∀ {l : List Nat}, rising l = true → rising (l.filter p) = true := by
  intro l
  induction l with
  | nil => intro _; rfl
  | cons a t ih =>
    intro h
    simp only [List.filter_cons]
    split
    · exact rising_cons (ih (rising_tail h)) fun x hx => rising_lt h x (List.mem_filter.mp hx).1
    · exact ih (rising_tail h)

theorem mem_insertNat {l : List Nat} {k x : Nat} : x ∈ insertNat l k ↔ x = k ∨ x ∈ l := by
  induction l with
  | nil => simp [insertNat]
  | cons a t ih =>
    simp only [insertNat]
    split
    · simp [ih]; tauto
    · split
      · subst a; simp
      · simp

theorem rising_insertNat {l : List Nat} (k : Nat) (h : rising l = true) : rising (insertNat l k) = true := by
  induction l with
  | nil => rfl
  | cons a t ih =>
    simp only [insertNat]
    split
    · exact rising_cons (ih (rising_tail h)) fun x hx => by
        rcases mem_insertNat.mp hx with rfl | hx
        · assumption
        · exact rising_lt h x hx
    · split
      · exact h
      · exact rising_cons h fun x hx => by
          rcases List.mem_cons.mp hx with rfl | hx
          · omega
          · have := rising_lt h x hx; omega

/-! ### Cells -/

theorem mem_putCell {l : List Host.Cell} {k : Nat} {v : Byte} {e : Host.Cell} (h : e ∈ putCell l k v) : e = (k, v) ∨ e ∈ l := by
  induction l with
  | nil => simpa [putCell] using h
  | cons c t ih =>
    obtain ⟨a, b⟩ := c
    simp only [putCell] at h
    split at h
    · rcases List.mem_cons.mp h with h | h
      · exact .inr (by simp [h])
      · rcases ih h with h | h
        · exact .inl h
        · exact .inr (by simp [h])
    · split at h
      · rcases List.mem_cons.mp h with h | h
        · exact .inl h
        · exact .inr (by simp [h])
      · exact List.mem_cons.mp h

theorem rising_putCell {l : List Host.Cell} (k : Nat) (v : Byte) (h : rising (l.map (·.1)) = true) : rising ((putCell l k v).map (·.1)) = true := by
  induction l with
  | nil => rfl
  | cons c t ih =>
    obtain ⟨a, b⟩ := c
    simp only [putCell]
    have lt := rising_lt h
    split
    · refine rising_cons (ih (rising_tail h)) fun x hx => ?_
      obtain ⟨e, he, rfl⟩ := List.mem_map.mp hx
      rcases mem_putCell he with rfl | he
      · assumption
      · exact lt _ (List.mem_map_of_mem he)
    · split
      · subst a; exact h
      · refine rising_cons h fun x hx => ?_
        rcases List.mem_cons.mp hx with rfl | hx
        · simp only at *; omega
        · exact Nat.lt_trans (by simp only; omega) (lt x hx)

theorem insertCell_rising {l : List Host.Cell} (k : Nat) (v : Byte) (h : rising (l.map (·.1)) = true) : rising ((insertCell l k v).map (·.1)) = true := by
  unfold insertCell
  split
  · have e : (l.filter fun e => decide (e.1 ≠ k)).map (·.1) = (l.map (·.1)).filter fun a => decide (a ≠ k) := by
      rw [List.filter_map]; rfl
    rw [e]; exact rising_filter _ h
  · exact rising_putCell k v h

theorem insertCell_nonzero {l : List Host.Cell} (k : Nat) (v : Byte) (h : l.all (fun e => decide (e.2 ≠ 0)) = true) :
    (insertCell l k v).all (fun e => decide (e.2 ≠ 0)) = true := by
  simp only [List.all_eq_true, decide_eq_true_eq] at h ⊢
  intro e he
  unfold insertCell at he
  split at he
  · exact h e (List.mem_filter.mp he).1
  · rcases mem_putCell he with rfl | he
    · assumption
    · exact h e he

theorem lookupCell_putCell (l : List Host.Cell) (k : Nat) (v : Byte) (a : Nat) : lookupCell (putCell l k v) a = if a = k then v else lookupCell l a := by
  induction l with
  | nil => simp only [putCell, lookupCell]; split <;> simp_all [eq_comm]
  | cons c t ih =>
    obtain ⟨x, b⟩ := c
    simp only [putCell]
    split
    · simp only [lookupCell, ih]; split
      · rw [if_neg (by omega)]
      · rfl
    · split
      · subst x; simp only [lookupCell]; split
        · rw [if_pos (by omega)]
        · rw [if_neg (by omega)]
      · simp only [lookupCell]
        by_cases e : a = k
        · subst e; simp
        · rw [if_neg (by omega), if_neg e]

theorem lookupCell_filter (l : List Host.Cell) (k a : Nat) : lookupCell (l.filter fun e => decide (e.1 ≠ k)) a = if a = k then 0 else lookupCell l a := by
  induction l with
  | nil => simp [lookupCell]
  | cons c t ih =>
    obtain ⟨x, b⟩ := c
    simp only [List.filter_cons]
    split
    · rename_i h; simp only [decide_eq_true_eq] at h
      simp only [lookupCell, ih]
      split
      · rw [if_neg (by omega)]
      · rfl
    · rename_i h; simp only [decide_eq_true_eq, not_not] at h
      rw [ih]; simp only [lookupCell]
      split
      · rfl
      · rw [if_neg (by omega)]

theorem lookupCell_insertCell (l : List Host.Cell) (k : Nat) (v : Byte) (a : Nat) : lookupCell (insertCell l k v) a = if a = k then v else lookupCell l a := by
  unfold insertCell
  split
  · rename_i h; rw [lookupCell_filter]; simp [h]
  · exact lookupCell_putCell l k v a

/-! ### The canonical form -/

theorem mem_wf_iff (m : Mem) : m.wf = true ↔
    rising (m.cells.map (·.1)) = true ∧ m.cells.all (fun e => decide (e.2 ≠ 0)) = true ∧ rising m.poison = true := by
  simp [Mem.wf, and_assoc]

theorem mem_write_wf {m : Mem} (a : Nat) (b : Byte) (h : m.wf = true) : (m.write a b).wf = true := by
  rw [mem_wf_iff] at h ⊢
  exact ⟨insertCell_rising a b h.1, insertCell_nonzero a b h.2.1, h.2.2⟩

theorem mem_writeLe_wf (n : Nat) : ∀ {m : Mem} (a v mask : Nat), m.wf = true → (m.writeLe a v mask n).wf = true := by
  induction n with
  | zero => intro m a v mask h; exact h
  | succ n ih =>
    intro m a v mask h
    simp only [Mem.writeLe]
    apply ih
    split
    · exact mem_write_wf _ _ h
    · exact h

theorem mem_writeLe_poison (n : Nat) : ∀ (m : Mem) (a v mask : Nat), (m.writeLe a v mask n).poison = m.poison := by
  induction n with
  | zero => intro m a v mask; rfl
  | succ n ih => intro m a v mask; simp only [Mem.writeLe]; rw [ih]; split <;> rfl

theorem mem_writeRow_wf {m : Mem} (k : Nat) (data : Row) (mask : BitVec 256) (h : m.wf = true) : (m.writeRow k data mask).wf = true := by
  unfold Mem.writeRow
  split
  · split
    · have w := mem_writeLe_wf 256 k data.toNat mask.toNat h
      rw [mem_wf_iff] at w h ⊢
      exact ⟨w.1, w.2.1, rising_filter _ h.2.2⟩
    · exact h
  · exact mem_writeLe_wf _ _ _ _ h

theorem mem_setPoison_wf {m : Mem} (k : Nat) (h : m.wf = true) : (m.setPoison k).wf = true := by
  rw [mem_wf_iff] at h ⊢
  exact ⟨h.1, h.2.1, rising_insertNat k h.2.2⟩

/-- Dropping cells and poisoned rows by address keeps the form: a zeroed quad or segment (R73, R295), and a reset of the module (R432). -/
theorem mem_filter_wf {m : Mem} (p q : Nat → Bool) (h : m.wf = true) : (Mem.mk (m.cells.filter fun e => p e.1) (m.poison.filter q)).wf = true := by
  rw [mem_wf_iff] at h ⊢
  refine ⟨?_, ?_, rising_filter q h.2.2⟩
  · have e : (m.cells.filter fun e => p e.1).map (·.1) = (m.cells.map (·.1)).filter p := by rw [List.filter_map]; rfl
    rw [e]; exact rising_filter p h.1
  · simp only [List.all_eq_true, decide_eq_true_eq] at h ⊢
    exact fun e he => h.2.1 e (List.mem_filter.mp he).1

theorem state_first_mem (s : State) (l : List Instr) : (s.first l).mem = s.mem := rfl

theorem state_storeRow_wf {s : State} (k : Nat) (data : Row) (mask : BitVec 256) (h : s.mem.wf = true) : (s.storeRow k data mask).mem.wf = true := by
  unfold State.storeRow
  split
  · exact h
  · exact mem_writeRow_wf k data mask h

theorem state_storeBytes_wf {s : State} (a n v : Nat) (h : s.mem.wf = true) : (s.storeBytes a n v).mem.wf = true := state_storeRow_wf _ _ _ h

theorem state_storeSpan_wf {s : State} (a n v : Nat) (h : s.mem.wf = true) : (s.storeSpan a n v).mem.wf = true := by
  unfold State.storeSpan
  simp only
  split
  · exact state_storeBytes_wf _ _ _ (state_storeBytes_wf _ _ _ h)
  · exact state_storeBytes_wf _ _ _ h

theorem state_writeC_wf {s : State} (c : Ctx) (a : Nat) (data : Row) (mask : BitVec 256) (h : s.mem.wf = true) : (s.writeC c a data mask).mem.wf = true := by
  unfold State.writeC
  split
  · split
    · exact h
    · exact state_storeRow_wf _ _ _ h
  · exact state_storeRow_wf _ _ _ h

theorem state_flushPuts_wf {s : State} (h : s.mem.wf = true) : s.flushPuts.mem.wf = true := by
  have go : ∀ (l : List (Nat × Row × BitVec 256)) (t : State), t.mem.wf = true → (l.foldl (fun (u : State) e => u.storeRow e.1 e.2.1 e.2.2) t).mem.wf = true := by
    intro l
    induction l with
    | nil => exact fun _ h => h
    | cons p l ih => exact fun t h => ih _ (state_storeRow_wf _ _ _ h)
  exact go _ _ h

theorem state_putRow_wf {s : State} (k : Nat) (data : Row) (mask : BitVec 256) (h : s.mem.wf = true) : (s.putRow k data mask).mem.wf = true := by
  unfold State.putRow
  split
  · exact h
  · exact state_storeRow_wf k data mask h

/-- Memory right after reset has the form. -/
theorem reset_mem_wf : State.reset.mem.wf = true := rfl

/-! ### Reads after writes -/

theorem mem_read_write (m : Mem) (a : Nat) (v : Byte) (z : Nat) : (m.write a v).read z = if z = a then v else m.read z := lookupCell_insertCell _ _ _ _

/-- One masked little-endian write, byte by byte. -/
theorem mem_read_writeLe (n : Nat) : ∀ (m : Mem) (a v mask z : Nat), (m.writeLe a v mask n).read z =
    if a ≤ z ∧ z < a + n ∧ mask.testBit (z - a) = true then BitVec.ofNat 8 (v / 256 ^ (z - a)) else m.read z := by
  induction n with
  | zero => intro m a v mask z; rw [if_neg (by omega)]; rfl
  | succ n ih =>
    intro m a v mask z
    simp only [Mem.writeLe]
    rw [ih]
    by_cases e : z = a
    · subst e
      rw [if_neg (by omega)]
      simp only [Nat.sub_self, Nat.pow_zero, Nat.div_one, Nat.testBit_zero, decide_eq_true_eq]
      by_cases b : mask % 2 = 1
      · rw [if_pos b, if_pos ⟨Nat.le_refl _, by omega, b⟩, mem_read_write, if_pos rfl]
      · rw [if_neg b, if_neg (by tauto)]
    · have r : (if mask % 2 = 1 then m.write a (BitVec.ofNat 8 v) else m).read z = m.read z := by
        split
        · rw [mem_read_write, if_neg e]
        · rfl
      rw [r]
      by_cases l : a + 1 ≤ z
      · have t : mask.testBit (z - a) = (mask / 2).testBit (z - (a + 1)) := by
          rw [show z - a = (z - (a + 1)) + 1 by omega, Nat.testBit_succ]
        have d : v / 256 ^ (z - a) = v / 256 / 256 ^ (z - (a + 1)) := by
          rw [show z - a = (z - (a + 1)) + 1 by omega, Nat.pow_succ, Nat.div_div_eq_div_mul, Nat.mul_comm]
        rw [t, d]
        congr 1
        apply propext
        constructor <;> (rintro ⟨_, _, h⟩; exact ⟨by omega, by omega, h⟩)
      · rw [if_neg (by omega), if_neg (by omega)]

end Sys2Proof.Laws
end

