-- ==== Sys2Proof/Laws/Slots.lean ====
section
/-!
SUPPORT. Laws.Slots: what the shared operations of slot operations do once the registers are ready, and when they are not (R114, R117, R399).
-/
namespace Sys2Proof.Laws

open Sys2Proof.Machine Sys2Proof.Safety

/-- Readiness for more registers is readiness for fewer. -/
theorem Ready.mono {s : State} {a a' d d' : List Dst} (h : Ready s a d) (ha : ∀ r ∈ a', r ∈ a) (hd : ∀ r ∈ d', r ∈ d) : Ready s a' d' :=
  ⟨fun r hr => h.1 r (ha r hr), fun r hr => h.2 r (hd r hr)⟩

/-- Readiness for two sets of sources is readiness for both. -/
theorem Ready.append {s : State} {a a' d d' : List Dst} (h : Ready s a d) (h' : Ready s a' d') : Ready s (a ++ a') (d ++ d') := by
  refine ⟨fun r hr => ?_, fun r hr => ?_⟩
  · rcases List.mem_append.1 hr with hr | hr
    · exact h.1 r hr
    · exact h'.1 r hr
  · rcases List.mem_append.1 hr with hr | hr
    · exact h.2 r hr
    · exact h'.2 r hr

/-- The check of a ready operation passes. -/
theorem check_of_ready {s : State} {srcs dsts : List Dst} (h : Ready s srcs dsts) : s.issue.src.check srcs dsts = .ok := by
  have h1 : srcs.find? (fun r => s.issue.src.emptyReg r && s.issue.src.trapsEmpty r) = none := by
    simp only [List.find?_eq_none]
    intro r hr
    simp [(h.1 r hr).1]
  have h2 : srcs.any s.issue.src.emptyReg = false := by
    simp only [List.any_eq_false]
    intro r hr
    simp [(h.1 r hr).1]
  have h3 : srcs.any s.issue.src.poisonedReg = false := by
    simp only [List.any_eq_false]
    intro r hr
    simp [(h.1 r hr).2]
  have h4 : dsts.any s.issue.src.emptyReg = false := by
    simp only [List.any_eq_false]
    intro r hr
    simp [h.2 r hr]
  simp [Ctx.check, h1, h2, h3, h4]

/-- A ready slot operation has its effect. -/
theorem slot_of_ready {s : State} {srcs dsts : List Dst} (h : Ready s srcs dsts) (f : Ctx → State → State) :
    s.slot srcs dsts f = f s.issue.src s := by
  simp [State.slot, check_of_ready h]

/-- Whatever a slot operation does: it has its effect, it waits and changes nothing but the bookkeeping of its bundle, or it traps. -/
theorem slot_cases (s : State) (srcs dsts : List Dst) (f : Ctx → State → State) :
    s.slot srcs dsts f = f s.issue.src s ∨ s.slot srcs dsts f = s.waits ∨
      ∃ cause faddr info, s.slot srcs dsts f = s.trapSlot cause faddr info := by
  unfold State.slot
  split
  · exact .inl rfl
  · exact .inr (.inl rfl)
  · exact .inr (.inr ⟨_, _, _, rfl⟩)

/-- A ready operation that writes a scalar. -/
theorem slotS_of_ready {s : State} {srcs : List Dst} {d : Fin 64} (h : Ready s srcs [.s d]) (f : Ctx → Word) :
    s.slotS srcs d f = .next (putS s d (f s.issue.src)) := by
  simp [State.slotS, slot_of_ready h, putS]

/-- A ready operation that writes a vector register. -/
theorem slotV_of_ready {s : State} {srcs : List Dst} {d : Fin 256} (h : Ready s srcs [.v d]) (f : Ctx → VReg) :
    s.slotV srcs d f = .next (putV s d (f s.issue.src)) := by
  simp [State.slotV, slot_of_ready h, putV]

/-- A ready operation that writes a predicate. -/
theorem slotP_of_ready {s : State} {srcs : List Dst} {d : Fin 16} (h : Ready s srcs []) (f : Ctx → Pred) :
    s.slotP srcs d f = .next (putP s d (f s.issue.src)) := by
  simp [State.slotP, slot_of_ready h, putP]

/-- A ready operation that writes a condition bit. -/
theorem slotC_of_ready {s : State} {srcs : List Dst} {d : Fin 8} (h : Ready s srcs [.c d]) (f : Ctx → Bool) :
    s.slotC srcs d f = .next (putC s d (f s.issue.src)) := by
  simp [State.slotC, slot_of_ready h, putC]

/-- A ready operation of two scalars. -/
theorem bin_of_ready {s : State} {d a b : Fin 64} (h : Ready s [.s a, .s b] [.s d]) (f : Word → Word → Word) :
    s.bin d a b f = .next (putS s d (f (srcS s a) (srcS s b))) := slotS_of_ready h _

/-- A ready operation of one scalar. -/
theorem una_of_ready {s : State} {d a : Fin 64} (h : Ready s [.s a] [.s d]) (f : Word → Word) :
    s.una d a f = .next (putS s d (f (srcS s a))) := slotS_of_ready h _

/-- A ready compare of two scalars. -/
theorem test_of_ready {s : State} {d : Fin 8} {a b : Fin 64} (h : Ready s [.s a, .s b] [.c d]) (f : Word → Word → Bool) :
    s.test d a b f = .next (putC s d (f (srcS s a) (srcS s b))) := slotC_of_ready h _

/-- A format that is legal for an operation that takes no scaled entry. -/
theorem withFmt_of_takes {s : State} {sel : FmtSel} {f : Fmt} {e : FmtEntry} {ok : Fmt → Bool} (h : Takes s sel f e) (hf : ok f = true)
    (hs : e.scaled = false) (g : Fmt → FmtEntry → State → State) : s.withFmt s.issue.src sel ok .none g = g f e s := by
  obtain ⟨h1, h2, h3⟩ := h
  simp [State.withFmt, h1, h2, h3, hf, hs]

end Sys2Proof.Laws
end

