-- ==== Sys2Proof/Laws/State.lean ====
section
/-!
SUPPORT. Laws.State: one lemma per field per update, true by rfl, and what an accessor gives after the update of its own table.
-/
namespace Sys2Proof.Laws

open Sys2Proof.Machine

/-! ### Tables -/

@[simp] theorem tget_tset_same {κ α : Type} [DecidableEq κ] (t : List (κ × α)) (k : κ) (x : α) : tget (tset t k x) k = some x := by
  simp [tget, tset]

@[simp] theorem tget_tset_ne {κ α : Type} [DecidableEq κ] (t : List (κ × α)) {k j : κ} (x : α) (h : j ≠ k) : tget (tset t k x) j = tget t j := by
  have e : (fun e : κ × α => decide (e.1 = j)) = fun e => decide (decide (e.1 ≠ k) = true ∧ decide (e.1 = j) = true) := by
    funext e
    by_cases a : e.1 = j
    · subst a; simp [h]
    · simp [a]
  simp only [tget, tset, List.find?_cons]
  rw [show decide (k = j) = false by simp [Ne.symm h]]
  simp only [List.find?_filter]
  rw [← e]

@[simp] theorem tgetD_tset_same {κ α : Type} [DecidableEq κ] (t : List (κ × α)) (k : κ) (x d : α) : tgetD (tset t k x) k d = x := by simp [tgetD]

@[simp] theorem tgetD_tset_ne {κ α : Type} [DecidableEq κ] (t : List (κ × α)) {k j : κ} (x d : α) (h : j ≠ k) : tgetD (tset t k x) j d = tgetD t j d := by
  simp [tgetD, h]

/-! ### State.setCtx -/

@[simp] theorem setCtx_mem (s : State) (k : Nat) (c : Ctx) : (s.setCtx k c).mem = s.mem := rfl
@[simp] theorem setCtx_mmio (s : State) (k : Nat) (c : Ctx) : (s.setCtx k c).mmio = s.mmio := rfl
@[simp] theorem setCtx_cycleSets (s : State) (k : Nat) (c : Ctx) : (s.setCtx k c).cycleSets = s.cycleSets := rfl
@[simp] theorem setCtx_touched (s : State) (k : Nat) (c : Ctx) : (s.setCtx k c).touched = s.touched := rfl
@[simp] theorem setCtx_cores (s : State) (k : Nat) (c : Ctx) : (s.setCtx k c).cores = s.cores := rfl
@[simp] theorem setCtx_quads (s : State) (k : Nat) (c : Ctx) : (s.setCtx k c).quads = s.quads := rfl
@[simp] theorem setCtx_dies (s : State) (k : Nat) (c : Ctx) : (s.setCtx k c).dies = s.dies := rfl
@[simp] theorem setCtx_queues (s : State) (k : Nat) (c : Ctx) : (s.setCtx k c).queues = s.queues := rfl
@[simp] theorem setCtx_images (s : State) (k : Nat) (c : Ctx) : (s.setCtx k c).images = s.images := rfl
@[simp] theorem setCtx_pages (s : State) (k : Nat) (c : Ctx) : (s.setCtx k c).pages = s.pages := rfl
@[simp] theorem setCtx_pageOwner (s : State) (k : Nat) (c : Ctx) : (s.setCtx k c).pageOwner = s.pageOwner := rfl
@[simp] theorem setCtx_taskQueues (s : State) (k : Nat) (c : Ctx) : (s.setCtx k c).taskQueues = s.taskQueues := rfl
@[simp] theorem setCtx_jobs (s : State) (k : Nat) (c : Ctx) : (s.setCtx k c).jobs = s.jobs := rfl
@[simp] theorem setCtx_ranges (s : State) (k : Nat) (c : Ctx) : (s.setCtx k c).ranges = s.ranges := rfl
@[simp] theorem setCtx_pool (s : State) (k : Nat) (c : Ctx) : (s.setCtx k c).pool = s.pool := rfl
@[simp] theorem setCtx_poolRa (s : State) (k : Nat) (c : Ctx) : (s.setCtx k c).poolRa = s.poolRa := rfl
@[simp] theorem setCtx_held (s : State) (k : Nat) (c : Ctx) : (s.setCtx k c).held = s.held := rfl
@[simp] theorem setCtx_saved (s : State) (k : Nat) (c : Ctx) : (s.setCtx k c).saved = s.saved := rfl
@[simp] theorem setCtx_stored (s : State) (k : Nat) (c : Ctx) : (s.setCtx k c).stored = s.stored := rfl
@[simp] theorem setCtx_journals (s : State) (k : Nat) (c : Ctx) : (s.setCtx k c).journals = s.journals := rfl
@[simp] theorem setCtx_carried (s : State) (k : Nat) (c : Ctx) : (s.setCtx k c).carried = s.carried := rfl
@[simp] theorem setCtx_wounds (s : State) (k : Nat) (c : Ctx) : (s.setCtx k c).wounds = s.wounds := rfl
@[simp] theorem setCtx_bdq (s : State) (k : Nat) (c : Ctx) : (s.setCtx k c).bdq = s.bdq := rfl
@[simp] theorem setCtx_barriers (s : State) (k : Nat) (c : Ctx) : (s.setCtx k c).barriers = s.barriers := rfl
@[simp] theorem setCtx_podHalves (s : State) (k : Nat) (c : Ctx) : (s.setCtx k c).podHalves = s.podHalves := rfl
@[simp] theorem setCtx_podHolders (s : State) (k : Nat) (c : Ctx) : (s.setCtx k c).podHolders = s.podHolders := rfl
@[simp] theorem setCtx_parked (s : State) (k : Nat) (c : Ctx) : (s.setCtx k c).parked = s.parked := rfl
@[simp] theorem setCtx_wheels (s : State) (k : Nat) (c : Ctx) : (s.setCtx k c).wheels = s.wheels := rfl
@[simp] theorem setCtx_residency (s : State) (k : Nat) (c : Ctx) : (s.setCtx k c).residency = s.residency := rfl
@[simp] theorem setCtx_fills (s : State) (k : Nat) (c : Ctx) : (s.setCtx k c).fills = s.fills := rfl
@[simp] theorem setCtx_evictions (s : State) (k : Nat) (c : Ctx) : (s.setCtx k c).evictions = s.evictions := rfl
@[simp] theorem setCtx_refresh (s : State) (k : Nat) (c : Ctx) : (s.setCtx k c).refresh = s.refresh := rfl
@[simp] theorem setCtx_gather (s : State) (k : Nat) (c : Ctx) : (s.setCtx k c).gather = s.gather := rfl
@[simp] theorem setCtx_collSeq (s : State) (k : Nat) (c : Ctx) : (s.setCtx k c).collSeq = s.collSeq := rfl
@[simp] theorem setCtx_colls (s : State) (k : Nat) (c : Ctx) : (s.setCtx k c).colls = s.colls := rfl
@[simp] theorem setCtx_links (s : State) (k : Nat) (c : Ctx) : (s.setCtx k c).links = s.links := rfl
@[simp] theorem setCtx_ropeOut (s : State) (k : Nat) (c : Ctx) : (s.setCtx k c).ropeOut = s.ropeOut := rfl
@[simp] theorem setCtx_ropePorts (s : State) (k : Nat) (c : Ctx) : (s.setCtx k c).ropePorts = s.ropePorts := rfl
@[simp] theorem setCtx_transits (s : State) (k : Nat) (c : Ctx) : (s.setCtx k c).transits = s.transits := rfl
@[simp] theorem setCtx_linkUp (s : State) (k : Nat) (c : Ctx) : (s.setCtx k c).linkUp = s.linkUp := rfl
@[simp] theorem setCtx_claimed (s : State) (k : Nat) (c : Ctx) : (s.setCtx k c).claimed = s.claimed := rfl
@[simp] theorem setCtx_bmcI3c (s : State) (k : Nat) (c : Ctx) : (s.setCtx k c).bmcI3c = s.bmcI3c := rfl
@[simp] theorem setCtx_evSeq (s : State) (k : Nat) (c : Ctx) : (s.setCtx k c).evSeq = s.evSeq := rfl
@[simp] theorem setCtx_evPending (s : State) (k : Nat) (c : Ctx) : (s.setCtx k c).evPending = s.evPending := rfl
@[simp] theorem setCtx_heldWrites (s : State) (k : Nat) (c : Ctx) : (s.setCtx k c).heldWrites = s.heldWrites := rfl
@[simp] theorem setCtx_hostLines (s : State) (k : Nat) (c : Ctx) : (s.setCtx k c).hostLines = s.hostLines := rfl
@[simp] theorem setCtx_snoops (s : State) (k : Nat) (c : Ctx) : (s.setCtx k c).snoops = s.snoops := rfl
@[simp] theorem setCtx_hostPuts (s : State) (k : Nat) (c : Ctx) : (s.setCtx k c).hostPuts = s.hostPuts := rfl
@[simp] theorem setCtx_monDuty (s : State) (k : Nat) (c : Ctx) : (s.setCtx k c).monDuty = s.monDuty := rfl
@[simp] theorem setCtx_banks (s : State) (k : Nat) (c : Ctx) : (s.setCtx k c).banks = s.banks := rfl
@[simp] theorem setCtx_activeBank (s : State) (k : Nat) (c : Ctx) : (s.setCtx k c).activeBank = s.activeBank := rfl
@[simp] theorem setCtx_nextBank (s : State) (k : Nat) (c : Ctx) : (s.setCtx k c).nextBank = s.nextBank := rfl
@[simp] theorem setCtx_fusedMin (s : State) (k : Nat) (c : Ctx) : (s.setCtx k c).fusedMin = s.fusedMin := rfl
@[simp] theorem setCtx_running (s : State) (k : Nat) (c : Ctx) : (s.setCtx k c).running = s.running := rfl
@[simp] theorem setCtx_sensors (s : State) (k : Nat) (c : Ctx) : (s.setCtx k c).sensors = s.sensors := rfl
@[simp] theorem setCtx_hot (s : State) (k : Nat) (c : Ctx) : (s.setCtx k c).hot = s.hot := rfl
@[simp] theorem setCtx_capInForce (s : State) (k : Nat) (c : Ctx) : (s.setCtx k c).capInForce = s.capInForce := rfl
@[simp] theorem setCtx_halted (s : State) (k : Nat) (c : Ctx) : (s.setCtx k c).halted = s.halted := rfl
@[simp] theorem setCtx_pkgid (s : State) (k : Nat) (c : Ctx) : (s.setCtx k c).pkgid = s.pkgid := rfl
@[simp] theorem setCtx_tbase (s : State) (k : Nat) (c : Ctx) : (s.setCtx k c).tbase = s.tbase := rfl
@[simp] theorem setCtx_quarters (s : State) (k : Nat) (c : Ctx) : (s.setCtx k c).quarters = s.quarters := rfl
@[simp] theorem setCtx_slew (s : State) (k : Nat) (c : Ctx) : (s.setCtx k c).slew = s.slew := rfl
@[simp] theorem setCtx_lastSlew (s : State) (k : Nat) (c : Ctx) : (s.setCtx k c).lastSlew = s.lastSlew := rfl
@[simp] theorem setCtx_outbox (s : State) (k : Nat) (c : Ctx) : (s.setCtx k c).outbox = s.outbox := rfl
@[simp] theorem setCtx_agenda (s : State) (k : Nat) (c : Ctx) : (s.setCtx k c).agenda = s.agenda := rfl
@[simp] theorem setCtx_nextCore (s : State) (k : Nat) (c : Ctx) : (s.setCtx k c).nextCore = s.nextCore := rfl
@[simp] theorem setCtx_issue (s : State) (k : Nat) (c : Ctx) : (s.setCtx k c).issue = s.issue := rfl
@[simp] theorem setCtx_freeIdx (s : State) (k : Nat) (c : Ctx) : (s.setCtx k c).freeIdx = s.freeIdx := rfl
@[simp] theorem setCtx_nextId (s : State) (k : Nat) (c : Ctx) : (s.setCtx k c).nextId = s.nextId := rfl

/-! ### State.setReg -/

@[simp] theorem setReg_mem (s : State) (r : MReg) (v : Word) : (s.setReg r v).mem = s.mem := rfl
@[simp] theorem setReg_cycleSets (s : State) (r : MReg) (v : Word) : (s.setReg r v).cycleSets = s.cycleSets := rfl
@[simp] theorem setReg_touched (s : State) (r : MReg) (v : Word) : (s.setReg r v).touched = s.touched := rfl
@[simp] theorem setReg_ctxs (s : State) (r : MReg) (v : Word) : (s.setReg r v).ctxs = s.ctxs := rfl
@[simp] theorem setReg_cores (s : State) (r : MReg) (v : Word) : (s.setReg r v).cores = s.cores := rfl
@[simp] theorem setReg_quads (s : State) (r : MReg) (v : Word) : (s.setReg r v).quads = s.quads := rfl
@[simp] theorem setReg_dies (s : State) (r : MReg) (v : Word) : (s.setReg r v).dies = s.dies := rfl
@[simp] theorem setReg_queues (s : State) (r : MReg) (v : Word) : (s.setReg r v).queues = s.queues := rfl
@[simp] theorem setReg_images (s : State) (r : MReg) (v : Word) : (s.setReg r v).images = s.images := rfl
@[simp] theorem setReg_pages (s : State) (r : MReg) (v : Word) : (s.setReg r v).pages = s.pages := rfl
@[simp] theorem setReg_pageOwner (s : State) (r : MReg) (v : Word) : (s.setReg r v).pageOwner = s.pageOwner := rfl
@[simp] theorem setReg_taskQueues (s : State) (r : MReg) (v : Word) : (s.setReg r v).taskQueues = s.taskQueues := rfl
@[simp] theorem setReg_jobs (s : State) (r : MReg) (v : Word) : (s.setReg r v).jobs = s.jobs := rfl
@[simp] theorem setReg_ranges (s : State) (r : MReg) (v : Word) : (s.setReg r v).ranges = s.ranges := rfl
@[simp] theorem setReg_pool (s : State) (r : MReg) (v : Word) : (s.setReg r v).pool = s.pool := rfl
@[simp] theorem setReg_poolRa (s : State) (r : MReg) (v : Word) : (s.setReg r v).poolRa = s.poolRa := rfl
@[simp] theorem setReg_held (s : State) (r : MReg) (v : Word) : (s.setReg r v).held = s.held := rfl
@[simp] theorem setReg_saved (s : State) (r : MReg) (v : Word) : (s.setReg r v).saved = s.saved := rfl
@[simp] theorem setReg_stored (s : State) (r : MReg) (v : Word) : (s.setReg r v).stored = s.stored := rfl
@[simp] theorem setReg_journals (s : State) (r : MReg) (v : Word) : (s.setReg r v).journals = s.journals := rfl
@[simp] theorem setReg_carried (s : State) (r : MReg) (v : Word) : (s.setReg r v).carried = s.carried := rfl
@[simp] theorem setReg_wounds (s : State) (r : MReg) (v : Word) : (s.setReg r v).wounds = s.wounds := rfl
@[simp] theorem setReg_bdq (s : State) (r : MReg) (v : Word) : (s.setReg r v).bdq = s.bdq := rfl
@[simp] theorem setReg_barriers (s : State) (r : MReg) (v : Word) : (s.setReg r v).barriers = s.barriers := rfl
@[simp] theorem setReg_podHalves (s : State) (r : MReg) (v : Word) : (s.setReg r v).podHalves = s.podHalves := rfl
@[simp] theorem setReg_podHolders (s : State) (r : MReg) (v : Word) : (s.setReg r v).podHolders = s.podHolders := rfl
@[simp] theorem setReg_parked (s : State) (r : MReg) (v : Word) : (s.setReg r v).parked = s.parked := rfl
@[simp] theorem setReg_wheels (s : State) (r : MReg) (v : Word) : (s.setReg r v).wheels = s.wheels := rfl
@[simp] theorem setReg_residency (s : State) (r : MReg) (v : Word) : (s.setReg r v).residency = s.residency := rfl
@[simp] theorem setReg_fills (s : State) (r : MReg) (v : Word) : (s.setReg r v).fills = s.fills := rfl
@[simp] theorem setReg_evictions (s : State) (r : MReg) (v : Word) : (s.setReg r v).evictions = s.evictions := rfl
@[simp] theorem setReg_refresh (s : State) (r : MReg) (v : Word) : (s.setReg r v).refresh = s.refresh := rfl
@[simp] theorem setReg_gather (s : State) (r : MReg) (v : Word) : (s.setReg r v).gather = s.gather := rfl
@[simp] theorem setReg_collSeq (s : State) (r : MReg) (v : Word) : (s.setReg r v).collSeq = s.collSeq := rfl
@[simp] theorem setReg_colls (s : State) (r : MReg) (v : Word) : (s.setReg r v).colls = s.colls := rfl
@[simp] theorem setReg_links (s : State) (r : MReg) (v : Word) : (s.setReg r v).links = s.links := rfl
@[simp] theorem setReg_ropeOut (s : State) (r : MReg) (v : Word) : (s.setReg r v).ropeOut = s.ropeOut := rfl
@[simp] theorem setReg_ropePorts (s : State) (r : MReg) (v : Word) : (s.setReg r v).ropePorts = s.ropePorts := rfl
@[simp] theorem setReg_transits (s : State) (r : MReg) (v : Word) : (s.setReg r v).transits = s.transits := rfl
@[simp] theorem setReg_linkUp (s : State) (r : MReg) (v : Word) : (s.setReg r v).linkUp = s.linkUp := rfl
@[simp] theorem setReg_claimed (s : State) (r : MReg) (v : Word) : (s.setReg r v).claimed = s.claimed := rfl
@[simp] theorem setReg_bmcI3c (s : State) (r : MReg) (v : Word) : (s.setReg r v).bmcI3c = s.bmcI3c := rfl
@[simp] theorem setReg_evSeq (s : State) (r : MReg) (v : Word) : (s.setReg r v).evSeq = s.evSeq := rfl
@[simp] theorem setReg_evPending (s : State) (r : MReg) (v : Word) : (s.setReg r v).evPending = s.evPending := rfl
@[simp] theorem setReg_heldWrites (s : State) (r : MReg) (v : Word) : (s.setReg r v).heldWrites = s.heldWrites := rfl
@[simp] theorem setReg_hostLines (s : State) (r : MReg) (v : Word) : (s.setReg r v).hostLines = s.hostLines := rfl
@[simp] theorem setReg_snoops (s : State) (r : MReg) (v : Word) : (s.setReg r v).snoops = s.snoops := rfl
@[simp] theorem setReg_hostPuts (s : State) (r : MReg) (v : Word) : (s.setReg r v).hostPuts = s.hostPuts := rfl
@[simp] theorem setReg_monDuty (s : State) (r : MReg) (v : Word) : (s.setReg r v).monDuty = s.monDuty := rfl
@[simp] theorem setReg_banks (s : State) (r : MReg) (v : Word) : (s.setReg r v).banks = s.banks := rfl
@[simp] theorem setReg_activeBank (s : State) (r : MReg) (v : Word) : (s.setReg r v).activeBank = s.activeBank := rfl
@[simp] theorem setReg_nextBank (s : State) (r : MReg) (v : Word) : (s.setReg r v).nextBank = s.nextBank := rfl
@[simp] theorem setReg_fusedMin (s : State) (r : MReg) (v : Word) : (s.setReg r v).fusedMin = s.fusedMin := rfl
@[simp] theorem setReg_running (s : State) (r : MReg) (v : Word) : (s.setReg r v).running = s.running := rfl
@[simp] theorem setReg_sensors (s : State) (r : MReg) (v : Word) : (s.setReg r v).sensors = s.sensors := rfl
@[simp] theorem setReg_hot (s : State) (r : MReg) (v : Word) : (s.setReg r v).hot = s.hot := rfl
@[simp] theorem setReg_capInForce (s : State) (r : MReg) (v : Word) : (s.setReg r v).capInForce = s.capInForce := rfl
@[simp] theorem setReg_halted (s : State) (r : MReg) (v : Word) : (s.setReg r v).halted = s.halted := rfl
@[simp] theorem setReg_pkgid (s : State) (r : MReg) (v : Word) : (s.setReg r v).pkgid = s.pkgid := rfl
@[simp] theorem setReg_tbase (s : State) (r : MReg) (v : Word) : (s.setReg r v).tbase = s.tbase := rfl
@[simp] theorem setReg_quarters (s : State) (r : MReg) (v : Word) : (s.setReg r v).quarters = s.quarters := rfl
@[simp] theorem setReg_slew (s : State) (r : MReg) (v : Word) : (s.setReg r v).slew = s.slew := rfl
@[simp] theorem setReg_lastSlew (s : State) (r : MReg) (v : Word) : (s.setReg r v).lastSlew = s.lastSlew := rfl
@[simp] theorem setReg_outbox (s : State) (r : MReg) (v : Word) : (s.setReg r v).outbox = s.outbox := rfl
@[simp] theorem setReg_agenda (s : State) (r : MReg) (v : Word) : (s.setReg r v).agenda = s.agenda := rfl
@[simp] theorem setReg_nextCore (s : State) (r : MReg) (v : Word) : (s.setReg r v).nextCore = s.nextCore := rfl
@[simp] theorem setReg_issue (s : State) (r : MReg) (v : Word) : (s.setReg r v).issue = s.issue := rfl
@[simp] theorem setReg_freeIdx (s : State) (r : MReg) (v : Word) : (s.setReg r v).freeIdx = s.freeIdx := rfl
@[simp] theorem setReg_nextId (s : State) (r : MReg) (v : Word) : (s.setReg r v).nextId = s.nextId := rfl

/-! ### State.modCore -/

@[simp] theorem modCore_mem (s : State) (i : Nat) (f : Core → Core) : (s.modCore i f).mem = s.mem := rfl
@[simp] theorem modCore_mmio (s : State) (i : Nat) (f : Core → Core) : (s.modCore i f).mmio = s.mmio := rfl
@[simp] theorem modCore_cycleSets (s : State) (i : Nat) (f : Core → Core) : (s.modCore i f).cycleSets = s.cycleSets := rfl
@[simp] theorem modCore_touched (s : State) (i : Nat) (f : Core → Core) : (s.modCore i f).touched = s.touched := rfl
@[simp] theorem modCore_ctxs (s : State) (i : Nat) (f : Core → Core) : (s.modCore i f).ctxs = s.ctxs := rfl
@[simp] theorem modCore_quads (s : State) (i : Nat) (f : Core → Core) : (s.modCore i f).quads = s.quads := rfl
@[simp] theorem modCore_dies (s : State) (i : Nat) (f : Core → Core) : (s.modCore i f).dies = s.dies := rfl
@[simp] theorem modCore_queues (s : State) (i : Nat) (f : Core → Core) : (s.modCore i f).queues = s.queues := rfl
@[simp] theorem modCore_images (s : State) (i : Nat) (f : Core → Core) : (s.modCore i f).images = s.images := rfl
@[simp] theorem modCore_pages (s : State) (i : Nat) (f : Core → Core) : (s.modCore i f).pages = s.pages := rfl
@[simp] theorem modCore_pageOwner (s : State) (i : Nat) (f : Core → Core) : (s.modCore i f).pageOwner = s.pageOwner := rfl
@[simp] theorem modCore_taskQueues (s : State) (i : Nat) (f : Core → Core) : (s.modCore i f).taskQueues = s.taskQueues := rfl
@[simp] theorem modCore_jobs (s : State) (i : Nat) (f : Core → Core) : (s.modCore i f).jobs = s.jobs := rfl
@[simp] theorem modCore_ranges (s : State) (i : Nat) (f : Core → Core) : (s.modCore i f).ranges = s.ranges := rfl
@[simp] theorem modCore_pool (s : State) (i : Nat) (f : Core → Core) : (s.modCore i f).pool = s.pool := rfl
@[simp] theorem modCore_poolRa (s : State) (i : Nat) (f : Core → Core) : (s.modCore i f).poolRa = s.poolRa := rfl
@[simp] theorem modCore_held (s : State) (i : Nat) (f : Core → Core) : (s.modCore i f).held = s.held := rfl
@[simp] theorem modCore_saved (s : State) (i : Nat) (f : Core → Core) : (s.modCore i f).saved = s.saved := rfl
@[simp] theorem modCore_stored (s : State) (i : Nat) (f : Core → Core) : (s.modCore i f).stored = s.stored := rfl
@[simp] theorem modCore_journals (s : State) (i : Nat) (f : Core → Core) : (s.modCore i f).journals = s.journals := rfl
@[simp] theorem modCore_carried (s : State) (i : Nat) (f : Core → Core) : (s.modCore i f).carried = s.carried := rfl
@[simp] theorem modCore_wounds (s : State) (i : Nat) (f : Core → Core) : (s.modCore i f).wounds = s.wounds := rfl
@[simp] theorem modCore_bdq (s : State) (i : Nat) (f : Core → Core) : (s.modCore i f).bdq = s.bdq := rfl
@[simp] theorem modCore_barriers (s : State) (i : Nat) (f : Core → Core) : (s.modCore i f).barriers = s.barriers := rfl
@[simp] theorem modCore_podHalves (s : State) (i : Nat) (f : Core → Core) : (s.modCore i f).podHalves = s.podHalves := rfl
@[simp] theorem modCore_podHolders (s : State) (i : Nat) (f : Core → Core) : (s.modCore i f).podHolders = s.podHolders := rfl
@[simp] theorem modCore_parked (s : State) (i : Nat) (f : Core → Core) : (s.modCore i f).parked = s.parked := rfl
@[simp] theorem modCore_wheels (s : State) (i : Nat) (f : Core → Core) : (s.modCore i f).wheels = s.wheels := rfl
@[simp] theorem modCore_residency (s : State) (i : Nat) (f : Core → Core) : (s.modCore i f).residency = s.residency := rfl
@[simp] theorem modCore_fills (s : State) (i : Nat) (f : Core → Core) : (s.modCore i f).fills = s.fills := rfl
@[simp] theorem modCore_evictions (s : State) (i : Nat) (f : Core → Core) : (s.modCore i f).evictions = s.evictions := rfl
@[simp] theorem modCore_refresh (s : State) (i : Nat) (f : Core → Core) : (s.modCore i f).refresh = s.refresh := rfl
@[simp] theorem modCore_gather (s : State) (i : Nat) (f : Core → Core) : (s.modCore i f).gather = s.gather := rfl
@[simp] theorem modCore_collSeq (s : State) (i : Nat) (f : Core → Core) : (s.modCore i f).collSeq = s.collSeq := rfl
@[simp] theorem modCore_colls (s : State) (i : Nat) (f : Core → Core) : (s.modCore i f).colls = s.colls := rfl
@[simp] theorem modCore_links (s : State) (i : Nat) (f : Core → Core) : (s.modCore i f).links = s.links := rfl
@[simp] theorem modCore_ropeOut (s : State) (i : Nat) (f : Core → Core) : (s.modCore i f).ropeOut = s.ropeOut := rfl
@[simp] theorem modCore_ropePorts (s : State) (i : Nat) (f : Core → Core) : (s.modCore i f).ropePorts = s.ropePorts := rfl
@[simp] theorem modCore_transits (s : State) (i : Nat) (f : Core → Core) : (s.modCore i f).transits = s.transits := rfl
@[simp] theorem modCore_linkUp (s : State) (i : Nat) (f : Core → Core) : (s.modCore i f).linkUp = s.linkUp := rfl
@[simp] theorem modCore_claimed (s : State) (i : Nat) (f : Core → Core) : (s.modCore i f).claimed = s.claimed := rfl
@[simp] theorem modCore_bmcI3c (s : State) (i : Nat) (f : Core → Core) : (s.modCore i f).bmcI3c = s.bmcI3c := rfl
@[simp] theorem modCore_evSeq (s : State) (i : Nat) (f : Core → Core) : (s.modCore i f).evSeq = s.evSeq := rfl
@[simp] theorem modCore_evPending (s : State) (i : Nat) (f : Core → Core) : (s.modCore i f).evPending = s.evPending := rfl
@[simp] theorem modCore_heldWrites (s : State) (i : Nat) (f : Core → Core) : (s.modCore i f).heldWrites = s.heldWrites := rfl
@[simp] theorem modCore_hostLines (s : State) (i : Nat) (f : Core → Core) : (s.modCore i f).hostLines = s.hostLines := rfl
@[simp] theorem modCore_snoops (s : State) (i : Nat) (f : Core → Core) : (s.modCore i f).snoops = s.snoops := rfl
@[simp] theorem modCore_hostPuts (s : State) (i : Nat) (f : Core → Core) : (s.modCore i f).hostPuts = s.hostPuts := rfl
@[simp] theorem modCore_monDuty (s : State) (i : Nat) (f : Core → Core) : (s.modCore i f).monDuty = s.monDuty := rfl
@[simp] theorem modCore_banks (s : State) (i : Nat) (f : Core → Core) : (s.modCore i f).banks = s.banks := rfl
@[simp] theorem modCore_activeBank (s : State) (i : Nat) (f : Core → Core) : (s.modCore i f).activeBank = s.activeBank := rfl
@[simp] theorem modCore_nextBank (s : State) (i : Nat) (f : Core → Core) : (s.modCore i f).nextBank = s.nextBank := rfl
@[simp] theorem modCore_fusedMin (s : State) (i : Nat) (f : Core → Core) : (s.modCore i f).fusedMin = s.fusedMin := rfl
@[simp] theorem modCore_running (s : State) (i : Nat) (f : Core → Core) : (s.modCore i f).running = s.running := rfl
@[simp] theorem modCore_sensors (s : State) (i : Nat) (f : Core → Core) : (s.modCore i f).sensors = s.sensors := rfl
@[simp] theorem modCore_hot (s : State) (i : Nat) (f : Core → Core) : (s.modCore i f).hot = s.hot := rfl
@[simp] theorem modCore_capInForce (s : State) (i : Nat) (f : Core → Core) : (s.modCore i f).capInForce = s.capInForce := rfl
@[simp] theorem modCore_halted (s : State) (i : Nat) (f : Core → Core) : (s.modCore i f).halted = s.halted := rfl
@[simp] theorem modCore_pkgid (s : State) (i : Nat) (f : Core → Core) : (s.modCore i f).pkgid = s.pkgid := rfl
@[simp] theorem modCore_tbase (s : State) (i : Nat) (f : Core → Core) : (s.modCore i f).tbase = s.tbase := rfl
@[simp] theorem modCore_quarters (s : State) (i : Nat) (f : Core → Core) : (s.modCore i f).quarters = s.quarters := rfl
@[simp] theorem modCore_slew (s : State) (i : Nat) (f : Core → Core) : (s.modCore i f).slew = s.slew := rfl
@[simp] theorem modCore_lastSlew (s : State) (i : Nat) (f : Core → Core) : (s.modCore i f).lastSlew = s.lastSlew := rfl
@[simp] theorem modCore_outbox (s : State) (i : Nat) (f : Core → Core) : (s.modCore i f).outbox = s.outbox := rfl
@[simp] theorem modCore_agenda (s : State) (i : Nat) (f : Core → Core) : (s.modCore i f).agenda = s.agenda := rfl
@[simp] theorem modCore_nextCore (s : State) (i : Nat) (f : Core → Core) : (s.modCore i f).nextCore = s.nextCore := rfl
@[simp] theorem modCore_issue (s : State) (i : Nat) (f : Core → Core) : (s.modCore i f).issue = s.issue := rfl
@[simp] theorem modCore_freeIdx (s : State) (i : Nat) (f : Core → Core) : (s.modCore i f).freeIdx = s.freeIdx := rfl
@[simp] theorem modCore_nextId (s : State) (i : Nat) (f : Core → Core) : (s.modCore i f).nextId = s.nextId := rfl

/-! ### State.modQuad -/

@[simp] theorem modQuad_mem (s : State) (i : Nat) (f : Quad → Quad) : (s.modQuad i f).mem = s.mem := rfl
@[simp] theorem modQuad_mmio (s : State) (i : Nat) (f : Quad → Quad) : (s.modQuad i f).mmio = s.mmio := rfl
@[simp] theorem modQuad_cycleSets (s : State) (i : Nat) (f : Quad → Quad) : (s.modQuad i f).cycleSets = s.cycleSets := rfl
@[simp] theorem modQuad_touched (s : State) (i : Nat) (f : Quad → Quad) : (s.modQuad i f).touched = s.touched := rfl
@[simp] theorem modQuad_ctxs (s : State) (i : Nat) (f : Quad → Quad) : (s.modQuad i f).ctxs = s.ctxs := rfl
@[simp] theorem modQuad_cores (s : State) (i : Nat) (f : Quad → Quad) : (s.modQuad i f).cores = s.cores := rfl
@[simp] theorem modQuad_dies (s : State) (i : Nat) (f : Quad → Quad) : (s.modQuad i f).dies = s.dies := rfl
@[simp] theorem modQuad_queues (s : State) (i : Nat) (f : Quad → Quad) : (s.modQuad i f).queues = s.queues := rfl
@[simp] theorem modQuad_images (s : State) (i : Nat) (f : Quad → Quad) : (s.modQuad i f).images = s.images := rfl
@[simp] theorem modQuad_pages (s : State) (i : Nat) (f : Quad → Quad) : (s.modQuad i f).pages = s.pages := rfl
@[simp] theorem modQuad_pageOwner (s : State) (i : Nat) (f : Quad → Quad) : (s.modQuad i f).pageOwner = s.pageOwner := rfl
@[simp] theorem modQuad_taskQueues (s : State) (i : Nat) (f : Quad → Quad) : (s.modQuad i f).taskQueues = s.taskQueues := rfl
@[simp] theorem modQuad_jobs (s : State) (i : Nat) (f : Quad → Quad) : (s.modQuad i f).jobs = s.jobs := rfl
@[simp] theorem modQuad_ranges (s : State) (i : Nat) (f : Quad → Quad) : (s.modQuad i f).ranges = s.ranges := rfl
@[simp] theorem modQuad_pool (s : State) (i : Nat) (f : Quad → Quad) : (s.modQuad i f).pool = s.pool := rfl
@[simp] theorem modQuad_poolRa (s : State) (i : Nat) (f : Quad → Quad) : (s.modQuad i f).poolRa = s.poolRa := rfl
@[simp] theorem modQuad_held (s : State) (i : Nat) (f : Quad → Quad) : (s.modQuad i f).held = s.held := rfl
@[simp] theorem modQuad_saved (s : State) (i : Nat) (f : Quad → Quad) : (s.modQuad i f).saved = s.saved := rfl
@[simp] theorem modQuad_stored (s : State) (i : Nat) (f : Quad → Quad) : (s.modQuad i f).stored = s.stored := rfl
@[simp] theorem modQuad_journals (s : State) (i : Nat) (f : Quad → Quad) : (s.modQuad i f).journals = s.journals := rfl
@[simp] theorem modQuad_carried (s : State) (i : Nat) (f : Quad → Quad) : (s.modQuad i f).carried = s.carried := rfl
@[simp] theorem modQuad_wounds (s : State) (i : Nat) (f : Quad → Quad) : (s.modQuad i f).wounds = s.wounds := rfl
@[simp] theorem modQuad_bdq (s : State) (i : Nat) (f : Quad → Quad) : (s.modQuad i f).bdq = s.bdq := rfl
@[simp] theorem modQuad_barriers (s : State) (i : Nat) (f : Quad → Quad) : (s.modQuad i f).barriers = s.barriers := rfl
@[simp] theorem modQuad_podHalves (s : State) (i : Nat) (f : Quad → Quad) : (s.modQuad i f).podHalves = s.podHalves := rfl
@[simp] theorem modQuad_podHolders (s : State) (i : Nat) (f : Quad → Quad) : (s.modQuad i f).podHolders = s.podHolders := rfl
@[simp] theorem modQuad_parked (s : State) (i : Nat) (f : Quad → Quad) : (s.modQuad i f).parked = s.parked := rfl
@[simp] theorem modQuad_wheels (s : State) (i : Nat) (f : Quad → Quad) : (s.modQuad i f).wheels = s.wheels := rfl
@[simp] theorem modQuad_residency (s : State) (i : Nat) (f : Quad → Quad) : (s.modQuad i f).residency = s.residency := rfl
@[simp] theorem modQuad_fills (s : State) (i : Nat) (f : Quad → Quad) : (s.modQuad i f).fills = s.fills := rfl
@[simp] theorem modQuad_evictions (s : State) (i : Nat) (f : Quad → Quad) : (s.modQuad i f).evictions = s.evictions := rfl
@[simp] theorem modQuad_refresh (s : State) (i : Nat) (f : Quad → Quad) : (s.modQuad i f).refresh = s.refresh := rfl
@[simp] theorem modQuad_gather (s : State) (i : Nat) (f : Quad → Quad) : (s.modQuad i f).gather = s.gather := rfl
@[simp] theorem modQuad_collSeq (s : State) (i : Nat) (f : Quad → Quad) : (s.modQuad i f).collSeq = s.collSeq := rfl
@[simp] theorem modQuad_colls (s : State) (i : Nat) (f : Quad → Quad) : (s.modQuad i f).colls = s.colls := rfl
@[simp] theorem modQuad_links (s : State) (i : Nat) (f : Quad → Quad) : (s.modQuad i f).links = s.links := rfl
@[simp] theorem modQuad_ropeOut (s : State) (i : Nat) (f : Quad → Quad) : (s.modQuad i f).ropeOut = s.ropeOut := rfl
@[simp] theorem modQuad_ropePorts (s : State) (i : Nat) (f : Quad → Quad) : (s.modQuad i f).ropePorts = s.ropePorts := rfl
@[simp] theorem modQuad_transits (s : State) (i : Nat) (f : Quad → Quad) : (s.modQuad i f).transits = s.transits := rfl
@[simp] theorem modQuad_linkUp (s : State) (i : Nat) (f : Quad → Quad) : (s.modQuad i f).linkUp = s.linkUp := rfl
@[simp] theorem modQuad_claimed (s : State) (i : Nat) (f : Quad → Quad) : (s.modQuad i f).claimed = s.claimed := rfl
@[simp] theorem modQuad_bmcI3c (s : State) (i : Nat) (f : Quad → Quad) : (s.modQuad i f).bmcI3c = s.bmcI3c := rfl
@[simp] theorem modQuad_evSeq (s : State) (i : Nat) (f : Quad → Quad) : (s.modQuad i f).evSeq = s.evSeq := rfl
@[simp] theorem modQuad_evPending (s : State) (i : Nat) (f : Quad → Quad) : (s.modQuad i f).evPending = s.evPending := rfl
@[simp] theorem modQuad_heldWrites (s : State) (i : Nat) (f : Quad → Quad) : (s.modQuad i f).heldWrites = s.heldWrites := rfl
@[simp] theorem modQuad_hostLines (s : State) (i : Nat) (f : Quad → Quad) : (s.modQuad i f).hostLines = s.hostLines := rfl
@[simp] theorem modQuad_snoops (s : State) (i : Nat) (f : Quad → Quad) : (s.modQuad i f).snoops = s.snoops := rfl
@[simp] theorem modQuad_hostPuts (s : State) (i : Nat) (f : Quad → Quad) : (s.modQuad i f).hostPuts = s.hostPuts := rfl
@[simp] theorem modQuad_monDuty (s : State) (i : Nat) (f : Quad → Quad) : (s.modQuad i f).monDuty = s.monDuty := rfl
@[simp] theorem modQuad_banks (s : State) (i : Nat) (f : Quad → Quad) : (s.modQuad i f).banks = s.banks := rfl
@[simp] theorem modQuad_activeBank (s : State) (i : Nat) (f : Quad → Quad) : (s.modQuad i f).activeBank = s.activeBank := rfl
@[simp] theorem modQuad_nextBank (s : State) (i : Nat) (f : Quad → Quad) : (s.modQuad i f).nextBank = s.nextBank := rfl
@[simp] theorem modQuad_fusedMin (s : State) (i : Nat) (f : Quad → Quad) : (s.modQuad i f).fusedMin = s.fusedMin := rfl
@[simp] theorem modQuad_running (s : State) (i : Nat) (f : Quad → Quad) : (s.modQuad i f).running = s.running := rfl
@[simp] theorem modQuad_sensors (s : State) (i : Nat) (f : Quad → Quad) : (s.modQuad i f).sensors = s.sensors := rfl
@[simp] theorem modQuad_hot (s : State) (i : Nat) (f : Quad → Quad) : (s.modQuad i f).hot = s.hot := rfl
@[simp] theorem modQuad_capInForce (s : State) (i : Nat) (f : Quad → Quad) : (s.modQuad i f).capInForce = s.capInForce := rfl
@[simp] theorem modQuad_halted (s : State) (i : Nat) (f : Quad → Quad) : (s.modQuad i f).halted = s.halted := rfl
@[simp] theorem modQuad_pkgid (s : State) (i : Nat) (f : Quad → Quad) : (s.modQuad i f).pkgid = s.pkgid := rfl
@[simp] theorem modQuad_tbase (s : State) (i : Nat) (f : Quad → Quad) : (s.modQuad i f).tbase = s.tbase := rfl
@[simp] theorem modQuad_quarters (s : State) (i : Nat) (f : Quad → Quad) : (s.modQuad i f).quarters = s.quarters := rfl
@[simp] theorem modQuad_slew (s : State) (i : Nat) (f : Quad → Quad) : (s.modQuad i f).slew = s.slew := rfl
@[simp] theorem modQuad_lastSlew (s : State) (i : Nat) (f : Quad → Quad) : (s.modQuad i f).lastSlew = s.lastSlew := rfl
@[simp] theorem modQuad_outbox (s : State) (i : Nat) (f : Quad → Quad) : (s.modQuad i f).outbox = s.outbox := rfl
@[simp] theorem modQuad_agenda (s : State) (i : Nat) (f : Quad → Quad) : (s.modQuad i f).agenda = s.agenda := rfl
@[simp] theorem modQuad_nextCore (s : State) (i : Nat) (f : Quad → Quad) : (s.modQuad i f).nextCore = s.nextCore := rfl
@[simp] theorem modQuad_issue (s : State) (i : Nat) (f : Quad → Quad) : (s.modQuad i f).issue = s.issue := rfl
@[simp] theorem modQuad_freeIdx (s : State) (i : Nat) (f : Quad → Quad) : (s.modQuad i f).freeIdx = s.freeIdx := rfl
@[simp] theorem modQuad_nextId (s : State) (i : Nat) (f : Quad → Quad) : (s.modQuad i f).nextId = s.nextId := rfl

/-! ### State.modDie -/

@[simp] theorem modDie_mem (s : State) (i : Nat) (f : Die → Die) : (s.modDie i f).mem = s.mem := rfl
@[simp] theorem modDie_mmio (s : State) (i : Nat) (f : Die → Die) : (s.modDie i f).mmio = s.mmio := rfl
@[simp] theorem modDie_cycleSets (s : State) (i : Nat) (f : Die → Die) : (s.modDie i f).cycleSets = s.cycleSets := rfl
@[simp] theorem modDie_touched (s : State) (i : Nat) (f : Die → Die) : (s.modDie i f).touched = s.touched := rfl
@[simp] theorem modDie_ctxs (s : State) (i : Nat) (f : Die → Die) : (s.modDie i f).ctxs = s.ctxs := rfl
@[simp] theorem modDie_cores (s : State) (i : Nat) (f : Die → Die) : (s.modDie i f).cores = s.cores := rfl
@[simp] theorem modDie_quads (s : State) (i : Nat) (f : Die → Die) : (s.modDie i f).quads = s.quads := rfl
@[simp] theorem modDie_queues (s : State) (i : Nat) (f : Die → Die) : (s.modDie i f).queues = s.queues := rfl
@[simp] theorem modDie_images (s : State) (i : Nat) (f : Die → Die) : (s.modDie i f).images = s.images := rfl
@[simp] theorem modDie_pages (s : State) (i : Nat) (f : Die → Die) : (s.modDie i f).pages = s.pages := rfl
@[simp] theorem modDie_pageOwner (s : State) (i : Nat) (f : Die → Die) : (s.modDie i f).pageOwner = s.pageOwner := rfl
@[simp] theorem modDie_taskQueues (s : State) (i : Nat) (f : Die → Die) : (s.modDie i f).taskQueues = s.taskQueues := rfl
@[simp] theorem modDie_jobs (s : State) (i : Nat) (f : Die → Die) : (s.modDie i f).jobs = s.jobs := rfl
@[simp] theorem modDie_ranges (s : State) (i : Nat) (f : Die → Die) : (s.modDie i f).ranges = s.ranges := rfl
@[simp] theorem modDie_pool (s : State) (i : Nat) (f : Die → Die) : (s.modDie i f).pool = s.pool := rfl
@[simp] theorem modDie_poolRa (s : State) (i : Nat) (f : Die → Die) : (s.modDie i f).poolRa = s.poolRa := rfl
@[simp] theorem modDie_held (s : State) (i : Nat) (f : Die → Die) : (s.modDie i f).held = s.held := rfl
@[simp] theorem modDie_saved (s : State) (i : Nat) (f : Die → Die) : (s.modDie i f).saved = s.saved := rfl
@[simp] theorem modDie_stored (s : State) (i : Nat) (f : Die → Die) : (s.modDie i f).stored = s.stored := rfl
@[simp] theorem modDie_journals (s : State) (i : Nat) (f : Die → Die) : (s.modDie i f).journals = s.journals := rfl
@[simp] theorem modDie_carried (s : State) (i : Nat) (f : Die → Die) : (s.modDie i f).carried = s.carried := rfl
@[simp] theorem modDie_wounds (s : State) (i : Nat) (f : Die → Die) : (s.modDie i f).wounds = s.wounds := rfl
@[simp] theorem modDie_bdq (s : State) (i : Nat) (f : Die → Die) : (s.modDie i f).bdq = s.bdq := rfl
@[simp] theorem modDie_barriers (s : State) (i : Nat) (f : Die → Die) : (s.modDie i f).barriers = s.barriers := rfl
@[simp] theorem modDie_podHalves (s : State) (i : Nat) (f : Die → Die) : (s.modDie i f).podHalves = s.podHalves := rfl
@[simp] theorem modDie_podHolders (s : State) (i : Nat) (f : Die → Die) : (s.modDie i f).podHolders = s.podHolders := rfl
@[simp] theorem modDie_parked (s : State) (i : Nat) (f : Die → Die) : (s.modDie i f).parked = s.parked := rfl
@[simp] theorem modDie_wheels (s : State) (i : Nat) (f : Die → Die) : (s.modDie i f).wheels = s.wheels := rfl
@[simp] theorem modDie_residency (s : State) (i : Nat) (f : Die → Die) : (s.modDie i f).residency = s.residency := rfl
@[simp] theorem modDie_fills (s : State) (i : Nat) (f : Die → Die) : (s.modDie i f).fills = s.fills := rfl
@[simp] theorem modDie_evictions (s : State) (i : Nat) (f : Die → Die) : (s.modDie i f).evictions = s.evictions := rfl
@[simp] theorem modDie_refresh (s : State) (i : Nat) (f : Die → Die) : (s.modDie i f).refresh = s.refresh := rfl
@[simp] theorem modDie_gather (s : State) (i : Nat) (f : Die → Die) : (s.modDie i f).gather = s.gather := rfl
@[simp] theorem modDie_collSeq (s : State) (i : Nat) (f : Die → Die) : (s.modDie i f).collSeq = s.collSeq := rfl
@[simp] theorem modDie_colls (s : State) (i : Nat) (f : Die → Die) : (s.modDie i f).colls = s.colls := rfl
@[simp] theorem modDie_links (s : State) (i : Nat) (f : Die → Die) : (s.modDie i f).links = s.links := rfl
@[simp] theorem modDie_ropeOut (s : State) (i : Nat) (f : Die → Die) : (s.modDie i f).ropeOut = s.ropeOut := rfl
@[simp] theorem modDie_ropePorts (s : State) (i : Nat) (f : Die → Die) : (s.modDie i f).ropePorts = s.ropePorts := rfl
@[simp] theorem modDie_transits (s : State) (i : Nat) (f : Die → Die) : (s.modDie i f).transits = s.transits := rfl
@[simp] theorem modDie_linkUp (s : State) (i : Nat) (f : Die → Die) : (s.modDie i f).linkUp = s.linkUp := rfl
@[simp] theorem modDie_claimed (s : State) (i : Nat) (f : Die → Die) : (s.modDie i f).claimed = s.claimed := rfl
@[simp] theorem modDie_bmcI3c (s : State) (i : Nat) (f : Die → Die) : (s.modDie i f).bmcI3c = s.bmcI3c := rfl
@[simp] theorem modDie_evSeq (s : State) (i : Nat) (f : Die → Die) : (s.modDie i f).evSeq = s.evSeq := rfl
@[simp] theorem modDie_evPending (s : State) (i : Nat) (f : Die → Die) : (s.modDie i f).evPending = s.evPending := rfl
@[simp] theorem modDie_heldWrites (s : State) (i : Nat) (f : Die → Die) : (s.modDie i f).heldWrites = s.heldWrites := rfl
@[simp] theorem modDie_hostLines (s : State) (i : Nat) (f : Die → Die) : (s.modDie i f).hostLines = s.hostLines := rfl
@[simp] theorem modDie_snoops (s : State) (i : Nat) (f : Die → Die) : (s.modDie i f).snoops = s.snoops := rfl
@[simp] theorem modDie_hostPuts (s : State) (i : Nat) (f : Die → Die) : (s.modDie i f).hostPuts = s.hostPuts := rfl
@[simp] theorem modDie_monDuty (s : State) (i : Nat) (f : Die → Die) : (s.modDie i f).monDuty = s.monDuty := rfl
@[simp] theorem modDie_banks (s : State) (i : Nat) (f : Die → Die) : (s.modDie i f).banks = s.banks := rfl
@[simp] theorem modDie_activeBank (s : State) (i : Nat) (f : Die → Die) : (s.modDie i f).activeBank = s.activeBank := rfl
@[simp] theorem modDie_nextBank (s : State) (i : Nat) (f : Die → Die) : (s.modDie i f).nextBank = s.nextBank := rfl
@[simp] theorem modDie_fusedMin (s : State) (i : Nat) (f : Die → Die) : (s.modDie i f).fusedMin = s.fusedMin := rfl
@[simp] theorem modDie_running (s : State) (i : Nat) (f : Die → Die) : (s.modDie i f).running = s.running := rfl
@[simp] theorem modDie_sensors (s : State) (i : Nat) (f : Die → Die) : (s.modDie i f).sensors = s.sensors := rfl
@[simp] theorem modDie_hot (s : State) (i : Nat) (f : Die → Die) : (s.modDie i f).hot = s.hot := rfl
@[simp] theorem modDie_capInForce (s : State) (i : Nat) (f : Die → Die) : (s.modDie i f).capInForce = s.capInForce := rfl
@[simp] theorem modDie_halted (s : State) (i : Nat) (f : Die → Die) : (s.modDie i f).halted = s.halted := rfl
@[simp] theorem modDie_pkgid (s : State) (i : Nat) (f : Die → Die) : (s.modDie i f).pkgid = s.pkgid := rfl
@[simp] theorem modDie_tbase (s : State) (i : Nat) (f : Die → Die) : (s.modDie i f).tbase = s.tbase := rfl
@[simp] theorem modDie_quarters (s : State) (i : Nat) (f : Die → Die) : (s.modDie i f).quarters = s.quarters := rfl
@[simp] theorem modDie_slew (s : State) (i : Nat) (f : Die → Die) : (s.modDie i f).slew = s.slew := rfl
@[simp] theorem modDie_lastSlew (s : State) (i : Nat) (f : Die → Die) : (s.modDie i f).lastSlew = s.lastSlew := rfl
@[simp] theorem modDie_outbox (s : State) (i : Nat) (f : Die → Die) : (s.modDie i f).outbox = s.outbox := rfl
@[simp] theorem modDie_agenda (s : State) (i : Nat) (f : Die → Die) : (s.modDie i f).agenda = s.agenda := rfl
@[simp] theorem modDie_nextCore (s : State) (i : Nat) (f : Die → Die) : (s.modDie i f).nextCore = s.nextCore := rfl
@[simp] theorem modDie_issue (s : State) (i : Nat) (f : Die → Die) : (s.modDie i f).issue = s.issue := rfl
@[simp] theorem modDie_freeIdx (s : State) (i : Nat) (f : Die → Die) : (s.modDie i f).freeIdx = s.freeIdx := rfl
@[simp] theorem modDie_nextId (s : State) (i : Nat) (f : Die → Die) : (s.modDie i f).nextId = s.nextId := rfl

/-! ### State.first -/

@[simp] theorem first_mem (s : State) (l : List Instr) : (s.first l).mem = s.mem := rfl
@[simp] theorem first_mmio (s : State) (l : List Instr) : (s.first l).mmio = s.mmio := rfl
@[simp] theorem first_cycleSets (s : State) (l : List Instr) : (s.first l).cycleSets = s.cycleSets := rfl
@[simp] theorem first_touched (s : State) (l : List Instr) : (s.first l).touched = s.touched := rfl
@[simp] theorem first_ctxs (s : State) (l : List Instr) : (s.first l).ctxs = s.ctxs := rfl
@[simp] theorem first_cores (s : State) (l : List Instr) : (s.first l).cores = s.cores := rfl
@[simp] theorem first_quads (s : State) (l : List Instr) : (s.first l).quads = s.quads := rfl
@[simp] theorem first_dies (s : State) (l : List Instr) : (s.first l).dies = s.dies := rfl
@[simp] theorem first_queues (s : State) (l : List Instr) : (s.first l).queues = s.queues := rfl
@[simp] theorem first_images (s : State) (l : List Instr) : (s.first l).images = s.images := rfl
@[simp] theorem first_pages (s : State) (l : List Instr) : (s.first l).pages = s.pages := rfl
@[simp] theorem first_pageOwner (s : State) (l : List Instr) : (s.first l).pageOwner = s.pageOwner := rfl
@[simp] theorem first_taskQueues (s : State) (l : List Instr) : (s.first l).taskQueues = s.taskQueues := rfl
@[simp] theorem first_jobs (s : State) (l : List Instr) : (s.first l).jobs = s.jobs := rfl
@[simp] theorem first_ranges (s : State) (l : List Instr) : (s.first l).ranges = s.ranges := rfl
@[simp] theorem first_pool (s : State) (l : List Instr) : (s.first l).pool = s.pool := rfl
@[simp] theorem first_poolRa (s : State) (l : List Instr) : (s.first l).poolRa = s.poolRa := rfl
@[simp] theorem first_held (s : State) (l : List Instr) : (s.first l).held = s.held := rfl
@[simp] theorem first_saved (s : State) (l : List Instr) : (s.first l).saved = s.saved := rfl
@[simp] theorem first_stored (s : State) (l : List Instr) : (s.first l).stored = s.stored := rfl
@[simp] theorem first_journals (s : State) (l : List Instr) : (s.first l).journals = s.journals := rfl
@[simp] theorem first_carried (s : State) (l : List Instr) : (s.first l).carried = s.carried := rfl
@[simp] theorem first_wounds (s : State) (l : List Instr) : (s.first l).wounds = s.wounds := rfl
@[simp] theorem first_bdq (s : State) (l : List Instr) : (s.first l).bdq = s.bdq := rfl
@[simp] theorem first_barriers (s : State) (l : List Instr) : (s.first l).barriers = s.barriers := rfl
@[simp] theorem first_podHalves (s : State) (l : List Instr) : (s.first l).podHalves = s.podHalves := rfl
@[simp] theorem first_podHolders (s : State) (l : List Instr) : (s.first l).podHolders = s.podHolders := rfl
@[simp] theorem first_parked (s : State) (l : List Instr) : (s.first l).parked = s.parked := rfl
@[simp] theorem first_wheels (s : State) (l : List Instr) : (s.first l).wheels = s.wheels := rfl
@[simp] theorem first_residency (s : State) (l : List Instr) : (s.first l).residency = s.residency := rfl
@[simp] theorem first_fills (s : State) (l : List Instr) : (s.first l).fills = s.fills := rfl
@[simp] theorem first_evictions (s : State) (l : List Instr) : (s.first l).evictions = s.evictions := rfl
@[simp] theorem first_refresh (s : State) (l : List Instr) : (s.first l).refresh = s.refresh := rfl
@[simp] theorem first_gather (s : State) (l : List Instr) : (s.first l).gather = s.gather := rfl
@[simp] theorem first_collSeq (s : State) (l : List Instr) : (s.first l).collSeq = s.collSeq := rfl
@[simp] theorem first_colls (s : State) (l : List Instr) : (s.first l).colls = s.colls := rfl
@[simp] theorem first_links (s : State) (l : List Instr) : (s.first l).links = s.links := rfl
@[simp] theorem first_ropeOut (s : State) (l : List Instr) : (s.first l).ropeOut = s.ropeOut := rfl
@[simp] theorem first_ropePorts (s : State) (l : List Instr) : (s.first l).ropePorts = s.ropePorts := rfl
@[simp] theorem first_transits (s : State) (l : List Instr) : (s.first l).transits = s.transits := rfl
@[simp] theorem first_linkUp (s : State) (l : List Instr) : (s.first l).linkUp = s.linkUp := rfl
@[simp] theorem first_claimed (s : State) (l : List Instr) : (s.first l).claimed = s.claimed := rfl
@[simp] theorem first_bmcI3c (s : State) (l : List Instr) : (s.first l).bmcI3c = s.bmcI3c := rfl
@[simp] theorem first_evSeq (s : State) (l : List Instr) : (s.first l).evSeq = s.evSeq := rfl
@[simp] theorem first_evPending (s : State) (l : List Instr) : (s.first l).evPending = s.evPending := rfl
@[simp] theorem first_heldWrites (s : State) (l : List Instr) : (s.first l).heldWrites = s.heldWrites := rfl
@[simp] theorem first_hostLines (s : State) (l : List Instr) : (s.first l).hostLines = s.hostLines := rfl
@[simp] theorem first_snoops (s : State) (l : List Instr) : (s.first l).snoops = s.snoops := rfl
@[simp] theorem first_hostPuts (s : State) (l : List Instr) : (s.first l).hostPuts = s.hostPuts := rfl
@[simp] theorem first_monDuty (s : State) (l : List Instr) : (s.first l).monDuty = s.monDuty := rfl
@[simp] theorem first_banks (s : State) (l : List Instr) : (s.first l).banks = s.banks := rfl
@[simp] theorem first_activeBank (s : State) (l : List Instr) : (s.first l).activeBank = s.activeBank := rfl
@[simp] theorem first_nextBank (s : State) (l : List Instr) : (s.first l).nextBank = s.nextBank := rfl
@[simp] theorem first_fusedMin (s : State) (l : List Instr) : (s.first l).fusedMin = s.fusedMin := rfl
@[simp] theorem first_running (s : State) (l : List Instr) : (s.first l).running = s.running := rfl
@[simp] theorem first_sensors (s : State) (l : List Instr) : (s.first l).sensors = s.sensors := rfl
@[simp] theorem first_hot (s : State) (l : List Instr) : (s.first l).hot = s.hot := rfl
@[simp] theorem first_capInForce (s : State) (l : List Instr) : (s.first l).capInForce = s.capInForce := rfl
@[simp] theorem first_halted (s : State) (l : List Instr) : (s.first l).halted = s.halted := rfl
@[simp] theorem first_pkgid (s : State) (l : List Instr) : (s.first l).pkgid = s.pkgid := rfl
@[simp] theorem first_tbase (s : State) (l : List Instr) : (s.first l).tbase = s.tbase := rfl
@[simp] theorem first_quarters (s : State) (l : List Instr) : (s.first l).quarters = s.quarters := rfl
@[simp] theorem first_slew (s : State) (l : List Instr) : (s.first l).slew = s.slew := rfl
@[simp] theorem first_lastSlew (s : State) (l : List Instr) : (s.first l).lastSlew = s.lastSlew := rfl
@[simp] theorem first_outbox (s : State) (l : List Instr) : (s.first l).outbox = s.outbox := rfl
@[simp] theorem first_nextCore (s : State) (l : List Instr) : (s.first l).nextCore = s.nextCore := rfl
@[simp] theorem first_issue (s : State) (l : List Instr) : (s.first l).issue = s.issue := rfl
@[simp] theorem first_freeIdx (s : State) (l : List Instr) : (s.first l).freeIdx = s.freeIdx := rfl
@[simp] theorem first_nextId (s : State) (l : List Instr) : (s.first l).nextId = s.nextId := rfl

/-! ### State.send -/

@[simp] theorem send_mem (s : State) (m : OutMsg) : (s.send m).mem = s.mem := rfl
@[simp] theorem send_mmio (s : State) (m : OutMsg) : (s.send m).mmio = s.mmio := rfl
@[simp] theorem send_cycleSets (s : State) (m : OutMsg) : (s.send m).cycleSets = s.cycleSets := rfl
@[simp] theorem send_touched (s : State) (m : OutMsg) : (s.send m).touched = s.touched := rfl
@[simp] theorem send_ctxs (s : State) (m : OutMsg) : (s.send m).ctxs = s.ctxs := rfl
@[simp] theorem send_cores (s : State) (m : OutMsg) : (s.send m).cores = s.cores := rfl
@[simp] theorem send_quads (s : State) (m : OutMsg) : (s.send m).quads = s.quads := rfl
@[simp] theorem send_dies (s : State) (m : OutMsg) : (s.send m).dies = s.dies := rfl
@[simp] theorem send_queues (s : State) (m : OutMsg) : (s.send m).queues = s.queues := rfl
@[simp] theorem send_images (s : State) (m : OutMsg) : (s.send m).images = s.images := rfl
@[simp] theorem send_pages (s : State) (m : OutMsg) : (s.send m).pages = s.pages := rfl
@[simp] theorem send_pageOwner (s : State) (m : OutMsg) : (s.send m).pageOwner = s.pageOwner := rfl
@[simp] theorem send_taskQueues (s : State) (m : OutMsg) : (s.send m).taskQueues = s.taskQueues := rfl
@[simp] theorem send_jobs (s : State) (m : OutMsg) : (s.send m).jobs = s.jobs := rfl
@[simp] theorem send_ranges (s : State) (m : OutMsg) : (s.send m).ranges = s.ranges := rfl
@[simp] theorem send_pool (s : State) (m : OutMsg) : (s.send m).pool = s.pool := rfl
@[simp] theorem send_poolRa (s : State) (m : OutMsg) : (s.send m).poolRa = s.poolRa := rfl
@[simp] theorem send_held (s : State) (m : OutMsg) : (s.send m).held = s.held := rfl
@[simp] theorem send_saved (s : State) (m : OutMsg) : (s.send m).saved = s.saved := rfl
@[simp] theorem send_stored (s : State) (m : OutMsg) : (s.send m).stored = s.stored := rfl
@[simp] theorem send_journals (s : State) (m : OutMsg) : (s.send m).journals = s.journals := rfl
@[simp] theorem send_carried (s : State) (m : OutMsg) : (s.send m).carried = s.carried := rfl
@[simp] theorem send_wounds (s : State) (m : OutMsg) : (s.send m).wounds = s.wounds := rfl
@[simp] theorem send_bdq (s : State) (m : OutMsg) : (s.send m).bdq = s.bdq := rfl
@[simp] theorem send_barriers (s : State) (m : OutMsg) : (s.send m).barriers = s.barriers := rfl
@[simp] theorem send_podHalves (s : State) (m : OutMsg) : (s.send m).podHalves = s.podHalves := rfl
@[simp] theorem send_podHolders (s : State) (m : OutMsg) : (s.send m).podHolders = s.podHolders := rfl
@[simp] theorem send_parked (s : State) (m : OutMsg) : (s.send m).parked = s.parked := rfl
@[simp] theorem send_wheels (s : State) (m : OutMsg) : (s.send m).wheels = s.wheels := rfl
@[simp] theorem send_residency (s : State) (m : OutMsg) : (s.send m).residency = s.residency := rfl
@[simp] theorem send_fills (s : State) (m : OutMsg) : (s.send m).fills = s.fills := rfl
@[simp] theorem send_evictions (s : State) (m : OutMsg) : (s.send m).evictions = s.evictions := rfl
@[simp] theorem send_refresh (s : State) (m : OutMsg) : (s.send m).refresh = s.refresh := rfl
@[simp] theorem send_gather (s : State) (m : OutMsg) : (s.send m).gather = s.gather := rfl
@[simp] theorem send_collSeq (s : State) (m : OutMsg) : (s.send m).collSeq = s.collSeq := rfl
@[simp] theorem send_colls (s : State) (m : OutMsg) : (s.send m).colls = s.colls := rfl
@[simp] theorem send_links (s : State) (m : OutMsg) : (s.send m).links = s.links := rfl
@[simp] theorem send_ropeOut (s : State) (m : OutMsg) : (s.send m).ropeOut = s.ropeOut := rfl
@[simp] theorem send_ropePorts (s : State) (m : OutMsg) : (s.send m).ropePorts = s.ropePorts := rfl
@[simp] theorem send_transits (s : State) (m : OutMsg) : (s.send m).transits = s.transits := rfl
@[simp] theorem send_linkUp (s : State) (m : OutMsg) : (s.send m).linkUp = s.linkUp := rfl
@[simp] theorem send_claimed (s : State) (m : OutMsg) : (s.send m).claimed = s.claimed := rfl
@[simp] theorem send_bmcI3c (s : State) (m : OutMsg) : (s.send m).bmcI3c = s.bmcI3c := rfl
@[simp] theorem send_evSeq (s : State) (m : OutMsg) : (s.send m).evSeq = s.evSeq := rfl
@[simp] theorem send_evPending (s : State) (m : OutMsg) : (s.send m).evPending = s.evPending := rfl
@[simp] theorem send_heldWrites (s : State) (m : OutMsg) : (s.send m).heldWrites = s.heldWrites := rfl
@[simp] theorem send_hostLines (s : State) (m : OutMsg) : (s.send m).hostLines = s.hostLines := rfl
@[simp] theorem send_snoops (s : State) (m : OutMsg) : (s.send m).snoops = s.snoops := rfl
@[simp] theorem send_hostPuts (s : State) (m : OutMsg) : (s.send m).hostPuts = s.hostPuts := rfl
@[simp] theorem send_monDuty (s : State) (m : OutMsg) : (s.send m).monDuty = s.monDuty := rfl
@[simp] theorem send_banks (s : State) (m : OutMsg) : (s.send m).banks = s.banks := rfl
@[simp] theorem send_activeBank (s : State) (m : OutMsg) : (s.send m).activeBank = s.activeBank := rfl
@[simp] theorem send_nextBank (s : State) (m : OutMsg) : (s.send m).nextBank = s.nextBank := rfl
@[simp] theorem send_fusedMin (s : State) (m : OutMsg) : (s.send m).fusedMin = s.fusedMin := rfl
@[simp] theorem send_running (s : State) (m : OutMsg) : (s.send m).running = s.running := rfl
@[simp] theorem send_sensors (s : State) (m : OutMsg) : (s.send m).sensors = s.sensors := rfl
@[simp] theorem send_hot (s : State) (m : OutMsg) : (s.send m).hot = s.hot := rfl
@[simp] theorem send_capInForce (s : State) (m : OutMsg) : (s.send m).capInForce = s.capInForce := rfl
@[simp] theorem send_halted (s : State) (m : OutMsg) : (s.send m).halted = s.halted := rfl
@[simp] theorem send_pkgid (s : State) (m : OutMsg) : (s.send m).pkgid = s.pkgid := rfl
@[simp] theorem send_tbase (s : State) (m : OutMsg) : (s.send m).tbase = s.tbase := rfl
@[simp] theorem send_quarters (s : State) (m : OutMsg) : (s.send m).quarters = s.quarters := rfl
@[simp] theorem send_slew (s : State) (m : OutMsg) : (s.send m).slew = s.slew := rfl
@[simp] theorem send_lastSlew (s : State) (m : OutMsg) : (s.send m).lastSlew = s.lastSlew := rfl
@[simp] theorem send_agenda (s : State) (m : OutMsg) : (s.send m).agenda = s.agenda := rfl
@[simp] theorem send_nextCore (s : State) (m : OutMsg) : (s.send m).nextCore = s.nextCore := rfl
@[simp] theorem send_issue (s : State) (m : OutMsg) : (s.send m).issue = s.issue := rfl
@[simp] theorem send_freeIdx (s : State) (m : OutMsg) : (s.send m).freeIdx = s.freeIdx := rfl
@[simp] theorem send_nextId (s : State) (m : OutMsg) : (s.send m).nextId = s.nextId := rfl

/-! ### State.own -/

@[simp] theorem own_mem (s : State) (f : Ctx → Ctx) : (s.own f).mem = s.mem := rfl
@[simp] theorem own_mmio (s : State) (f : Ctx → Ctx) : (s.own f).mmio = s.mmio := rfl
@[simp] theorem own_cycleSets (s : State) (f : Ctx → Ctx) : (s.own f).cycleSets = s.cycleSets := rfl
@[simp] theorem own_touched (s : State) (f : Ctx → Ctx) : (s.own f).touched = s.touched := rfl
@[simp] theorem own_cores (s : State) (f : Ctx → Ctx) : (s.own f).cores = s.cores := rfl
@[simp] theorem own_quads (s : State) (f : Ctx → Ctx) : (s.own f).quads = s.quads := rfl
@[simp] theorem own_dies (s : State) (f : Ctx → Ctx) : (s.own f).dies = s.dies := rfl
@[simp] theorem own_queues (s : State) (f : Ctx → Ctx) : (s.own f).queues = s.queues := rfl
@[simp] theorem own_images (s : State) (f : Ctx → Ctx) : (s.own f).images = s.images := rfl
@[simp] theorem own_pages (s : State) (f : Ctx → Ctx) : (s.own f).pages = s.pages := rfl
@[simp] theorem own_pageOwner (s : State) (f : Ctx → Ctx) : (s.own f).pageOwner = s.pageOwner := rfl
@[simp] theorem own_taskQueues (s : State) (f : Ctx → Ctx) : (s.own f).taskQueues = s.taskQueues := rfl
@[simp] theorem own_jobs (s : State) (f : Ctx → Ctx) : (s.own f).jobs = s.jobs := rfl
@[simp] theorem own_ranges (s : State) (f : Ctx → Ctx) : (s.own f).ranges = s.ranges := rfl
@[simp] theorem own_pool (s : State) (f : Ctx → Ctx) : (s.own f).pool = s.pool := rfl
@[simp] theorem own_poolRa (s : State) (f : Ctx → Ctx) : (s.own f).poolRa = s.poolRa := rfl
@[simp] theorem own_held (s : State) (f : Ctx → Ctx) : (s.own f).held = s.held := rfl
@[simp] theorem own_saved (s : State) (f : Ctx → Ctx) : (s.own f).saved = s.saved := rfl
@[simp] theorem own_stored (s : State) (f : Ctx → Ctx) : (s.own f).stored = s.stored := rfl
@[simp] theorem own_journals (s : State) (f : Ctx → Ctx) : (s.own f).journals = s.journals := rfl
@[simp] theorem own_carried (s : State) (f : Ctx → Ctx) : (s.own f).carried = s.carried := rfl
@[simp] theorem own_wounds (s : State) (f : Ctx → Ctx) : (s.own f).wounds = s.wounds := rfl
@[simp] theorem own_bdq (s : State) (f : Ctx → Ctx) : (s.own f).bdq = s.bdq := rfl
@[simp] theorem own_barriers (s : State) (f : Ctx → Ctx) : (s.own f).barriers = s.barriers := rfl
@[simp] theorem own_podHalves (s : State) (f : Ctx → Ctx) : (s.own f).podHalves = s.podHalves := rfl
@[simp] theorem own_podHolders (s : State) (f : Ctx → Ctx) : (s.own f).podHolders = s.podHolders := rfl
@[simp] theorem own_parked (s : State) (f : Ctx → Ctx) : (s.own f).parked = s.parked := rfl
@[simp] theorem own_wheels (s : State) (f : Ctx → Ctx) : (s.own f).wheels = s.wheels := rfl
@[simp] theorem own_residency (s : State) (f : Ctx → Ctx) : (s.own f).residency = s.residency := rfl
@[simp] theorem own_fills (s : State) (f : Ctx → Ctx) : (s.own f).fills = s.fills := rfl
@[simp] theorem own_evictions (s : State) (f : Ctx → Ctx) : (s.own f).evictions = s.evictions := rfl
@[simp] theorem own_refresh (s : State) (f : Ctx → Ctx) : (s.own f).refresh = s.refresh := rfl
@[simp] theorem own_gather (s : State) (f : Ctx → Ctx) : (s.own f).gather = s.gather := rfl
@[simp] theorem own_collSeq (s : State) (f : Ctx → Ctx) : (s.own f).collSeq = s.collSeq := rfl
@[simp] theorem own_colls (s : State) (f : Ctx → Ctx) : (s.own f).colls = s.colls := rfl
@[simp] theorem own_links (s : State) (f : Ctx → Ctx) : (s.own f).links = s.links := rfl
@[simp] theorem own_ropeOut (s : State) (f : Ctx → Ctx) : (s.own f).ropeOut = s.ropeOut := rfl
@[simp] theorem own_ropePorts (s : State) (f : Ctx → Ctx) : (s.own f).ropePorts = s.ropePorts := rfl
@[simp] theorem own_transits (s : State) (f : Ctx → Ctx) : (s.own f).transits = s.transits := rfl
@[simp] theorem own_linkUp (s : State) (f : Ctx → Ctx) : (s.own f).linkUp = s.linkUp := rfl
@[simp] theorem own_claimed (s : State) (f : Ctx → Ctx) : (s.own f).claimed = s.claimed := rfl
@[simp] theorem own_bmcI3c (s : State) (f : Ctx → Ctx) : (s.own f).bmcI3c = s.bmcI3c := rfl
@[simp] theorem own_evSeq (s : State) (f : Ctx → Ctx) : (s.own f).evSeq = s.evSeq := rfl
@[simp] theorem own_evPending (s : State) (f : Ctx → Ctx) : (s.own f).evPending = s.evPending := rfl
@[simp] theorem own_heldWrites (s : State) (f : Ctx → Ctx) : (s.own f).heldWrites = s.heldWrites := rfl
@[simp] theorem own_hostLines (s : State) (f : Ctx → Ctx) : (s.own f).hostLines = s.hostLines := rfl
@[simp] theorem own_snoops (s : State) (f : Ctx → Ctx) : (s.own f).snoops = s.snoops := rfl
@[simp] theorem own_hostPuts (s : State) (f : Ctx → Ctx) : (s.own f).hostPuts = s.hostPuts := rfl
@[simp] theorem own_monDuty (s : State) (f : Ctx → Ctx) : (s.own f).monDuty = s.monDuty := rfl
@[simp] theorem own_banks (s : State) (f : Ctx → Ctx) : (s.own f).banks = s.banks := rfl
@[simp] theorem own_activeBank (s : State) (f : Ctx → Ctx) : (s.own f).activeBank = s.activeBank := rfl
@[simp] theorem own_nextBank (s : State) (f : Ctx → Ctx) : (s.own f).nextBank = s.nextBank := rfl
@[simp] theorem own_fusedMin (s : State) (f : Ctx → Ctx) : (s.own f).fusedMin = s.fusedMin := rfl
@[simp] theorem own_running (s : State) (f : Ctx → Ctx) : (s.own f).running = s.running := rfl
@[simp] theorem own_sensors (s : State) (f : Ctx → Ctx) : (s.own f).sensors = s.sensors := rfl
@[simp] theorem own_hot (s : State) (f : Ctx → Ctx) : (s.own f).hot = s.hot := rfl
@[simp] theorem own_capInForce (s : State) (f : Ctx → Ctx) : (s.own f).capInForce = s.capInForce := rfl
@[simp] theorem own_halted (s : State) (f : Ctx → Ctx) : (s.own f).halted = s.halted := rfl
@[simp] theorem own_pkgid (s : State) (f : Ctx → Ctx) : (s.own f).pkgid = s.pkgid := rfl
@[simp] theorem own_tbase (s : State) (f : Ctx → Ctx) : (s.own f).tbase = s.tbase := rfl
@[simp] theorem own_quarters (s : State) (f : Ctx → Ctx) : (s.own f).quarters = s.quarters := rfl
@[simp] theorem own_slew (s : State) (f : Ctx → Ctx) : (s.own f).slew = s.slew := rfl
@[simp] theorem own_lastSlew (s : State) (f : Ctx → Ctx) : (s.own f).lastSlew = s.lastSlew := rfl
@[simp] theorem own_outbox (s : State) (f : Ctx → Ctx) : (s.own f).outbox = s.outbox := rfl
@[simp] theorem own_agenda (s : State) (f : Ctx → Ctx) : (s.own f).agenda = s.agenda := rfl
@[simp] theorem own_nextCore (s : State) (f : Ctx → Ctx) : (s.own f).nextCore = s.nextCore := rfl
@[simp] theorem own_issue (s : State) (f : Ctx → Ctx) : (s.own f).issue = s.issue := rfl
@[simp] theorem own_freeIdx (s : State) (f : Ctx → Ctx) : (s.own f).freeIdx = s.freeIdx := rfl
@[simp] theorem own_nextId (s : State) (f : Ctx → Ctx) : (s.own f).nextId = s.nextId := rfl

/-! ### State.waits -/

@[simp] theorem waits_mem (s : State) : (s.waits).mem = s.mem := rfl
@[simp] theorem waits_mmio (s : State) : (s.waits).mmio = s.mmio := rfl
@[simp] theorem waits_cycleSets (s : State) : (s.waits).cycleSets = s.cycleSets := rfl
@[simp] theorem waits_touched (s : State) : (s.waits).touched = s.touched := rfl
@[simp] theorem waits_ctxs (s : State) : (s.waits).ctxs = s.ctxs := rfl
@[simp] theorem waits_cores (s : State) : (s.waits).cores = s.cores := rfl
@[simp] theorem waits_quads (s : State) : (s.waits).quads = s.quads := rfl
@[simp] theorem waits_dies (s : State) : (s.waits).dies = s.dies := rfl
@[simp] theorem waits_queues (s : State) : (s.waits).queues = s.queues := rfl
@[simp] theorem waits_images (s : State) : (s.waits).images = s.images := rfl
@[simp] theorem waits_pages (s : State) : (s.waits).pages = s.pages := rfl
@[simp] theorem waits_pageOwner (s : State) : (s.waits).pageOwner = s.pageOwner := rfl
@[simp] theorem waits_taskQueues (s : State) : (s.waits).taskQueues = s.taskQueues := rfl
@[simp] theorem waits_jobs (s : State) : (s.waits).jobs = s.jobs := rfl
@[simp] theorem waits_ranges (s : State) : (s.waits).ranges = s.ranges := rfl
@[simp] theorem waits_pool (s : State) : (s.waits).pool = s.pool := rfl
@[simp] theorem waits_poolRa (s : State) : (s.waits).poolRa = s.poolRa := rfl
@[simp] theorem waits_held (s : State) : (s.waits).held = s.held := rfl
@[simp] theorem waits_saved (s : State) : (s.waits).saved = s.saved := rfl
@[simp] theorem waits_stored (s : State) : (s.waits).stored = s.stored := rfl
@[simp] theorem waits_journals (s : State) : (s.waits).journals = s.journals := rfl
@[simp] theorem waits_carried (s : State) : (s.waits).carried = s.carried := rfl
@[simp] theorem waits_wounds (s : State) : (s.waits).wounds = s.wounds := rfl
@[simp] theorem waits_bdq (s : State) : (s.waits).bdq = s.bdq := rfl
@[simp] theorem waits_barriers (s : State) : (s.waits).barriers = s.barriers := rfl
@[simp] theorem waits_podHalves (s : State) : (s.waits).podHalves = s.podHalves := rfl
@[simp] theorem waits_podHolders (s : State) : (s.waits).podHolders = s.podHolders := rfl
@[simp] theorem waits_parked (s : State) : (s.waits).parked = s.parked := rfl
@[simp] theorem waits_wheels (s : State) : (s.waits).wheels = s.wheels := rfl
@[simp] theorem waits_residency (s : State) : (s.waits).residency = s.residency := rfl
@[simp] theorem waits_fills (s : State) : (s.waits).fills = s.fills := rfl
@[simp] theorem waits_evictions (s : State) : (s.waits).evictions = s.evictions := rfl
@[simp] theorem waits_refresh (s : State) : (s.waits).refresh = s.refresh := rfl
@[simp] theorem waits_gather (s : State) : (s.waits).gather = s.gather := rfl
@[simp] theorem waits_collSeq (s : State) : (s.waits).collSeq = s.collSeq := rfl
@[simp] theorem waits_colls (s : State) : (s.waits).colls = s.colls := rfl
@[simp] theorem waits_links (s : State) : (s.waits).links = s.links := rfl
@[simp] theorem waits_ropeOut (s : State) : (s.waits).ropeOut = s.ropeOut := rfl
@[simp] theorem waits_ropePorts (s : State) : (s.waits).ropePorts = s.ropePorts := rfl
@[simp] theorem waits_transits (s : State) : (s.waits).transits = s.transits := rfl
@[simp] theorem waits_linkUp (s : State) : (s.waits).linkUp = s.linkUp := rfl
@[simp] theorem waits_claimed (s : State) : (s.waits).claimed = s.claimed := rfl
@[simp] theorem waits_bmcI3c (s : State) : (s.waits).bmcI3c = s.bmcI3c := rfl
@[simp] theorem waits_evSeq (s : State) : (s.waits).evSeq = s.evSeq := rfl
@[simp] theorem waits_evPending (s : State) : (s.waits).evPending = s.evPending := rfl
@[simp] theorem waits_heldWrites (s : State) : (s.waits).heldWrites = s.heldWrites := rfl
@[simp] theorem waits_hostLines (s : State) : (s.waits).hostLines = s.hostLines := rfl
@[simp] theorem waits_snoops (s : State) : (s.waits).snoops = s.snoops := rfl
@[simp] theorem waits_hostPuts (s : State) : (s.waits).hostPuts = s.hostPuts := rfl
@[simp] theorem waits_monDuty (s : State) : (s.waits).monDuty = s.monDuty := rfl
@[simp] theorem waits_banks (s : State) : (s.waits).banks = s.banks := rfl
@[simp] theorem waits_activeBank (s : State) : (s.waits).activeBank = s.activeBank := rfl
@[simp] theorem waits_nextBank (s : State) : (s.waits).nextBank = s.nextBank := rfl
@[simp] theorem waits_fusedMin (s : State) : (s.waits).fusedMin = s.fusedMin := rfl
@[simp] theorem waits_running (s : State) : (s.waits).running = s.running := rfl
@[simp] theorem waits_sensors (s : State) : (s.waits).sensors = s.sensors := rfl
@[simp] theorem waits_hot (s : State) : (s.waits).hot = s.hot := rfl
@[simp] theorem waits_capInForce (s : State) : (s.waits).capInForce = s.capInForce := rfl
@[simp] theorem waits_halted (s : State) : (s.waits).halted = s.halted := rfl
@[simp] theorem waits_pkgid (s : State) : (s.waits).pkgid = s.pkgid := rfl
@[simp] theorem waits_tbase (s : State) : (s.waits).tbase = s.tbase := rfl
@[simp] theorem waits_quarters (s : State) : (s.waits).quarters = s.quarters := rfl
@[simp] theorem waits_slew (s : State) : (s.waits).slew = s.slew := rfl
@[simp] theorem waits_lastSlew (s : State) : (s.waits).lastSlew = s.lastSlew := rfl
@[simp] theorem waits_outbox (s : State) : (s.waits).outbox = s.outbox := rfl
@[simp] theorem waits_agenda (s : State) : (s.waits).agenda = s.agenda := rfl
@[simp] theorem waits_nextCore (s : State) : (s.waits).nextCore = s.nextCore := rfl
@[simp] theorem waits_freeIdx (s : State) : (s.waits).freeIdx = s.freeIdx := rfl
@[simp] theorem waits_nextId (s : State) : (s.waits).nextId = s.nextId := rfl

/-! ### Accessors after their own update -/

@[simp] theorem ctx_setCtx_same (s : State) (k : Nat) (c : Ctx) : (s.setCtx k c).ctx k = c := by simp [State.ctx, State.setCtx]
@[simp] theorem ctx_setCtx_ne (s : State) {k j : Nat} (c : Ctx) (h : j ≠ k) : (s.setCtx k c).ctx j = s.ctx j := by simp [State.ctx, State.setCtx, h]
@[simp] theorem ctx_modCtx_same (s : State) (k : Nat) (f : Ctx → Ctx) : (s.modCtx k f).ctx k = f (s.ctx k) := by simp [State.modCtx]
@[simp] theorem ctx_modCtx_ne (s : State) {k j : Nat} (f : Ctx → Ctx) (h : j ≠ k) : (s.modCtx k f).ctx j = s.ctx j := by simp [State.modCtx, h]
@[simp] theorem me_own (s : State) (f : Ctx → Ctx) : (s.own f).me = f s.me := by
  show ((s.modCtx s.issue.key f).ctx s.issue.key) = f (s.ctx s.issue.key)
  simp
@[simp] theorem ctx_own_ne (s : State) {j : Nat} (f : Ctx → Ctx) (h : j ≠ s.issue.key) : (s.own f).ctx j = s.ctx j := by simp [State.own, h]
@[simp] theorem core_modCore_same (s : State) (i : Nat) (f : Core → Core) : (s.modCore i f).core i = f (s.core i) := by simp [State.core, State.modCore]
@[simp] theorem core_modCore_ne (s : State) {i j : Nat} (f : Core → Core) (h : j ≠ i) : (s.modCore i f).core j = s.core j := by simp [State.core, State.modCore, h]
@[simp] theorem quad_modQuad_same (s : State) (i : Nat) (f : Quad → Quad) : (s.modQuad i f).quad i = f (s.quad i) := by simp [State.quad, State.modQuad]
@[simp] theorem quad_modQuad_ne (s : State) {i j : Nat} (f : Quad → Quad) (h : j ≠ i) : (s.modQuad i f).quad j = s.quad j := by simp [State.quad, State.modQuad, h]
@[simp] theorem die_modDie_same (s : State) (i : Nat) (f : Die → Die) : (s.modDie i f).die i = f (s.die i) := by simp [State.die, State.modDie]
@[simp] theorem die_modDie_ne (s : State) {i j : Nat} (f : Die → Die) (h : j ≠ i) : (s.modDie i f).die j = s.die j := by simp [State.die, State.modDie, h]
@[simp] theorem journal_setJournal_same (s : State) (w : Word) (j : Journal) : (s.setJournal w j).journal? w = some j := by simp [State.journal?, State.setJournal]
@[simp] theorem journal_setJournal_ne (s : State) {w x : Word} (j : Journal) (h : x ≠ w) : (s.setJournal w j).journal? x = s.journal? x := by simp [State.journal?, State.setJournal, h]
@[simp] theorem bdQueue_setBdq_same (s : State) (i : Nat) (q : BdQueue) : (s.setBdq i q).bdQueue i = q := by simp [State.bdQueue, State.setBdq]
@[simp] theorem bdQueue_setBdq_ne (s : State) {i j : Nat} (q : BdQueue) (h : j ≠ i) : (s.setBdq i q).bdQueue j = s.bdQueue j := by simp [State.bdQueue, State.setBdq, h]
@[simp] theorem reg_setReg_same (s : State) (r : MReg) (v : Word) (h : r.fam ≠ .tbase) : (s.setReg r v).reg r = v := by simp [State.reg, State.setReg, h]
@[simp] theorem reg_setReg_ne (s : State) {r q : MReg} (v : Word) (h : q ≠ r) : (s.setReg r v).reg q = s.reg q := by simp [State.reg, State.setReg, h]

/-! ### Fields of a register -/

/-- A field reads what was written to it. -/
theorem nbits_nset_same (x hi lo v : Nat) : nbits (nset x hi lo v) hi lo = v % 2 ^ (hi + 1 - lo) := by
  have p : 0 < 2 ^ lo := Nat.two_pow_pos lo
  have n : 0 < 2 ^ (hi + 1 - lo) := Nat.two_pow_pos _
  have d : x - nbits x hi lo * 2 ^ lo = x % 2 ^ lo + x / 2 ^ lo / 2 ^ (hi + 1 - lo) * 2 ^ (hi + 1 - lo) * 2 ^ lo := by
    have a := Nat.div_add_mod x (2 ^ lo)
    have b := Nat.div_add_mod (x / 2 ^ lo) (2 ^ (hi + 1 - lo))
    unfold nbits
    have c : x = (2 ^ (hi + 1 - lo) * (x / 2 ^ lo / 2 ^ (hi + 1 - lo)) + x / 2 ^ lo % 2 ^ (hi + 1 - lo)) * 2 ^ lo + x % 2 ^ lo := by
      rw [b, Nat.mul_comm]; exact a.symm
    rw [Nat.add_mul] at c
    rw [Nat.mul_comm (x / 2 ^ lo / 2 ^ (hi + 1 - lo))]
    omega
  have e : nset x hi lo v = x % 2 ^ lo + (x / 2 ^ lo / 2 ^ (hi + 1 - lo) * 2 ^ (hi + 1 - lo) + v % 2 ^ (hi + 1 - lo)) * 2 ^ lo := by
    unfold nset; rw [d, Nat.add_mul]; omega
  unfold nbits
  rw [e, Nat.add_mul_div_right _ _ p, Nat.div_eq_of_lt (Nat.mod_lt _ p), Nat.zero_add, Nat.mul_add_mod']
  exact Nat.mod_mod _ _

/-! ### Registers of a context -/

@[simp] theorem getS_setS (c : Ctx) (d r : Fin 64) (x : Word) : (c.setS d x).getS r = if r = d ∧ d ≠ 0 then x else c.getS r := by
  unfold Ctx.getS Ctx.setS
  by_cases z : d = 0
  · simp [z]
  · by_cases e : r = d
    · subst e; simp [z]
    · by_cases y : r = 0
      · simp [y, Ne.symm z, Ne.symm (y ▸ e)]
      · simp only [z, y, e, if_false, false_and]
        exact Vector.getElem_set_ne (by omega) (by omega) (by intro h; exact e (Fin.ext h.symm))
@[simp] theorem getV_setV (c : Ctx) (d r : Fin 256) (x : VReg) : (c.setV d x).getV r = if r = d then x else c.getV r := by
  unfold Ctx.getV Ctx.setV
  by_cases e : r = d
  · subst e; simp
  · simp only [e, if_false]
    exact Vector.getElem_set_ne (by omega) (by omega) (by intro h; exact e (Fin.ext h.symm))

@[simp] theorem setS_v (c : Ctx) (d : Fin 64) (x : Word) : (c.setS d x).v = c.v := by unfold Ctx.setS; split <;> rfl
@[simp] theorem setS_vFull (c : Ctx) (d : Fin 64) (x : Word) : (c.setS d x).vFull = c.vFull := by unfold Ctx.setS; split <;> rfl
@[simp] theorem setS_vPoison (c : Ctx) (d : Fin 64) (x : Word) : (c.setS d x).vPoison = c.vPoison := by unfold Ctx.setS; split <;> rfl
@[simp] theorem setS_poisonRow (c : Ctx) (d : Fin 64) (x : Word) : (c.setS d x).poisonRow = c.poisonRow := by unfold Ctx.setS; split <;> rfl
@[simp] theorem setS_p (c : Ctx) (d : Fin 64) (x : Word) : (c.setS d x).p = c.p := by unfold Ctx.setS; split <;> rfl
@[simp] theorem setS_c (c : Ctx) (d : Fin 64) (x : Word) : (c.setS d x).c = c.c := by unfold Ctx.setS; split <;> rfl
@[simp] theorem setS_bt (c : Ctx) (d : Fin 64) (x : Word) : (c.setS d x).bt = c.bt := by unfold Ctx.setS; split <;> rfl
@[simp] theorem setS_lc (c : Ctx) (d : Fin 64) (x : Word) : (c.setS d x).lc = c.lc := by unfold Ctx.setS; split <;> rfl
@[simp] theorem setS_cq (c : Ctx) (d : Fin 64) (x : Word) : (c.setS d x).cq = c.cq := by unfold Ctx.setS; split <;> rfl
@[simp] theorem setS_cb (c : Ctx) (d : Fin 64) (x : Word) : (c.setS d x).cb = c.cb := by unfold Ctx.setS; split <;> rfl
@[simp] theorem setS_ft (c : Ctx) (d : Fin 64) (x : Word) : (c.setS d x).ft = c.ft := by unfold Ctx.setS; split <;> rfl
@[simp] theorem setS_pc (c : Ctx) (d : Fin 64) (x : Word) : (c.setS d x).pc = c.pc := by unfold Ctx.setS; split <;> rfl
@[simp] theorem setS_seq (c : Ctx) (d : Fin 64) (x : Word) : (c.setS d x).seq = c.seq := by unfold Ctx.setS; split <;> rfl
@[simp] theorem setS_image (c : Ctx) (d : Fin 64) (x : Word) : (c.setS d x).image = c.image := by unfold Ctx.setS; split <;> rfl
@[simp] theorem setS_taskIndex (c : Ctx) (d : Fin 64) (x : Word) : (c.setS d x).taskIndex = c.taskIndex := by unfold Ctx.setS; split <;> rfl
@[simp] theorem setS_ticket (c : Ctx) (d : Fin 64) (x : Word) : (c.setS d x).ticket = c.ticket := by unfold Ctx.setS; split <;> rfl
@[simp] theorem setS_job (c : Ctx) (d : Fin 64) (x : Word) : (c.setS d x).job = c.job := by unfold Ctx.setS; split <;> rfl
@[simp] theorem setS_part (c : Ctx) (d : Fin 64) (x : Word) : (c.setS d x).part = c.part := by unfold Ctx.setS; split <;> rfl
@[simp] theorem setS_logical (c : Ctx) (d : Fin 64) (x : Word) : (c.setS d x).logical = c.logical := by unfold Ctx.setS; split <;> rfl
@[simp] theorem setS_prio (c : Ctx) (d : Fin 64) (x : Word) : (c.setS d x).prio = c.prio := by unfold Ctx.setS; split <;> rfl
@[simp] theorem setS_wexp (c : Ctx) (d : Fin 64) (x : Word) : (c.setS d x).wexp = c.wexp := by unfold Ctx.setS; split <;> rfl
@[simp] theorem setS_cflags (c : Ctx) (d : Fin 64) (x : Word) : (c.setS d x).cflags = c.cflags := by unfold Ctx.setS; split <;> rfl
@[simp] theorem setS_epolicyS (c : Ctx) (d : Fin 64) (x : Word) : (c.setS d x).epolicyS = c.epolicyS := by unfold Ctx.setS; split <;> rfl
@[simp] theorem setS_epolicyV (c : Ctx) (d : Fin 64) (x : Word) : (c.setS d x).epolicyV = c.epolicyV := by unfold Ctx.setS; split <;> rfl
@[simp] theorem setS_ftbase (c : Ctx) (d : Fin 64) (x : Word) : (c.setS d x).ftbase = c.ftbase := by unfold Ctx.setS; split <;> rfl
@[simp] theorem setS_ftsel (c : Ctx) (d : Fin 64) (x : Word) : (c.setS d x).ftsel = c.ftsel := by unfold Ctx.setS; split <;> rfl
@[simp] theorem setS_xfer (c : Ctx) (d : Fin 64) (x : Word) : (c.setS d x).xfer = c.xfer := by unfold Ctx.setS; split <;> rfl
@[simp] theorem setS_trapvec (c : Ctx) (d : Fin 64) (x : Word) : (c.setS d x).trapvec = c.trapvec := by unfold Ctx.setS; split <;> rfl
@[simp] theorem setS_traparea (c : Ctx) (d : Fin 64) (x : Word) : (c.setS d x).traparea = c.traparea := by unfold Ctx.setS; split <;> rfl
@[simp] theorem setS_epc (c : Ctx) (d : Fin 64) (x : Word) : (c.setS d x).epc = c.epc := by unfold Ctx.setS; split <;> rfl
@[simp] theorem setS_exfer (c : Ctx) (d : Fin 64) (x : Word) : (c.setS d x).exfer = c.exfer := by unfold Ctx.setS; split <;> rfl
@[simp] theorem setS_estat (c : Ctx) (d : Fin 64) (x : Word) : (c.setS d x).estat = c.estat := by unfold Ctx.setS; split <;> rfl
@[simp] theorem setS_sup (c : Ctx) (d : Fin 64) (x : Word) : (c.setS d x).sup = c.sup := by unfold Ctx.setS; split <;> rfl
@[simp] theorem setS_vregs (c : Ctx) (d : Fin 64) (x : Word) : (c.setS d x).vregs = c.vregs := by unfold Ctx.setS; split <;> rfl
@[simp] theorem setS_life (c : Ctx) (d : Fin 64) (x : Word) : (c.setS d x).life = c.life := by unfold Ctx.setS; split <;> rfl
@[simp] theorem setS_wait (c : Ctx) (d : Fin 64) (x : Word) : (c.setS d x).wait = c.wait := by unfold Ctx.setS; split <;> rfl
@[simp] theorem setS_inflight (c : Ctx) (d : Fin 64) (x : Word) : (c.setS d x).inflight = c.inflight := by unfold Ctx.setS; split <;> rfl
@[simp] theorem setS_fixed (c : Ctx) (d : Fin 64) (x : Word) : (c.setS d x).fixed = c.fixed := by unfold Ctx.setS; split <;> rfl
@[simp] theorem setS_ran (c : Ctx) (d : Fin 64) (x : Word) : (c.setS d x).ran = c.ran := by unfold Ctx.setS; split <;> rfl
@[simp] theorem setS_outstanding (c : Ctx) (d : Fin 64) (x : Word) : (c.setS d x).outstanding = c.outstanding := by unfold Ctx.setS; split <;> rfl
@[simp] theorem setS_fences (c : Ctx) (d : Fin 64) (x : Word) : (c.setS d x).fences = c.fences := by unfold Ctx.setS; split <;> rfl
@[simp] theorem setS_armed (c : Ctx) (d : Fin 64) (x : Word) : (c.setS d x).armed = c.armed := by unfold Ctx.setS; split <;> rfl
@[simp] theorem setS_chunks (c : Ctx) (d : Fin 64) (x : Word) : (c.setS d x).chunks = c.chunks := by unfold Ctx.setS; split <;> rfl
@[simp] theorem setS_retained (c : Ctx) (d : Fin 64) (x : Word) : (c.setS d x).retained = c.retained := by unfold Ctx.setS; split <;> rfl
@[simp] theorem setS_sets (c : Ctx) (d : Fin 64) (x : Word) : (c.setS d x).sets = c.sets := by unfold Ctx.setS; split <;> rfl
@[simp] theorem setS_run (c : Ctx) (d : Fin 64) (x : Word) : (c.setS d x).run = c.run := by unfold Ctx.setS; split <;> rfl
@[simp] theorem setS_watch (c : Ctx) (d : Fin 64) (x : Word) : (c.setS d x).watch = c.watch := by unfold Ctx.setS; split <;> rfl
@[simp] theorem setS_stopReq (c : Ctx) (d : Fin 64) (x : Word) : (c.setS d x).stopReq = c.stopReq := by unfold Ctx.setS; split <;> rfl
@[simp] theorem setS_stopCycle (c : Ctx) (d : Fin 64) (x : Word) : (c.setS d x).stopCycle = c.stopCycle := by unfold Ctx.setS; split <;> rfl
@[simp] theorem setS_roomSince (c : Ctx) (d : Fin 64) (x : Word) : (c.setS d x).roomSince = c.roomSince := by unfold Ctx.setS; split <;> rfl
@[simp] theorem setS_anchor (c : Ctx) (d : Fin 64) (x : Word) : (c.setS d x).anchor = c.anchor := by unfold Ctx.setS; split <;> rfl
@[simp] theorem setS_held (c : Ctx) (d : Fin 64) (x : Word) : (c.setS d x).held = c.held := by unfold Ctx.setS; split <;> rfl
@[simp] theorem setS_begun (c : Ctx) (d : Fin 64) (x : Word) : (c.setS d x).begun = c.begun := by unfold Ctx.setS; split <;> rfl
@[simp] theorem setP_s (c : Ctx) (d : Fin 16) (x : Pred) : (c.setP d x).s = c.s := by unfold Ctx.setP; split <;> rfl
@[simp] theorem setP_sFull (c : Ctx) (d : Fin 16) (x : Pred) : (c.setP d x).sFull = c.sFull := by unfold Ctx.setP; split <;> rfl
@[simp] theorem setP_sPoison (c : Ctx) (d : Fin 16) (x : Pred) : (c.setP d x).sPoison = c.sPoison := by unfold Ctx.setP; split <;> rfl
@[simp] theorem setP_v (c : Ctx) (d : Fin 16) (x : Pred) : (c.setP d x).v = c.v := by unfold Ctx.setP; split <;> rfl
@[simp] theorem setP_vFull (c : Ctx) (d : Fin 16) (x : Pred) : (c.setP d x).vFull = c.vFull := by unfold Ctx.setP; split <;> rfl
@[simp] theorem setP_vPoison (c : Ctx) (d : Fin 16) (x : Pred) : (c.setP d x).vPoison = c.vPoison := by unfold Ctx.setP; split <;> rfl
@[simp] theorem setP_poisonRow (c : Ctx) (d : Fin 16) (x : Pred) : (c.setP d x).poisonRow = c.poisonRow := by unfold Ctx.setP; split <;> rfl
@[simp] theorem setP_c (c : Ctx) (d : Fin 16) (x : Pred) : (c.setP d x).c = c.c := by unfold Ctx.setP; split <;> rfl
@[simp] theorem setP_bt (c : Ctx) (d : Fin 16) (x : Pred) : (c.setP d x).bt = c.bt := by unfold Ctx.setP; split <;> rfl
@[simp] theorem setP_lc (c : Ctx) (d : Fin 16) (x : Pred) : (c.setP d x).lc = c.lc := by unfold Ctx.setP; split <;> rfl
@[simp] theorem setP_cq (c : Ctx) (d : Fin 16) (x : Pred) : (c.setP d x).cq = c.cq := by unfold Ctx.setP; split <;> rfl
@[simp] theorem setP_cb (c : Ctx) (d : Fin 16) (x : Pred) : (c.setP d x).cb = c.cb := by unfold Ctx.setP; split <;> rfl
@[simp] theorem setP_ft (c : Ctx) (d : Fin 16) (x : Pred) : (c.setP d x).ft = c.ft := by unfold Ctx.setP; split <;> rfl
@[simp] theorem setP_pc (c : Ctx) (d : Fin 16) (x : Pred) : (c.setP d x).pc = c.pc := by unfold Ctx.setP; split <;> rfl
@[simp] theorem setP_seq (c : Ctx) (d : Fin 16) (x : Pred) : (c.setP d x).seq = c.seq := by unfold Ctx.setP; split <;> rfl
@[simp] theorem setP_image (c : Ctx) (d : Fin 16) (x : Pred) : (c.setP d x).image = c.image := by unfold Ctx.setP; split <;> rfl
@[simp] theorem setP_taskIndex (c : Ctx) (d : Fin 16) (x : Pred) : (c.setP d x).taskIndex = c.taskIndex := by unfold Ctx.setP; split <;> rfl
@[simp] theorem setP_ticket (c : Ctx) (d : Fin 16) (x : Pred) : (c.setP d x).ticket = c.ticket := by unfold Ctx.setP; split <;> rfl
@[simp] theorem setP_job (c : Ctx) (d : Fin 16) (x : Pred) : (c.setP d x).job = c.job := by unfold Ctx.setP; split <;> rfl
@[simp] theorem setP_part (c : Ctx) (d : Fin 16) (x : Pred) : (c.setP d x).part = c.part := by unfold Ctx.setP; split <;> rfl
@[simp] theorem setP_logical (c : Ctx) (d : Fin 16) (x : Pred) : (c.setP d x).logical = c.logical := by unfold Ctx.setP; split <;> rfl
@[simp] theorem setP_prio (c : Ctx) (d : Fin 16) (x : Pred) : (c.setP d x).prio = c.prio := by unfold Ctx.setP; split <;> rfl
@[simp] theorem setP_wexp (c : Ctx) (d : Fin 16) (x : Pred) : (c.setP d x).wexp = c.wexp := by unfold Ctx.setP; split <;> rfl
@[simp] theorem setP_cflags (c : Ctx) (d : Fin 16) (x : Pred) : (c.setP d x).cflags = c.cflags := by unfold Ctx.setP; split <;> rfl
@[simp] theorem setP_epolicyS (c : Ctx) (d : Fin 16) (x : Pred) : (c.setP d x).epolicyS = c.epolicyS := by unfold Ctx.setP; split <;> rfl
@[simp] theorem setP_epolicyV (c : Ctx) (d : Fin 16) (x : Pred) : (c.setP d x).epolicyV = c.epolicyV := by unfold Ctx.setP; split <;> rfl
@[simp] theorem setP_ftbase (c : Ctx) (d : Fin 16) (x : Pred) : (c.setP d x).ftbase = c.ftbase := by unfold Ctx.setP; split <;> rfl
@[simp] theorem setP_ftsel (c : Ctx) (d : Fin 16) (x : Pred) : (c.setP d x).ftsel = c.ftsel := by unfold Ctx.setP; split <;> rfl
@[simp] theorem setP_xfer (c : Ctx) (d : Fin 16) (x : Pred) : (c.setP d x).xfer = c.xfer := by unfold Ctx.setP; split <;> rfl
@[simp] theorem setP_trapvec (c : Ctx) (d : Fin 16) (x : Pred) : (c.setP d x).trapvec = c.trapvec := by unfold Ctx.setP; split <;> rfl
@[simp] theorem setP_traparea (c : Ctx) (d : Fin 16) (x : Pred) : (c.setP d x).traparea = c.traparea := by unfold Ctx.setP; split <;> rfl
@[simp] theorem setP_epc (c : Ctx) (d : Fin 16) (x : Pred) : (c.setP d x).epc = c.epc := by unfold Ctx.setP; split <;> rfl
@[simp] theorem setP_exfer (c : Ctx) (d : Fin 16) (x : Pred) : (c.setP d x).exfer = c.exfer := by unfold Ctx.setP; split <;> rfl
@[simp] theorem setP_estat (c : Ctx) (d : Fin 16) (x : Pred) : (c.setP d x).estat = c.estat := by unfold Ctx.setP; split <;> rfl
@[simp] theorem setP_sup (c : Ctx) (d : Fin 16) (x : Pred) : (c.setP d x).sup = c.sup := by unfold Ctx.setP; split <;> rfl
@[simp] theorem setP_vregs (c : Ctx) (d : Fin 16) (x : Pred) : (c.setP d x).vregs = c.vregs := by unfold Ctx.setP; split <;> rfl
@[simp] theorem setP_life (c : Ctx) (d : Fin 16) (x : Pred) : (c.setP d x).life = c.life := by unfold Ctx.setP; split <;> rfl
@[simp] theorem setP_wait (c : Ctx) (d : Fin 16) (x : Pred) : (c.setP d x).wait = c.wait := by unfold Ctx.setP; split <;> rfl
@[simp] theorem setP_inflight (c : Ctx) (d : Fin 16) (x : Pred) : (c.setP d x).inflight = c.inflight := by unfold Ctx.setP; split <;> rfl
@[simp] theorem setP_fixed (c : Ctx) (d : Fin 16) (x : Pred) : (c.setP d x).fixed = c.fixed := by unfold Ctx.setP; split <;> rfl
@[simp] theorem setP_ran (c : Ctx) (d : Fin 16) (x : Pred) : (c.setP d x).ran = c.ran := by unfold Ctx.setP; split <;> rfl
@[simp] theorem setP_outstanding (c : Ctx) (d : Fin 16) (x : Pred) : (c.setP d x).outstanding = c.outstanding := by unfold Ctx.setP; split <;> rfl
@[simp] theorem setP_fences (c : Ctx) (d : Fin 16) (x : Pred) : (c.setP d x).fences = c.fences := by unfold Ctx.setP; split <;> rfl
@[simp] theorem setP_armed (c : Ctx) (d : Fin 16) (x : Pred) : (c.setP d x).armed = c.armed := by unfold Ctx.setP; split <;> rfl
@[simp] theorem setP_chunks (c : Ctx) (d : Fin 16) (x : Pred) : (c.setP d x).chunks = c.chunks := by unfold Ctx.setP; split <;> rfl
@[simp] theorem setP_retained (c : Ctx) (d : Fin 16) (x : Pred) : (c.setP d x).retained = c.retained := by unfold Ctx.setP; split <;> rfl
@[simp] theorem setP_sets (c : Ctx) (d : Fin 16) (x : Pred) : (c.setP d x).sets = c.sets := by unfold Ctx.setP; split <;> rfl
@[simp] theorem setP_run (c : Ctx) (d : Fin 16) (x : Pred) : (c.setP d x).run = c.run := by unfold Ctx.setP; split <;> rfl
@[simp] theorem setP_watch (c : Ctx) (d : Fin 16) (x : Pred) : (c.setP d x).watch = c.watch := by unfold Ctx.setP; split <;> rfl
@[simp] theorem setP_stopReq (c : Ctx) (d : Fin 16) (x : Pred) : (c.setP d x).stopReq = c.stopReq := by unfold Ctx.setP; split <;> rfl
@[simp] theorem setP_stopCycle (c : Ctx) (d : Fin 16) (x : Pred) : (c.setP d x).stopCycle = c.stopCycle := by unfold Ctx.setP; split <;> rfl
@[simp] theorem setP_roomSince (c : Ctx) (d : Fin 16) (x : Pred) : (c.setP d x).roomSince = c.roomSince := by unfold Ctx.setP; split <;> rfl
@[simp] theorem setP_anchor (c : Ctx) (d : Fin 16) (x : Pred) : (c.setP d x).anchor = c.anchor := by unfold Ctx.setP; split <;> rfl
@[simp] theorem setP_held (c : Ctx) (d : Fin 16) (x : Pred) : (c.setP d x).held = c.held := by unfold Ctx.setP; split <;> rfl
@[simp] theorem setP_begun (c : Ctx) (d : Fin 16) (x : Pred) : (c.setP d x).begun = c.begun := by unfold Ctx.setP; split <;> rfl
@[simp] theorem setC_s (c : Ctx) (d : Fin 8) (x : Bool) : (c.setC d x).s = c.s := by unfold Ctx.setC; split <;> rfl
@[simp] theorem setC_sFull (c : Ctx) (d : Fin 8) (x : Bool) : (c.setC d x).sFull = c.sFull := by unfold Ctx.setC; split <;> rfl
@[simp] theorem setC_sPoison (c : Ctx) (d : Fin 8) (x : Bool) : (c.setC d x).sPoison = c.sPoison := by unfold Ctx.setC; split <;> rfl
@[simp] theorem setC_v (c : Ctx) (d : Fin 8) (x : Bool) : (c.setC d x).v = c.v := by unfold Ctx.setC; split <;> rfl
@[simp] theorem setC_vFull (c : Ctx) (d : Fin 8) (x : Bool) : (c.setC d x).vFull = c.vFull := by unfold Ctx.setC; split <;> rfl
@[simp] theorem setC_vPoison (c : Ctx) (d : Fin 8) (x : Bool) : (c.setC d x).vPoison = c.vPoison := by unfold Ctx.setC; split <;> rfl
@[simp] theorem setC_poisonRow (c : Ctx) (d : Fin 8) (x : Bool) : (c.setC d x).poisonRow = c.poisonRow := by unfold Ctx.setC; split <;> rfl
@[simp] theorem setC_p (c : Ctx) (d : Fin 8) (x : Bool) : (c.setC d x).p = c.p := by unfold Ctx.setC; split <;> rfl
@[simp] theorem setC_bt (c : Ctx) (d : Fin 8) (x : Bool) : (c.setC d x).bt = c.bt := by unfold Ctx.setC; split <;> rfl
@[simp] theorem setC_lc (c : Ctx) (d : Fin 8) (x : Bool) : (c.setC d x).lc = c.lc := by unfold Ctx.setC; split <;> rfl
@[simp] theorem setC_cq (c : Ctx) (d : Fin 8) (x : Bool) : (c.setC d x).cq = c.cq := by unfold Ctx.setC; split <;> rfl
@[simp] theorem setC_cb (c : Ctx) (d : Fin 8) (x : Bool) : (c.setC d x).cb = c.cb := by unfold Ctx.setC; split <;> rfl
@[simp] theorem setC_ft (c : Ctx) (d : Fin 8) (x : Bool) : (c.setC d x).ft = c.ft := by unfold Ctx.setC; split <;> rfl
@[simp] theorem setC_pc (c : Ctx) (d : Fin 8) (x : Bool) : (c.setC d x).pc = c.pc := by unfold Ctx.setC; split <;> rfl
@[simp] theorem setC_seq (c : Ctx) (d : Fin 8) (x : Bool) : (c.setC d x).seq = c.seq := by unfold Ctx.setC; split <;> rfl
@[simp] theorem setC_image (c : Ctx) (d : Fin 8) (x : Bool) : (c.setC d x).image = c.image := by unfold Ctx.setC; split <;> rfl
@[simp] theorem setC_taskIndex (c : Ctx) (d : Fin 8) (x : Bool) : (c.setC d x).taskIndex = c.taskIndex := by unfold Ctx.setC; split <;> rfl
@[simp] theorem setC_ticket (c : Ctx) (d : Fin 8) (x : Bool) : (c.setC d x).ticket = c.ticket := by unfold Ctx.setC; split <;> rfl
@[simp] theorem setC_job (c : Ctx) (d : Fin 8) (x : Bool) : (c.setC d x).job = c.job := by unfold Ctx.setC; split <;> rfl
@[simp] theorem setC_part (c : Ctx) (d : Fin 8) (x : Bool) : (c.setC d x).part = c.part := by unfold Ctx.setC; split <;> rfl
@[simp] theorem setC_logical (c : Ctx) (d : Fin 8) (x : Bool) : (c.setC d x).logical = c.logical := by unfold Ctx.setC; split <;> rfl
@[simp] theorem setC_prio (c : Ctx) (d : Fin 8) (x : Bool) : (c.setC d x).prio = c.prio := by unfold Ctx.setC; split <;> rfl
@[simp] theorem setC_wexp (c : Ctx) (d : Fin 8) (x : Bool) : (c.setC d x).wexp = c.wexp := by unfold Ctx.setC; split <;> rfl
@[simp] theorem setC_cflags (c : Ctx) (d : Fin 8) (x : Bool) : (c.setC d x).cflags = c.cflags := by unfold Ctx.setC; split <;> rfl
@[simp] theorem setC_epolicyS (c : Ctx) (d : Fin 8) (x : Bool) : (c.setC d x).epolicyS = c.epolicyS := by unfold Ctx.setC; split <;> rfl
@[simp] theorem setC_epolicyV (c : Ctx) (d : Fin 8) (x : Bool) : (c.setC d x).epolicyV = c.epolicyV := by unfold Ctx.setC; split <;> rfl
@[simp] theorem setC_ftbase (c : Ctx) (d : Fin 8) (x : Bool) : (c.setC d x).ftbase = c.ftbase := by unfold Ctx.setC; split <;> rfl
@[simp] theorem setC_ftsel (c : Ctx) (d : Fin 8) (x : Bool) : (c.setC d x).ftsel = c.ftsel := by unfold Ctx.setC; split <;> rfl
@[simp] theorem setC_xfer (c : Ctx) (d : Fin 8) (x : Bool) : (c.setC d x).xfer = c.xfer := by unfold Ctx.setC; split <;> rfl
@[simp] theorem setC_trapvec (c : Ctx) (d : Fin 8) (x : Bool) : (c.setC d x).trapvec = c.trapvec := by unfold Ctx.setC; split <;> rfl
@[simp] theorem setC_traparea (c : Ctx) (d : Fin 8) (x : Bool) : (c.setC d x).traparea = c.traparea := by unfold Ctx.setC; split <;> rfl
@[simp] theorem setC_epc (c : Ctx) (d : Fin 8) (x : Bool) : (c.setC d x).epc = c.epc := by unfold Ctx.setC; split <;> rfl
@[simp] theorem setC_exfer (c : Ctx) (d : Fin 8) (x : Bool) : (c.setC d x).exfer = c.exfer := by unfold Ctx.setC; split <;> rfl
@[simp] theorem setC_estat (c : Ctx) (d : Fin 8) (x : Bool) : (c.setC d x).estat = c.estat := by unfold Ctx.setC; split <;> rfl
@[simp] theorem setC_sup (c : Ctx) (d : Fin 8) (x : Bool) : (c.setC d x).sup = c.sup := by unfold Ctx.setC; split <;> rfl
@[simp] theorem setC_vregs (c : Ctx) (d : Fin 8) (x : Bool) : (c.setC d x).vregs = c.vregs := by unfold Ctx.setC; split <;> rfl
@[simp] theorem setC_life (c : Ctx) (d : Fin 8) (x : Bool) : (c.setC d x).life = c.life := by unfold Ctx.setC; split <;> rfl
@[simp] theorem setC_wait (c : Ctx) (d : Fin 8) (x : Bool) : (c.setC d x).wait = c.wait := by unfold Ctx.setC; split <;> rfl
@[simp] theorem setC_inflight (c : Ctx) (d : Fin 8) (x : Bool) : (c.setC d x).inflight = c.inflight := by unfold Ctx.setC; split <;> rfl
@[simp] theorem setC_fixed (c : Ctx) (d : Fin 8) (x : Bool) : (c.setC d x).fixed = c.fixed := by unfold Ctx.setC; split <;> rfl
@[simp] theorem setC_ran (c : Ctx) (d : Fin 8) (x : Bool) : (c.setC d x).ran = c.ran := by unfold Ctx.setC; split <;> rfl
@[simp] theorem setC_outstanding (c : Ctx) (d : Fin 8) (x : Bool) : (c.setC d x).outstanding = c.outstanding := by unfold Ctx.setC; split <;> rfl
@[simp] theorem setC_fences (c : Ctx) (d : Fin 8) (x : Bool) : (c.setC d x).fences = c.fences := by unfold Ctx.setC; split <;> rfl
@[simp] theorem setC_armed (c : Ctx) (d : Fin 8) (x : Bool) : (c.setC d x).armed = c.armed := by unfold Ctx.setC; split <;> rfl
@[simp] theorem setC_chunks (c : Ctx) (d : Fin 8) (x : Bool) : (c.setC d x).chunks = c.chunks := by unfold Ctx.setC; split <;> rfl
@[simp] theorem setC_retained (c : Ctx) (d : Fin 8) (x : Bool) : (c.setC d x).retained = c.retained := by unfold Ctx.setC; split <;> rfl
@[simp] theorem setC_sets (c : Ctx) (d : Fin 8) (x : Bool) : (c.setC d x).sets = c.sets := by unfold Ctx.setC; split <;> rfl
@[simp] theorem setC_run (c : Ctx) (d : Fin 8) (x : Bool) : (c.setC d x).run = c.run := by unfold Ctx.setC; split <;> rfl
@[simp] theorem setC_watch (c : Ctx) (d : Fin 8) (x : Bool) : (c.setC d x).watch = c.watch := by unfold Ctx.setC; split <;> rfl
@[simp] theorem setC_stopReq (c : Ctx) (d : Fin 8) (x : Bool) : (c.setC d x).stopReq = c.stopReq := by unfold Ctx.setC; split <;> rfl
@[simp] theorem setC_stopCycle (c : Ctx) (d : Fin 8) (x : Bool) : (c.setC d x).stopCycle = c.stopCycle := by unfold Ctx.setC; split <;> rfl
@[simp] theorem setC_roomSince (c : Ctx) (d : Fin 8) (x : Bool) : (c.setC d x).roomSince = c.roomSince := by unfold Ctx.setC; split <;> rfl
@[simp] theorem setC_anchor (c : Ctx) (d : Fin 8) (x : Bool) : (c.setC d x).anchor = c.anchor := by unfold Ctx.setC; split <;> rfl
@[simp] theorem setC_held (c : Ctx) (d : Fin 8) (x : Bool) : (c.setC d x).held = c.held := by unfold Ctx.setC; split <;> rfl
@[simp] theorem setC_begun (c : Ctx) (d : Fin 8) (x : Bool) : (c.setC d x).begun = c.begun := by unfold Ctx.setC; split <;> rfl
@[simp] theorem setV_s (c : Ctx) (d : Fin 256) (x : VReg) : (c.setV d x).s = c.s := rfl
@[simp] theorem setV_sFull (c : Ctx) (d : Fin 256) (x : VReg) : (c.setV d x).sFull = c.sFull := rfl
@[simp] theorem setV_sPoison (c : Ctx) (d : Fin 256) (x : VReg) : (c.setV d x).sPoison = c.sPoison := rfl
@[simp] theorem setV_poisonRow (c : Ctx) (d : Fin 256) (x : VReg) : (c.setV d x).poisonRow = c.poisonRow := rfl
@[simp] theorem setV_p (c : Ctx) (d : Fin 256) (x : VReg) : (c.setV d x).p = c.p := rfl
@[simp] theorem setV_c (c : Ctx) (d : Fin 256) (x : VReg) : (c.setV d x).c = c.c := rfl
@[simp] theorem setV_bt (c : Ctx) (d : Fin 256) (x : VReg) : (c.setV d x).bt = c.bt := rfl
@[simp] theorem setV_lc (c : Ctx) (d : Fin 256) (x : VReg) : (c.setV d x).lc = c.lc := rfl
@[simp] theorem setV_cq (c : Ctx) (d : Fin 256) (x : VReg) : (c.setV d x).cq = c.cq := rfl
@[simp] theorem setV_cb (c : Ctx) (d : Fin 256) (x : VReg) : (c.setV d x).cb = c.cb := rfl
@[simp] theorem setV_ft (c : Ctx) (d : Fin 256) (x : VReg) : (c.setV d x).ft = c.ft := rfl
@[simp] theorem setV_pc (c : Ctx) (d : Fin 256) (x : VReg) : (c.setV d x).pc = c.pc := rfl
@[simp] theorem setV_seq (c : Ctx) (d : Fin 256) (x : VReg) : (c.setV d x).seq = c.seq := rfl
@[simp] theorem setV_image (c : Ctx) (d : Fin 256) (x : VReg) : (c.setV d x).image = c.image := rfl
@[simp] theorem setV_taskIndex (c : Ctx) (d : Fin 256) (x : VReg) : (c.setV d x).taskIndex = c.taskIndex := rfl
@[simp] theorem setV_ticket (c : Ctx) (d : Fin 256) (x : VReg) : (c.setV d x).ticket = c.ticket := rfl
@[simp] theorem setV_job (c : Ctx) (d : Fin 256) (x : VReg) : (c.setV d x).job = c.job := rfl
@[simp] theorem setV_part (c : Ctx) (d : Fin 256) (x : VReg) : (c.setV d x).part = c.part := rfl
@[simp] theorem setV_logical (c : Ctx) (d : Fin 256) (x : VReg) : (c.setV d x).logical = c.logical := rfl
@[simp] theorem setV_prio (c : Ctx) (d : Fin 256) (x : VReg) : (c.setV d x).prio = c.prio := rfl
@[simp] theorem setV_wexp (c : Ctx) (d : Fin 256) (x : VReg) : (c.setV d x).wexp = c.wexp := rfl
@[simp] theorem setV_cflags (c : Ctx) (d : Fin 256) (x : VReg) : (c.setV d x).cflags = c.cflags := rfl
@[simp] theorem setV_epolicyS (c : Ctx) (d : Fin 256) (x : VReg) : (c.setV d x).epolicyS = c.epolicyS := rfl
@[simp] theorem setV_epolicyV (c : Ctx) (d : Fin 256) (x : VReg) : (c.setV d x).epolicyV = c.epolicyV := rfl
@[simp] theorem setV_ftbase (c : Ctx) (d : Fin 256) (x : VReg) : (c.setV d x).ftbase = c.ftbase := rfl
@[simp] theorem setV_ftsel (c : Ctx) (d : Fin 256) (x : VReg) : (c.setV d x).ftsel = c.ftsel := rfl
@[simp] theorem setV_xfer (c : Ctx) (d : Fin 256) (x : VReg) : (c.setV d x).xfer = c.xfer := rfl
@[simp] theorem setV_trapvec (c : Ctx) (d : Fin 256) (x : VReg) : (c.setV d x).trapvec = c.trapvec := rfl
@[simp] theorem setV_traparea (c : Ctx) (d : Fin 256) (x : VReg) : (c.setV d x).traparea = c.traparea := rfl
@[simp] theorem setV_epc (c : Ctx) (d : Fin 256) (x : VReg) : (c.setV d x).epc = c.epc := rfl
@[simp] theorem setV_exfer (c : Ctx) (d : Fin 256) (x : VReg) : (c.setV d x).exfer = c.exfer := rfl
@[simp] theorem setV_estat (c : Ctx) (d : Fin 256) (x : VReg) : (c.setV d x).estat = c.estat := rfl
@[simp] theorem setV_sup (c : Ctx) (d : Fin 256) (x : VReg) : (c.setV d x).sup = c.sup := rfl
@[simp] theorem setV_vregs (c : Ctx) (d : Fin 256) (x : VReg) : (c.setV d x).vregs = c.vregs := rfl
@[simp] theorem setV_life (c : Ctx) (d : Fin 256) (x : VReg) : (c.setV d x).life = c.life := rfl
@[simp] theorem setV_wait (c : Ctx) (d : Fin 256) (x : VReg) : (c.setV d x).wait = c.wait := rfl
@[simp] theorem setV_inflight (c : Ctx) (d : Fin 256) (x : VReg) : (c.setV d x).inflight = c.inflight := rfl
@[simp] theorem setV_fixed (c : Ctx) (d : Fin 256) (x : VReg) : (c.setV d x).fixed = c.fixed := rfl
@[simp] theorem setV_ran (c : Ctx) (d : Fin 256) (x : VReg) : (c.setV d x).ran = c.ran := rfl
@[simp] theorem setV_outstanding (c : Ctx) (d : Fin 256) (x : VReg) : (c.setV d x).outstanding = c.outstanding := rfl
@[simp] theorem setV_fences (c : Ctx) (d : Fin 256) (x : VReg) : (c.setV d x).fences = c.fences := rfl
@[simp] theorem setV_armed (c : Ctx) (d : Fin 256) (x : VReg) : (c.setV d x).armed = c.armed := rfl
@[simp] theorem setV_chunks (c : Ctx) (d : Fin 256) (x : VReg) : (c.setV d x).chunks = c.chunks := rfl
@[simp] theorem setV_retained (c : Ctx) (d : Fin 256) (x : VReg) : (c.setV d x).retained = c.retained := rfl
@[simp] theorem setV_sets (c : Ctx) (d : Fin 256) (x : VReg) : (c.setV d x).sets = c.sets := rfl
@[simp] theorem setV_run (c : Ctx) (d : Fin 256) (x : VReg) : (c.setV d x).run = c.run := rfl
@[simp] theorem setV_watch (c : Ctx) (d : Fin 256) (x : VReg) : (c.setV d x).watch = c.watch := rfl
@[simp] theorem setV_stopReq (c : Ctx) (d : Fin 256) (x : VReg) : (c.setV d x).stopReq = c.stopReq := rfl
@[simp] theorem setV_stopCycle (c : Ctx) (d : Fin 256) (x : VReg) : (c.setV d x).stopCycle = c.stopCycle := rfl
@[simp] theorem setV_roomSince (c : Ctx) (d : Fin 256) (x : VReg) : (c.setV d x).roomSince = c.roomSince := rfl
@[simp] theorem setV_anchor (c : Ctx) (d : Fin 256) (x : VReg) : (c.setV d x).anchor = c.anchor := rfl
@[simp] theorem setV_held (c : Ctx) (d : Fin 256) (x : VReg) : (c.setV d x).held = c.held := rfl
@[simp] theorem setV_begun (c : Ctx) (d : Fin 256) (x : VReg) : (c.setV d x).begun = c.begun := rfl

end Sys2Proof.Laws
end

