-- ==== Sys2Proof/Laws/Step.lean ====
section
/-!
SUPPORT. Laws.Step: what a step can do, said once for each function on its way (log 4): the next thing that happens, the dispatch of a core, the bundle that it
runs, and the ways a trap is taken.
-/
namespace Sys2Proof.Laws

open Sys2Proof.Machine Sys2Proof.Safety

/-- A step that answers writes what read-modify-writes of host memory have read; or it runs the event at the head of the agenda, drops a slot operation
there, lets a host agent write host memory, answer a snoop, lets a wire alter data, or lets the core named there dispatch; or it lets things happen of themselves.
A halted module answers only to MODULE_RESET. -/
theorem step_cases {s t : State} (h : StepsTo s t) :
    (s.hostPuts ≠ [] ∧ s.halted = false ∧ t = s.flushPuts) ∨
    (∃ i rest, s.agenda = .event i :: rest ∧ (s.halted = false ∨ i = .moduleReset) ∧
      ((isSlotOp i = true ∧ t = { s with agenda := rest }) ∨ (isSlotOp i = false ∧ exec i { s with agenda := rest } = .next t))) ∨
    (∃ row data mask rest, s.agenda = .hostStore row data mask :: rest ∧ s.halted = false ∧ t = { s with agenda := rest }.hostStore row data mask) ∨
    (∃ line rest, s.agenda = .snoopDone line :: rest ∧ s.halted = false ∧ t = { s with agenda := rest }.snoopDone line) ∨
    (∃ quad id bits rest, s.agenda = .flipCopy quad id bits :: rest ∧ s.halted = false ∧ t = { s with agenda := rest }.flipCopy quad id bits) ∨
    (∃ msg elem bits rest, s.agenda = .flipRope msg elem bits :: rest ∧ s.halted = false ∧ t = { s with agenda := rest }.flipRope msg elem bits) ∨
    (∃ core rest, s.agenda = .dispatch core :: rest ∧ s.halted = false ∧ runCore exec { s with agenda := rest } core.val = .next t) ∨
    (s.agenda = [] ∧ s.halted = false ∧ freeRun exec s = .next t) := by
  unfold StepsTo step cycle at h
  split at h
  · rename_i e
    simp only [Bool.and_eq_true, Bool.not_eq_true', List.isEmpty_eq_false_iff] at e
    exact .inl ⟨e.1.1, e.1.2, by cases h; rfl⟩
  · right
    split at h
    · rename_i i rest e
      split at h
      · cases h
      · rename_i n
        refine .inl ⟨i, rest, e, ?_, ?_⟩
        · simp only [Bool.and_eq_true, decide_eq_true_eq, not_and, not_not] at n
          cases w : s.halted
          · exact .inl rfl
          · exact .inr (n w)
        · split at h
          · rename_i o
            exact .inl ⟨o, by cases h; rfl⟩
          · rename_i o
            exact .inr ⟨by simpa using o, h⟩
    · rename_i row data mask rest e
      split at h
      · cases h
      · rename_i n
        exact .inr (.inl ⟨row, data, mask, rest, e, by simpa using n, by cases h; rfl⟩)
    · rename_i line rest e
      split at h
      · cases h
      · rename_i n
        exact .inr (.inr (.inl ⟨line, rest, e, by simpa using n, by cases h; rfl⟩))
    · rename_i quad id bits rest e
      split at h
      · cases h
      · rename_i n
        exact .inr (.inr (.inr (.inl ⟨quad, id, bits, rest, e, by simpa using n, by cases h; rfl⟩)))
    · rename_i msg elem bits rest e
      split at h
      · cases h
      · rename_i n
        exact .inr (.inr (.inr (.inr (.inl ⟨msg, elem, bits, rest, e, by simpa using n, by cases h; rfl⟩))))
    · rename_i core rest e
      split at h
      · cases h
      · rename_i n
        exact .inr (.inr (.inr (.inr (.inr (.inl ⟨core, rest, e, by simpa using n, h⟩)))))
    · rename_i e
      split at h
      · cases h
      · rename_i n
        exact .inr (.inr (.inr (.inr (.inr (.inr ⟨e, by simpa using n, h⟩)))))

/-- With nothing on the agenda, a core from the next one on dispatches or lands a result, or the other agents act and the timebase ticks. -/
theorem freeRun_cases {ex : Instr → State → Out} {s t : State} (h : freeRun ex s = .next t) :
    (∃ i u, i < 128 ∧ s.nextCore ≤ i ∧ runCore ex { s with nextCore := i + 1 } i = .next u ∧ t = s.turnOf i u) ∨
    ex .timebaseTick { s.autonomous with nextCore := 0 } = .next t := by
  unfold freeRun at h
  split at h
  · rename_i i e
    split at h
    · rename_i u r
      refine .inl ⟨i, u, ?_, ?_, r, by cases h; rfl⟩
      · simpa using List.mem_of_find?_eq_some e
      · have p := List.find?_some e
        simp only [Bool.and_eq_true, decide_eq_true_eq] at p
        exact p.1
    · cases h
    · cases h
  · exact .inr h

/-- A core lands the result that is due, runs the bundle of the context that R121 chooses, or has nothing to do. -/
theorem runCore_cases {ex : Instr → State → Out} {s t : State} {core : Nat} (h : runCore ex s core = .next t) :
    (∃ k, s.dueLanding k = true ∧ ex (.resultLand (Fin.ofNat 128 core) (Fin.ofNat 8 k)) s = .next t) ∨
    (∃ k, s.pickCtx core = some k ∧ runBundle ex s k = .next t) ∨ t = s := by
  unfold runCore at h
  split at h
  · rename_i k e
    exact .inl ⟨k, by simpa using List.find?_some e, h⟩
  · split at h
    · rename_i k e
      exact .inr (.inl ⟨k, e, h⟩)
    · exact .inr (.inr (by cases h; rfl))

/-- The mask of the slots that pass a test holds the header bits of just these (R92, R93). -/
theorem maskOf_filter (f : Slot → Bool) : MaskOf (slotMask (Slot.all.filter f)) fun u => f u = true := by
  have sum : slotMask (Slot.all.filter f) = (f .ctl).toNat + 2 * (f .sca).toNat + 4 * (f .adr).toNat + 8 * (f .va).toNat + 16 * (f .vb).toNat + 32 * (f .mat).toNat +
      64 * (f .mem).toNat + 128 * (f .com).toNat := by
    simp only [Slot.all, List.filter, slotMask]
    cases f .ctl <;> cases f .sca <;> cases f .adr <;> cases f .va <;> cases f .vb <;> cases f .mat <;> cases f .mem <;> cases f .com <;> rfl
  have bits : ∀ a b c d e g h i : Bool, let m := a.toNat + 2 * b.toNat + 4 * c.toNat + 8 * d.toNat + 16 * e.toNat + 32 * g.toNat + 64 * h.toNat + 128 * i.toNat
      m < 2 ^ 8 ∧ m.testBit 0 = a ∧ m.testBit 1 = b ∧ m.testBit 2 = c ∧ m.testBit 3 = d ∧ m.testBit 4 = e ∧ m.testBit 5 = g ∧ m.testBit 6 = h ∧ m.testBit 7 = i := by decide
  have key := bits (f .ctl) (f .sca) (f .adr) (f .va) (f .vb) (f .mat) (f .mem) (f .com)
  rw [sum]
  obtain ⟨l, b0, b1, b2, b3, b4, b5, b6, b7⟩ := key
  refine ⟨l, fun u => ?_⟩
  cases u <;> simp only [Slot.bit, b0, b1, b2, b3, b4, b5, b6, b7]

/-- The slots of an illegal-slot mask are the illegal slots (R90 items 2 to 6, R92). -/
theorem illegalMask_spec (vregs len : Nat) (l : List (Slot × Nat)) : MaskOf (illegalMask vregs len l) (IllegalSlot vregs len l) := by
  obtain ⟨lt, bits⟩ := maskOf_filter fun t =>
    let ws := l.filterMap fun e => (namedOp e.1 e.2).map fun i => (e.1, i)
    let bad := (decodeWords l).filterMap fun e => match e.2 with
      | none => some e.1
      | some w => if outOfWindow vregs w.op || shortLoop len w.op then some e.1 else none
    bad.contains t || (clashing ws).contains t || (crowded ws).contains t
  refine ⟨lt, fun u => (bits u).trans ?_⟩
  simp only [Bool.or_eq_true, List.contains_iff_mem, IllegalSlot, or_assoc]
  refine or_congr ?_ (or_congr ?_ ?_)
  · simp only [decodeWords, List.mem_filterMap, List.mem_map, Prod.exists]
    constructor
    · rintro ⟨t, o, ⟨t', w, hm, e⟩, h⟩
      obtain ⟨rfl, rfl⟩ := Prod.mk.inj e
      cases d : decodeSlot t' w with
      | none =>
        rw [d] at h
        obtain rfl := Option.some.inj h
        exact ⟨w, hm, fun x hx => by simp [d] at hx⟩
      | some x =>
        rw [d] at h
        simp only at h
        split at h
        · rename_i c
          obtain rfl := Option.some.inj h
          refine ⟨w, hm, fun y hy => ?_⟩
          obtain rfl := Option.some.inj (d.symm.trans hy)
          simpa using c
        · cases h
    · rintro ⟨w, hm, h⟩
      refine ⟨u, decodeSlot u w, ⟨u, w, hm, rfl⟩, ?_⟩
      cases d : decodeSlot u w with
      | none => rfl
      | some x =>
        have := h x d
        simp [this]
  · simp only [clashing, List.mem_map, List.mem_filter, List.any_eq_true, Prod.exists, Bool.and_eq_true, decide_eq_true_eq]
    constructor
    · rintro ⟨t, i, ⟨hi, v, j, hj, n, a, ha, b, hb, c⟩, rfl⟩
      exact ⟨i, v, j, hi, hj, n, a, ha, b, hb, c⟩
    · rintro ⟨i, v, j, hi, hj, n, a, ha, b, hb, c⟩
      exact ⟨u, i, ⟨hi, v, j, hj, n, a, ha, b, hb, c⟩, rfl⟩
  · simp only [crowded, List.mem_map, List.mem_filter, Prod.exists, Bool.or_eq_true, Bool.and_eq_true, decide_eq_true_eq, Bool.not_eq_true', List.isEmpty_eq_false_iff]
    constructor
    · rintro ⟨t, i, ⟨hi, h | h⟩, rfl⟩
      · exact .inl ⟨i, hi, h.2, h.1⟩
      · exact .inr ⟨i, hi, h.2, h.1⟩
    · rintro (⟨i, hi, a, b⟩ | ⟨i, hi, a, b⟩)
      · exact ⟨u, i, ⟨hi, .inl ⟨b, a⟩⟩, rfl⟩
      · exact ⟨u, i, ⟨hi, .inr ⟨b, a⟩⟩, rfl⟩

/-- A bundle without an illegal-slot mask has no illegal slot, and one with a mask has one (R90, R92). -/
theorem legal_iff (vregs len : Nat) (l : List (Slot × Nat)) : illegalMask vregs len l = 0 ↔ ∀ u, ¬ IllegalSlot vregs len l u := by
  obtain ⟨lt, bits⟩ := illegalMask_spec vregs len l
  constructor
  · intro e u h
    simpa [e] using (bits u).mpr h
  · intro h
    have z : ∀ u : Slot, (illegalMask vregs len l).testBit u.bit = false := fun u => by
      cases e : (illegalMask vregs len l).testBit u.bit
      · rfl
      · exact absurd ((bits u).mp e) (h u)
    have all : ∀ m < 2 ^ 8, (∀ u ∈ Slot.all, m.testBit u.bit = false) → m = 0 := by decide +kernel
    exact all _ lt fun u _ => z u

/-- A slot that runs goes on, or leaves its stop; nothing else of the bundle's progress changes when it stops. -/
theorem runSlot_cases {ex : Instr → State → Out} {p q : Progress} {w : SlotWord} (h : runSlot ex p w = .next q) :
    ∃ u, ex w.op { p.state with issue := { p.state.issue with slot := w.slot, out := .ok } } = .next u ∧
      ((u.issue.out = .ok ∧ q = ⟨u, p.stops⟩) ∨ (u.issue.out ≠ .ok ∧ q = ⟨p.state, p.stops ++ [(w.slot, u.issue.out)]⟩)) := by
  unfold runSlot at h
  split at h
  · rename_i u e
    refine ⟨u, e, ?_⟩
    split at h
    · rename_i o
      exact .inl ⟨o, by cases h; rfl⟩
    · rename_i o
      exact .inr ⟨o, by cases h; rfl⟩
  · cases h
  · cases h

/-- An operation under `slot` has its effect, waits, or traps: it waits and traps only for its registers (R110, R117). -/
theorem slot_outcomes (s : State) (srcs dsts : List Dst) (f : Ctx → State → State) :
    s.slot srcs dsts f = f s.issue.src s ∨ s.slot srcs dsts f = s.waits ∨ ∃ c a i, s.slot srcs dsts f = s.trapSlot c a i := by
  unfold State.slot
  split
  · exact .inl rfl
  · exact .inr (.inl rfl)
  · exact .inr (.inr ⟨_, _, _, rfl⟩)

/-- A trap enters the handler, after its record is written, or abandons the task (R391, R396). -/
theorem takeTrap_cases (s : State) (key : Nat) (cause : Cause) (fs is : Nat) (pc saved : Offset) (fa : Word) (info : BitVec 32) :
    (∃ u, (s.ctx key).sup = false ∧ (s.ctx key).trapvec ≠ 0 ∧
      s.writeTrapRecord key ((s.ctx key).traparea.toNat / 128 * 128) (trapRecord (s.ctx key) key cause fs is false pc fa info s.tbase) = some u ∧
      s.takeTrap key cause fs is pc saved fa info = u.modCtx key fun c => { c with
        epc := saved, exfer := c.xfer, xfer := 0, estat := BitVec.ofNat 26 (cause.toNat + fs % 256 * 256 + is % 256 * 65536), sup := true, wait := .none,
        seq := false, pc := c.trapvec, begun := false }) ∨
    ∃ u, (u = s ∨ s.writeTrapRecord key ((s.ctx key).traparea.toNat / 128 * 128 + 64) (trapRecord (s.ctx key) key cause fs is true pc fa info s.tbase) = some u) ∧
      s.takeTrap key cause fs is pc saved fa info = u.abandon key cause.toNat := by
  have double : ∃ u, (u = s ∨ s.writeTrapRecord key ((s.ctx key).traparea.toNat / 128 * 128 + 64) (trapRecord (s.ctx key) key cause fs is true pc fa info s.tbase) = some u) ∧
      ((s.writeTrapRecord key ((s.ctx key).traparea.toNat / 128 * 128 + 64) (trapRecord (s.ctx key) key cause fs is true pc fa info s.tbase)).getD s).abandon key cause.toNat =
        u.abandon key cause.toNat := by
    cases e : s.writeTrapRecord key ((s.ctx key).traparea.toNat / 128 * 128 + 64) (trapRecord (s.ctx key) key cause fs is true pc fa info s.tbase) with
    | none => exact ⟨s, .inl rfl, rfl⟩
    | some u => exact ⟨u, .inr rfl, rfl⟩
  unfold State.takeTrap
  simp only
  split
  · exact .inr double
  · rename_i n
    simp only [Bool.or_eq_true, decide_eq_true_eq, not_or, Bool.not_eq_true] at n
    split
    · exact .inr double
    · rename_i u e
      exact .inl ⟨u, n.1, n.2, e, rfl⟩

/-- Keeping a write for later leaves memory as it is. -/
theorem keepWrite_mem (s : State) (arr : Option ArrayId) (w : HeldWrite) : (s.keepWrite arr w).mem = s.mem := by
  cases arr with
  | none => rfl
  | some a => unfold State.keepWrite State.startExit; cases a <;> (dsimp only; try split) <;> rfl

/-- Writing a trap record keeps memory in its canonical form. -/
theorem writeTrapRecord_wf {s u : State} {key a rec : Nat} (h : MemCanonical s) (e : s.writeTrapRecord key a rec = some u) : MemCanonical u := by
  unfold State.writeTrapRecord at e
  simp only at e
  split at e
  · cases e; exact state_writeC_wf _ _ _ _ h
  · cases e; exact (congrArg Mem.wf (keepWrite_mem _ _ _)).trans h
  · cases e

end Sys2Proof.Laws
end

