-- ==== Sys2Proof/Tests/Slice0.lean ====
section
/-!
SUPPORT. Tests of slice 0: ill-formed terms are refused, words written out from the spec's encodings decode, single steps give what the spec gives, and the hypotheses of every statement are met.
-/
set_option maxRecDepth 100000
set_option Elab.async false

namespace Sys2Proof.Tests

open Sys2Proof Sys2Proof.Machine Sys2Proof.Safety

/-! ### Small states -/

/-- A task that runs in user mode on context 0 of core 0. -/
def task : Ctx := { Ctx.reset with life := .running, vregs := 64 }
/-- Scalars from s0 on. -/
def scal (l : List Word) : Vector Word 64 := Vector.ofFn fun i => l.getD i.val 0
/-- A state with one context, in which a bundle at offset 0 of five bytes has been issued. -/
def lab (c : Ctx) : State := { State.reset with ctxs := [(0, c)], issue := ⟨0, 0, 5, .sca, c, ⟨[], []⟩, none, .ok, none⟩ }
/-- The code of page 0: single-word bundles of SCA NOPs at 0, 5, 10, 15 and 20. -/
def nops : Frame := ⟨0, 0, 0, [(0, 2), (5, 2), (10, 2), (15, 2), (20, 2)]⟩
/-- The same with this code in a frame. -/
def coded (c : Ctx) : State := { lab c with cores := [(0, { Core.reset with frames := [nops] })] }
/-- The scalar that a step leaves in a register of the context under way. -/
def scalarAfter (i : Instr) (s : State) (r : Fin 64) : Option Word := match exec i s with | .next t => some (t.me.getS r) | _ => none
/-- The condition bit that a step leaves. -/
def condAfter (i : Instr) (s : State) (r : Fin 8) : Option Bool := match exec i s with | .next t => some (t.me.getC r) | _ => none
/-- A field of the context that a step leaves. -/
def after {α : Type} (i : Instr) (s : State) (f : State → α) : Option α := match exec i s with | .next t => some (f t) | _ => none


/-! ### Ill-formed terms, and words written out from the encodings of R86 to R101 -/

/-- One term for each limit of `Instr.wf`, at the first value beyond it: none is well formed. -/
theorem test_illformed_refused : Instr.wf (.extr 1 2 32 32) = false ∧ Instr.wf (.dep 1 2 63 1) = false ∧ Instr.wf (.bar 0 0) = false ∧ Instr.wf (.bar 6 0) = false ∧ Instr.wf (.vcmpeq 0 1 2 0 (.column 0)) = false ∧
    Instr.wf (.vcmpne 0 1 2 0 (.column 0)) = false ∧ Instr.wf (.vcmplt 0 1 2 0 (.column 0)) = false ∧ Instr.wf (.vcmple 0 1 2 0 (.column 0)) = false ∧ Instr.wf (.vcmpuo 0 1 2 0 (.column 0)) = false ∧
    Instr.wf (.vclass 0 1 0 0 0) = false ∧ Instr.wf (.pand 0 1 2) = false ∧ Instr.wf (.por 0 1 2) = false ∧ Instr.wf (.pxor 0 1 2) = false ∧ Instr.wf (.pandn 0 1 2) = false ∧ Instr.wf (.pfirst 0 1) = false ∧
    Instr.wf (.vqnt 3 1 3 0 (.column 0)) = false ∧ Instr.wf (.vtopk 1 250 3 0 0 6) = false ∧ Instr.wf (.ttaskr 1 250 6) = false ∧ Instr.wf (.aset 1 2 3 7) = false ∧ Instr.wf (.vldp 1 3 4 0) = false ∧
    Instr.wf (.vstp 1 63 4 0 0) = false := by decide +kernel
/-- The same at the last value within the limit. -/
theorem test_wellformed_accepted : Instr.wf (.extr 1 2 32 31) = true ∧ Instr.wf (.bar 1 0) = true ∧ Instr.wf (.bar 5 0) = true ∧ Instr.wf (.pand 1 0 0) = true ∧ Instr.wf (.vtopk 1 250 3 0 0 5) = true ∧
    Instr.wf (.ttaskr 1 248 7) = true ∧ Instr.wf (.aset 1 2 3 6) = true ∧ Instr.wf (.vldp 1 62 4 0) = true := by decide +kernel
/-- A slot takes only its own operations (R97 to R101): an LDI in MEM, a VTOPK in VB. -/
theorem test_slot_refused : (SlotWord.mk .mem false (.ldi 4 0)).wf = false ∧ (SlotWord.mk .vb false (.vtopk 1 2 3 0 0 0)).wf = false ∧ (SlotWord.mk .adr false (.add 1 2 3)).wf = true := by decide +kernel
/-- The example of R89: PREP, ADDI, VFMA and VLD. -/
theorem test_words_example : decodeSlot .ctl 0x013FFFC0 = some ⟨.ctl, false, .prep 0 0x3FFFC0⟩ ∧ decodeSlot .sca 0x20104100 = some ⟨.sca, false, .addi 4 4 256⟩ ∧
    decodeSlot .va 0x040A0B0C2200 = some ⟨.va, false, .vfma 10 11 12 2 (.column 1)⟩ ∧ decodeSlot .mem 0x011404000007 = some ⟨.mem, false, .vld 20 4 7⟩ := by decide +kernel
/-- Its bytes: header 0x4B, 21 bytes. -/
theorem test_bundle_example : encodeBundle [⟨.ctl, false, .prep 0 0x3FFFC0⟩, ⟨.sca, false, .addi 4 4 256⟩, ⟨.va, false, .vfma 10 11 12 2 (.column 1)⟩, ⟨.mem, false, .vld 20 4 7⟩] =
    [0x4B, 0xC0, 0xFF, 0x3F, 0x01, 0x00, 0x41, 0x10, 0x20, 0x00, 0x22, 0x0C, 0x0B, 0x0A, 0x04, 0x07, 0x00, 0x00, 0x04, 0x14, 0x01] := by decide +kernel
/-- Words of the CTL, SCA and ADR tables (R95 to R97). -/
theorem test_words_scalar : decodeSlot .sca 0x021461C0 = some ⟨.sca, false, .sub 5 6 7⟩ ∧ decodeSlot .sca 0x1B042107 = some ⟨.sca, false, .extr 1 2 4 7⟩ ∧
    decodeSlot .sca 0x370C4FFF = some ⟨.sca, false, .cmplti 3 4 0xFFF⟩ ∧ decodeSlot .sca 0x3C0420C4 = some ⟨.sca, false, .sel 1 2 3 4⟩ ∧ decodeSlot .sca 0x53042003 = some ⟨.sca, false, .mflc 1 2 3⟩ ∧
    decodeSlot .sca 0x54045000 = some ⟨.sca, false, .mtlc 1 0 5⟩ ∧ decodeSlot .sca 0x27380005 = some ⟨.sca, false, .ldi 14 5⟩ ∧ decodeSlot .adr 0x630420C0 = some ⟨.adr, false, .incwrap 1 2 3⟩ ∧
    decodeSlot .adr 0x64043000 = some ⟨.adr, false, .cqpop 1 3⟩ ∧ decodeSlot .adr 0x6050A2C0 = some ⟨.adr, false, .desc 20 10 11⟩ ∧ decodeSlot .adr 0x6159454E = some ⟨.adr, false, .rowad 22 20 21 14⟩ ∧
    decodeSlot .ctl 0x16004000 = some ⟨.ctl, false, .launch 4⟩ ∧ decodeSlot .ctl 0x1804003F = some ⟨.ctl, false, .bar 1 63⟩ ∧ decodeSlot .ctl 0x1818003F = none ∧ decodeSlot .adr 0x30000000 = none := by decide +kernel
/-- Words of the vector tables (R98), and of MAT, MEM and COM (R99 to R101). -/
theorem test_words_wide : decodeSlot .va 0x150102034A00 = some ⟨.va, false, .vsel 1 2 3 4 (.column 5)⟩ ∧ decodeSlot .va 0x010203040103 = some ⟨.va, false, .vadd 2 3 4 0 (.code 3)⟩ ∧
    decodeSlot .va 0x500102030003 = some ⟨.va, false, .vtopk 1 2 3 0 0 3⟩ ∧ decodeSlot .vb 0x2E01020001FF = some ⟨.vb, false, .vext 1 2 0 511⟩ ∧ decodeSlot .va 0x5600020000FF = some ⟨.va, false, .vcqp 2 0 63 3⟩ ∧
    decodeSlot .mat 0x030001020000 = some ⟨.mat, false, .tqcfg 1 2⟩ ∧ decodeSlot .mat 0x020001020007 = some ⟨.mat, false, .ttaskr 1 2 7⟩ ∧ decodeSlot .mem 0x020506000001 = some ⟨.mem, false, .vst 5 6 0 1⟩ ∧
    decodeSlot .mem 0x030102030000 = some ⟨.mem, false, .vldp 1 2 3 0⟩ ∧ decodeSlot .mem 0x030103030000 = none ∧ decodeSlot .mem 0x18000102006F = some ⟨.mem, false, .aset 1 2 15 6⟩ ∧
    decodeSlot .mem 0x18000102007F = none ∧ decodeSlot .mem 0x07010200001F = some ⟨.mem, false, .sld 1 2 31⟩ ∧ decodeSlot .mem 0x140100020007 = some ⟨.mem, false, .qtry 1 2 7⟩ ∧
    decodeSlot .mem 0x10FF01000007 = some ⟨.mem, false, .fence 0xFF 1 7⟩ ∧ decodeSlot .mem 0x1F0004050000 = some ⟨.mem, false, .ctxsv 4 5⟩ ∧ decodeSlot .mem 0x1F0004050001 = some ⟨.mem, false, .ctxld 4 5⟩ ∧
    decodeSlot .com 0x03FFFC07 = some ⟨.com, false, .recvadd 63 255 7⟩ ∧ decodeSlot .com 0x07040803 = some ⟨.com, false, .chqry 1 2 3⟩ ∧ decodeSlot .com 0x0A042000 = some ⟨.com, false, .hqry 1 2⟩ := by decide +kernel
/-! ### Witnesses: scalar operations -/

/-- Scalars for the corners of division. -/
def divs : State := lab { task with s := scal [0, 0x8000000000000000, 0xFFFFFFFFFFFFFFFF, 7, 2, 0x7FC00000] }

theorem witness_ScalarIntegerResults : Ready divs [.s 1, .s 2] [.s 3] ∧ Ready divs [.s 4] [] := by unfold Ready; decide +kernel
theorem witness_DivisionResults : Ready divs [.s 1, .s 2] [.s 3] ∧ srcS divs 1 = 0x8000000000000000 ∧ srcS divs 2 = 0xFFFFFFFFFFFFFFFF ∧ srcS divs 0 = 0 ∧ srcS divs 3 ≠ 0 ∧
    ¬ (srcS divs 4 = 0x8000000000000000) := by unfold Ready; decide +kernel
theorem witness_FieldAndImmediateResults : Ready divs [.s 1] [.s 3] ∧ Ready divs [.s 3] [] ∧ (0 : Fin 64).val + (63 : Fin 64).val < 64 ∧ 64 ≤ (1 : Fin 64).val + (63 : Fin 64).val := by
  unfold Ready; decide +kernel
theorem witness_CompareAndSelectResults : Ready divs [.s 1, .s 2, .c 1, .c 2] [.s 3, .c 7] := by unfold Ready; decide +kernel
theorem witness_ScalarFloatResults : Ready divs [.s 5, .s 4] [.s 3, .c 1] ∧ Ready divs [.s 4] [] ∧ (fp32Of (srcS divs 5).toNat).isNan = true := by unfold Ready; decide +kernel
/-- A context in supervisor mode. -/
def super : State := lab { task with sup := true, estat := 0x12, trapvec := 0x40, epc := 10 }
theorem witness_SystemRegisterResults : Ready divs [.s 1] [.s 3] ∧ Ready super [.s 1] [.s 3] ∧ SysReg.epc.privileged = true ∧ SysReg.ftsel.privileged = false ∧ divs.issue.src.sup = false ∧
    super.issue.src.sup = true := by unfold Ready; decide +kernel
/-- A count queue with one entry, 5. -/
def counted : State := lab { task with cq := (Vector.replicate 4 []).set 1 [5], s := scal [0, 3] }
/-- A team whose first release was in cycle 5, of which the task is logical core 3. -/
def inTeam : State := { lab { task with logical := 3 } with jobs := [(0, ⟨0, 0, 0, 0, none, false, 0, 0, 0, 0, 0, false, false, [], some ⟨.running, [], some 5, 0, 0, none, none, 0, 0⟩⟩)] }
theorem witness_SystemRegisterResults_team : Ready inTeam [.s 1] [.s 3] ∧ inTeam.issue.src.logical ≠ 0xFF ∧ (((inTeam.job? 0).bind (·.team)).bind (·.firstRelease)) = some 5 ∧
    inTeam.issue.jnl = none ∧ divs.issue.src.logical = 0xFF ∧ divs.issue.src.cflags.getLsbD 2 = false := by unfold Ready; decide +kernel
theorem witness_AddressResults : Ready counted [.s 1, .s 2, .s 4] [.s 3] ∧ counted.me.cq[(1 : Fin 4)] = [5] ∧ counted.me.cq[(0 : Fin 4)] = [] ∧ srcS counted 2 = 0 := by
  unfold Ready; decide +kernel

/-! ### Witnesses: control -/

/-- The context stands in the first delay bundle's place, at 5. -/
def moved : State := coded { task with pc := 5, s := scal [0, 3] }
theorem witness_TransferResults : Ready moved [.s 1, .s 63, .c 1] [.s 63] ∧ Ready moved [.s 1, .s 63, .c 0] [.s 63] ∧ srcC moved 0 = true ∧ srcC moved 1 = false ∧ moved.me.seq = false ∧
    moved.nextSeq 0 moved.me.pc = .found 10 ∧ moved.nextSeq 0 10 = .found 15 := by unfold Ready; decide +kernel
/-- A loop armed, and a count queue with an entry. -/
def looped : State := coded { task with cq := (Vector.replicate 4 []).set 1 [5], s := scal [0, 3], lc := (Vector.replicate 4 ⟨0, 0, 0, 0⟩).set 2 ⟨3, 0, 10, 0⟩ }
theorem witness_LoopResults : Ready looped [.s 1] [] ∧ NextAt looped 5 ∧ BitVec.ofNat 32 (Min.min (srcS looped 1).toNat 0xFFFFFFFF) ≠ 0 ∧ (9 : BitVec 10) ≠ 0 ∧
    looped.me.cq[(1 : Fin 4)] = [5] ∧ looped.me.cq[(0 : Fin 4)] = [] ∧ (looped.issue.src.lc[(0 : Fin 4)]).cnt = 0 ∧ (looped.issue.src.lc[(2 : Fin 4)]).cnt ≠ 0 ∧
    (let u := looped.own fun x => { x with lc := x.lc.set 0 ⟨0, 5, 5, 0⟩ }
     u.codeByte 0 5 = some 2 ∧ u.nextSeqLen 0 5 (bundleLength 2) = .found 10) := by unfold Ready NextAt; decide +kernel
/-- A count queue with a 0 at its head. -/
def zeroed : State := coded { task with cq := (Vector.replicate 4 []).set 1 [0, 4] }
theorem witness_LoopResults_none : Ready zeroed [.s 1] [] ∧ NextAt zeroed 5 ∧ BitVec.ofNat 32 (Min.min (srcS zeroed 1).toNat 0xFFFFFFFF) = 0 ∧ zeroed.me.cq[(1 : Fin 4)] = 0 :: [4] ∧
    zeroed.codeByte zeroed.issue.key (zeroed.issue.pc + (1 : BitVec 12).setWidth 24) = some 0 ∧ zeroed.codeByte zeroed.issue.key (zeroed.issue.pc + (5 : BitVec 12).setWidth 24) = some 2 ∧
    zeroed.nextSeqLen zeroed.issue.key 5 (bundleLength 2) = .found 10 := by unfold Ready NextAt; decide +kernel
/-- Another task waits at the same priority. -/
def crowd : State := { looped with taskQueues := [(0, [(⟨0, 0, 0, 0, 0, 0, []⟩, none)])] }
/-- A task of a team. -/
def member : State := coded { task with logical := 0 }
/-- A task whose s1 is empty. -/
def lacking : State := coded { task with sFull := 0xFFFFFFFFFFFFFFFD }
/-- A task in supervisor mode. -/
def super_ : State := coded { task with sup := true }
/-- The task's job, its root in a mapped page. -/
def theJob : Job := ⟨0, 0, 0, 0, none, false, 0, 0, 0, 0, 0, false, false, [], none⟩
def rooted : State := { lab task with jobs := [(0, theJob)], pages := [⟨0, 0, 0x200000, false, 7, false⟩] }
theorem witness_TaskEndResults : NextAt looped 5 ∧ looped.issue.src.sup = false ∧ looped.issue.src.logical = 0xFF ∧ ((List.range 6).all fun i => looped.me.sFull.getLsbD (i + 1)) = true ∧
    looped.otherWork 0 0 = false ∧ NextAt super_ 5 ∧ super_.issue.src.sup = true ∧ crowd.otherWork 0 0 = true ∧ NextAt crowd 5 ∧ NextAt lacking 5 ∧ ((List.range 6).all fun i => lacking.me.sFull.getLsbD (i + 1)) = false ∧
    NextAt member 5 ∧ member.issue.src.logical ≠ 0xFF := by unfold NextAt; decide +kernel
theorem witness_TaskEndResults_end : rooted.issue.src.sup = false ∧ rooted.me.outstanding = [] ∧ rooted.me.inflight = [] ∧ rooted.journal? rooted.me.ticket = none ∧ rooted.me.armed = none ∧
    rooted.me.cflags.getLsbD 2 = false ∧ rooted.job? rooted.me.job.toNat = some theJob ∧ theJob.complete = false ∧
    rooted.pageOf theJob.part theJob.root = some ⟨0, 0, 0x200000, false, 7, false⟩ ∧ (7 : Nat) &&& 6 = 6 ∧ 0x200000 + (theJob.root - 0) + 16 ≤ 0x3000000000 ∧ (0x200000 + (theJob.root - 0)) % 16 = 0 ∧
    rooted.mem.poisoned (0x200000 + (theJob.root - 0)) = false ∧
    rooted.linesHeld (0x200000 + (theJob.root - 0)) 16 = [] := by decide +kernel
/-- A task in quad 0 whose s1 names a row of its scratchpad, and s2 the value 5. -/
def local_ : State := coded { task with s := scal [0, 0x1000000100, 5, 1, 0x1000000200], ftsel := 0 }
/-- The same task in supervisor mode, in a handler, with no weight left, and in a team. -/
def handler : State := coded { task with s := scal [0, 0x1000000100], cflags := 4 }
def spent : State := coded { task with s := scal [0, 0x1000000100], wexp := 63 }
def teamed : State := coded { task with s := scal [0, 0x1000000100, 5], logical := 0 }
theorem witness_SpawnResults : Ready local_ [.s 1] [] ∧ local_.issue.src.sup = false ∧ Reaches local_ [rowOf ((srcS local_ 1).toNat % 2 ^ 40)] [0x1000000100] ∧
    local_.issue.src.cflags.getLsbD 2 = false ∧ local_.me.wexp ≠ 63 ∧ (local_.loadRow 0x1000000100).2 = none ∧ local_.journal? local_.issue.src.ticket = none ∧
    (local_.core 0).lastStamp ≠ some local_.tbase.toNat := by unfold Ready Reaches Clear; decide +kernel
theorem witness_SpawnResults_trap : Ready handler [.s 1] [] ∧ Reaches handler [rowOf ((srcS handler 1).toNat % 2 ^ 40)] [0x1000000100] ∧ handler.issue.src.cflags.getLsbD 2 = true ∧
    Ready spent [.s 1] [] ∧ Reaches spent [rowOf ((srcS spent 1).toNat % 2 ^ 40)] [0x1000000100] ∧ spent.me.wexp = 63 := by unfold Ready Reaches Clear; decide +kernel
/-- A task whose s1 is empty, at a word of its scratchpad. -/
def asleep : State := coded { task with s := scal [0, 0, 5, 0, 0x1000000100], sFull := 0xFFFFFFFFFFFFFFFD }
theorem witness_WaitaResults : Ready local_ [.s 1, .s 2] [] ∧ local_.issue.src.sup = false ∧ Reaches local_ [rowOf ((srcS local_ 1).toNat % 2 ^ 40)] [0x1000000100] ∧
    (local_.loadRow 0x1000000100).2 = none ∧ BitVec.ofNat 64 (nbytes (local_.loadRow 0x1000000100).1.toNat 0 8) ≠ srcS local_ 2 ∧ NextAt local_ 5 ∧ (local_.quad 0).monitor.length < 64 ∧
    local_.me.logical = local_.issue.src.logical ∧ local_.me.logical = 0xFF ∧ ((List.range 6).all fun i => local_.me.sFull.getLsbD (i + 1)) = true ∧ (local_.quad 0).monitor = [] ∧
    (∀ m ∈ (local_.quad 0).monitor, m.ctxKey ≠ some 0) ∧ local_.me.armed = none := by unfold Ready Reaches Clear NextAt; decide +kernel
theorem witness_WaitaResults_others : Ready teamed [.s 1, .s 2] [] ∧ Reaches teamed [rowOf ((srcS teamed 1).toNat % 2 ^ 40)] [0x1000000100] ∧ NextAt teamed 5 ∧ teamed.me.logical ≠ 0xFF ∧
    Ready asleep [.s 4, .s 2] [] ∧ Reaches asleep [rowOf ((srcS asleep 4).toNat % 2 ^ 40)] [0x1000000100] ∧ NextAt asleep 5 ∧
    ((List.range 6).all fun i => asleep.me.sFull.getLsbD (i + 1)) = false := by unfold Ready Reaches Clear NextAt; decide +kernel
/-- The monitor table of its quad is full. -/
def tableFull : State := { local_ with quads := [(0, { Quad.reset with monitor := List.replicate 64 ⟨1, 0, 0, 0, none, none, 0, 0, 0, 0⟩ })] }
theorem witness_WaitaResults_table : Ready tableFull [.s 1, .s 2] [] ∧ tableFull.issue.src.sup = false ∧ Reaches tableFull [rowOf ((srcS tableFull 1).toNat % 2 ^ 40)] [0x1000000100] ∧
    (tableFull.loadRow 0x1000000100).2 = none ∧ BitVec.ofNat 64 (nbytes (tableFull.loadRow 0x1000000100).1.toNat 0 8) ≠ srcS tableFull 2 ∧ 64 ≤ (tableFull.quad 0).monitor.length := by
  unfold Ready Reaches Clear; decide +kernel
/-- R333: on a full table the context waits in place for POLLGAP, 512 cycles after reset, and MONSTAT counts it. -/
theorem test_waita_polls : after (.waita 1 2 0) tableFull (fun t => (decide (t.me.wait = .word (some 512) (localKey 0x1000000100) 5 0), (t.quad 0).monitor.length, t.fld .monstat 0 63 32)) = some (true, 64, 1) := by decide +kernel
/-- Every context of core 0 is taken. -/
def full : State := { local_ with ctxs := (List.range 8).map fun k => (k, local_.me) }
/-- A pool that is full for partition 0. -/
def fullPool : State := { local_ with pool := List.replicate 256 (0, 0) }
theorem witness_ArmLaunchBarResults_full : Ready fullPool [.s 1, .s 2] [] ∧ fullPool.issue.src.sup = false ∧ Reaches fullPool [rowOf ((srcS fullPool 1).toNat % 2 ^ 40 / 128 * 128)] [0x1000000100] ∧
    (fullPool.loadRow 0x1000000100).2 = none ∧ fullPool.journal? fullPool.issue.src.ticket = none ∧ 256 ≤ (fullPool.pool.filter fun e => decide (e.1 = fullPool.issue.src.part)).length ∧
    Ready teamed [.s 1, .s 2] [] ∧ teamed.issue.src.sup = false ∧ tget teamed.podHolders (0, (63 : Fin 64).val) = none ∧ (tget ({ teamed with podHolders := [((0, 63), 0)] }).podHolders (0, 63)).isSome = true := by
  unfold Ready Reaches Clear; decide +kernel
theorem witness_ArmLaunchBarResults : Ready local_ [.s 1, .s 2] [] ∧ local_.armTarget 0 = some 1 ∧ (local_.core 0).arrivals = [] ∧ full.armTarget 0 = none ∧ Ready full [.s 1, .s 2] [] ∧
    Reaches local_ [rowOf ((srcS local_ 1).toNat % 2 ^ 40 / 128 * 128)] [0x1000000100] ∧ (local_.loadRow 0x1000000100).2 = none ∧ local_.journal? local_.issue.src.ticket = none ∧
    (local_.pool.filter fun e => decide (e.1 = local_.issue.src.part)).length < 256 ∧ teamed.issue.src.logical ≠ 0xFF ∧ local_.issue.src.logical = 0xFF := by
  unfold Ready Reaches Clear; decide +kernel
/-- A task with a trap handler and an area in the Big Top. -/
def trapped : State := coded { task with trapvec := 0x40, traparea := 0x2000000080 }
theorem witness_TrapAndDoubleTrapResults : Ready trapped [] [] ∧ NextAt trapped 5 ∧ trapped.me.sup = false ∧ trapped.me.trapvec ≠ 0 ∧ xferLeft trapped.issue.src.xfer = 0 ∧
    trapped.journal? trapped.me.ticket = none ∧ trapped.reach 0 0 (trapped.me.traparea.toNat / 128 * 128) = .ok 0x2000000080 ∧ trapped.mem.poisoned (localKey 0x2000000080) = false ∧
    (super.ctx 0).sup = true ∧ (local_.ctx 0).trapvec = 0 ∧ (super.writeTrapRecord 0 0x3000000000 0).isNone = true ∧
    (trapped.writeTrapRecord 0 (trapped.me.traparea.toNat / 128 * 128 + 64) 1).isSome = true := by unfold Ready NextAt; decide +kernel
/-- Handlers that return by restarting and by abandoning their task. -/
def restarts : State := lab { task with sup := true, estat := 0x1000012, retained := some ⟨0, 0, 0, 0, 0, 0, []⟩ }
def abandons : State := lab { task with sup := true, estat := 0x2000012 }
def teamRestarts : State := lab { task with sup := true, estat := 0x1000012, logical := 3 }
theorem witness_EretResults : Ready super [] [] ∧ bitsOf super.me.estat 25 24 = 0 ∧ xferLeft super.me.exfer = 0 ∧ xferTaken super.me.exfer = false ∧ super.issue.src.sup = true ∧
    bitsOf restarts.me.estat 25 24 = 1 ∧ restarts.me.logical = 0xFF ∧ restarts.journal? restarts.me.ticket = none ∧ restarts.me.retained = some ⟨0, 0, 0, 0, 0, 0, []⟩ ∧
    2 ≤ bitsOf abandons.me.estat 25 24 ∧ bitsOf teamRestarts.me.estat 25 24 = 1 ∧ teamRestarts.me.logical ≠ 0xFF ∧ divs.issue.src.sup = false := by unfold Ready; decide +kernel

/-! ### Witnesses: vector operations -/

/-- Row 0 of the format table: BF16, scaled E4M3, INT8, INT32, FP32, CB4, scaled CB4 and INT16. -/
def row0 : BitVec 128 := 0x0007004A000A0001000800050043 <<< 16
def vecs : State := lab { task with ft := (Vector.replicate 64 0).set 0 row0, s := scal [0, 3, 600], vregs := 32 }
/-- The entry of a plain format. -/
def plainEntry (f : Fmt) : FmtEntry := ⟨some f, 16, false, 0, .rne, false, true⟩
/-- The entry of a scaled E4M3. -/
def scaledEntry : FmtEntry := ⟨some .e4m3, 16, true, 0, .rne, false, true⟩
theorem witness_VectorFloatResults : Ready vecs [.v 1, .v 2, .v 3, .s 1] [.v 1] ∧ Takes vecs (.column 0) .bf16 (plainEntry .bf16) ∧ Takes vecs (.code 1) .fp32 (plainEntry .fp32) ∧
    Fmt.bf16.isFloat = true ∧ (plainEntry .bf16).scaled = false := by unfold Ready Takes; decide +kernel
theorem witness_VectorFunctionResults : Ready vecs [.v 1, .v 2, .v 3] [.v 1] ∧ Takes vecs (.column 1) .e4m3 scaledEntry ∧ Takes vecs (.column 0) .bf16 (plainEntry .bf16) ∧ Fmt.e4m3.isFloat = true := by
  unfold Ready Takes; decide +kernel
theorem witness_VectorConversionResults : Ready vecs [.v 1, .v 2, .v 3] [.v 1, .v 3] ∧ Takes vecs (.column 0) .bf16 (plainEntry .bf16) ∧ Fmt.bf16.plain = true ∧
    Takes vecs (.code 8) .int32 (plainEntry .int32) ∧ Fmt.int32.plain = true ∧ Takes vecs (.column 1) .e4m3 scaledEntry ∧ scaledEntry.scaled = true ∧ (1 : Fin 256) ≠ 3 := by
  unfold Ready Takes; decide +kernel
theorem witness_VectorIntegerResults : Ready vecs [.v 2, .v 3] [.v 1] ∧ Takes vecs (.column 2) .int8 (plainEntry .int8) ∧ Fmt.int8.isInt = true := by unfold Ready Takes; decide +kernel
theorem witness_VectorCompareResults : Ready vecs [.v 2, .v 3] [] ∧ Takes vecs (.column 0) .bf16 (plainEntry .bf16) ∧ Takes vecs (.code 9) .int64 (plainEntry .int64) ∧ Fmt.int64.plain = true := by
  unfold Ready Takes; decide +kernel
theorem witness_PredicateResults : Ready vecs [] [.s 1, .c 1] := by unfold Ready; decide +kernel
theorem witness_ReductionResults : Ready vecs [.v 2] [.s 1, .v 3] ∧ Takes vecs (.column 3) .int32 (plainEntry .int32) ∧ Fmt.int32.plain = true ∧ Fmt.int32.isInt = true ∧
    (0 < Fmt.int32.lanes ∧ laneOn (srcP vecs 0) 32 0 = true) ∧ ∀ i < 512, laneOn (srcP vecs 1) 32 i = false := by unfold Ready Takes; decide +kernel
/-- Vector 2 holds a NaN in every FP32 lane, vector 4 in lane 0. -/
def nans : State := lab { task with ft := (Vector.replicate 64 0).set 0 row0, v := ((Vector.replicate 256 0).set 2 (vlanes 32 fun _ => 0x7FC00000)).set 4 0x7FC00000 }
theorem witness_ReductionResults_float : Ready nans [.v 2] [.s 1, .v 3] ∧ Takes nans (.column 4) .fp32 (plainEntry .fp32) ∧ Fmt.fp32.plain = true ∧ Fmt.fp32.isFloat = true ∧ Fmt.fp32.lanes = 2 ^ 9 ∧
    laneOn (srcP nans 0) 32 0 = true ∧ (laneVal nans .fp32 4 0).isNan = true ∧ (∀ i < 512, (laneVal nans .fp32 2 i).isNan = true) ∧ (laneVal nans .fp32 1 0).isNan = false ∧
    (∀ j < 512, (laneVal nans .fp32 1 j).isNan = false ∧ (laneVal nans .fp32 1 j).below (laneVal nans .fp32 1 0) = false ∧ (laneVal nans .fp32 1 0).below (laneVal nans .fp32 1 j) = false) ∧
    (∀ j < 512, laneInt nans .int32 1 j = laneInt nans .int32 1 0) := by unfold Ready Takes; decide +kernel
theorem witness_LaneMoveAndFillResults : Ready vecs [.v 2, .v 3] [.v 1] ∧ Ready vecs [.v 1, .v 2, .s 1] [.v 1, .s 2] ∧ Takes vecs (.column 0) .bf16 (plainEntry .bf16) ∧
    (511 : BitVec 9).toNat < Fmt.bf16.lanes ∧ Takes vecs (.column 4) .fp32 (plainEntry .fp32) ∧ ¬ Fmt.fp32.lanes ≤ (511 : BitVec 9).toNat ∧
    Takes vecs (.code 9) .int64 (plainEntry .int64) ∧ Fmt.int64.lanes ≤ (256 : BitVec 9).toNat := by unfold Ready Takes; decide +kernel
/-- The same with INT64 lanes in column 0, of which there are 256. -/
def wide : State := lab { task with ft := (Vector.replicate 64 0).set 0 9 }
theorem witness_LaneMoveAndFillResults_high : Ready wide [.v 1, .v 2, .s 1] [.v 1, .s 2] ∧ Takes wide (.column 0) .int64 (plainEntry .int64) ∧ Fmt.int64.lanes ≤ (256 : BitVec 9).toNat := by
  unfold Ready Takes; decide +kernel
theorem witness_SelectionResults : Ready vecs [.v 2, .v 3, .s 1] [.v 1] ∧ Takes vecs (.column 3) .int32 (plainEntry .int32) ∧ thcntRegs .int32 0 = 1 ∧ (1 : Fin 256).val < vecs.issue.src.vregs ∧
    Takes vecs (.column 2) .int8 (plainEntry .int8) ∧ 1 < thcntRegs .int8 0 ∧ vecs.issue.src.vregs < (30 : Fin 256).val + thcntRegs .int8 0 ∧
    (28 : Fin 256).val + thcntRegs .int8 0 ≤ vecs.issue.src.vregs ∧ (∀ i < thcntRegs .int8 0, vecs.issue.src.emptyReg (.v (Fin.ofNat 256 (28 + i))) = false) ∧ Ready vecs [.v 2, .v 3, .s 1] [.v 28] ∧
    Ready vecs ((groupRegs 2 7).map Dst.v) [] ∧ Takes vecs (.column 5) .cb4 (plainEntry .cb4) := by unfold Ready Takes; decide +kernel
/-- A count queue with 63 entries. -/
def brimful : State := lab { task with cq := (Vector.replicate 4 []).set 1 (List.replicate 63 7) }
theorem witness_TableAndCounterResults : Ready vecs [.v 2, .s 1] [.v 1, .s 1] ∧ Takes vecs (.column 2) .int8 (plainEntry .int8) ∧
    (vecs.issue.src.cq[(1 : Fin 4)]).length + 64 ≤ 64 ∧ Ready brimful [.v 2, .s 1] [.v 1, .s 1] ∧
    64 < (brimful.issue.src.cq[(1 : Fin 4)]).length + (((List.range 2).filter fun i => laneOn (srcP brimful 0) 32 i).map fun i => BitVec.ofNat 32 (elem (srcV brimful 2) i 32)).length := by
  unfold Ready Takes; decide +kernel


/-! ### Witnesses: matrix, memory, locks -/

/-- A legal tile record: MROWS 1, KBLK 1, CPITCH 256 rows of BF16. -/
def tileBits : Nat := 1 * 256 ^ 28 + 1 * 256 ^ 30 + 256 * 256 ^ 40
/-- The same with A from one staging register. -/
def stagedBits : Nat := tileBits + 4 * 256
def tiled : State := lab { task with v := ((Vector.replicate 256 0).set 1 (BitVec.ofNat 16384 tileBits)).set 2 (BitVec.ofNat 16384 stagedBits), s := scal [0, 4, 5, 1, 2] }
theorem witness_MatrixResults : Ready tiled [.v 1, .s 1, .s 2] [.s 3] ∧ badTile (BitVec.ofNat 512 tileBits) 0 0 0 = false ∧ tileFormat (BitVec.ofNat 512 tileBits) 0 0 0 = none ∧
    (srcV tiled 1).setWidth 512 = BitVec.ofNat 512 tileBits ∧ tiled.issue.src.fmtByte 0 = 0 ∧ tiled.fenced 2 = false ∧ tiled.cellRoom 0 0 (1 + 32 * 1) = true ∧
    badTile ((srcV tiled 0).setWidth 512) 0 0 0 = true := by unfold Ready; decide +kernel
theorem witness_MatrixResults_staged : Ready tiled [.v 2, .s 1, .s 2] [.s 3] ∧ (srcV tiled 2).setWidth 512 = BitVec.ofNat 512 stagedBits ∧ badTile (BitVec.ofNat 512 stagedBits) 0 0 1 = false ∧
    tileFormat (BitVec.ofNat 512 stagedBits) 0 0 0 = none ∧ Ready tiled ((groupRegs 3 0).map Dst.v) [] ∧ badTile (BitVec.ofNat 512 tileBits) 0 0 1 = true := by unfold Ready; decide +kernel
/-- A supervisor with selectors 0 to 4. -/
def settings : State := lab { task with sup := true, s := scal [0, 4, 5, 1, 2, 3] }
theorem witness_MatrixResults_others : tiled.issue.src.sup = false ∧ settings.issue.src.sup = true ∧ Ready settings [.v 1, .s 1, .s 2] [.s 3] ∧ Ready settings [.v 1, .s 0, .s 2] [.s 3] ∧
    srcS settings 0 = 0 ∧ srcS settings 3 = 1 ∧ srcS settings 4 = 2 ∧ srcS settings 5 = 3 ∧ 4 ≤ (srcS settings 1).toNat ∧ (srcS tiled 2).setWidth 32 ≠ (0 : BitVec 32) ∧
    (srcS tiled 0).setWidth 32 = (0 : BitVec 32) ∧ ((tiled.quad 0).arrays[(0 : Fin 4)]).task = none := by unfold Ready; decide +kernel
theorem witness_LoadResults : Ready local_ [.s 1, .s (pairReg 1), .s 2, .v 3] [.v 1, .s 5] ∧
    Reaches local_ ((List.range ((1 : Fin 8).val + 1)).map fun j => (rowOf (srcS local_ 1).toNat + 256 * j) % 2 ^ 40) [0x1000000100, 0x1000000200] ∧
    Reaches local_ [rowOf (srcS local_ 1).toNat % 2 ^ 40] [0x1000000100] ∧ local_.issue.jnl = none := by unfold Ready Reaches Clear; decide +kernel
/-- Descriptor words in s2 and s3, an index in s0, and the last row of the quad's scratchpad in s4. -/
def described_ : State := coded { task with s := scal [0, 0, 0x100000005, 1, 0xFFFF00] }
theorem witness_LoadResults_pair : Ready described_ [.s 2, .s (pairReg 2), .s 0, .v 3] [.v 1, .s 5] ∧
    Reaches described_ ((List.range ((0 : Fin 8).val + 1)).map fun j => descAddr (srcS described_ 2) (srcS described_ (pairReg 2)) (bitsOf (srcS described_ 0) 63 32) (bitsOf (srcS described_ 0) 31 0 + j))
      [0x1000000500] := by unfold Ready Reaches Clear; decide +kernel
theorem witness_LoadResults_index : Reaches described_ ((List.range 8).map fun j => (((rowOf (srcS described_ 4).toNat : Int) + 256 * sext 32 (elem (srcV described_ 3) j 32)) % 2 ^ 40).toNat)
      (List.replicate 8 0x1000FFFF00) ∧ Ready described_ [.s 4, .s (pairReg 4), .s 0, .v 3] [.v 1, .s 5] := by unfold Ready Reaches Clear; decide +kernel
/-- The last row of scratchpad 31 in s1, and in s2 an address outside every window. -/
def edge : State := coded { task with s := scal [0, 0x101FFFFF00, 0x3000000000] }
theorem witness_LoadResults_range : Ready edge [.s 1, .s (pairReg 1), .s 0, .v 3] [.v 1, .s 5] ∧ Clear edge 0 ∧
    edge.resolve 0 0 ((List.range ((1 : Fin 8).val + 1)).map fun j => (rowOf (srcS edge 1).toNat + 256 * j) % 2 ^ 40) = .range 0x1020000000 ∧
    edge.resolve 0 0 ((List.range 8).map fun j => (((rowOf (srcS edge 2).toNat : Int) + 256 * sext 32 (elem (srcV edge 3) j 32)) % 2 ^ 40).toNat) = .range 0x3000000000 := by
  unfold Ready Clear; decide +kernel
theorem witness_StoreResults : Ready local_ [.v 1, .s 3, .s 1, .s (pairReg 1), .s 2, .v 3] [] ∧ local_.journal? local_.issue.src.ticket = none ∧
    (∀ x ∈ [0x1000000100, 0x1000000200], local_.mem.poisoned (localKey x) = false) ∧ (0x1000000100 : Nat) % 256 = 0 ∧
    Ready described_ [.v 1, .s 3, .s 2, .s (pairReg 2), .s 0, .v 3] [] ∧ described_.journal? described_.issue.src.ticket = none ∧ described_.mem.poisoned (localKey 0x1000000500) = false ∧
    Ready described_ [.v 1, .s 3, .s 4, .s (pairReg 4), .s 0, .v 3] [] ∧ described_.mem.poisoned (localKey 0x1000FFFF00) = false := by unfold Ready; decide +kernel
/-- A task with a command outstanding on path B. -/
def busy : State := lab { task with outstanding := [⟨5, 1⟩] }
/-- A task whose push waits for room in queue 3. -/
def waiting : State := { lab { task with outstanding := [⟨5, 0⟩] } with bdq := [(3, ⟨[], [.task 5 0], [], none⟩)] }
theorem witness_CopyFenceDrainResults : Ready local_ [.v 1] [] ∧ local_.pushing = false ∧ local_.fenced 1 = false ∧ local_.holdsAny local_.issue.src.ticket = false ∧
    local_.cellRoom 0 1 1 = true ∧ ((busy.me.outstanding.filter fun o => (2 : BitVec 8).getLsbD o.path.val).map (·.id)) ≠ [] ∧
    ((busy.me.outstanding.filter fun o => (1 : BitVec 8).getLsbD o.path.val).map (·.id)) = [] ∧ local_.me.drained 0xFF = true ∧ busy.me.drained 2 = false ∧
    busy.pushing = false ∧ Ready busy [.v 1] [] ∧ waiting.pushing = true ∧ Ready waiting [.v 1] [] := by unfold Ready; decide +kernel
/-- Base-die queue 3, of two entries, that partition 0 may use; and the same full. -/
def queued : State := { local_ with mmio := [(⟨.bdqcfg, 3⟩, 0x0000000100010002)], ctxs := [(0, { task with s := scal [0, 3] })], issue := { local_.issue with src := { task with s := scal [0, 3] } } }
def queueFull : State := { queued with bdq := [(3, ⟨[(1, none), (2, none)], [], [], none⟩)] }
theorem witness_QueueOperationResults : Ready queued [.v 1, .s 1] [.v 2, .c 1] ∧ queued.fenced 0 = false ∧ queued.pushing = false ∧ queued.mayPush 3 0 = true ∧ (srcS queued 1).toNat % 1024 = 3 ∧
    (queued.bdQueue 3).entries.length < queued.bdqDepth 3 ∧ queued.mayPop 3 0 = true ∧ queueFull.bdqDepth 3 ≤ (queueFull.bdQueue 3).entries.length ∧ queueFull.mayPush 3 0 = true ∧
    Ready queueFull [.v 1, .s 1] [.v 2, .c 1] ∧ queueFull.pushing = false ∧ local_.mayPush 0 0 = false ∧ local_.mayPop 0 0 = false ∧ Ready local_ [.v 1, .s 0] [.v 2, .c 1] ∧ (1 : Fin 8) ≠ 0 := by
  unfold Ready; decide +kernel
/-- A task of a job, with a device virtual address in s1 and one below 2^56 in s3. -/
def setter : State := { lab { task with s := scal [0, 0x8000000000000000, 0x1000, 0x80FFFFFFFFFFFF00, 0x1000000000] } with jobs := [(0, theJob)] }
/-- The same task holding a granule. -/
def holder : State := { setter with journals := [(0, ⟨0, 0, 1, true, [], [], [⟨true, 0, 0, 256⟩], none, false⟩)] }
theorem witness_LockDeclarationResults : Ready setter [.s 1, .s 2] [] ∧ setter.issue.src.sup = false ∧ setter.issue.src.logical = 0xFF ∧ setter.fenced 0 = false ∧ setter.pushing = false ∧
    srcS setter 2 ≠ 0 ∧ srcS setter 0 = 0 ∧ (srcS setter 1).getLsbD 63 = true ∧ (bitsOf (srcS setter 1) 55 0 + (srcS setter 2).toNat + 256 - 1) / 256 * 256 ≤ 2 ^ 56 ∧
    2 ^ 56 < (bitsOf (srcS setter 3) 55 0 + (srcS setter 2).toNat + 256 - 1) / 256 * 256 ∧ (srcS setter 3).getLsbD 63 = true ∧ teamed.issue.src.logical ≠ 0xFF ∧ Ready teamed [.s 1, .s 2] [] ∧
    super.issue.src.sup = true ∧ Ready super [.s 1, .s 2] [] := by unfold Ready; decide +kernel
/-- Local addresses in s1 and from s3 on, and sizes in s2 and s9. -/
def ranges : State := { lab { task with s := scal [0, 0x100, 0x1000, 0x1000000100, 0x2000000000, 0xFFFF00, 0x1000000, 0x1000FFFF00, 0x101F000000, 4] } with mmio := [(⟨.quadpart, 31⟩, 1)] }
theorem witness_LockDeclarationResults_local : Ready ranges [.s 1, .s 2] [] ∧ Ready ranges [.s 3, .s 2] [] ∧ Ready ranges [.s 4, .s 2] [] ∧ Ready ranges [.s 5, .s 2] [] ∧ Ready ranges [.s 6, .s 2] [] ∧
    Ready ranges [.s 7, .s 2] [] ∧ Ready ranges [.s 8, .s 9] [] ∧ srcS ranges 2 ≠ 0 ∧ srcS ranges 9 ≠ 0 ∧ ranges.quadPart 0 = 0 ∧ ranges.quadPart 31 ≠ 0 ∧ (∀ n < 64, ranges.segOwner 0 n = 0) ∧
    (let ends := fun (a b : Fin 64) => let base := bitsOf (srcS ranges a) 39 0; (base / 256 * 256, (base + (srcS ranges b).toNat + 256 - 1) / 256 * 256)
     (srcS ranges 1).getLsbD 63 = false ∧ (ends 1 2).2 ≤ 0x1000000 ∧ 0x1000000000 ≤ (ends 3 2).1 ∧ (ends 3 2).2 ≤ 0x1001000000 ∧ 0x2000000000 ≤ (ends 4 2).1 ∧ (ends 4 2).2 ≤ 0x2020000000 ∧
     (ends 5 2).1 < 0x1000000 ∧ 0x1000000 < (ends 5 2).2 ∧ 0x1000000 ≤ (ends 6 2).1 ∧ (ends 6 2).1 < 0x1000000000 ∧ 0x1000000000 ≤ (ends 7 2).1 ∧ (ends 7 2).1 < 0x1001000000 ∧ 0x1001000000 < (ends 7 2).2 ∧
     0x1000000000 + 31 * 0x1000000 ≤ (ends 8 9).1 ∧ (ends 8 9).1 < 0x1000000000 + 32 * 0x1000000) := by unfold Ready; decide +kernel
theorem witness_LockDeclarationResults_journal : Ready setter [.s 4, .s 2] [] ∧ setter.job? setter.issue.src.job.toNat = some theJob ∧
    canonLocal 0 (rowOf ((srcS setter 4).toNat % 2 ^ 40)) = some (0x1000000000 + 0 * 0x1000000 + rowOf ((srcS setter 4).toNat % 2 ^ 40) % 0x1000000) ∧
    0 / 256 + (1 + (theJob.jnlRows + 31) / 32 + theJob.jnlRows) ≤ 65536 ∧ setter.holdsAny 0 = false ∧ holder.holdsAny 0 = true ∧ Ready holder [.s 4, .s 2] [] ∧ holder.pushing = false ∧
    holder.job? 0 = some theJob := by unfold Ready; decide +kernel
/-- A supervisor while an access of its partition waits for the host. -/
def hosted : State := { lab { task with sup := true, s := scal [0, 0x200000] } with
  quads := [(0, { Quad.reset with tcache := [⟨0, 0x200000, 0x200000⟩, ⟨0, 0x400000, 0x200000⟩] })]
  parked := [⟨9, 0, 0x300000, true, 0, some (0x200000, 0x200000), none, .copy 0 0⟩] }
theorem witness_StreamAndTranslationResults : Ready local_ [.s 1] [] ∧ local_.pushing = false ∧ local_.fenced 0 = false ∧ local_.fenced 3 = false ∧
    (local_.me.outstanding.any fun o => decide (o.path = 0)) = false ∧ super.issue.src.sup = true ∧ Ready super [.s 1] [] ∧ super.pushing = false ∧ super.parked = [] ∧ local_.issue.src.sup = false := by unfold Ready; decide +kernel
theorem witness_StreamAndTranslationResults_wait : hosted.issue.src.sup = true ∧ Ready hosted [.s 1] [] ∧ bitsOf (srcS hosted 1) 55 0 = 0x200000 ∧ hosted.translations = [⟨0, 0x200000, 0x200000⟩, ⟨0, 0x400000, 0x200000⟩] ∧
    hosted.parked.map (fun p => (p.id, p.link, p.part, p.page)) = [(9, true, hosted.issue.src.part, some (0x200000, 0x200000))] ∧ hosted.pushing = false ∧ hosted.fenced 0 = false ∧ hosted.fenced 3 = false := by unfold Ready; decide +kernel
/-- A supervisor on context 0 with context 1 running beside it, an address in s1 and the names of contexts 1 and 8 in s2 and s3. -/
def saver : State := { lab { task with sup := true, s := scal [0, 0x1000, 1, 8, 2] } with ctxs := [(0, { task with sup := true, s := scal [0, 0x1000, 1, 8, 2] }), (1, { task with vregs := 2, logical := 0xFF })] }
/-- The same, the watchdog of context 1, which has no handler, having run out. -/
def overdue : State := { saver with mmio := [(⟨.pwdog, 0⟩, 1)], quarters := 4 * 65536 }
theorem witness_ContextSaveResults : Ready saver [.s 1, .s 2] [] ∧ saver.fenced 0 = false ∧ saver.pushing = false ∧ saver.issue.src.sup = true ∧ coreOf 8 ≠ coreOf 0 ∧ (saver.ctx 2).life = .free ∧
    (saver.ctx 1).life ≠ .free ∧ (saver.ctx 1).life ≠ .ending ∧ (saver.ctx 1).life = .running ∧ bitsOf (srcS saver 2) 9 3 * 8 + bitsOf (srcS saver 2) 2 0 = 1 ∧
    bitsOf (srcS saver 3) 9 3 * 8 + bitsOf (srcS saver 3) 2 0 = 8 ∧ Ready saver [.s 1, .s 3] [] ∧ bitsOf (srcS saver 4) 9 3 * 8 + bitsOf (srcS saver 4) 2 0 = 2 ∧ divs.issue.src.sup = false ∧
    saver.watchdogDue 1 = false := by unfold Ready; decide +kernel
theorem witness_ContextSaveResults_rows : ∃ l, saver.resolve 0 0 (plainRows (rowOf ((srcS saver 1).toNat % 2 ^ 40)) (saveRows (saver.ctx 1).vregs (decide ((saver.ctx 1).logical ≠ 0xFF)))) = .ok l := ⟨_, rfl⟩
theorem witness_ContextSaveResults_overdue : overdue.watchdogDue 1 = true ∧ ((overdue.boundary 1).ctx 1).life = .free ∧ Ready overdue [.s 1, .s 2] [] ∧
    ∃ l, overdue.resolve 0 0 (plainRows (rowOf ((srcS overdue 1).toNat % 2 ^ 40)) (saveRows (overdue.ctx 1).vregs (decide ((overdue.ctx 1).logical ≠ 0xFF)))) = .ok l :=
  ⟨by decide +kernel, by decide +kernel, by unfold Ready; decide +kernel, _, rfl⟩
/-- A saved context whose image is one row of zeros, as it stands at the address in s1. -/
def stored : State := { saver with ctxs := [(0, saver.me)], stored := [⟨[.named 0x1000001000], { task with vregs := 2 }, 0, true, none, [], [], false, [0]⟩] }
theorem witness_ContextSaveResults_image : (stored.ctx 1).life = .free ∧ stored.resolve 0 0 [rowOf ((srcS stored 1).toNat % 2 ^ 40)] = .ok [0x1000001000] ∧
    (((stored.stored ++ stored.saved).find? fun x => stored.imageAt 0 0 (rowOf ((srcS stored 1).toNat % 2 ^ 40)) x).map fun x => stored.windowRoom 0 x.ctx.vregs) = some true ∧
    Ready stored [.s 1, .s 2] [] := by unfold Ready; decide +kernel
/-- The same with the home quad of its granules. -/
def homed (q : Nat) : State := { stored with stored := [⟨[.named 0x1000001000], { task with vregs := 2 }, 0, true, some q, [], [], false, [0]⟩] }
theorem witness_ContextSaveResults_home : ((homed 5).ctx 1).life = .free ∧ (((homed 5).stored ++ (homed 5).saved).find? fun x => (homed 5).imageAt 0 0 (rowOf ((srcS (homed 5) 1).toNat % 2 ^ 40)) x).map (·.homeQuad) = some (some 5) ∧
    quadOf 1 = 0 ∧ (((homed 0).stored ++ (homed 0).saved).find? fun x => (homed 0).imageAt 0 0 (rowOf ((srcS (homed 0) 1).toNat % 2 ^ 40)) x).map (·.homeQuad) = some (some 0) ∧ (homed 5).windowRoom 0 2 = true ∧
    (homed 5).resolve 0 0 [rowOf ((srcS (homed 5) 1).toNat % 2 ^ 40)] = .ok [0x1000001000] ∧ Ready (homed 5) [.s 1, .s 2] [] ∧
    ((saver.stored ++ saver.saved).find? fun x => saver.imageAt 0 0 (rowOf ((srcS saver 1).toNat % 2 ^ 40)) x) = none ∧ saver.resolve 0 0 [rowOf ((srcS saver 1).toNat % 2 ^ 40)] = .ok [0x1000001000] := by
  unfold Ready; decide +kernel

/-! ### Witnesses: channels and collectives -/

/-- `n` bytes of a number at an address of an empty memory. -/
def bytesAt (a n v : Nat) : Mem := (Mem.mk [] []).writeLe a v (2 ^ n - 1) n
/-- The entry of one end of a channel: flags, peer, credits and rows. -/
def chan (flags peer ch credits rows : Nat) : Chan := { Chan.empty with entry := BitVec.ofNat 128 (flags + 256 * peer + 65536 * ch + 2 ^ 24 * credits + 2 ^ 32 * rows) }
/-- A team of two cores with channels of every direction and kind between them; the credits of the last are taken. -/
def pair : State :=
  let c : Ctx := { task with logical := 0, s := scal [0, 0x1000000100] }
  { lab c with
    jobs := [(0, { theJob with team := some ⟨.running, [⟨0, 0, 0⟩, ⟨1, 1, 0⟩], none, 0, 0, none, none, 0, 0⟩ })]
    cores := [(0, { Core.reset with chans := [(0, chan 1 1 5 4 1), (1, chan 5 1 6 4 0), (2, chan 3 1 7 4 1), (3, chan 7 1 8 4 0), (9, { chan 1 1 10 4 1 with taken := 4 }), (11, { chan 5 1 12 4 0 with taken := 4 })] }),
      (1, { Core.reset with chans := [(5, chan 3 0 0 4 1), (6, chan 7 0 1 4 0), (7, chan 1 0 2 4 1), (8, chan 5 0 3 4 0), (10, chan 3 0 9 4 1), (12, chan 7 0 11 4 0)] })] }
theorem witness_ChannelAndCollectiveResults : Ready pair [.v 1, .s 1] [.v 1, .s 2] ∧ pair.chPeer pair.issue.src 0 20 = none ∧ pair.chPeer pair.issue.src 0 0 = some (1, 5) ∧ pair.chPeer pair.issue.src 0 1 = some (1, 6) ∧
    pair.chPeer pair.issue.src 0 2 = some (1, 7) ∧ pair.chPeer pair.issue.src 0 3 = some (1, 8) ∧ pair.chPeer pair.issue.src 0 9 = some (1, 10) ∧ pair.chPeer pair.issue.src 0 11 = some (1, 12) ∧
    pair.pushing = false ∧ pair.fenced 6 = false ∧
    (let e := (pair.chan 0 0).entry; chFlag e 0 = true ∧ chFlag e 1 = false ∧ chFlag e 2 = false ∧ chField e 4 1 = 0 + 1 ∧ (pair.chan 0 0).taken < chField e 3 1) ∧
    (let e := (pair.chan 0 1).entry; chFlag e 0 = true ∧ chFlag e 1 = false ∧ chFlag e 2 = true ∧ (pair.chan 0 1).taken < chField e 3 1) ∧
    (let e := (pair.chan 0 9).entry; chFlag e 0 = true ∧ chFlag e 1 = false ∧ chFlag e 2 = false ∧ chField e 4 1 = 0 + 1 ∧ chField e 3 1 ≤ (pair.chan 0 9).taken) ∧
    (let e := (pair.chan 0 11).entry; chFlag e 0 = true ∧ chFlag e 1 = false ∧ chFlag e 2 = true ∧ chField e 3 1 ≤ (pair.chan 0 11).taken) ∧
    (let e := (pair.chan 0 2).entry; chFlag e 0 = true ∧ chFlag e 1 = true ∧ (pair.chan 0 2).elems = [] ∧ chFlag e 2 = false ∧ chSinkRows e = 0 + 1) ∧
    (let e := (pair.chan 0 3).entry; chFlag e 0 = true ∧ chFlag e 1 = true ∧ (pair.chan 0 3).elems = [] ∧ chFlag e 2 = true) := by unfold Ready; decide +kernel
/-- A row with a legal collective descriptor, a legal channel entry, or a list of chunks. -/
def described (v : Nat) : State :=
  let m := bytesAt (localKey 0x1000000100) 64 v
  { pair with mem := m, issue := { pair.issue with mem := m } }
def collBits : Nat := 65536 * 256 ^ 8 + 0x1000000200 * 256 ^ 32 + 0x1000000300 * 256 ^ 48
/-- The same with its flag in another partition's scratchpad (quad 31 of partition 1 in `foreign`). -/
def foreignBits : Nat := 65536 * 256 ^ 8 + 0x101F000200 * 256 ^ 32 + 0x1000000300 * 256 ^ 48
def foreign : State := { described foreignBits with mmio := [(⟨.quadpart, 31⟩, 1)] }
def entryBits_ : Nat := (chan 1 1 5 4 1).entry.toNat
theorem witness_ChannelAndCollectiveResults_coll : Ready (described collBits) [.s 1] [.s 2] ∧ Reaches (described collBits) [rowOf ((srcS (described collBits) 1).toNat % 2 ^ 40)] [0x1000000100] ∧
    ((described collBits).loadRow 0x1000000100).2 = none ∧ (described collBits).fenced 4 = false ∧
    badColl 0 (BitVec.ofNat 512 (nbytes ((described collBits).loadRow 0x1000000100).1.toNat 0 64)) = false ∧ (described collBits).reach 0 0 0x1000000200 ≠ .range ∧
    (described collBits).reach 0 0 0x1000000300 ≠ .range ∧ badColl 0 (BitVec.ofNat 512 (nbytes ((described 0).loadRow 0x1000000100).1.toNat 0 64)) = true ∧
    Reaches (described 0) [rowOf ((srcS (described 0) 1).toNat % 2 ^ 40)] [0x1000000100] := by unfold Ready Reaches Clear; decide +kernel
theorem witness_ChannelAndCollectiveResults_foreign : badColl 0 (BitVec.ofNat 512 (nbytes (foreign.loadRow 0x1000000100).1.toNat 0 64)) = false ∧ (0x101F000200 : Nat).testBit 63 = false ∧
    foreign.reach 0 0 0x101F000200 = .range ∧ nbytes (foreign.loadRow 0x1000000100).1.toNat 32 8 = 0x101F000200 ∧ Ready foreign [.s 1] [.s 2] ∧
    Reaches foreign [rowOf ((srcS foreign 1).toNat % 2 ^ 40)] [0x1000000100] := by unfold Ready Reaches Clear; decide +kernel
theorem witness_ChannelAndCollectiveResults_entry : Ready (described entryBits_) [.s 1] [.s 2] ∧ Reaches (described entryBits_) [rowOf ((srcS (described entryBits_) 1).toNat % 2 ^ 40)] [0x1000000100] ∧
    ((described entryBits_).loadRow 0x1000000100).2 = none ∧
    BitVec.ofNat 128 (nbytes ((described entryBits_).loadRow 0x1000000100).1.toNat 0 16) = (chan 1 1 5 4 1).entry ∧ chEntryOk (chan 1 1 5 4 1).entry = true ∧ chEntryOk 2 = false ∧
    ((described 2).loadRow 0x1000000100).2 = none ∧ BitVec.ofNat 128 (nbytes ((described 2).loadRow 0x1000000100).1.toNat 0 16) = 2 ∧
    (pair.chan 0 20).isIdle = true ∧ chFlag (pair.chan 0 20).entry 0 = false ∧ (described entryBits_).cellRoom 0 3 (chCells (chan 1 1 5 4 1).entry) = true ∧ pair.issue.src.logical ≠ 0xFF ∧
    local_.issue.src.logical = 0xFF := by unfold Ready Reaches Clear; decide +kernel
theorem witness_ChannelAndCollectiveResults_list :
    (let row := ((described (2 ^ 64 * 1)).loadRow 0x1000000100).1.toNat; nbits (nbytes row 0 8) 63 48 = 0 ∧ 1 ≤ nbytes row 8 8 ∧ nbytes row 8 8 ≤ 30) ∧
    (let row := ((described (2 ^ 64 * 30)).loadRow 0x1000000100).1.toNat; nbits (nbytes row 0 8) 63 48 = 0 ∧ 1 ≤ nbytes row 8 8 ∧ nbytes row 8 8 ≤ 30) ∧
    (let row := ((described (2 ^ 64 * 31)).loadRow 0x1000000100).1.toNat; 30 < nbytes row 8 8) ∧ nbytes ((described 0).loadRow 0x1000000100).1.toNat 8 8 = 0 ∧
    nbits (nbytes ((described (2 ^ 48)).loadRow 0x1000000100).1.toNat 0 8) 63 48 ≠ 0 := by decide +kernel
/-- A collective of group 0 under SEQ 0, and s1 that asks for the next number. -/
def liveColl : Coll := ⟨⟨0, 0, 0, 0, 0, 0, false⟩, BitVec.ofNat 512 collBits, [0, 1], 0, 0, 0, 0, false, false, false, [], none, [], 0, 0, []⟩
def collecting : State := { lab { task with s := scal [0, 0x8000000000000000] } with colls := [(0, 0, liveColl)] }
theorem witness_ChannelAndCollectiveResults_query : Ready collecting [.s 1] [.s 2] ∧ (srcS collecting 1).getLsbD 63 = true ∧ (srcS collecting 0).getLsbD 63 = false ∧ collecting.coll? 0 0 = some liveColl ∧
    local_.coll? 0 0 = none ∧ Ready collecting [.s 0] [.s 2] ∧ Ready local_ [.s 0] [.s 2] := by unfold Ready; decide +kernel
/-- The same channels with an element present at each receiving end, and on channel 13 one that FP32 lanes convert to BF16. -/
def elems : State :=
  let x : Elem := ⟨5, 0, 1, none⟩
  let f := { chan 3 1 14 4 2 with entry := (chan 3 1 14 4 2).entry ||| 1 <<< 64, elems := [x] }
  { pair with cores := [(0, { Core.reset with chans := [(2, { chan 3 1 7 4 1 with elems := [x] }), (3, { chan 7 1 8 4 0 with elems := [x] }), (13, f)] }),
      (1, { Core.reset with chans := [(7, chan 1 0 2 4 1), (8, chan 5 0 3 4 0), (14, { chan 1 0 13 4 2 with entry := (chan 1 0 13 4 2).entry ||| 1 <<< 64 })] })] }
theorem witness_ChannelAndCollectiveResults_present : Ready elems [.v 1, .s 1] [.v 1, .s 2] ∧ elems.chPeer elems.issue.src 0 2 = some (1, 7) ∧ elems.chPeer elems.issue.src 0 3 = some (1, 8) ∧
    elems.chPeer elems.issue.src 0 13 = some (1, 14) ∧ (elems.chan 0 2).elems = [⟨5, 0, 1, none⟩] ∧ (elems.chan 0 2).recvs = [] ∧ (elems.chan 0 3).elems = [⟨5, 0, 1, none⟩] ∧ (elems.chan 0 3).recvs = [] ∧
    (elems.chan 0 13).elems = [⟨5, 0, 1, none⟩] ∧ elems.saved = [] ∧ elems.stored = [] ∧ elems.me.job = elems.issue.src.job ∧ elems.me.logical = elems.issue.src.logical ∧
    (let e := (elems.chan 0 2).entry; chFlag e 1 = true ∧ chFlag e 2 = false ∧ chSinkRows e = 0 + 1 ∧ (FmtEntry.ofBits (chField e 8 2)).fmt = some .bf16 ∧ (FmtEntry.ofBits (chField e 10 2)).fmt = some .bf16) ∧
    (let e := (elems.chan 0 3).entry; chFlag e 1 = true ∧ chFlag e 2 = true) ∧
    (let e := (elems.chan 0 13).entry; chFlag e 1 = true ∧ chFlag e 2 = false ∧ chSinkRows e = 0 + 1 ∧ (FmtEntry.ofBits (chField e 8 2)).fmt = some .fp32 ∧ (FmtEntry.ofBits (chField e 10 2)).fmt = some .bf16) ∧
    chSinkRows (elems.chan 0 2).entry ≠ 1 + 1 ∧ chFlag (elems.chan 0 2).entry 0 = true ∧ chField (pair.chan 0 0).entry 4 1 ≠ 1 + 1 := by unfold Ready; decide +kernel

/-! ### Witnesses: ownership, registers, queues -/

/-- The module in the hands of agent 1, by a claim of cycle 0. -/
def owned : State := { State.reset with mmio := [(⟨.owner, 0⟩, 1)], claimed := some 0 }
theorem witness_OwnershipResults : State.reset.vacant = true ∧ State.reset.candidate 0 = true ∧ (1 : Word).getLsbD 0 = true ∧ (0 : Word).getLsbD 0 = false ∧ State.reset.candidate 2 = false ∧ owned.vacant = false ∧
    owned.claimed = some owned.now ∧ 0 < owned.fld .owner 0 7 0 ∧ ¬ 1 < owned.fld .owner 0 7 0 ∧ owned.isOwner 1 = true ∧ owned.isOwner 0 = false ∧ owned.candidate (nbits (0 : Word).toNat 7 0) = true ∧
    nbits (0 : Word).toNat 31 16 = owned.fld .owner 0 31 16 ∧ nbits (0x10000 : Word).toNat 31 16 ≠ owned.fld .owner 0 31 16 ∧ owned.candidate (nbits (0xFF : Word).toNat 7 0) = false ∧
    ({ State.reset with running := false } : State).running = false ∧ State.reset.running = true := by decide +kernel
theorem witness_RegisterAccessResults : MReg.atOffset (0x400 : BitVec 33).toNat = some ⟨.pwrcap, 0⟩ ∧ MFam.pwrcap ∉ [MFam.claim, .handover, .admqcreate, .qdb, .qstat, .gdb, .btown, .bdqcfg, .retq, .retb, .pres, .presz, .tbase] ∧
    owned.running = true ∧ (⟨.pwrcap, 0⟩ : MReg).ownerExempt = false ∧ owned.isOwner 1 = true ∧ owned.isOwner 2 = false ∧ owned.mctpServed none false = some 1 ∧ (1 : Fin 4) ≠ 3 ∧ (0x404 : BitVec 33).toNat % 8 ≠ 0 ∧ (0x400 : BitVec 33).toNat % 8 = 0 ∧
    MReg.atOffset (0x1FFFFFFF8 : BitVec 33).toNat = none ∧ (0xF0 : BitVec 33).toNat < 2 ^ 32 ∧ MReg.atOffset (0xF0 : BitVec 33).toNat = none ∧ (0xF0 : BitVec 33).toNat % 8 = 0 ∧ tget owned.cycleSets ⟨.pwrcap, 0⟩ = none := by decide +kernel
/-- Agent 1 owns the module: arrays retained, entering and active, and queue 3 of the base die empty or not. -/
def retained : State := { owned with
  quads := [(1, { Quad.reset with retain := .retained }), (2, { Quad.reset with retain := .entering 9 })], dies := [(0, { Die.reset with retain := .retained })]
  bdq := [(3, ⟨[(1, none)], [], [], none⟩)] }
theorem witness_OwnerWriteResults : retained.isOwner 1 = true ∧ nbits (1 : Word).toNat 3 0 ≠ retained.fld .btown 0 3 0 ∧ (retained.bdQueue 2).entries = [] ∧ (retained.bdQueue 3).entries ≠ [] ∧
    (retained.bdQueue 3).pushes = [] ∧ (retained.bdQueue 3).pops = [] ∧ retained.retain (.scratch 1) = .retained ∧ retained.retain (.scratch 2) = .entering 9 ∧ retained.retain (.scratch 0) = .active ∧
    retained.retain (.bigTop 0) = .retained ∧ (0 : Word).getLsbD 0 = false := by decide +kernel
/-- The administrative window asks for queue 0 of 16 entries, its sibling of 4. -/
def asking : State := { owned with mmio := [(⟨.owner, 0⟩, 1), (⟨.admqcreate, 2⟩, 16), (⟨.admqcreate, 5⟩, 4)] }
theorem witness_OwnerWriteResults_queue : let p : BitVec 512 := BitVec.ofNat 512 (pack ((8, (9 : Word).toNat) :: (List.range 7).map fun w => (8, (asking.reg ⟨.admqcreate, w + 1⟩).toNat)))
    asking.isOwner 1 = true ∧ asking.running = true ∧ pkField p 0 1 = 9 ∧ pkField p 1 7 = 0 ∧ pkField p 20 2 = 0 ∧ badCreate p = false ∧ asking.live 0 = false := by decide +kernel
/-- Queue `n` of 16 entries, live, with one packet of these bytes at its head; its ring and HEAD's word stand in the page of partition 0 at 2 MiB. -/
def packet (n v : Nat) : State := { owned with
  mmio := [(⟨.owner, 0⟩, 1), (⟨.qstat, n⟩, 0x100000000), (⟨.qdb, n⟩, 1), (⟨.gdb, 0⟩, 0), (⟨.quadpart, 1⟩, 0)]
  queues := [(n, ⟨0x200000, 16, 0, 0x208000, 0, 4, 0, 0, none, [], 0, []⟩)], pages := [⟨0, 0x200000, 0x200000, false, 7, false⟩]
  images := [(imageKey 0 0, ⟨0x300000, 4096, false⟩)]
  mem := bytesAt 0x200000 64 v
  gather := [(0, ⟨BitVec.ofNat 512 (256 ^ 10 + 16 * 256 ^ 32), [], 0, []⟩)] }
theorem witness_DoorbellResults : let s := packet 3 0; owned.isOwner 1 = true ∧ tget s.queues 3 = some ⟨0x200000, 16, 0, 0x208000, 0, 4, 0, 0, none, [], 0, []⟩ ∧ s.running = true ∧ s.live 3 = true ∧ s.live 0 = false ∧
    ((16 : BitVec 32).toNat + 2 ^ 32 - s.headOf 3) % 2 ^ 32 ≤ 16 ∧ 16 < ((17 : BitVec 32).toNat + 2 ^ 32 - s.headOf 3) % 2 ^ 32 ∧ (0x400000000 : Word).getLsbD 34 = true ∧ (0 : Word).getLsbD 34 = false ∧
    gOn (s.gatherChan 0).cfg = true ∧ ((16 : BitVec 32).toNat + 2 ^ 32 - s.fld .gstat 0 31 0) % 2 ^ 32 ≤ gField (s.gatherChan 0).cfg 32 4 ∧
    gField (s.gatherChan 0).cfg 32 4 < ((17 : BitVec 32).toNat + 2 ^ 32 - s.fld .gstat 0 31 0) % 2 ^ 32 ∧ gOn (s.gatherChan 1).cfg = false := by decide +kernel
/-- A packet stands at the head of queue `n`. -/
abbrev heads (n v : Nat) : Prop := HeadPacket (packet n v) n ⟨0x200000, 16, 0, 0x208000, 0, 4, 0, 0, none, [], 0, []⟩ (BitVec.ofNat 512 v) ∧ badPacket (BitVec.ofNat 512 v) = false
theorem heads_of (n v : Nat) (h : tget (packet n v).queues n = some ⟨0x200000, 16, 0, 0x208000, 0, 4, 0, 0, none, [], 0, []⟩ ∧ (packet n v).running = true ∧ (packet n v).live n = true ∧
    (packet n v).fld .qstat n 33 33 = 0 ∧ (packet n v).headOf n ≠ (packet n v).fld .qdb n 31 0 ∧ (packet n v).parked = [] ∧ (packet n v).spotQ n 0 (0x200000 + (packet n v).headOf n % 16 * 64) 1 = .mem 0x200000 ∧
    (packet n v).mem.poisoned 0x200000 = false ∧ BitVec.ofNat 512 v = BitVec.ofNat 512 ((packet n v).mem.readLe 0x200000 64) ∧ badPacket (BitVec.ofNat 512 v) = false) : heads n v :=
  ⟨⟨h.1, h.2.1, h.2.2.1, h.2.2.2.1, rfl, h.2.2.2.2.1, by simp [h.2.2.2.2.2.1], _, h.2.2.2.2.2.2.1, h.2.2.2.2.2.2.2.1, h.2.2.2.2.2.2.2.2.1⟩, h.2.2.2.2.2.2.2.2.2⟩
/-- A QUEUE_CREATE for queue 5, a PART_RESIZE of quad 1 to partition 2, a GATHER_CFG of channel 0. -/
def makeQueue : Nat := 9 + 16 * 256 ^ 16 + 5 * 256 ^ 20 + 4 * 256 ^ 40
def resize : Nat := 7 + 2 * 256 ^ 8 + 2 * 256 ^ 12
def gatherSet : Nat := 8 + 256 ^ 10 + 256 ^ 12 + 256 ^ 14 + 256 ^ 20 + 16 * 256 ^ 32 + 2 * 256 ^ 56
theorem witness_PacketResults : heads 3 0 ∧ heads 3 (2 + 0x1000 * 256 ^ 16) ∧ heads 0 makeQueue ∧ heads 0 resize ∧ heads 0 gatherSet :=
  ⟨heads_of _ _ (by decide +kernel), heads_of _ _ (by decide +kernel), heads_of _ _ (by decide +kernel), heads_of _ _ (by decide +kernel), heads_of _ _ (by decide +kernel)⟩
theorem witness_PacketResults_admin : let s := packet 0 makeQueue; let r := packet 0 resize
    pkField (BitVec.ofNat 512 makeQueue) 20 2 ≠ 0 ∧ s.live (pkField (BitVec.ofNat 512 makeQueue) 20 2) = false ∧ (pkField (BitVec.ofNat 512 resize) 8 4).testBit 1 = true ∧
    pkField (BitVec.ofNat 512 resize) 12 1 ≠ r.quadPart 1 ∧ r.quadMoving 1 = false ∧ (r.quad 1).zeroEnd = none := by decide +kernel
/-- A FLAG_WRITE of 7 to 0x20A000. -/
def flagPut : Nat := 5 + 0x20A000 * 256 ^ 8 + 7 * 256 ^ 16
/-- A FLAG_WAIT there for `v`, with mode `m`. -/
def flagTest (v m : Nat) : Nat := 6 + 0x20A000 * 256 ^ 8 + v * 256 ^ 16 + m * 256 ^ 24
theorem witness_PacketResults_flag : heads 3 flagPut ∧ (packet 3 flagPut).spotQ 3 0 0x20A000 2 8 = .mem 0x20A000 ∧ 0x20A000 % 8 = 0 ∧ (packet 3 flagPut).mem.poisoned 0x20A000 = false ∧
    (packet 3 flagPut).spotQ 3 0 0x208000 2 8 = .mem 0x208000 ∧ 0x208000 % 8 = 0 ∧ 0x208000 ≠ 0x20A000 ∧ (packet 3 flagPut).mem.poisoned 0x208000 = false :=
  ⟨heads_of _ _ (by decide +kernel), by decide +kernel⟩
theorem witness_PacketResults_wait : heads 3 (flagTest 0 0) ∧ heads 3 (flagTest 1 0) ∧ (packet 3 (flagTest 0 0)).spotQ 3 0 0x20A000 1 = .mem 0x20A000 ∧
    waitTest ((packet 3 (flagTest 0 0)).mem.word 0x20A000) 0 0 ≠ waitTest ((packet 3 (flagTest 1 0)).mem.word 0x20A000) 1 0 :=
  ⟨heads_of _ _ (by decide +kernel), heads_of _ _ (by decide +kernel), by decide +kernel⟩
/-- A LAUNCH of the card at 0x204000, a DEAL card of no task, with its root at 0x206000. -/
def launch : Nat := 1 + 0x204000 * 256 ^ 8
def cardBits : Nat := 256 ^ 24 + 32 * 256 ^ 28 + 0x206000 * 256 ^ 40 + 0x206100 / 64 * 64 * 256 ^ 48
def launching : State := { packet 3 launch with mem := (bytesAt 0x200000 64 launch).writeLe 0x204000 cardBits (2 ^ 128 - 1) 128 }
/-- The same with every job slot taken. -/
def slotless : State := { launching with jobs := (List.range 4096).map fun i => (i, theJob) }
theorem tget_all (l : List Nat) (i : Nat) (h : i ∈ l) (x : Job) : (tget (l.map fun n => (n, x)) i).isNone = false := by
  induction l with
  | nil => simp at h
  | cons a l ih =>
    simp only [tget, List.map_cons, List.find?_cons]
    by_cases e : a = i
    · simp [e]
    · simp only [e, decide_false]
      exact ih (List.mem_of_ne_of_mem (fun h => e h.symm) h)
theorem slotless_full : slotless.freeSlot = none := by
  simp only [State.freeSlot, List.find?_eq_none]
  intro i hi
  simp only [State.job?, slotless]
  simp [tget_all _ _ hi]
theorem witness_PacketResults_launch : launching.spotQ 3 0 0x204000 1 = .mem 0x204000 ∧ launching.mem.poisoned 0x204000 = false ∧
    launching.checkCard (some 0) (BitVec.ofNat 1024 (launching.mem.readLe 0x204000 128)) = .ok ∧ launching.freeSlot = some 0 ∧
    HeadPacket launching 3 ⟨0x200000, 16, 0, 0x208000, 0, 4, 0, 0, none, [], 0, []⟩ (BitVec.ofNat 512 launch) ∧ badPacket (BitVec.ofNat 512 launch) = false :=
  ⟨by decide +kernel, by decide +kernel, by decide +kernel, by decide +kernel,
   ⟨by decide +kernel, by decide +kernel, by decide +kernel, by decide +kernel, by decide +kernel, by decide +kernel, by decide +kernel, 0x200000, by decide +kernel⟩, by decide +kernel⟩
/-- The host may hold a line of the root. -/
def rootSnooped : State := { launching with hostLines := [0x206000] }
theorem witness_PacketResults_root : launching.rootHeld (jobOf (BitVec.ofNat 1024 cardBits) 0x204000) = [] ∧ rootSnooped.rootHeld (jobOf (BitVec.ofNat 1024 cardBits) 0x204000) ≠ [] ∧
    rootSnooped.freeSlot = some 0 ∧ rootSnooped.spotQ 3 0 0x204000 1 = .mem 0x204000 := by decide +kernel
theorem witness_PacketResults_full : slotless.freeSlot = none ∧ slotless.mem = launching.mem ∧ slotless.queues = launching.queues ∧ slotless.mmio = launching.mmio ∧ slotless.pages = launching.pages ∧
    slotless.images = launching.images := ⟨slotless_full, rfl, rfl, rfl, rfl, rfl⟩

/-! ### Witnesses: translations, copies and tiles -/

/-- No context runs or ends. -/
theorem quiet_of_none {s : State} (h : s.ctxs = []) : Quiet s := by
  intro k
  have e : s.ctx k = Ctx.reset := by simp [State.ctx, tgetD, tget, h]
  rw [e]; exact ⟨by decide, fun x => absurd x (by decide)⟩
/-- MAP and UNMAP of one small page at `va`, and the same over the page that is mapped. -/
def mapAt (va : Nat) : Nat := 3 + va * 256 ^ 8 + 0x400000 * 256 ^ 16 + 256 ^ 24 + 7 * 256 ^ 28
def unmapBits : Nat := 4 + 0x200000 * 256 ^ 8 + 256 ^ 24
theorem witness_MappingResults : heads 3 (mapAt 0x400000) ∧ pkField (BitVec.ofNat 512 (mapAt 0x400000)) 24 4 ≠ 0 ∧ (packet 3 (mapAt 0x400000)).mapFault 0 (BitVec.ofNat 512 (mapAt 0x400000)) = none ∧
    heads 3 (mapAt 0x200000) ∧ ((packet 3 (mapAt 0x200000)).mapFault 0 (BitVec.ofNat 512 (mapAt 0x200000))).isSome = true ∧ heads 3 unmapBits ∧ pkField (BitVec.ofNat 512 unmapBits) 24 4 ≠ 0 :=
  ⟨heads_of _ _ (by decide +kernel), by decide +kernel, by decide +kernel, heads_of _ _ (by decide +kernel), by decide +kernel, heads_of _ _ (by decide +kernel), by decide +kernel⟩
/-- The MAP, or the UNMAP, has started; a copy is parked on the page. -/
def mapping (v : Nat) : State := { packet 3 v with queues := [(3, ⟨0x200000, 16, 0, 0x208000, 0, 4, 0, 0, some (BitVec.ofNat 512 v), [], 0, []⟩)], parked := [⟨9, 0, 0x400100, false, 0, none, none, .copy 0 5⟩] }
theorem witness_MappingResults_complete : let q := (tgetD (mapping (mapAt 0x400000)).queues 3 ⟨0, 0, 0, 0, 0, 0, 0, 0, none, [], 0, []⟩); q.busy = some (BitVec.ofNat 512 (mapAt 0x400000)) ∧
    pkField (BitVec.ofNat 512 (mapAt 0x400000)) 0 1 = 3 ∧ pkField (BitVec.ofNat 512 unmapBits) 0 1 = 4 ∧
    (∃ y ∈ (mapping (mapAt 0x400000)).parked, y.link = false ∧ y.part = q.part ∧ 0x400000 ≤ y.va ∧ y.va < 0x400000 + 2 ^ 17) ∧
    (∀ m ∈ (mapping (mapAt 0x400000)).pages, m.va + m.bytes ≤ 0x400000) ∧ (mapping (mapAt 0x400000)).hostLines = [] := by decide +kernel
/-- A host agent may hold a line of the page that the MAP is to zero; an access through the page that the UNMAP takes waits for port 0. -/
def snooped : State := { mapping (mapAt 0x400000) with hostLines := [0x400040], pageOwner := [(32, 1)] }
def passing : State := { mapping unmapBits with pages := [⟨0, 0x200000, 0x200000, false, 7, false⟩], parked := [⟨9, 0, 0x200100, true, 0, some (0x200000, 2 ^ 17), none, .copy 0 5⟩] }
/-- The same after the host has given its line back, with a byte of another partition in the page. -/
def claiming : State := { snooped with hostLines := [], mem := bytesAt 0x400100 1 9 }
theorem witness_MappingResults_taken : claiming.foreignPages 0 0x400000 (1 * pkPage (BitVec.ofNat 512 (mapAt 0x400000))) = [(32, 1)] ∧ claiming.hostLines = [] ∧ claiming.mem.read 0x400100 = 9 ∧
    (32 * 2 ^ 17 ≤ 0x400100 ∧ 0x400100 < (32 + 1) * 2 ^ 17) ∧ tget claiming.queues 3 = some ⟨0x200000, 16, 0, 0x208000, 0, 4, 0, 0, some (BitVec.ofNat 512 (mapAt 0x400000)), [], 0, []⟩ ∧
    claiming.spotQ 3 0 0x208000 2 8 = .mem 0x208000 := by decide +kernel
theorem witness_MappingResults_wait : ((snooped.foreignPages 0 0x400000 (1 * pkPage (BitVec.ofNat 512 (mapAt 0x400000)))).flatMap fun e => snooped.linesHeld (e.1 * 2 ^ 17) (2 ^ 17)) ≠ [] ∧
    (∃ m ∈ passing.pages, 0x200000 ≤ m.va ∧ m.va < 0x200000 + 1 * pkPage (BitVec.ofNat 512 unmapBits) ∧ m.bytes = pkPage (BitVec.ofNat 512 unmapBits) ∧ passing.underWay 0 m.va m.bytes ≠ []) ∧
    (∀ m ∈ (mapping unmapBits).pages, (mapping unmapBits).underWay 0 m.va m.bytes = []) := by decide +kernel

/-- A copy of one row from 0x1000000000 to 0x1000000200, RETADDR 0x1000000600 and a done counter at 0x400, that has started; `fin`: its rows are copied. -/
def copyBits (op flags : Nat) : Nat := op + flags * 256 ^ 4 + 0x1000000000 * 256 ^ 8 + 0x1000000200 * 256 ^ 16 + 256 * 256 ^ 24 + 256 ^ 28 + 4 * 256 ^ 48 + 0x1000000600 * 256 ^ 56
def copyCmd (op flags : Nat) (fin : Bool) : CopyCmd := ⟨7, ⟨0, 0, 0, 0, 0, 0, false⟩, 0, BitVec.ofNat 512 (copyBits op flags), true, 0, none, 0, 0, 0, 0, 0, fin, none, 0, 0⟩
def copying (op flags : Nat) (fin : Bool) : State := { State.reset with quads := [(0, { Quad.reset with copies := [copyCmd op flags fin] })] }
/-- Row `row` of the same with two copy rows of 512 bytes, of this AOP on INT64 lanes. -/
def rowCmd (op aop row : Nat) : CopyCmd := { copyCmd op 0 false with row := row, cmd := BitVec.ofNat 512 (copyBits op 0 + aop * 256 + 9 * 256 ^ 2 + 9 * 256 ^ 3 + 256 * 256 ^ 24 + 256 ^ 28 + 512 * 256 ^ 36 + 2 * 256 ^ 40) }
/-- A command alone on quad 0. -/
def alone (c : CopyCmd) : State := { State.reset with quads := [(0, { Quad.reset with copies := [c] })] }
/-- The rows that a started command comes to next: its source, its destination, and those returned. -/
abbrev NextRow (c : CopyCmd) (d r k : Nat) : Prop := let s := alone c; let m := cpRowLen c.cmd / 256
  RowsToCome s 0 c ∧ s.spot c.org false ((rowOf (cpDst c.cmd) + c.row / m * cpDPitch c.cmd + 256 * (c.row % m)) % 2 ^ 40) 2 = .mem (localKey d) ∧ s.mem.poisoned (localKey d) = false ∧
    (match s.engineRead c.org false ((rowOf (cpSrc c.cmd) + c.row / m * cpSPitch c.cmd + 256 * (c.row % m)) % 2 ^ 40) with | .ok _ _ => true | _ => false) = true ∧
    s.spot c.org false (rowOf (cpLast c.cmd) + c.row / m * cpRowLen c.cmd + 256 * (c.row % m)) 2 = .mem (localKey r) ∧
    s.spot c.org false (rowOf (cpLast c.cmd) + cpRows c.cmd * cpRowLen c.cmd) 2 = .mem (localKey k) ∧ [localKey d, localKey r, localKey k].Nodup
theorem witness_CopyEngineResults : (∀ op ∈ [0, 1, 2, 3, 4, 5], NextRow (copyCmd op 0 false) 0x1000000200 0x1000000600 0x1000000700 ∧ cpOp (copyCmd op 0 false).cmd = op) ∧
    cpRows (copyCmd 5 0 false).cmd = 1 ∧ cpRowLen (copyCmd 5 0 false).cmd / 256 = 1 ∧ (copyCmd 5 0 false).flags = 0 := by unfold NextRow RowsToCome; decide +kernel
theorem witness_CopyEngineResults_rows : (∀ op ∈ [3, 4], ∀ aop ∈ [0, 1, 2, 4, 5, 6, 7, 8, 9], NextRow (rowCmd op aop 1) 0x1000000300 0x1000000700 0x1000000A00 ∧ NextRow (rowCmd op aop 3) 0x1000000500 0x1000000900 0x1000000A00 ∧
      cpOp (rowCmd op aop 1).cmd = op ∧ cpAop (rowCmd op aop 1).cmd = aop ∧ (cpTo (rowCmd op aop 1).cmd).isInt = true) ∧
    (rowCmd 4 8 1).row + 1 ≠ cpRows (rowCmd 4 8 1).cmd * (cpRowLen (rowCmd 4 8 1).cmd / 256) ∧ (rowCmd 4 8 3).row + 1 = cpRows (rowCmd 4 8 3).cmd * (cpRowLen (rowCmd 4 8 3).cmd / 256) ∧
    cpAop (copyCmd 3 0 false).cmd = 0 ∧ (cpTo (copyCmd 3 0 false).cmd).isFloat = true := by unfold NextRow RowsToCome; decide +kernel
/-- R275: INCW with bound 2 writes 1 over 0 in each lane of its row, without a source, and the next row is row 2. -/
theorem test_incw : after (.acc 0) (alone (rowCmd 3 8 1)) (fun t => (t.mem.readLe (localKey 0x1000000300) 8, t.mem.readLe (localKey 0x1000000308) 8, ((t.quad 0).copies.map (·.row)))) = some (1, 1, [2]) := by decide +kernel
theorem witness_CopyEngineResults_done : (copying 0 4 true).ctxs = [] ∧ ((copying 0 4 true).quad 0).copies = [copyCmd 0 4 true] ∧ (copyCmd 0 4 true).finished = true ∧ (copyCmd 0 4 true).failed = none ∧ cpFlag (copyCmd 0 4 true).cmd 3 = false ∧
    cpFlag (copyCmd 0 4 true).cmd 5 = false ∧ cpFlag (copyCmd 0 4 true).cmd 2 = true ∧ (copyCmd 0 4 true).org.quad = 0 ∧ (copying 0 4 true).reach 0 0 (rowOf (cpDone (copyCmd 0 4 true).cmd)) = .ok 0x1000000400 ∧
    (copying 0 4 true).mem.poisoned (localKey 0x1000000400) = false := by decide +kernel
/-- An arrival of class 5 at core 0, with a dormant handler of its class, and without one. -/
def arriving : State := { State.reset with
  cores := [(0, { Core.reset with arriving := [⟨5, 1, 2, 3, 0, 0, 0, none, 0, 1, false⟩] })]
  ctxs := [(3, { Ctx.reset with life := .dormant, armed := some (64, 5) })], jobs := [(0, theJob)] }
theorem witness_CopyEngineResults_arrival : (arriving.core 0).arriving = [⟨5, 1, 2, 3, 0, 0, 0, none, 0, 1, false⟩] ∧ arriving.dormantOf 0 5 = some 3 ∧ (∀ b ∈ (arriving.core 0).arrivals, b.cls ≠ 5) ∧
    (arriving.core 0).lastStamp ≠ some arriving.tbase.toNat ∧ ({ arriving with ctxs := [] } : State).dormantOf 0 5 = none ∧ (arriving.core 0).arrivals.length < 32 := by decide +kernel

/-- A tile task of one BF16 block and one row, its output at 0x10000 and its done counter at 0x20000; its word, at 0x30000, is asked for when `wait`. -/
def oneTile (wait : Nat) : Nat := 256 ^ 28 + 256 ^ 30 + 0x100 * 256 ^ 36 + 256 * 256 ^ 40 + wait * 256 ^ 46 + 0x300 * 256 ^ 56 + 0x200 * 256 ^ 60
def tileRec (wait : Nat) (ok : Bool) : TileRec := ⟨6, ⟨0, 0, 0, 0, 0, 0, false⟩, BitVec.ofNat 512 (oneTile wait), 0, 0, 0, 0, [], ok, 0, 0, true, 0, none, none⟩
/-- The task waits in its queue, its word at `w`. -/
def tiling (wait : Nat) (ok : Bool) (w : Nat) : State := { State.reset with mem := bytesAt (localKey 0x1000030000) 8 w, quads := [(0, { Quad.reset with tiles := [tileRec wait ok] })] }
theorem witness_TileResults : ((tiling 0 false 0).quad 0).tiles = [tileRec 0 false] ∧ (tileRec 0 false).depOk = false ∧ tWaitVal (tileRec 0 false).cmd = 0 ∧ tWaitVal (tileRec 2 false).cmd = 2 ∧
    (∀ w ∈ [2, 1, 2 ^ 32], (match (tiling 2 false w).engineRead (tileRec 2 false).org false (tWaitAddr (tileRec 2 false).cmd) with | .ok r _ => decide (nbytes r.toNat 0 8 = w) | _ => false) = true) ∧
    (tiling 2 false 0).ctxs = [] ∧ (tileRec 0 true).depOk = true ∧ ((tiling 0 true 0).quad 0).lastStart = none ∧
    chooseArray ((tiling 0 true 0).quad 0).arrays.toList (tileRec 0 true) = some 0 := by decide +kernel
/-- The task runs on array 1. -/
def streaming : State := { State.reset with quads := [(0, { Quad.reset with arrays := (Vector.replicate 4 MatArray.reset).set 1 { MatArray.reset with task := some (tileRec 0 true), acc := [List.replicate 128 0] } })] }
theorem witness_TileResults_run : let t := tileRec 0 true; ((streaming.quad 0).arrays[(1 : Fin 4)]).task = some t ∧ t.kb = 0 ∧ t.prev = none ∧ t.cur = none ∧ ((streaming.quad 0).arrays[(1 : Fin 4)]).acc = [List.replicate 128 0] ∧
    streaming.commander t.org = none ∧ t.org.quad = 0 ∧ streaming.ctxs = [] ∧ t.fmtA = 0 ∧ t.fmtW = 0 ∧ t.fmtC = 0 ∧ tf t.cmd 0 1 = 0 ∧ tf t.cmd 1 1 = 0 ∧ tf t.cmd 8 4 = 0 ∧ tBlocks t.cmd = 1 ∧
    tRows t.cmd = 1 ∧ (∀ k < 128, streaming.spotLocal 0 0 (rowOf ((shardAddrs t 0).getD k 0)) = .mem (localKey (0x1000000000 + 256 * k))) ∧ streaming.mem.poison = [] ∧
    streaming.spotLocal 0 0 (rowOf (descAddr (BitVec.ofNat 64 (tf t.cmd 12 8)) (BitVec.ofNat 64 (tf t.cmd 20 8)) 0 0)) = .mem (localKey 0x1000000000) ∧
    streaming.spotLocal 0 0 (tf t.cmd 36 4 * 256) = .mem (localKey 0x1000010000) ∧ streaming.reach 0 0 (tDoneAddr t.cmd) = .ok 0x1000020000 ∧ localKey 0x1000020000 ≠ localKey 0x1000010000 := by decide +kernel
theorem witness_TileResults_sets : ∀ a, streaming.inOwnSet (tileRec 0 true).org false a = false := by
  intro a; simp [State.inOwnSet, streaming, State.reset]
/-- A routing-counter addition of ones, and a snapshot. -/
def routing (op : Nat × Option VReg) : State := { State.reset with quads := [(0, { Quad.reset with rcOps := [op] })] }
theorem witness_TileResults_counters : ((routing (0, some 1)).quad 0).rcOps = (0, some 1) :: [] ∧ ((routing (4, none)).quad 0).rcOps = (4, none) :: [] := by decide +kernel

/-! ### Witnesses: moves, retention, waits and locks -/

/-- Quad 1 moves to partition 2, its zeroing ending at `z`, in cycle `cycle`. -/
def leaving (z : Option Nat) (cycle : Nat) : State := { State.reset with mmio := [(⟨.quadpart, 1⟩, 0x210)], quads := [(1, { Quad.reset with moveAt := some 0, zeroEnd := z })], quarters := 4 * cycle }
/-- A context of quad 1 runs. -/
def lingering : State := { leaving none 2250000 with ctxs := [(32, task)] }
theorem witness_MoveAndRetentionResults : (leaving none 0).quadMoving 1 = true ∧ ((leaving none 0).quad 1).zeroEnd = none ∧ (leaving none 0).ctxs = [] ∧ (leaving none 0).journals = [] ∧ ((leaving none 0).quad 1).rcOps = [] ∧
    ((leaving (some 1024) 1023).quad 1).zeroEnd = some 1024 ∧ (leaving (some 1024) 1023).now < 1024 ∧ 1024 ≤ (leaving (some 1024) 1024).now ∧ ((leaving (some 1024) 1024).quad 1).nextMove = none ∧
    (lingering.quad 1).moveAt = some 0 ∧ lingering.quadMoving 1 = true ∧ lingering.fld .presize (lingering.quadPart 1) 31 0 ≠ 0 ∧ 0 + lingering.fld .presize (lingering.quadPart 1) 31 0 ≤ lingering.now ∧
    quadOf 32 = 1 ∧ (lingering.ctx 32).logical = 0xFF ∧ (lingering.ctx 32).life = .running ∧ (lingering.ctx 32).stopReq = false := by decide +kernel
/-- Retention is asked for quad 0 and for slice 0, which stand so in this cycle. -/
def resting (r : Retain) (asked : Word) (cycle : Nat) : State := { State.reset with
  mmio := [(⟨.retq, 0⟩, asked), (⟨.retb, 0⟩, asked)], quads := [(0, { Quad.reset with retain := r })], dies := [(0, { Die.reset with retain := r, segZero := [(5, 128)] })], quarters := 4 * cycle }
theorem witness_MoveAndRetentionResults_arrays : tget ((resting .active 0 128).die 0).segZero 5 = some 128 ∧ 128 ≤ (resting .active 0 128).now ∧ (resting .active 0 128).heldWrites = [] ∧
    (∀ arr ∈ [ArrayId.scratch 0, .bigTop 0], (resting .active 1 4096).retain arr = .active ∧ (resting .active 1 4096).retains arr = true ∧ 4096 ≤ (resting .active 1 4096).now - tgetD (resting .active 1 4096).touched arr 0 ∧
      tgetD (resting .active 1 4096).touched arr 0 ≤ (resting .active 1 4096).now ∧ ¬ (tgetD (resting .active 1 4095).touched arr 0 + 4096 ≤ (resting .active 1 4095).now) ∧ (resting .active 0 4096).retains arr = false ∧
      (resting (.entering 9) 1 9).retain arr = .entering 9 ∧ 9 ≤ (resting (.entering 9) 1 9).now ∧ (resting (.exiting 9) 0 9).retain arr = .exiting 9 ∧ 9 ≤ (resting (.exiting 9) 0 9).now ∧
      (resting .retained 0 0).retain arr = .retained ∧ (resting .retained 0 0).retains arr = false) ∧ (resting (.exiting 9) 0 9).ctxs = [] := by decide +kernel

/-- A task that sleeps on the word at 0x1000000100 until it is 7, in its place or written out; the word holds `w`. -/
def sleeping (record : Option ContRec) (w : Nat) : State := { State.reset with
  mem := bytesAt (localKey 0x1000000100) 8 w, ctxs := [(0, { task with wait := .word none (localKey 0x1000000100) 7 0, logical := 0 })]
  quads := [(0, { Quad.reset with monitor := [⟨4, localKey 0x1000000100, 7, 0, if record.isSome then none else some 0, record, 0, 0, 0, 0⟩] })] }
theorem witness_WaitAndLockResults : (∀ r ∈ [none, some (⟨0, 0, 0, 0, 0, 0, []⟩ : ContRec)], ∀ w ∈ [6, 7],
      (((sleeping r w).quad 0).monitor.find? (fun y => decide (y.id = 4))).isSome = true ∧ waitTest ((sleeping r w).mem.word (localKey 0x1000000100)) 7 0 = decide (w = 7)) ∧
    (sleeping none 7).mem.poisoned (localKey 0x1000000100) = false ∧ ((sleeping none 7).ctx 0).logical ≠ 0xFF ∧ (⟨0, 0, 0, 0, 0, 0, []⟩ : ContRec).cflags.getLsbD 0 = false ∧
    (sleeping none 7).reach 0 0 (localKey 0x1000000100 - 2 ^ 52) = .ok 0x1000000100 := by decide +kernel
/-- A task polls the word, next in cycle 8. -/
def polling (w cycle : Nat) : State := { State.reset with mem := bytesAt (localKey 0x1000000100) 8 w, ctxs := [(0, { task with wait := .word (some 8) (localKey 0x1000000100) 7 0 })], quarters := 4 * cycle }
theorem witness_WaitAndLockResults_poll : ((polling 7 7).ctx 0).wait = .word (some 8) (localKey 0x1000000100) 7 0 ∧ (polling 7 7).mem.poisoned (localKey 0x1000000100) = false ∧ (polling 7 7).now < 8 ∧
    8 ≤ (polling 7 8).now ∧ (polling 7 8).reach 0 0 (localKey 0x1000000100 - 2 ^ 52) = .ok 0x1000000100 ∧ waitTest ((polling 7 8).mem.word (localKey 0x1000000100)) 7 0 = true ∧ waitTest ((polling 6 8).mem.word (localKey 0x1000000100)) 7 0 = false := by decide +kernel
/-- Both members of a team, or its first alone, wait at barrier 3 of their die. -/
def barred (l : List (Nat × Nat × Nat × Nat)) : State := { pair with barriers := l }
theorem witness_WaitAndLockResults_barrier : let two := [(3, 3, 0, 0), (3, 3, 0, 8)]
    (barred two).barriers.find? (fun b => decide (b.2.2.2 = 0)) = some (3, 3, 0, 0) ∧ ((barred two).teamKeys 0).filter (fun k => sameInstance 3 0 k) = [0, 8] ∧ (∀ k ∈ [0, 8], (3, 3, 0, k) ∈ two) ∧
    (barred [(3, 3, 0, 0)]).barriers.find? (fun b => decide (b.2.2.2 = 0)) = some (3, 3, 0, 0) ∧ (3, 3, 0, 8) ∉ [(3, 3, 0, 0)] := by decide +kernel

/-- A granule of 256 bytes of partition 0, and a request for it. -/
def gran0 : Granule := ⟨true, 0, 0, 256⟩
def wants0 (t : Word) : LockReq := ⟨gran0, t, 0, none, 0, 0⟩
/-- Slice 0 has a request of this ticket; the granule is held when `held` names a ticket. -/
def booth (t : Word) (held : Option Word) : State := { State.reset with dies := [(0, { Die.reset with requests := [wants0 t], booth := (held.map fun h => LockEntry.mk gran0 h 0 []).toList })] }
theorem witness_WaitAndLockResults_request : ((booth 5 none).die 0).requests = [wants0 5] ∧ (((booth 5 none).die 0).booth.find? fun e => decide (e.gran = gran0)) = none ∧ ((booth 5 none).die 0).booth = [] ∧
    ((booth 4 (some 5)).die 0).booth.find? (fun e => decide (e.gran = gran0)) = some ⟨gran0, 5, 0, []⟩ ∧ (5 : Word) ≠ 4 ∧ (5 : Word) ∉ (booth 4 (some 5)).wounds ∧
    ((booth 6 (some 5)).die 0).booth.find? (fun e => decide (e.gran = gran0)) = some ⟨gran0, 5, 0, []⟩ ∧ (5 : Word) ≠ 6 ∧
    (4 : Word).toNat < (5 : Word).toNat ∧ (5 : Word).toNat < (6 : Word).toNat := by decide +kernel
/-- A task of ticket 5 runs; it holds `l`, from a retained continuation, and has been wounded when `w`. -/
def locking (l : List Granule) (w : Bool) : State := { State.reset with
  ctxs := [(0, { task with ticket := 5, retained := some ⟨5, 64, 0, 0, 0, 0, []⟩ })], jobs := [(0, theJob)]
  journals := [(5, ⟨0, 0, 1, true, [], [], l, if l = [] then none else some ⟨5, 64, 0, 0, 0, 0, []⟩, false⟩)], wounds := if w then [5] else []
  dies := [(0, { Die.reset with grants := [wants0 5], booth := [⟨gran0, 5, 0, []⟩] })] }
/-- The same grant, which no longer stands: the granule has gone to the task of ticket 6. -/
def outdated : State := { locking [] false with dies := [(0, { Die.reset with grants := [wants0 5], booth := [⟨gran0, 6, 0, []⟩] })] }
theorem witness_WaitAndLockResults_grant : (∀ l ∈ [[], [⟨true, 0, 256, 256⟩]], ((locking l false).die 0).grants = [wants0 5] ∧ ((locking l false).asker (wants0 5)).isSome = true ∧ ((locking l false).die 0).stands (wants0 5) = true ∧
      ((locking l false).journal? 5).isSome = true) ∧ (locking [] false).colls = [] ∧ ((locking [] false).ctx 0).ticket = 5 ∧ tget (locking [] false).ctxs 0 ≠ none ∧
    (5 : Word) ∈ (locking [gran0] true).wounds ∧ (locking [gran0] true).runnerOf 5 = some 0 ∧ ((locking [gran0] true).ctx 0).life = .running ∧
    (((locking [gran0] true).journal? 5).bind fun j => j.retained).isSome = true ∧ (5 : Word) ∉ (locking [gran0] false).wounds ∧
    (outdated.die 0).grants = [wants0 5] ∧ (outdated.die 0).stands (wants0 5) = false ∧
    ((locking [gran0] true).journal? 5).map (·.ended) = some false ∧ (∀ d < 4, ∀ e ∈ ((locking [gran0] true).die d).booth, ∀ w ∈ e.waiters, w.ticket ≠ 5) := by decide +kernel
/-- The task has waited 4,096 cycles for a granule; its partition has a save area. -/
def overdueLock : State := { locking [] false with
  ctxs := [(0, { (locking [] false).ctx 0 with begun := true })], quarters := 4 * 4096, dies := [(0, { Die.reset with requests := [⟨gran0, 5, 0, some 0, 0, 0⟩] })], mmio := [(⟨.psave, 0⟩, 0x1000 * 2 ^ 40 + 0x1000001000)] }
theorem witness_WaitAndLockResults_expiry : overdueLock.lockWait 0 = some ⟨gran0, 5, 0, some 0, 0, 0⟩ ∧ (overdueLock.ctx 0).life = .running ∧ (overdueLock.ctx 0).logical = 0xFF ∧ overdueLock.fld .lkcfg 0 31 0 ≠ 0 ∧
    0 + overdueLock.fld .lkcfg 0 31 0 ≤ overdueLock.now ∧ (overdueLock.journal? 5).isSome = true ∧ overdueLock.watchdogDue 0 = false ∧
    (match ((overdueLock.count .lkstat 0 63 32 1).modCtx 0 fun y => { y with wait := .lock gran0 }).saveCtx 0 false [] with | .done _ => true | _ => false) = true := by decide +kernel

/-! ### Witnesses: queues, channels, gatherer and spokes -/

/-- Base-die queue 3 with these entries and pops. -/
def popping (es : List (BitVec 512 × Option Nat)) (pops : List (Nat × List Nat × Option VReg)) : State := { State.reset with bdq := [(3, ⟨es, [], pops, none⟩)], mmio := [(⟨.bdqcfg, 3⟩, 0x0000000100010002)] }
theorem witness_QueueChannelAndGatherResults : ((popping [(1, none), (2, none)] [(0, [5], none)]).bdQueue 3).entries = (1, none) :: [(2, none)] ∧
    ((popping [(1, none), (2, none)] [(0, [5], none)]).bdQueue 3).pops = [(0, [5], none)] ∧ ((popping [] [(0, [5], none)]).bdQueue 3).entries = [] ∧
    ((popping [] [(0, [5, 6], some 0)]).bdQueue 3).pops = [(0, [5, 6], some 0)] ∧ ((popping [(1, none)] [(0, [5, 6], some 0)]).bdQueue 3).entries = (1, none) :: [] ∧
    ((popping [(1, none)] [(0, [5, 6], some 0)]).bdQueue 3).pops = [(0, [5, 6], some 0)] ∧ ((popping [] []).bdQueue 3).pushes = [] ∧ (5 : Nat) ≠ 6 ∧ (popping [] []).ctxs = [] := by decide +kernel
/-- Channel 2 of core 0: an element that arrives in cycle 9, and a credit on its way. -/
def flying (recvs : List Recv) (cycle : Nat) : State := { State.reset with cores := [(0, { Core.reset with chans := [(2, { chan 3 1 7 4 1 with flying := [⟨77, 9, 4, none⟩], recvs := recvs, taken := 1, returning := [9] })] })], quarters := 4 * cycle }
/-- The same, the context of receive 5 saved. -/
def flyingSaved : State := { flying [⟨5, none, 0⟩] 9 with saved := [⟨[], { task with inflight := [⟨5, .v 2, none, none, 9, true⟩] }, 0, true, none, [], [], false, []⟩] }
theorem witness_QueueChannelAndGatherResults_receive : (∀ r ∈ [⟨5, none, 0⟩, ⟨5, some 0, 0⟩], (flying [r] 9).recvSaved r = false) ∧ flyingSaved.recvSaved ⟨5, none, 0⟩ = true ∧ flyingSaved.ctxs = [] ∧
    (flyingSaved.chan 0 2).flying = ⟨77, 9, 4, none⟩ :: [] ∧ (flyingSaved.chan 0 2).elems = [] ∧ (flyingSaved.chan 0 2).recvs = ⟨5, none, 0⟩ :: [] ∧ 9 ≤ flyingSaved.now ∧
    (FmtEntry.ofBits (chField ((flying [] 9).chan 0 2).entry 10 2)).fmt = some .bf16 := by decide +kernel
theorem witness_QueueChannelAndGatherResults_channel : (∀ r ∈ [[], [⟨5, none, 0⟩], [⟨5, some 0, 0⟩]], ((flying r 9).chan 0 2).flying = ⟨77, 9, 4, none⟩ :: [] ∧ ((flying r 9).chan 0 2).elems = [] ∧ ((flying r 9).chan 0 2).recvs = r) ∧
    (flying [] 8).now < 9 ∧ 9 ≤ (flying [] 9).now ∧ ((flying [] 9).chan 0 2).returning = 9 :: [] ∧ (flying [] 9).ctxs = [] := by decide +kernel
/-- Channel 0 of the gatherer: batches of `limit` with a slack of 5 ticks, stages of two rows at 0x20A000, its ring in the page at 0x200000 with one entry of `rows` rows for stage 1. -/
def gatherBits (limit : Nat) : Nat := 256 ^ 10 + limit * 256 ^ 12 + 2 * 256 ^ 14 + 5 * 256 ^ 16 + 2 * 256 ^ 20 + 3 * 256 ^ 22 + 0x200000 * 256 ^ 24 + 16 * 256 ^ 32 + 0x20A000 * 256 ^ 40 + 2 * 256 ^ 56
def gathering (limit : Nat) (stages : List (Nat × Stage)) (batches : List Batch) : State := { State.reset with
  pages := [⟨0, 0x200000, 0x200000, false, 7, false⟩], mem := bytesAt 0x200000 64 (256 ^ 8 + 2 * 256 ^ 10 + 100 * 256 ^ 16), mmio := [(⟨.gdb, 0⟩, 1), (⟨.bdqcfg, 3⟩, 0x0000000100010002)]
  gather := [(0, ⟨BitVec.ofNat 512 (gatherBits limit), stages, 0, batches⟩)] }
def stage0 (bitmap : BitVec 1024) (deadline : Nat) (complete : Option Nat) : Stage := ⟨7, 2, deadline, 0, bitmap, complete, false⟩
theorem witness_QueueChannelAndGatherResults_row : gOn ((gathering 1 [(0, stage0 1 100 none)] []).gatherChan 0).cfg = true ∧ tget ((gathering 1 [(0, stage0 1 100 none)] []).gatherChan 0).stages 0 = some (stage0 1 100 none) ∧
    0 < gField (BitVec.ofNat 512 (gatherBits 1)) 20 2 ∧ (1 : BitVec 1024).getLsbD 0 = true ∧ (1 : BitVec 1024).getLsbD 1 = false ∧
    (gathering 1 [(0, stage0 1 100 none)] []).spotVa 0 (gField (BitVec.ofNat 512 (gatherBits 1)) 40 8 + (0 * gField (BitVec.ofNat 512 (gatherBits 1)) 14 2 + 1) * 256) 2 = .mem 0x20A100 := by decide +kernel
theorem witness_QueueChannelAndGatherResults_entry : let s := gathering 1 [] []; let e := nbytes (s.mem.row 0x200000).toNat (0x200000 % 256) 64
    s.fld .gstat 0 31 0 ≠ s.fld .gdb 0 31 0 ∧ s.spotVa 0 (rowOf 0x200000) 1 = .mem 0x200000 ∧ s.mem.poisoned 0x200000 = false ∧ s.waitsLink (.gatherEntry 0) = false ∧ nbytes e 8 2 = 1 ∧ nbytes e 10 2 = 2 ∧
    nbytes e 12 4 = 0 ∧ nbytes e 32 32 = 0 ∧ tget (s.gatherChan 0).stages 1 = none := by decide +kernel
theorem witness_QueueChannelAndGatherResults_tick : ((gathering 1 [(0, stage0 3 100 (some 0))] []).gatherChan 0).ready.length = 1 ∧ ((gathering 2 [(0, stage0 3 100 (some 0))] []).gatherChan 0).ready.length < 2 ∧
    ((gathering 2 [(0, stage0 3 5 (some 0))] []).gatherChan 0).ready = [(0, stage0 3 5 (some 0))] ∧ (5 : Nat) ≤ (gathering 2 [] []).tbase.toNat + 5 ∧ ¬ (100 : Nat) ≤ (gathering 2 [] []).tbase.toNat + 5 := by decide +kernel
theorem witness_QueueChannelAndGatherResults_batch : let b : Batch := ⟨BitVec.ofNat 512 (gatherBits 1), 0, 0, [], 0, true⟩; let s := gathering 1 [] [b]
    (s.gatherChan 0).batches = b :: [] ∧ b.listDone = true ∧ gField b.cfg 22 2 % 1024 = 3 ∧ s.mayPush 3 (gPart b.cfg) = true ∧ (s.bdQueue 3).entries.length < s.bdqDepth 3 ∧ (s.bdQueue 3).pushes = [] ∧
    (s.bdQueue 3).pops = [] ∧
    (let f := { s with bdq := [(3, ⟨[(1, none), (2, none)], [], [], none⟩)] }; (f.bdQueue 3).entries ≠ [] ∧ f.bdqDepth 3 ≤ (f.bdQueue 3).entries.length ∧ (f.bdQueue 3).pops = [] ∧ PushWait.batch 0 ∉ (f.bdQueue 3).pushes) ∧ s.owed 0 0 < 8 ∧ ({ s with refresh := [(0, 0, 8)] } : State).owed 0 0 = 8 := by decide +kernel

/-- A spoke at its step 1, which is `c`, holding its row and the next. -/
def onStep (c : Nat) (hops : List HopRec) (loops : List (Nat × Nat)) (groups : List GroupMem) : Spoke :=
  ⟨0, ⟨0, 0, 0, 0, 0, 0, false⟩, 0x1000000000, false, 1, 0, #v[0, 8, 4, 2, 2], loops, hops, 5, Vector.replicate 5 0, Vector.replicate 5 0,
    [(0x1000000000, BitVec.ofNat 2048 (c * 256 ^ 32), 0), (0x1000000100, 0, 0)], groups, 0, 0⟩
/-- Spoke 0 of engine 0 stands there; slots of one small page exist when `slots`. -/
def stepping (x : Spoke) : State := { State.reset with wheels := [(0, ⟨[], [], [(0, x)], 0, []⟩)], residency := [(0, 0, 0)] }
def stepped (x : Spoke) : State := ((stepping x).setSpoke 0 0 x.keepRows).readAhead 0 0 x.keepRows
theorem atStep (x : Spoke) (c : Nat) (h : (stepping x).spoke? 0 0 = some x ∧ (stepping x).spokeParked 0 0 x.nextHop = false ∧
    (tget x.rows (rowOf x.at)).isSome = true ∧ ((tget x.rows (rowOf x.at)).getD (0, 0)).2 ≤ (stepping x).now ∧
    BitVec.ofNat 256 c = BitVec.ofNat 256 (nbytes (((tget x.rows (rowOf x.at)).getD (0, 0)).1).toNat (x.at % 256) 32) ∧ badStep (BitVec.ofNat 256 c) x.index = false ∧
    (stepped x).spoke? 0 0 = some x.keepRows) : AtStep (stepping x) (stepped x) 0 0 x.keepRows (BitVec.ofNat 256 c) := by
  obtain ⟨h1, h2, h3, h4, h5, h6, h7⟩ := h
  obtain ⟨r, hr⟩ := Option.isSome_iff_exists.mp h3
  exact ⟨x, r.1, r.2, h1, h2, hr, by simpa [hr] using h4, by simpa [hr] using h5, h6, rfl, h7⟩
/-- A HOP of one row from tier `a` to tier `b`, with these FLAGS. -/
def hopBits (a b flags : Nat) : Nat := 1 + a * 256 + b * 256 ^ 2 + flags * 256 ^ 3 + 256 * 256 ^ 4 + 0x200000 * 256 ^ 8 + 0x1000000200 * 256 ^ 16
/-- A hop of that step that has been issued. -/
def issued (a b : Nat) (moved : Bool) : HopRec := ⟨4, BitVec.ofNat 256 (hopBits a b 0), 0x1000000000, 0, true, 0, none, none, none, [], [], 0, false, moved, moved, false, 0⟩
/-- A stream group of two for tier 4, led by this module: joined or not, aborted or not, member 1 having told `rel` releases. -/
def membership (joined aborted : Bool) (rel hops : Nat) : GroupMem := ⟨9, 2, 4, 0, joined, hops, [(1, rel)], aborted, 0⟩
theorem witness_ItineraryStepResults : (∀ f ∈ [0, 8], AtStep (stepping (onStep (hopBits 3 2 f) [] [] [])) (stepped (onStep (hopBits 3 2 f) [] [] [])) 0 0 (onStep (hopBits 3 2 f) [] [] []).keepRows (BitVec.ofNat 256 (hopBits 3 2 f))) ∧
    stCode (BitVec.ofNat 256 (hopBits 3 2 8)) = 1 ∧ slotOf (BitVec.ofNat 256 (hopBits 3 2 0)) false = none ∧ (slotOf (BitVec.ofNat 256 (hopBits 3 2 8)) false).isSome = true ∧
    (stepped (onStep (hopBits 3 2 8) [] [] [])).slotFits 0 0 (BitVec.ofNat 256 (hopBits 3 2 8)) = false ∧ (onStep (hopBits 3 2 0) [] [] []).keepRows.held 2 < 4 := by
  refine ⟨?_, by decide +kernel⟩
  intro f h
  simp only [List.mem_cons, List.not_mem_nil, or_false] at h
  obtain rfl | rfl := h <;> exact atStep _ _ (by decide +kernel)
theorem witness_ItineraryStepResults_window : AtStep (stepping (onStep (hopBits 0 4 0) [issued 0 4 false, issued 0 4 true] [] [])) (stepped (onStep (hopBits 0 4 0) [issued 0 4 false, issued 0 4 true] [] [])) 0 0
      (onStep (hopBits 0 4 0) [issued 0 4 false, issued 0 4 true] [] []).keepRows (BitVec.ofNat 256 (hopBits 0 4 0)) ∧
    2 ≤ (onStep (hopBits 0 4 0) [issued 0 4 false, issued 0 4 true] [] []).keepRows.held 4 ∧ stFrom (BitVec.ofNat 256 (hopBits 0 4 0)) = 0 := ⟨atStep _ _ (by decide +kernel), by decide +kernel⟩
theorem witness_ItineraryStepResults_group : (∀ g ∈ [membership true true 0 0, membership true false 0 2, membership true false 0 1],
      AtStep (stepping (onStep (hopBits 0 4 0) [] [] [g])) (stepped (onStep (hopBits 0 4 0) [] [] [g])) 0 0 (onStep (hopBits 0 4 0) [] [] [g]).keepRows (BitVec.ofNat 256 (hopBits 0 4 0)) ∧
      (onStep (hopBits 0 4 0) [] [] [g]).keepRows.groupOf 4 = some g ∧ g.me = 0) ∧ (membership true true 0 0).aborted = true ∧ (membership true false 0 2).aborted = false ∧
    2 + 0 ≤ (membership true false 0 2).hops ∧ (∀ r ∈ (membership true false 0 1).rel, (membership true false 0 1).hops < 2 + r.2) := by
  refine ⟨?_, by decide +kernel⟩
  intro g h
  simp only [List.mem_cons, List.not_mem_nil, or_false] at h
  obtain rfl | rfl | rfl := h <;> exact ⟨atStep _ _ (by decide +kernel), by decide +kernel⟩
/-- A step of another code. -/
def stepBits (code into dst arg : Nat) : Nat := code + into * 256 ^ 2 + dst * 256 ^ 16 + arg * 256 ^ 28
/-- A step stands, with these hops. -/
abbrev Stands (c : Nat) (hops : List HopRec) (loops : List (Nat × Nat)) (groups : List GroupMem) : Prop :=
  AtStep (stepping (onStep c hops loops groups)) (stepped (onStep c hops loops groups)) 0 0 (onStep c hops loops groups).keepRows (BitVec.ofNat 256 c)
theorem witness_ItineraryStepResults_waits : Stands (stepBits 2 4 0 0) [] [] [] ∧ Stands (stepBits 2 4 0 0) [issued 0 4 false] [] [] ∧ (onStep 0 [] [] []).held 4 ≤ 0 ∧ 0 < (onStep 0 [issued 0 4 false] [] []).held 4 ∧
    Stands (stepBits 3 0 0 7) [] [] [] ∧ Stands (stepBits 3 0 0 7) [issued 0 4 false] [] [] ∧ (onStep (stepBits 3 0 0 7) [] [] []).busy 7 = false ∧ (onStep (stepBits 3 0 0 7) [issued 0 4 false] [] []).busy 7 = true ∧
    Stands (stepBits 4 4 0 (2 ^ 16)) [] [] [] ∧ Stands (stepBits 4 4 0 (2 ^ 16)) [] [] [membership false false 0 0] ∧ (onStep 0 [] [] []).joining = none ∧ (onStep 0 [] [] [membership false false 0 0]).joining ≠ none :=
  ⟨atStep _ _ (by decide +kernel), atStep _ _ (by decide +kernel), by decide +kernel, by decide +kernel, atStep _ _ (by decide +kernel), atStep _ _ (by decide +kernel), by decide +kernel, by decide +kernel,
   atStep _ _ (by decide +kernel), atStep _ _ (by decide +kernel), by decide +kernel, by decide +kernel⟩
/-- A loop of the itinerary back to step 0, of `n` repetitions. -/
def loopBits (n : Nat) : Nat := 6 + n * 256 ^ 28
theorem witness_ItineraryStepResults_slots : Stands (stepBits 5 0 0 0) [] [] [] ∧ (stepped (onStep (stepBits 5 0 0 0) [] [] [])).slotOwner 0 0 = some 0 ∧ Stands (stepBits 5 0 1 0) [] [] [] ∧
    (stepped (onStep (stepBits 5 0 1 0) [] [] [])).slotOwner 0 1 ≠ some 0 ∧ Stands (loopBits 1) [] [] [] ∧ (tget (onStep (loopBits 1) [] [] []).loops 1).getD (1 - 1) = 0 ∧
    Stands (loopBits 3) [] [] [] ∧ Stands (loopBits 3) [] [(1, 2)] [] ∧ (tget [(1, 2)] 1).getD (3 - 1) ≠ 0 ∧ Stands (loopBits 3) [] [(2, 1), (3, 1), (4, 1), (5, 1)] [] ∧
    tget [(2, 1), (3, 1), (4, 1), (5, 1)] 1 = none :=
  ⟨atStep _ _ (by decide +kernel), by decide +kernel, atStep _ _ (by decide +kernel), by decide +kernel, atStep _ _ (by decide +kernel), by decide +kernel,
   atStep _ _ (by decide +kernel), atStep _ _ (by decide +kernel), by decide +kernel, atStep _ _ (by decide +kernel), by decide +kernel⟩
theorem witness_ItineraryStepResults_mark : Stands (stepBits 7 0 0x1000000800 1) [] [] [] ∧ Stands (stepBits 7 0 0x1000000800 1) [issued 0 4 false] [] [] ∧
    (onStep (stepBits 7 0 0x1000000800 1) [issued 0 4 false] [] []).keepRows.busy 7 = true ∧ (onStep (stepBits 7 0 0x1000000800 1) [] [] []).keepRows.busy 7 = false ∧
    (let u := stepped (onStep (stepBits 7 0 0x1000000800 1) [] [] []); let o := (onStep 0 [] [] []).org;
     u.inOwnSet o false 0x1000000800 = false ∧ wordAddr 0x1000000800 = (false, 0x1000000800) ∧ u.spot o false 0x1000000800 2 = .mem (localKey 0x1000000800) ∧ u.mem.poisoned (localKey 0x1000000800) = false ∧
      u.spotLocal 0 0 0x1000000800 = .mem (localKey 0x1000000800) ∧ localKey 0x1000000800 % 8 = 0 ∧ u.hostPuts = []) ∧
    Stands (stepBits 8 0 0 0) [] [] [] ∧ Stands (stepBits 8 0 0x1000000800 0) [] [] [] ∧ Stands (stepBits 9 4 0 3) [] [] [] :=
  ⟨atStep _ _ (by decide +kernel), atStep _ _ (by decide +kernel), by decide +kernel, by decide +kernel, by decide +kernel, atStep _ _ (by decide +kernel), atStep _ _ (by decide +kernel), atStep _ _ (by decide +kernel)⟩
/-- The same where the word of the MARK lies in a set of the spoke's task, which runs. -/
def fencedOff : State := { stepped (onStep (stepBits 7 0 0x1000000800 1) [] [] []) with ctxs := [(0, { task with sets := [⟨0, false, 0x1000000000, 0x1000001000, 256⟩] })] }
theorem witness_ItineraryStepResults_set : fencedOff.inOwnSet (onStep 0 [] [] []).org false 0x1000000800 = true := by decide +kernel

/-! ### Witnesses: spokes, hops and collectives -/

/-- Engine 0 has a start request, or a release of tier `t` for spoke 0, of partition 0. -/
def asksWheel (start : Bool) (t : Nat) (spokes : List (Nat × Spoke)) : State := { State.reset with
  wheels := [(0, ⟨if start then [⟨3, ⟨0, 0, 0, 0, 0, 0, false⟩, 0x1000000000⟩] else [], if start then [] else [⟨3, ⟨0, 0, 0, 0, 0, 0, false⟩, BitVec.ofNat 64 (16 * t)⟩], spokes, 0, []⟩)] }
theorem witness_SpokeAndHopResults : (asksWheel true 0 []).ctxs = [] ∧ ((asksWheel true 0 []).wheel 0).starts ≠ [] ∧ nbits (0x1000000000 : Word).toNat 59 56 = 0 ∧ (asksWheel true 0 []).spokePart 0 0 = 0 ∧
    (asksWheel true 0 []).spoke? 0 0 = none ∧
    (∀ t ∈ [1, 4], (let x := onStep 0 [issued 0 t false] [] []; let s := asksWheel false t [(0, x)];
      (s.wheel 0).rels ≠ [] ∧ s.spoke? 0 0 = some x ∧ (x.hops.map fun h => h.n).Nodup ∧ nbits (BitVec.ofNat 64 (16 * t)).toNat 3 0 = 0 ∧ nbits (BitVec.ofNat 64 (16 * t)).toNat 6 4 = t ∧
      x.hops.find? (fun h => !h.released && h.chained.isNone && decide (stTo h.step = t)) = some (issued 0 t false))) := by decide +kernel
/-- A spoke with a group that it has joined or asks to join. -/
def grouped (joined : Bool) : Spoke := onStep 0 [] [] [membership joined false 0 0]
theorem witness_SpokeAndHopResults_group : (∀ j ∈ [false, true], (asksWheel true 0 [(0, grouped j)]).spoke? 0 0 = some (grouped j)) ∧ (∃ g ∈ (grouped true).groups, g.joined = true ∧ g.me = 0 ∧ g.id = (64 * 9 + 1) / 64 ∧ (64 * 9 + 1) % 64 ≠ 0) ∧
    (grouped false).joining = some (membership false false 0 0) ∧ (∀ j ∈ [((1, 2, 4, 2) : Nat × Nat × Nat × Nat)], j.2.1 ≠ 0 ∧ j.2 = (2, 4, (grouped false).windows.toList.getD 4 0)) ∧
    (∀ m < 2, m = 0 ∨ ∃ j ∈ [((1, 2, 4, 2) : Nat × Nat × Nat × Nat)], j.1 = m) ∧ (1, 2, 4, 3).2 ≠ (2, 4, (grouped false).windows.toList.getD 4 0) ∧ (grouped true).joining = none ∧
    (∃ j ∈ [((1, 0, 4, 0) : Nat × Nat × Nat × Nat)], j.2.1 = 0 ∧ j.2.2.1 = 4) := by decide +kernel
/-- A fill and an eviction of slot 5 that came in cycle 3, seen in this cycle. -/
def slots (v f : Bool) (cycle : Nat) : State := { asksWheel true 0 [(0, onStep 0 [] [] [])] with
  evictions := if v then [⟨0, 5, 7, 0, 3⟩] else [], fills := if f then [⟨0, 5, 0, 4, 3⟩] else [], residency := if v then [(0, 5, 7)] else [], quarters := 4 * cycle }
theorem witness_SpokeAndHopResults_slots : (∀ z ∈ (slots true true 15).evictions ++ (slots true true 15).fills, (slots true true 15).now / 16 ≤ z.since / 16) ∧ 3 / 16 < (slots true true 16).now / 16 ∧
    (slots false true 16).evictions = [] ∧ (slots false true 16).fills = [⟨0, 5, 0, 4, 3⟩] ∧ (slots false true 16).slotOwner 0 5 = none ∧ ((slots false true 16).spoke? 0 0).isSome = true ∧
    (slots true false 16).evictions = [⟨0, 5, 7, 0, 3⟩] ∧ (slots true false 16).fills = [] ∧ (slots true true 16).evictions = [⟨0, 5, 7, 0, 3⟩] ∧ (slots true true 16).fills = [⟨0, 5, 0, 4, 3⟩] := by decide +kernel
/-- A hop of one row from HBM at 0x200000 to a scratchpad. -/
def hopping : State := { asksWheel true 0 [(0, onStep 0 [issued 2 4 false] [] [])] with pages := [⟨0, 0x200000, 0x200000, false, 7, false⟩] }
theorem witness_SpokeAndHopResults_hop : let x := onStep 0 [issued 2 4 false] [] []; let h := issued 2 4 false
    hopping.spoke? 0 0 = some x ∧ x.hops.find? (fun y => decide (y.n = h.n) && !y.finished) = some h ∧ h.consumes = none ∧ h.slotReady = true ∧ h.moved = false ∧ h.got = [] ∧ h.arrived = [] ∧ h.put = 0 ∧ hopping.readHeld 0 0 x h.n = false ∧ x.follows h = false ∧ x.groupFailed h = false ∧
    hopping.hopBehind x h = false ∧ hopping.spokeParked 0 0 h.n = false ∧ stRows h.step = 1 ∧ stFlag h.step 0 = false ∧ stFlag h.step 1 = false ∧ stFlag h.step 3 = false ∧ stArg h.step = 0 ∧
    hopping.commander x.org = none ∧ hopping.hopSpot x.org 2 0x200000 1 = .mem 0x200000 ∧ hopping.mem.poisoned 0x200000 = false ∧ hopping.hopSpot x.org 4 0x1000000200 2 = .mem (localKey 0x1000000200) := by decide +kernel
theorem witness_SpokeAndHopResults_sets : ∀ va a, hopping.inOwnSet (onStep 0 [issued 2 4 false] [] []).org va a = false := by
  intro va a; simp [State.inOwnSet, hopping, asksWheel, State.reset]

/-- A collective of group 0 of this kind, operation and count among `n` modules, its flag at 0x1000000200 and its error area at 0x1000000300. -/
def collOf (kind op count n : Nat) (going : Bool) : Coll :=
  ⟨⟨0, 0, 0, 0, 0, 0, false⟩, BitVec.ofNat 512 (collBits + kind + op * 256 + count * 256 ^ 4), List.range n, 0, 0x200000, 5, 0, going, false, false, [], none, [], 0, 0, []⟩
/-- It is live, under SEQ 0, at module `me`. -/
def meeting (x : Coll) (me : BitVec 6) : State := { State.reset with colls := [(0, 0, x)], pkgid := me, pages := [⟨0, 0x200000, 0x200000, false, 7, false⟩] }
/-- Two modules form group 0, and base die 0 has a collective to accept. -/
def accepting : State := { State.reset with mmio := [(⟨.tgrp, 0⟩, 3)], dies := [(0, { Die.reset with collReqs := [⟨3, ⟨0, 0, 0, 0, 0, 0, false⟩, BitVec.ofNat 512 collBits⟩] })] }
theorem witness_CollectiveResults : (accepting.die 0).collReqs = [⟨3, ⟨0, 0, 0, 0, 0, 0, false⟩, BitVec.ofNat 512 collBits⟩] ∧ accepting.ctxs = [] ∧ accepting.liveColls false < 64 ∧ cGroup (BitVec.ofNat 512 collBits) = 0 ∧
    2 ≤ (accepting.groupMembers 0).length ∧ accepting.coll? 0 0 = none ∧ accepting.rankIn (accepting.groupMembers 0) = some 0 := by decide +kernel
theorem witness_CollectiveResults_agree : let x := collOf 0 1 64 2 false; (meeting x 0).coll? 0 0 = some x ∧ x.aborted = false ∧ x.going = false ∧ (meeting x 0).rankIn x.members = some 0 ∧ 2 ≤ x.n ∧
    (∀ v ∈ [Vote.mk 1 6 0, ⟨1, 5, 3⟩, ⟨1, 5, 0⟩], v.member ≠ 0) ∧ (∀ m < x.n, m = 0 ∨ ∃ v ∈ [Vote.mk 1 5 0], v.member = m) ∧ (Vote.mk 1 6 0).sig ≠ x.sig ∧ (Vote.mk 1 5 3).sig = x.sig ∧
    (Vote.mk 1 5 3).cause ≠ 0 ∧ (Vote.mk 1 5 0).cause = 0 ∧ x.cause = 0 := by decide +kernel
theorem witness_CollectiveResults_abort : let x := collOf 0 1 64 2 false; let s := meeting x 0
    x.flag = none ∧ x.ended = false ∧ x.reports = [] ∧ s.parked = [] ∧ s.hostPuts = [] ∧ cf x.cmd 48 8 / 256 * 256 = 0x1000000300 ∧ s.ropeSpot x (cf x.cmd 32 8 / 8 * 8) 2 8 = .mem (localKey 0x1000000200) ∧
    s.mem.poison = [] ∧ s.ropeSpot x 0x1000000300 6 8 = .mem (localKey 0x1000000300) ∧ s.ropeSpot x (0x1000000300 + 256 * (1 + s.mem.readLe (localKey 0x1000000300) 8 % 8)) 2 256 = .mem (localKey 0x1000000400) ∧
    [rowOf (localKey 0x1000000200), localKey 0x1000000300, localKey 0x1000000400].Nodup ∧ localKey 0x1000000200 % 8 = 0 ∧ localKey 0x1000000300 % 256 = 0 ∧ localKey 0x1000000400 % 256 = 0 := by decide +kernel
theorem witness_CollectiveResults_go : (let x := collOf 3 0 32896 2 false; let s := meeting x 1
    s.coll? 0 0 = some x ∧ (∀ c < x.total, x.sources (s.rank x) c = false) ∧ x.chunks = [] ∧ (∃ c < x.total, x.holds (s.rank x) c = true ∧ (x.chunk c).committed = false)) ∧
    (collOf 3 0 32896 2 true).going = true := by decide +kernel
theorem witness_CollectiveResults_contribution : (let x := collOf 0 1 64 3 true; let s := meeting x 0
    s.coll? 0 0 = some x ∧ cGathers x.cmd = false ∧ 0 < x.total ∧ x.owner 0 = s.rank x ∧ 1 < x.n ∧ cTwoPhase x.cmd = false ∧ 1 ∉ (x.chunk 0).bitmap ∧ (x.chunk 0).bitmap.length + 1 < x.n) ∧
    payloadSum false [1] ≠ 0 ∧ (let x : Coll := { collOf 0 1 64 3 true with chunks := [(0, { Chunk.fresh with bitmap := [1] })] }; 1 ∈ (x.chunk 0).bitmap) := by decide +kernel
theorem witness_CollectiveResults_exponent : let x := collOf 0 0 64 3 true; let s := meeting x 0
    s.coll? 0 0 = some x ∧ cTwoPhase x.cmd = true ∧ (x.chunk 0).expo = none ∧ x.owner 0 = s.rank x ∧ 1 < x.n ∧ 0 < x.total ∧ (tset (x.chunk 0).expos 1 (0 : Int)).length < x.n := by decide +kernel
theorem witness_CollectiveResults_delivery : let x := collOf 3 0 32896 2 true; let s := meeting x 1
    s.coll? 0 0 = some x ∧ (x.chunk 1).committed = false ∧ x.holds (s.rank x) 1 = true ∧ x.total = 2 ∧ cGathers x.cmd = true ∧ x.outAt 1 * (cFmt x.cmd).width % 2048 = 0 ∧
    x.size 1 * (cFmt x.cmd).width = 2048 ∧ x.holds (s.rank x) 0 = true ∧ (x.chunk 0).committed = false ∧
    x.bufOut + 256 * (x.outAt 1 * (cFmt x.cmd).width / 2048) = 0x210000 ∧ s.spotVa 0 0x210000 2 = .mem 0x210000 ∧ s.inOwnSet x.org true 0x210000 = false := by decide +kernel
/-- A flit of a chunk of `n` flits on its way to module 1, whose first word is `w`, with the payload sum 0. -/
def passingChunk (n w : Nat) : BitVec 1024 := BitVec.ofNat 1024 (0x01000105 + n * 256 ^ 18 + w * 256 ^ 40)
theorem passing_sum : transitSum [passingChunk 1 0] = 0 ∧ transitSum [passingChunk 1 7] = 7 := by
  have h : ∀ w ∈ [0, 7], ((List.range 11).map fun i => tfl (passingChunk 1 w) (40 + 8 * i) 8) = w :: List.replicate 10 0 ∧ tfl (passingChunk 1 w) 20 1 = 0 := by decide +kernel
  unfold transitSum
  simp only [List.flatMap_cons, List.flatMap_nil, List.append_nil, List.headD_cons, h 0 (by decide), h 7 (by decide)]
  decide +kernel
theorem witness_CollectiveResults_passing : (∀ e ∈ [(1, 0), (1, 7), (2, 0)], let p := passingChunk e.1 e.2; nbytes p.toNat 0 1 = 5 ∧ nbytes p.toNat 1 1 ≠ State.reset.pkgid.toNat ∧ nbytes p.toNat 3 1 = 1 ∧
      nbytes p.toNat 6 2 = 0 ∧ nbytes p.toNat 24 8 = 0 ∧ nbytes p.toNat 32 8 = 0) ∧ nbytes (passingChunk 1 0).toNat 18 2 = 1 ∧ 1 < nbytes (passingChunk 2 0).toNat 18 2 ∧ State.reset.transits = [] ∧
    nbytes (passingChunk 1 7).toNat 18 2 = 1 ∧ State.reset.running = true ∧ ({ State.reset with running := false } : State).running = false := by decide +kernel
theorem witness_CollectiveResults_flit : tgetD State.reset.links 0 0 = 0 ∧ nbytes (0 : BitVec 1024).toNat 0 1 = 0 ∧ nbytes (4 : BitVec 1024).toNat 0 1 = 4 ∧ 7 < nbytes (8 : BitVec 1024).toNat 0 1 ∧
    nbytes (0x105 : BitVec 1024).toNat 0 1 = 5 ∧ nbytes (0x105 : BitVec 1024).toNat 1 1 ≠ State.reset.pkgid.toNat ∧ (0 : BitVec 32) ≠ 1 ∧ (0 : BitVec 32) ≠ 0xFFFFFFFF := by decide +kernel

/-! ### Witnesses: code pages, parks, scheduling -/

/-- A single context keeps the module quiet. -/
theorem quiet_of_one {s : State} {k : Nat} {c : Ctx} (h : s.ctxs = [(k, c)]) (h1 : c.life ≠ .ending) (h2 : c.life = .running → c.wait = .none) : Quiet s := by
  intro n
  by_cases e : k = n
  · have : s.ctx n = c := by simp [State.ctx, tgetD, tget, h, e]
    rw [this]; exact ⟨h1, h2⟩
  · have : s.ctx n = Ctx.reset := by simp [State.ctx, tgetD, tget, h, e]
    rw [this]; exact ⟨by decide, fun x => absurd x (by decide)⟩
/-- A task at 5 with no page in a frame; its image lies at this physical address. -/
def unpaged (src : Nat) (wait : Wait) : State := { State.reset with ctxs := [(0, { task with pc := 5, wait := wait })], images := [(imageKey 0 0, ⟨src, 4096, true⟩)] }
theorem witness_FetchLandAndParkResults : (unpaged 0x300000 .none).fetchAt 0 = 5 ∧ (coded task).fetchAt 0 = 0 ∧ (unpaged 0x300000 .none).codeByte 0 5 = none ∧ ((coded task).ctx 0).wait = .none ∧ (coded task).codeByte 0 0 ≠ none ∧
    (match (unpaged 0x300000 .none).readPage 0 0 0 with | .ok _ => true | _ => false) = true ∧ (match (unpaged 0x5000000000 .none).readPage 0 0 0 with | .fail _ _ => true | _ => false) = true ∧
    ((unpaged 0x300000 (.fetch 5)).ctx 0).wait = .fetch 5 ∧ (5 : Offset).toNat / 4096 = 0 ∧ (0 : Nat) < 4096 ∧ ((unpaged 0x300000 (.fetch 5)).core 0).frames.length < 64 := by decide +kernel
/-- A result due in cycle 9 for one register. -/
def landing (d : Dst) (poison : Option Nat) (cycle : Nat) : State := { State.reset with ctxs := [(0, { task with inflight := [⟨5, d, some 7, poison, 9, true⟩], sFull := 0, vFull := 0 })], quarters := 4 * cycle }
theorem witness_FetchLandAndParkResults_land : (∀ d ∈ [Dst.s 0, .s 3, .v 2, .c 1], Quiet (landing d none 9) ∧ Quiet (landing d (some 256) 9)) ∧
    (∀ d ∈ [Dst.s 0, .s 3, .v 2, .c 1], ((landing d none 9).ctx 0).inflight = [⟨5, d, some 7, none, 9, true⟩] ∧ ((landing d none 9).ctx 0).comes ⟨5, d, some 7, none, 9, true⟩ = true) ∧ 9 ≤ (landing (.s 3) none 9).now ∧
    (landing (.s 3) none 8).now < 9 := by
  refine ⟨fun d _ => ⟨quiet_of_one rfl (fun h => by cases h) (fun _ => rfl), quiet_of_one rfl (fun h => by cases h) (fun _ => rfl)⟩, by decide +kernel⟩
/-- A copy of quad 0 is parked, on the page at 0x200000 or on the host link, in this cycle; the page is mapped, or port 0 is up, when `up`. -/
def parking (link up : Bool) (cycle : Nat) : State := { copying 0 0 false with
  parked := [⟨9, 0, 0x200000, link, 0, none, none, .copy 0 7⟩], nextId := 10, linkUp := up, pages := if up then [⟨0, 0x200000, 0x200000, false, 7, false⟩] else [], quarters := 4 * cycle }
/-- The same with the page in the memory of the host. -/
def onHost (cycle : Nat) : State := { parking true false cycle with pages := [⟨0, 0x200000, 0x8000000000000, false, 7, false⟩] }
theorem witness_FetchLandAndParkResults_host : (onHost 22500000).parked.find? (fun x => decide (x.id = 9)) = some ⟨9, 0, 0x200000, true, 0, none, none, .copy 0 7⟩ ∧
    (onHost 22500000).forHost ⟨9, 0, 0x200000, true, 0, none, none, .copy 0 7⟩ = true ∧ (parking true true 0).forHost ⟨9, 0, 0x200000, true, 0, none, none, .copy 0 7⟩ = false ∧ 0 + 22500000 ≤ (onHost 22500000).now ∧
    (onHost 22500000).linkUp = false ∧ 9 < (onHost 22500000).nextId ∧ (onHost 22500000).ctxs = [] ∧ ((onHost 22500000).quad 0).copies = [copyCmd 0 0 false] ∧ (onHost 22500000).heldCounter (copyCmd 0 0 false) = none := by decide +kernel
theorem witness_FetchLandAndParkResults_park : (∀ l ∈ [false, true], ∀ u ∈ [false, true], (parking l u 0).parked.find? (fun x => decide (x.id = 9)) = some ⟨9, 0, 0x200000, l, 0, none, none, .copy 0 7⟩) ∧
    (parking false false 0).parkReady ⟨9, 0, 0x200000, false, 0, none, none, .copy 0 7⟩ = false ∧ (parking false true 0).pageOf 0 0x200000 ≠ none ∧ (parking true false 22499999).now < 0 + 22500000 ∧
    0 + 22500000 ≤ (parking true false 22500000).now ∧ (parking true false 22500000).linkUp = false ∧ 9 < (parking true false 22500000).nextId ∧ (parking true false 22500000).ctxs = [] ∧
    ((parking true false 22500000).quad 0).copies = [copyCmd 0 0 false] ∧ (copyCmd 0 0 false).id = 7 ∧ (parking true false 22500000).heldCounter (copyCmd 0 0 false) = none := by decide +kernel

/-- A record waits in a task queue; a DEAL job has four records at die 0, or at die 1; nothing waits. -/
def offering : State := { State.reset with jobs := [(0, theJob)], taskQueues := [(0, [(⟨0, 0, 0, 0, 0, 0, []⟩, none)])] }
def dealJob : Job := { theJob with card := BitVec.ofNat 1024 (0x200000 * 256 ^ 8 + 8 * 256 ^ 16 + 256 ^ 24 + 256 ^ 26 + 32 * 256 ^ 28) }
def dealing (die : Nat) : State := { State.reset with jobs := [(0, dealJob)], ranges := [(die, 0, 4)], pages := [⟨0, 0x200000, 0x200000, false, 7, false⟩] }
theorem witness_SchedulingResults : State.reset.wants 0 = none ∧ (offering.wants 0).map (fun w => (w.1, w.2.1, w.2.2.2)) = some (0, .queued 0 0, some (false, 0)) ∧ (offering.die 0).reqs false = [] ∧ (offering.die 0).hubReqs = [] ∧
    (tgetD offering.taskQueues (queueKey 0 0) [])[0]? = some (⟨0, 0, 0, 0, 0, 0, []⟩, none) := by decide +kernel
theorem witness_SchedulingResults_chunk : (∀ d ∈ [0, 1], ((dealing d).wants 0).map (fun w => (w.1, w.2.1, w.2.2.2)) = some (0, .chunk 0, some (true, d)) ∧ ((dealing d).die d).reqs true = [] ∧ ((dealing d).die 0).hubReqs = [] ∧
      (dealing d).job? 0 = some dealJob ∧ ((dealing d).die 0).lastStamp ≠ some (dealing d).tbase.toNat ∧
      (∀ lo ∈ [0, 2], (match (dealing d).readArgs dealJob.part (dealJob.argBase + lo * dealJob.argSize) 1 with | .ok w => decide (w = [0]) | _ => false) = true)) ∧ dealJob.argSize = 8 * [(0 : Word)].length ∧
    ((dealing 0).range 0 0).1 < ((dealing 0).range 0 0).2 ∧ ((dealing 1).range 0 0).2 ≤ ((dealing 1).range 0 0).1 ∧ ((dealing 1).range 0 1).1 < ((dealing 1).range 0 1).2 ∧
    ((dealing 1).range 0 1).2 - (((dealing 1).range 0 1).2 - ((dealing 1).range 0 1).1 + 1) / 2 = 2 ∧
    (∀ w < 4, ((dealing 1).range 0 w).2 - ((dealing 1).range 0 w).1 ≤ 4) ∧ ((dealing 1).range 0 0).2 - ((dealing 1).range 0 0).1 < 4 := by decide +kernel
/-- The pool holds the card of `launching`. -/
def pooled : State := { launching with pool := [(0, BitVec.ofNat 1024 cardBits)] }
theorem witness_SchedulingResults_pool : pooled.pool = [(0, BitVec.ofNat 1024 cardBits)] ∧ pooled.held = [] ∧ pooled.parked = [] ∧ pooled.checkCard (some 0) (BitVec.ofNat 1024 cardBits) = .ok ∧ pooled.freeSlot = some 0 ∧
    pooled.rootHeld (jobOf (BitVec.ofNat 1024 cardBits) 0) = [] := by decide +kernel
/-- A complete job, its record's place in a mapped page. -/
def completed : State := { rooted with jobs := [(0, { theJob with complete := true })], pages := [⟨0, 0, 0x200000, false, 7, false⟩] }
theorem witness_SchedulingResults_record : completed.job? 0 = some { theJob with complete := true } ∧ completed.parked = [] ∧ completed.spotVa 0 theJob.done 2 64 = .mem 0x200000 ∧ 0x200000 % 64 = 0 ∧ completed.mem.poisoned 0x200000 = false := by decide +kernel
/-- A team of two in a phase, at places, with an overrun, in this cycle. -/
def teamIn (phase : TeamPhase) (places : List Place) (carried : Nat) : Team := ⟨phase, places, none, 0, 5000, none, none, carried, 0⟩
def twoPlaces : List Place := [⟨0, 0, 0⟩, ⟨1, 1, 0⟩]
def gangJob (t : Team) : Job := { theJob with card := BitVec.ofNat 1024 (1 + 32 * 256 ^ 28 + 3 * 256 ^ 64 + 0x200000 * 256 ^ 80), team := some t }
def teaming (t : Team) (cycle : Nat) : State := { State.reset with jobs := [(0, gangJob t)], pages := [⟨0, 0x200000, 0x200000, false, 7, false⟩], quarters := 4 * cycle }
/-- Work of level 5 waits for the cores. -/
def contested : State := { teaming (teamIn .waiting [] 0) 0 with taskQueues := [(5, [(⟨0, 0, 0, 0, 0, 0, []⟩, none)])] }
theorem witness_SchedulingResults_place : (∀ n ∈ [0, 2250000], (let t := teamIn .waiting [] n; let s := teaming t 0; s.job? 0 = some (gangJob t) ∧ t.waits = true ∧ s.placesOk (gangJob t) twoPlaces = true ∧ s.teamFirst 0 (gangJob t) t = false ∧
      s.teamHeld 0 = false ∧ s.now ≤ 100 ∧ 100 ≤ s.now + 256 ∧ (∀ x ∈ twoPlaces, s.placeFree 0 (gangJob t) x = true) ∧ s.higherWaits (gangJob t) twoPlaces = false)) ∧
    contested.higherWaits (gangJob (teamIn .waiting [] 0)) twoPlaces = true ∧ (teaming (teamIn .waiting [] 0) 0).sliceLen 0 = 2250000 := by decide +kernel
theorem witness_SchedulingResults_placed : ((teaming (teamIn .waiting [] 0) 0).placeTeam 0 (gangJob (teamIn .waiting [] 0)) (teamIn .waiting [] 0) twoPlaces 100).isSome = true := by decide +kernel
/-- The contexts of the team: stopped before their release, or running. -/
def crewed (t : Team) (life : Life) (wait : Wait) (cycle : Nat) : State := { teaming t cycle with
  ctxs := [(0, { task with life := life, wait := wait, logical := 0, vregs := 1 }), (8, { task with life := life, wait := wait, logical := 1, vregs := 1 })] }
/-- Another team of the partition waits. -/
def rivalled (t : Team) (cycle : Nat) : State := { crewed t .running .none cycle with jobs := [(0, gangJob t), (1, gangJob (teamIn .waiting [] 0))] }
theorem witness_SchedulingResults_release : (let t := teamIn .placed twoPlaces 0; let s := crewed t .stopped .release 0; t.release ≤ s.now ∧ t.firstRelease = none ∧ (∀ x ∈ t.places, (s.core x.core.val).lastStamp ≠ some s.tbase.toNat) ∧
      (t.places.map fun x => x.core).Nodup ∧ (∀ x ∈ t.places, (s.ctx (placeKey x)).ofTeam 0 = true ∧ (s.ctx (placeKey x)).life = .stopped ∧ (s.ctx (placeKey x)).wait = .release)) ∧
    (let t := teamIn .running twoPlaces 0; let s := rivalled t 5000; t.sliceEnd ≤ s.now + (gangJob t).drain ∧ s.hasWaiter 0 (gangJob t) t = true ∧
      (∀ x ∈ t.places, (s.ctx (placeKey x)).ofTeam 0 = true ∧ (s.ctx (placeKey x)).life = .running ∧ (s.ctx (placeKey x)).stopReq = false) ∧ (crewed t .running .none 5000).hasWaiter 0 (gangJob t) t = false ∧
      t.sliceEnd ≤ (crewed t .running .none 5000).now ∧ (crewed t .running .none 5000).teamMoving t = false) := by decide +kernel
/-- The team has stopped; its partition's save area is this. -/
def halting (area : Word) : State := { crewed (teamIn .stopping twoPlaces 0) .stopped .none 0 with mmio := [(⟨.psave, 0⟩, area)] }
theorem witness_SchedulingResults_stop : (halting 0).teamDrained 0 (teamIn .stopping twoPlaces 0) = true ∧
    (match (halting (0x1000 * 2 ^ 40 + 0x1000001000)).saveMembers 0 (gangJob (teamIn .stopping twoPlaces 0)) twoPlaces with | .done _ => true | _ => false) = true ∧
    (match (halting 0).saveMembers 0 (gangJob (teamIn .stopping twoPlaces 0)) twoPlaces with | .noRoom => true | _ => false) = true ∧
    (match ({ halting (0x1000 * 2 ^ 40 + 0x1000001000) with quads := [(0, { Quad.reset with retain := .retained })] } : State).saveMembers 0 (gangJob (teamIn .stopping twoPlaces 0)) twoPlaces with
      | .wait _ _ _ => true | _ => false) = true ∧
    (match (halting (0x1000 * 2 ^ 40 + 0x7000000000)).saveMembers 0 (gangJob (teamIn .stopping twoPlaces 0)) twoPlaces with | .bad _ => true | _ => false) = true := by decide +kernel
/-- A DEAL task that a stop has reached waits for its save; its partition's save area is this. -/
def stopping (area : Word) : State := { State.reset with ctxs := [(0, { task with life := .stopped, stopReq := true })], jobs := [(0, theJob)], mmio := [(⟨.psave, 0⟩, area)] }
/-- The same for a handler whose job is complete and gone. -/
def orphaned (area : Word) : State := { stopping area with jobs := [], ctxs := [(0, { task with life := .stopped, stopReq := true, cflags := 4, armed := some (64, 5) })] }
theorem witness_SchedulingResults_orphan : (orphaned 0).job? 0 = none ∧ (orphaned 0).ctxs = [(0, (orphaned 0).ctx 0)] ∧ ((orphaned 0).ctx 0).lockFor = none ∧ (orphaned 0).held = [] ∧ (orphaned 0).saved = [] ∧
    (match (orphaned (0x1000 * 2 ^ 40 + 0x1000001000)).saveCtx 0 true [] with | .done _ => true | _ => false) = true ∧ (match (orphaned 0).saveCtx 0 true [] with | .noRoom => true | _ => false) = true := by decide +kernel
theorem witness_SchedulingResults_retry : (stopping 0).held = [] ∧ ((stopping 0).ctx 0).logical = 0xFF ∧ ((stopping 0).ctx 0).lockFor = none ∧ (match (stopping (0x1000 * 2 ^ 40 + 0x1000001000)).saveCtx 0 true [] with | .done _ => true | _ => false) = true ∧
    (match (stopping 0).saveCtx 0 true [] with | .noRoom => true | _ => false) = true ∧
    (match ({ stopping (0x1000 * 2 ^ 40 + 0x1000001000) with quads := [(0, { Quad.reset with retain := .retained })] } : State).saveCtx 0 true [] with | .wait _ _ _ => true | _ => false) = true ∧
    (stopping 0).saved = [] ∧ (stopping 0).job? 0 = some theJob ∧ theJob.team = none := by decide +kernel

/-! ### Witnesses: time, ports and the step -/

/-- An event waits to enter a ring of `n` records at 2^51; port 0 is up when `up`. -/
def reporting (n : Nat) (up : Bool) : State := { State.reset with evPending := [(0, 5)], mmio := [(⟨.eventries, 0⟩, BitVec.ofNat 64 n)], linkUp := up }
theorem witness_TimeAndHardwareResults : (reporting 4 true).evPending = [(0, 5)] ∧ (reporting 0 true).fld .eventries 0 16 0 = 0 ∧ (reporting 4 false).linkUp = false ∧
    ¬ ((reporting 4 true).fld .eventries 0 16 0 = 0 ∨ ((reporting 4 true).fld .evtail 0 31 0 + 2 ^ 32 - (reporting 4 true).fld .evhead 0 31 0) % 2 ^ 32 = 4 ∨ (reporting 4 true).linkUp = false) ∧
    (2 ^ 51 + (reporting 4 true).fld .evbase 0 50 0) % 64 = 0 ∧ 2 ^ 51 + (reporting 4 true).fld .evbase 0 50 0 < 2 ^ 52 ∧ (reporting 4 true).mem.poison = [] ∧
    ({ reporting 4 true with lastSlew := some 0 } : State).tbase.toNat < 0 + 1000 ∧ (reporting 4 true).lastSlew = none ∧ (0 : Nat) + 1000 ≤ ({ reporting 4 true with lastSlew := some 0, tbase := 1000 } : State).tbase.toNat := by decide +kernel
/-- The watchdog of a task with a trap handler has run out, or not. -/
def watched (cycle : Nat) : State := { State.reset with ctxs := [(0, { task with trapvec := 64, traparea := 0x400 })], mmio := [(⟨.pwdog, 0⟩, 1)], quarters := 4 * cycle }
theorem witness_TimeAndHardwareResults_watchdog : ((watched 0).ctx 0).wait = .none ∧ (watched 0).watchdogDue 0 = false ∧ (watched 65536).watchdogDue 0 = true ∧ ((watched 65536).ctx 0).seq = false ∧
    ((watched 65536).ctx 0).trapvec ≠ 0 ∧ (watched 65536).journal? 0 = none ∧ (watched 65536).reach 0 0 (0x400 / 128 * 128) = .ok 0x1000000400 ∧ (watched 65536).mem.poison = [] := by decide +kernel
/-- The power cap is 100 and die 2 is hot, or not. -/
def powered (cap : Word) (hot : List Nat) : State := { State.reset with mmio := [(⟨.pwrcap, 0⟩, cap)], hot := hot, capInForce := cap.toNat }
theorem witness_TimeAndHardwareResults_power : onPackage 0x200000 = true ∧ (5 : Fin 64) ≠ 0 ∧ (powered 100 [2]).hot ≠ [] ∧ (powered 0 []).hot = [] ∧ (powered 0 []).fld .pwrcap 0 15 0 = 0 ∧ (powered 100 []).fld .pwrcap 0 15 0 = 100 ∧
    (100 : Nat) < (101 : BitVec 16).toNat ∧ (94 : BitVec 16).toNat * 100 < 100 * 95 ∧ (95 : BitVec 16).toNat ≤ 100 ∧ 100 * 95 ≤ (95 : BitVec 16).toNat * 100 ∧ (105 : Nat) ≤ 105 ∧ (104 : Nat) < 105 ∧
    (99 : Nat) < 100 ∧ 2 ∈ (powered 100 [2]).hot ∧ 2 ∉ (powered 100 []).hot ∧ (powered 100 [2]).capInForce ≠ 0 ∧ (powered 0 [2]).capInForce = 0 ∧ (tgetD offering.taskQueues (queueKey 0 0) [])[0]? = some (⟨0, 0, 0, 0, 0, 0, []⟩, none) ∧ (powered 0 []).halted = false ∧ ({ State.reset with halted := true } : State).halted = true := by decide +kernel
/-- Port 0 is up; the page at 0x200000 is out of host view. -/
def linked : State := { State.reset with linkUp := true, pages := [⟨0, 0x200000, 0x200000, false, 4, false⟩], mmio := [(⟨.owner, 0⟩, 1)] }
/-- Bank 0 has an image whose signatures fail, and bank 1 one of version `v`. -/
def banked (ok : Bool) (v least : BitVec 32) : State := { State.reset with banks := #v[⟨false, true, 0, 0⟩, ⟨ok, true, v, 0⟩], fusedMin := least }
theorem witness_PortAndManagementResults : linked.vacant = false ∧ linked.linkUp = true ∧ linked.hostView 0x10000000000 = true ∧ linked.mem.poison = [] ∧ (0x200000 : Nat) < 0x3000000000 ∧ linked.hostView 0x200000 = false ∧
    linked.hostView 0x400000 = true ∧ 0x3000000000 ≤ (0x3000000000 : BitVec 40).toNat / 64 * 64 ∧ linked.hostLines = [] ∧ linked.mctpServed none false = some 1 ∧ ({ linked with bmcI3c := some false } : State).mctpServed none false = none ∧
    mctpClaims (2 + 8 * 2 ^ 32 + 1 * 2 ^ 64) = true ∧ ({ linked with mmio := [(⟨.owner, 0⟩, 1)] } : State).isOwner 1 = true ∧ ({ linked with bmcI3c := some false } : State).mctpServed none true = some 1 ∧ linked.running = true ∧ ({ linked with running := false } : State).running = false ∧ State.reset.linkUp = false ∧ (List.replicate 11 (0 : BitVec 32)).length = 11 ∧
    bankReset.ed25519Ok = true ∧ bankReset.mldsaOk = true ∧ bankCause State.reset.banks[State.reset.nextBank] State.reset.fusedMin = 0 ∧
    bankCause (banked true 3 2).banks[(banked true 3 2).nextBank] 2 ≠ 0 ∧ bankCause (banked true 3 2).banks[1 - (banked true 3 2).nextBank] 2 = 0 ∧ bankCause (banked true 1 2).banks[1 - (banked true 1 2).nextBank] 2 ≠ 0 ∧
    (1 : Fin 4) ≠ 0 := by decide +kernel

/-- Context 0 of core 0 stands at offset 0 of code with these bytes. -/
def placed (c : Ctx) (code : List Byte) : State := { State.reset with ctxs := [(0, c)], cores := [(0, { Core.reset with frames := [⟨0, 0, 0, codeCells code⟩] })] }
/-- The hypotheses of `StepRunsTheDecodedBundle` about the machine hold for core 0 and its context 0, which fetches this byte at this offset. -/
def dispatches (s : State) (o : Offset) (h : Option Byte) : Bool :=
  !s.halted && decide (s.agenda = [] ∧ s.nextCore = 0) && s.hostPuts.isEmpty && ((List.range 8).all fun n => !s.dueLanding n) && decide (s.pickCtx 0 = some 0) && !s.watchdogDue 0 &&
    decide (s.fetchAt 0 = o ∧ s.codeByte 0 o = h)
/-- The state in which the bundle at `o` is checked, and its words. -/
def fetched (s : State) (o : Offset) : State := { s with nextCore := 1 }.modCtx 0 fun x => { x with pc := o }
def wordsAt (s : State) (o : Offset) (h : Byte) : List (Slot × Nat) := slotWords (headerSlots h) (((fetched s o).bundleBytes 0 o (bundleLength h)).drop 1)
/-- A slot word runs: the state it answers, and how it ends. -/
def ran1 (w : SlotWord) (a : State) : State := match exec w.op { a with issue := { a.issue with slot := w.slot, out := .ok } } with | .next t => t | _ => a
def answers (w : SlotWord) (a : State) (out : SlotOutcome) : Bool := match exec w.op { a with issue := { a.issue with slot := w.slot, out := .ok } } with | .next t => decide (t.issue.out = out) | _ => false
theorem ran_next {w : SlotWord} {a : State} {out : SlotOutcome} (h : answers w a out = true) :
    exec w.op { a with issue := { a.issue with slot := w.slot, out := .ok } } = .next (ran1 w a) ∧ (ran1 w a).issue.out = out := by
  unfold answers at h
  unfold ran1
  split at h
  · rename_i t e
    rw [e]; exact ⟨rfl, by simpa using h⟩
  · cases h
theorem ran_ok {w : SlotWord} {ws : List SlotWord} {a b : State} {l : List (Slot × SlotOutcome)} (h : answers w a .ok = true) (r : Ran ws (ran1 w a) b l) : Ran (w :: ws) a b l :=
  ⟨_, (ran_next h).1, by rw [if_pos (ran_next h).2]; exact r⟩
theorem ran_stop {w : SlotWord} {ws : List SlotWord} {a b : State} {l : List (Slot × SlotOutcome)} {out : SlotOutcome} (n : out ≠ .ok) (h : answers w a out = true) (r : Ran ws a b l) :
    Ran (w :: ws) a b ((w.slot, out) :: l) :=
  ⟨_, (ran_next h).1, by rw [(ran_next h).2, if_neg n]; exact ⟨l, rfl, r⟩⟩
/-- An ADD and an LDI; and the two with END. -/
def addLdi : List SlotWord := [⟨.sca, false, .add 3 1 2⟩, ⟨.adr, false, .ldi 4 5⟩]
def endAdd : List SlotWord := [⟨.ctl, false, .endTask⟩, ⟨.sca, false, .add 3 1 2⟩]
/-- The bundle has been issued. -/
def issuedAt (s : State) (o : Offset) (h : Byte) : State := ((fetched s o).dispatched 0).issueAt 0 o (bundleLength h)
theorem witness_StepRunsTheDecodedBundle : let s := placed task (encodeBundle addLdi)
    dispatches s 0 (some 6) = true ∧ (0 : Nat) + bundleLength 6 ≤ 64 ∧ (∀ u, ¬ IllegalSlot 64 (bundleLength 6) (wordsAt s 0 6) u) ∧ (decodeWords (wordsAt s 0 6)).filterMap (·.2) = addLdi ∧
    xferLeft ((fetched s 0).ctx 0).xfer = 0 ∧ (∀ w ∈ addLdi, isPrivileged w.op = false) ∧ ((fetched s 0).ctx 0).plainPending (addLdi.map (·.op)) = false ∧ ((fetched s 0).ctx 0).inflight = [] ∧
    ((fixedResults ((fetched s 0).ctx 0) 0 (addLdi.map (·.op))).length ≤ 64) ∧ ∃ e, Ran addLdi (issuedAt s 0 6) e [] :=
  ⟨by decide +kernel, by decide +kernel, (Laws.legal_iff _ _ _).mp (by decide +kernel), by decide +kernel, by decide +kernel, by decide +kernel, by decide +kernel, by decide +kernel, by decide +kernel,
   _, ran_ok (by decide +kernel) (ran_ok (by decide +kernel) ⟨rfl, rfl⟩)⟩
theorem witness_StepRunsTheDecodedBundle_late : let s := placed task (encodeBundle endAdd)
    dispatches s 0 (some 3) = true ∧ (∀ u, ¬ IllegalSlot 64 (bundleLength 3) (wordsAt s 0 3) u) ∧
    (decodeWords (wordsAt s 0 3)).filterMap (·.2) = endAdd ∧ ∃ e, Ran (endAdd.filter fun w => !isLate w.op) (issuedAt s 0 3) e [] ∧
      ∃ f, Ran (endAdd.filter fun w => isLate w.op) ((e.modCtx 0 fun y => commitCtx y (((fetched s 0).dispatched 0).ctx 0) 0 (bundleLength 3) e.issue.skip).modCtx 0 fun y =>
        y.commits 0 (fixedResults (((fetched s 0).dispatched 0).ctx 0) 0 (endAdd.map (·.op)))) f [] :=
  ⟨by decide +kernel, (Laws.legal_iff _ _ _).mp (by decide +kernel), by decide +kernel, _, ran_ok (by decide +kernel) ⟨rfl, rfl⟩, _, ran_ok (by decide +kernel) ⟨rfl, rfl⟩⟩
/-- The ADD reads an empty s1, and traps or waits by its policy; the LDI goes on. -/
theorem witness_StepRunsTheDecodedBundle_stop : (let s := placed { task with sFull := 0xFFFFFFFFFFFFFFFD, epolicyS := BitVec.allOnes 64 } (encodeBundle addLdi);
      dispatches s 0 (some 6) = true ∧ (∃ a i e, Ran addLdi (issuedAt s 0 6) e [(.sca, .trapped cEmptyRead a i)]) ∧ MaskOf 2 fun v => v = .sca) ∧
    (let s := placed { task with sFull := 0xFFFFFFFFFFFFFFFD } (encodeBundle addLdi);
      dispatches s 0 (some 6) = true ∧ (∃ e, Ran addLdi (issuedAt s 0 6) e [(.sca, .waiting)]) ∧ (addLdi.find? fun w => decide (w.slot ∈ [Slot.sca])) = some ⟨.sca, false, .add 3 1 2⟩ ∧
      answers ⟨.sca, false, .add 3 1 2⟩ (issuedAt s 0 6) .waiting = true) :=
  ⟨⟨by decide +kernel, ⟨_, _, _, ran_stop (out := .trapped cEmptyRead 0 1) (by decide) (by decide +kernel) (ran_ok (by decide +kernel) ⟨rfl, rfl⟩)⟩, by decide, fun u => by cases u <;> decide⟩,
   by decide +kernel, ⟨_, ran_stop (by decide) (by decide +kernel) (ran_ok (by decide +kernel) ⟨rfl, rfl⟩)⟩, by decide +kernel, by decide +kernel⟩
/-- An undecodable word, two writes of s3, an ERET and a NOP. -/
def clash : List SlotWord := [⟨.sca, false, .add 3 1 2⟩, ⟨.adr, false, .ldi 3 5⟩]
def eret : List SlotWord := [⟨.ctl, false, .eret⟩]
theorem witness_StepRunsTheDecodedBundle_traps : dispatches (placed { task with pc := 62 } (List.replicate 62 0 ++ [6, 1])) 62 (some 6) = true ∧ 64 < 62 % 64 + bundleLength 6 ∧
    dispatches (placed task (encodeBundle clash)) 0 (some 6) = true ∧ illegalMask 64 (bundleLength 6) (wordsAt (placed task (encodeBundle clash)) 0 6) = 6 ∧
    dispatches (placed task [2, 0, 0, 0, 0xFF]) 0 (some 2) = true ∧ illegalMask 64 (bundleLength 2) (wordsAt (placed task [2, 0, 0, 0, 0xFF]) 0 2) = 2 ∧
    dispatches (placed { task with pc := 4096 } []) 4096 none = true ∧ dispatches (placed task []) 0 (some 0) = true ∧
    dispatches (placed task (encodeBundle eret)) 0 (some 1) = true ∧ illegalMask 64 (bundleLength 1) (wordsAt (placed task (encodeBundle eret)) 0 1) = 0 ∧ isPrivileged .eret = true ∧
    (let s := placed { task with xfer := xferOf 64 1 true } (encodeBundle eret);
      dispatches s 0 (some 1) = true ∧ xferLeft ((fetched s 0).ctx 0).xfer = 1 ∧ notInDelay .eret = true) ∧
    dispatches (placed { task with inflight := [⟨1, .lc 3 0, none, none, 9, true⟩] } (encodeBundle addLdi)) 0 (some 6) = true ∧
    ((fetched (placed { task with inflight := [⟨1, .lc 3 0, none, none, 9, true⟩] } (encodeBundle addLdi)) 0).ctx 0).plainPending (addLdi.map (·.op)) = true ∧
    dispatches (placed { task with inflight := List.replicate 63 ⟨1, .s 3, none, none, 9, false⟩ } (encodeBundle addLdi)) 0 (some 6) = true := by decide +kernel
/-- A mask holds the illegal slots. -/
theorem witness_StepRunsTheDecodedBundle_mask : MaskOf 6 (IllegalSlot 64 (bundleLength 6) (wordsAt (placed task (encodeBundle clash)) 0 6)) := by
  have h := Laws.illegalMask_spec 64 (bundleLength 6) (wordsAt (placed task (encodeBundle clash)) 0 6)
  rwa [show illegalMask 64 (bundleLength 6) (wordsAt (placed task (encodeBundle clash)) 0 6) = 6 from by decide +kernel] at h
/-- The words of a host agent, a snoop's answer and the wires at the head of the agenda; a write of host memory that is due. -/
def due (l : List Act) : State := { State.reset with agenda := l, hostPuts := [(2 ^ 51, 7, 1)] }
theorem witness_StepRunsTheNextEvent : ({ State.reset with agenda := [.event .slotCycle] } : State).agenda = .event .slotCycle :: [] ∧ isSlotOp .slotCycle = false ∧ isSlotOp (.add 3 1 2) = true ∧ State.reset.halted = false ∧
    ((2 : Nat) ^ 51 ≤ 2 ^ 51 ∧ (2 : Nat) ^ 51 < 2 ^ 52 ∧ (2 : Nat) ^ 51 % 256 = 0 ∧ (1 : BitVec 256) ≠ 0 ∧ (0 : Nat) < 2 ^ 51) ∧ ({ State.reset with halted := true } : State).agenda.head? ≠ some (.event .moduleReset) ∧
    State.reset.hostPuts = [] ∧ (due [.event .slotCycle]).hostPuts = [(2 ^ 51, 7, 1)] ∧ (due [.hostStore (2 ^ 51) 7 1]).agenda = [.hostStore (2 ^ 51) 7 1] ∧
    State.reset.agenda = [] ∧ (∀ c < 128, State.reset.pickCtx c = none ∧ ∀ n < 8, State.reset.dueLanding (c * 8 + n) = false) := by decide +kernel
theorem witness_StepRunsTheNextEvent_due : ∀ r d m, (due [.event .slotCycle]).agenda.head? ≠ some (.hostStore r d m) := fun r d m h => by simp [due] at h
theorem witness_DecodeAndEncodeAgree : (SlotWord.mk .sca false (.add 3 1 2)).wf = true ∧ decodeSlot .sca 0x010C1080 = some ⟨.sca, false, .add 3 1 2⟩ := by decide +kernel
theorem witness_FramesAndMemoryWrites : let s := queued; (match exec (.vld 2 1 0) s with | .next t => decide (t.issue.out = .ok ∨ t.issue.out = .waiting) | _ => false) = true ∧
    ((⟨[], [256]⟩ : Mem).poisoned 256 = true) ∧ ((⟨[], []⟩ : Mem).poisoned 256 = false) ∧ (256 : Nat) % 256 = 0 ∧ (1 : BitVec 256) ≠ fullMask ∧
    pair.saved = [] ∧ pair.stored = [] ∧ (match exec (.recv 2 1 0) pair with | .next t => decide (t.issue.out = .ok) | _ => false) = true := by decide +kernel
/-- Contexts that do not end or wait keep the module quiet. -/
theorem quiet_of_all {s : State} (h : ∀ e ∈ s.ctxs, e.2.life ≠ .ending ∧ (e.2.life = .running → e.2.wait = .none)) : Quiet s := by
  intro k
  unfold State.ctx tgetD tget
  cases e : s.ctxs.find? fun x => decide (x.1 = k) with
  | none => exact ⟨by decide, fun x => absurd x (by decide)⟩
  | some x => exact h x (List.mem_of_find?_eq_some e)
theorem witness_FramesAndMemoryWrites_saved : Quiet saver ∧ Quiet stored ∧ saver.watchdogDue 1 = false ∧ (∀ z ∈ stored.stored ++ stored.saved, z.ctx.life ≠ .ending) ∧ stored.me.inflight = [] ∧
    (match exec (.ctxsv 1 2) saver with | .next t => decide (t.issue.out = .ok) | _ => false) = true ∧ (match exec (.ctxld 1 2) stored with | .next t => decide (t.issue.out = .ok) | _ => false) = true ∧
    (match exec (.ajnl 4) setter with | .next t => decide (t.issue.out = .ok) | _ => false) = true ∧ (match exec (.hrech 1) (described (2 ^ 64)) with | .next t => decide (t.issue.out = .ok) | _ => false) = true :=
  ⟨quiet_of_all (by decide +kernel), quiet_of_all (by decide +kernel), by decide +kernel⟩
theorem witness_MemoryStaysCanonical : MemCanonical State.reset ∧ (match step State.reset with | .next _ => true | _ => false) = true := ⟨rfl, by decide +kernel⟩

/-! ### Single steps: hand-calculated results -/

/-- s1 = 2^63, s2 = 2^64 - 1, s3 = 7, s4 = 2, s5 = the bits of 1.5, s6 = of 2.25. -/
def nums : State := lab { task with s := scal [0, 0x8000000000000000, 0xFFFFFFFFFFFFFFFF, 7, 2, 0x3FC00000, 0x40100000] }
/-- R150: an addition wraps; a multiplication keeps the low half, MULH and MULHU the high half, signed and unsigned. -/
theorem test_add_wraps : scalarAfter (.add 9 2 4) nums 9 = some 1 ∧ scalarAfter (.mul 9 2 2) nums 9 = some 1 ∧ scalarAfter (.mulh 9 2 2) nums 9 = some 0 ∧
    scalarAfter (.mulhu 9 2 2) nums 9 = some 0xFFFFFFFFFFFFFFFE := by decide +kernel
/-- R151: a signed division truncates: (2^64 - 1) / 2 is -1 / 2, 0, its remainder -1; unsigned it is 2^63 - 1. -/
theorem test_div_truncates : scalarAfter (.div 9 2 4) nums 9 = some 0 ∧ scalarAfter (.rem 9 2 4) nums 9 = some 0xFFFFFFFFFFFFFFFF ∧ scalarAfter (.divu 9 2 4) nums 9 = some 0x7FFFFFFFFFFFFFFF := by decide +kernel
/-- A source that is also the destination, and s0, which takes no write (R148). -/
theorem test_source_is_destination : scalarAfter (.sub 3 3 4) nums 3 = some 5 ∧ scalarAfter (.add 0 3 4) nums 0 = some 0 := by decide +kernel
/-- R152: EXTR takes w bits from lo; DEP puts them there and keeps the rest. -/
theorem test_fields : scalarAfter (.extr 9 1 62 1) nums 9 = some 2 ∧ scalarAfter (.dep 3 4 4 3) nums 3 = some 0x27 := by decide +kernel
/-- R155: signed and unsigned compares of -2^63 and 7 differ. -/
theorem test_compares : condAfter (.cmplt 1 1 3) nums 1 = some true ∧ condAfter (.cmpltu 1 1 3) nums 1 = some false ∧ condAfter (.cmplt 0 3 1) nums 0 = some true := by decide +kernel
/-- R157: 1.5 + 2.25 is 3.75 and 1.5 * 2.25 is 3.375, in FP32. -/
theorem test_scalar_floats : scalarAfter (.fadd 9 5 6) nums 9 = some 0x40700000 ∧ scalarAfter (.fmul 9 5 6) nums 9 = some 0x40580000 := by decide +kernel
/-- R395: ERET goes back to EPC, in user mode. -/
theorem test_eret : after .eret (coded { task with sup := true, epc := 10, pc := 5 }) (fun t => (t.me.pc, t.me.sup)) = some (10, false) := by decide +kernel

end Sys2Proof.Tests
end

namespace Sys2Proof.Proofs

open Sys2Proof Sys2Proof.Machine Sys2Proof.Safety Sys2Proof.Laws

/-! ### Fields of naturals and of management registers -/

theorem testBit_nbits (x hi lo j : Nat) : (nbits x hi lo).testBit j = (decide (j < hi + 1 - lo) && x.testBit (lo + j)) := by
  simp [nbits, Nat.testBit_mod_two_pow, Nat.testBit_div_two_pow, Nat.add_comm]

theorem nbits_lt (x hi lo : Nat) : nbits x hi lo < 2 ^ (hi + 1 - lo) := Nat.mod_lt _ (Nat.two_pow_pos _)

/-- A field below bit n does not see that the rest is cut off at bit n. -/
theorem nbits_mod_two_pow (x : Nat) {hi lo n : Nat} (h : hi < n) : nbits (x % 2 ^ n) hi lo = nbits x hi lo := by
  apply Nat.eq_of_testBit_eq
  intro j
  rw [testBit_nbits, testBit_nbits, Nat.testBit_mod_two_pow]
  by_cases c : j < hi + 1 - lo
  · simp [show lo + j < n by omega]
  · simp [c]

/-- `nset` as the bits below the field, the field, and the bits above it. -/
theorem nset_eq (x : Nat) {hi lo : Nat} (v : Nat) (h : lo ≤ hi + 1) :
    nset x hi lo v = 2 ^ lo * (2 ^ (hi + 1 - lo) * (x / 2 ^ (hi + 1)) + v % 2 ^ (hi + 1 - lo)) + x % 2 ^ lo := by
  have low := Nat.div_add_mod x (2 ^ lo)
  have field := Nat.div_add_mod (x / 2 ^ lo) (2 ^ (hi + 1 - lo))
  rw [Nat.div_div_eq_div_mul, ← Nat.pow_add, show lo + (hi + 1 - lo) = hi + 1 by omega] at field
  have whole : x = 2 ^ lo * (2 ^ (hi + 1 - lo) * (x / 2 ^ (hi + 1))) + 2 ^ lo * nbits x hi lo + x % 2 ^ lo := by
    rw [← Nat.mul_add, nbits, field, low]
  rw [nset, Nat.mul_comm (nbits x hi lo), Nat.mul_comm (v % _), Nat.mul_add]
  omega

theorem testBit_nset (x : Nat) {hi lo : Nat} (v i : Nat) (h : lo ≤ hi + 1) :
    (nset x hi lo v).testBit i = if lo ≤ i ∧ i ≤ hi then v.testBit (i - lo) else x.testBit i := by
  rw [nset_eq x v h, Nat.testBit_two_pow_mul_add _ (Nat.mod_lt _ (Nat.two_pow_pos _)),
    Nat.testBit_two_pow_mul_add _ (Nat.mod_lt _ (Nat.two_pow_pos _)), Nat.testBit_mod_two_pow, Nat.testBit_mod_two_pow, Nat.testBit_div_two_pow]
  by_cases low : i < lo
  · simp [low, show ¬ lo ≤ i by omega]
  · by_cases field : i ≤ hi
    · simp [low, field, show lo ≤ i by omega, show i - lo < hi + 1 - lo by omega]
    · simp [low, field, show ¬ i - lo < hi + 1 - lo by omega, show i - lo - (hi + 1 - lo) + (hi + 1) = i by omega]

/-- A field keeps its value when another field is written. -/
theorem nbits_nset_other (x : Nat) {hi lo hi' lo' : Nat} (v : Nat) (h : lo ≤ hi + 1) (d : hi < lo' ∨ hi' < lo) :
    nbits (nset x hi lo v) hi' lo' = nbits x hi' lo' := by
  apply Nat.eq_of_testBit_eq
  intro j
  rw [testBit_nbits, testBit_nbits, testBit_nset x v _ h]
  by_cases c : j < hi' + 1 - lo'
  · rw [if_neg (by omega)]
  · simp [c]

theorem fld_lt (s : State) (f : MFam) (i hi lo : Nat) : s.fld f i hi lo < 2 ^ (hi + 1 - lo) := nbits_lt _ _ _

theorem fld_setFld_same (s : State) {f : MFam} (i : Nat) {hi : Nat} (lo v : Nat) (hf : f ≠ .tbase) (h : hi < 64) :
    (s.setFld f i hi lo v).fld f i hi lo = v % 2 ^ (hi + 1 - lo) := by
  rw [State.fld, State.setFld, reg_setReg_same _ _ _ hf, BitVec.toNat_ofNat, nbits_mod_two_pow _ h, nbits_nset_same]

/-- A field that holds the value written to it. -/
theorem fld_setFld_of_lt (s : State) {f : MFam} (i : Nat) {hi lo v : Nat} (hf : f ≠ .tbase) (h : hi < 64) (hv : v < 2 ^ (hi + 1 - lo)) :
    (s.setFld f i hi lo v).fld f i hi lo = v := by rw [fld_setFld_same s i lo v hf h, Nat.mod_eq_of_lt hv]

theorem fld_setFld_other (s : State) {f : MFam} (i : Nat) {hi lo hi' lo' : Nat} (v : Nat) (hf : f ≠ .tbase) (h : lo ≤ hi + 1) (h' : hi' < 64)
    (d : hi < lo' ∨ hi' < lo) : (s.setFld f i hi lo v).fld f i hi' lo' = s.fld f i hi' lo' := by
  rw [State.fld, State.setFld, reg_setReg_same _ _ _ hf, BitVec.toNat_ofNat, nbits_mod_two_pow _ h', nbits_nset_other _ _ h d, State.fld]

theorem reg_setFld_ne (s : State) {f : MFam} (i hi lo v : Nat) {r : MReg} (h : r ≠ ⟨f, i⟩) : (s.setFld f i hi lo v).reg r = s.reg r := reg_setReg_ne s _ h

theorem fld_setFld_ne (s : State) {f f' : MFam} (i hi lo v : Nat) {i' hi' lo' : Nat} (h : f' ≠ f) :
    (s.setFld f i hi lo v).fld f' i' hi' lo' = s.fld f' i' hi' lo' := by
  rw [State.fld, reg_setFld_ne s i hi lo v (by simp [h]), State.fld]

/-- An event of the hardware writes its field, and is kept beside as one of this cycle (R7). -/
theorem fld_event (s : State) (f : MFam) (i hi lo : Nat) (g : Nat → Nat) (f' : MFam) (i' hi' lo' : Nat) :
    (s.event f i hi lo g).fld f' i' hi' lo' = (s.setFld f i hi lo (g (s.fld f i hi lo))).fld f' i' hi' lo' := rfl

theorem fld_count_same (s : State) {f : MFam} (i : Nat) {hi : Nat} (lo n : Nat) (hf : f ≠ .tbase) (h : hi < 64) :
    (s.count f i hi lo n).fld f i hi lo = min (s.fld f i hi lo + n) (2 ^ (hi + 1 - lo) - 1) := by
  have p := Nat.two_pow_pos (hi + 1 - lo)
  rw [State.count, fld_event, fld_setFld_of_lt s i hf h (by omega)]

theorem fld_count_other (s : State) {f : MFam} (i : Nat) {hi lo hi' lo' : Nat} (n : Nat) (hf : f ≠ .tbase) (h : lo ≤ hi + 1) (h' : hi' < 64)
    (d : hi < lo' ∨ hi' < lo) : (s.count f i hi lo n).fld f i hi' lo' = s.fld f i hi' lo' := by
  rw [State.count, fld_event, fld_setFld_other s i _ hf h h' d]

/-! ### Right after reset -/

theorem reset_reg {r : MReg} (h : r.fam ≠ .tbase) : State.reset.reg r = r.reset := by simp [State.reg, State.reset, h, tgetD, tget]

theorem reset_live (n : Nat) : State.reset.live n = false := by
  simp [State.live, State.fld, reset_reg, MReg.reset, nbits]

/-- What the registers of a context at reset read (R127, R206). -/
theorem reset_ctx_registers : (∀ r, Ctx.reset.getS r = 0) ∧ ∀ l : Fin 4, (Ctx.reset.lc[l]).cnt = 0 :=
  ⟨fun r => by simp [Ctx.getS, Ctx.reset], fun l => by simp [Ctx.reset]⟩

/-- Settles O59: every table is empty, and what it does not list reads as its reset value. -/
theorem resetState : Obligations.ResetState := by
  unfold Obligations.ResetState
  exact ⟨reset_mem_wf, fun _ => ⟨rfl, rfl⟩, fun _ => reset_reg, rfl, by decide, by decide, rfl, rfl, rfl, rfl, reset_live, fun _ => rfl, fun _ _ => rfl,
    fun _ => ⟨rfl, rfl, rfl, rfl, rfl, rfl, reset_ctx_registers⟩⟩

end Sys2Proof.Proofs

namespace Sys2Proof.Proofs

open Sys2Proof Sys2Proof.Machine Sys2Proof.Safety Sys2Proof.Laws

/-! ### Register pages -/

/-- The registers whose writes act by their access codes alone: none of these families. -/
def actingFams : List MFam := [.claim, .handover, .admqcreate, .qdb, .qstat, .gdb, .btown, .bdqcfg, .retq, .retb, .pres, .presz, .tbase]

theorem writeReg_of_plain (s : State) (agent : Nat) {r : MReg} (v mask : Word) (h : r.fam ∉ actingFams) :
    s.writeReg agent r v mask = s.setReg r (r.written (s.reg r) (s.ofCycle r).2 v mask) := by
  simp only [State.writeReg]
  split <;> simp_all [actingFams]

/-- A write by the owner, or to an exempt register, is done. -/
theorem agentWrite_of_may (s : State) {agent : Nat} {r : MReg} (v mask : Word) (h : r.ownerExempt = true ∨ s.isOwner agent = true) :
    s.agentWrite agent r v mask = (false, s.writeReg agent r v mask) := by
  rcases h with h | h <;> simp [State.agentWrite, h]

/-- A write by any other agent is dropped, and denied. -/
theorem agentWrite_of_not_may (s : State) {agent : Nat} {r : MReg} (v mask : Word) (h : ¬ (r.ownerExempt = true ∨ s.isOwner agent = true)) (e : agent ≠ 16) :
    s.agentWrite agent r v mask = (true, s.denied) := by
  simp only [not_or, Bool.not_eq_true] at h
  simp [State.agentWrite, h, e]

/-- With no event of this cycle kept for a register, it reads as it is, and events alone make nothing of it. -/
theorem ofCycle_of_no_event {s : State} {r : MReg} (h : ∀ x, tget s.cycleSets r = some x → x.1 ≠ s.now) : s.ofCycle r = (s.reg r, 0) := by
  unfold State.ofCycle
  split
  · rename_i x e
    rw [if_neg (h x e)]
  · rfl

/-- What a read shows of a register: the bits that it clears, and those that a written 1 clears, as before the events of the cycle (R7). -/
def readValue (s : State) (r : MReg) (mask : Word) : Word :=
  ((s.reg r &&& ~~~(r.rc &&& mask ||| r.w1c)) ||| ((s.ofCycle r).1 &&& (r.rc &&& mask ||| r.w1c))) &&& mask

/-- What a read leaves in a register. -/
def readLeaves (s : State) (r : MReg) (mask : Word) : Word := (s.reg r &&& ~~~(r.rc &&& mask)) ||| ((s.ofCycle r).2 &&& (r.rc &&& mask))

theorem agentRead_outbox (s : State) (r : MReg) (mask : Word) : (s.agentRead r mask).2.outbox = s.outbox := by
  simp only [State.agentRead, State.readReg]
  split <;> rfl

theorem agentRead_leaves (s : State) {r : MReg} (mask : Word) (h : r.fam ≠ .tbase) : (s.agentRead r mask).2.reg r = readLeaves s r mask := by
  simp only [State.agentRead, State.readReg]
  split
  · rename_i z
    rw [readLeaves, z, show ~~~(0 : Word) = BitVec.allOnes 64 from rfl, BitVec.and_allOnes]
    simp
  · exact reg_setReg_same s r _ h

/-- The answer to a read, over BAR0, a register page or MCTP. -/
theorem agentRead_answers (s : State) (agent : Nat) {r : MReg} (mask : Word) (h : r.fam ≠ .tbase) :
    let t := (s.agentRead r mask).2.send (.mctp agent 0 (s.agentRead r mask).1)
    t.outbox = s.outbox ++ [(none, .mctp agent 0 (readValue s r mask))] ∧ t.reg r = readLeaves s r mask :=
  ⟨by rw [← agentRead_outbox s r mask]; rfl, agentRead_leaves s mask h⟩

/-! ### Accesses to the register pages -/

theorem registerWrite_eq (agent : Nat) (off : BitVec 33) (size : Fin 4) (v : Word) (s : State) :
    exec (.registerWrite agent off size v) s = execRegisterWrite agent off size v s := rfl

theorem readClear_eq (agent : Nat) (off : BitVec 33) (size : Fin 4) (s : State) : exec (.readClear agent off size) s = execReadClear agent off size s := rfl

theorem oddAccess_eq_false {off : BitVec 33} {size : Fin 4} (hs : size ≠ 3) (ho : off.toNat % 8 = 0) : oddAccess off size = false := by
  simp [oddAccess, hs, ho]

theorem odd_access_unsupported (s : State) {off : BitVec 33} {size : Fin 4} (v : Word) (h : size = 3 ∨ off.toNat % 8 ≠ 0) :
    exec (.registerWrite 0 off size v) s = .next (s.send .unsupported) ∧ exec (.readClear 0 off size) s = .next (s.send .unsupported) := by
  have odd : oddAccess off size = true := by simpa [oddAccess] using h
  simp [registerWrite_eq, readClear_eq, execRegisterWrite, execReadClear, odd, State.oddly]

theorem reserved_access (s : State) (agent : Nat) {off : BitVec 33} {size : Fin 4} (v : Word) (hr : MReg.atOffset off.toNat = none) (hs : size ≠ 3)
    (ho : off.toNat % 8 = 0) : exec (.registerWrite agent off size v) s = .next s ∧ exec (.readClear agent off size) s = .next (s.send (.mctp agent 0 0)) := by
  simp [registerWrite_eq, readClear_eq, execRegisterWrite, execReadClear, oddAccess_eq_false hs ho, hr]

/-- Over BAR0 out of recovery, and over any other way, every register answers (R432). -/
theorem bar0_of_running {s : State} {agent : Nat} (r : MReg) (h : agent ≠ 0 ∨ s.running = true) : (decide (agent = 0) && !s.bar0 r) = false := by
  rcases h with h | h <;> simp [State.bar0, h]

theorem registerWrite_of_reg (s : State) {agent : Nat} {off : BitVec 33} {size : Fin 4} (v : Word) {r : MReg} (hr : MReg.atOffset off.toNat = some r)
    (hs : size ≠ 3) (ho : off.toNat % 8 = 0) (ha : agent ≠ 0 ∨ s.running = true) :
    exec (.registerWrite agent off size v) s = .next (s.agentWrite agent r v (sizeMask size.val)).2 := by
  simp [registerWrite_eq, execRegisterWrite, oddAccess_eq_false hs ho, hr, bar0_of_running r ha]

theorem readClear_of_reg (s : State) {agent : Nat} {off : BitVec 33} {size : Fin 4} {r : MReg} (hr : MReg.atOffset off.toNat = some r)
    (hs : size ≠ 3) (ho : off.toNat % 8 = 0) (ha : agent ≠ 0 ∨ s.running = true) :
    exec (.readClear agent off size) s = .next ((s.agentRead r (sizeMask size.val)).2.send (.mctp agent 0 (s.agentRead r (sizeMask size.val)).1)) := by
  simp [readClear_eq, execReadClear, oddAccess_eq_false hs ho, hr, bar0_of_running r ha]

/-! ### MCTP requests -/

/-- A register-access request (R431): its command, SIZE, offset and value. -/
def mctpBody (cmd : Nat) (size : Fin 4) (off : BitVec 33) (v : Word) : BitVec 128 := BitVec.ofNat 128 (cmd + size.val * 256 + off.toNat * 2 ^ 32 + v.toNat * 2 ^ 64)

section Request
variable {cmd : Nat} {size : Fin 4} {off : BitVec 33} {v : Word} (hc : cmd < 256) (ho : off.toNat < 2 ^ 32)
include hc ho

theorem mctpBody_toNat : (mctpBody cmd size off v).toNat = cmd + size.val * 256 + off.toNat * 2 ^ 32 + v.toNat * 2 ^ 64 := by
  have := v.isLt
  have := size.isLt
  rw [mctpBody, BitVec.toNat_ofNat, Nat.mod_eq_of_lt (by omega)]

theorem mctpField_cmd : mctpField (mctpBody cmd size off v) 0 1 = cmd := by
  rw [mctpField, mctpBody_toNat hc ho, nbytes]; omega

theorem mctpField_size : mctpField (mctpBody cmd size off v) 1 1 = size.val := by
  have := size.isLt
  rw [mctpField, mctpBody_toNat hc ho, nbytes]; omega

theorem mctpField_zero : mctpField (mctpBody cmd size off v) 2 2 = 0 := by
  have := size.isLt
  rw [mctpField, mctpBody_toNat hc ho, nbytes]; omega

theorem mctpField_offset : mctpField (mctpBody cmd size off v) 4 4 = off.toNat := by
  have := size.isLt
  rw [mctpField, mctpBody_toNat hc ho, nbytes]; omega

theorem mctpField_value : mctpField (mctpBody cmd size off v) 8 8 = v.toNat := by
  have := size.isLt
  have := v.isLt
  rw [mctpField, mctpBody_toNat hc ho, nbytes]; omega

theorem mctpMask_body : mctpMask (mctpBody cmd size off v) = sizeMask size.val := by rw [mctpMask, mctpField_size hc ho]

/-- A request of a legal SIZE and an aligned offset, without a value when it reads, is well formed. -/
theorem mctpBad_body (hs : size ≠ 3) (ha : off.toNat % 8 = 0) (hv : cmd = 1 → v = 0) : mctpBad (mctpBody cmd size off v) = false := by
  have two : size.val ≤ 2 := by have := size.isLt; have : size.val ≠ 3 := fun e => hs (Fin.ext e); omega
  simp only [mctpBad, mctpField_cmd hc ho, mctpField_size hc ho, mctpField_zero hc ho, mctpField_offset hc ho, mctpField_value hc ho, decide_eq_false_iff_not]
  rintro (h | h | h | ⟨h, z⟩)
  · omega
  · exact h rfl
  · exact h ha
  · exact z (by rw [hv h]; rfl)

end Request

theorem mctpBody_read (size : Fin 4) (off : BitVec 33) : BitVec.ofNat 128 (1 + size.val * 256 + off.toNat * 2 ^ 32) = mctpBody 1 size off 0 := by
  rw [mctpBody, show (0 : Word).toNat = 0 from rfl, Nat.zero_mul, Nat.add_zero]

/-- An agent that is served is served whether or not it claims (R428). -/
theorem mctpServed_mono {s : State} {src : Option (BitVec 8)} {agent : Nat} (c : Bool) (h : s.mctpServed src false = some agent) : s.mctpServed src c = some agent := by
  have heard : ∀ i3c, s.bmcHeard i3c false = true → s.bmcHeard i3c c = true := by
    intro i3c
    simp only [State.bmcHeard, Bool.false_or, Bool.or_eq_true]
    rintro (h | h) <;> simp [h]
  cases src with
  | none =>
    simp only [State.mctpServed] at h ⊢
    split at h
    · rename_i e
      rwa [if_pos (heard _ e)]
    · cases h
  | some eid =>
    simp only [State.mctpServed, Option.filter_eq_some_iff, Bool.or_eq_true] at h ⊢
    exact ⟨h.1, h.2.imp_right (heard _)⟩

/-- The agents of MCTP are those of AGENTMAP: none is an engine. -/
theorem mctpServed_ne_engine {s : State} {src : Option (BitVec 8)} {c : Bool} {agent : Nat} (h : s.mctpServed src c = some agent) : agent ≠ 16 := by
  cases src with
  | none =>
    simp only [State.mctpServed] at h
    split at h
    · cases h; decide
    · cases h
  | some eid =>
    simp only [State.mctpServed, Option.filter_eq_some_iff] at h
    obtain ⟨i, hi, rfl⟩ := List.mem_map.mp (List.mem_of_find?_eq_some h.1)
    have := List.mem_range.mp hi
    omega

section Served
variable {s : State} {src : Option (BitVec 8)} {agent : Nat} {size : Fin 4} {off : BitVec 33} {v : Word}
  (hm : s.mctpServed src false = some agent) (hs : size ≠ 3) (h8 : off.toNat % 8 = 0) (ho : off.toNat < 2 ^ 32)
include hm hs h8 ho

theorem mctpWrite_of_reserved (hr : MReg.atOffset off.toNat = none) :
    exec (.mctpWrite src (mctpBody 2 size off v)) s = .next (s.send (.mctp agent 2 0)) := by
  show execMctpWrite _ _ s = _
  simp [execMctpWrite, mctpServed_mono _ hm, mctpField_cmd (cmd := 2) (by omega) ho, mctpBad_body (cmd := 2) (by omega) ho hs h8 (by omega),
    mctpField_offset (cmd := 2) (by omega) ho, hr]

theorem mctpRead_of_reserved (hv : v = 0) (hr : MReg.atOffset off.toNat = none) :
    exec (.mctpRead src (mctpBody 1 size off v)) s = .next (s.send (.mctp agent 2 0)) := by
  show execMctpRead _ _ s = _
  simp [execMctpRead, hm, mctpField_cmd (cmd := 1) (by omega) ho, mctpBad_body (cmd := 1) (by omega) ho hs h8 (fun _ => hv),
    mctpField_offset (cmd := 1) (by omega) ho, hr]

theorem mctpWrite_of_reg {r : MReg} (hr : MReg.atOffset off.toNat = some r) (hf : r.fam ≠ .claim) :
    let x := s.agentWrite agent r v (sizeMask size.val)
    exec (.mctpWrite src (mctpBody 2 size off v)) s = .next (x.2.send (.mctp agent (if x.1 then 1 else 0) 0)) := by
  have claims : mctpClaims (mctpBody 2 size off v) = false := by
    have : r ≠ ⟨.claim, 0⟩ := fun e => hf (by rw [e])
    simp [mctpClaims, mctpField_offset (cmd := 2) (by omega) ho, hr, this]
  show execMctpWrite _ _ s = _
  simp [execMctpWrite, mctpServed_mono _ hm, mctpField_cmd (cmd := 2) (by omega) ho, mctpBad_body (cmd := 2) (by omega) ho hs h8 (by omega),
    mctpField_offset (cmd := 2) (by omega) ho, mctpField_value (cmd := 2) (by omega) ho, mctpMask_body (cmd := 2) (by omega) ho, hr, State.bmcClaimed, claims]

theorem mctpRead_of_reg (hv : v = 0) {r : MReg} (hr : MReg.atOffset off.toNat = some r) :
    let x := s.agentRead r (sizeMask size.val)
    exec (.mctpRead src (mctpBody 1 size off v)) s = .next (x.2.send (.mctp agent 0 x.1)) := by
  show execMctpRead _ _ s = _
  simp [execMctpRead, hm, mctpField_cmd (cmd := 1) (by omega) ho, mctpBad_body (cmd := 1) (by omega) ho hs h8 (fun _ => hv),
    mctpField_offset (cmd := 1) (by omega) ho, mctpMask_body (cmd := 1) (by omega) ho, hr]

end Served

/-- Settles O37: every access is `agentWrite` or `agentRead` on the register at its offset, however it comes. -/
theorem registerAccessResults : Obligations.RegisterAccessResults := by
  unfold Obligations.RegisterAccessResults
  intro s agent src off size v mask body ask
  have askIs : ask = mctpBody 1 size off 0 := mctpBody_read size off
  refine ⟨odd_access_unsupported s v, fun hr hs h8 => ?_, fun r hr hf => ?_⟩
  · obtain ⟨w, r⟩ := reserved_access s agent v hr hs h8
    exact ⟨w, r, fun hm ho => ⟨mctpWrite_of_reserved hm hs h8 ho hr, askIs ▸ mctpRead_of_reserved hm hs h8 ho rfl hr⟩⟩
  · have notClaim : r.fam ≠ .claim := fun e => hf (by simp [e])
    have notTbase : r.fam ≠ .tbase := fun e => hf (by simp [e])
    have answers := agentRead_answers s agent mask notTbase
    intro old was own cleared shown value written reads may
    refine ⟨fun h => ?_, fun ha h16 hs h8 => ⟨fun h => ?_, fun h => ?_, _, readClear_of_reg s hr hs h8 ha, answers⟩,
      fun hm ho h8 hs => ⟨fun h => ?_, fun h => ?_, _, askIs ▸ mctpRead_of_reg hm hs h8 ho rfl hr, answers⟩⟩
    · have e := ofCycle_of_no_event h
      exact ⟨congrArg Prod.fst e, congrArg Prod.snd e⟩
    · rw [registerWrite_of_reg s v hr hs h8 ha, agentWrite_of_may s v _ h, writeReg_of_plain s agent v _ hf]; rfl
    · rw [registerWrite_of_reg s v hr hs h8 ha, agentWrite_of_not_may s v _ h h16]
    · refine (mctpWrite_of_reg hm hs h8 ho hr notClaim).trans ?_
      rw [agentWrite_of_may s v _ h, writeReg_of_plain s agent v _ hf]; rfl
    · refine (mctpWrite_of_reg hm hs h8 ho hr notClaim).trans ?_
      rw [agentWrite_of_not_may s v _ h (mctpServed_ne_engine hm)]; rfl

end Sys2Proof.Proofs

namespace Sys2Proof.Proofs

open Sys2Proof Sys2Proof.Machine Sys2Proof.Safety Sys2Proof.Laws

/-! ### Bytes after a write -/

theorem mem_read_writeRow {m : Mem} {k : Nat} (data : Row) (mask : BitVec 256) (z : Nat) (h : m.poison.contains k = false) : (m.writeRow k data mask).read z =
    if k ≤ z ∧ z < k + 256 ∧ mask.getLsbD (z - k) = true then BitVec.ofNat 8 (data.toNat / 256 ^ (z - k)) else m.read z := by
  rw [Mem.writeRow, if_neg (by simp only [h]; decide), mem_read_writeLe]
  rfl

theorem storeRow_read {s : State} {k : Nat} (data : Row) (mask : BitVec 256) (z : Nat) (h : s.mem.poison.contains k = false) : (s.storeRow k data mask).mem.read z =
    if k ≤ z ∧ z < k + 256 ∧ mask.getLsbD (z - k) = true then BitVec.ofNat 8 (data.toNat / 256 ^ (z - k)) else s.mem.read z := by
  unfold State.storeRow
  split
  · rename_i empty
    simp [empty]
  · exact mem_read_writeRow data mask z h

theorem byteMask_getLsbD (off n i : Nat) : (byteMask off n).getLsbD i = decide (i < 256 ∧ off ≤ i ∧ i < off + n) := by
  rw [byteMask, BitVec.getLsbD_ofNat, Nat.testBit_mul_two_pow, Nat.testBit_two_pow_sub_one, ← Bool.decide_and, ← Bool.decide_and]
  congr 1
  apply propext
  omega

/-- A byte of a value does not see what is cut off above it. -/
theorem byte_of_mod (v : Nat) {n j : Nat} (h : j < n) : BitVec.ofNat 8 (v % 256 ^ n / 256 ^ j) = BitVec.ofNat 8 (v / 256 ^ j) := by
  have cut : v % 256 ^ n / 256 ^ j = v / 256 ^ j % 256 ^ (n - j) := by
    rw [show 256 ^ n = 256 ^ j * 256 ^ (n - j) by rw [← Nat.pow_add]; congr 1; omega, Nat.mod_mul_right_div_self]
  rw [cut]
  apply BitVec.eq_of_toNat_eq
  rw [BitVec.toNat_ofNat, BitVec.toNat_ofNat]
  exact Nat.mod_mod_of_dvd _ (dvd_pow_self 256 (by omega))

theorem toNat_ofNat_of_two_pow {w m : Nat} (x : Nat) (h : 2 ^ w = m) : (BitVec.ofNat w x).toNat = x % m := by rw [BitVec.toNat_ofNat, h]

/-- Byte j of a value that stands `off` bytes up in a row. -/
theorem rowByte (v : Nat) {off j : Nat} (h : off + j < 256) :
    BitVec.ofNat 8 ((BitVec.ofNat 2048 (v * 256 ^ off)).toNat / 256 ^ (off + j)) = BitVec.ofNat 8 (v / 256 ^ j) := by
  have row : 2 ^ 2048 = 256 ^ (256 - off) * 256 ^ off := by
    rw [← Nat.pow_add, show 256 - off + off = 256 by omega, show 2048 = 8 * 256 from rfl, Nat.pow_mul]
  rw [toNat_ofNat_of_two_pow _ row, Nat.mul_mod_mul_right, Nat.pow_add, ← Nat.div_div_eq_div_mul, Nat.mul_div_cancel _ (by positivity), byte_of_mod v (by omega)]

theorem storeBytes_read {s : State} {a n : Nat} (v z : Nat) (h : a % 256 + n ≤ 256) (hp : s.mem.poisoned a = false) : (s.storeBytes a n v).mem.read z =
    if a ≤ z ∧ z < a + n then BitVec.ofNat 8 (v / 256 ^ (z - a)) else s.mem.read z := by
  rw [State.storeBytes, storeRow_read _ _ _ hp]
  simp only [byteMask_getLsbD, rowOf, decide_eq_true_eq]
  by_cases c : a ≤ z ∧ z < a + n
  · rw [if_pos c, if_pos (by omega), show z - a / 256 * 256 = a % 256 + (z - a) by omega, rowByte _ (by omega), byte_of_mod v (by omega)]
  · rw [if_neg c, if_neg (by omega)]

theorem storeSpan_read {s : State} {a n : Nat} (v z : Nat) (h : a % 256 + n ≤ 256) (hp : s.mem.poisoned a = false) : (s.storeSpan a n v).mem.read z =
    if a ≤ z ∧ z < a + n then BitVec.ofNat 8 (v / 256 ^ (z - a)) else s.mem.read z := by
  rw [State.storeSpan, if_neg (by omega), storeBytes_read v z h hp]

/-- Bytes that are those of a value read as the value. -/
theorem readLe_of_bytes (m : Mem) : ∀ (n a v : Nat), (∀ i < n, m.read (a + i) = BitVec.ofNat 8 (v / 256 ^ i)) → m.readLe a n = v % 256 ^ n := by
  intro n
  induction n with
  | zero => intro a v _; rw [Mem.readLe, Nat.pow_zero, Nat.mod_one]
  | succ n ih =>
    intro a v h
    have rest := ih (a + 1) (v / 256) fun i hi => by
      rw [Nat.div_div_eq_div_mul, ← Nat.pow_succ', ← h (i + 1) (by omega)]
      congr 1; omega
    have lowest := h 0 (by omega)
    rw [Nat.pow_zero, Nat.div_one, Nat.add_zero] at lowest
    rw [Mem.readLe, lowest, rest, BitVec.toNat_ofNat, pow_succ' 256 n, Nat.mod_mul]

/-! ### What reports and rollbacks leave unchanged -/

/-- Two states run the same tasks at the same time: contexts, cores, quads, task queues and clock agree. -/
structure SameTasks (s t : State) : Prop where
  ctxs : t.ctxs = s.ctxs
  cores : t.cores = s.cores
  quads : t.quads = s.quads
  taskQueues : t.taskQueues = s.taskQueues
  tbase : t.tbase = s.tbase
  quarters : t.quarters = s.quarters
  slew : t.slew = s.slew

theorem SameTasks.refl (s : State) : SameTasks s s := by constructor <;> rfl

theorem SameTasks.trans {s t u : State} (h : SameTasks s t) (h' : SameTasks t u) : SameTasks s u :=
  ⟨h'.ctxs.trans h.ctxs, h'.cores.trans h.cores, h'.quads.trans h.quads, h'.taskQueues.trans h.taskQueues, h'.tbase.trans h.tbase,
    h'.quarters.trans h.quarters, h'.slew.trans h.slew⟩

theorem SameTasks.ctx {s t : State} (h : SameTasks s t) (k : Nat) : t.ctx k = s.ctx k := by rw [State.ctx, h.ctxs, State.ctx]

theorem SameTasks.foldl {α : Type} {f : State → α → State} (h : ∀ s x, SameTasks s (f s x)) (l : List α) (s : State) : SameTasks s (l.foldl f s) :=
  List.foldlRecOn (motive := SameTasks s) l f (.refl s) fun t ht x _ => ht.trans (h t x)

theorem sameTasks_storeRow (s : State) (k : Nat) (data : Row) (mask : BitVec 256) : SameTasks s (s.storeRow k data mask) := by
  unfold State.storeRow
  split
  · exact .refl s
  · constructor <;> rfl

theorem sameTasks_storeSpan (s : State) (a n v : Nat) : SameTasks s (s.storeSpan a n v) := by
  unfold State.storeSpan
  simp only
  split
  · exact (sameTasks_storeRow s _ _ _).trans (sameTasks_storeRow _ _ _ _)
  · exact sameTasks_storeRow s _ _ _

theorem sameTasks_writeAt (s : State) (part n v : Nat) (p : Spot) : SameTasks s (s.writeAt part n v p) := by
  cases p with
  | mem k => exact sameTasks_storeSpan s k n v
  | regs off =>
    simp only [State.writeAt]
    split
    · constructor <;> rfl
    · exact .refl s
  | fail _ | absent | link | hold => exact .refl s

theorem sameTasks_event (s : State) (f : MFam) (i hi lo : Nat) (g : Nat → Nat) : SameTasks s (s.event f i hi lo g) := by constructor <;> rfl

theorem sameTasks_parkLink (s : State) (part va : Nat) (w : ParkWork) (width : Nat) : SameTasks s (s.parkLink part va w width) := by
  simp only [State.parkLink]
  split <;> constructor <;> rfl

theorem sameTasks_sibPut (s : State) (n : Nat) (q : CmdQueue) (slots : List Nat) (kind : Nat) : SameTasks s (s.sibPut n q slots kind) :=
  (SameTasks.foldl (fun (t : State) (w : Nat × Nat × Nat) => sameTasks_writeAt t q.part.toNat w.2.1 w.2.2 (t.spotQ n q.part.toNat w.1 2 w.2.1)) _ s).trans
    (by constructor <;> rfl)

theorem sameTasks_sibFlush (n : Nat) : ∀ (fuel : Nat) (s : State), SameTasks s (s.sibFlush n fuel) := by
  intro fuel
  induction fuel with
  | zero => exact fun s => .refl s
  | succ fuel ih =>
    intro s
    simp only [State.sibFlush]
    split
    · exact .refl s
    · split
      · exact .refl s
      · split
        · exact .refl s
        · split
          · exact sameTasks_parkLink s _ _ _ _
          · exact (sameTasks_sibPut s _ _ _ _).trans (ih _)

theorem sameTasks_sibPost (s : State) (n : Nat) (q : CmdQueue) (slots : List Nat) (kind : Nat) : SameTasks s (s.sibPost n q slots kind) :=
  SameTasks.trans (by constructor <;> rfl) (sameTasks_sibFlush n _ _)

theorem sameTasks_modJob (s : State) (j : Nat) (f : Job → Job) : SameTasks s (s.modJob j f) := by
  unfold State.modJob
  split
  · constructor <;> rfl
  · exact .refl s

theorem sameTasks_postTo (s : State) (f : FaultRec) (fq : Option Nat) : SameTasks s (s.postTo f fq) := by
  have named : ∀ (t : State) (lost : Bool), SameTasks t (match f.job with
      | none => t
      | some j => t.modJob j fun x => { x with nfaults := min (x.nfaults + 1) (2 ^ 32 - 1), lost := x.lost || lost }) := by
    intro t lost
    split
    · exact .refl t
    · exact sameTasks_modJob t _ _
  simp only [State.postTo]
  split
  · exact named s true
  · split
    · exact named s true
    · split
      · exact named s true
      · split
        · exact (named s false).trans (sameTasks_sibPost _ _ _ _ _)
        · exact (sameTasks_event s _ _ _ _ _).trans (named _ true)

theorem sameTasks_postFault (s : State) (f : FaultRec) : SameTasks s (s.postFault f) := sameTasks_postTo s f _

theorem sameTasks_disarm (s : State) (w : Word) : SameTasks s (s.disarm w) := by
  unfold State.disarm
  split
  · exact .refl s
  · constructor <;> rfl

theorem sameTasks_undo (s : State) (w : Word) : SameTasks s (s.undo w) := by
  have released : SameTasks s (s.releaseAll w) := .foldl (fun _ _ => by constructor <;> rfl) _ s
  have withdrawn : SameTasks (s.releaseAll w) ((s.releaseAll w).withdraw w) := .foldl (fun _ _ => by constructor <;> rfl) _ _
  exact ((released.trans withdrawn).trans (sameTasks_disarm _ w)).trans (by constructor <;> rfl)

theorem sameTasks_abandonRec (s : State) (part : Nat) (r : ContRec) (info : Nat) : SameTasks s (s.abandonRec part r info) :=
  (sameTasks_undo s r.ticket).trans (sameTasks_postFault _ _)

/-! ### The event ring (R419) -/

/-- The ring takes no event: it has no entry, is full, or port 0 is down. -/
def RingFull (s : State) : Prop :=
  s.fld .eventries 0 16 0 = 0 ∨ (s.fld .evtail 0 31 0 + 2 ^ 32 - s.fld .evhead 0 31 0) % 2 ^ 32 = s.fld .eventries 0 16 0 ∨ s.linkUp = false

/-- Where the next event goes. -/
def ringAt (s : State) : Nat := 2 ^ 51 + s.fld .evbase 0 50 0 + s.fld .evtail 0 31 0 % s.fld .eventries 0 16 0 * 64

theorem enterEvent_of_full {s : State} (bytes : Nat) (h : RingFull s) : s.enterEvent bytes = s.count .evtail 0 63 32 1 := if_pos h

theorem enterEvent_of_room {s : State} (bytes : Nat) (h : ¬ RingFull s) : s.enterEvent bytes =
    (s.writeAt 0 64 bytes (s.spotOf (s.physTarget (ringAt s)) 2 64)).setFld .evtail 0 31 0 (s.fld .evtail 0 31 0 + 1) := if_neg h

theorem sameTasks_enterEvent (s : State) (bytes : Nat) : SameTasks s (s.enterEvent bytes) := by
  by_cases h : RingFull s
  · rw [enterEvent_of_full bytes h]
    exact sameTasks_event s _ _ _ _ _
  · rw [enterEvent_of_room bytes h]
    exact (sameTasks_writeAt s 0 64 bytes _).trans (by constructor <;> rfl)

theorem sameTasks_enterEvents (s : State) : SameTasks s s.enterEvents :=
  have start : SameTasks s { s with evPending := [] } := by constructor <;> rfl
  start.trans (.foldl (fun (t : State) (e : BitVec 16 × Nat) => sameTasks_enterEvent t e.2) s.evPending _)

theorem enterEvents_none {s : State} (h : s.evPending = []) : s.enterEvents.mem = s.mem := by
  rw [State.enterEvents, h]; rfl

theorem enterEvents_one {s : State} {src : BitVec 16} {bytes : Nat} (h : s.evPending = [(src, bytes)]) :
    s.enterEvents = { s with evPending := [] }.enterEvent bytes := by
  rw [State.enterEvents, h]; rfl

/-- Host memory is reached while port 0 is up (R289, R426). -/
theorem spotOf_host {s : State} {a : Nat} (need width : Nat) (lo : 2 ^ 51 ≤ a) (hi : a < 2 ^ 52) (up : s.linkUp = true) :
    s.spotOf (s.physTarget a) need width = .mem a := by
  have target : s.physTarget a = some (.host a) := by
    unfold State.physTarget
    rw [if_neg (by omega), if_neg (by omega), if_neg (by omega), if_neg (by omega), if_pos (by omega)]
  simp [target, State.spotOf, up]

/-- An event that the ring takes stands in its 64 bytes, and TAIL counts it. -/
theorem enterEvent_of_room_results {s : State} (bytes : Nat) (h : ¬ RingFull s) (ha : ringAt s % 64 = 0) (hi : ringAt s < 2 ^ 52)
    (hp : s.mem.poisoned (ringAt s) = false) :
    (s.enterEvent bytes).mem.readLe (ringAt s) 64 = bytes % 256 ^ 64 ∧
    (∀ z, ¬ (ringAt s ≤ z ∧ z < ringAt s + 64) → (s.enterEvent bytes).mem.read z = s.mem.read z) ∧
    (s.enterEvent bytes).fld .evtail 0 31 0 = (s.fld .evtail 0 31 0 + 1) % 2 ^ 32 := by
  have up : s.linkUp = true := by
    rw [← Bool.not_eq_false]
    exact fun e => h (.inr (.inr e))
  rw [enterEvent_of_room bytes h, spotOf_host 2 64 (by unfold ringAt; omega) hi up]
  have bytesAt := fun z => storeSpan_read (s := s) (a := ringAt s) (n := 64) bytes z (by omega) hp
  refine ⟨readLe_of_bytes _ _ _ _ fun i hi => ?_, fun z hz => ?_, fld_setFld_same _ 0 0 _ (by decide) (by decide)⟩
  · refine (bytesAt _).trans ?_
    rw [if_pos (by omega), Nat.add_sub_cancel_left]
  · exact (bytesAt z).trans (if_neg hz)

/-! ### Ticks of the timebase (R3, R422) -/

/-- The Barker's turn touches the gather channels alone. -/
theorem gatherSteps_eq (l : List Nat) (s : State) : ∃ g, l.foldl (fun (s : State) g => s.gatherStep g) s = { s with gather := g } :=
  List.foldlRecOn (motive := fun (t : State) => ∃ g, t = { s with gather := g }) l (fun (s : State) g => s.gatherStep g) ⟨s.gather, rfl⟩ <| by
    rintro t ⟨g, rfl⟩ x -
    exact ⟨_, rfl⟩

/-- Lateness that counts touches the engines and WLATE alone. -/
structure OnlyLate (s t : State) : Prop where
  tasks : SameTasks s t
  mem : t.mem = s.mem
  fld : ∀ f i hi lo, f ≠ .wlate → t.fld f i hi lo = s.fld f i hi lo

theorem OnlyLate.refl (s : State) : OnlyLate s s := ⟨.refl s, rfl, fun _ _ _ _ _ => rfl⟩

theorem OnlyLate.trans {s t u : State} (h : OnlyLate s t) (h' : OnlyLate t u) : OnlyLate s u :=
  ⟨h.tasks.trans h'.tasks, h'.mem.trans h.mem, fun f i hi lo n => (h'.fld f i hi lo n).trans (h.fld f i hi lo n)⟩

theorem onlyLate_lateCycle (s : State) (e : Nat) : OnlyLate s (s.lateCycle e) := by
  refine ⟨by constructor <;> rfl, rfl, fun f i hi lo n => ?_⟩
  rw [State.lateCycle, fld_setFld_ne _ _ _ _ _ n, fld_setFld_ne _ _ _ _ _ n]
  rfl

theorem onlyLate_lateCycles : ∀ (n : Nat) (s : State), OnlyLate s (s.lateCycles n) := by
  intro n
  induction n with
  | zero => exact fun s => .refl s
  | succ n ih =>
    intro s
    have once : OnlyLate s ((s.wheels.map (·.1)).foldl (fun (s : State) e => s.lateCycle e) s) :=
      List.foldlRecOn (motive := OnlyLate s) _ _ (.refl s) fun t h e _ => h.trans (onlyLate_lateCycle t e)
    exact once.trans (ih _)

theorem tget_map {κ α : Type} [DecidableEq κ] (t : List (κ × α)) (f : α → α) (k : κ) : tget (t.map fun e => (e.1, f e.2)) k = (tget t k).map f := by
  simp only [tget, List.find?_map, Option.map_map]
  rfl

theorem ctx_mapCtxs (s : State) {f : Ctx → Ctx} (h : f .reset = .reset) (k : Nat) : (s.mapCtxs f).ctx k = f (s.ctx k) := by
  simp only [State.ctx, State.mapCtxs, tgetD, tget_map]
  cases tget s.ctxs k <;> simp [h]

/-- Time moves on by one nanosecond, and what is held is tried again. -/
def tickOf (u : State) : State :=
  { u with tbase := u.tbase + 1, quarters := u.quarters + (9 - 9 * u.slew).toNat, slew := 0 }.mapCtxs fun c => { c with held := false }

theorem tickOf_ctx (u : State) (k : Nat) : (tickOf u).ctx k = { u.ctx k with held := false } := ctx_mapCtxs _ rfl k

/-- A tick: after the Barker's turn the events of the cycle enter the ring, then time moves on, and lateness counts. -/
theorem timebaseTick_next (s : State) : ∃ g t, exec .timebaseTick s = .next t ∧ OnlyLate (tickOf { s with gather := g }.enterEvents) t := by
  obtain ⟨g, hg⟩ := gatherSteps_eq (s.gather.map (·.1)) s
  refine ⟨g, _, rfl, ?_⟩
  rw [hg]
  exact onlyLate_lateCycles _ _

theorem timebaseTick_results (s : State) : ∃ t, exec .timebaseTick s = .next t ∧ t.tbase = s.tbase + 1 ∧
    t.quarters = s.quarters + (9 - 9 * s.slew).toNat ∧ t.slew = 0 ∧ (s.evPending = [] → t.mem = s.mem) ∧ ∀ k, t.ctx k = { s.ctx k with held := false } := by
  obtain ⟨g, t, run, late⟩ := timebaseTick_next s
  have start : SameTasks s { s with gather := g } := by constructor <;> rfl
  have entered := start.trans (sameTasks_enterEvents _)
  have unwritten : s.evPending = [] → { s with gather := g }.enterEvents.mem = s.mem := fun quiet => enterEvents_none quiet
  generalize { s with gather := g }.enterEvents = u at late entered unwritten
  refine ⟨t, run, late.tasks.tbase.trans (congrArg (· + 1) entered.tbase), late.tasks.quarters.trans ?_, late.tasks.slew,
    fun quiet => late.mem.trans (unwritten quiet), fun k => ?_⟩
  · rw [← entered.quarters, ← entered.slew]; rfl
  · rw [late.tasks.ctx, tickOf_ctx, entered.ctx]

/-- A tick with one event that enters the ring. -/
theorem timebaseTick_one {s : State} {src : BitVec 16} {bytes : Nat} (h : s.evPending = [(src, bytes)]) : ∃ g t, let u := { s with gather := g, evPending := [] }
    exec .timebaseTick s = .next t ∧ t.mem = (u.enterEvent bytes).mem ∧ ∀ hi lo, t.fld .evtail 0 hi lo = (u.enterEvent bytes).fld .evtail 0 hi lo := by
  obtain ⟨g, t, run, late⟩ := timebaseTick_next s
  have one : { s with gather := g }.enterEvents = _ := enterEvents_one h
  refine ⟨g, t, run, ?_, fun hi lo => ?_⟩
  · rw [late.mem, one]; rfl
  · rw [late.fld _ _ _ _ (by decide), one]; rfl

theorem timebaseTick_of_full {s : State} {src : BitVec 16} {bytes : Nat} (h : s.evPending = [(src, bytes)]) (full : RingFull s) :
    ∃ t, exec .timebaseTick s = .next t ∧ t.mem = s.mem ∧ t.fld .evtail 0 31 0 = s.fld .evtail 0 31 0 ∧
      t.fld .evtail 0 63 32 = min (s.fld .evtail 0 63 32 + 1) (2 ^ 32 - 1) := by
  obtain ⟨g, t, run, mem, tail⟩ := timebaseTick_one h
  have dropped := enterEvent_of_full (s := { s with gather := g, evPending := [] }) bytes full
  rw [dropped] at mem tail
  exact ⟨t, run, mem, (tail 31 0).trans (fld_count_other _ 0 1 (by decide) (by decide) (by decide) (by decide)),
    (tail 63 32).trans (fld_count_same _ 0 32 1 (by decide) (by decide))⟩

theorem timebaseTick_of_room {s : State} {src : BitVec 16} {bytes : Nat} (h : s.evPending = [(src, bytes)]) (room : ¬ RingFull s)
    (ha : ringAt s % 64 = 0) (hi : ringAt s < 2 ^ 52) (hp : s.mem.poisoned (ringAt s) = false) :
    ∃ t, exec .timebaseTick s = .next t ∧ t.mem.readLe (ringAt s) 64 = bytes % 256 ^ 64 ∧
      (∀ z, ¬ (ringAt s ≤ z ∧ z < ringAt s + 64) → t.mem.read z = s.mem.read z) ∧ t.fld .evtail 0 31 0 = (s.fld .evtail 0 31 0 + 1) % 2 ^ 32 := by
  obtain ⟨g, t, run, mem, tail⟩ := timebaseTick_one h
  obtain ⟨stands, rest, counts⟩ := enterEvent_of_room_results (s := { s with gather := g, evPending := [] }) bytes room ha hi hp
  rw [← mem] at stands rest
  exact ⟨t, run, stands, rest, (tail 31 0).trans counts⟩

end Sys2Proof.Proofs

namespace Sys2Proof.Proofs

open Sys2Proof Sys2Proof.Machine Sys2Proof.Safety Sys2Proof.Laws

/-! ### Slews and lateness (R306, R307, R422) -/

theorem ptmUpdate_of_linked {s : State} (faster : Bool) (up : s.linkUp = true) (h : ∀ v, s.lastSlew = some v → v + 1000 ≤ s.tbase.toNat) :
    exec (.ptmUpdate faster) s = .next { s with slew := if faster then 1 else -1, lastSlew := some s.tbase.toNat } := by
  show execPtmUpdate faster s = _
  have due : (s.lastSlew.all fun t => decide (t + 1000 ≤ s.tbase.toNat)) = true := by simpa [Option.all_eq_true] using h
  simp [execPtmUpdate, up, due]

theorem ptmUpdate_of_not {s : State} (faster : Bool) (h : s.linkUp = false ∨ ∃ v, s.lastSlew = some v ∧ s.tbase.toNat < v + 1000) :
    exec (.ptmUpdate faster) s = .next s := by
  show execPtmUpdate faster s = _
  rcases h with down | ⟨v, last, early⟩
  · simp [execPtmUpdate, down]
  · simp [execPtmUpdate, last, early]

/-- The level that WLATE shows does not change what it is reckoned from. -/
theorem wheelLevel_setLevel (s : State) (e v : Nat) : (s.setFld .wlate e 58 56 v).wheelLevel e = s.wheelLevel e := by
  simp only [State.wheelLevel, fld_setFld_other s e v (show MFam.wlate ≠ .tbase by decide) (show 56 ≤ 58 + 1 by decide) (show 55 < 64 by decide) (.inr (by decide)),
    fld_setFld_ne s e 58 56 v (show MFam.wthr0 ≠ .wlate by decide), fld_setFld_ne s e 58 56 v (show MFam.wthr1 ≠ .wlate by decide)]

theorem wheelLevel_lt (s : State) (e : Nat) : s.wheelLevel e < 2 ^ (58 + 1 - 56) :=
  Nat.lt_of_le_of_lt (List.length_filter_le _ _) (by simp)

theorem lateCycle_results (s : State) (e : Nat) : ((s.lateCycle e).wheel e).added = 0 ∧
    (s.lateCycle e).fld .wlate e 55 0 = min (s.fld .wlate e 55 0 - s.fld .wthr1 e 63 48 + (s.wheel e).added) (2 ^ 56 - 1) ∧
    (s.lateCycle e).fld .wlate e 58 56 = (s.lateCycle e).wheelLevel e := by
  refine ⟨?_, ?_, ?_⟩
  · have emptied : (s.lateCycle e).wheel e = { s.wheel e with added := 0 } := tgetD_tset_same _ _ _ _
    rw [emptied]
  · rw [State.lateCycle, fld_setFld_other _ _ _ (by decide) (by decide) (by decide) (by decide), fld_setFld_of_lt _ _ (by decide) (by decide) (by omega)]
  · rw [State.lateCycle, wheelLevel_setLevel, fld_setFld_of_lt _ _ (by decide) (by decide) (wheelLevel_lt _ _)]

/-! ### The watchdog's trap (R391, R398) -/

/-- A context as its trap handler finds it. -/
def enterHandler (cause : Cause) (fslots islots : Nat) (saved : Offset) (c : Ctx) : Ctx :=
  { c with
    epc := saved, exfer := c.xfer, xfer := 0, estat := BitVec.ofNat 26 (cause.toNat + fslots % 256 * 256 + islots % 256 * 65536)
    sup := true, wait := .none, seq := false, begun := false, pc := c.trapvec }

/-- With a handler, and its record written, a trap enters the handler. -/
theorem takeTrap_of_written {s u : State} {key : Nat} (cause : Cause) (fslots islots : Nat) (pc saved : Offset) (faddr : Word) (info : BitVec 32)
    (user : (s.ctx key).sup = false) (vec : (s.ctx key).trapvec ≠ 0)
    (h : s.writeTrapRecord key ((s.ctx key).traparea.toNat / 128 * 128) (trapRecord (s.ctx key) key cause fslots islots false pc faddr info s.tbase) = some u) :
    s.takeTrap key cause fslots islots pc saved faddr info = u.modCtx key (enterHandler cause fslots islots saved) := by
  simp only [State.takeTrap, user, vec, h, decide_false, Bool.or_self, Bool.false_eq_true, if_false]
  rfl

theorem writeTrapRecord_of_reach {s : State} {key a at_ : Nat} (rec : Nat) (reach : s.reach (s.ctx key).part.toNat (quadOf key) at_ = .ok a)
    (free : s.journal? (s.ctx key).ticket = none) : s.writeTrapRecord key at_ rec =
      some ((s.touch a).storeRow (localKey (rowOf a)) (BitVec.ofNat 2048 (rec * 256 ^ (a % 256))) (byteMask (a % 256) 64)) := by
  simp only [State.writeTrapRecord, reach, State.writeC, free]

theorem rowOf_localKey (a : Nat) : rowOf (localKey a) = localKey (rowOf a) := by
  unfold rowOf localKey; omega

/-- The first byte of what is stored at a local address. -/
theorem storeRow_read_first {s : State} {a n : Nat} (v : Nat) (hn : 0 < n) (hp : s.mem.poisoned (localKey a) = false) :
    (s.storeRow (localKey (rowOf a)) (BitVec.ofNat 2048 (v * 256 ^ (a % 256))) (byteMask (a % 256) n)).mem.read (localKey a) = BitVec.ofNat 8 v := by
  have offset : localKey a - localKey (rowOf a) = a % 256 + 0 := by unfold localKey rowOf; omega
  have row : s.mem.poison.contains (localKey (rowOf a)) = false := by rw [← rowOf_localKey]; exact hp
  rw [storeRow_read _ _ _ row, offset]
  simp only [byteMask_getLsbD, decide_eq_true_eq]
  rw [if_pos (by unfold localKey rowOf; omega), rowByte v (by omega), Nat.pow_zero, Nat.div_one]

/-- A trap record begins with its cause (R392). -/
theorem trapRecord_cause (c : Ctx) (key : Nat) (cause : Cause) (fslots islots : Nat) (double : Bool) (pc : Offset) (faddr : Word) (info : BitVec 32) (time : Word) :
    BitVec.ofNat 8 (trapRecord c key cause fslots islots double pc faddr info time) = cause := by
  apply BitVec.eq_of_toNat_eq
  have := cause.isLt
  rw [trapRecord, pack, BitVec.toNat_ofNat]
  omega

theorem watchdogDue_user {s : State} {key : Nat} (h : s.watchdogDue key = true) : (s.ctx key).sup = false := by
  simp only [State.watchdogDue, decide_eq_true_eq] at h
  exact h.2.2.1

theorem nextBundle_of_not_seq {s : State} {key : Nat} (h : (s.ctx key).seq = false) : s.nextBundle key = (s.ctx key).pc := by
  simp [State.nextBundle, h]

theorem watchdog_of_not_due {s : State} {core : Fin 128} {ctx : Fin 8} (ready : (s.ctx (core.val * 8 + ctx.val)).wait = .none)
    (h : s.watchdogDue (core.val * 8 + ctx.val) = false) : exec (.watchdog core ctx) s = .next s := by
  show execWatchdog core ctx s = _
  simp [execWatchdog, ready, h]

theorem watchdog_of_due {s : State} {core : Fin 128} {ctx : Fin 8} (ready : (s.ctx (core.val * 8 + ctx.val)).wait = .none)
    (h : s.watchdogDue (core.val * 8 + ctx.val) = true) : exec (.watchdog core ctx) s = .next (s.watchdogTrap (core.val * 8 + ctx.val)) := by
  show execWatchdog core ctx s = _
  simp [execWatchdog, ready, h]

/-- The trap of a watchdog that has run out, where the trap area can be written: its state is the handler's, its record begins with the cause, and no other context changes. -/
theorem watchdogTrap_results {s : State} {key a : Nat} (due : s.watchdogDue key = true) (seq : (s.ctx key).seq = false) (vec : (s.ctx key).trapvec ≠ 0)
    (free : s.journal? (s.ctx key).ticket = none)
    (reach : s.reach (s.ctx key).part.toNat (quadOf key) ((s.ctx key).traparea.toNat / 128 * 128) = .ok a) (hp : s.mem.poisoned (localKey a) = false) :
    (s.watchdogTrap key).ctx key = enterHandler cWatchdog 0 0 (s.ctx key).pc (s.ctx key) ∧ (s.watchdogTrap key).mem.read (localKey a) = cWatchdog ∧
      SameOthers s (s.watchdogTrap key) key := by
  have taken : s.watchdogTrap key = _ := takeTrap_of_written cWatchdog 0 0 (s.nextBundle key) (s.nextBundle key) 0 0 (watchdogDue_user due) vec
    (writeTrapRecord_of_reach _ reach free)
  rw [nextBundle_of_not_seq seq] at taken
  rw [taken]
  have kept := fun data mask => (sameTasks_storeRow (s.touch a) (localKey (rowOf a)) data mask).ctx
  refine ⟨?_, ?_, fun k other => ?_⟩
  · rw [ctx_modCtx_same, kept]; rfl
  · rw [State.modCtx, setCtx_mem, storeRow_read_first (s := s.touch a) (n := 64) _ (by decide) hp, trapRecord_cause]
  · rw [ctx_modCtx_ne _ _ other, kept]; rfl

/-! ### ECC errors (R412) -/

theorem eccError_corrected (s : State) (site : EccSite) : exec (.eccError site true) s = .next (s.count .eccstat 0 31 0 1) := rfl

theorem eccError_uncorrected (s : State) (site : EccSite) : exec (.eccError site false) s = .next ((s.count .eccstat 0 63 32 1).uncorrected site) := rfl

theorem mem_poisoned_setPoison (m : Mem) (k b : Nat) : (m.setPoison k).poisoned b = (decide (rowOf b = k) || m.poisoned b) := by
  rw [Bool.eq_iff_iff]
  simp only [Mem.poisoned, Mem.setPoison, List.contains_iff_mem, mem_insertNat, Bool.or_eq_true, decide_eq_true_eq]

theorem eccError_row {s : State} {a : Nat} (h : onPackage a = true) : ∃ t, exec (.eccError (.row a) false) s = .next t ∧ t.mem = s.mem.setPoison (rowOf a) ∧
    t.fld .eccstat 0 63 32 = min (s.fld .eccstat 0 63 32 + 1) (2 ^ 32 - 1) := by
  refine ⟨_, eccError_uncorrected s _, ?_⟩
  rw [State.uncorrected, if_pos h]
  exact ⟨rfl, fld_count_same s 0 32 1 (by decide) (by decide)⟩

theorem eccError_record {s : State} {part : Fin 16} {level : Fin 32} {n : Nat} {r : ContRec × Option Nat}
    (h : (tgetD s.taskQueues (queueKey part.val level.val) [])[n]? = some r) : ∃ t, exec (.eccError (.record part level n) false) s = .next t ∧
      tgetD t.taskQueues (queueKey part.val level.val) [] = (tgetD s.taskQueues (queueKey part.val level.val) []).eraseIdx n ∧ t.ctxs = s.ctxs := by
  refine ⟨_, eccError_uncorrected s _, ?_⟩
  have counted := sameTasks_event s .eccstat 0 63 32 fun x => min (x + 1) (2 ^ (63 + 1 - 32) - 1)
  have listed : (tgetD (s.count .eccstat 0 63 32 1).taskQueues (queueKey part.val level.val) [])[n]? = some r := h
  simp only [State.uncorrected, State.badRecord, listed]
  have abandoned := fun t : State => sameTasks_abandonRec t part.val r.1 cPoison.toNat
  refine ⟨?_, (abandoned _).ctxs.trans counted.ctxs⟩
  rw [(abandoned _).taskQueues, tgetD_tset_same]
  rfl

theorem getLsbD_setBit_true {n : Nat} (x : BitVec n) {i : Nat} (h : i < n) : (setBit x i true).getLsbD i = true := by
  rw [setBit, if_pos rfl, BitVec.getLsbD_or, BitVec.getLsbD_ofNat, Nat.testBit_two_pow_self, decide_eq_true h, Bool.and_true, Bool.or_true]

theorem eccError_scalar (s : State) (core : Fin 128) (ctx : Fin 8) {r : Fin 64} (h : r ≠ 0) : ∃ t, exec (.eccError (.scalar core ctx r) false) s = .next t ∧
    (t.ctx (core.val * 8 + ctx.val)).poisonedReg (.s r) = true ∧
    ∀ x, (t.ctx (core.val * 8 + ctx.val)).getS x = (s.ctx (core.val * 8 + ctx.val)).getS x := by
  refine ⟨_, eccError_uncorrected s _, ?_⟩
  rw [State.uncorrected, ctx_modCtx_same, if_neg h]
  refine ⟨?_, fun x => rfl⟩
  rw [Ctx.poisonedReg, getLsbD_setBit_true _ r.isLt, Bool.and_true, decide_eq_true h]

/-! ### Power and cooling (R434 to R436) -/

theorem plevel_setLevel (s : State) {v : Nat} (h : v < 8) : (s.setFld .pwrstat 0 18 16 v).plevel = v := fld_setFld_of_lt s 0 (by decide) (by decide) h

/-- The power level after a window of an average input power under a cap. -/
def levelAfter (s : State) (avg cap : Nat) : Nat :=
  if s.hot ≠ [] then 7 else if cap = 0 then 0 else if cap < avg then min 7 (s.plevel + 1) else if avg * 100 < cap * 95 then s.plevel - 1 else s.plevel

theorem levelAfter_lt (s : State) (avg cap : Nat) : levelAfter s avg cap < 8 := by
  have : s.plevel < 2 ^ 3 := fld_lt s .pwrstat 0 18 16
  unfold levelAfter
  split
  · omega
  · split
    · omega
    · split
      · omega
      · split <;> omega

/-- PWRSTAT after a window, and the cap in force from then on. -/
def windowed (s : State) (avg level cap : Nat) : State := { (s.setFld .pwrstat 0 15 0 avg).setFld .pwrstat 0 18 16 level with capInForce := cap }

theorem windowed_fld (s : State) (avg level cap hi lo : Nat) :
    (windowed s avg level cap).fld .pwrstat 0 hi lo = ((s.setFld .pwrstat 0 15 0 avg).setFld .pwrstat 0 18 16 level).fld .pwrstat 0 hi lo := rfl

theorem powerWindow_next (s : State) (avg : BitVec 16) :
    exec (.powerWindow avg) s = .next (windowed s avg.toNat (levelAfter s avg.toNat (s.fld .pwrcap 0 15 0)) (s.fld .pwrcap 0 15 0)) := rfl

theorem powerWindow_results (s : State) (avg : BitVec 16) : ∃ t, exec (.powerWindow avg) s = .next t ∧ t.fld .pwrstat 0 15 0 = avg.toNat ∧
    t.capInForce = s.fld .pwrcap 0 15 0 ∧ t.plevel = levelAfter s avg.toNat (s.fld .pwrcap 0 15 0) := by
  refine ⟨_, powerWindow_next s avg, ?_, rfl, ?_⟩
  · rw [windowed_fld, fld_setFld_other _ 0 _ (by decide) (by decide) (by decide) (by decide), fld_setFld_of_lt s 0 (by decide) (by decide) avg.isLt]
  · rw [State.plevel, windowed_fld, ← State.plevel, plevel_setLevel _ (levelAfter_lt s _ _)]

/-- The level under a cap, without a hot die: above the cap, below 95 percent of it, and between. -/
theorem levelAfter_of_cap {s : State} {avg cap : Nat} (cool : s.hot = []) (h : cap ≠ 0) : (cap < avg → levelAfter s avg cap = min 7 (s.plevel + 1)) ∧
    (avg * 100 < cap * 95 → levelAfter s avg cap = s.plevel - 1) ∧ (avg ≤ cap → cap * 95 ≤ avg * 100 → levelAfter s avg cap = s.plevel) := by
  refine ⟨fun above => ?_, fun below => ?_, fun le ge => ?_⟩
  · simp [levelAfter, cool, h, above]
  · simp [levelAfter, cool, h, below, show ¬ cap < avg by omega]
  · simp [levelAfter, cool, h, show ¬ cap < avg by omega, show ¬ avg * 100 < cap * 95 by omega]

theorem halt_of_alive {s : State} (h : s.halted = false) : s.halt = { s with halted := true, outbox := s.outbox ++ [(none, .halt)] } := by
  simp [State.halt, h, State.send]

theorem halt_of_halted {s : State} (h : s.halted = true) : s.halt = s := by simp [State.halt, h]

theorem halt_results (s : State) : s.halt.hot = s.hot ∧ s.halt.plevel = s.plevel ∧ s.halt.halted = true ∧
    s.halt.outbox = s.outbox ++ if s.halted = false then [(none, .halt)] else [] := by
  cases h : s.halted
  · rw [halt_of_alive h]; exact ⟨rfl, rfl, rfl, rfl⟩
  · rw [halt_of_halted h]; exact ⟨rfl, rfl, h, by simp⟩

/-- A die that is too hot: the level is forced. -/
def forced (s : State) (die : Fin 4) : State := { s with hot := insertNat s.hot die.val }.setFld .pwrstat 0 18 16 7

theorem thermalTrip_of_hot (s : State) (die : Fin 4) {celsius : Nat} (h : 105 ≤ celsius) :
    exec (.thermalTrip die celsius) s = .next (if 120 ≤ celsius then (forced s die).halt else forced s die) := by
  show execThermalTrip die celsius s = _
  rw [execThermalTrip, if_neg (by omega)]
  rfl

theorem thermalTrip_of_cool (s : State) (die : Fin 4) {celsius : Nat} (h : celsius < 105) : exec (.thermalTrip die celsius) s = .next s := by
  show execThermalTrip die celsius s = _
  rw [execThermalTrip, if_pos h]

theorem thermalTrip_results (s : State) (die : Fin 4) {celsius : Nat} (h : 105 ≤ celsius) : ∃ t, exec (.thermalTrip die celsius) s = .next t ∧
    die.val ∈ t.hot ∧ t.plevel = 7 ∧ t.halted = (s.halted || decide (120 ≤ celsius)) ∧
    t.outbox = s.outbox ++ if s.halted = false ∧ 120 ≤ celsius then [(none, .halt)] else [] := by
  refine ⟨_, thermalTrip_of_hot s die h, ?_⟩
  have listed : die.val ∈ (forced s die).hot := mem_insertNat.mpr (.inl rfl)
  have level : (forced s die).plevel = 7 := plevel_setLevel _ (by decide)
  split
  · rename_i melting
    obtain ⟨hot, plevel, halted, outbox⟩ := halt_results (forced s die)
    refine ⟨hot ▸ listed, plevel.trans level, by simp [halted, melting], outbox.trans ?_⟩
    simp only [melting, and_true]
    rfl
  · rename_i bearable
    refine ⟨listed, level, ?_, ?_⟩ <;> simp [bearable, forced, State.setFld]

theorem thermalRelease_of_not (s : State) (die : Fin 4) {celsius : Nat} (h : 100 ≤ celsius ∨ die.val ∉ s.hot) : exec (.thermalRelease die celsius) s = .next s := by
  show execThermalRelease die celsius s = _
  rw [execThermalRelease, if_pos (by simpa using h)]

/-- A die that is cool again. -/
def cooled (s : State) (die : Fin 4) : State := { s with hot := s.hot.filter fun d => decide (d ≠ die.val) }

theorem thermalRelease_of_hot {s : State} {die : Fin 4} {celsius : Nat} (h : celsius < 100) (hot : die.val ∈ s.hot) : exec (.thermalRelease die celsius) s =
    .next (if (cooled s die).hot = [] ∧ s.capInForce = 0 then (cooled s die).setFld .pwrstat 0 18 16 0 else cooled s die) := by
  show execThermalRelease die celsius s = _
  rw [execThermalRelease, if_neg (by simp [hot]; omega)]
  rfl

theorem thermalRelease_results (s : State) (die : Fin 4) {celsius : Nat} (h : celsius < 100) (hot : die.val ∈ s.hot) :
    ∃ t, exec (.thermalRelease die celsius) s = .next t ∧ die.val ∉ t.hot ∧ (t.hot = s.hot.filter fun d => decide (d ≠ die.val)) ∧
      t.plevel = if t.hot = [] ∧ s.capInForce = 0 then 0 else s.plevel := by
  have left : die.val ∉ (cooled s die).hot := by simp [cooled]
  have run := thermalRelease_of_hot h hot
  by_cases free : (cooled s die).hot = [] ∧ s.capInForce = 0
  · rw [if_pos free] at run
    exact ⟨_, run, left, rfl, (plevel_setLevel _ (by decide)).trans (if_pos free).symm⟩
  · rw [if_neg free] at run
    refine ⟨_, run, left, rfl, ?_⟩
    rw [if_neg free]
    rfl

theorem powerAlarm_results (s : State) : ∃ t, exec .powerAlarm s = .next t ∧ t.fld .pwrstat 0 19 19 = 1 ∧ t.plevel = s.plevel :=
  ⟨_, rfl, fld_setFld_of_lt s 0 (by decide) (by decide) Nat.one_lt_two, fld_setFld_other s 0 1 (by decide) (by decide) (by decide) (by decide)⟩

/-- Settles O52, one lemma for each thing that happens. -/
theorem timeAndHardwareResults : Obligations.TimeAndHardwareResults := by
  unfold Obligations.TimeAndHardwareResults
  intro s e core ctx faster avg celsius key c cap tail n
  refine ⟨timebaseTick_results s, fun src bytes pending => ⟨timebaseTick_of_full pending, timebaseTick_of_room pending⟩, ptmUpdate_of_linked faster,
    ptmUpdate_of_not faster, ⟨_, rfl, lateCycle_results s e.val⟩, watchdog_of_not_due, fun a ready due seq vec free reach hp => ?_,
    fun site => ⟨_, eccError_corrected s site, fld_count_same s 0 0 1 (by decide) (by decide), fld_count_other s 0 1 (by decide) (by decide) (by decide) (by decide),
      rfl, rfl, rfl, rfl⟩,
    fun a onPkg => ?_, fun part level n r => eccError_record, fun r => eccError_scalar s core ctx, ?_, thermalTrip_results s e, thermalTrip_of_cool s e,
    thermalRelease_results s e, thermalRelease_of_not s e, fun alive => congrArg _ (halt_of_alive alive), fun halted => congrArg _ (halt_of_halted halted),
    powerAlarm_results s⟩
  · obtain ⟨entered, cause, others⟩ := watchdogTrap_results due seq vec free reach hp
    refine ⟨_, watchdog_of_due ready due, ?_⟩
    rw [entered]
    exact ⟨rfl, rfl, rfl, rfl, rfl, rfl, cause, others⟩
  · obtain ⟨t, run, mem, counted⟩ := eccError_row onPkg (s := s)
    refine ⟨t, run, ?_, counted, fun b => by rw [mem]; rfl, fun b other => ?_⟩
    · rw [mem, mem_poisoned_setPoison]; simp
    · rw [mem, mem_poisoned_setPoison]; simp [other]
  · obtain ⟨t, run, shown, inForce, level⟩ := powerWindow_results s avg
    refine ⟨t, run, shown, inForce, fun hot => level.trans (if_pos hot), fun cool noCap => ?_, fun cool capped => ?_⟩
    · rw [level, levelAfter, if_neg (by simp [cool]), if_pos noCap]
    · rw [level]
      exact levelAfter_of_cap cool capped

end Sys2Proof.Proofs

namespace Sys2Proof.Proofs

open Sys2Proof Sys2Proof.Machine Sys2Proof.Safety Sys2Proof.Laws

/-! ### Suspension points (R137, R138, R147) -/

theorem ready_nil (s : State) : Ready s [] [] := ⟨by simp, by simp⟩

theorem taskControl_of_user {s : State} (user : s.issue.src.sup = false) (f : State → State) : s.taskControl f = f s := by simp [State.taskControl, user]

theorem taskControl_of_super {s : State} (super : s.issue.src.sup = true) (f : State → State) : s.taskControl f = s.trapSlot cPriv 0 0 := by
  simp [State.taskControl, super]

theorem writeOut_of_full {s : State} {key : Nat} (pc : Offset) (full : ((List.range 6).all fun i => (s.ctx key).sFull.getLsbD (i + 1)) = true) :
    s.writeOut key pc = ((s.pushRec (s.ctx key).part.toNat ((s.ctx key).record pc)).carry key false).leaveCtx key := if_pos full

theorem writeOut_of_not_full {s : State} {key : Nat} (pc : Offset) (lacks : ((List.range 6).all fun i => (s.ctx key).sFull.getLsbD (i + 1)) = false) :
    s.writeOut key pc = s := if_neg (by rw [lacks]; decide)

theorem suspendNow_of_nextAt {s : State} {o : Offset} (h : NextAt s o) :
    s.suspendNow = (s.own fun c => { c with wait := .suspend o, pc := o }).writeOut s.issue.key o := by
  unfold NextAt at h
  simp only [State.suspendNow, h]

theorem suspend_of_task {s : State} (user : s.issue.src.sup = false) (alone : s.issue.src.logical = 0xFF) : exec .suspend s = .next s.suspendNow := by
  change Host.Outcome.next _ = _
  rw [taskControl_of_user user, if_neg (by simp [State.inTeam, alone]), slot_of_ready (ready_nil s)]

theorem suspend_of_team {s : State} (user : s.issue.src.sup = false) (team : s.issue.src.logical ≠ 0xFF) :
    exec .suspend s = .next (s.trapSlot cPriv 0 0) := by
  change Host.Outcome.next _ = _
  rw [taskControl_of_user user, show s.inTeam = true from decide_eq_true team, if_pos rfl]

theorem suspend_of_super {s : State} (super : s.issue.src.sup = true) : exec .suspend s = .next (s.trapSlot cPriv 0 0) :=
  congrArg Host.Outcome.next (taskControl_of_super super _)

theorem yield_of_user {s : State} (user : s.issue.src.sup = false) :
    exec .yield s = .next (if !s.inTeam && s.otherWork s.issue.key s.issue.src.prio.toNat then s.suspendNow else s) := by
  change Host.Outcome.next _ = _
  rw [taskControl_of_user user, slot_of_ready (ready_nil s)]

theorem yield_of_super {s : State} (super : s.issue.src.sup = true) : exec .yield s = .next (s.trapSlot cPriv 0 0) :=
  congrArg Host.Outcome.next (taskControl_of_super super _)

/-- A YIELD of a task outside a team, while other work waits, is a SUSPEND. -/
theorem yield_of_otherWork {s : State} (user : s.issue.src.sup = false) (alone : s.issue.src.logical = 0xFF)
    (leaves : s.otherWork s.issue.key s.issue.src.prio.toNat = true) : exec .yield s = exec .suspend s := by
  rw [yield_of_user user, suspend_of_task user alone, leaves, if_pos (by simp [State.inTeam, alone])]

theorem yield_of_no_work {s : State} (user : s.issue.src.sup = false) (stays : s.otherWork s.issue.key s.issue.src.prio.toNat = false) :
    exec .yield s = .next s := by
  rw [yield_of_user user, stays, if_neg (by simp)]

theorem yield_of_team {s : State} (user : s.issue.src.sup = false) (team : s.issue.src.logical ≠ 0xFF) : exec .yield s = .next s := by
  rw [yield_of_user user, show s.inTeam = true from decide_eq_true team]
  rfl

/-! ### The end of a task (R29, R139, R361, R415) -/

/-- Two states agree on what the root of a job is reached through: memory, jobs, translations and the lines that the host may hold. -/
structure SameRoots (s t : State) : Prop where
  mem : t.mem = s.mem
  jobs : t.jobs = s.jobs
  pages : t.pages = s.pages
  hostLines : t.hostLines = s.hostLines

theorem SameRoots.trans {s t u : State} (h : SameRoots s t) (h' : SameRoots t u) : SameRoots s u :=
  ⟨h'.mem.trans h.mem, h'.jobs.trans h.jobs, h'.pages.trans h.pages, h'.hostLines.trans h.hostLines⟩

theorem SameRoots.job {s t : State} (h : SameRoots s t) (n : Nat) : t.job? n = s.job? n := by rw [State.job?, h.jobs, State.job?]

theorem SameRoots.pageOf {s t : State} (h : SameRoots s t) (part va : Nat) : t.pageOf part va = s.pageOf part va := by
  rw [State.pageOf, h.pages, State.pageOf]

theorem SameRoots.linesHeld {s t : State} (h : SameRoots s t) (k n : Nat) : t.linesHeld k n = s.linesHeld k n := by
  rw [State.linesHeld, h.hostLines, State.linesHeld]

theorem sameRoots_releaseAll (s : State) (w : Word) : SameRoots s (s.releaseAll w) := by constructor <;> rfl

theorem disarm_of_bare {s : State} {w : Word} (bare : s.journal? w = none) : s.disarm w = s := by rw [State.disarm, bare]

/-- The state at step 5 of R361: granules released, deferred commands emitted, the journal disarmed and the wound gone. -/
def relieved (s : State) (key : Nat) : State :=
  let c := s.ctx key
  let work := ((s.journal? c.ticket).map (·.deferred)).getD []
  let u := ((work.foldl (fun s d => s.emit c d) (s.releaseAll c.ticket)).disarm c.ticket).modCtx key fun c => { c with cflags := c.cflags &&& 0xE }
  { u with wounds := u.wounds.filter fun w => decide (w ≠ c.ticket) }

theorem retire_eq (s : State) (key : Nat) : s.retire key =
    if (s.ctx key).cflags.getLsbD 2 then (relieved s key).freeCtx key
    else match (((relieved s key).job? (s.ctx key).job.toNat).map (relieved s key).rootHeld).getD [] with
      | [] => ((relieved s key).rootAdd (s.ctx key).job.toNat (s.ctx key).wexp.toNat (s.ctx key).ticket).freeCtx key
      | l => (relieved s key).snoop l := rfl

/-- A task that is no handler retires: its share goes to the root of its job, whose lines the host does not hold, and its context becomes free. -/
theorem retire_of_task {s : State} {key : Nat} {j : Job} (user : (s.ctx key).cflags.getLsbD 2 = false)
    (job : (relieved s key).job? (s.ctx key).job.toNat = some j) (free : (relieved s key).rootHeld j = []) :
    s.retire key = ((relieved s key).rootAdd (s.ctx key).job.toNat (s.ctx key).wexp.toNat (s.ctx key).ticket).freeCtx key := by
  rw [retire_eq, user, if_neg (by decide), job, Option.map_some, Option.getD_some, free]

/-- A task without a journal has nothing to emit. -/
theorem relieved_of_bare {s : State} {key : Nat} (bare : s.journal? (s.ctx key).ticket = none) :
    SameRoots s (relieved s key) ∧ ((relieved s key).ctx key).armed = (s.ctx key).armed := by
  have disarmed := disarm_of_bare (s := s.releaseAll (s.ctx key).ticket) bare
  have ctx : (relieved s key).ctx key = { s.ctx key with cflags := (s.ctx key).cflags &&& 0xE } := by
    simp only [relieved, bare, Option.map_none, Option.getD_none, List.foldl_nil, disarmed]
    exact ctx_modCtx_same (s.releaseAll (s.ctx key).ticket) key fun c => { c with cflags := c.cflags &&& 0xE }
  refine ⟨?_, by rw [ctx]⟩
  simp only [relieved, bare, Option.map_none, Option.getD_none, List.foldl_nil, disarmed]
  constructor <;> rfl

theorem freeCtx_of_unarmed {s : State} {key : Nat} (h : (s.ctx key).armed = none) : ((s.freeCtx key).ctx key).life = .free ∧ (s.freeCtx key).mem = s.mem := by
  simp [State.freeCtx, h]

theorem ctx_of_ctxs {s t : State} (h : t.ctxs = s.ctxs) (k : Nat) : t.ctx k = s.ctx k := by rw [State.ctx, h, State.ctx]

/-- A context once a job has completed: an armed one of the job is no longer armed, and a dormant one is free (R142). -/
def disarmedBy (job : Nat) (c : Ctx) : Ctx :=
  if c.armed.isSome && decide (c.job.toNat = job) then (if c.life = .dormant then { c with armed := none, life := .free } else { c with armed := none }) else c

theorem disarmedBy_of_unarmed {job : Nat} {c : Ctx} (h : c.armed = none) : disarmedBy job c = c := by simp [disarmedBy, h]

theorem releaseHandlers_ctx {s : State} {job key : Nat} (h : (s.ctx key).armed = none) : (s.releaseHandlers job).ctx key = s.ctx key :=
  calc (s.releaseHandlers job).ctx key
      = (s.mapCtxs (disarmedBy job)).ctx key := ctx_of_ctxs rfl key
    _ = disarmedBy job (s.ctx key) := ctx_mapCtxs s (disarmedBy_of_unarmed rfl) key
    _ = s.ctx key := disarmedBy_of_unarmed h

theorem modJob_ctxs (s : State) (job : Nat) (f : Job → Job) : (s.modJob job f).ctxs = s.ctxs := (sameTasks_modJob s job f).ctxs

theorem modJob_mem (s : State) (job : Nat) (f : Job → Job) : (s.modJob job f).mem = s.mem := by
  unfold State.modJob
  split <;> rfl

/-- A share that reaches the root of a job is added to W, and no context that is not armed changes (R29, R30). -/
theorem rootAdd_of_mapped {s : State} {job : Nat} {j : Job} {p : PageMap} (wexp : Nat) (ticket : Word) (slot : s.job? job = some j)
    (page : s.pageOf j.part j.root = some p) (perm : p.perm.toNat &&& 6 = 6) (inside : p.pa + (j.root - p.va) < 0x3000000000)
    (clean : s.mem.poisoned (p.pa + (j.root - p.va)) = false) (free : s.linesHeld (p.pa + (j.root - p.va)) 16 = []) :
    (s.rootAdd job wexp ticket).mem =
      (s.storeBytes (p.pa + (j.root - p.va)) 16 ((s.mem.readLe (p.pa + (j.root - p.va)) 16 + 2 ^ (64 - wexp)) % 2 ^ 128)).mem ∧
    ∀ key, (s.ctx key).armed = none → ((s.rootAdd job wexp ticket).ctx key).armed = none := by
  have reached : ¬ (p.perm.toNat &&& 6 ≠ 6 ∨ ¬ p.pa + (j.root - p.va) < 0x3000000000) := by simp [perm, inside]
  simp only [State.rootAdd, slot, page, if_neg reached, clean, free, List.isEmpty_nil, Bool.not_true, Bool.false_eq_true, if_false]
  have stays : ∀ w key, (s.storeBytes (p.pa + (j.root - p.va)) 16 w).ctx key = s.ctx key := fun w => (sameTasks_storeRow s _ _ _).ctx
  generalize (s.mem.readLe (p.pa + (j.root - p.va)) 16 + 2 ^ (64 - wexp)) % 2 ^ 128 = w
  specialize stays w
  generalize s.storeBytes (p.pa + (j.root - p.va)) 16 w = u at stays
  split
  · refine ⟨(modJob_mem _ _ _).trans (modJob_mem _ _ _), fun key unarmed => ?_⟩
    have kept : ∀ f g, ((u.modJob job f).modJob job g).ctx key = s.ctx key := fun f g =>
      (ctx_of_ctxs ((modJob_ctxs _ _ _).trans (modJob_ctxs _ _ _)) key).trans (stays key)
    refine (congrArg Ctx.armed (releaseHandlers_ctx (job := job) ?_)).trans ?_ <;> rw [kept, unarmed]
  · exact ⟨modJob_mem _ _ _, fun key unarmed => by rw [ctx_of_ctxs (modJob_ctxs u job _) key, stays, unarmed]⟩

/-- END of a user's task that holds nothing and has nothing outstanding retires it at once. -/
theorem finishEnd_of_idle {s : State} {key : Nat} (sent : (s.ctx key).outstanding = []) (landed : (s.ctx key).inflight = [])
    (bare : s.journal? (s.ctx key).ticket = none) : s.finishEnd key = s.retire key := by
  have drained : (s.ctx key).drained 0x01 = true := by simp [Ctx.drained, sent, landed]
  simp only [State.finishEnd, drained, bare, Bool.true_eq_false, if_false]

/-- What END makes of its context first: it is ending (R415). -/
def ending (c : Ctx) : Ctx := { c with life := .ending, wait := .none, stopReq := false }

theorem endTask_of_user {s : State} (user : s.issue.src.sup = false) : exec .endTask s = .next ((s.own ending).finishEnd s.issue.key) := by
  change Host.Outcome.next _ = _
  rw [taskControl_of_user user, slot_of_ready (ready_nil s)]
  rfl

/-- Bytes that lie in one row, once they are stored: they read as the value, and no other byte changes. -/
theorem storeBytes_results {s : State} {a n : Nat} (v : Nat) (h : a % 256 + n ≤ 256) (clean : s.mem.poisoned a = false) :
    (s.storeBytes a n v).mem.readLe a n = v % 256 ^ n ∧ ∀ z, ¬ (a ≤ z ∧ z < a + n) → (s.storeBytes a n v).mem.read z = s.mem.read z := by
  have bytesAt := fun z => storeBytes_read (s := s) (a := a) (n := n) v z h clean
  refine ⟨readLe_of_bytes _ _ _ _ fun i hi => ?_, fun z hz => by rw [bytesAt, if_neg hz]⟩
  rw [bytesAt, if_pos (by omega), Nat.add_sub_cancel_left]

/-- END of a task that holds nothing: its share reaches the root of its job, and its context is free. -/
theorem endTask_results {s : State} {j : Job} {p : PageMap} (user : s.issue.src.sup = false) (sent : s.me.outstanding = []) (landed : s.me.inflight = [])
    (bare : s.journal? s.me.ticket = none) (unarmed : s.me.armed = none) (task : s.me.cflags.getLsbD 2 = false) (slot : s.job? s.me.job.toNat = some j)
    (page : s.pageOf j.part j.root = some p) (perm : p.perm.toNat &&& 6 = 6) (inside : p.pa + (j.root - p.va) < 0x3000000000)
    (aligned : (p.pa + (j.root - p.va)) % 16 = 0) (clean : s.mem.poisoned (p.pa + (j.root - p.va)) = false)
    (free : s.linesHeld (p.pa + (j.root - p.va)) 16 = []) :
    ∃ t, exec .endTask s = .next t ∧
      t.mem.readLe (p.pa + (j.root - p.va)) 16 = (s.mem.readLe (p.pa + (j.root - p.va)) 16 + 2 ^ (64 - s.me.wexp.toNat)) % 2 ^ 128 ∧
      (t.ctx s.issue.key).life = .free ∧
      ∀ a, ¬ (p.pa + (j.root - p.va) ≤ a ∧ a < p.pa + (j.root - p.va) + 16) → t.mem.read a = s.mem.read a := by
  have me : (s.own ending).ctx s.issue.key = ending s.me := me_own s ending
  have bare' : (s.own ending).journal? ((s.own ending).ctx s.issue.key).ticket = none := by rw [me]; exact bare
  obtain ⟨relief, armed⟩ := relieved_of_bare bare'
  have same : SameRoots s (relieved (s.own ending) s.issue.key) := SameRoots.trans (by constructor <;> rfl) relief
  have slot' := (same.job _).trans slot
  have page' := (same.pageOf _ _).trans page
  have free' := (same.linesHeld _ _).trans free
  have clean' := (congrArg (Mem.poisoned · _) same.mem).trans clean
  have root : (relieved (s.own ending) s.issue.key).rootHeld j = [] := by simp only [State.rootHeld, page', free']
  have retires : (s.own ending).retire s.issue.key =
      ((relieved (s.own ending) s.issue.key).rootAdd s.me.job.toNat s.me.wexp.toNat s.me.ticket).freeCtx s.issue.key :=
    (retire_of_task (by rw [me]; exact task) (by rw [me]; exact slot') root).trans (by rw [me]; rfl)
  obtain ⟨stored, stays⟩ := rootAdd_of_mapped s.me.wexp.toNat s.me.ticket slot' page' perm inside clean' free'
  obtain ⟨freed, kept⟩ := freeCtx_of_unarmed (stays s.issue.key (by rw [armed, me]; exact unarmed))
  refine ⟨_, (endTask_of_user user).trans (congrArg _ ((finishEnd_of_idle (by rw [me]; exact sent) (by rw [me]; exact landed) bare').trans retires)), ?_⟩
  rw [stored] at kept
  obtain ⟨word, rest⟩ := storeBytes_results (n := 16) ((s.mem.readLe (p.pa + (j.root - p.va)) 16 + 2 ^ (64 - s.me.wexp.toNat)) % 2 ^ 128) (by omega) clean'
  rw [same.mem] at kept rest
  refine ⟨?_, freed, fun a out => ?_⟩
  · rw [kept, word]
    exact Nat.mod_mod _ _
  · rw [kept, rest a out]

/-- Settles O11: a suspension point writes its task out through `writeOut`, and END retires a task that holds nothing. -/
theorem taskEndResults : Obligations.TaskEndResults := by
  unfold Obligations.TaskEndResults
  refine ⟨fun s o next => ?_, fun s j p user sent landed bare unarmed task slot _ page perm inside aligned clean free =>
    endTask_results user sent landed bare unarmed task slot page perm (by omega) aligned clean free⟩
  have suspends := suspendNow_of_nextAt next
  refine ⟨fun ⟨user, alone⟩ => ⟨fun full => ?_, fun lacks => ?_, yield_of_no_work user⟩,
    fun ⟨user, team⟩ => ⟨suspend_of_team user team, yield_of_team user team⟩, fun super => ⟨suspend_of_super super, yield_of_super super⟩⟩
  · have out := (suspend_of_task user alone).trans (congrArg _ (suspends.trans (writeOut_of_full o full)))
    exact ⟨out, fun leaves => (yield_of_otherWork user alone leaves).trans out⟩
  · have stays := (suspend_of_task user alone).trans (congrArg _ (suspends.trans (writeOut_of_not_full o lacks)))
    exact ⟨stays, fun leaves => (yield_of_otherWork user alone leaves).trans stays⟩

end Sys2Proof.Proofs

namespace Sys2Proof.Proofs

open Sys2Proof Sys2Proof.Machine Sys2Proof.Safety Sys2Proof.Laws

/-! ### Ports of a base die that serve one request (R60, R61) -/

/-- A Roundabout grants the only member that waits. -/
theorem grant_single (r : Roundabout) (mm : Nat) (share : Nat → Nat) (m : Nat) : (r.grant mm share [m]).1 = some m := by
  unfold Roundabout.grant
  split
  · rename_i turn
    exact congrArg some (by simpa using turn.2)
  · by_cases weighs : 0 < share m
    · simp [weighs, firstAfter]
    · simp [weighs, firstAfter]

theorem choose_single (ra : Roundabout) (share : Nat → Nat) (r : PortReq) : ∃ ra', ra.choose share [r] = some (r, ra') :=
  ⟨(ra.grant 16 share [r.part]).2, by simp [Roundabout.choose, grant_single, oldestReq]⟩

/-- A state differs from another in what stands at the ports of the base dies alone, their Roundabouts over partitions included. -/
def OnlyPorts (s t : State) : Prop :=
  (∃ l, t = { s with dies := l }) ∧ ∀ i, (t.die i).jobRas = (s.die i).jobRas ∧ (t.die i).lastStamp = (s.die i).lastStamp

theorem OnlyPorts.refl (s : State) : OnlyPorts s s := ⟨⟨s.dies, rfl⟩, fun _ => ⟨rfl, rfl⟩⟩

theorem OnlyPorts.trans {s t u : State} (h : OnlyPorts s t) (h' : OnlyPorts t u) : OnlyPorts s u := by
  obtain ⟨⟨l, rfl⟩, dies⟩ := h
  obtain ⟨⟨l', rfl⟩, dies'⟩ := h'
  exact ⟨⟨l', rfl⟩, fun i => ⟨(dies' i).1.trans (dies i).1, (dies' i).2.trans (dies i).2⟩⟩

theorem onlyPorts_modDie (s : State) (d : Nat) {f : Die → Die} (h : ∀ x, (f x).jobRas = x.jobRas ∧ (f x).lastStamp = x.lastStamp) : OnlyPorts s (s.modDie d f) := by
  refine ⟨⟨_, rfl⟩, fun i => ?_⟩
  by_cases same : i = d
  · subst same
    rw [die_modDie_same]
    exact h _
  · rw [die_modDie_ne _ _ same]
    exact ⟨rfl, rfl⟩

/-- What a context would take does not depend on the requests at ports. -/
theorem OnlyPorts.wants {s t : State} (h : OnlyPorts s t) (key : Nat) : t.wants key = s.wants key := by
  obtain ⟨⟨l, rfl⟩, dies⟩ := h
  have jobRa := (dies (dieOf key)).1
  have best : ({ s with dies := l } : State).bestWork key = s.bestWork key := by
    have work : ({ s with dies := l } : State).workList key = s.workList key := rfl
    have quad : ({ s with dies := l } : State).quadPart (quadOf key) = s.quadPart (quadOf key) := rfl
    simp only [State.bestWork, work, quad, Die.jobRa, jobRa]
  have may : ({ s with dies := l } : State).mayTake key = s.mayTake key := rfl
  have port : ({ s with dies := l } : State).portOf key = s.portOf key := rfl
  simp only [State.wants, best, may, port]

@[simp] theorem reqs_setReqs_same (x : Die) (range : Bool) (l : List PortReq) : (x.setReqs range l).reqs range = l := by
  cases range <;> rfl

theorem setReqs_frame (x : Die) (range : Bool) (l : List PortReq) : (x.setReqs range l).jobRas = x.jobRas ∧ (x.setReqs range l).lastStamp = x.lastStamp ∧
    (x.setReqs range l).hubReqs = x.hubReqs := by
  cases range <;> exact ⟨rfl, rfl, rfl⟩

theorem onlyPorts_atPort (s : State) (range : Bool) (d : Nat) (r : PortReq) : OnlyPorts s (s.atPort range d r) :=
  onlyPorts_modDie s d fun x => ⟨(setReqs_frame x range _).1, (setReqs_frame x range _).2.1⟩

/-- A request is its context's: what the context wants now, at this port. -/
def Asks (s : State) (r : PortReq) (w : Work) (ra : Roundabout) (port : Bool × Nat) : Prop :=
  s.wants r.key = some (r.level, w, ra, some port) ∧ s.quadPart (quadOf r.key) = r.part

theorem Asks.onlyPorts {s t : State} {r : PortReq} {w : Work} {ra : Roundabout} {port : Bool × Nat} (h : Asks s r w ra port) (o : OnlyPorts s t) :
    Asks t r w ra port := by
  refine ⟨(o.wants r.key).trans h.1, ?_⟩
  obtain ⟨⟨l, rfl⟩, -⟩ := o
  exact h.2

theorem Asks.stillAsks {s : State} {r : PortReq} {w : Work} {ra : Roundabout} {port : Bool × Nat} (h : Asks s r w ra port) : s.stillAsks port r = true := by
  simp [State.stillAsks, h.1, h.2]

/-- A port at which one request stands, still its context's, gives that context its work. -/
theorem servePort_single {s : State} {range : Bool} {d : Nat} {r : PortReq} {w : Work} {ra : Roundabout} (one : (s.die d).reqs range = [r])
    (asks : Asks s r w ra (range, d)) : ∃ u, OnlyPorts s u ∧ s.servePort range d = u.giveWork r.key r.level w ra := by
  have kept : OnlyPorts s (s.modDie d fun x => x.setReqs range ((x.reqs range).filter (s.stillAsks (range, d)))) :=
    onlyPorts_modDie s d fun x => ⟨(setReqs_frame x range _).1, (setReqs_frame x range _).2.1⟩
  have stands : ((s.modDie d fun x => x.setReqs range ((x.reqs range).filter (s.stillAsks (range, d)))).die d).reqs range = [r] := by
    simp [one, asks.stillAsks]
  unfold State.servePort
  generalize s.modDie d (fun x => x.setReqs range ((x.reqs range).filter (s.stillAsks (range, d)))) = t at kept stands
  obtain ⟨ra', chosen⟩ := choose_single (if range then (t.die d).rangeRa else (t.die d).takeRa) t.shareOf r
  have served : ∀ ra', OnlyPorts t (t.modDie d fun x =>
      let y := x.setReqs range ((x.reqs range).erase r)
      if range then { y with rangeRa := ra' } else { y with takeRa := ra' }) := fun ra' => onlyPorts_modDie t d fun x => by
    cases range <;> exact ⟨rfl, rfl⟩
  simp only [stands, chosen]
  specialize served ra'
  generalize t.modDie d _ = u at served
  have wants := (asks.onlyPorts (kept.trans served)).1
  exact ⟨u, kept.trans served, by simp only [wants]⟩

/-- The hub link of a die carries the one request that waits for it to its port. -/
theorem serveHubs_single {s : State} {d : Nat} {r : PortReq} {w : Work} {ra : Roundabout} {port : Bool × Nat} (one : (s.die d).hubReqs = [r])
    (asks : Asks s r w ra port) (free : (s.die port.2).reqs port.1 = []) :
    ∃ u, OnlyPorts s u ∧ s.serveHubs d = u ∧ (u.die port.2).reqs port.1 = [{ r with since := s.now }] := by
  obtain ⟨ra', chosen⟩ := choose_single (s.die d).hubRa s.shareOf r
  have carried : OnlyPorts s (s.modDie d fun x => { x with hubRa := ra', hubReqs := x.hubReqs.erase r }) := onlyPorts_modDie s d fun _ => ⟨rfl, rfl⟩
  have still : ∀ i, ((s.modDie d fun x => { x with hubRa := ra', hubReqs := x.hubReqs.erase r }).die i).reqs port.1 = (s.die i).reqs port.1 := by
    intro i
    by_cases same : i = d
    · subst same; rw [die_modDie_same]; rfl
    · rw [die_modDie_ne _ _ same]
  have clock : (s.modDie d fun x => { x with hubRa := ra', hubReqs := x.hubReqs.erase r }).now = s.now := rfl
  simp only [State.serveHubs, one, List.foldl_cons, List.foldl_nil, State.serveHub, chosen]
  generalize s.modDie d (fun x => { x with hubRa := ra', hubReqs := x.hubReqs.erase r }) = t at carried still clock
  have wants := (asks.onlyPorts carried).1
  refine ⟨t.atPort port.1 port.2 { r with since := s.now }, carried.trans (onlyPorts_atPort t _ _ _), ?_, ?_⟩
  · simp only [wants, if_true, clock]
  · rw [State.atPort, die_modDie_same, reqs_setReqs_same, still, free, List.nil_append]

/-- A context that is alone at its port, and at its hub link, is given the work that it wants. -/
theorem take_of_alone {s : State} {key lvl : Nat} {w : Work} {ra : Roundabout} {port : Bool × Nat} {want : Work → Bool} (wants : s.wants key = some (lvl, w, ra, some port))
    (wanted : want w = true) (free : (s.die port.2).reqs port.1 = []) (link : (s.die (dieOf key)).hubReqs = []) :
    ∃ u, OnlyPorts s u ∧ s.take key want = u.giveWork key lvl w ra := by
  have asks : ∀ n, Asks s ⟨key, s.quadPart (quadOf key), lvl, n⟩ w ra port := fun n => ⟨wants, rfl⟩
  have take : s.take key want = ((s.ask key lvl port).serveHubs (dieOf key)).servePort port.1 port.2 := by
    simp only [State.take, wants, wanted, if_true]
  by_cases here : port.2 = dieOf key
  · have ask : s.ask key lvl port = s.atPort port.1 port.2 ⟨key, s.quadPart (quadOf key), lvl, s.now⟩ := by
      rw [here] at free
      simp [State.ask, free, link, here]
    have quiet : ((s.ask key lvl port).die (dieOf key)).hubReqs = [] := by
      rw [ask, State.atPort, here, die_modDie_same, (setReqs_frame _ _ _).2.2, link]
    have stands : ((s.ask key lvl port).die port.2).reqs port.1 = [⟨key, s.quadPart (quadOf key), lvl, s.now⟩] := by
      rw [ask, State.atPort, die_modDie_same, reqs_setReqs_same, free, List.nil_append]
    have hubs : (s.ask key lvl port).serveHubs (dieOf key) = s.ask key lvl port := by rw [State.serveHubs, quiet, List.foldl_nil]
    have asked : OnlyPorts s (s.ask key lvl port) := by rw [ask]; exact onlyPorts_atPort s _ _ _
    obtain ⟨u, served, gives⟩ := servePort_single stands ((asks _).onlyPorts asked)
    exact ⟨u, asked.trans served, by rw [take, hubs, gives]⟩
  · have ask : s.ask key lvl port = s.modDie (dieOf key) fun x => { x with hubReqs := x.hubReqs ++ [⟨key, s.quadPart (quadOf key), lvl, s.now⟩] } := by
      simp [State.ask, free, link, here]
    have asked : OnlyPorts s (s.ask key lvl port) := by rw [ask]; exact onlyPorts_modDie s _ fun _ => ⟨rfl, rfl⟩
    have waits : ((s.ask key lvl port).die (dieOf key)).hubReqs = [⟨key, s.quadPart (quadOf key), lvl, s.now⟩] := by
      rw [ask, die_modDie_same]
      simp only [link, List.nil_append]
    have empty : ((s.ask key lvl port).die port.2).reqs port.1 = [] := by rw [ask, die_modDie_ne _ _ here, free]
    obtain ⟨t, carried, hubs, stands⟩ := serveHubs_single waits ((asks _).onlyPorts asked) empty
    obtain ⟨u, served, gives⟩ := servePort_single stands ((asks _).onlyPorts (asked.trans carried))
    exact ⟨u, (asked.trans carried).trans served, by rw [take, hubs, gives]⟩

/-! ### Taking a record of a task queue (R61 to R63) -/

theorem take_of_nothing {s : State} {key : Nat} (want : Work → Bool) (h : s.wants key = none) : s.take key want = s := by
  rw [State.take, h]

/-- A context runs in user mode at an offset, and waits for nothing. -/
def Runs (s : State) (key : Nat) (pc : Offset) : Prop :=
  (s.ctx key).life = .running ∧ (s.ctx key).wait = .none ∧ (s.ctx key).pc = pc ∧ (s.ctx key).sup = false

/-- A context that starts a continuation record (R15). -/
theorem startRec_results (s : State) (key : Nat) (r : ContRec) (tid : BitVec 32) (part prio vregs logical : Nat) :
    let t := s.startRec key r tid part prio vregs logical
    Runs t key r.pc ∧ (t.ctx key).ticket = r.ticket ∧ (t.ctx key).taskIndex = tid ∧ ∀ x : Fin 64, x ≠ 0 → (t.ctx key).getS x = r.s.getD (x.val - 1) 0 := by
  have here : ∀ (u : State) (c : Ctx) l f n, ({ u.setCtx key c with carried := l, freeIdx := f, nextId := n } : State).ctx key = c :=
    fun u c _ _ _ => ctx_setCtx_same u key c
  simp only [State.startRec, Runs, here]
  refine ⟨⟨trivial, rfl, trivial, rfl⟩, trivial, trivial, fun x nonzero => ?_⟩
  simp [Ctx.getS, nonzero]

/-- A record of a task queue starts on the context that is given it, and has left the queue. -/
theorem giveWork_queued {s : State} {key level i : Nat} {e : ContRec × Option Nat} (lvl : Nat) (ra : Roundabout)
    (record : (tgetD s.taskQueues (queueKey (s.quadPart (quadOf key)) level) [])[i]? = some e) : let t := s.giveWork key lvl (.queued level i) ra
    Runs t key e.1.pc ∧ (t.ctx key).ticket = e.1.ticket ∧ (∀ r : Fin 64, r ≠ 0 → (t.ctx key).getS r = e.1.s.getD (r.val - 1) 0) ∧
      tgetD t.taskQueues (queueKey (s.quadPart (quadOf key)) level) [] = (tgetD s.taskQueues (queueKey (s.quadPart (quadOf key)) level) []).eraseIdx i := by
  simp only [State.giveWork, record]
  generalize queueKey (s.quadPart (quadOf key)) level = k
  obtain ⟨runs, ticket, -, regs⟩ := startRec_results { s with taskQueues := tset s.taskQueues k ((tgetD s.taskQueues k []).eraseIdx i) }
    key e.1 0xFFFFFFFF (s.quadPart (quadOf key)) level (s.jobVregs e.1.job.toNat) 0xFF
  exact ⟨runs, ticket, regs, tgetD_tset_same s.taskQueues _ _ _⟩

theorem takeWork_queued {s : State} {core : Fin 128} {ctx : Fin 8} {lvl level i : Nat} {e : ContRec × Option Nat} {ra : Roundabout} {port : Bool × Nat}
    (wants : s.wants (core.val * 8 + ctx.val) = some (lvl, .queued level i, ra, some port)) (free : (s.die port.2).reqs port.1 = [])
    (link : (s.die (dieOf (core.val * 8 + ctx.val))).hubReqs = [])
    (record : (tgetD s.taskQueues (queueKey (s.quadPart (quadOf (core.val * 8 + ctx.val))) level) [])[i]? = some e) :
    ∃ t, exec (.takeWork core ctx) s = .next t ∧ Runs t (core.val * 8 + ctx.val) e.1.pc ∧ (t.ctx (core.val * 8 + ctx.val)).ticket = e.1.ticket ∧
      (∀ r : Fin 64, r ≠ 0 → (t.ctx (core.val * 8 + ctx.val)).getS r = e.1.s.getD (r.val - 1) 0) ∧
      tgetD t.taskQueues (queueKey (s.quadPart (quadOf (core.val * 8 + ctx.val))) level) [] =
        (tgetD s.taskQueues (queueKey (s.quadPart (quadOf (core.val * 8 + ctx.val))) level) []).eraseIdx i := by
  obtain ⟨u, ⟨⟨l, rfl⟩, -⟩, gives⟩ := take_of_alone (want := fun _ => true) wants rfl free link
  exact ⟨_, congrArg Host.Outcome.next gives, giveWork_queued lvl ra record⟩

/-! ### Taking a chunk (R50, R52 to R54) -/

/-- Argument words do not depend on anything but translations and memory. -/
theorem readArgs_congr {s t : State} {part : Nat} (mem : t.mem = s.mem) (spot : ∀ va, t.spotVa part va 1 = s.spotVa part va 1) :
    ∀ n va, t.readArgs part va n = s.readArgs part va n := by
  intro n
  induction n with
  | zero => exact fun _ => rfl
  | succ n ih => intro va; simp only [State.readArgs, mem, spot, ih]

theorem stampDie_of_free {s : State} {d : Nat} (prio : Nat) (h : (s.die d).lastStamp ≠ some s.tbase.toNat) :
    s.stampDie d prio = some (ticketOf prio s.tbase (128 + d), s.modDie d fun x => { x with lastStamp := some s.tbase.toNat }) := if_neg h

/-- The argument words of a chunk's record: those of the array, then its index when there is room (R50). -/
def chunkArgs (j : Job) (words : List Word) (lo : Nat) : List Word := if j.argSize < 48 then words ++ [BitVec.ofNat 64 lo] else words

theorem modJob_ranges (s : State) (job : Nat) (f : Job → Job) : (s.modJob job f).ranges = s.ranges := by
  unfold State.modJob
  split <;> rfl

/-- A task that has started keeps running when the rest of its chunk is noted. -/
theorem runs_noteChunk {s : State} {key : Nat} {pc : Offset} (h : Runs s key pc) (rest : List (Nat × Nat × Nat)) (job : Nat) :
    let t := (s.modCtx key fun c => { c with chunks := rest }).firstTask job
    Runs t key pc ∧ (t.ctx key).taskIndex = (s.ctx key).taskIndex ∧ t.ranges = s.ranges := by
  have ctx : ((s.modCtx key fun c => { c with chunks := rest }).firstTask job).ctx key = { s.ctx key with chunks := rest } :=
    (ctx_of_ctxs (modJob_ctxs _ _ _) key).trans (ctx_modCtx_same s key _)
  simp only [Runs, ctx]
  exact ⟨h, trivial, modJob_ranges _ _ _⟩

/-- The record of a chunk starts, with a ticket of the base die. -/
theorem startChunkRecord_of_read {s : State} {key job lo hi : Nat} {j : Job} {words : List Word} (slot : s.job? job = some j)
    (chunk : tget (s.ctx key).chunks job = some (lo, hi)) (stamps : (s.die (dieOf key)).lastStamp ≠ some s.tbase.toNat)
    (reads : s.readArgs j.part (j.argBase + lo * j.argSize) (j.argSize / 8) = .ok words) :
    let t := s.startChunkRecord key job
    Runs t key j.entry ∧ (t.ctx key).taskIndex = BitVec.ofNat 32 lo ∧ t.ranges = s.ranges := by
  simp only [State.startChunkRecord, chunk, slot, reads, stampDie_of_free j.prio stamps]
  obtain ⟨runs, -, index, -⟩ := startRec_results (s.modDie (dieOf key) fun x => { x with lastStamp := some s.tbase.toNat }) key
    ⟨ticketOf j.prio s.tbase (128 + dieOf key), j.entry, j.image, BitVec.ofNat 12 job, 0, 0, chunkArgs j words lo⟩ (BitVec.ofNat 32 lo) j.part j.prio j.vregs 0xFF
  obtain ⟨runs', index', ranges⟩ := runs_noteChunk runs ((s.ctx key).dropRecord job) job
  exact ⟨runs', index'.trans index, ranges⟩

/-- A context takes a chunk from a range: the range gives its lower end, and the first record of the chunk starts. -/
theorem startChunkRecord_of_takeChunk {s : State} {key job lo hi : Nat} {j : Job} {words : List Word} (slot : s.job? job = some j)
    (range : s.range job (dieOf key) = (lo, hi)) (left : lo < hi) (stamps : (s.die (dieOf key)).lastStamp ≠ some s.tbase.toNat)
    (size : j.argSize = 8 * words.length) (reads : s.readArgs j.part (j.argBase + lo * j.argSize) words.length = .ok words) :
    let t := (s.takeChunk job (dieOf key) key).startChunkRecord key job
    Runs t key j.entry ∧ (t.ctx key).taskIndex = BitVec.ofNat 32 lo ∧
      t.ranges = tset s.ranges (job * 4 + dieOf key) (lo + chunkSize (hi - lo) j.chunkDiv (s.coresOn j.part (dieOf key)) j.chunkMin, hi) := by
  simp only [State.takeChunk, slot, range, if_neg (Nat.not_le.2 left)]
  generalize chunkSize (hi - lo) j.chunkDiv (s.coresOn j.part (dieOf key)) j.chunkMin = k
  refine startChunkRecord_of_read (s := (s.setRange job (dieOf key) (lo + k, hi)).modCtx key fun c => { c with chunks := (job, lo, lo + k) :: c.chunks })
    (words := words) (hi := lo + k) slot ?_ stamps ?_
  · rw [ctx_modCtx_same]
    simp [tget]
  · rw [size, Nat.mul_div_cancel_left _ (by decide), ← size]
    exact (readArgs_congr (by rfl) (fun _ => by rfl) _ _).trans reads

end Sys2Proof.Proofs

namespace Sys2Proof.Proofs

open Sys2Proof Sys2Proof.Machine Sys2Proof.Safety Sys2Proof.Laws

/-! ### Chunks that a context takes, and steals (R53, R54) -/

/-- The range that has most records left, the lowest on a tie, is the one stolen from. -/
theorem victim_of_most {s : State} {job v : Nat} (die : v < 4) (most : ∀ w < 4, s.rangeLeft job w ≤ s.rangeLeft job v ∧ (w < v → s.rangeLeft job w < s.rangeLeft job v)) :
    s.victim job = v := by
  have first : (List.range 4).find? (fun x => (List.range 4).all fun w => decide (s.rangeLeft job w ≤ s.rangeLeft job x)) = some v := by
    refine List.find?_range_eq_some.2 ⟨?_, List.mem_range.2 die, fun w before => ?_⟩
    · simpa using fun w hw => (most w hw).1
    · simp only [Bool.not_eq_true', List.all_eq_false, List.mem_range, decide_eq_true_eq]
      exact ⟨v, die, Nat.not_le.2 ((most w (by omega)).2 before)⟩
  rw [State.victim, first, Option.getD_some]

theorem range_of_ranges {t : State} {l : List (Nat × Nat × Nat)} (h : t.ranges = l) (job d : Nat) : t.range job d = tgetD l (job * 4 + d) (0, 0) := by
  rw [State.range, h]

/-- The job Roundabout of a die has moved on (R61). -/
def choseJob (s : State) (d slot : Nat) (ra : Roundabout) : State := s.modDie d fun x => { x with jobRas := tset x.jobRas slot ra }

theorem choseJob_stamp (s : State) (d slot : Nat) (ra : Roundabout) : ((choseJob s d slot ra).die d).lastStamp = (s.die d).lastStamp := by
  rw [choseJob, die_modDie_same]

/-- The work of a level is a new chunk: it is taken from the range of the context's die, after a steal when that is empty. -/
theorem giveWork_chunk (s : State) (key job lvl : Nat) (ra : Roundabout) :
    let t := choseJob s (dieOf key) (s.quadPart (quadOf key) * 32 + lvl) ra
    s.giveWork key lvl (.chunk job) ra =
      ((if (s.range job (dieOf key)).1 < (s.range job (dieOf key)).2 then t else t.stealRange job (dieOf key)).takeChunk job (dieOf key) key).startChunkRecord key job := rfl

section Chunk

/-- What a chunk of a job needs to start on a context: the job, a die that can stamp, and an argument record of whole words. -/
structure ChunkStarts (s : State) (key job : Nat) (j : Job) (words : List Word) (lo : Nat) : Prop where
  slot : s.job? job = some j
  stamps : (s.die (dieOf key)).lastStamp ≠ some s.tbase.toNat
  size : j.argSize = 8 * words.length
  reads : s.readArgs j.part (j.argBase + lo * j.argSize) words.length = .ok words

variable {s : State} {key job lvl : Nat} {j : Job} {words : List Word} {lo : Nat} {ra : Roundabout}

/-- The chunk of a job on a die when the range is this. -/
def chunkOf (s : State) (j : Job) (d : Nat) (r : Nat × Nat) : Nat := chunkSize (r.2 - r.1) j.chunkDiv (s.coresOn j.part d) j.chunkMin

theorem ChunkStarts.congr {t : State} (h : ChunkStarts s key job j words lo) (jobs : t.jobs = s.jobs) (stamp : (t.die (dieOf key)).lastStamp = (s.die (dieOf key)).lastStamp)
    (tbase : t.tbase = s.tbase) (mem : t.mem = s.mem) (spot : ∀ va, t.spotVa j.part va 1 = s.spotVa j.part va 1) : ChunkStarts t key job j words lo :=
  ⟨by rw [State.job?, jobs]; exact h.slot, by rw [stamp, tbase]; exact h.stamps, h.size, (readArgs_congr mem spot _ _).trans h.reads⟩

theorem ChunkStarts.onlyPorts {t : State} (h : ChunkStarts s key job j words lo) (o : OnlyPorts s t) : ChunkStarts t key job j words lo := by
  obtain ⟨⟨l, rfl⟩, dies⟩ := o
  exact h.congr rfl (dies _).2 rfl rfl fun _ => rfl

theorem ChunkStarts.results (h : ChunkStarts s key job j words lo) {hi : Nat} (range : s.range job (dieOf key) = (lo, hi)) (left : lo < hi) :
    let t := (s.takeChunk job (dieOf key) key).startChunkRecord key job
    Runs t key j.entry ∧ (t.ctx key).taskIndex = BitVec.ofNat 32 lo ∧
      t.ranges = tset s.ranges (job * 4 + dieOf key) (lo + chunkOf s j (dieOf key) (lo, hi), hi) :=
  startChunkRecord_of_takeChunk h.slot range left h.stamps h.size h.reads

/-- A chunk from a range that is not empty. -/
theorem giveWork_ownChunk (h : ChunkStarts s key job j words lo) {hi : Nat} (range : s.range job (dieOf key) = (lo, hi)) (left : lo < hi) :
    let t := s.giveWork key lvl (.chunk job) ra
    Runs t key j.entry ∧ (t.ctx key).taskIndex = BitVec.ofNat 32 lo ∧ t.range job (dieOf key) = (lo + chunkOf s j (dieOf key) (lo, hi), hi) := by
  have starts : ChunkStarts (choseJob s (dieOf key) (s.quadPart (quadOf key) * 32 + lvl) ra) key job j words lo :=
    h.congr rfl (choseJob_stamp s _ _ _) rfl rfl fun _ => rfl
  obtain ⟨runs, index, ranges⟩ := starts.results range left
  simp only [giveWork_chunk, range, if_pos left]
  exact ⟨runs, index, (range_of_ranges ranges _ _).trans (tgetD_tset_same _ _ _ _)⟩

/-- Where the upper half of a range begins (R54). -/
def upperHalf (r : Nat × Nat) : Nat := r.2 - (r.2 - r.1 + 1) / 2

/-- A die has stolen the upper half of the range of another. -/
def stolen (s : State) (job d v : Nat) : State :=
  (s.setRange job d (upperHalf (s.range job v), (s.range job v).2)).setRange job v ((s.range job v).1, upperHalf (s.range job v))

/-- A die whose range is empty steals from the largest. -/
theorem stealRange_of_empty {d v : Nat} (victim : s.victim job = v) (empty : (s.range job d).2 ≤ (s.range job d).1)
    (left : (s.range job v).1 < (s.range job v).2) : s.stealRange job d = stolen s job d v := by
  have none_own : s.rangeLeft job d = 0 := Nat.sub_eq_zero_of_le empty
  have some_there : s.rangeLeft job v ≠ 0 := Nat.sub_ne_zero_of_lt left
  simp only [State.stealRange, victim, none_own, some_there, Nat.lt_irrefl, or_self, if_false]
  rfl

/-- A chunk of what a die whose range is empty has stolen. -/
theorem giveWork_stolenChunk {v : Nat} (victim : s.victim job = v) (empty : (s.range job (dieOf key)).2 ≤ (s.range job (dieOf key)).1)
    (left : (s.range job v).1 < (s.range job v).2) (h : ChunkStarts s key job j words (upperHalf (s.range job v))) :
    let t := s.giveWork key lvl (.chunk job) ra
    let half := upperHalf (s.range job v)
    Runs t key j.entry ∧ t.range job v = ((s.range job v).1, half) ∧
      t.range job (dieOf key) = (half + chunkOf s j (dieOf key) (half, (s.range job v).2), (s.range job v).2) := by
  have other : job * 4 + v ≠ job * 4 + dieOf key := fun same => by
    rw [Nat.add_left_cancel same] at left
    exact absurd empty (Nat.not_le.2 left)
  have steals := stealRange_of_empty (s := choseJob s (dieOf key) (s.quadPart (quadOf key) * 32 + lvl) ra) victim empty left
  have starts : ChunkStarts (stolen (choseJob s (dieOf key) (s.quadPart (quadOf key) * 32 + lvl) ra) job (dieOf key) v) key job j words (upperHalf (s.range job v)) :=
    h.congr rfl (choseJob_stamp s _ _ _) rfl rfl fun _ => rfl
  have range : (stolen (choseJob s (dieOf key) (s.quadPart (quadOf key) * 32 + lvl) ra) job (dieOf key) v).range job (dieOf key) =
      (upperHalf (s.range job v), (s.range job v).2) := (tgetD_tset_ne _ _ _ other.symm).trans (tgetD_tset_same _ _ _ _)
  obtain ⟨runs, -, ranges⟩ := starts.results range (by unfold upperHalf; omega)
  simp only [giveWork_chunk, if_neg (Nat.not_lt.2 empty), steals]
  refine ⟨runs, (range_of_ranges ranges _ _).trans ?_, (range_of_ranges ranges _ _).trans (tgetD_tset_same _ _ _ _)⟩
  rw [tgetD_tset_ne _ _ _ other]
  exact tgetD_tset_same _ _ _ _

end Chunk

theorem chunkTake_results {s : State} {core : Fin 128} {ctx : Fin 8} {lvl lo hi : Nat} {job : Fin 4096} {j : Job} {words : List Word} {ra : Roundabout} {port : Bool × Nat} :
    let key := core.val * 8 + ctx.val
    s.wants key = some (lvl, .chunk job.val, ra, some port) → (s.die port.2).reqs port.1 = [] → (s.die (dieOf key)).hubReqs = [] →
    ChunkStarts s key job.val j words lo → s.range job.val (dieOf key) = (lo, hi) → lo < hi →
    ∃ t, exec (.chunkTake core ctx) s = .next t ∧ Runs t key j.entry ∧ (t.ctx key).taskIndex = BitVec.ofNat 32 lo ∧
      t.range job.val (dieOf key) = (lo + chunkOf s j (dieOf key) (lo, hi), hi) := by
  intro key wants free link starts range left
  obtain ⟨u, ports, gives⟩ := take_of_alone (want := fun w => match w with | .chunk i => s.ownRange key i | _ => false) wants
    (by simp only [State.ownRange, range, left, decide_true]) free link
  have results := giveWork_ownChunk (lvl := lvl) (ra := ra) (starts.onlyPorts ports) (hi := hi) (by obtain ⟨⟨l, rfl⟩, -⟩ := ports; exact range) left
  obtain ⟨⟨l, rfl⟩, -⟩ := ports
  exact ⟨_, congrArg Host.Outcome.next gives, results⟩

theorem chunkSteal_results {s : State} {core : Fin 128} {ctx : Fin 8} {lvl v : Nat} {job : Fin 4096} {j : Job} {words : List Word} {ra : Roundabout} {port : Bool × Nat} :
    let key := core.val * 8 + ctx.val
    let half := upperHalf (s.range job.val v)
    s.wants key = some (lvl, .chunk job.val, ra, some port) → (s.die port.2).reqs port.1 = [] → (s.die (dieOf key)).hubReqs = [] →
    ChunkStarts s key job.val j words half → (s.range job.val (dieOf key)).2 ≤ (s.range job.val (dieOf key)).1 → s.victim job.val = v →
    (s.range job.val v).1 < (s.range job.val v).2 →
    ∃ t, exec (.chunkSteal core ctx) s = .next t ∧ Runs t key j.entry ∧ t.range job.val v = ((s.range job.val v).1, half) ∧
      t.range job.val (dieOf key) = (half + chunkOf s j (dieOf key) (half, (s.range job.val v).2), (s.range job.val v).2) := by
  intro key half wants free link starts empty victim left
  obtain ⟨u, ports, gives⟩ := take_of_alone (want := fun w => match w with | .chunk i => !s.ownRange key i | _ => false) wants
    (by simp [State.ownRange, empty]) free link
  have starts' := starts.onlyPorts ports
  obtain ⟨⟨l, rfl⟩, -⟩ := ports
  exact ⟨_, congrArg Host.Outcome.next gives, giveWork_stolenChunk (lvl := lvl) (ra := ra) victim empty left starts'⟩

end Sys2Proof.Proofs

namespace Sys2Proof.Proofs

open Sys2Proof Sys2Proof.Machine Sys2Proof.Safety Sys2Proof.Laws

/-! ### What a step keeps of the jobs -/

theorem job_modJob (s : State) (n : Nat) (f : Job → Job) (i : Nat) : (s.modJob n f).job? i = if i = n then (s.job? n).map f else s.job? i := by
  cases found : s.job? n with
  | none =>
    have stays : s.modJob n f = s := by rw [State.modJob, found]
    rw [stays]
    split
    · rename_i same; rw [same, found]; rfl
    · rfl
  | some x =>
    have set : s.modJob n f = { s with jobs := tset s.jobs n (f x) } := by rw [State.modJob, found]
    rw [set]
    split
    · rename_i same; rw [same]; exact tget_tset_same _ _ _
    · rename_i other; exact tget_tset_ne _ _ other

/-- Every job slot that was held is held still, and none else; this part of its job is the same. -/
def KeepsJobs {α : Type} (g : Job → α) (s t : State) : Prop := ∀ i, (t.job? i).map g = (s.job? i).map g

section KeepsJobs

variable {α : Type} {g : Job → α}

theorem KeepsJobs.of_jobs {s t : State} (h : t.jobs = s.jobs) : KeepsJobs g s t := fun i => by rw [State.job?, h, State.job?]

theorem KeepsJobs.refl (s : State) : KeepsJobs g s s := fun _ => rfl

theorem KeepsJobs.trans {s t u : State} (h : KeepsJobs g s t) (h' : KeepsJobs g t u) : KeepsJobs g s u := fun i => (h' i).trans (h i)

theorem KeepsJobs.foldl {β : Type} {f : State → β → State} (h : ∀ s x, KeepsJobs g s (f s x)) (l : List β) (s : State) : KeepsJobs g s (l.foldl f s) :=
  List.foldlRecOn (motive := KeepsJobs g s) l f (.refl s) fun t ht x _ => ht.trans (h t x)

theorem keepsJobs_modJob (s : State) (n : Nat) {f : Job → Job} (h : ∀ x, g (f x) = g x) : KeepsJobs g s (s.modJob n f) := by
  intro i
  rw [job_modJob]
  split
  · rename_i same
    subst same
    rw [Option.map_map]
    exact congrArg (Option.map · _) (funext h)
  · rfl

theorem KeepsJobs.job {s t : State} (h : KeepsJobs g s t) {i : Nat} {j : Job} (held : s.job? i = some j) : ∃ y, t.job? i = some y ∧ g y = g j := by
  have same := h i
  rw [held, Option.map_some] at same
  exact Option.map_eq_some_iff.1 same

end KeepsJobs

/-! ### The pending-launch pool (R50, R52, R55, R56, R417) -/

/-- A job has taken a slot, with its card, and the pool is as it was. -/
structure Seats (s t : State) (slot : Nat) (card : BitVec 1024) : Prop where
  pool : t.pool = s.pool
  held : t.held = s.held
  job : (t.job? slot).map Job.card = some card

theorem Seats.modJob {s t : State} {slot : Nat} {card : BitVec 1024} (h : Seats s t slot card) {f : Job → Job} (card_kept : ∀ x, (f x).card = x.card) :
    Seats s (t.modJob slot f) slot card := by
  have kept : (t.modJob slot f).pool = t.pool ∧ (t.modJob slot f).held = t.held := by
    unfold State.modJob
    split <;> exact ⟨rfl, rfl⟩
  exact ⟨kept.1.trans h.pool, kept.2.trans h.held, (keepsJobs_modJob t slot card_kept slot).trans h.job⟩

theorem Seats.of_same {s t u : State} {slot : Nat} {card : BitVec 1024} (h : Seats s t slot card) (pool : u.pool = t.pool) (held : u.held = t.held) (jobs : u.jobs = t.jobs) :
    Seats s u slot card := ⟨pool.trans h.pool, held.trans h.held, (KeepsJobs.of_jobs jobs slot).trans h.job⟩

theorem Seats.storeBytes {s t : State} {slot : Nat} {card : BitVec 1024} (h : Seats s t slot card) (a n v : Nat) : Seats s (t.storeBytes a n v) slot card := by
  unfold State.storeBytes State.storeRow
  split
  · exact h
  · exact h.of_same rfl rfl rfl

/-- The split of a DEAL job over the dies (R52). -/
theorem Seats.dealSplit {s t : State} {slot : Nat} {card : BitVec 1024} (h : Seats s t slot card) : Seats s (t.dealSplit slot) slot card := by
  unfold State.dealSplit
  split
  · exact h
  · simp only
    split
    · exact h.modJob fun _ => rfl
    · exact List.foldlRecOn (motive := fun acc : State × Nat => Seats s acc.1 slot card) _ _ (h.modJob (f := fun x => { x with unsplit := false }) fun _ => rfl)
        fun acc kept d _ => kept.of_same rfl rfl rfl

/-- What follows the zeroing of a job's root: a team waits, a job without records is complete, any other is split (R50, R52). -/
theorem Seats.start {s t : State} {slot : Nat} {card : BitVec 1024} (h : Seats s t slot card) (j : Job) (finish : Nat) (l : List Instr) :
    Seats s (if j.gang then t else if j.argCount = 0 then (t.modJob slot fun x => { x with complete := true, finish := finish }).first l
      else t.dealSplit slot) slot card := by
  split
  · exact h
  · split
    · exact (h.modJob (f := fun x => { x with complete := true, finish := finish }) fun _ => rfl).of_same rfl rfl rfl
    · exact h.dealSplit

/-- A job whose root the host does not hold starts in the lowest free slot. -/
theorem startJob_started {s : State} {card : BitVec 1024} {cardAddr slot : Nat} (free : s.freeSlot = some slot) (root : s.rootHeld (jobOf card cardAddr) = []) :
    ∃ t, s.startJob card cardAddr = .started slot t ∧ Seats s t slot card := by
  unfold State.startJob
  rw [free]
  simp only [root, List.isEmpty_nil, Bool.not_true, Bool.false_eq_true, if_false]
  refine ⟨_, rfl, Seats.start ?_ _ _ _⟩
  have seated : ∀ j : Job, j.card = card → Seats s { s.fresh.2 with jobs := tset s.fresh.2.jobs slot j } slot card := fun j same =>
    ⟨rfl, rfl, by rw [State.job?, tget_tset_same, Option.map_some, same]⟩
  split
  · exact (seated _ rfl).storeBytes _ _ _
  · exact seated _ rfl

theorem filterMap_range_single {α : Type} (x : α) (p : Nat) : ∀ n, ((List.range n).filterMap fun i => if p = i then some x else none) = if p < n then [x] else [] := by
  intro n
  induction n with
  | zero => rfl
  | succ n ih =>
    rw [List.range_succ, List.filterMap_append, ih]
    rcases Nat.lt_trichotomy p n with below | same | above
    · simp [below, Nat.ne_of_lt below, Nat.lt_succ_of_lt below]
    · simp [same]
    · simp [Nat.ne_of_gt above, Nat.not_lt_of_gt above, show ¬ p < n + 1 by omega]

theorem poolDuty_next {s : State} {p : BitVec 4} {card : BitVec 1024} {slot : Nat} (pool : s.pool = [(p, card)]) (held : s.held = [])
    (waits : ∀ x ∈ s.parked, x.work ≠ .poolCard p card) (ok : s.checkCard (some p.toNat) card = .ok) (free : s.freeSlot = some slot)
    (root : s.rootHeld (jobOf card 0) = []) :
    ∃ t x, exec .poolDuty s = .next t ∧ t.pool = [] ∧ t.job? slot = some x ∧ x.card = card := by
  obtain ⟨t, started, seats⟩ := startJob_started free root
  have quiet : (s.parked.any fun x => decide (x.work = ParkWork.poolCard p card)) = false := by simpa using waits
  have firsts : ((List.range 16).filterMap fun i => s.pool.find? fun e => decide (e.1.toNat = i)) = [(p, card)] := by
    have one : ∀ i, (s.pool.find? fun e => decide (e.1.toNat = i)) = if p.toNat = i then some (p, card) else none := fun i => by
      rw [pool, List.find?_cons]
      by_cases same : p.toNat = i <;> simp [same]
    simp only [one, filterMap_range_single, p.isLt, if_true]
  have gone : ∀ ra, { t with poolRa := ra }.poolGone p card = { t with poolRa := ra, pool := [] } := fun ra => by
    rw [State.poolGone]
    simp only [seats.held, held, seats.pool, pool, List.length_nil, State.enterHeld, List.erase_cons_head]
  obtain ⟨x, seated, same⟩ := Option.map_eq_some_iff.1 seats.job
  suffices runs : ∃ ra, exec .poolDuty s = .next { t with poolRa := ra, pool := [] } by
    obtain ⟨ra, runs⟩ := runs
    exact ⟨_, x, runs, rfl, seated, same⟩
  change ∃ ra, execPoolDuty s = _
  have single : [(p, card)].filter (fun e => !s.parked.any fun x => decide (x.work = ParkWork.poolCard e.1 e.2)) = [(p, card)] := by simp [quiet]
  simp only [execPoolDuty, firsts, single, List.map_cons, List.map_nil, List.max?_singleton, Option.getD_some, List.filter_cons, List.filter_nil, decide_true,
    if_true, grant_single, Option.bind_some, List.find?_cons, ok, started, gone]
  exact ⟨_, rfl⟩

end Sys2Proof.Proofs

namespace Sys2Proof.Proofs

open Sys2Proof Sys2Proof.Machine Sys2Proof.Safety Sys2Proof.Laws

/-! ### Completion records (R417, R418) -/

theorem pack_lt (l : List (Nat × Nat)) : pack l < 256 ^ (l.map (·.1)).sum := by
  induction l with
  | nil => decide
  | cons e t ih =>
    obtain ⟨n, v⟩ := e
    have low := Nat.mod_lt v (Nat.pow_pos (n := n) (by decide : 0 < 256))
    have high := Nat.mul_le_mul_left (256 ^ n) ih
    simp only [pack, List.map_cons, List.sum_cons, Nat.pow_add]
    rw [Nat.mul_succ] at high
    omega

theorem recordBytes_lt (j : Job) (slot : Nat) : j.recordBytes slot < 256 ^ 64 := by
  unfold Job.recordBytes
  exact lt_of_lt_of_eq (pack_lt _) (by simp)

/-- What follows the record of a job leaves memory as it is, and its slot is free. -/
theorem jobDone_results (s : State) (job : Nat) (j : Job) (norec : Bool) : (s.jobDone job j norec).job? job = none ∧ (s.jobDone job j norec).mem = s.mem := by
  have freed : ∀ u : State, (u.freeJob job).job? job = none ∧ (u.freeJob job).mem = u.mem := fun u => by
    constructor
    · show tget (terase _ job) job = none
      simp [tget, terase]
    · exact List.foldlRecOn (motive := fun t : State => t.mem = u.mem) _ (fun (t : State) (p : Place) => t.modCore p.core.val fun c => { c with chans := [] }) rfl
        fun _ same _ _ => same
  unfold State.jobDone
  simp only
  split <;> exact freed _

theorem completionRecord_results {s : State} {job : Fin 4096} {j : Job} {k : Nat} (slot : s.job? job.val = some j) (complete : j.complete = true)
    (quiet : ∀ x ∈ s.parked, x.work ≠ .record job.val) (spot : s.spotVa j.part j.done 2 64 = .mem k) (aligned : k % 64 = 0) (clean : s.mem.poisoned k = false) :
    ∃ t, exec (.completionRecord job) s = .next t ∧ t.job? job.val = none ∧ t.mem.readLe k 64 = j.recordBytes job.val ∧
      ∀ a, ¬ (k ≤ a ∧ a < k + 64) → t.mem.read a = s.mem.read a := by
  have unparked : ¬ (j.complete = false ∨ (s.parked.any fun p => decide (p.work = ParkWork.record job.val)) = true) := by simpa [complete] using quiet
  have writes : s.complete job.val = (s.storeBytes k 64 (j.recordBytes job.val)).jobDone job.val j false := by
    simp only [State.complete, slot, if_neg unparked, spot, clean, Bool.false_eq_true, if_false]
  obtain ⟨gone, kept⟩ := jobDone_results (s.storeBytes k 64 (j.recordBytes job.val)) job.val j false
  obtain ⟨record, rest⟩ := storeBytes_results (n := 64) (j.recordBytes job.val) (by omega) clean
  refine ⟨_, congrArg Host.Outcome.next writes, gone, ?_, fun a out => by rw [kept, rest a out]⟩
  rw [kept, record, Nat.mod_eq_of_lt (recordBytes_lt j job.val)]

end Sys2Proof.Proofs

namespace Sys2Proof.Proofs

open Sys2Proof Sys2Proof.Machine Sys2Proof.Safety Sys2Proof.Laws

/-! ### What reports keep of teams and of their slices -/

/-- Two states hold the same jobs and management registers. -/
structure SameJobs (s t : State) : Prop where
  jobs : t.jobs = s.jobs
  mmio : t.mmio = s.mmio

theorem SameJobs.refl (s : State) : SameJobs s s := ⟨rfl, rfl⟩

theorem SameJobs.trans {s t u : State} (h : SameJobs s t) (h' : SameJobs t u) : SameJobs s u := ⟨h'.jobs.trans h.jobs, h'.mmio.trans h.mmio⟩

theorem SameJobs.foldl {α : Type} {f : State → α → State} (h : ∀ s x, SameJobs s (f s x)) (l : List α) (s : State) : SameJobs s (l.foldl f s) :=
  List.foldlRecOn (motive := SameJobs s) l f (.refl s) fun t ht x _ => ht.trans (h t x)

theorem sameJobs_storeRow (s : State) (k : Nat) (data : Row) (mask : BitVec 256) : SameJobs s (s.storeRow k data mask) := by
  unfold State.storeRow
  split
  · exact .refl s
  · exact ⟨rfl, rfl⟩

theorem sameJobs_storeSpan (s : State) (a n v : Nat) : SameJobs s (s.storeSpan a n v) := by
  unfold State.storeSpan
  simp only
  split
  · exact (sameJobs_storeRow s _ _ _).trans (sameJobs_storeRow _ _ _ _)
  · exact sameJobs_storeRow s _ _ _

theorem sameJobs_writeAt (s : State) (part n v : Nat) (p : Spot) : SameJobs s (s.writeAt part n v p) := by
  cases p with
  | mem k => exact sameJobs_storeSpan s k n v
  | regs off =>
    simp only [State.writeAt]
    split
    · exact ⟨rfl, rfl⟩
    · exact .refl s
  | fail _ | absent | link | hold => exact .refl s

theorem sameJobs_parkLink (s : State) (part va : Nat) (w : ParkWork) (width : Nat) : SameJobs s (s.parkLink part va w width) := by
  simp only [State.parkLink]
  split <;> exact ⟨rfl, rfl⟩

theorem sameJobs_sibPut (s : State) (n : Nat) (q : CmdQueue) (slots : List Nat) (kind : Nat) : SameJobs s (s.sibPut n q slots kind) :=
  (SameJobs.foldl (fun (t : State) (w : Nat × Nat × Nat) => sameJobs_writeAt t q.part.toNat w.2.1 w.2.2 (t.spotQ n q.part.toNat w.1 2 w.2.1)) _ s).trans ⟨rfl, rfl⟩

theorem sameJobs_sibFlush (n : Nat) : ∀ (fuel : Nat) (s : State), SameJobs s (s.sibFlush n fuel) := by
  intro fuel
  induction fuel with
  | zero => exact fun s => .refl s
  | succ fuel ih =>
    intro s
    simp only [State.sibFlush]
    repeat' split
    · exact .refl s
    · exact .refl s
    · exact .refl s
    · exact sameJobs_parkLink s _ _ _ _
    · exact (sameJobs_sibPut s _ _ _ _).trans (ih _)

theorem sameJobs_sibPost (s : State) (n : Nat) (q : CmdQueue) (slots : List Nat) (kind : Nat) : SameJobs s (s.sibPost n q slots kind) :=
  SameJobs.trans (by constructor <;> rfl) (sameJobs_sibFlush n _ _)

/-- Every job keeps its team, and every partition its slice length (R22, R76). -/
structure KeepsTeams (s t : State) : Prop where
  teams : KeepsJobs Job.team s t
  slices : ∀ part, t.sliceLen part = s.sliceLen part

theorem KeepsTeams.refl (s : State) : KeepsTeams s s := ⟨.refl s, fun _ => rfl⟩

theorem KeepsTeams.trans {s t u : State} (h : KeepsTeams s t) (h' : KeepsTeams t u) : KeepsTeams s u :=
  ⟨h.teams.trans h'.teams, fun part => (h'.slices part).trans (h.slices part)⟩

theorem KeepsTeams.foldl {α : Type} {f : State → α → State} (h : ∀ s x, KeepsTeams s (f s x)) (l : List α) (s : State) : KeepsTeams s (l.foldl f s) :=
  List.foldlRecOn (motive := KeepsTeams s) l f (.refl s) fun t ht x _ => ht.trans (h t x)

theorem sliceLen_of_mmio {s t : State} (h : t.mmio = s.mmio) (part : Nat) : t.sliceLen part = s.sliceLen part := by
  simp [State.sliceLen, State.fld, State.reg, h]

theorem SameJobs.keepsTeams {s t : State} (h : SameJobs s t) : KeepsTeams s t := ⟨.of_jobs h.jobs, sliceLen_of_mmio h.mmio⟩

theorem modJob_mmio (s : State) (n : Nat) (f : Job → Job) : (s.modJob n f).mmio = s.mmio := by
  unfold State.modJob
  split <;> rfl

theorem keepsTeams_modJob (s : State) (n : Nat) {f : Job → Job} (h : ∀ x, (f x).team = x.team) : KeepsTeams s (s.modJob n f) :=
  ⟨keepsJobs_modJob s n h, sliceLen_of_mmio (modJob_mmio s n f)⟩

theorem keepsTeams_count (s : State) {f : MFam} (i hi lo n : Nat) (h : f ≠ .psched) : KeepsTeams s (s.count f i hi lo n) :=
  ⟨.of_jobs rfl, fun part => by rw [State.sliceLen, State.count, fld_event, fld_setFld_ne _ _ _ _ _ h.symm, State.sliceLen]⟩

theorem keepsTeams_postTo (s : State) (f : FaultRec) (fq : Option Nat) : KeepsTeams s (s.postTo f fq) := by
  have named : ∀ (t : State) (lost : Bool), KeepsTeams t (match f.job with
      | none => t
      | some j => t.modJob j fun x => { x with nfaults := min (x.nfaults + 1) (2 ^ 32 - 1), lost := x.lost || lost }) := by
    intro t lost
    split
    · exact .refl t
    · exact keepsTeams_modJob t _ fun _ => rfl
  simp only [State.postTo]
  split
  · exact named s true
  · split
    · exact named s true
    · split
      · exact named s true
      · split
        · exact (named s false).trans (sameJobs_sibPost _ _ _ _ _).keepsTeams
        · exact (keepsTeams_count s _ _ _ _ (by decide)).trans (named _ true)

theorem keepsTeams_postFault (s : State) (f : FaultRec) : KeepsTeams s (s.postFault f) := keepsTeams_postTo s f _

theorem keepsTeams_park (s : State) (part va : Nat) (job : Option Nat) (ticket : Word) (src unit done : Nat) (w : ParkWork) :
    KeepsTeams s (s.park part va job ticket src unit done w) :=
  KeepsTeams.trans (SameJobs.keepsTeams (by constructor <;> rfl)) (keepsTeams_postFault _ _)

end Sys2Proof.Proofs

namespace Sys2Proof.Proofs

open Sys2Proof Sys2Proof.Machine Sys2Proof.Safety Sys2Proof.Laws

/-! ### The team of a job -/

/-- The job in a slot has a team of which this holds. -/
def HasTeam (s : State) (job : Nat) (p : Team → Prop) : Prop := ∃ y z, s.job? job = some y ∧ y.team = some z ∧ p z

theorem HasTeam.of_job {s : State} {job : Nat} {j : Job} {team : Team} (slot : s.job? job = some j) (h : j.team = some team) : HasTeam s job (· = team) :=
  ⟨j, team, slot, h, rfl⟩

theorem HasTeam.keeps {s t : State} {job : Nat} {p : Team → Prop} (h : HasTeam s job p) (k : KeepsJobs Job.team s t) : HasTeam t job p := by
  obtain ⟨y, z, slot, team, hp⟩ := h
  obtain ⟨y', slot', same⟩ := k.job slot
  exact ⟨y', z, slot', same.trans team, hp⟩

theorem HasTeam.modTeam {s : State} {job : Nat} {p q : Team → Prop} (h : HasTeam s job p) {f : Team → Team} (imp : ∀ z, p z → q (f z)) :
    HasTeam (s.modTeam job f) job q := by
  obtain ⟨y, z, slot, team, hp⟩ := h
  refine ⟨{ y with team := y.team.map f }, f z, ?_, by rw [team, Option.map_some], imp z hp⟩
  rw [State.modTeam, job_modJob, if_pos rfl, slot, Option.map_some]

/-! ### Placing a team (R51, R65, R66, R68, R71) -/

theorem keepsTeams_makeMember (s : State) (key job : Nat) (j : Job) (logical : Nat) (ticket : Word) : KeepsTeams s (s.makeMember key job j logical ticket) := by
  have started : ∀ args, KeepsTeams s (s.startMember key job j logical ticket args) := fun args => ⟨.of_jobs rfl, sliceLen_of_mmio rfl⟩
  have set : ∀ (t : State) (c : Ctx), KeepsTeams t (t.setCtx key c) := fun t c => ⟨.of_jobs rfl, sliceLen_of_mmio rfl⟩
  simp only [State.makeMember]
  split
  · exact started _
  · split
    · exact started _
    · exact (set s _).trans (keepsTeams_park _ _ _ _ _ _ _ _ _)
    · exact (set s _).trans (sameJobs_parkLink _ _ _ _ _).keepsTeams
    · exact (keepsTeams_postFault s _).trans (set _ _)

theorem keepsTeams_loadImage (s : State) (core : Nat) (j : Job) : KeepsTeams s (s.loadImage core j) := by
  refine .foldl (fun t p => ?_) _ s
  split
  · exact ⟨.of_jobs rfl, sliceLen_of_mmio rfl⟩
  all_goals exact .refl t

theorem keepsTeams_modCore (s : State) (i : Nat) (f : Core → Core) : KeepsTeams s (s.modCore i f) := ⟨.of_jobs rfl, sliceLen_of_mmio rfl⟩

theorem keepsTeams_placeChans {s t : State} {job : Nat} {j : Job} {l : List Place} (h : s.placeChans job j l = some t) : KeepsTeams s t := by
  obtain ⟨full, filled, fits⟩ := Option.bind_eq_some_iff.1 h
  have emptied : KeepsTeams s (l.foldl (fun (s : State) p => s.modCore p.core.val fun c => { c with chans := [] }) s) := .foldl (fun _ _ => keepsTeams_modCore _ _ _) l s
  have kept : ∀ u, l.foldl (fun (a : Option State) p => a.bind fun t => (s.memberChans job j p).map fun ch => t.modCore p.core.val fun c => { c with chans := ch })
      (some (l.foldl (fun (s : State) p => s.modCore p.core.val fun c => { c with chans := [] }) s)) = some u → KeepsTeams s u := by
    refine List.foldlRecOn (motive := fun a : Option State => ∀ u, a = some u → KeepsTeams s u) l _ (fun u e => Option.some.inj e ▸ emptied) fun a ih p _ u put => ?_
    obtain ⟨t, before, put⟩ := Option.bind_eq_some_iff.1 put
    obtain ⟨ch, -, rfl⟩ := Option.map_eq_some_iff.1 put
    exact (ih t before).trans (keepsTeams_modCore t _ _)
  split at fits
  · exact Option.some.inj fits ▸ kept full filled
  · cases fits

/-- What a team becomes when it is placed, its slice charged with the overrun that it carries (R65, R68). -/
def placed (l : List Place) (release len charge : Nat) (t : Team) : Team :=
  { t with phase := .placed, places := l, release := release, sliceEnd := release + (len - charge), carried := t.carried - charge, stopAt := none, stopPoint := none }

theorem placeTeam_eq {s u : State} {job : Nat} {j : Job} {t : Team} {l : List Place} {release : Nat} (h : s.placeTeam job j t l release = some u) :
    ∃ v, KeepsTeams s v ∧ u = v.modTeam job (placed l release (s.sliceLen j.part) (min t.carried (s.sliceLen j.part))) := by
  obtain ⟨c, chans, made⟩ := Option.bind_eq_some_iff.1 h
  have channels := keepsTeams_placeChans chans
  have one : ∀ (v : State) (p : Place), KeepsTeams v (match t.phase, v.savedMember job p.logical.val with
      | .waiting, _ => (v.loadImage p.core.val j).makeMember (placeKey p) job j p.logical.val 0
      | _, some x => if x.ctx.life = .free then v else v.setCtx (placeKey p) (memberCtx v (placeKey p) job j p.logical.val x.ctx.ticket .stopped .release)
      | _, none => v) := fun v p => by
    split
    · exact (keepsTeams_loadImage v _ _).trans (keepsTeams_makeMember _ _ _ _ _ _)
    · split
      · exact .refl v
      · exact ⟨.of_jobs rfl, sliceLen_of_mmio rfl⟩
    · exact .refl v
  have members := channels.trans (.foldl one l c)
  refine ⟨_, members, ?_⟩
  rw [← members.slices]
  exact (Option.some.inj made).symm

section TeamPlace

variable {s : State} {job : Fin 4096} {j : Job} {team : Team} {place : List Place} {release : Nat}

/-- The scheduler may give a waiting team these places, with this release cycle (R51, R65). -/
structure MayPlace (s : State) (job : Fin 4096) (j : Job) (team : Team) (place : List Place) (release : Nat) : Prop where
  slot : s.job? job.val = some j
  gang : j.team = some team
  waits : team.waits = true
  places : s.placesOk j place = true
  first : s.teamFirst job.val j team = false
  card : s.teamHeld job.val = false
  early : s.now ≤ release
  late : release ≤ s.now + 256 + s.fld .schedtune 0 23 0
  free : ∀ x ∈ place, s.placeFree job.val j x = true

theorem MayPlace.run (h : MayPlace s job j team place release) : exec (.teamPlace job place release) s =
    .next (if s.higherWaits j place then s.modTeam job.val fun t => { t with places := place }
      else if s.sliceLen j.part ≤ team.carried then
        s.fresh.2.modTeam job.val fun t => { t with carried := t.carried - s.sliceLen j.part, order := s.fresh.1, places := [] }
      else (s.placeTeam job.val j team place release).getD s) := by
  have inTime : ¬ (release < s.now ∨ s.now + 256 + s.fld .schedtune 0 23 0 < release) := by
    have := h.early
    have := h.late
    omega
  have allFree : (place.all fun p => s.placeFree job.val j p) = true := List.all_eq_true.2 h.free
  change Host.Outcome.next _ = _
  simp only [h.slot, h.gang, h.waits, h.places, h.first, h.card, inTime, allFree, Bool.not_true, Bool.or_false, decide_false, Bool.false_eq_true, if_false, if_true]

theorem MayPlace.hasTeam (h : MayPlace s job j team place release) : HasTeam s job.val (· = team) := .of_job h.slot h.gang

/-- Work of a higher level waits: the team reserves its cores. -/
theorem MayPlace.of_higher (h : MayPlace s job j team place release) (higher : s.higherWaits j place = true) :
    exec (.teamPlace job place release) s = .next (s.modTeam job.val fun t => { t with places := place }) := by
  rw [h.run, if_pos higher]

/-- A slice that the carried overrun eats is a turn skipped. -/
theorem MayPlace.of_spent (h : MayPlace s job j team place release) (calm : s.higherWaits j place = false) (spent : s.sliceLen j.part ≤ team.carried) :
    ∃ t, exec (.teamPlace job place release) s = .next t ∧
      HasTeam t job.val fun z => z.phase = team.phase ∧ z.places = [] ∧ z.carried = team.carried - s.sliceLen j.part := by
  refine ⟨_, by rw [h.run, if_neg (by rw [calm]; decide), if_pos spent], ?_⟩
  exact (h.hasTeam.keeps (t := s.fresh.2) (.of_jobs rfl)).modTeam fun z same => by
    subst same
    exact ⟨rfl, rfl, rfl⟩

/-- A team whose members can be made is placed. -/
theorem MayPlace.of_room (h : MayPlace s job j team place release) {u : State} (calm : s.higherWaits j place = false) (room : team.carried < s.sliceLen j.part)
    (made : s.placeTeam job.val j team place release = some u) : exec (.teamPlace job place release) s = .next u ∧
      HasTeam u job.val fun z => z.phase = .placed ∧ z.places = place ∧ z.release = release ∧ z.sliceEnd = release + (s.sliceLen j.part - team.carried) := by
  refine ⟨by rw [h.run, if_neg (by rw [calm]; decide), if_neg (Nat.not_le.2 room), made, Option.getD_some], ?_⟩
  obtain ⟨v, kept, rfl⟩ := placeTeam_eq made
  exact (h.hasTeam.keeps kept.teams).modTeam fun z _ => ⟨rfl, rfl, rfl, by rw [placed, Nat.min_eq_left (Nat.le_of_lt room)]⟩

end TeamPlace

end Sys2Proof.Proofs

namespace Sys2Proof.Proofs

open Sys2Proof Sys2Proof.Machine Sys2Proof.Safety Sys2Proof.Laws

/-! ### The release of a team (R25, R51) -/

theorem coreOf_placeKey (p : Place) : coreOf (placeKey p) = p.core.val := by
  have := p.ctx.isLt
  unfold coreOf placeKey
  omega

theorem placeKey_ne {p q : Place} (h : p.core ≠ q.core) : placeKey p ≠ placeKey q := fun same =>
  h (Fin.ext (by rw [← coreOf_placeKey p, ← coreOf_placeKey q, same]))

theorem nodup_placeKey {l : List Place} (h : (l.map fun p => p.core).Nodup) : (l.map placeKey).Nodup := by
  rw [List.nodup_iff_pairwise_ne, List.pairwise_map] at h ⊢
  exact h.imp placeKey_ne

/-- A team's context with the ticket that its core stamps at the release. -/
def ticketed (w : Word) (c : Ctx) : Ctx := { c with ticket := w, retained := c.retained.map fun r => { r with ticket := w } }

theorem ticketed_frame (w : Word) (c : Ctx) (job : Nat) : (ticketed w c).ofTeam job = c.ofTeam job ∧ (ticketed w c).life = c.life ∧ (ticketed w c).wait = c.wait ∧
    (ticketed w c).ticket = w := ⟨rfl, rfl, rfl, rfl⟩

theorem stampMember_of_free {s : State} {p : Place} (prio : Nat) (free : (s.core p.core.val).lastStamp ≠ some s.tbase.toNat) :
    s.stampMember (placeKey p) prio = (s.modCore p.core.val fun c => { c with lastStamp := some s.tbase.toNat }).modCtx (placeKey p)
      (ticketed (ticketOf prio s.tbase p.core.val)) := by
  rw [State.stampMember, coreOf_placeKey, State.stampCore, if_neg free]
  rfl

/-- The cores of a team stamp their tickets, each its own. -/
theorem stampMembers_results (prio : Nat) : ∀ (l : List Place) (s : State), (l.map fun p => p.core).Nodup → (∀ x ∈ l, (s.core x.core.val).lastStamp ≠ some s.tbase.toNat) →
    let t := l.foldl (fun (s : State) p => s.stampMember (placeKey p) prio) s
    t.jobs = s.jobs ∧ (∀ x ∈ l, t.ctx (placeKey x) = ticketed (ticketOf prio s.tbase x.core.val) (s.ctx (placeKey x))) ∧
      ∀ k, k ∉ l.map placeKey → t.ctx k = s.ctx k := by
  intro l
  induction l with
  | nil => exact fun s _ _ => ⟨rfl, by simp, fun _ _ => rfl⟩
  | cons p l ih =>
    intro s nodup free
    obtain ⟨other, nodup⟩ := List.nodup_cons.1 nodup
    have apart : ∀ x ∈ l, x.core ≠ p.core := fun x hx same => other (List.mem_map.2 ⟨x, hx, same⟩)
    simp only [List.foldl_cons, stampMember_of_free prio (free p (List.mem_cons_self ..))]
    obtain ⟨jobs, each, rest⟩ := ih ((s.modCore p.core.val fun c => { c with lastStamp := some s.tbase.toNat }).modCtx (placeKey p)
      (ticketed (ticketOf prio s.tbase p.core.val))) nodup fun x hx => by
        have same := core_modCore_ne s (fun c => { c with lastStamp := some s.tbase.toNat }) fun e => apart x hx (Fin.ext e)
        exact fun e => free x (List.mem_cons_of_mem _ hx) ((congrArg Core.lastStamp same).symm.trans e)
    refine ⟨jobs, fun x hx => ?_, fun k hk => ?_⟩
    · rcases List.mem_cons.1 hx with rfl | hx
      · refine (rest _ fun mem => ?_).trans (ctx_modCtx_same _ _ _)
        obtain ⟨y, hy, same⟩ := List.mem_map.1 mem
        exact placeKey_ne (apart y hy) same
      · exact (each x hx).trans (congrArg _ (ctx_modCtx_ne _ _ (placeKey_ne (apart x hx))))
    · obtain ⟨ne, out⟩ := not_or.1 (mt List.mem_cons.2 hk)
      exact (rest k out).trans (ctx_modCtx_ne _ _ ne)

/-- Every place of a team has its context changed once. -/
theorem ctx_foldl_modCtx (g : Ctx → Ctx) : ∀ (l : List Place) (s : State), (l.map placeKey).Nodup →
    let t := l.foldl (fun (s : State) p => s.modCtx (placeKey p) g) s
    t.jobs = s.jobs ∧ (∀ x ∈ l, t.ctx (placeKey x) = g (s.ctx (placeKey x))) ∧ ∀ k, k ∉ l.map placeKey → t.ctx k = s.ctx k := by
  intro l
  induction l with
  | nil => exact fun s _ => ⟨rfl, by simp, fun _ _ => rfl⟩
  | cons p l ih =>
    intro s nodup
    obtain ⟨other, nodup⟩ := List.nodup_cons.1 nodup
    obtain ⟨jobs, each, rest⟩ := ih (s.modCtx (placeKey p) g) nodup
    refine ⟨jobs, fun x hx => ?_, fun k hk => ?_⟩
    · rcases List.mem_cons.1 hx with rfl | hx
      · exact (rest _ other).trans (ctx_modCtx_same _ _ _)
      · exact (each x hx).trans (congrArg g (ctx_modCtx_ne _ _ fun same => other (List.mem_map.2 ⟨x, hx, same⟩)))
    · obtain ⟨ne, out⟩ := not_or.1 (mt List.mem_cons.2 hk)
      exact (rest k out).trans (ctx_modCtx_ne _ _ ne)

/-- What the release cycle makes of a context of the team. -/
def releasedBy (job : Nat) (c : Ctx) : Ctx := if c.ofTeam job then c.releaseFresh else c

theorem releasedBy_of_waiting {job : Nat} {c : Ctx} (mine : c.ofTeam job = true) (stopped : c.life = .stopped) (waits : c.wait = .release) :
    releasedBy job c = { c with life := .running, wait := .none } := by
  rw [releasedBy, if_pos mine]
  simp only [Ctx.releaseFresh, stopped, waits]

/-- The release of a team that has never run, in a cycle in which its cores can stamp. -/
theorem teamRelease_next {s : State} {job : Fin 4096} {j : Job} {team : Team} (slot : s.job? job.val = some j) (gang : j.team = some team) (placed : team.phase = .placed)
    (due : team.release ≤ s.now) (fresh : team.firstRelease = none) (free : ∀ x ∈ team.places, (s.core x.core.val).lastStamp ≠ some s.tbase.toNat) :
    let stamped := (s.unstamped job.val team).foldl (fun (s : State) p => s.stampMember (placeKey p) j.prio) s
    exec (.teamRelease job) s = .next (((team.places.foldl (fun (s : State) p => s.modCtx (placeKey p) (releasedBy job.val)) stamped).modTeam job.val fun t =>
      { t with phase := .running, firstRelease := some (t.firstRelease.getD t.release) }).firstTask job.val) := by
  have unstamped : ∀ x ∈ s.unstamped job.val team, x ∈ team.places := by
    simp only [State.unstamped, fresh, Option.isSome_none, Bool.false_eq_true, if_false]
    exact fun x hx => (List.mem_filter.1 hx).1
  have stampable : ((s.unstamped job.val team).any fun p => (s.stampCore p.core.val j.prio).isNone) = false := by
    rw [List.any_eq_false]
    intro x hx
    rw [State.stampCore, if_neg (free x (unstamped x hx))]
    exact Bool.false_ne_true
  change Host.Outcome.next _ = _
  have ready : ¬ (team.phase ≠ .placed ∨ s.now < team.release) := by simp [placed, due]
  simp only [slot, gang, if_neg ready, stampable, fresh, Option.isNone_none, if_true, Bool.false_eq_true, if_false]
  rfl

theorem teamRelease_results {s : State} {job : Fin 4096} {j : Job} {team : Team} (slot : s.job? job.val = some j) (gang : j.team = some team) (placed : team.phase = .placed)
    (due : team.release ≤ s.now) (fresh : team.firstRelease = none) (free : ∀ x ∈ team.places, (s.core x.core.val).lastStamp ≠ some s.tbase.toNat)
    (apart : (team.places.map fun x => x.core).Nodup) :
    ∃ t, exec (.teamRelease job) s = .next t ∧ (HasTeam t job.val fun z => z.phase = .running ∧ z.firstRelease = some team.release) ∧
      ∀ x ∈ team.places, (s.ctx (placeKey x)).ofTeam job.val = true → (s.ctx (placeKey x)).life = .stopped → (s.ctx (placeKey x)).wait = .release →
        (t.ctx (placeKey x)).life = .running ∧ (t.ctx (placeKey x)).wait = .none ∧ (t.ctx (placeKey x)).ticket = ticketOf j.prio s.tbase x.core.val := by
  refine ⟨_, teamRelease_next slot gang placed due fresh free, ?_⟩
  have unstamped : s.unstamped job.val team = team.places.filter fun p => (s.ctx (placeKey p)).ofTeam job.val && decide ((s.ctx (placeKey p)).life = .stopped) := by
    simp only [State.unstamped, fresh, Option.isSome_none, Bool.false_eq_true, if_false]
  obtain ⟨jobs, stamps, -⟩ := stampMembers_results j.prio (s.unstamped job.val team) s
    (by rw [unstamped]; exact apart.sublist (List.filter_sublist.map _)) (by rw [unstamped]; exact fun x hx => free x (List.mem_filter.1 hx).1)
  generalize (s.unstamped job.val team).foldl (fun (s : State) p => s.stampMember (placeKey p) j.prio) s = u at jobs stamps
  obtain ⟨jobs', releases, -⟩ := ctx_foldl_modCtx (releasedBy job.val) team.places u (nodup_placeKey apart)
  refine ⟨?_, fun x hx mine stopped waits => ?_⟩
  · exact (((HasTeam.of_job slot gang).keeps (.of_jobs (jobs'.trans jobs))).modTeam fun z same => by
      subst same
      exact ⟨rfl, by rw [fresh, Option.getD_none]⟩).keeps (keepsJobs_modJob _ _ fun _ => rfl)
  · have mine' : x ∈ s.unstamped job.val team := by
      rw [unstamped, List.mem_filter, mine, stopped]
      exact ⟨hx, rfl⟩
    obtain ⟨sameTeam, sameLife, sameWait, ticket⟩ := ticketed_frame (ticketOf j.prio s.tbase x.core.val) (s.ctx (placeKey x)) job.val
    have released := (releases x hx).trans ((congrArg (releasedBy job.val) (stamps x mine')).trans
      (releasedBy_of_waiting (sameTeam.trans mine) (sameLife.trans stopped) (sameWait.trans waits)))
    have runs : ∀ (v : State) f, v.ctxs = (team.places.foldl (fun (s : State) p => s.modCtx (placeKey p) (releasedBy job.val)) u).ctxs →
        ((v.modTeam job.val f).firstTask job.val).ctx (placeKey x) = _ := fun v f same =>
      (ctx_of_ctxs (((modJob_ctxs _ _ _).trans (modJob_ctxs _ _ _)).trans same) (placeKey x)).trans released
    rw [runs _ _ rfl]
    exact ⟨rfl, rfl, ticket⟩

/-! ### Slices (R67, R68, R76) -/

theorem empty_life (c : Ctx) (d : Dst) : (c.empty d).life = c.life := by
  cases d with
  | s r => unfold Ctx.empty; dsimp only; split <;> rfl
  | v _ | p _ | c _ | bt _ | lc _ _ | sys _ => rfl

theorem unlanded_life (c : Ctx) (stop : Nat) : (c.unlanded stop).life = c.life :=
  List.foldlRecOn (motive := fun x : Ctx => x.life = c.life) _ (fun (x : Ctx) (e : Dst × Nat) => x.empty e.1) rfl fun x same e _ => (empty_life x e.1).trans same

/-- A context that runs and has not been stopped is stopped (R401). -/
theorem stopped_life {c : Ctx} (now : Nat) (runs : c.life = .running) (free : c.stopReq = false) : (c.stopped now).life = .stopped := by
  have kept : ∀ x : Ctx, x.life = c.life → (if x.life = .running then Life.stopped else x.life) = .stopped := fun x same => by rw [same, runs, if_pos rfl]
  unfold Ctx.stopped
  rw [if_neg (by simp [runs, free])]
  refine kept _ ?_
  split
  · rfl
  · exact unlanded_life _ _

/-- What the stop request of a team makes of a context (R67). -/
def stoppedBy (job now : Nat) (c : Ctx) : Ctx := if c.ofTeam job && decide (c.life = .running) then { c.stopped now with stopReq := true } else c

/-- A stop request reaches every context of the team that runs, and leaves it stopped. -/
theorem stopRequests_life (job key : Nat) : ∀ (l : List Place) (s : State), let t := l.foldl (fun (s : State) p => s.modCtx (placeKey p) (stoppedBy job s.now)) s
    ((s.ctx key).life = .stopped → (t.ctx key).life = .stopped) ∧
    (key ∈ l.map placeKey → (s.ctx key).ofTeam job = true → (s.ctx key).life = .running → (s.ctx key).stopReq = false → (t.ctx key).life = .stopped) := by
  intro l
  induction l with
  | nil => exact fun s => ⟨id, by simp⟩
  | cons p l ih =>
    intro s
    obtain ⟨stays, stops⟩ := ih (s.modCtx (placeKey p) (stoppedBy job s.now))
    by_cases here : key = placeKey p
    · subst here
      rw [ctx_modCtx_same] at stays stops
      refine ⟨fun stopped => stays (by simp [stoppedBy, stopped]), fun _ mine runs free => stays ?_⟩
      rw [stoppedBy, if_pos (by simp [mine, runs])]
      exact stopped_life _ runs free
    · rw [ctx_modCtx_ne _ _ here] at stays stops
      exact ⟨stays, fun mem => stops ((List.mem_cons.1 mem).resolve_left here)⟩

theorem stopRequests_frame (job : Nat) (l : List Place) (s : State) : let t := l.foldl (fun (s : State) p => s.modCtx (placeKey p) (stoppedBy job s.now)) s
    t.jobs = s.jobs ∧ t.now = s.now :=
  List.foldlRecOn (motive := fun t : State => t.jobs = s.jobs ∧ t.now = s.now) l (fun (s : State) p => s.modCtx (placeKey p) (stoppedBy job s.now)) ⟨rfl, rfl⟩
    fun _ same _ _ => same

theorem stopTeam_of_running {s : State} {job : Nat} {j : Job} {team : Team} (slot : s.job? job = some j) (gang : j.team = some team) (runs : team.phase = .running) :
    let u := team.places.foldl (fun (s : State) p => s.modCtx (placeKey p) (stoppedBy job s.now)) s
    s.stopTeam job = u.modTeam job fun t => { t with phase := .stopping, stopAt := some u.now } := by
  rw [State.stopTeam, slot, Option.bind_some, gang]
  exact if_neg (by simp [runs])

theorem sliceStopRequest_results {s : State} {job : Fin 4096} {j : Job} {team : Team} (slot : s.job? job.val = some j) (gang : j.team = some team)
    (runs : team.phase = .running) (near : team.sliceEnd ≤ s.now + j.drain) (waiter : s.hasWaiter job.val j team = true) :
    ∃ t, exec (.sliceStopRequest job) s = .next t ∧ (HasTeam t job.val fun z => z.phase = .stopping ∧ z.stopAt = some s.now) ∧
      ∀ x ∈ team.places, (s.ctx (placeKey x)).ofTeam job.val = true → (s.ctx (placeKey x)).life = .running → (s.ctx (placeKey x)).stopReq = false →
        (t.ctx (placeKey x)).life = .stopped := by
  have due : team.phase = .running ∧ team.sliceEnd ≤ s.now + j.drain ∧ (s.hasWaiter job.val j team = true ∨ s.teamMoving team = true) := ⟨runs, near, .inl waiter⟩
  have run : exec (.sliceStopRequest job) s = .next (s.stopTeam job.val) := by
    change Host.Outcome.next _ = _
    simp only [slot, gang, if_pos due]
  obtain ⟨jobs, now⟩ := stopRequests_frame job.val team.places s
  refine ⟨_, run.trans (congrArg _ (stopTeam_of_running slot gang runs)), ?_, fun x hx mine running free => ?_⟩
  · exact ((HasTeam.of_job slot gang).keeps (.of_jobs jobs)).modTeam fun z _ => ⟨rfl, congrArg some now⟩
  · exact (congrArg Ctx.life (ctx_of_ctxs (modJob_ctxs _ _ _) _)).trans
      ((stopRequests_life job.val (placeKey x) team.places s).2 (List.mem_map_of_mem hx) mine running free)

/-- A slice that nobody waits for is renewed, with the charge of what the team carries. -/
theorem sliceEnd_results {s : State} {job : Fin 4096} {j : Job} {team : Team} (slot : s.job? job.val = some j) (gang : j.team = some team)
    (runs : team.phase = .running) (ended : team.sliceEnd ≤ s.now) (alone : s.hasWaiter job.val j team = false) (stays : s.teamMoving team = false) :
    ∃ t, exec (.sliceEnd job) s = .next t ∧ HasTeam t job.val fun z => z.phase = .running ∧
      z.sliceEnd = team.sliceEnd + (s.sliceLen j.part - min team.carried (s.sliceLen j.part)) ∧ z.carried = team.carried - min team.carried (s.sliceLen j.part) := by
  have due : team.phase = .running ∧ team.sliceEnd ≤ s.now ∧ s.hasWaiter job.val j team = false ∧ s.teamMoving team = false := ⟨runs, ended, alone, stays⟩
  have run : exec (.sliceEnd job) s = .next (s.modTeam job.val fun t => { t with
      sliceEnd := t.sliceEnd + (s.sliceLen j.part - min team.carried (s.sliceLen j.part)), carried := t.carried - min team.carried (s.sliceLen j.part) }) := by
    change Host.Outcome.next _ = _
    simp only [slot, gang, if_pos due]
  refine ⟨_, run, (HasTeam.of_job slot gang).modTeam fun z same => ?_⟩
  subst same
  exact ⟨runs, rfl, rfl⟩

end Sys2Proof.Proofs

namespace Sys2Proof.Proofs

open Sys2Proof Sys2Proof.Machine Sys2Proof.Safety Sys2Proof.Laws

/-! ### Every job keeps its team while other tasks go on and end (R137, R327, R361, R415) -/

theorem startExit_jobs (s : State) (a : ArrayId) : (s.startExit a).jobs = s.jobs := by
  unfold State.startExit State.setRetain
  split
  · split <;> rfl
  · split <;> rfl
  · rfl
  · rfl

theorem disarm_jobs (s : State) (w : Word) : (s.disarm w).jobs = s.jobs := by
  unfold State.disarm
  split <;> rfl

theorem releaseAll_jobs (s : State) (w : Word) : (s.releaseAll w).jobs = s.jobs := (sameRoots_releaseAll s w).jobs

theorem stampCore_jobs {s : State} {i prio : Nat} {x : Word × State} (h : s.stampCore i prio = some x) : x.2.jobs = s.jobs := by
  unfold State.stampCore at h
  split at h
  · cases h
  · cases h; rfl

theorem startHandler_jobs {s t : State} {key : Nat} {a : ArrivalRec} (h : s.startHandler key a = some t) : t.jobs = s.jobs := by
  unfold State.startHandler at h
  simp only at h
  split at h
  · cases h
  · obtain ⟨x, stamped, rfl⟩ := Option.map_eq_some_iff.1 h
    have kept := stampCore_jobs stamped
    split <;> exact kept

theorem deliverListed_jobs (s : State) (core : Nat) : (s.deliverListed core).jobs = s.jobs := by
  unfold State.deliverListed
  split
  · rfl
  · split
    · rfl
    · rename_i started
      obtain ⟨k, -, started⟩ := Option.bind_eq_some_iff.1 started
      have kept := startHandler_jobs started
      exact kept

theorem freeCtx_jobs (s : State) (key : Nat) : (s.freeCtx key).jobs = s.jobs := by
  unfold State.freeCtx
  simp only
  split
  · rfl
  · exact deliverListed_jobs _ _

theorem leaveCtx_jobs (s : State) (key : Nat) : (s.leaveCtx key).jobs = s.jobs := freeCtx_jobs _ _

theorem writeOut_jobs (s : State) (key : Nat) (pc : Offset) : (s.writeOut key pc).jobs = s.jobs := by
  unfold State.writeOut
  simp only
  split
  · exact leaveCtx_jobs _ _
  · rfl

theorem sleepOut_jobs (s : State) (key : Nat) : (s.sleepOut key).jobs = s.jobs := by
  unfold State.sleepOut
  simp only
  split
  · exact leaveCtx_jobs _ _
  · rfl

theorem storeRow_jobs (s : State) (k : Nat) (data : Row) (mask : BitVec 256) : (s.storeRow k data mask).jobs = s.jobs := (sameJobs_storeRow s k data mask).jobs

theorem publish_jobs (s : State) (copies : List (Nat × Row × Bool)) : (s.publish copies).jobs = s.jobs := by
  refine List.foldlRecOn (motive := fun t : State => t.jobs = s.jobs) copies _ rfl fun t same e _ => ?_
  have stored : ((t.touch e.1).storeRow (localKey e.1) e.2.1 fullMask).jobs = s.jobs := (storeRow_jobs _ _ _ _).trans same
  split
  · exact stored
  · exact stored

theorem poolPush_jobs (s : State) (part : BitVec 4) (card : BitVec 1024) (w : Word) : (s.poolPush part card w).jobs = s.jobs := by
  unfold State.poolPush
  split <;> rfl

theorem keepsJobs_emit (s : State) (c : Ctx) (d : Deferred) : KeepsJobs Job.team s (s.emit c d) := by
  cases d with
  | spawn r =>
    have pushed : KeepsJobs Job.team s (s.pushRec c.part.toNat r) := .of_jobs rfl
    exact pushed.trans (keepsJobs_modJob _ _ fun _ => rfl)
  | launch card => exact .of_jobs (poolPush_jobs s _ _ _)
  | copy _ => exact .refl s

theorem keepsJobs_relieved (s : State) (key : Nat) : KeepsJobs Job.team s (relieved s key) := by
  have emitted := (KeepsJobs.of_jobs (g := Job.team) (releaseAll_jobs s (s.ctx key).ticket)).trans
    (.foldl (fun t d => keepsJobs_emit t (s.ctx key) d) (((s.journal? (s.ctx key).ticket).map (·.deferred)).getD []) _)
  have disarmed := disarm_jobs ((((s.journal? (s.ctx key).ticket).map (·.deferred)).getD []).foldl (fun t d => t.emit (s.ctx key) d) (s.releaseAll (s.ctx key).ticket))
    (s.ctx key).ticket
  exact emitted.trans (.of_jobs (by exact disarmed))

theorem keepsJobs_completes (s : State) (job finish : Nat) (l : List Instr) :
    KeepsJobs Job.team s (((s.modJob job fun x => { x with complete := true, finish := finish }).releaseHandlers job).first l) :=
  KeepsJobs.trans (t := s.modJob job fun x => { x with complete := true, finish := finish }) (keepsJobs_modJob _ _ fun _ => rfl) (.of_jobs rfl)

theorem keepsJobs_rootAdd (s : State) (job wexp : Nat) (ticket : Word) : KeepsJobs Job.team s (s.rootAdd job wexp ticket) := by
  unfold State.rootAdd
  split
  · exact .refl s
  · simp only
    split
    · exact (keepsTeams_park s _ _ _ _ _ _ _ _).teams
    · split
      · exact (keepsTeams_postFault s _).teams
      · split
        · exact (keepsTeams_postFault s _).teams
        · split
          · exact .of_jobs (sameJobs_parkLink s _ _ _ _).jobs
          · have added : ∀ a w, KeepsJobs Job.team s ((s.storeBytes a 16 w).modJob job fun x => { x with ends := (x.ends + 1) % 2 ^ 32 }) := fun a w =>
              KeepsJobs.trans (t := s.storeBytes a 16 w) (.of_jobs (storeRow_jobs _ _ _ _)) (keepsJobs_modJob _ _ fun _ => rfl)
            split
            · exact (added _ _).trans (keepsJobs_completes _ _ _ _)
            · exact added _ _

theorem keepsJobs_retire (s : State) (key : Nat) : KeepsJobs Job.team s (s.retire key) := by
  have relieved := keepsJobs_relieved s key
  rw [retire_eq]
  split
  · exact relieved.trans (.of_jobs (freeCtx_jobs _ _))
  · split
    · exact (relieved.trans (keepsJobs_rootAdd _ _ _ _)).trans (.of_jobs (freeCtx_jobs _ _))
    · exact relieved.trans (.of_jobs rfl)

theorem keepsJobs_finishEnd (s : State) (key : Nat) : KeepsJobs Job.team s (s.finishEnd key) := by
  unfold State.finishEnd
  simp only
  split
  · exact .refl s
  · split
    · exact keepsJobs_retire s key
    · rename_i j _
      split
      · exact .foldl (fun t a => .of_jobs (startExit_jobs t _)) _ s
      · have ended : (if j.ended then s else (s.publish j.copies).setJournal (s.ctx key).ticket { j with ended := true, copies := [] }).jobs = s.jobs := by
          split
          · rfl
          · exact publish_jobs s _
        generalize (if j.ended then s else (s.publish j.copies).setJournal (s.ctx key).ticket { j with ended := true, copies := [] }) = u at ended
        split
        · split
          · exact .of_jobs ended
          · exact .of_jobs ended
        · exact KeepsJobs.trans (.of_jobs ended) (keepsJobs_retire _ key)

theorem keepsJobs_settle (s : State) : KeepsJobs Job.team s s.settle := by
  refine .foldl (fun t k => ?_) _ s
  simp only
  split
  · exact keepsJobs_finishEnd t k
  · split
    · exact .of_jobs rfl
    · exact .refl t
  · split
    · exact .refl t
    · exact .of_jobs rfl
  · exact .of_jobs (writeOut_jobs t _ _)
  · exact .of_jobs (sleepOut_jobs t _)
  · exact .refl t

theorem keepsJobs_performed (s : State) (id : Nat) : KeepsJobs Job.team s (s.performed id) :=
  KeepsJobs.trans (t := s.forget id true) (.of_jobs rfl) (keepsJobs_settle _)

/-! ### Saves (R67, R70, R76, R346, R401) -/

theorem wakeRow_jobs (s : State) (part q : Nat) (r : SaveRow) : (s.wakeRow part q r).jobs = s.jobs := by
  unfold State.wakeRow
  split
  · rfl
  · split
    · exact startExit_jobs s _
    · rfl
  · split
    · exact startExit_jobs s _
    · rfl

theorem putSave_jobs (s : State) (part q : Nat) (l : List (SaveRow × Row)) : (s.putSave part q l).jobs = s.jobs := by
  refine List.foldlRecOn (motive := fun t : State => t.jobs = s.jobs) l _ rfl fun t same e _ => ?_
  split
  · refine (storeRow_jobs _ _ _ _).trans ?_
    unfold State.touchKey
    split <;> exact same
  all_goals exact same

theorem placeRows_jobs : ∀ (l : List Row) (s : State) (x : Saved), (s.placeRows x l).2.jobs = s.jobs := by
  intro l
  induction l with
  | nil => exact fun _ _ => rfl
  | cons row t ih =>
    intro s x
    simp only [State.placeRows]
    split
    · rfl
    · split
      · exact (ih _ _).trans (putSave_jobs s _ _ _)
      all_goals exact wakeRow_jobs s _ _ _

end Sys2Proof.Proofs

namespace Sys2Proof.Proofs

open Sys2Proof Sys2Proof.Machine Sys2Proof.Safety Sys2Proof.Laws

/-! ### A context that is saved, and one that waits for memory or room (R70, R76, R401) -/

theorem storeRow_saved (s : State) (k : Nat) (data : Row) (mask : BitVec 256) : (s.storeRow k data mask).saved = s.saved := by
  unfold State.storeRow
  split <;> rfl

theorem touchKey_frame (s : State) (k : Nat) : (s.touchKey k).jobs = s.jobs ∧ (s.touchKey k).saved = s.saved := by
  unfold State.touchKey
  split <;> exact ⟨rfl, rfl⟩

theorem putSave_saved (s : State) (part q : Nat) (l : List (SaveRow × Row)) : (s.putSave part q l).saved = s.saved := by
  refine List.foldlRecOn (motive := fun t : State => t.saved = s.saved) l _ rfl fun t same e _ => ?_
  split
  · exact (storeRow_saved _ _ _ _).trans ((touchKey_frame t _).2.trans same)
  all_goals exact same

theorem vacate_results (s : State) (key : Nat) : (s.vacate key).jobs = s.jobs ∧ (s.vacate key).saved = s.saved ∧ ((s.vacate key).ctx key).life = .free := by
  have freed : ∀ t : State, ((t.modCtx key fun c => { Ctx.reset with chunks := c.chunks }).ctx key).life = .free := fun t => by
    rw [ctx_modCtx_same t key fun c => { Ctx.reset with chunks := c.chunks }]
    rfl
  unfold State.vacate
  simp only
  split
  · exact ⟨rfl, rfl, freed _⟩
  · exact ⟨rfl, rfl, freed _⟩

/-- A save that is made adds one saved form and frees its context; every job stays as it is. -/
theorem saveCtx_done {s u : State} {key : Nat} {ready : Bool} {log : List LogItem} (h : s.saveCtx key ready log = .done u) :
    u.jobs = s.jobs ∧ (∃ x, u.saved = s.saved ++ [x]) ∧ (u.ctx key).life = .free := by
  unfold State.saveCtx at h
  simp only at h
  split at h
  · cases h
  · split at h
    · cases h
    · split at h
      · cases h
      · cases h
        obtain ⟨jobs, saved, free⟩ := vacate_results _ key
        exact ⟨jobs.trans (putSave_jobs _ _ _ _), ⟨_, saved.trans (congrArg (· ++ _) (putSave_saved _ _ _ _))⟩, free⟩

/-- Two states hold the same jobs, contexts, saved forms and memory. -/
structure SameSaves (s t : State) : Prop where
  jobs : t.jobs = s.jobs
  ctxs : t.ctxs = s.ctxs
  saved : t.saved = s.saved
  mem : t.mem = s.mem

theorem SameSaves.trans {s t u : State} (h : SameSaves s t) (h' : SameSaves t u) : SameSaves s u :=
  ⟨h'.jobs.trans h.jobs, h'.ctxs.trans h.ctxs, h'.saved.trans h.saved, h'.mem.trans h.mem⟩

theorem sameSaves_startExit (s : State) (a : ArrayId) : SameSaves s (s.startExit a) := by
  unfold State.startExit State.setRetain
  split
  · split <;> exact ⟨rfl, rfl, rfl, rfl⟩
  · split <;> exact ⟨rfl, rfl, rfl, rfl⟩
  · exact ⟨rfl, rfl, rfl, rfl⟩
  · exact ⟨rfl, rfl, rfl, rfl⟩

theorem sameSaves_wakeRow (s : State) (part q : Nat) (r : SaveRow) : SameSaves s (s.wakeRow part q r) := by
  unfold State.wakeRow
  split
  · exact ⟨rfl, rfl, rfl, rfl⟩
  all_goals
    split
    · exact sameSaves_startExit s _
    · exact ⟨rfl, rfl, rfl, rfl⟩

theorem sameSaves_wakeRows (s : State) (part q : Nat) (l : List SaveRow) : SameSaves s (s.wakeRows part q l) :=
  List.foldlRecOn (motive := SameSaves s) l _ ⟨rfl, rfl, rfl, rfl⟩ fun t same r _ => same.trans (sameSaves_wakeRow t part q r)

/-! ### SAVE_RETRY (R76) -/

theorem retryLogs_of_none {s : State} (job : Nat) (empty : s.saved = []) : s.retryLogs job = s := by
  rw [State.retryLogs, empty]
  show ({ s with saved := [] } : State) = s
  rw [← empty]

theorem ctx_of_only {s : State} {key : Nat} {c : Ctx} (only : s.ctxs = [(key, c)]) : s.ctx key = c := by
  rw [State.ctx, only]
  simp [tgetD, tget]

/-- The retry of a job without a team, whose one stopped context waits to be saved and holds no card. -/
theorem saveRetry_next {s : State} {job : Fin 4096} {key : Nat} {c : Ctx} (gangless : ∀ x, s.job? job.val = some x → x.team = none) (only : s.ctxs = [(key, c)])
    (mine : c.job.toNat = job.val) (asked : c.stopReq = true) (alone : c.logical = 0xFF) (stopped : c.life = .stopped) (held : s.held = []) (saved : s.saved = []) :
    exec (.saveRetry job) s = .next (s.saveOrWait key c.lockFor.isNone) := by
  have here := ctx_of_only only
  have tried : s.retrySave key = s.saveOrWait key c.lockFor.isNone := by
    unfold State.retrySave
    simp [here, asked, alone, stopped, held]
  have all : (s.ctxs.filter fun e => decide (e.2.job.toNat = job.val)).foldl (fun (s : State) e => s.retrySave e.1) (s.retryLogs job.val) =
      s.saveOrWait key c.lockFor.isNone := by
    rw [retryLogs_of_none _ saved, only, List.filter_cons_of_pos (by simp [mine]), List.filter_nil, List.foldl_cons, List.foldl_nil, tried]
  change Host.Outcome.next _ = _
  rw [all]
  congr 1
  split
  · rfl
  · rename_i j slot
    rw [gangless j slot]

/-- A context already stopped is not stopped again. -/
theorem stopped_of_stopped {c : Ctx} (now : Nat) (h : c.life = .stopped) : c.stopped now = c := by simp [Ctx.stopped, h]

theorem saveOrWait_of_done {s u : State} {key : Nat} {c : Ctx} {ready : Bool} (here : s.ctx key = c) (h : s.saveCtx key ready [] = .done u) :
    s.saveOrWait key ready = u.overrun c.part.toNat (s.now - c.roomSince.getD s.now) := by
  rw [State.saveOrWait, h, ← here]

/-- A stopped context whose save waits stays stopped, and asks to be saved. -/
theorem saveOrWait_of_wait {s : State} {key : Nat} {c : Ctx} {ready : Bool} (here : s.ctx key = c) (stopped : c.life = .stopped)
    (h : (∃ o q l, s.saveCtx key ready [] = .wait o q l) ∨ s.saveCtx key ready [] = .noRoom) :
    ((s.saveOrWait key ready).ctx key).life = .stopped ∧ ((s.saveOrWait key ready).ctx key).stopReq = true ∧ (s.saveOrWait key ready).saved = s.saved ∧
      (s.saveOrWait key ready).mem = s.mem := by
  rcases h with ⟨o, q, l, h⟩ | h
  · have kept := sameSaves_wakeRows s o q l
    rw [State.saveOrWait, h]
    refine ⟨?_, ?_, kept.saved, kept.mem⟩
    · rw [ctx_modCtx_same _ key fun c => { (c.stopped s.now) with stopReq := true }, ctx_of_ctxs kept.ctxs, here, stopped_of_stopped _ stopped]
      exact stopped
    · rw [ctx_modCtx_same _ key fun c => { (c.stopped s.now) with stopReq := true }]
  · rw [State.saveOrWait, h]
    refine ⟨?_, ?_, rfl, rfl⟩
    · rw [ctx_modCtx_same _ key fun c => { (c.stopped s.now) with stopReq := true, roomSince := some (c.roomSince.getD s.now) }, here, stopped_of_stopped _ stopped]
      exact stopped
    · rw [ctx_modCtx_same _ key fun c => { (c.stopped s.now) with stopReq := true, roomSince := some (c.roomSince.getD s.now) }]

theorem saveRetry_of_done {s u : State} {job : Fin 4096} {key : Nat} {c : Ctx} (only : s.ctxs = [(key, c)]) (saved : s.saved = [])
    (run : exec (.saveRetry job) s = .next (s.saveOrWait key c.lockFor.isNone)) (made : s.saveCtx key c.lockFor.isNone [] = .done u) :
    exec (.saveRetry job) s = .next (u.overrun c.part.toNat (s.now - c.roomSince.getD s.now)) ∧ (u.ctx key).life = .free ∧ u.saved.length = 1 := by
  obtain ⟨-, ⟨x, one⟩, free⟩ := saveCtx_done made
  exact ⟨by rw [run, saveOrWait_of_done (ctx_of_only only) made], free, by rw [one, saved]; rfl⟩

/-! ### STOP_POINT (R67, R68, R76) -/

theorem keepsJobs_overrun (s : State) (part cycles : Nat) : KeepsJobs Job.team s (s.overrun part cycles) := by
  unfold State.overrun
  split
  · exact .refl s
  · exact .of_jobs rfl

theorem keepsJobs_leaveCore (s : State) (job : Nat) (p : Place) (sent : List Nat) : KeepsJobs Job.team s (s.leaveCore job p sent) := by
  unfold State.leaveCore
  refine KeepsJobs.trans (t := ({ s with
    parked := s.parked.filter fun x => decide (x.work ≠ ParkWork.argument (placeKey p))
    barriers := s.barriers.filter fun e => decide (e.2.2.1 ≠ job ∨ e.2.2.2 ≠ (placeKey p)) } : State).modCore p.core.val fun c => { c with chans := [] })
    (.of_jobs rfl) ?_
  exact .foldl (fun t id => keepsJobs_performed t id) sent _

theorem keepsJobs_saveMember {s u : State} {job : Nat} {j : Job} {p : Place} (h : s.saveMember job j p = .done u) : KeepsJobs Job.team s u := by
  unfold State.saveMember at h
  simp only at h
  split at h
  · split at h
    · rename_i made
      cases h
      exact KeepsJobs.trans (.of_jobs (saveCtx_done made).1) (keepsJobs_leaveCore _ _ _ _)
    · rename_i other
      exact absurd h (other u)
  · cases h
    refine KeepsJobs.trans ?_ (keepsJobs_leaveCore _ _ _ _)
    exact .of_jobs (placeRows_jobs _ _ _)

theorem keepsJobs_saveMembers {job : Nat} {j : Job} {u : State} : ∀ (l : List Place) {s : State}, s.saveMembers job j l = .done u → KeepsJobs Job.team s u := by
  intro l
  induction l with
  | nil =>
    intro s h
    cases h
    exact .refl u
  | cons p l ih =>
    intro s h
    unfold State.saveMembers at h
    split at h
    · rename_i t saved
      exact (keepsJobs_saveMember saved).trans (ih h)
    · rename_i other
      exact absurd h (other u)

section StopPoint

variable {s : State} {job : Fin 4096} {j : Job} {team : Team} (slot : s.job? job.val = some j) (gang : j.team = some team) (stopping : team.phase = .stopping)
  (drained : s.teamDrained job.val team = true)

include slot gang stopping drained

theorem stopPoint_next : exec (.stopPoint job) s = .next (s.saveTeam job.val j team) := by
  have due : team.phase = .stopping ∧ s.teamDrained job.val team = true := ⟨stopping, drained⟩
  change Host.Outcome.next _ = _
  simp only [slot, gang, if_pos due]

/-- A team of which every core is saved is swapped out. -/
theorem stopPoint_of_done {u : State} (made : s.saveMembers job.val j team.places = .done u) :
    ∃ t, exec (.stopPoint job) s = .next t ∧ HasTeam t job.val fun z => z.phase = .swapped ∧ z.places = [] := by
  refine ⟨_, stopPoint_next slot gang stopping drained, ?_⟩
  rw [State.saveTeam, made]
  exact (((HasTeam.of_job slot gang).keeps ((keepsJobs_saveMembers _ made).trans (.of_jobs (t := u.fresh.2) rfl))).modTeam fun z _ => ⟨rfl, rfl⟩).keeps
    (keepsJobs_overrun _ _ _)

/-- A team of which one save waits stands at its stop point, which it keeps from its first wait on. -/
theorem stopPoint_of_wait (waits : (∃ o q l, s.saveMembers job.val j team.places = .wait o q l) ∨ s.saveMembers job.val j team.places = .noRoom) :
    ∃ t, exec (.stopPoint job) s = .next t ∧ HasTeam t job.val fun z => z.phase = .stopped ∧ z.stopPoint = some (team.stopPoint.getD s.now) := by
  refine ⟨_, stopPoint_next slot gang stopping drained, ?_⟩
  have gathered := HasTeam.of_job slot gang
  rcases waits with ⟨o, q, l, h⟩ | h
  · rw [State.saveTeam, h]
    exact (gathered.keeps (.of_jobs (sameSaves_wakeRows s o q l).jobs)).modTeam fun z same => by
      subst same
      exact ⟨rfl, rfl⟩
  · rw [State.saveTeam, h]
    exact gathered.modTeam fun z same => by
      subst same
      exact ⟨rfl, rfl⟩

/-- A team of which one save lies outside every window stays stopped and unsaved. -/
theorem stopPoint_of_bad {a : Nat} (bad : s.saveMembers job.val j team.places = .bad a) :
    ∃ t, exec (.stopPoint job) s = .next t ∧ HasTeam t job.val fun z => z.phase = .stopped ∧ z.stopPoint = none := by
  refine ⟨_, stopPoint_next slot gang stopping drained, ?_⟩
  rw [State.saveTeam, bad]
  exact ((HasTeam.of_job slot gang).modTeam fun z _ => ⟨rfl, rfl⟩).keeps (keepsTeams_postFault _ _).teams

end StopPoint

end Sys2Proof.Proofs

namespace Sys2Proof.Proofs

open Sys2Proof Sys2Proof.Machine Sys2Proof.Safety Sys2Proof.Laws

/-! ### The scheduler's instructions together (R29, R50 to R68, R76) -/

/-- The three instructions by which a context takes work do nothing when there is none for it. -/
theorem takes_of_nothing {s : State} {core : Fin 128} {ctx : Fin 8} (h : s.wants (core.val * 8 + ctx.val) = none) :
    exec (.takeWork core ctx) s = .next s ∧ exec (.chunkTake core ctx) s = .next s ∧ exec (.chunkSteal core ctx) s = .next s :=
  ⟨congrArg Host.Outcome.next (take_of_nothing _ h), congrArg Host.Outcome.next (take_of_nothing _ h), congrArg Host.Outcome.next (take_of_nothing _ h)⟩

/-- Settles O51, clause by clause from the lemma that says what each instruction of the scheduler does. -/
theorem schedulingResults : Obligations.SchedulingResults := by
  unfold Obligations.SchedulingResults
  intro s u core ctx job j lvl ra port key d part running alone
  refine ⟨takes_of_nothing, fun level i e wants alone record => takeWork_queued wants alone.1 alone.2 record, ?chunks,
    fun p card slot pool held waits ok free root => poolDuty_next pool held waits ok free root, fun slot => ⟨?_, ?place, ?_, ?_, ?_, ?stop⟩, ?retry⟩
  case chunks =>
    intro words wants alone slot stamps size own left chunk reads
    refine ⟨fun some_left read => ?_, fun v empty die most => ?_⟩
    · obtain ⟨t, run, runs, index, range⟩ := chunkTake_results wants alone.1 alone.2 ⟨slot, stamps, size, read⟩ (hi := own.2) rfl some_left
      exact ⟨t, run, runs, range, index⟩
    · intro r lo some_there read
      exact chunkSteal_results wants alone.1 alone.2 ⟨slot, stamps, size, read⟩ empty (victim_of_most die most) some_there
  case place =>
    intro team place release gang waits places first card early late free
    have may : MayPlace s job j team place release := ⟨slot, gang, waits, places, first, card, early, late, free⟩
    exact ⟨may.of_higher, may.of_spent, may.of_room⟩
  case stop =>
    exact fun team gang stopping drained => ⟨stopPoint_of_done slot gang stopping drained, stopPoint_of_wait slot gang stopping drained,
      fun a => stopPoint_of_bad slot gang stopping drained⟩
  case retry =>
    intro c gangless only mine asked alone stopped held saved save
    have run := saveRetry_next gangless only mine asked alone stopped held saved
    exact ⟨saveRetry_of_done only saved run, fun waits => ⟨_, run, saveOrWait_of_wait (ctx_of_only only) stopped waits⟩⟩
  · exact fun k complete quiet spot aligned clean => completionRecord_results slot complete quiet spot aligned clean
  · exact fun team gang placed due fresh free apart => teamRelease_results slot gang placed due fresh free apart
  · exact fun team gang runs near waiter => sliceStopRequest_results slot gang runs near waiter
  · exact fun team gang runs ended alone stays => sliceEnd_results slot gang runs ended alone stays

end Sys2Proof.Proofs

namespace Sys2Proof.Proofs

open Sys2Proof Sys2Proof.Machine Sys2Proof.Safety Sys2Proof.Laws

/-! ### Rows that a slot operation reaches (R262, R354) -/

/-- An access that nothing holds goes on with the addresses of its rows. -/
theorem pathC_of_reaches {s : State} {l addrs : List Nat} (h : Reaches s l addrs) (f : List Nat → State → State) : s.pathC l f = f addrs s := by
  obtain ⟨⟨unfenced, unpushed⟩, at_, owned⟩ := h
  have unheld : (decide (s.issue.slot = .mem) && s.pushing || s.fenced 0) = false := by simpa [unfenced] using unpushed
  simp only [State.pathC, unheld, at_, owned, Bool.false_eq_true, if_false]

theorem rowValue_of_clean {s : State} {a : Nat} (clean : (s.loadRow a).2 = none) : s.rowValue a = ((s.loadRow a).1, s.touch a) := by
  rw [State.rowValue, clean]

theorem holdsAny_of_bare {s : State} {w : Word} (bare : s.journal? w = none) : s.holdsAny w = false := by rw [State.holdsAny, bare]

/-! ### ARM (R142) -/

/-- The handler that an ARM of classes `a` at priority `b` makes of a free context. -/
def dormantHandler (s : State) (a b : Fin 64) (k : Nat) : Ctx :=
  { Ctx.reset with
    life := .dormant, armed := some ((srcS s a).setWidth 24, (srcS s b).setWidth 8), job := s.issue.src.job, part := s.issue.src.part
    image := s.issue.src.image, prio := s.issue.src.prio, vregs := s.jobVregs s.issue.src.job.toNat, chunks := (s.ctx k).chunks }

theorem deliverListed_of_none {s : State} {core : Nat} (h : (s.core core).arrivals = []) : s.deliverListed core = s := by
  rw [State.deliverListed, h, List.find?_nil]

theorem arm_of_target {s : State} {a b : Fin 64} {k : Nat} (ready : Ready s [.s a, .s b] []) (user : s.issue.src.sup = false)
    (target : s.armTarget s.issue.key = some k) (unlisted : (s.core (coreOf k)).arrivals = []) :
    exec (.arm a b) s = .next ((s.own fun x => { x with wait := .none }).setCtx k (dormantHandler s a b k)) := by
  change Host.Outcome.next _ = _
  rw [taskControl_of_user user, slot_of_ready ready, target]
  exact congrArg Host.Outcome.next (deliverListed_of_none unlisted)

theorem arm_of_no_target {s : State} {a b : Fin 64} (ready : Ready s [.s a, .s b] []) (user : s.issue.src.sup = false)
    (full : s.armTarget s.issue.key = none) : exec (.arm a b) s = .next (s.own fun x => { x with wait := .arm }).waits := by
  change Host.Outcome.next _ = _
  rw [taskControl_of_user user, slot_of_ready ready, full]

/-! ### LAUNCH (R143, R55, R56) -/

theorem poolPush_of_room {s : State} {part : BitVec 4} (card : BitVec 1024) (w : Word) (room : (s.pool.filter fun e => decide (e.1 = part)).length < 256) :
    s.poolPush part card w = { s with pool := s.pool ++ [(part, card)] } := if_pos room

theorem poolPush_of_full {s : State} {part : BitVec 4} (card : BitVec 1024) (w : Word) (full : 256 ≤ (s.pool.filter fun e => decide (e.1 = part)).length) :
    s.poolPush part card w = { s with held := s.held ++ [(w, part, card)] } := if_neg (Nat.not_lt.2 full)

/-- A LAUNCH of a task that holds no granule enters its card; on a full pool its context leaves the core. -/
theorem launch_of_bare {s : State} {a : Fin 64} {addr : Nat} (ready : Ready s [.s a] []) (user : s.issue.src.sup = false)
    (reaches : Reaches s [rowOf ((srcS s a).toNat % 2 ^ 40 / 128 * 128)] [addr]) (clean : (s.loadRow addr).2 = none) (bare : s.journal? s.issue.src.ticket = none) :
    let card := BitVec.ofNat 1024 (nbytes (s.loadRow addr).1.toNat ((srcS s a).toNat % 2 ^ 40 / 128 * 128 % 256) 128)
    let entered := (s.touch addr).poolPush s.issue.src.part card s.issue.src.ticket
    exec (.launch a) s = .next (if 256 ≤ (s.pool.filter fun e => decide (e.1 = s.issue.src.part)).length then
      entered.own fun x => { x with wait := .pool } else entered) := by
  intro card entered
  change Host.Outcome.next _ = _
  rw [taskControl_of_user user, slot_of_ready ready]
  change Host.Outcome.next (s.pathC [rowOf ((srcS s a).toNat % 2 ^ 40 / 128 * 128)] _) = _
  rw [pathC_of_reaches reaches]
  simp only [List.headD_cons, rowValue_of_clean clean, holdsAny_of_bare bare, Bool.false_eq_true, if_false, decide_eq_true_eq]
  rfl

/-! ### BAR (R144, R329, R330) -/

/-- A team context that waits at its barrier, its arrival listed. -/
def atBarrier (s : State) (scope : Fin 8) (id : Fin 64) : State :=
  { s.own (fun x => { x with wait := .barrier scope.val id.val }) with
    barriers := s.barriers ++ [(scope.val, id.val, s.issue.src.job.toNat, s.issue.key)] }

theorem bar_of_team {s : State} (scope : Fin 8) (id : Fin 64) (user : s.issue.src.sup = false) (team : s.issue.src.logical ≠ 0xFF) :
    exec (.bar scope id) s =
      .next (if scope = 5 then (atBarrier s scope id).holdPod s.issue.src.job.toNat id.val else atBarrier s scope id) := by
  change Host.Outcome.next _ = _
  rw [taskControl_of_user user, if_pos (by simpa [State.inTeam] using team), slot_of_ready (ready_nil s)]
  simp only [Fin.ext_iff]
  rfl

theorem bar_of_alone {s : State} (scope : Fin 8) (id : Fin 64) (user : s.issue.src.sup = false) (alone : s.issue.src.logical = 0xFF) :
    exec (.bar scope id) s = .next (s.trapSlot cPriv 0 0) := by
  change Host.Outcome.next _ = _
  rw [taskControl_of_user user, if_neg (by simp [State.inTeam, alone])]

/-- An id that a team of the partition holds stays with that team. -/
theorem holdPod_of_held {s : State} {job id : Nat} (held : (tget s.podHolders (((s.job? job).map Job.part).getD 0, id)).isSome = true) : s.holdPod job id = s :=
  if_pos held

theorem holdPod_of_vacant {s : State} {job id : Nat} (vacant : tget s.podHolders (((s.job? job).map Job.part).getD 0, id) = none) :
    s.holdPod job id = { s with podHolders := tset s.podHolders (((s.job? job).map Job.part).getD 0, id) job } := if_neg (by simp [vacant])

/-- Settles O14, from what each of the three operations does. -/
theorem armLaunchBarResults : Obligations.ArmLaunchBarResults := by
  unfold Obligations.ArmLaunchBarResults
  intro s a b addr k scope id ready user
  have readyA : Ready s [.s a] [] := Ready.mono ready (by simp) (by simp)
  refine ⟨fun target unlisted => ⟨_, arm_of_target ready user target unlisted, ?_⟩, arm_of_no_target ready user, fun reaches clean bare => ?_,
    fun team => ⟨fun held => ?_, fun pod vacant => ?_⟩, bar_of_alone scope id user⟩
  · rw [ctx_setCtx_same]
    exact ⟨rfl, rfl, rfl, rfl, rfl⟩
  · have run := launch_of_bare readyA user reaches clean bare
    refine ⟨fun room => ?_, fun full => ?_⟩
    · rw [run, if_neg (Nat.not_le.2 room), poolPush_of_room (s := s.touch addr) _ _ room]; rfl
    · rw [run, if_pos full, poolPush_of_full (s := s.touch addr) _ _ full]; rfl
  · rw [bar_of_team scope id user team]
    rcases held with other | some
    · rw [if_neg other]; rfl
    · rw [holdPod_of_held (s := atBarrier s scope id) some, ite_self]; rfl
  · rw [bar_of_team scope id user team, if_pos pod, holdPod_of_vacant (s := atBarrier s scope id) vacant]; rfl

end Sys2Proof.Proofs

namespace Sys2Proof.Proofs

open Sys2Proof Sys2Proof.Machine Sys2Proof.Safety Sys2Proof.Laws

/-! ### Registers of states with the same table -/

theorem reg_of_mmio {s t : State} (h : t.mmio = s.mmio) {r : MReg} (hf : r.fam ≠ .tbase) : t.reg r = s.reg r := by simp [State.reg, hf, h]

theorem fld_of_mmio {s t : State} (h : t.mmio = s.mmio) {f : MFam} (i hi lo : Nat) (hf : f ≠ .tbase) : t.fld f i hi lo = s.fld f i hi lo := by
  rw [State.fld, reg_of_mmio h (r := ⟨f, i⟩) hf, State.fld]

/-! ### The ringmaster (R47) -/

/-- A write that only the owner may make: it is done for the owner, denied to any other agent, and has no effect where the pages do not answer. -/
theorem ownerWrite_of_owner {s : State} {agent : Nat} (f : State → State) (hears : s.hears agent = true) (owner : s.isOwner agent = true) :
    s.ownerWrite agent f = f s := by
  rw [State.ownerWrite, if_pos hears, if_pos owner]

theorem ownerWrite_of_other {s : State} {agent : Nat} (f : State → State) (hears : s.hears agent = true) (other : s.isOwner agent = false) :
    s.ownerWrite agent f = s.denied := by
  rw [State.ownerWrite, if_pos hears, other, if_neg Bool.false_ne_true]

theorem hears_of_answering {s : State} {agent : Nat} (h : s.running = true ∨ agent ≠ 0) : s.hears agent = true := by
  simpa [State.hears] using h

theorem not_hears_of_recovery {s : State} (h : s.running = false) : s.hears 0 = false := by simp [State.hears, h]

/-- OWNER after a change of owner. -/
theorem changeOwner_fields (s : State) (agent : Option Nat) (low : agent.getD 0xFF < 2 ^ 8) : let t := s.changeOwner agent
    t.fld .owner 0 7 0 = agent.getD 0xFF ∧ t.fld .owner 0 8 8 = agent.isNone.toNat ∧ t.fld .owner 0 31 16 = (s.fld .owner 0 31 16 + 1) % 2 ^ 16 := by
  have bit : agent.isNone.toNat < 2 ^ (8 + 1 - 8) := Bool.toNat_lt _
  simp only [State.changeOwner]
  refine ⟨?_, ?_, ?_⟩
  · rw [fld_setFld_other _ 0 _ (by decide) (by decide) (by decide) (by decide), fld_setFld_other _ 0 _ (by decide) (by decide) (by decide) (by decide),
      fld_setFld_of_lt _ 0 (by decide) (by decide) low]
  · rw [fld_setFld_other _ 0 _ (by decide) (by decide) (by decide) (by decide), fld_setFld_of_lt _ 0 (by decide) (by decide) bit]
  · rw [fld_setFld_same _ 0 _ _ (by decide) (by decide), fld_setFld_other _ 0 _ (by decide) (by decide) (by decide) (by decide),
      fld_setFld_other _ 0 _ (by decide) (by decide) (by decide) (by decide)]
    rfl

theorem vacant_eq_false {s : State} (h : s.fld .owner 0 8 8 = 0) : s.vacant = false := by simp [State.vacant, h]

theorem isOwner_of_fields {s : State} {agent : Nat} (held : s.vacant = false) (is : s.fld .owner 0 7 0 = agent) : s.isOwner agent = true := by
  simp [State.isOwner, held, is]

/-- A candidate is one of the sixteen agents of CANDMASK. -/
theorem candidate_lt {s : State} {agent : Nat} (h : s.candidate agent = true) : agent < 16 := by
  simp only [State.candidate, Bool.and_eq_true, decide_eq_true_eq] at h
  exact h.1

/-- The module has passed to an agent, and EPOCH counts it. -/
def PassedTo (s t : State) (agent : Nat) : Prop :=
  t.isOwner agent = true ∧ t.vacant = false ∧ t.fld .owner 0 31 16 = (s.fld .owner 0 31 16 + 1) % 2 ^ 16

theorem changeOwner_passes (s : State) {agent : Nat} (candidate : s.candidate agent = true) : PassedTo s (s.changeOwner (some agent)) agent := by
  have := candidate_lt candidate
  obtain ⟨is, held, epoch⟩ := changeOwner_fields s (some agent) (show agent < 2 ^ 8 by omega)
  exact ⟨isOwner_of_fields (vacant_eq_false held) is, vacant_eq_false held, epoch⟩

theorem PassedTo.of_mmio {s t u : State} {agent : Nat} (h : PassedTo s t agent) (same : u.mmio = t.mmio) : PassedTo s u agent := by
  have fld : ∀ hi lo, u.fld .owner 0 hi lo = t.fld .owner 0 hi lo := fun hi lo => fld_of_mmio same 0 hi lo (by decide)
  simpa only [PassedTo, State.isOwner, State.vacant, fld] using h

/-! ### CLAIM and HANDOVER (R47, R432) -/

theorem claim_next {s : State} {agent : Nat} (v : Word) (hears : s.hears agent = true) : exec (.claim agent v) s = .next (s.claimBy agent v) := by
  change Host.Outcome.next _ = _
  rw [hears, if_pos rfl]

theorem handover_next (s : State) (agent : Nat) (v : Word) : exec (.handover agent v) s = .next (s.ownerWrite agent fun s => s.handOver agent v) := rfl

/-- Through BAR0 nothing is written in recovery. -/
theorem unheard_of_recovery {s : State} (v : Word) (h : s.running = false) : exec (.claim 0 v) s = .next s ∧ exec (.handover 0 v) s = .next s := by
  have deaf := not_hears_of_recovery h
  constructor
  · change Host.Outcome.next _ = _
    rw [deaf, if_neg Bool.false_ne_true]
  · rw [handover_next, State.ownerWrite, deaf, if_neg Bool.false_ne_true]

theorem claimBy_of_vacant {s : State} {agent : Nat} {v : Word} (asks : v.getLsbD 0 = true) (candidate : s.candidate agent = true) (vacant : s.vacant = true) :
    s.claimBy agent v = { s.changeOwner (some agent) with claimed := some s.now } := by
  simp [State.claimBy, asks, candidate, vacant]

/-- Of several claims in one cycle the lowest agent's stands. -/
theorem claimBy_of_lower {s : State} {agent : Nat} {v : Word} (asks : v.getLsbD 0 = true) (candidate : s.candidate agent = true) (held : s.vacant = false)
    (now : s.claimed = some s.now) (lower : agent < s.fld .owner 0 7 0) : s.claimBy agent v = s.setFld .owner 0 7 0 agent := by
  simp [State.claimBy, asks, candidate, held, now, lower]

theorem claimBy_of_not {s : State} {agent : Nat} {v : Word}
    (h : v.getLsbD 0 = false ∨ s.candidate agent = false ∨ (s.vacant = false ∧ ¬ (s.claimed = some s.now ∧ agent < s.fld .owner 0 7 0))) : s.claimBy agent v = s := by
  rcases h with silent | stranger | ⟨held, late⟩
  · rw [State.claimBy, silent, Bool.false_and, if_neg Bool.false_ne_true]
  · rw [State.claimBy, stranger, Bool.and_false, if_neg Bool.false_ne_true]
  · rw [State.claimBy, held, if_neg Bool.false_ne_true, if_neg late, ite_self]

theorem setOwner_keeps {s : State} {agent : Nat} (low : agent < 2 ^ 8) (held : s.vacant = false) : let t := s.setFld .owner 0 7 0 agent
    t.isOwner agent = true ∧ t.fld .owner 0 31 16 = s.fld .owner 0 31 16 := by
  have other : ∀ hi lo, hi < 64 → 7 < lo → (s.setFld .owner 0 7 0 agent).fld .owner 0 hi lo = s.fld .owner 0 hi lo :=
    fun hi lo h l => fld_setFld_other s 0 agent (by decide) (by decide) h (.inl l)
  refine ⟨isOwner_of_fields ?_ (fld_setFld_of_lt s 0 (by decide) (by decide) low), other 31 16 (by decide) (by decide)⟩
  rw [State.vacant, other 8 8 (by decide) (by decide)]
  exact held

theorem handOver_of_candidate {s : State} {agent : Nat} {v : Word} (epoch : nbits v.toNat 31 16 = s.fld .owner 0 31 16)
    (candidate : s.candidate (nbits v.toNat 7 0) = true) (other : nbits v.toNat 7 0 ≠ agent) : s.handOver agent v = s.changeOwner (some (nbits v.toNat 7 0)) := by
  simp [State.handOver, epoch, candidate, other]

theorem handOver_of_not {s : State} {agent : Nat} {v : Word} (h : nbits v.toNat 31 16 ≠ s.fld .owner 0 31 16 ∨ s.candidate (nbits v.toNat 7 0) = false) :
    s.handOver agent v = s := by
  rcases h with stale | stranger
  · simp [State.handOver, stale]
  · simp [State.handOver, stranger]

/-- A denied write sets DENIED, and OWNER keeps its other fields. -/
theorem denied_results (s : State) : s.denied.fld .owner 0 9 9 = 1 ∧ s.denied.fld .owner 0 8 0 = s.fld .owner 0 8 0 ∧
    s.denied.fld .owner 0 31 16 = s.fld .owner 0 31 16 ∧ SameMem s s.denied := by
  simp only [State.denied, State.raise, fld_event]
  exact ⟨fld_setFld_of_lt s 0 (by decide) (by decide) (by decide), fld_setFld_other s 0 1 (by decide) (by decide) (by decide) (by decide),
    fld_setFld_other s 0 1 (by decide) (by decide) (by decide) (by decide), fun _ => rfl, fun _ => rfl⟩

theorem ownerLinkReset_next (s : State) : exec .ownerLinkReset s = .next (if s.vacant then s else s.changeOwner none) := rfl

/-- Settles O36: a change of owner is `changeOwner`, and every other outcome leaves the owner. -/
theorem ownershipResults : Obligations.OwnershipResults := by
  unfold Obligations.OwnershipResults
  intro s agent v new epoch owned
  refine ⟨?recovery, fun answers => ?answering, fun held => ?reset, fun vacant => by rw [ownerLinkReset_next, vacant, if_pos rfl]⟩
  case recovery =>
    rintro down rfl
    exact unheard_of_recovery v down
  case reset =>
    obtain ⟨none, vacant, counts⟩ := changeOwner_fields s none (by decide)
    exact ⟨_, by rw [ownerLinkReset_next, held, if_neg Bool.false_ne_true], decide_eq_true vacant, counts, none⟩
  case answering =>
    have hears := hears_of_answering answers
    have handover : s.isOwner agent = true → exec (.handover agent v) s = .next (s.handOver agent v) := fun owner => by
      rw [handover_next, ownerWrite_of_owner _ hears owner]
    refine ⟨fun asks vacant candidate => ⟨_, (claim_next v hears).trans (congrArg Host.Outcome.next (claimBy_of_vacant asks candidate vacant)),
        (changeOwner_passes s candidate).of_mmio rfl⟩,
      fun h => by rw [claim_next v hears, claimBy_of_not h], fun asks candidate held now lower => ?_, fun owner current candidate other => ?_,
      fun owner h => by rw [handover owner, handOver_of_not h], fun other => ⟨_, by rw [handover_next, ownerWrite_of_other _ hears other], denied_results s⟩⟩
    · have := candidate_lt candidate
      exact ⟨_, by rw [claim_next v hears, claimBy_of_lower asks candidate held now lower], setOwner_keeps (by omega) held⟩
    · exact ⟨_, by rw [handover owner, handOver_of_candidate current candidate other], changeOwner_passes s candidate⟩

end Sys2Proof.Proofs

namespace Sys2Proof.Proofs

open Sys2Proof Sys2Proof.Machine Sys2Proof.Safety Sys2Proof.Laws

/-! ### One element of a list that is run through -/

/-- Of a list that is run through, each element once, what only the element `a` touches is as `a` leaves it. -/
theorem foldl_of_nodup {σ α β : Type} {f : σ → α → σ} {get : σ → β} {a : α} (other : ∀ s x, x ≠ a → get (f s x) = get s) {l : List α} (once : l.Nodup)
    (mem : a ∈ l) (s : σ) : ∃ u, get u = get s ∧ get (l.foldl f s) = get (f u a) := by
  have kept : ∀ (l : List α) (s : σ), a ∉ l → get (l.foldl f s) = get s := fun l s out =>
    List.foldlRecOn (motive := fun t => get t = get s) l f rfl fun t same x hx => (other t x fun e => out (e ▸ hx)).trans same
  obtain ⟨l₁, l₂, rfl⟩ := List.append_of_mem mem
  obtain ⟨-, tail, apart⟩ := List.nodup_append'.1 once
  refine ⟨l₁.foldl f s, kept l₁ s fun first => apart first (List.mem_cons_self ..), ?_⟩
  rw [List.foldl_append, List.foldl_cons, kept l₂ _ (List.nodup_cons.1 tail).1]

/-! ### BTOWN (R295) -/

theorem lookupCell_filter_keys (l : List Host.Cell) (p : Nat → Bool) (a : Nat) : lookupCell (l.filter fun e => p e.1) a = if p a then lookupCell l a else 0 := by
  induction l with
  | nil => simp [lookupCell]
  | cons c t ih =>
    obtain ⟨x, b⟩ := c
    by_cases same : x = a
    · subst same
      cases kept : p x <;> simp [lookupCell, kept, ih]
    · cases kept : p x <;> simp [lookupCell, kept, ih, same]

/-- A range that is zeroed reads zero, and no other byte changes. -/
theorem zeroRange_read (s : State) (lo n z : Nat) : (s.zeroRange lo n).mem.read z = if lo ≤ z ∧ z < lo + n then 0 else s.mem.read z := by
  refine (lookupCell_filter_keys s.mem.cells (fun a => !decide (lo ≤ a ∧ a < lo + n)) z).trans ?_
  by_cases inside : lo ≤ z ∧ z < lo + n
  · rw [if_pos inside, decide_eq_true inside, Bool.not_true, if_neg Bool.false_ne_true]
  · rw [if_neg inside, decide_eq_false inside, Bool.not_false, if_pos rfl, Mem.read]

theorem zeroRange_die (s : State) (lo n d : Nat) : (s.zeroRange lo n).die d = s.die d := rfl

/-- Where a segment of a slice of the Big Top begins. -/
def segmentBase (die seg : Nat) : Nat := localKey (0x2000000000 + die * 0x20000000 + seg * 0x800000)

/-- A segment whose owner changes: it is held for 128 cycles, and reads zero. -/
def holdSegment (die seg : Nat) (s : State) : State :=
  (s.modDie die fun x => { x with segZero := tset x.segZero seg (s.now + 128) }).zeroRange (segmentBase die seg) 0x800000

/-- The segments of one register whose owner a write changes. -/
def reowned (s : State) (n : Nat) (v : Word) : List Nat :=
  (List.range 16).filter fun k => decide (nbits v.toNat (4 * k + 3) (4 * k) ≠ s.fld .btown n (4 * k + 3) (4 * k))

theorem writeBtown_eq (s : State) (n : Nat) (v : Word) : s.writeBtown n v =
    (reowned s n v).foldl (fun s k => holdSegment (n / 4) (16 * (n % 4) + k) s) (s.setReg ⟨.btown, n⟩ v) := rfl

/-- What is seen of a segment: the clock, until when it is held, and its bytes. -/
def segmentView (die seg : Nat) (s : State) : Nat × Option Nat × (Fin 0x800000 → Byte) :=
  (s.now, tget (s.die die).segZero seg, fun a => s.mem.read (segmentBase die seg + a.val))

theorem holdSegment_view (die seg : Nat) (s : State) : segmentView die seg (holdSegment die seg s) = (s.now, some (s.now + 128), fun _ => 0) := by
  have held : tget ((holdSegment die seg s).die die).segZero seg = some (s.now + 128) := by
    rw [holdSegment, zeroRange_die, die_modDie_same, tget_tset_same]
  have zero : (fun a : Fin 0x800000 => (holdSegment die seg s).mem.read (segmentBase die seg + a.val)) = fun _ => 0 := by
    funext a
    rw [holdSegment, zeroRange_read, if_pos (by omega)]
  rw [segmentView, held, zero]
  rfl

/-- Segments of a slice do not overlap. -/
theorem holdSegment_view_other {die seg x : Nat} (s : State) (h : x ≠ seg) : segmentView die seg (holdSegment die x s) = segmentView die seg s := by
  have held : tget ((holdSegment die x s).die die).segZero seg = tget (s.die die).segZero seg := by
    rw [holdSegment, zeroRange_die, die_modDie_same, tget_tset_ne _ _ h.symm]
  have bytes : (fun a : Fin 0x800000 => (holdSegment die x s).mem.read (segmentBase die seg + a.val)) = fun a => s.mem.read (segmentBase die seg + a.val) := by
    funext a
    have := a.isLt
    rw [holdSegment, zeroRange_read, if_neg (by unfold segmentBase localKey; omega)]
    rfl
  rw [segmentView, held, bytes]
  rfl

theorem writeBtown_reg (s : State) (n : Nat) (v : Word) : (s.writeBtown n v).reg ⟨.btown, n⟩ = v := by
  have mmio : (s.writeBtown n v).mmio = (s.setReg ⟨.btown, n⟩ v).mmio :=
    List.foldlRecOn (motive := fun t : State => t.mmio = (s.setReg ⟨.btown, n⟩ v).mmio) (reowned s n v) _ rfl fun _ same _ _ => same
  rw [reg_of_mmio mmio (show MFam.btown ≠ .tbase by decide), reg_setReg_same _ _ _ (show MFam.btown ≠ .tbase by decide)]

theorem writeBtown_segment {s : State} {n k : Nat} {v : Word} (mem : k ∈ reowned s n v) :
    segmentView (n / 4) (16 * (n % 4) + k) (s.writeBtown n v) = (s.now, some (s.now + 128), fun _ => 0) := by
  have once : (reowned s n v).Nodup := List.nodup_range.filter _
  obtain ⟨u, before, after⟩ := foldl_of_nodup (f := fun s k => holdSegment (n / 4) (16 * (n % 4) + k) s) (get := segmentView (n / 4) (16 * (n % 4) + k))
    (fun t x other => holdSegment_view_other t (by omega)) once mem (s.setReg ⟨.btown, n⟩ v)
  have now : u.now = s.now := congrArg Prod.fst before
  rw [writeBtown_eq, after, holdSegment_view, now]

theorem writeBtown_results {s : State} {n k : Nat} {v : Word} (low : k < 16) (changed : nbits v.toNat (4 * k + 3) (4 * k) ≠ s.fld .btown n (4 * k + 3) (4 * k)) :
    tget ((s.writeBtown n v).die (n / 4)).segZero (16 * (n % 4) + k) = some (s.now + 128) ∧
      ∀ a < 0x800000, (s.writeBtown n v).mem.read (segmentBase (n / 4) (16 * (n % 4) + k) + a) = 0 := by
  have view := writeBtown_segment (List.mem_filter.2 ⟨List.mem_range.2 low, decide_eq_true changed⟩)
  simp only [segmentView, Prod.mk.injEq] at view
  obtain ⟨-, held, zero⟩ := view
  exact ⟨held, fun a h => congrFun zero ⟨a, h⟩⟩

/-! ### BDQCFG (R342) -/

/-- DEPTH of a queue as its configuration gives it, unless an older one is held. -/
theorem bdqDepth_of_unheld {s : State} {i : Nat} (h : (s.bdQueue i).heldDepth = none) : s.bdqDepth i = s.fld .bdqcfg i 11 0 := by
  rw [State.bdqDepth, h, Option.getD_none, BitVec.toNat_ofNat, Nat.mod_eq_of_lt (fld_lt s .bdqcfg i 11 0)]

theorem bdqDepth_of_held {s : State} {i : Nat} {d : BitVec 12} (h : (s.bdQueue i).heldDepth = some d) : s.bdqDepth i = d.toNat := by
  rw [State.bdqDepth, h, Option.getD_some]

/-- A queue of a base die at which nothing waits, once it is served: it drops a DEPTH that it held when it is empty. -/
def settled (q : BdQueue) : BdQueue := if q.entries.isEmpty then { q with heldDepth := none } else q

/-- Serving a queue at which nothing waits. -/
theorem serveBdq_of_idle {s : State} {i : Nat} (pushes : (s.bdQueue i).pushes = []) (pops : (s.bdQueue i).pops = []) :
    ∃ u : State, s.serveBdq i = u.showBdq i ∧ u.mmio = s.mmio ∧ u.bdQueue i = settled (s.bdQueue i) := by
  let c := s.setBdq i { s.bdQueue i with pops := [] }
  have cleared : c.bdQueue i = s.bdQueue i := by rw [bdQueue_setBdq_same, ← pops]
  let u := if (c.bdQueue i).entries.isEmpty then c.setBdq i { c.bdQueue i with heldDepth := none } else c
  have queue : u.bdQueue i = settled (s.bdQueue i) := by
    simp only [u, settled, cleared]
    split
    · rw [bdQueue_setBdq_same]
    · exact cleared
  have none_waits : (u.bdQueue i).pushes = [] := by
    rw [queue, settled]
    split <;> exact pushes
  refine ⟨u, ?_, by simp only [u]; split <;> rfl, queue⟩
  have run : s.serveBdq i = (u.admitPushes i (u.bdQueue i).pushes.length).showBdq i := by
    rw [State.serveBdq, pushes, show s.admitPushes i ([] : List PushWait).length = s from rfl, pops]
    rfl
  rw [run, none_waits]
  rfl

theorem showBdq_bdQueue (s : State) (i : Nat) : (s.showBdq i).bdQueue i = s.bdQueue i := rfl

/-- DEPTH is written whole. -/
theorem nbits_and_low (x : Nat) : nbits (x &&& (0x0000FFFFFFFF0FFF : Word).toNat) 11 0 = nbits x 11 0 := by
  simp only [nbits, Nat.pow_zero, Nat.div_one]
  rw [Nat.and_mod_two_pow, show (0x0000FFFFFFFF0FFF : Word).toNat % 2 ^ (11 + 1 - 0) = 2 ^ 12 - 1 by decide, Nat.and_two_pow_sub_one_eq_mod, Nat.mod_mod]

theorem writeBdqcfg_results {s : State} {i : Nat} (v : Word) (pushes : (s.bdQueue i).pushes = []) (pops : (s.bdQueue i).pops = []) : let t := s.writeBdqcfg i v
    t.reg ⟨.bdqcfg, i⟩ = v &&& 0x0000FFFFFFFF0FFF ∧ (t.bdQueue i).entries = (s.bdQueue i).entries ∧
      t.bdqDepth i = if (s.bdQueue i).entries = [] then nbits v.toNat 11 0 else s.bdqDepth i := by
  let q : BdQueue := { s.bdQueue i with heldDepth := if (s.bdQueue i).entries.isEmpty then none else some (BitVec.ofNat 12 (s.bdqDepth i)) }
  let w := (s.setReg ⟨.bdqcfg, i⟩ (v &&& 0x0000FFFFFFFF0FFF)).setBdq i q
  have queue : w.bdQueue i = q := bdQueue_setBdq_same _ i q
  obtain ⟨u, served, mmio, left⟩ := serveBdq_of_idle (s := w) (by rw [queue]; exact pushes) (by rw [queue]; exact pops)
  have run : s.writeBdqcfg i v = u.showBdq i := served
  have reg : (u.showBdq i).reg ⟨.bdqcfg, i⟩ = v &&& 0x0000FFFFFFFF0FFF := by
    rw [State.showBdq, reg_setFld_ne _ _ _ _ _ (by simp), reg_of_mmio mmio (show MFam.bdqcfg ≠ .tbase by decide)]
    exact reg_setReg_same s _ _ (show MFam.bdqcfg ≠ .tbase by decide)
  have shown : (u.showBdq i).bdQueue i = settled q := (showBdq_bdQueue u i).trans (left.trans (congrArg settled queue))
  intro t
  rw [show t = u.showBdq i from run]
  by_cases empty : (s.bdQueue i).entries = []
  · have unheld : settled q = { s.bdQueue i with heldDepth := none } := by simp [settled, q, empty]
    refine ⟨reg, by rw [shown, unheld], ?_⟩
    rw [bdqDepth_of_unheld (by rw [shown, unheld]), if_pos empty, State.fld, reg, BitVec.toNat_and]
    exact nbits_and_low v.toNat
  · have held : settled q = { s.bdQueue i with heldDepth := some (BitVec.ofNat 12 (s.bdqDepth i)) } := by simp [settled, q, empty]
    refine ⟨reg, by rw [shown, held], ?_⟩
    have low : s.bdqDepth i < 2 ^ 12 := BitVec.isLt _
    rw [bdqDepth_of_held (by rw [shown, held]), if_neg empty, BitVec.toNat_ofNat, Nat.mod_eq_of_lt low]

/-! ### Retention (R413, R414) -/

theorem retain_setRetain_same (s : State) (r : Retain) (a : ArrayId) : (s.setRetain r a).retain a = r := by
  cases a with
  | scratch q => simp [State.setRetain, State.retain]
  | bigTop d => simp [State.setRetain, State.retain]

theorem retain_setRetain_ne (s : State) (r : Retain) {a b : ArrayId} (h : b ≠ a) : (s.setRetain r a).retain b = s.retain b := by
  cases a <;> cases b
  case scratch.scratch q p => exact congrArg Quad.retain (quad_modQuad_ne s _ fun e => h (congrArg ArrayId.scratch (Fin.ext e)))
  case bigTop.bigTop d e => exact congrArg Die.retain (die_modDie_ne s _ fun same => h (congrArg ArrayId.bigTop (Fin.ext same)))
  case scratch.bigTop | bigTop.scratch => rfl

theorem setRetain_keeps (s : State) (r : Retain) (a : ArrayId) : (s.setRetain r a).now = s.now ∧ (s.setRetain r a).mmio = s.mmio := by
  cases a <;> exact ⟨rfl, rfl⟩

/-- What retention an array is in once its exit has been asked for: one that is retained, or enters, begins to leave. -/
def leaving (now : Nat) (a : ArrayId) : Retain → Retain
  | .retained => .exiting (now + retainCycles a)
  | .entering t => .exiting (max t now + retainCycles a)
  | x => x

theorem startExit_eq (s : State) (a : ArrayId) : s.startExit a = s ∧ leaving s.now a (s.retain a) = s.retain a ∨
    s.startExit a = s.setRetain (leaving s.now a (s.retain a)) a := by
  unfold State.startExit
  cases s.retain a
  · exact .inl ⟨rfl, rfl⟩
  · exact .inr rfl
  · exact .inr rfl
  · exact .inl ⟨rfl, rfl⟩

theorem startExit_keeps (s : State) (a : ArrayId) : (s.startExit a).now = s.now ∧ (s.startExit a).mmio = s.mmio := by
  rcases startExit_eq s a with ⟨run, -⟩ | run <;> rw [run]
  · exact ⟨rfl, rfl⟩
  · exact setRetain_keeps s _ a

theorem startExit_retain (s : State) (a : ArrayId) : (s.startExit a).retain a = leaving s.now a (s.retain a) := by
  rcases startExit_eq s a with ⟨run, same⟩ | run <;> rw [run]
  · exact same.symm
  · exact retain_setRetain_same s _ a

theorem startExit_retain_ne (s : State) {a b : ArrayId} (h : b ≠ a) : (s.startExit a).retain b = s.retain b := by
  rcases startExit_eq s a with ⟨run, -⟩ | run <;> rw [run]
  exact retain_setRetain_ne s _ h

/-- The arrays of a retention register. -/
def retentionArrays (big : Bool) : List ArrayId :=
  if big then (List.range 4).map fun d => .bigTop (Fin.ofNat 4 d) else (List.range 32).map fun q => .scratch (Fin.ofNat 32 q)

/-- RETQ has a bit for each scratchpad, RETB one for each slice of the Big Top. -/
def retentionReg (big : Bool) : MReg := if big then ⟨.retb, 0⟩ else ⟨.retq, 0⟩

/-- One array after a write of its register: without its bit, its exit starts. -/
def leaveUnless (s : State) (a : ArrayId) : State := if s.retains a then s else s.startExit a

theorem writeRetention_eq (s : State) (big : Bool) (v : Word) : s.writeRetention big v =
    (retentionArrays big).foldl leaveUnless (s.setReg (retentionReg big) (v &&& (retentionReg big).rw)) := rfl

theorem leaveUnless_keeps (s : State) (a : ArrayId) : (leaveUnless s a).now = s.now ∧ (leaveUnless s a).mmio = s.mmio := by
  unfold leaveUnless
  split
  · exact ⟨rfl, rfl⟩
  · exact startExit_keeps s a

theorem retains_of_mmio {s t : State} (h : t.mmio = s.mmio) (a : ArrayId) : t.retains a = s.retains a := by
  cases a with
  | scratch q => rw [State.retains, reg_of_mmio h (show MFam.retq ≠ .tbase by decide), State.retains]
  | bigTop d => rw [State.retains, reg_of_mmio h (show MFam.retb ≠ .tbase by decide), State.retains]

theorem retentionArrays_nodup (big : Bool) : (retentionArrays big).Nodup := by cases big <;> decide

theorem writeRetention_mmio (s : State) (big : Bool) (v : Word) :
    (s.writeRetention big v).mmio = (s.setReg (retentionReg big) (v &&& (retentionReg big).rw)).mmio :=
  List.foldlRecOn (motive := fun t : State => t.mmio = (s.setReg (retentionReg big) (v &&& (retentionReg big).rw)).mmio) (retentionArrays big) leaveUnless rfl
    fun t same a _ => (leaveUnless_keeps t a).2.trans same

theorem writeRetention_reg (s : State) (big : Bool) (v : Word) : (s.writeRetention big v).reg (retentionReg big) = v &&& (retentionReg big).rw := by
  have plain : (retentionReg big).fam ≠ .tbase := by cases big <;> decide
  rw [reg_of_mmio (writeRetention_mmio s big v) plain, reg_setReg_same _ _ _ plain]

theorem writeRetention_retain (s : State) {big : Bool} (v : Word) {a : ArrayId} (mem : a ∈ retentionArrays big) :
    (s.writeRetention big v).retain a = if (s.setReg (retentionReg big) (v &&& (retentionReg big).rw)).retains a then s.retain a
      else leaving s.now a (s.retain a) := by
  generalize start : s.setReg (retentionReg big) (v &&& (retentionReg big).rw) = w
  have other : ∀ (t : State) (x : ArrayId), x ≠ a →
      ((leaveUnless t x).now, (leaveUnless t x).mmio, (leaveUnless t x).retain a) = (t.now, t.mmio, t.retain a) := fun t x h => by
    obtain ⟨now, mmio⟩ := leaveUnless_keeps t x
    rw [now, mmio]
    unfold leaveUnless
    split
    · rfl
    · rw [startExit_retain_ne t h.symm]
  obtain ⟨u, before, after⟩ := foldl_of_nodup (f := leaveUnless) (get := fun t : State => (t.now, t.mmio, t.retain a)) other (retentionArrays_nodup big) mem w
  simp only [Prod.mk.injEq] at before after
  obtain ⟨now, mmio, retain⟩ := before
  have same : w.retain a = s.retain a ∧ w.now = s.now := by
    subst start
    cases a <;> exact ⟨rfl, rfl⟩
  rw [writeRetention_eq, start, after.2.2, leaveUnless, retains_of_mmio mmio, ← same.1, ← same.2, ← retain, ← now]
  split
  · rfl
  · exact startExit_retain u a

theorem retains_scratch (s : State) (v : Word) (q : Fin 32) : (s.setReg (retentionReg false) (v &&& (retentionReg false).rw)).retains (.scratch q) = v.getLsbD q.val := by
  have mask : (0xFFFFFFFF : Word).getLsbD q.val = true := by revert q; decide
  rw [State.retains, show (⟨.retq, 0⟩ : MReg) = retentionReg false from rfl, reg_setReg_same _ _ _ (show MFam.retq ≠ .tbase by decide), BitVec.getLsbD_and,
    show (retentionReg false).rw = 0xFFFFFFFF from rfl, mask, Bool.and_true]

theorem retains_bigTop (s : State) (v : Word) (d : Fin 4) : (s.setReg (retentionReg true) (v &&& (retentionReg true).rw)).retains (.bigTop d) = v.getLsbD d.val := by
  have mask : (0xF : Word).getLsbD d.val = true := by revert d; decide
  rw [State.retains, show (⟨.retb, 0⟩ : MReg) = retentionReg true from rfl, reg_setReg_same _ _ _ (show MFam.retb ≠ .tbase by decide), BitVec.getLsbD_and,
    show (retentionReg true).rw = 0xF from rfl, mask, Bool.and_true]

theorem writeRetention_scratch (s : State) (v : Word) (q : Fin 32) : (s.writeRetention false v).retain (.scratch q) =
    if v.getLsbD q.val then s.retain (.scratch q) else leaving s.now (.scratch q) (s.retain (.scratch q)) := by
  have mem : ArrayId.scratch q ∈ retentionArrays false := by revert q; decide
  rw [writeRetention_retain s v mem, retains_scratch]

theorem writeRetention_bigTop (s : State) (v : Word) (d : Fin 4) : (s.writeRetention true v).retain (.bigTop d) =
    if v.getLsbD d.val then s.retain (.bigTop d) else leaving s.now (.bigTop d) (s.retain (.bigTop d)) := by
  have mem : ArrayId.bigTop d ∈ retentionArrays true := by revert d; decide
  rw [writeRetention_retain s v mem, retains_bigTop]

end Sys2Proof.Proofs

namespace Sys2Proof.Proofs

open Sys2Proof Sys2Proof.Machine Sys2Proof.Safety Sys2Proof.Laws

/-! ### A queue that is created (R37, R39) -/

/-- The queue that a QUEUE_CREATE payload describes. -/
def queueOf (p : BitVec 512) : CmdQueue :=
  ⟨pkField p 8 8, pkField p 16 4, BitVec.ofNat 4 (pkField p 22 1), pkField p 24 8, pkField p 32 8, pkField p 40 4, pkField p 44 8, 0, none, [], 0, []⟩

/-- Its registers as a queue is created: all zero. -/
def zeroPages (s : State) (n : Nat) : State := ((s.setReg ⟨.qstat, n⟩ 0).setReg ⟨.qdb, n⟩ 0).setReg ⟨.qsib, n⟩ 0

theorem createQueue_eq (s : State) (p : BitVec 512) : s.createQueue p =
    (zeroPages { s with queues := tset s.queues (pkField p 20 2) (queueOf p) } (pkField p 20 2)).setFld .qstat (pkField p 20 2) 32 32 1 := rfl

theorem createQueue_queues (s : State) (p : BitVec 512) : (s.createQueue p).queues = tset s.queues (pkField p 20 2) (queueOf p) := rfl

theorem createQueue_live (s : State) (p : BitVec 512) : (s.createQueue p).live (pkField p 20 2) = true :=
  decide_eq_true (fld_setFld_of_lt _ _ (by decide) (by decide) (by decide))

theorem createQueue_headOf (s : State) (p : BitVec 512) : (s.createQueue p).headOf (pkField p 20 2) = 0 := by
  rw [createQueue_eq, State.headOf, fld_setFld_other _ _ _ (by decide) (by decide) (by decide) (by decide), State.fld, zeroPages,
    reg_setReg_ne _ _ (by simp), reg_setReg_ne _ _ (by simp), reg_setReg_same _ _ _ (show MFam.qstat ≠ .tbase by decide)]
  rfl

/-- Registers outside the pages of the new queue stay. -/
theorem createQueue_reg (s : State) {p : BitVec 512} {r : MReg} (h : r.fam ∉ [.qstat, .qdb, .qsib] ∨ r.i ≠ pkField p 20 2) : (s.createQueue p).reg r = s.reg r := by
  have other : ∀ f ∈ [MFam.qstat, .qdb, .qsib], r ≠ ⟨f, pkField p 20 2⟩ := by
    rintro f mem rfl
    exact h.elim (fun out => out mem) fun apart => apart rfl
  rw [createQueue_eq, reg_setFld_ne _ _ _ _ _ (other _ (by simp)), zeroPages, reg_setReg_ne _ _ (other _ (by simp)), reg_setReg_ne _ _ (other _ (by simp)),
    reg_setReg_ne _ _ (other _ (by simp))]
  rfl

/-! ### The administrative window (R37) -/

/-- The packet in the administrative window. -/
def windowPacket (s : State) : BitVec 512 := BitVec.ofNat 512 (pack ((List.range 8).map fun w => (8, (s.reg ⟨.admqcreate, w⟩).toNat)))

/-- The packet that a write of word 0 completes. -/
theorem windowPacket_setReg (s : State) (v : Word) : windowPacket (s.setReg ⟨.admqcreate, 0⟩ v) =
    BitVec.ofNat 512 (pack ((8, v.toNat) :: (List.range 7).map fun w => (8, (s.reg ⟨.admqcreate, w + 1⟩).toNat))) := by
  rw [windowPacket, List.range_succ_eq_map, List.map_cons, List.map_map, reg_setReg_same _ _ _ (show MFam.admqcreate ≠ .tbase by decide)]
  congr 4
  funext w
  exact congrArg (fun x : Word => (8, x.toNat)) (reg_setReg_ne s v (by simp))

theorem adminCreate_of_good {s : State} (running : s.running = true) (kind : pkField (windowPacket s) 0 1 = 9) (reserved : pkField (windowPacket s) 1 7 = 0)
    (zero : pkField (windowPacket s) 20 2 = 0) (good : badCreate (windowPacket s) = false) (free : s.live 0 = false) :
    s.adminCreate = (s.createQueue (windowPacket s)).raise .admqstat 0 0 := by
  unfold windowPacket at kind reserved zero good
  simp only [State.adminCreate, running, Bool.true_eq_false, if_false, kind, reserved, zero, good, free, Bool.false_eq_true, ne_eq, not_true_eq_false, or_self]
  rfl

theorem raise_queues (s : State) (f : MFam) (i b : Nat) : (s.raise f i b).queues = s.queues := rfl

/-- ADMQCREATE of a good payload, while queue 0 does not exist. -/
theorem adminCreate_results {s : State} (running : s.running = true) (kind : pkField (windowPacket s) 0 1 = 9) (reserved : pkField (windowPacket s) 1 7 = 0)
    (zero : pkField (windowPacket s) 20 2 = 0) (good : badCreate (windowPacket s) = false) (free : s.live 0 = false) : let t := s.adminCreate
    t.live 0 = true ∧ tget t.queues 0 = some (queueOf (windowPacket s)) ∧ t.headOf 0 = 0 ∧ t.fld .admqstat 0 0 0 = 1 := by
  have live := createQueue_live s (windowPacket s)
  have head := createQueue_headOf s (windowPacket s)
  have queues := createQueue_queues s (windowPacket s)
  rw [zero] at live head queues
  intro t
  rw [show t = _ from adminCreate_of_good running kind reserved zero good free]
  generalize s.createQueue (windowPacket s) = u at live head queues
  have other : ∀ hi lo, (u.raise .admqstat 0 0).fld .qstat 0 hi lo = u.fld .qstat 0 hi lo :=
    fun hi lo => by rw [State.raise, fld_event, fld_setFld_ne _ _ _ _ _ (by decide)]
  refine ⟨by rw [State.live, other]; exact live, ?_, by rw [State.headOf, other]; exact head, ?_⟩
  · rw [raise_queues, queues, tget_tset_same]
  · rw [State.raise, fld_event]
    exact fld_setFld_of_lt _ 0 (by decide) (by decide) (by decide)

/-! ### The owner's writes together (R37, R295, R342, R413, R414) -/

/-- Settles O38: the owner's write is done, and each clause is what its action does. -/
theorem ownerWriteResults : Obligations.OwnerWriteResults := by
  unfold Obligations.OwnerWriteResults
  intro s agent n i v owner answers
  have runs : ∀ f : State → State, Host.Outcome.next (s.ownerWrite agent f) = (.next (f s) : Out) := fun f =>
    congrArg Host.Outcome.next (ownerWrite_of_owner f (hears_of_answering answers) owner)
  refine ⟨⟨_, runs _, writeBtown_reg s n.val v, fun k low changed => writeBtown_results low changed⟩,
    fun pushes pops => ⟨_, runs _, writeBdqcfg_results v pushes pops⟩, ⟨_, runs _, writeRetention_reg s false v, fun q => ?scratch⟩,
    ⟨_, runs _, writeRetention_reg s true v, fun d clear held => ?bigTop⟩, ?admin⟩
  case scratch =>
    rw [writeRetention_scratch]
    cases v.getLsbD q.val <;> cases s.retain (.scratch q) <;> rfl
  case bigTop =>
    rw [writeRetention_bigTop, clear, held]
    rfl
  case admin =>
    intro p running kind reserved zero good free
    have window : windowPacket (s.setReg ⟨.admqcreate, 0⟩ v) = p := windowPacket_setReg s v
    have live : (s.setReg ⟨.admqcreate, 0⟩ v).live 0 = false := by rw [State.live, State.fld, reg_setReg_ne s v (by decide)]; exact free
    rw [← window] at kind reserved zero good
    obtain ⟨lives, queue, head, stat⟩ := adminCreate_results (s := s.setReg ⟨.admqcreate, 0⟩ v) running kind reserved zero good live
    rw [window] at queue
    exact ⟨_, _, runs _, lives, queue, rfl, rfl, rfl, head, stat⟩

end Sys2Proof.Proofs

namespace Sys2Proof.Proofs

open Sys2Proof Sys2Proof.Machine Sys2Proof.Safety Sys2Proof.Laws

/-! ### Doorbells of queues (R35, R36, R41) -/

/-- Who may write the pages of a queue: those of queue 0 are the owner's (R36). -/
def MayWrite (s : State) (agent n : Nat) : Prop := n ≠ 0 ∨ s.isOwner agent = true

theorem queueDoorbell_next {s : State} {agent : Nat} {n : Fin 1024} (tail : BitVec 32) (running : s.running = true) (may : MayWrite s agent n.val) :
    exec (.queueDoorbell agent n tail) s = .next (s.ring n.val tail) := by
  change Host.Outcome.next _ = _
  by_cases zero : n.val = 0
  · rw [if_pos zero, ownerWrite_of_owner _ (hears_of_answering (.inl running)) (may.resolve_left fun h => h zero), zero]
  · rw [if_neg zero]

theorem queueRestart_next {s : State} {agent : Nat} {n : Fin 1024} (v : Word) (running : s.running = true) (may : MayWrite s agent n.val) :
    exec (.queueRestart agent n v) s = .next (s.restart n.val v) := by
  have hears := hears_of_answering (agent := agent) (.inl running)
  change Host.Outcome.next _ = _
  by_cases zero : n.val = 0
  · rw [if_pos zero, ownerWrite_of_owner _ hears (may.resolve_left fun h => h zero), zero]
  · rw [if_neg zero, hears, if_pos rfl]

/-- How many packets would wait with a new TAIL. -/
def aheadOf (s : State) (n : Nat) (tail : BitVec 32) : Nat := (tail.toNat + 2 ^ 32 - s.headOf n) % 2 ^ 32

theorem ring_eq {s : State} {n : Nat} {q : CmdQueue} (tail : BitVec 32) (queue : tget s.queues n = some q) (running : s.running = true) (live : s.live n = true) :
    s.ring n tail = if q.entries < aheadOf s n tail then s.stopQueue n qOverrun 0 (s.headOf n) 0 0
      else { s.setFld .qdb n 31 0 tail.toNat with queues := tset s.queues n { q with bells := q.bells ++ [(tail.toNat, s.tbase.toNat)] } } := by
  simp only [State.ring, queue, running, live, Bool.true_eq_false, or_self, if_false]
  rfl

theorem ring_of_room {s : State} {n : Nat} {q : CmdQueue} {tail : BitVec 32} (queue : tget s.queues n = some q) (running : s.running = true)
    (live : s.live n = true) (room : aheadOf s n tail ≤ q.entries) :
    (s.ring n tail).fld .qdb n 31 0 = tail.toNat ∧ (s.ring n tail).headOf n = s.headOf n ∧ (s.ring n tail).mem = s.mem := by
  rw [ring_eq tail queue running live, if_neg (Nat.not_lt.2 room)]
  exact ⟨fld_setFld_of_lt s n (by decide) (by decide) tail.isLt, fld_setFld_ne s n 31 0 _ (by decide), rfl⟩

/-- A queue that stops: STOPPED, its cause, and what is posted about it. -/
theorem stopQueue_fields {s : State} {n : Nat} {q : CmdQueue} (queue : tget s.queues n = some q) {cause : Nat} (low : cause < 2 ^ 8)
    (subcode qoff faddr packet : Nat) : let t := s.stopQueue n cause subcode qoff faddr packet
    t.fld .qstat n 33 33 = 1 ∧ t.fld .qstat n 47 40 = cause ∧ ∀ f i hi lo, f ≠ .qstat → f ≠ .tbase → t.fld f i hi lo = s.fld f i hi lo := by
  have stopped : ∀ u : State, let w := (u.raise .qstat n 33).setFld .qstat n 47 40 cause
      w.fld .qstat n 33 33 = 1 ∧ w.fld .qstat n 47 40 = cause ∧ ∀ f i hi lo, f ≠ .qstat → w.fld f i hi lo = u.fld f i hi lo := fun u => by
    refine ⟨?_, fld_setFld_of_lt _ n (by decide) (by decide) low, fun f i hi lo other => ?_⟩
    · rw [fld_setFld_other _ n _ (by decide) (by decide) (by decide) (by decide), State.raise, fld_event, fld_setFld_of_lt _ n (by decide) (by decide) (by decide)]
    · rw [fld_setFld_ne _ _ _ _ _ other, State.raise, fld_event, fld_setFld_ne _ _ _ _ _ other]
  have posted : ∀ {w t : State}, t.mmio = w.mmio → w.fld .qstat n 33 33 = 1 ∧ w.fld .qstat n 47 40 = cause ∧
      (∀ f i hi lo, f ≠ .qstat → w.fld f i hi lo = s.fld f i hi lo) →
      t.fld .qstat n 33 33 = 1 ∧ t.fld .qstat n 47 40 = cause ∧ ∀ f i hi lo, f ≠ .qstat → f ≠ .tbase → t.fld f i hi lo = s.fld f i hi lo := fun same h =>
    ⟨(fld_of_mmio same n 33 33 (by decide)).trans h.1, (fld_of_mmio same n 47 40 (by decide)).trans h.2.1,
      fun f i hi lo other plain => (fld_of_mmio same i hi lo plain).trans (h.2.2 f i hi lo other)⟩
  simp only [State.stopQueue, queue]
  cases s.sibRoom n q 2
  · refine posted (w := ((s.count .qstat n 63 48 1).raise .qstat n 33).setFld .qstat n 47 40 cause) rfl ?_
    obtain ⟨bit, is, rest⟩ := stopped (s.count .qstat n 63 48 1)
    exact ⟨bit, is, fun f i hi lo other => by rw [rest f i hi lo other, State.count, fld_event, fld_setFld_ne _ _ _ _ _ other]⟩
  · exact posted (sameJobs_sibPost _ _ _ _ _).mmio (stopped s)

theorem ring_of_overrun {s : State} {n : Nat} {q : CmdQueue} {tail : BitVec 32} (queue : tget s.queues n = some q) (running : s.running = true)
    (live : s.live n = true) (overrun : q.entries < aheadOf s n tail) :
    (s.ring n tail).fld .qstat n 33 33 = 1 ∧ (s.ring n tail).fld .qstat n 47 40 = 7 ∧ (s.ring n tail).fld .qdb n 31 0 = s.fld .qdb n 31 0 := by
  rw [ring_eq tail queue running live, if_pos overrun]
  obtain ⟨bit, cause, rest⟩ := stopQueue_fields queue (cause := qOverrun) (by decide) 0 (s.headOf n) 0 0
  exact ⟨bit, cause, rest .qdb n 31 0 (by decide) (by decide)⟩

/-- Of the bits that software clears, those stay that events of the cycle have set (R7). -/
theorem clearBits_getLsbD (s : State) {r : MReg} (m : Word) (plain : r.fam ≠ .tbase) (j : Nat) :
    ((s.clearBits r m).reg r).getLsbD j = if m.getLsbD j then (s.ofCycle r).2.getLsbD j else (s.reg r).getLsbD j := by
  rw [show (s.clearBits r m).reg r = (s.reg r &&& ~~~m) ||| ((s.ofCycle r).2 &&& m) from reg_setReg_same s r _ plain, BitVec.getLsbD_or, BitVec.getLsbD_and,
    BitVec.getLsbD_and, BitVec.getLsbD_not]
  cases m.getLsbD j
  · by_cases low : j < 64
    · simp only [low, decide_true, Bool.not_false, Bool.and_true, Bool.and_false, Bool.or_false, Bool.false_eq_true, if_false]
    · rw [BitVec.getLsbD_of_ge (s.reg r) j (by omega)]
      simp only [Bool.false_and, Bool.and_false, Bool.or_false, Bool.false_eq_true, if_false]
  · simp only [Bool.not_true, Bool.and_false, Bool.and_true, Bool.false_or, if_true]

theorem nbits_bit (x b : Nat) : nbits x b b = (x.testBit b).toNat := by
  rw [Nat.toNat_testBit, nbits, show b + 1 - b = 1 by omega, Nat.pow_one]

theorem restart_results {s : State} {n : Nat} {v : Word} (asks : v.getLsbD 34 = true) : (s.restart n v).fld .qstat n 31 0 = s.fld .qstat n 31 0 ∧
    (s.restart n v).fld .qstat n 33 33 = ((s.ofCycle ⟨.qstat, n⟩).2.getLsbD 33).toNat := by
  have stopped : ∀ j, (0x200000000 : Word).getLsbD j = decide (33 = j) := fun j => by
    rw [show (0x200000000 : Word) = BitVec.twoPow 64 33 by decide, BitVec.getLsbD_twoPow]
    simp
  have bits := clearBits_getLsbD s (r := ⟨.qstat, n⟩) 0x200000000 (show MFam.qstat ≠ .tbase by decide)
  rw [State.restart, if_pos asks]
  constructor
  · apply Nat.eq_of_testBit_eq
    intro j
    rw [State.fld, State.fld, testBit_nbits, testBit_nbits, BitVec.testBit_toNat, BitVec.testBit_toNat, bits, stopped]
    by_cases low : j < 32
    · rw [if_neg (by simp only [decide_eq_true_eq]; omega)]
    · simp [low]
  · rw [State.fld, nbits_bit, BitVec.testBit_toNat, bits, stopped, if_pos (by simp)]

theorem restart_of_not {s : State} {n : Nat} {v : Word} (silent : v.getLsbD 34 = false) : s.restart n v = s := by
  rw [State.restart, silent, if_neg Bool.false_ne_true]

/-! ### Doorbells of gather channels (R315, R319) -/

theorem gatherDoorbell_next {s : State} (agent : Nat) (g : Fin 16) (tail : BitVec 32) (running : s.running = true) :
    exec (.gatherDoorbell agent g tail) s = .next (s.gatherRing g.val tail) := by
  change Host.Outcome.next _ = _
  rw [hears_of_answering (.inl running), if_pos rfl]

theorem gatherRing_of_off {s : State} {g : Nat} (tail : BitVec 32) (off : gOn (s.gatherChan g).cfg = false) : s.gatherRing g tail = s := if_pos off

theorem gatherRing_of_room {s : State} {g : Nat} {tail : BitVec 32} (on : gOn (s.gatherChan g).cfg = true)
    (room : (tail.toNat + 2 ^ 32 - s.fld .gstat g 31 0) % 2 ^ 32 ≤ gField (s.gatherChan g).cfg 32 4) : s.gatherRing g tail = s.setFld .gdb g 31 0 tail.toNat := by
  rw [State.gatherRing, on, if_neg (by decide), if_neg (Nat.not_lt.2 room)]

/-- A doorbell that overruns the ring is rejected, and counted. -/
theorem gatherRing_of_overrun {s : State} {g : Nat} {tail : BitVec 32} (on : gOn (s.gatherChan g).cfg = true)
    (overrun : gField (s.gatherChan g).cfg 32 4 < (tail.toNat + 2 ^ 32 - s.fld .gstat g 31 0) % 2 ^ 32) : s.gatherRing g tail = s.count .gcnt g 63 48 1 := by
  rw [State.gatherRing, on, if_neg (by decide), if_pos overrun, State.gatherCount]

/-- Settles O39: a write that may be made is `ring`, `restart` or `gatherRing`. -/
theorem doorbellResults : Obligations.DoorbellResults := by
  unfold Obligations.DoorbellResults
  intro s agent n q g tail v may queue running live ahead c more
  have rings := queueDoorbell_next (agent := agent) tail running may
  have restarts := queueRestart_next (agent := agent) v running may
  have gathers := gatherDoorbell_next agent g tail running
  refine ⟨fun room => ⟨_, rings, ring_of_room queue running live room⟩, fun overrun => ⟨_, rings, ring_of_overrun queue running live overrun⟩,
    fun asks => ⟨_, restarts, restart_results asks⟩, fun silent => by rw [restarts, restart_of_not silent], fun on room => ?_, fun on overrun => ?_,
    fun off => by rw [gathers, gatherRing_of_off tail off]⟩
  · exact ⟨_, by rw [gathers, gatherRing_of_room on room], fld_setFld_of_lt s _ (by decide) (by decide) tail.isLt⟩
  · refine ⟨_, by rw [gathers, gatherRing_of_overrun on overrun], fld_count_same s _ 48 1 (by decide) (by decide), ?_⟩
    rw [State.count, fld_event, fld_setFld_ne _ _ _ _ _ (by decide)]

end Sys2Proof.Proofs

namespace Sys2Proof.Proofs

open Sys2Proof Sys2Proof.Machine Sys2Proof.Safety Sys2Proof.Laws

/-! ### What the Organ's writes and reports leave unchanged -/

/-- The state `t` with memory, what is on its way to it, and what has been reported, as in `s`. -/
def unwritten (s t : State) : State :=
  { t with
    mem := s.mem, agenda := s.agenda, parked := s.parked, nextId := s.nextId, snoops := s.snoops, outbox := s.outbox, evSeq := s.evSeq, evPending := s.evPending }

/-- Two states differ at most in memory, in what is on its way to it, and in what has been reported: every other part of the state is the same. -/
def OnlyWrites (s t : State) : Prop := unwritten s t = s

/-- What does not look at these parts is the same. -/
theorem OnlyWrites.get {s t : State} {α : Type} (h : OnlyWrites s t) (g : State → α) (blind : g (unwritten s t) = g t) : g t = g s := blind.symm.trans (congrArg g h)

theorem OnlyWrites.refl (s : State) : OnlyWrites s s := rfl

theorem OnlyWrites.trans {s t u : State} (h : OnlyWrites s t) (h' : OnlyWrites t u) : OnlyWrites s u := by
  show unwritten s (unwritten t u) = s
  rw [h', h]

theorem onlyWrites_storeRow (s : State) (k : Nat) (data : Row) (mask : BitVec 256) : OnlyWrites s (s.storeRow k data mask) := by
  unfold State.storeRow
  split
  · exact .refl s
  · rfl

theorem onlyWrites_storeSpan (s : State) (a n v : Nat) : OnlyWrites s (s.storeSpan a n v) := by
  simp only [State.storeSpan]
  split
  · exact (onlyWrites_storeRow s _ _ _).trans (onlyWrites_storeRow _ _ _ _)
  · exact onlyWrites_storeRow s _ _ _

theorem onlyWrites_writeAt (s : State) (part n v : Nat) (p : Spot) : OnlyWrites s (s.writeAt part n v p) := by
  cases p with
  | mem k => exact onlyWrites_storeSpan s k n v
  | regs off =>
    simp only [State.writeAt]
    split
    · rfl
    · exact .refl s
  | fail _ | absent | link | hold => exact .refl s

theorem onlyWrites_parkLink (s : State) (part va : Nat) (w : ParkWork) (width : Nat) : OnlyWrites s (s.parkLink part va w width) := by
  simp only [State.parkLink]
  split <;> rfl

theorem onlyWrites_organWrite (s : State) (q part addr n v : Nat) : OnlyWrites s (s.organWrite q part addr n v) := by
  unfold State.organWrite
  split
  · exact onlyWrites_parkLink s _ _ _ _
  · exact onlyWrites_writeAt s _ _ _ _

theorem onlyWrites_postEvent (s : State) (e : EventRec) : OnlyWrites s (s.postEvent e) := rfl

/-! ### A packet that completes (R38, R39) -/

/-- A queue once HEAD has moved past its packet. -/
def pastHead (q : CmdQueue) (head : Nat) : CmdQueue := { q with busy := none, bells := q.bells.filter fun b => decide (b.1 ≠ head) }

/-- The state with HEAD of queue `n`, which is `q`, moved on. -/
def headMoved (s : State) (n : Nat) (q : CmdQueue) : State :=
  let head := (s.headOf n + 1) % 2 ^ 32
  { s.setFld .qstat n 31 0 head with queues := tset s.queues n (pastHead q head) }

theorem consume_eq {s : State} {n : Nat} {q : CmdQueue} (queue : tget s.queues n = some q) :
    s.consume n = (headMoved s n q).organWrite n q.part.toNat q.headAddr 8 ((s.headOf n + 1) % 2 ^ 32) := by
  rw [State.consume, queue]
  rfl

/-- A packet that completes moves HEAD on, in its register and in its word; then its event may be posted. -/
theorem packetDone_writes {s : State} {n : Nat} {q : CmdQueue} (queue : tget s.queues n = some q) (p : BitVec 512) (job started : Nat) :
    OnlyWrites (headMoved s n q) (s.packetDone n p job started) ∧ (s.packetDone n p job started).mem = (s.consume n).mem := by
  have moved : OnlyWrites (headMoved s n q) (s.consume n) := by
    rw [consume_eq queue]
    exact onlyWrites_organWrite _ _ _ _ _ _
  simp only [State.packetDone, queue]
  split
  · exact ⟨moved.trans (onlyWrites_postEvent _ _), rfl⟩
  · exact ⟨moved, rfl⟩

/-! ### The packet at the head of a queue (R35, R39, R43) -/

/-- What follows from the answer of a packet `p` at the head of queue `n`, which is `q`. -/
def afterPacket (s : State) (n : Nat) (q : CmdQueue) (p : BitVec 512) : PacketRes → State
  | .done job u => u.packetDone n p job s.tbase.toNat
  | .started u =>
    { u with queues := u.queues.map fun (e : Nat × CmdQueue) => if e.1 = n then (n, { e.2 with busy := some p, startedAt := s.tbase.toNat }) else e }
  | .stop c sub a => s.packetStop n c sub a p.toNat
  | .wait u => u
  | .link a => s.parkLink q.part.toNat a (.packet n) 8

/-- A packet at the head of its queue, of the kind that is wanted there and that its queue may carry, has its effect. -/
theorem runPacket_of_head {s : State} {n : Nat} {q : CmdQueue} {p : BitVec 512} {want : Nat → Bool} (f : CmdQueue → BitVec 512 → State → PacketRes)
    (head : HeadPacket s n q p) (good : badPacket p = false) {kind : Nat} (is : pkField p 0 1 = kind) (wanted : want kind = true) (known : kind ≤ 9)
    (allowed : kind < 7 ∨ n = 0) : s.runPacket n want f = afterPacket s n q p (f q p s) := by
  obtain ⟨queue, running, live, goes, idle, waiting, unparked, k, spot, clean, rfl⟩ := head
  have free : (s.parked.any fun x => decide (x.work = ParkWork.packet n)) = false := by simpa using unparked
  have owned : ¬ (7 ≤ kind ∧ n ≠ 0) := by omega
  simp only [State.runPacket, queue, running, live, goes, idle, waiting, free, spot, clean, is, good, wanted, owned, Nat.not_lt.2 known, Option.isSome_none,
    Bool.true_eq_false, Bool.false_eq_true, Nat.zero_ne_one, or_self, if_false, Bool.not_true]
  cases f q _ s <;> rfl

theorem runPacket_of_done {s u : State} {n job : Nat} {q : CmdQueue} {p : BitVec 512} {want : Nat → Bool} {f : CmdQueue → BitVec 512 → State → PacketRes}
    (head : HeadPacket s n q p) (good : badPacket p = false) {kind : Nat} (is : pkField p 0 1 = kind) (wanted : want kind = true) (known : kind ≤ 9)
    (allowed : kind < 7 ∨ n = 0) (done : f q p s = .done job u) : s.runPacket n want f = u.packetDone n p job s.tbase.toNat := by
  rw [runPacket_of_head f head good is wanted known allowed, done, afterPacket]

/-! ### The state after a packet that completes -/

/-- A packet has completed: HEAD has moved on from where it stood in `u`, where the queue stood at `q`. -/
theorem packetDone_headOf {u : State} {n : Nat} {q : CmdQueue} (queue : tget u.queues n = some q) (p : BitVec 512) (job started : Nat) :
    (u.packetDone n p job started).headOf n = (u.headOf n + 1) % 2 ^ 32 := by
  have writes := (packetDone_writes queue p job started).1
  refine (writes.get (·.headOf n) rfl).trans (fld_setFld_of_lt u n (by decide) (by decide) ?_)
  exact Nat.mod_lt _ (by decide)

theorem packetDone_fld {u : State} {n : Nat} {q : CmdQueue} (queue : tget u.queues n = some q) (p : BitVec 512) (job started : Nat) {f : MFam} {i : Nat} (hi lo : Nat)
    (other : f ≠ .qstat ∨ i ≠ n) : (u.packetDone n p job started).fld f i hi lo = u.fld f i hi lo := by
  have writes := (packetDone_writes queue p job started).1
  have apart : (⟨f, i⟩ : MReg) ≠ ⟨.qstat, n⟩ := by simpa [imp_iff_not_or] using other
  refine (writes.get (·.fld f i hi lo) rfl).trans ?_
  show nbits ((u.setFld .qstat n 31 0 _).reg ⟨f, i⟩).toNat hi lo = _
  rw [reg_setFld_ne u n 31 0 _ apart, State.fld]

/-- Parts of the state that neither the move of HEAD nor the writes and reports of the Organ look at. -/
theorem packetDone_get {u : State} {n : Nat} {q : CmdQueue} (queue : tget u.queues n = some q) (p : BitVec 512) (job started : Nat) {α : Type} (g : State → α)
    (blind : ∀ s t : State, g (unwritten s t) = g t) (moved : g (headMoved u n q) = g u) : g (u.packetDone n p job started) = g u :=
  ((packetDone_writes queue p job started).1.get g (blind _ _)).trans moved

end Sys2Proof.Proofs

namespace Sys2Proof.Proofs

open Sys2Proof Sys2Proof.Machine Sys2Proof.Safety Sys2Proof.Laws

/-! ### NOP and IMAGE (R39, R81) -/

theorem nopPacket_next {s : State} {n : Fin 1024} {q : CmdQueue} {p : BitVec 512} (head : HeadPacket s n.val q p) (good : badPacket p = false)
    (kind : pkField p 0 1 = 0) : exec (.nopPacket n) s = .next (s.packetDone n.val p 0 s.tbase.toNat) :=
  congrArg Host.Outcome.next (runPacket_of_done head good kind rfl (by decide) (.inl (by decide)) rfl)

/-- A core without the frames of an image. -/
def dropFrames (part : BitVec 4) (id : BitVec 8) (c : Core) : Core := { c with frames := c.frames.filter fun f => !decide (f.part = part ∧ f.image = id) }

/-- The packet's image is registered, and no core holds a frame of the one that it replaces. -/
def imageEntered (s : State) (n : Nat) (q : CmdQueue) (p : BitVec 512) : State :=
  let id : BitVec 8 := BitVec.ofNat 8 (pkField p 20 1)
  { s with
    images := tset s.images (imageKey q.part.toNat id) ⟨pkField p 8 8, pkField p 16 4, decide (n = 0)⟩
    cores := s.cores.map fun e => (e.1, dropFrames q.part id e.2) }

theorem image_next {s : State} {n : Fin 1024} {q : CmdQueue} {p : BitVec 512} (head : HeadPacket s n.val q p) (good : badPacket p = false)
    (kind : pkField p 0 1 = 2) : exec (.image n) s = .next ((imageEntered s n.val q p).packetDone n.val p 0 s.tbase.toNat) :=
  congrArg Host.Outcome.next (runPacket_of_done head good kind rfl (by decide) (.inl (by decide)) rfl)

theorem pkField_lt (p : BitVec 512) (o n : Nat) : pkField p o n < 256 ^ n := Nat.mod_lt _ (by positivity)

theorem pkField_byte (p : BitVec 512) (o : Nat) : (BitVec.ofNat 8 (pkField p o 1)).toNat = pkField p o 1 := by
  have low : pkField p o 1 < 2 ^ 8 := pkField_lt p o 1
  rw [BitVec.toNat_ofNat, Nat.mod_eq_of_lt low]

theorem imageEntered_image (s : State) (n : Nat) (q : CmdQueue) (p : BitVec 512) :
    tget (imageEntered s n q p).images (q.part.toNat * 256 + pkField p 20 1) = some ⟨pkField p 8 8, pkField p 16 4, decide (n = 0)⟩ := by
  have key : imageKey q.part.toNat (BitVec.ofNat 8 (pkField p 20 1)) = q.part.toNat * 256 + pkField p 20 1 := by
    rw [imageKey, pkField_byte]
  rw [← key]
  exact tget_tset_same _ _ _

theorem imageEntered_frames (s : State) (n : Nat) (q : CmdQueue) (p : BitVec 512) (c : Nat) :
    ∀ f ∈ ((imageEntered s n q p).core c).frames, ¬ (f.part = q.part ∧ f.image.toNat = pkField p 20 1) := by
  intro f held
  have core : (imageEntered s n q p).core c = ((tget s.cores c).map (dropFrames q.part (BitVec.ofNat 8 (pkField p 20 1)))).getD .reset :=
    congrArg (fun x : Option Core => x.getD .reset) (tget_map s.cores (dropFrames q.part (BitVec.ofNat 8 (pkField p 20 1))) c)
  rw [core] at held
  cases found : tget s.cores c with
  | none =>
    rw [found] at held
    cases held
  | some x =>
    rw [found] at held
    have dropped := (List.mem_filter.1 held).2
    simp only [Bool.not_eq_true', decide_eq_false_iff_not] at dropped
    rintro ⟨part, image⟩
    exact dropped ⟨part, BitVec.eq_of_toNat_eq (by rw [image, pkField_byte])⟩

theorem image_results {s : State} {n : Fin 1024} {q : CmdQueue} {p : BitVec 512} (head : HeadPacket s n.val q p) (good : badPacket p = false)
    (kind : pkField p 0 1 = 2) : ∃ t, exec (.image n) s = .next t ∧ t.headOf n.val = (s.headOf n.val + 1) % 2 ^ 32 ∧
      tget t.images (q.part.toNat * 256 + pkField p 20 1) = some ⟨pkField p 8 8, pkField p 16 4, decide (n.val = 0)⟩ ∧
      ∀ c, ∀ f ∈ (t.core c).frames, ¬ (f.part = q.part ∧ f.image.toNat = pkField p 20 1) := by
  have queue : tget (imageEntered s n.val q p).queues n.val = some q := head.1
  refine ⟨_, image_next head good kind, packetDone_headOf queue p 0 _, ?_, fun c => ?_⟩
  · rw [packetDone_get queue p 0 _ State.images (fun _ _ => rfl) rfl, imageEntered_image]
  · rw [packetDone_get queue p 0 _ (·.core c) (fun _ _ => rfl) rfl]
    exact imageEntered_frames s n.val q p c

/-! ### FLAG_WRITE, and the word of HEAD (R38, R39) -/

/-- The fabric windows are what FABWIN and FABOFF say. -/
theorem fabric_of_regs {s t : State} (windows : ∀ k, t.reg ⟨.fabwin, k⟩ = s.reg ⟨.fabwin, k⟩) (offsets : ∀ k, t.reg ⟨.faboff, k⟩ = s.reg ⟨.faboff, k⟩) (a : Nat) :
    t.fabric a = s.fabric a := by
  unfold State.fabric State.fld
  simp_rw [windows, offsets]

/-- The move of HEAD leaves translations, fabric windows and links as they are. -/
theorem headMoved_spotQ (s : State) (n : Nat) (q : CmdQueue) (m part addr need width : Nat) :
    (headMoved s n q).spotQ m part addr need width = s.spotQ m part addr need width := by
  have reg : ∀ f i, f ≠ MFam.qstat → (headMoved s n q).reg ⟨f, i⟩ = s.reg ⟨f, i⟩ := fun f i other => reg_setFld_ne s n 31 0 _ (by simp [other])
  have fabric := fabric_of_regs (fun k => reg .fabwin k (by decide)) fun k => reg .faboff k (by decide)
  have target : ∀ a, (headMoved s n q).physTarget a = s.physTarget a := fun a => by rw [State.physTarget, fabric, State.physTarget]
  simp only [State.spotQ, State.spotVa, State.spotOf, target]
  rfl

theorem organWrite_of_mem {s : State} {n part addr w v k : Nat} (spot : s.spotQ n part addr 2 w = .mem k) : s.organWrite n part addr w v = s.storeSpan k w v := by
  rw [State.organWrite, spot]
  rfl

/-- HEAD stands in the word at HEADADDR, and no other byte of memory changes. -/
theorem packetDone_headWord {u : State} {n h : Nat} {q : CmdQueue} (queue : tget u.queues n = some q) (p : BitVec 512) (job started : Nat)
    (spot : u.spotQ n q.part.toNat q.headAddr 2 8 = .mem h) (aligned : h % 8 = 0) (clean : u.mem.poisoned h = false) :
    (u.packetDone n p job started).mem.readLe h 8 = (u.headOf n + 1) % 2 ^ 32 ∧
      ∀ z, ¬ (h ≤ z ∧ z < h + 8) → (u.packetDone n p job started).mem.read z = u.mem.read z := by
  have low : (u.headOf n + 1) % 2 ^ 32 < 256 ^ 8 := by omega
  rw [(packetDone_writes queue p job started).2, consume_eq queue, organWrite_of_mem ((headMoved_spotQ u n q _ _ _ _ _).trans spot)]
  have bytes := fun z => storeSpan_read (s := headMoved u n q) (a := h) (n := 8) ((u.headOf n + 1) % 2 ^ 32) z (by omega) clean
  refine ⟨?_, fun z out => by rw [bytes, if_neg out]; rfl⟩
  rw [readLe_of_bytes _ 8 h _ fun i hi => by rw [bytes, if_pos (by omega), Nat.add_sub_cancel_left], Nat.mod_eq_of_lt low]

theorem flagWrite_next {s : State} {n : Fin 1024} {q : CmdQueue} {p : BitVec 512} {k : Nat} (head : HeadPacket s n.val q p) (good : badPacket p = false)
    (kind : pkField p 0 1 = 5) (spot : s.spotQ n.val q.part.toNat (pkField p 8 8) 2 8 = .mem k) :
    exec (.flagWrite n) s = .next ((s.storeBytes k 8 (pkField p 16 8)).packetDone n.val p 0 s.tbase.toNat) :=
  congrArg Host.Outcome.next (runPacket_of_done head good kind rfl (by decide) (.inl (by decide)) (by simp only [spot]))

theorem storeBytes_poisoned {s : State} {a : Nat} (n v b : Nat) (clean : s.mem.poisoned a = false) : (s.storeBytes a n v).mem.poisoned b = s.mem.poisoned b := by
  unfold State.storeBytes State.storeRow
  split
  · rfl
  · have same : (s.mem.writeRow (rowOf a) (BitVec.ofNat 2048 (v % 256 ^ n * 256 ^ (a % 256))) (byteMask (a % 256) n)).poison = s.mem.poison := by
      rw [Mem.writeRow, if_neg (by rw [show s.mem.poison.contains (rowOf a) = false from clean]; decide), mem_writeLe_poison]
    exact congrArg (fun l : List Nat => l.contains (rowOf b)) same

theorem flagWrite_results {s : State} {n : Fin 1024} {q : CmdQueue} {p : BitVec 512} {k h : Nat} (head : HeadPacket s n.val q p) (good : badPacket p = false)
    (kind : pkField p 0 1 = 5) (spot : s.spotQ n.val q.part.toNat (pkField p 8 8) 2 8 = .mem k) (aligned : k % 8 = 0) (clean : s.mem.poisoned k = false)
    (word : s.spotQ n.val q.part.toNat q.headAddr 2 8 = .mem h) (aligned' : h % 8 = 0) (apart : h ≠ k) (clean' : s.mem.poisoned h = false) :
    ∃ t, exec (.flagWrite n) s = .next t ∧ t.headOf n.val = (s.headOf n.val + 1) % 2 ^ 32 ∧ t.mem.readLe k 8 = pkField p 16 8 ∧
      t.mem.readLe h 8 = (s.headOf n.val + 1) % 2 ^ 32 ∧
      ∀ x, ¬ (k ≤ x ∧ x < k + 8) → ¬ (h ≤ x ∧ x < h + 8) → t.mem.read x = s.mem.read x := by
  have stored : OnlyWrites s (s.storeBytes k 8 (pkField p 16 8)) := onlyWrites_storeRow s _ _ _
  have queue : tget (s.storeBytes k 8 (pkField p 16 8)).queues n.val = some q := (stored.get (fun t => tget t.queues n.val) rfl).trans head.1
  have headOf : (s.storeBytes k 8 (pkField p 16 8)).headOf n.val = s.headOf n.val := stored.get (·.headOf n.val) rfl
  obtain ⟨stands, rest⟩ := packetDone_headWord queue p 0 s.tbase.toNat ((stored.get (·.spotQ n.val q.part.toNat q.headAddr 2 8) rfl).trans word) aligned'
    ((storeBytes_poisoned 8 _ h clean).trans clean')
  have bytes := fun z => storeBytes_read (s := s) (a := k) (n := 8) (pkField p 16 8) z (by omega) clean
  rw [headOf] at stands
  refine ⟨_, flagWrite_next head good kind spot, by rw [packetDone_headOf queue, headOf], ?_, stands, fun x out out' => by rw [rest x out', bytes, if_neg out]⟩
  rw [readLe_of_bytes _ 8 k (pkField p 16 8) fun i hi => by rw [rest _ (by omega), bytes, if_pos (by omega), Nat.add_sub_cancel_left],
    Nat.mod_eq_of_lt (pkField_lt p 16 8)]

/-! ### FLAG_WAIT (R39, R40) -/

/-- Whether a FLAG_WAIT on this word goes on. -/
def flagPasses (s : State) (p : BitVec 512) (k : Nat) : Bool := waitTest (s.mem.word k) (BitVec.ofNat 64 (pkField p 16 8)) (Fin.ofNat 4 (pkField p 24 1))

theorem flagWait_of_mem {s : State} {n k : Nat} {q : CmdQueue} {p : BitVec 512} (spot : s.spotQ n q.part.toNat (pkField p 8 8) 1 = .mem k)
    (clean : s.mem.poisoned k = false) : flagWait n q p s = if flagPasses s p k then .done 0 s else .wait s := by
  simp only [flagWait, spot, clean, Bool.false_eq_true, if_false]
  rfl

/-- FLAG_WAIT and its retry are the same packet, run again. -/
theorem flagWait_next {s : State} {n : Fin 1024} {q : CmdQueue} {p : BitVec 512} (head : HeadPacket s n.val q p) (good : badPacket p = false)
    (kind : pkField p 0 1 = 6) : let t := afterPacket s n.val q p (flagWait n.val q p s)
    exec (.flagWait n) s = .next t ∧ exec (.packetRetry n) s = .next t := by
  refine ⟨congrArg Host.Outcome.next (runPacket_of_head _ head good kind rfl (by decide) (.inl (by decide))),
    congrArg Host.Outcome.next ((runPacket_of_head _ head good kind rfl (by decide) (.inl (by decide))).trans ?_)⟩
  rw [if_neg (by rw [kind]; decide)]

/-! ### LAUNCH (R40, R49, R424) -/

/-- LAUNCH and its retry are the same packet, run again. -/
theorem launchPacket_next {s : State} {n : Fin 1024} {q : CmdQueue} {p : BitVec 512} (head : HeadPacket s n.val q p) (good : badPacket p = false)
    (kind : pkField p 0 1 = 1) : let t := afterPacket s n.val q p (launchPacket n.val q p s)
    exec (.launchPacket n) s = .next t ∧ exec (.packetRetry n) s = .next t := by
  refine ⟨congrArg Host.Outcome.next (runPacket_of_head _ head good kind rfl (by decide) (.inl (by decide))),
    congrArg Host.Outcome.next ((runPacket_of_head _ head good kind rfl (by decide) (.inl (by decide))).trans ?_)⟩
  rw [if_pos kind]

/-- What a LAUNCH answers by how the start of its job went. -/
def launchAnswer : StartRes → PacketRes
  | .started job u => .done job u
  | .wait u => .wait u

theorem launchPacket_of_ok {s : State} {n k : Nat} {q : CmdQueue} {p : BitVec 512} (spot : s.spotQ n q.part.toNat (pkField p 8 8) 1 = .mem k)
    (clean : s.mem.poisoned k = false) (ok : s.checkCard (if n = 0 then none else some q.part.toNat) (BitVec.ofNat 1024 (s.mem.readLe k 128)) = .ok) :
    launchPacket n q p s = launchAnswer (s.startJob (BitVec.ofNat 1024 (s.mem.readLe k 128)) (pkField p 8 8)) := by
  simp only [launchPacket, spot, clean, ok, Bool.false_eq_true, if_false]
  cases s.startJob _ _ <;> rfl

theorem startJob_of_full {s : State} (card : BitVec 1024) (cardAddr : Nat) (full : s.freeSlot = none) : s.startJob card cardAddr = .wait s := by
  unfold State.startJob
  rw [full]

theorem startJob_of_held {s : State} {card : BitVec 1024} {cardAddr slot : Nat} (free : s.freeSlot = some slot) (held : s.rootHeld (jobOf card cardAddr) ≠ []) :
    s.startJob card cardAddr = .wait (s.snoop (s.rootHeld (jobOf card cardAddr))) := by
  unfold State.startJob
  rw [free]
  exact if_pos (by simpa using held)

/-- What a job is started with: its card, where it was, and when. -/
def jobOrigin (j : Job) : BitVec 1024 × Nat × Nat := (j.card, j.cardAddr, j.start)

/-- A job has taken a slot; queues and management registers are as they were. -/
structure Starts (s t : State) (slot : Nat) (origin : BitVec 1024 × Nat × Nat) : Prop where
  queues : t.queues = s.queues
  mmio : t.mmio = s.mmio
  job : (t.job? slot).map jobOrigin = some origin

section Starts

variable {s t u : State} {slot : Nat} {origin : BitVec 1024 × Nat × Nat}

theorem Starts.of_same (h : Starts s t slot origin) (queues : u.queues = t.queues) (mmio : u.mmio = t.mmio) (jobs : u.jobs = t.jobs) : Starts s u slot origin :=
  ⟨queues.trans h.queues, mmio.trans h.mmio, (KeepsJobs.of_jobs jobs slot).trans h.job⟩

theorem modJob_queues (s : State) (n : Nat) (f : Job → Job) : (s.modJob n f).queues = s.queues := by
  unfold State.modJob
  split <;> rfl

theorem Starts.modJob (h : Starts s t slot origin) {f : Job → Job} (kept : ∀ x, jobOrigin (f x) = jobOrigin x) : Starts s (t.modJob slot f) slot origin :=
  ⟨(modJob_queues t slot f).trans h.queues, (modJob_mmio t slot f).trans h.mmio, (keepsJobs_modJob t slot kept slot).trans h.job⟩

theorem Starts.storeBytes (h : Starts s t slot origin) (a n v : Nat) : Starts s (t.storeBytes a n v) slot origin :=
  have stored : OnlyWrites t (t.storeBytes a n v) := onlyWrites_storeRow t _ _ _
  h.of_same (stored.get State.queues rfl) (stored.get State.mmio rfl) (stored.get State.jobs rfl)

theorem Starts.dealSplit (h : Starts s t slot origin) : Starts s (t.dealSplit slot) slot origin := by
  unfold State.dealSplit
  split
  · exact h
  · simp only
    split
    · exact h.modJob fun _ => rfl
    · exact List.foldlRecOn (motive := fun acc : State × Nat => Starts s acc.1 slot origin) _ _ (h.modJob (f := fun x => { x with unsplit := false }) fun _ => rfl)
        fun acc kept d _ => kept.of_same rfl rfl rfl

/-- What follows the zeroing of a job's root: a team waits, a job without records is complete, any other is split (R50, R52). -/
theorem Starts.start (h : Starts s t slot origin) (j : Job) (finish : Nat) (l : List Instr) :
    Starts s (if j.gang then t else if j.argCount = 0 then (t.modJob slot fun x => { x with complete := true, finish := finish }).first l
      else t.dealSplit slot) slot origin := by
  split
  · exact h
  · split
    · exact (h.modJob (f := fun x => { x with complete := true, finish := finish }) fun _ => rfl).of_same rfl rfl rfl
    · exact h.dealSplit

end Starts

theorem startJob_starts {s : State} {card : BitVec 1024} {cardAddr slot : Nat} (free : s.freeSlot = some slot) (root : s.rootHeld (jobOf card cardAddr) = []) :
    ∃ t, s.startJob card cardAddr = .started slot t ∧ Starts s t slot (card, cardAddr, s.tbase.toNat) := by
  have seated : ∀ j : Job, jobOrigin j = (card, cardAddr, s.tbase.toNat) →
      Starts s { s.fresh.2 with jobs := tset s.fresh.2.jobs slot j } slot (card, cardAddr, s.tbase.toNat) := fun j same =>
    ⟨rfl, rfl, by rw [State.job?, tget_tset_same, Option.map_some, same]⟩
  unfold State.startJob
  rw [free]
  simp only [root, List.isEmpty_nil, Bool.not_true, Bool.false_eq_true, if_false]
  refine ⟨_, rfl, Starts.start ?_ _ _ _⟩
  split
  · exact (seated _ rfl).storeBytes _ _ _
  · exact seated _ rfl

end Sys2Proof.Proofs

namespace Sys2Proof.Proofs

open Sys2Proof Sys2Proof.Machine Sys2Proof.Safety Sys2Proof.Laws

/-! ### A LAUNCH whose card is good (R40, R49, R424) -/

section Launch

variable {s : State} {n : Fin 1024} {q : CmdQueue} {p : BitVec 512} {k : Nat} (head : HeadPacket s n.val q p) (good : badPacket p = false)
  (kind : pkField p 0 1 = 1) (spot : s.spotQ n.val q.part.toNat (pkField p 8 8) 1 = .mem k) (clean : s.mem.poisoned k = false)
  (ok : s.checkCard (if n.val = 0 then none else some q.part.toNat) (BitVec.ofNat 1024 (s.mem.readLe k 128)) = .ok)
include head good kind spot clean ok

theorem launchPacket_of_full (full : s.freeSlot = none) : exec (.launchPacket n) s = .next s ∧ exec (.packetRetry n) s = .next s := by
  have run := launchPacket_next head good kind
  rwa [launchPacket_of_ok spot clean ok, startJob_of_full _ _ full] at run

theorem launchPacket_of_held {slot : Nat} (free : s.freeSlot = some slot)
    (held : s.rootHeld (jobOf (BitVec.ofNat 1024 (s.mem.readLe k 128)) (pkField p 8 8)) ≠ []) :
    exec (.launchPacket n) s = .next (s.snoop (s.rootHeld (jobOf (BitVec.ofNat 1024 (s.mem.readLe k 128)) (pkField p 8 8)))) := by
  have run := (launchPacket_next head good kind).1
  rwa [launchPacket_of_ok spot clean ok, startJob_of_held free held] at run

theorem launchPacket_of_free {slot : Nat} (free : s.freeSlot = some slot)
    (root : s.rootHeld (jobOf (BitVec.ofNat 1024 (s.mem.readLe k 128)) (pkField p 8 8)) = []) :
    ∃ t j, exec (.launchPacket n) s = .next t ∧ t.headOf n.val = (s.headOf n.val + 1) % 2 ^ 32 ∧ t.job? slot = some j ∧
      j.card = BitVec.ofNat 1024 (s.mem.readLe k 128) ∧ j.cardAddr = pkField p 8 8 ∧ j.start = s.tbase.toNat := by
  obtain ⟨u, started, starts⟩ := startJob_starts free root
  have run := (launchPacket_next head good kind).1
  rw [launchPacket_of_ok spot clean ok, started] at run
  have queue : tget u.queues n.val = some q := (congrArg (tget · n.val) starts.queues).trans head.1
  obtain ⟨j, seated, origin⟩ := Option.map_eq_some_iff.1 starts.job
  simp only [jobOrigin, Prod.mk.injEq] at origin
  refine ⟨_, j, run, (packetDone_headOf queue p slot _).trans ?_, (packetDone_get queue p slot _ (·.job? slot) (fun _ _ => rfl) rfl).trans seated, origin⟩
  rw [State.headOf, fld_of_mmio starts.mmio n.val 31 0 (by decide), State.headOf]

end Launch

/-! ### QUEUE_CREATE (R39) -/

theorem queueCreate_results {s : State} {n : Fin 1024} {q : CmdQueue} {p : BitVec 512} (head : HeadPacket s n.val q p) (good : badPacket p = false)
    (organ : n.val = 0) (kind : pkField p 0 1 = 9) (other : pkField p 20 2 ≠ 0) (free : s.live (pkField p 20 2) = false) :
    ∃ t x, exec (.queueCreate n) s = .next t ∧ t.headOf n.val = (s.headOf n.val + 1) % 2 ^ 32 ∧ t.live (pkField p 20 2) = true ∧
      tget t.queues (pkField p 20 2) = some x ∧ x.base = pkField p 8 8 ∧ x.entries = pkField p 16 4 ∧ x.part.toNat = pkField p 22 1 := by
  have apart : pkField p 20 2 ≠ n.val := by rwa [organ]
  have part : pkField p 22 1 < 16 := by
    have made : (pkField p 1 1 ≤ 1 ∧ pkField p 2 6 = 0) ∧ badCreate p = false := by simpa [badPacket, kind] using good
    replace made := made.2
    simp only [badCreate, Bool.not_eq_false', Bool.and_eq_true, decide_eq_true_eq] at made
    exact made.1.1.2.2.1
  have queue : tget (s.createQueue p).queues n.val = some q := by rw [createQueue_queues, tget_tset_ne _ _ apart.symm, head.1]
  have run : exec (.queueCreate n) s = .next ((s.createQueue p).packetDone n.val p 0 s.tbase.toNat) :=
    congrArg Host.Outcome.next (runPacket_of_done head good kind rfl (by decide) (.inr organ) (if_neg (by simp [other, free])))
  refine ⟨_, queueOf p, run, ?_, ?_, ?_, rfl, rfl, ?_⟩
  · rw [packetDone_headOf queue, State.headOf, State.fld, createQueue_reg s (.inr apart.symm), State.headOf, State.fld]
  · rw [State.live, packetDone_fld queue p 0 _ 32 32 (.inr apart)]
    exact createQueue_live s p
  · rw [(packetDone_writes queue p 0 _).1.get (fun t => tget t.queues (pkField p 20 2)) rfl]
    exact (tget_tset_ne _ _ apart).trans (by rw [createQueue_queues, tget_tset_same])
  · exact (BitVec.toNat_ofNat _ _).trans (Nat.mod_eq_of_lt part)

/-! ### PART_RESIZE (R72) -/

/-- At most one quad, its QUADPART, and the contexts and jobs of the module differ. -/
structure OnlyQuad (i : Nat) (s t : State) : Prop where
  queues : t.queues = s.queues
  quarters : t.quarters = s.quarters
  reg : ∀ r, r ≠ ⟨.quadpart, i⟩ → t.reg r = s.reg r
  quad : ∀ j, j ≠ i → t.quad j = s.quad j

theorem OnlyQuad.refl (i : Nat) (s : State) : OnlyQuad i s s := ⟨rfl, rfl, fun _ _ => rfl, fun _ _ => rfl⟩

theorem OnlyQuad.trans {i : Nat} {s t u : State} (h : OnlyQuad i s t) (h' : OnlyQuad i t u) : OnlyQuad i s u :=
  ⟨h'.queues.trans h.queues, h'.quarters.trans h.quarters, fun r other => (h'.reg r other).trans (h.reg r other),
    fun j other => (h'.quad j other).trans (h.quad j other)⟩

theorem onlyQuad_setFld (s : State) (i hi lo v : Nat) : OnlyQuad i s (s.setFld .quadpart i hi lo v) :=
  ⟨rfl, rfl, fun _ other => reg_setFld_ne s i hi lo v other, fun _ _ => rfl⟩

theorem onlyQuad_modQuad (s : State) (i : Nat) (f : Quad → Quad) : OnlyQuad i s (s.modQuad i f) := ⟨rfl, rfl, fun _ _ => rfl, fun _ other => quad_modQuad_ne s f other⟩

/-- Two states agree on queues, quads, management registers and time. -/
structure SameQuads (s t : State) : Prop where
  queues : t.queues = s.queues
  quads : t.quads = s.quads
  mmio : t.mmio = s.mmio
  tbase : t.tbase = s.tbase
  quarters : t.quarters = s.quarters

theorem SameQuads.refl (s : State) : SameQuads s s := ⟨rfl, rfl, rfl, rfl, rfl⟩

theorem SameQuads.trans {s t u : State} (h : SameQuads s t) (h' : SameQuads t u) : SameQuads s u :=
  ⟨h'.queues.trans h.queues, h'.quads.trans h.quads, h'.mmio.trans h.mmio, h'.tbase.trans h.tbase, h'.quarters.trans h.quarters⟩

theorem SameQuads.foldl {α : Type} {f : State → α → State} (h : ∀ s x, SameQuads s (f s x)) (l : List α) (s : State) : SameQuads s (l.foldl f s) :=
  List.foldlRecOn (motive := SameQuads s) l f (.refl s) fun t ht x _ => ht.trans (h t x)

theorem SameQuads.reg {s t : State} (h : SameQuads s t) (r : MReg) : t.reg r = s.reg r := by rw [State.reg, h.tbase, h.mmio, State.reg]

theorem SameQuads.quad {s t : State} (h : SameQuads s t) (j : Nat) : t.quad j = s.quad j := by rw [State.quad, h.quads, State.quad]

theorem SameQuads.onlyQuad {s t : State} (h : SameQuads s t) (i : Nat) : OnlyQuad i s t := ⟨h.queues, h.quarters, fun r _ => h.reg r, fun j _ => h.quad j⟩

theorem sameQuads_modJob (s : State) (j : Nat) (f : Job → Job) : SameQuads s (s.modJob j f) := by
  unfold State.modJob
  split
  · exact ⟨rfl, rfl, rfl, rfl, rfl⟩
  · exact .refl s

theorem sameQuads_modCtx (s : State) (k : Nat) (f : Ctx → Ctx) : SameQuads s (s.modCtx k f) := ⟨rfl, rfl, rfl, rfl, rfl⟩

/-- The chunks that a quad gives back change jobs and contexts alone (R52, R72). -/
theorem sameQuads_returnChunks (s : State) (i : Nat) : SameQuads s (s.returnChunks i) :=
  .foldl (fun t k => (SameQuads.foldl (fun u _ => sameQuads_modJob u _ _) _ t).trans (sameQuads_modCtx _ k _)) _ s

theorem onlyQuad_recordMove (s : State) (i part : Nat) : OnlyQuad i s (s.recordMove i part) := by
  unfold State.recordMove
  split
  · split
    · exact .refl i s
    · exact onlyQuad_modQuad s i _
  · split
    · split
      · exact ((onlyQuad_setFld s i _ _ _).trans (onlyQuad_setFld _ i _ _ _)).trans (onlyQuad_modQuad _ i _)
      · exact onlyQuad_setFld s i _ _ _
    · split
      · exact .refl i s
      · exact (((onlyQuad_setFld s i _ _ _).trans (onlyQuad_setFld _ i _ _ _)).trans (onlyQuad_modQuad _ i _)).trans ((sameQuads_returnChunks _ i).onlyQuad i)

/-- What is seen of a quad: the clock, its QUADPART, and itself. -/
def quadView (i : Nat) (s : State) : Nat × Word × Quad := (s.now, s.reg ⟨.quadpart, i⟩, s.quad i)

theorem recordMove_view_other {i x : Nat} (s : State) (part : Nat) (h : x ≠ i) : quadView i (s.recordMove x part) = quadView i s := by
  have only := onlyQuad_recordMove s x part
  rw [quadView, State.now, only.quarters, only.reg _ (by simp [h.symm]), only.quad i h.symm]
  rfl

/-- A quad that stays in its partition begins to move to another. -/
theorem recordMove_starts {s : State} {i part : Nat} (low : part < 2 ^ 4) (other : part ≠ s.quadPart i) (still : s.quadMoving i = false)
    (ready : (s.quad i).zeroEnd = none) : let t := s.recordMove i part
    t.quadMoving i = true ∧ t.fld .quadpart i 11 8 = part ∧ (t.quad i).moveAt = some s.now := by
  let w := ((s.setFld .quadpart i 4 4 1).setFld .quadpart i 11 8 part).modQuad i fun x => { x with moveAt := some s.now }
  have run : s.recordMove i part = w.returnChunks i := by
    rw [State.recordMove, ready, Option.isSome_none, if_neg Bool.false_ne_true, still, if_neg Bool.false_ne_true, if_neg other]
  have same := sameQuads_returnChunks w i
  have fld : ∀ hi lo, (w.returnChunks i).fld .quadpart i hi lo = ((s.setFld .quadpart i 4 4 1).setFld .quadpart i 11 8 part).fld .quadpart i hi lo :=
    fun hi lo => congrArg (fun x : Word => nbits x.toNat hi lo) (same.reg ⟨.quadpart, i⟩)
  intro t
  rw [show t = w.returnChunks i from run, State.quadMoving, fld, fld, same.quad i]
  refine ⟨decide_eq_true ?_, fld_setFld_of_lt _ i (by decide) (by decide) low, congrArg Quad.moveAt (quad_modQuad_same _ i _)⟩
  rw [fld_setFld_other _ i _ (by decide) (by decide) (by decide) (by decide), fld_setFld_of_lt _ i (by decide) (by decide) (by decide)]

/-- The moves that a PART_RESIZE of these quads records. -/
def recordMoves (s : State) (quads : List Nat) (part : Nat) : State := quads.foldl (fun (s : State) i => s.recordMove i part) s

theorem recordMoves_keeps (s : State) (quads : List Nat) (part n : Nat) :
    (recordMoves s quads part).queues = s.queues ∧ (recordMoves s quads part).headOf n = s.headOf n :=
  List.foldlRecOn (motive := fun t : State => t.queues = s.queues ∧ t.headOf n = s.headOf n) quads _ ⟨rfl, rfl⟩ fun t kept i _ => by
    have only := onlyQuad_recordMove t i part
    refine ⟨only.queues.trans kept.1, Eq.trans ?_ kept.2⟩
    rw [State.headOf, State.fld, only.reg _ (by simp), State.headOf, State.fld]

theorem recordMoves_starts {s : State} {quads : List Nat} {i part : Nat} (once : quads.Nodup) (mem : i ∈ quads) (low : part < 2 ^ 4)
    (other : part ≠ s.quadPart i) (still : s.quadMoving i = false) (ready : (s.quad i).zeroEnd = none) : let t := recordMoves s quads part
    t.quadMoving i = true ∧ t.fld .quadpart i 11 8 = part ∧ (t.quad i).moveAt = some s.now := by
  obtain ⟨u, before, after⟩ := foldl_of_nodup (f := fun (s : State) i => s.recordMove i part) (get := quadView i)
    (fun t x apart => recordMove_view_other t part apart) once mem s
  simp only [quadView, Prod.mk.injEq] at before after
  obtain ⟨now, reg, quad⟩ := before
  obtain ⟨-, reg', quad'⟩ := after
  have fld : ∀ hi lo, u.fld .quadpart i hi lo = s.fld .quadpart i hi lo := fun hi lo => congrArg (fun x : Word => nbits x.toNat hi lo) reg
  have fld' : ∀ hi lo, (recordMoves s quads part).fld .quadpart i hi lo = (u.recordMove i part).fld .quadpart i hi lo :=
    fun hi lo => congrArg (fun x : Word => nbits x.toNat hi lo) reg'
  obtain ⟨moving, target, since⟩ := recordMove_starts (s := u) low (by rwa [State.quadPart, quad, fld, fld, ← State.quadPart])
    (by rwa [State.quadMoving, fld, ← State.quadMoving]) (by rw [quad, ready])
  refine ⟨by rw [State.quadMoving, fld']; exact moving, (fld' 11 8).trans target, ?_⟩
  rw [← now, ← since]
  exact congrArg Quad.moveAt quad'

theorem partResize_results {s : State} {n : Fin 1024} {q : CmdQueue} {p : BitVec 512} (head : HeadPacket s n.val q p) (good : badPacket p = false)
    (organ : n.val = 0) (kind : pkField p 0 1 = 7) : ∃ t, exec (.partResize n) s = .next t ∧ t.headOf n.val = (s.headOf n.val + 1) % 2 ^ 32 ∧
      ∀ i < 32, (pkField p 8 4).testBit i = true → pkField p 12 1 ≠ s.quadPart i → s.quadMoving i = false → (s.quad i).zeroEnd = none →
        t.quadMoving i = true ∧ t.fld .quadpart i 11 8 = pkField p 12 1 ∧ (t.quad i).moveAt = some s.now := by
  let quads := (List.range 32).filter fun i => (pkField p 8 4).testBit i
  have low : pkField p 12 1 < 2 ^ 4 := by
    have fits : (pkField p 1 1 ≤ 1 ∧ pkField p 2 6 = 0) ∧ pkField p 12 1 ≤ 15 ∧ zeroFrom p 13 = true := by simpa [badPacket, kind] using good
    have := fits.2.1
    omega
  have run : exec (.partResize n) s = .next ((recordMoves s quads (pkField p 12 1)).packetDone n.val p 0 s.tbase.toNat) :=
    congrArg Host.Outcome.next (runPacket_of_done head good kind rfl (by decide) (.inr organ) rfl)
  obtain ⟨queues, headOf⟩ := recordMoves_keeps s quads (pkField p 12 1) n.val
  have queue : tget (recordMoves s quads (pkField p 12 1)).queues n.val = some q := by rw [queues, head.1]
  refine ⟨_, run, by rw [packetDone_headOf queue, headOf], fun i below chosen other still ready => ?_⟩
  rw [State.quadMoving, packetDone_fld queue p 0 _ 4 4 (.inl (by decide)), packetDone_fld queue p 0 _ 11 8 (.inl (by decide)),
    packetDone_get queue p 0 _ (·.quad i) (fun _ _ => rfl) rfl]
  exact recordMoves_starts (List.nodup_range.filter _) (List.mem_filter.2 ⟨List.mem_range.2 below, chosen⟩) low other still ready

/-! ### GATHER_CFG (R314) -/

/-- A channel with its new configuration: what was ready is closed, and no stage is left. -/
def reconfigured (p : BitVec 512) (tick : Nat) (ch : GatherChan) : GatherChan :=
  { (if gOn ch.cfg && !ch.ready.isEmpty then ch.close 2 tick ch.ready else ch) with cfg := p, stages := [] }

theorem gatherConfig_chan (s : State) (p : BitVec 512) :
    (s.gatherConfig p).gatherChan (gField p 8 1) = reconfigured p s.tbase.toNat (s.gatherChan (gField p 8 1)) := tgetD_tset_same _ _ _ _

theorem gatherConfig_queues (s : State) (p : BitVec 512) : (s.gatherConfig p).queues = s.queues := rfl

/-- Registers of other families stay. -/
theorem gatherConfig_fld (s : State) (p : BitVec 512) {f : MFam} (i hi lo : Nat) (h : f ≠ .gdb) (h' : f ≠ .gstat) : (s.gatherConfig p).fld f i hi lo = s.fld f i hi lo := by
  rw [State.gatherConfig, fld_setFld_ne _ _ _ _ _ h', fld_setFld_ne _ _ _ _ _ h', fld_setFld_ne _ _ _ _ _ h]
  rfl

theorem gatherConfig_results (s : State) (p : BitVec 512) : ((s.gatherConfig p).gatherChan (gField p 8 1)).cfg = p ∧
    ((s.gatherConfig p).gatherChan (gField p 8 1)).stages = [] ∧ (s.gatherConfig p).fld .gdb (gField p 8 1) 31 0 = 0 ∧
      (s.gatherConfig p).fld .gstat (gField p 8 1) 31 0 = 0 := by
  rw [gatherConfig_chan]
  refine ⟨rfl, rfl, ?_, ?_⟩
  · rw [State.gatherConfig, fld_setFld_ne _ _ _ _ _ (by decide), fld_setFld_ne _ _ _ _ _ (by decide), fld_setFld_of_lt _ _ (by decide) (by decide) (by decide)]
  · rw [State.gatherConfig, fld_setFld_other _ _ _ (by decide) (by decide) (by decide) (by decide), fld_setFld_of_lt _ _ (by decide) (by decide) (by decide)]

theorem packetDone_gatherChan {u : State} {n : Nat} {q : CmdQueue} (queue : tget u.queues n = some q) (p : BitVec 512) (job started g : Nat) :
    (u.packetDone n p job started).gatherChan g = u.gatherChan g := packetDone_get queue p job started (·.gatherChan g) (fun _ _ => rfl) rfl

theorem gatherCfg_results {s : State} {n : Fin 1024} {q : CmdQueue} {p : BitVec 512} (head : HeadPacket s n.val q p) (good : badPacket p = false)
    (organ : n.val = 0) (kind : pkField p 0 1 = 8) : ∃ t, exec (.gatherCfg n) s = .next t ∧ t.headOf n.val = (s.headOf n.val + 1) % 2 ^ 32 ∧
      (t.gatherChan (gField p 8 1)).cfg = p ∧ (t.gatherChan (gField p 8 1)).stages = [] ∧ t.fld .gdb (gField p 8 1) 31 0 = 0 ∧
      t.fld .gstat (gField p 8 1) 31 0 = 0 := by
  have run : exec (.gatherCfg n) s = .next ((s.gatherConfig p).packetDone n.val p 0 s.tbase.toNat) :=
    congrArg Host.Outcome.next (runPacket_of_done head good kind rfl (by decide) (.inr organ) rfl)
  have queue : tget (s.gatherConfig p).queues n.val = some q := by rw [gatherConfig_queues, head.1]
  have headOf : (s.gatherConfig p).headOf n.val = s.headOf n.val := gatherConfig_fld s p n.val 31 0 (by decide) (by decide)
  refine ⟨_, run, by rw [packetDone_headOf queue, headOf], ?_⟩
  rw [packetDone_gatherChan queue, packetDone_fld queue p 0 _ 31 0 (.inl (by decide)),
    packetDone_fld queue p 0 _ 31 0 (.inl (by decide))]
  exact gatherConfig_results s p

/-! ### The packets together (R35, R38 to R40, R49, R72, R81) -/

/-- Settles O40, one lemma for each kind of packet. -/
theorem packetResults : Obligations.PacketResults := by
  unfold Obligations.PacketResults
  intro s n q p head good kind part a passed
  refine ⟨fun is => ?nop, image_results head good, fun k h is spot aligned clean word aligned' apart clean' =>
    flagWrite_results head good is spot aligned clean word aligned' apart clean', fun k is spot clean => ?wait, ?launch,
    queueCreate_results head good, partResize_results head good, gatherCfg_results head good⟩
  case nop =>
    have get := fun {α : Type} => packetDone_get head.1 p 0 s.tbase.toNat (α := α)
    exact ⟨_, nopPacket_next head good is, packetDone_headOf head.1 p 0 _, get State.images (fun _ _ => rfl) rfl, get State.jobs (fun _ _ => rfl) rfl,
      get State.pages (fun _ _ => rfl) rfl, get State.ctxs (fun _ _ => rfl) rfl⟩
  case wait =>
    have runs := flagWait_next head good is
    rw [flagWait_of_mem spot clean] at runs
    refine ⟨fun (fails : flagPasses s p k = false) => ?_, fun (passes : flagPasses s p k = true) => ?_⟩
    · rwa [fails] at runs
    · rw [passes, if_pos rfl] at runs
      exact ⟨_, runs.1, runs.2, packetDone_headOf head.1 p 0 _⟩
  case launch =>
    intro k is spot clean card ok
    refine ⟨launchPacket_of_full head good is spot clean ok, ?_⟩
    exact fun slot free => ⟨launchPacket_of_held head good is spot clean ok free, launchPacket_of_free head good is spot clean ok free⟩

end Sys2Proof.Proofs

namespace Sys2Proof.Proofs

open Sys2Proof Sys2Proof.Machine Sys2Proof.Safety Sys2Proof.Laws

/-! ### Held writes and waits that end (R295, R327, R413) -/

/-- Where nothing ends and nothing that runs waits, no wait has ended. -/
theorem settle_of_quiet {s : State} (quiet : Quiet s) : s.settle = s := by
  refine List.foldlRecOn (motive := fun t : State => t = s) _ _ rfl ?_
  rintro t rfl k -
  obtain ⟨goes, ready⟩ := quiet k
  cases life : (t.ctx k).life with
  | ending => exact absurd life goes
  | running => simp only [life, ready life]
  | free | dormant | stopped | abandoned => simp only [life]

theorem quiet_of_ctxs {s t : State} (h : t.ctxs = s.ctxs) (quiet : Quiet s) : Quiet t := fun k => by rw [ctx_of_ctxs h]; exact quiet k

theorem flushWrites_of_none {s : State} (h : s.heldWrites = []) : s.flushWrites = s := by
  rw [State.flushWrites, h]
  show ({ s with heldWrites := [] } : State) = s
  rw [← h]

/-- The held writes touch no quad and no management register, and let no context go on or wait. -/
structure OnlyFlushed (s t : State) : Prop where
  quads : t.quads = s.quads
  mmio : t.mmio = s.mmio
  goes : ∀ k, (t.ctx k).life = (s.ctx k).life ∧ (t.ctx k).wait = (s.ctx k).wait

theorem OnlyFlushed.trans {s t u : State} (h : OnlyFlushed s t) (h' : OnlyFlushed t u) : OnlyFlushed s u :=
  ⟨h'.quads.trans h.quads, h'.mmio.trans h.mmio, fun k => ⟨(h'.goes k).1.trans (h.goes k).1, (h'.goes k).2.trans (h.goes k).2⟩⟩

theorem onlyFlushed_storeRow (s : State) (k : Nat) (data : Row) (mask : BitVec 256) : OnlyFlushed s (s.storeRow k data mask) :=
  have same := sameTasks_storeRow s k data mask
  ⟨same.quads, (sameJobs_storeRow s k data mask).mmio, fun i => by rw [same.ctx i]; exact ⟨rfl, rfl⟩⟩

theorem onlyFlushed_forget (s : State) (id : Nat) (all : Bool) : OnlyFlushed s (s.forget id all) := by
  refine ⟨rfl, rfl, fun k => ?_⟩
  have ctx : (s.forget id all).ctx k = (s.ctx k).forget id all := ctx_mapCtxs s (f := fun c => c.forget id all) (by cases all <;> rfl) k
  rw [ctx]
  exact ⟨rfl, rfl⟩

theorem onlyFlushed_flushWrites (s : State) : OnlyFlushed s s.flushWrites := by
  refine List.foldlRecOn (motive := OnlyFlushed s) _ _ ⟨rfl, rfl, fun _ => ⟨rfl, rfl⟩⟩ fun t kept w _ => ?_
  have wrote : OnlyFlushed s (if w.add then (t.touch w.addr).addWord (localKey w.addr) w.value
      else (t.touch w.addr).storeBytes (localKey w.addr) w.bytes w.value) := by
    have touched : OnlyFlushed s (t.touch w.addr) := ⟨kept.quads, kept.mmio, kept.goes⟩
    split <;> exact touched.trans (onlyFlushed_storeRow _ _ _ _)
  simp only
  generalize (if w.add then (t.touch w.addr).addWord (localKey w.addr) w.value
      else (t.touch w.addr).storeBytes (localKey w.addr) w.bytes w.value) = u at wrote
  split
  · exact wrote
  · exact wrote.trans (onlyFlushed_forget u w.id true)

theorem OnlyFlushed.quiet {s t : State} (h : OnlyFlushed s t) (quiet : Quiet s) : Quiet t := fun k => by
  rw [(h.goes k).1, (h.goes k).2]
  exact quiet k

/-- With no context that ends or waits, what was held is written, and nothing else comes of it. -/
theorem onlyFlushed_settle {s : State} (quiet : Quiet s) : OnlyFlushed s s.flushWrites.settle := by
  have flushed := onlyFlushed_flushWrites s
  rw [settle_of_quiet (flushed.quiet quiet)]
  exact flushed

theorem flushed_of_none {s : State} (held : s.heldWrites = []) (quiet : Quiet s) : s.flushWrites.settle = s := by
  rw [flushWrites_of_none held, settle_of_quiet quiet]

/-! ### Retention (R413) -/

theorem setRetain_frame (s : State) (r : Retain) (a : ArrayId) :
    (s.setRetain r a).mem = s.mem ∧ (s.setRetain r a).ctxs = s.ctxs ∧ (s.setRetain r a).heldWrites = s.heldWrites := by
  cases a <;> exact ⟨rfl, rfl, rfl⟩

theorem retentionEntry_of_idle {s : State} {arr : ArrayId} (active : s.retain arr = .active) (asked : s.retains arr = true)
    (idle : tgetD s.touched arr 0 + 4096 ≤ s.now) : exec (.retentionEntry arr) s = .next (s.setRetain (.entering (s.now + retainCycles arr)) arr) := by
  show execRetentionEntry arr s = _
  simp [execRetentionEntry, active, asked, idle]

theorem retentionEntry_of_not_idle {s : State} {arr : ArrayId} (active : s.retain arr = .active)
    (h : ¬ (s.retains arr = true ∧ tgetD s.touched arr 0 + 4096 ≤ s.now)) : exec (.retentionEntry arr) s = .next s := by
  show execRetentionEntry arr s = _
  simp only [execRetentionEntry, active, Bool.and_eq_true, decide_eq_true_eq, if_neg h]

theorem retentionEntry_of_past {s : State} {arr : ArrayId} {at_ : Nat} (entering : s.retain arr = .entering at_) (past : at_ ≤ s.now) :
    exec (.retentionEntry arr) s = .next (s.setRetain .retained arr) := by
  show execRetentionEntry arr s = _
  simp only [execRetentionEntry, entering, if_pos past]

/-- An exit that ends with nothing held and nothing waiting leaves its array active, as one accessed now. -/
theorem retentionExit_of_past {s : State} {arr : ArrayId} {at_ : Nat} (exiting : s.retain arr = .exiting at_) (past : at_ ≤ s.now) (held : s.heldWrites = [])
    (quiet : Quiet s) : exec (.retentionExit arr) s = .next { s.setRetain .active arr with touched := tset s.touched arr s.now } := by
  obtain ⟨-, ctxs, writes⟩ := setRetain_frame s .active arr
  have done := flushed_of_none (s := { s.setRetain .active arr with touched := tset s.touched arr s.now }) (writes.trans held)
    (quiet_of_ctxs (t := { s.setRetain .active arr with touched := tset s.touched arr s.now }) ctxs quiet)
  show execRetentionExit arr s = _
  simp only [execRetentionExit, exiting, if_pos past, done]

theorem retentionExit_of_unasked {s : State} {arr : ArrayId} (retained : s.retain arr = .retained) (unasked : s.retains arr = false) :
    exec (.retentionExit arr) s = .next (s.startExit arr) := by
  show execRetentionExit arr s = _
  simp [execRetentionExit, retained, unasked]

/-! ### Segments of the Big Top (R295) -/

theorem tget_terase_same {κ α : Type} [DecidableEq κ] (t : List (κ × α)) (k : κ) : tget (terase t k) k = none := by
  simp [tget, terase, List.find?_eq_none]

theorem btownZeroEnd_of_past {s : State} {die : Fin 4} {seg : Fin 64} {at_ : Nat} (zeroed : tget (s.die die.val).segZero seg.val = some at_) (past : at_ ≤ s.now)
    (held : s.heldWrites = []) (quiet : Quiet s) :
    exec (.btownZeroEnd die seg) s = .next (s.modDie die.val fun x => { x with segZero := terase x.segZero seg.val }) := by
  have done := flushed_of_none (s := s.modDie die.val fun x => { x with segZero := terase x.segZero seg.val }) held (quiet_of_ctxs rfl quiet)
  show execBtownZeroEnd die seg s = _
  simp only [execBtownZeroEnd, zeroed, if_neg (Nat.not_lt.2 past), done]

end Sys2Proof.Proofs

namespace Sys2Proof.Proofs

open Sys2Proof Sys2Proof.Machine Sys2Proof.Safety Sys2Proof.Laws

/-! ### A trap leaves every other context alone (R391, R396, R397) -/

theorem sameOthers_of_ctxs {s t : State} (h : t.ctxs = s.ctxs) (key : Nat) : SameOthers s t key := fun k _ => ctx_of_ctxs h k

theorem sameOthers_trans {s t u : State} {key : Nat} (h : SameOthers s t key) (h' : SameOthers t u key) : SameOthers s u key :=
  fun k other => (h' k other).trans (h k other)

theorem sameOthers_modCtx (s : State) (key : Nat) (f : Ctx → Ctx) : SameOthers s (s.modCtx key f) key := fun _ other => ctx_modCtx_ne s f other

theorem writeC_ctxs (s : State) (c : Ctx) (a : Nat) (data : Row) (mask : BitVec 256) : (s.writeC c a data mask).ctxs = s.ctxs := by
  have stored : ((s.touch a).storeRow (localKey (rowOf a)) data mask).ctxs = s.ctxs := (sameTasks_storeRow (s.touch a) _ _ _).ctxs
  unfold State.writeC
  split
  · split
    · rfl
    · exact stored
  · exact stored

theorem keepWrite_ctxs (s : State) (arr : Option ArrayId) (w : HeldWrite) : (s.keepWrite arr w).ctxs = s.ctxs := by
  cases arr with
  | none => rfl
  | some x => exact (sameSaves_startExit s x).ctxs

/-- What a context is to a stop: a task of its own or a team's, its life, and whether a stop has been asked for. -/
def stopView (c : Ctx) : BitVec 8 × Life × Bool := (c.logical, c.life, c.stopReq)

theorem writeTrapRecord_ctx {s u : State} {key a rec : Nat} (h : s.writeTrapRecord key a rec = some u) :
    SameOthers s u key ∧ stopView (u.ctx key) = stopView (s.ctx key) := by
  unfold State.writeTrapRecord at h
  simp only at h
  split at h
  · cases h
    have same := writeC_ctxs s (s.ctx key)
    exact ⟨sameOthers_of_ctxs (same _ _ _) key, by rw [ctx_of_ctxs (same _ _ _)]⟩
  · cases h
    have kept := keepWrite_ctxs (s.fresh.2.modCtx key fun c => { c with outstanding := c.outstanding ++ [⟨s.fresh.1, 0⟩] })
    refine ⟨sameOthers_trans (sameOthers_modCtx s.fresh.2 key _) (sameOthers_of_ctxs (kept _ _) key), ?_⟩
    rw [ctx_of_ctxs (kept _ _), ctx_modCtx_same]
    rfl
  · cases h

theorem freeCtx_of_unarmed_others {s : State} {key : Nat} (h : (s.ctx key).armed = none) : SameOthers s (s.freeCtx key) key := by
  intro k other
  simp only [State.freeCtx, h]
  exact ctx_setCtx_ne s _ other

theorem abandon_ctx (s : State) (key info : Nat) :
    SameOthers s (s.abandon key info) key ∧ ((s.ctx key).logical = 0xFF → ((s.abandon key info).ctx key).life = .free) := by
  let report : FaultRec := { cause := cAbandoned, src := 8, part := (s.ctx key).part.toNat, job := some (s.ctx key).job.toNat, ticket := (s.ctx key).ticket, info := info }
  have reported : ((s.undo (s.ctx key).ticket).postFault report).ctxs = s.ctxs := ((sameTasks_undo s _).trans (sameTasks_postFault _ report)).ctxs
  have run : s.abandon key info = if (s.ctx key).logical ≠ 0xFF
      then ((s.undo (s.ctx key).ticket).postFault report).modCtx key fun c => { c with life := .abandoned, wait := .none, inflight := [], outstanding := [], fences := [] }
      else (((s.undo (s.ctx key).ticket).postFault report).modCtx key fun c => { c with armed := none }).freeCtx key := rfl
  rw [run]
  generalize (s.undo (s.ctx key).ticket).postFault report = u at reported
  have same : SameOthers s u key := sameOthers_of_ctxs reported key
  split
  · rename_i team
    exact ⟨sameOthers_trans same (sameOthers_modCtx u key _), fun alone => absurd alone team⟩
  · have unarmed : ((u.modCtx key fun c => { c with armed := none }).ctx key).armed = none := by rw [ctx_modCtx_same]
    exact ⟨sameOthers_trans (sameOthers_trans same (sameOthers_modCtx u key _)) (freeCtx_of_unarmed_others unarmed), fun _ => (freeCtx_of_unarmed unarmed).1⟩

/-- A trap lets a task that is no team's go on as it is, or frees its context. -/
theorem takeTrap_ctx (s : State) (key : Nat) (cause : Cause) (fslots islots : Nat) (pc saved : Offset) (faddr : Word) (info : BitVec 32) :
    let t := s.takeTrap key cause fslots islots pc saved faddr info
    SameOthers s t key ∧ ((s.ctx key).logical = 0xFF → (t.ctx key).life = .free ∨ stopView (t.ctx key) = stopView (s.ctx key)) := by
  intro t
  rcases takeTrap_cases s key cause fslots islots pc saved faddr info with ⟨u, -, -, written, run⟩ | ⟨u, written, run⟩
  · obtain ⟨others, view⟩ := writeTrapRecord_ctx written
    rw [show t = _ from run]
    refine ⟨sameOthers_trans others (sameOthers_modCtx u key _), fun _ => .inr ?_⟩
    rw [ctx_modCtx_same]
    exact view
  · have kept : SameOthers s u key ∧ stopView (u.ctx key) = stopView (s.ctx key) := by
      rcases written with rfl | written
      · exact ⟨fun _ _ => rfl, rfl⟩
      · exact writeTrapRecord_ctx written
    obtain ⟨others, freed⟩ := abandon_ctx u key cause.toNat
    rw [show t = _ from run]
    exact ⟨sameOthers_trans kept.1 others, fun alone => .inl (freed ((congrArg Prod.fst kept.2).trans alone))⟩

theorem boundary_ctx (s : State) (key : Nat) :
    SameOthers s (s.boundary key) key ∧
      ((s.ctx key).logical = 0xFF → ((s.boundary key).ctx key).life = .free ∨ stopView ((s.boundary key).ctx key) = stopView (s.ctx key)) := by
  unfold State.boundary
  split
  · exact takeTrap_ctx s key cWatchdog 0 0 (s.nextBundle key) (s.nextBundle key) 0 0
  · exact ⟨fun _ _ => rfl, fun _ => .inr rfl⟩

/-! ### A stop leaves every other context alone (R64, R76, R401, R408) -/

theorem unlanded_stopView (c : Ctx) (stop : Nat) : stopView (c.unlanded stop) = stopView c := by
  have emptied : ∀ (c : Ctx) (d : Dst), stopView (c.empty d) = stopView c := by
    intro c d
    cases d with
    | s r =>
      simp only [Ctx.empty]
      split <;> rfl
    | v _ | p _ | c _ | bt _ | lc _ _ | sys _ => rfl
  exact List.foldlRecOn (motive := fun x : Ctx => stopView x = stopView c) (c.fixed.filter fun e => decide (stop < e.2)) (fun (x : Ctx) e => x.empty e.1) rfl
    fun x same e _ => (emptied x e.1).trans same

theorem stopped_logical (c : Ctx) (now : Nat) : (c.stopped now).logical = c.logical := by
  unfold Ctx.stopped
  split
  · rfl
  · simp only
    split
    · rfl
    · exact congrArg Prod.fst (unlanded_stopView _ _)

/-- A context that runs is stopped, unless a stop has been asked for. -/
theorem stopped_of_running {c : Ctx} (now : Nat) (runs : c.life = .running) (unasked : c.stopReq = false) : (c.stopped now).life = .stopped := by
  have kept : ∀ stop l, (Ctx.unlanded { c with inflight := l } stop).life = .running := fun stop l =>
    (congrArg (·.2.1) (unlanded_stopView { c with inflight := l } stop)).trans runs
  have goes : ¬ (decide (c.life = .stopped) || c.stopReq) = true := by simp [runs, unasked]
  rw [Ctx.stopped, if_neg goes]
  refine if_pos ?_
  split
  · exact runs
  · exact kept _ _

theorem putSave_ctxs (s : State) (part q : Nat) (l : List (SaveRow × Row)) : (s.putSave part q l).ctxs = s.ctxs := by
  refine List.foldlRecOn (motive := fun t : State => t.ctxs = s.ctxs) l _ rfl fun t same e _ => ?_
  have touched : ∀ k, (t.touchKey k).ctxs = t.ctxs := fun k => by
    unfold State.touchKey
    split <;> rfl
  split
  · exact ((sameTasks_storeRow _ _ _ _).ctxs.trans (touched _)).trans same
  all_goals exact same

theorem vacate_others (s : State) (key : Nat) : SameOthers s (s.vacate key) key := by
  unfold State.vacate
  simp only
  split
  · exact fun k other => ctx_modCtx_ne _ _ other
  · exact sameOthers_modCtx s key _

theorem savedForm_ctxs (s : State) (key : Nat) (rows : List SaveRow) (ready : Bool) (log : List LogItem) : (s.savedForm key rows ready log).2.ctxs = s.ctxs := rfl

theorem saveCtx_others {s u : State} {key : Nat} {ready : Bool} {log : List LogItem} (h : s.saveCtx key ready log = .done u) : SameOthers s u key := by
  unfold State.saveCtx at h
  simp only at h
  split at h
  · cases h
  · split at h
    · cases h
    · split at h
      · cases h
      · cases h
        refine sameOthers_trans (sameOthers_of_ctxs ?_ key) (vacate_others _ key)
        exact (putSave_ctxs _ _ _ _).trans (savedForm_ctxs s key _ ready log)

theorem overrun_ctxs (s : State) (part cycles : Nat) : (s.overrun part cycles).ctxs = s.ctxs := by
  unfold State.overrun
  split <;> rfl

theorem saveFails_ctx (s : State) (key addr : Nat) (issuer : Word) : SameOthers s (s.saveFails key addr issuer) key ∧
    ((s.saveFails key addr issuer).ctx key).life = .stopped ∧ ((s.saveFails key addr issuer).ctx key).logical = (s.ctx key).logical := by
  have reported := fun (t : State) (f : FaultRec) => (sameTasks_postFault t f).ctx
  refine ⟨fun k other => (reported _ _ k).trans (ctx_setCtx_ne s _ other), ?_, ?_⟩
  · rw [State.saveFails, reported, ctx_setCtx_same]
  · rw [State.saveFails, reported, ctx_setCtx_same]
    exact stopped_logical _ _

/-- What a stop makes of a context that runs a task of its own: it is free, or stopped and still no team's. -/
def Left (c : Ctx) : Prop := c.life = .free ∨ c.life = .stopped ∧ c.logical = 0xFF

theorem saveOrWait_ctx (s : State) (key : Nat) (ready : Bool) : SameOthers s (s.saveOrWait key ready) key ∧
    (stopView (s.ctx key) = (0xFF, .running, false) → Left ((s.saveOrWait key ready).ctx key)) := by
  have stops : ∀ (u : State) (f : Ctx → Ctx), u.ctxs = s.ctxs → (∀ c, (f c).life = (c.stopped s.now).life ∧ (f c).logical = (c.stopped s.now).logical) →
      SameOthers s (u.modCtx key f) key ∧ (stopView (s.ctx key) = (0xFF, .running, false) → Left ((u.modCtx key f).ctx key)) := by
    intro u f same stopped
    refine ⟨sameOthers_trans (sameOthers_of_ctxs same key) (sameOthers_modCtx u key f), fun view => ?_⟩
    simp only [stopView, Prod.mk.injEq] at view
    obtain ⟨alone, runs, unasked⟩ := view
    rw [ctx_modCtx_same, ctx_of_ctxs same]
    exact .inr ⟨(stopped _).1.trans (stopped_of_running _ runs unasked), (stopped _).2.trans ((stopped_logical _ _).trans alone)⟩
  unfold State.saveOrWait
  simp only
  split
  · rename_i u made
    have same : ∀ part cycles, (u.overrun part cycles).ctxs = u.ctxs := overrun_ctxs u
    refine ⟨sameOthers_trans (saveCtx_others made) (sameOthers_of_ctxs (same _ _) key), fun _ => .inl ?_⟩
    rw [ctx_of_ctxs (same _ _)]
    exact (saveCtx_done made).2.2
  · exact stops s _ rfl fun _ => ⟨rfl, rfl⟩
  · exact stops _ _ (sameSaves_wakeRows s _ _ _).ctxs fun _ => ⟨rfl, rfl⟩
  · obtain ⟨others, stopped, logical⟩ := saveFails_ctx s key _ 0
    exact ⟨others, fun view => .inr ⟨stopped, logical.trans (congrArg Prod.fst view)⟩⟩

theorem stopAt_ctx (s : State) (key : Nat) (ready : Bool) : SameOthers s (s.stopAt key ready) key ∧
    (stopView (s.ctx key) = (0xFF, .running, false) → Left ((s.stopAt key ready).ctx key)) := by
  obtain ⟨others, trapped⟩ := boundary_ctx s key
  unfold State.stopAt
  simp only
  split
  · rename_i free
    exact ⟨others, fun _ => .inl free⟩
  · rename_i held
    obtain ⟨others', left⟩ := saveOrWait_ctx (s.boundary key) key ready
    exact ⟨sameOthers_trans others others', fun view => left (((trapped (congrArg Prod.fst view)).resolve_left held).trans view)⟩

theorem preempt_ctx (s : State) (key : Nat) : SameOthers s (s.preempt key) key ∧
    (stopView (s.ctx key) = (0xFF, .running, false) → Left ((s.preempt key).ctx key)) := by
  unfold State.preempt
  simp only
  split
  · refine ⟨fun k other => ctx_modCtx_ne _ _ other, fun _ => .inl ?_⟩
    rw [ctx_modCtx_same]
  · split
    · exact stopAt_ctx s key true
    · rename_i idle
      refine ⟨fun _ _ => rfl, fun view => absurd ?_ idle⟩
      exact .inl (congrArg (·.2.1) view)

/-! ### RESIZE_TIMEOUT (R73) -/

/-- The stop of a team touches no context but those of the team (R67). -/
theorem stopTeam_ctx {s : State} {k job : Nat} (apart : (s.ctx k).ofTeam job = false) : (s.stopTeam job).ctx k = s.ctx k := by
  unfold State.stopTeam
  split
  · rfl
  · rename_i t _
    split
    · rfl
    · simp only [State.modTeam]
      rw [ctx_of_ctxs (modJob_ctxs _ _ _)]
      refine List.foldlRecOn (motive := fun u : State => u.ctx k = s.ctx k) t.places _ rfl fun u same p _ => ?_
      by_cases here : k = placeKey p
      · subst here
        rw [ctx_modCtx_same, same, apart, Bool.false_and, if_neg Bool.false_ne_true]
      · rw [ctx_modCtx_ne _ _ here, same]

/-- What the end of RESWAIT makes of one context of a quad: its team is stopped, or it is pre-empted. -/
def stopResident (s : State) (k : Nat) : State :=
  if (s.ctx k).life = .free then s else if (s.ctx k).logical ≠ 0xFF then s.stopTeam (s.ctx k).job.toNat else s.preempt k

/-- The contexts of a quad. -/
def residents (q : Nat) : List Nat := (List.range 32).map (q * 32 + ·)

theorem mem_residents {q k : Nat} : k ∈ residents q ↔ quadOf k = q := by
  simp only [residents, List.mem_map, List.mem_range, quadOf]
  constructor
  · rintro ⟨i, low, rfl⟩
    omega
  · rintro rfl
    exact ⟨k % 32, by omega, by omega⟩

theorem residents_nodup (q : Nat) : (residents q).Nodup := List.nodup_range.map fun _ _ h => Nat.add_left_cancel h

theorem resizeTimeout_of_past {s : State} {quad : Fin 32} {at_ : Nat} (since : (s.quad quad.val).moveAt = some at_) (moving : s.quadMoving quad.val = true)
    (limited : s.fld .presize (s.quadPart quad.val) 31 0 ≠ 0) (past : at_ + s.fld .presize (s.quadPart quad.val) 31 0 ≤ s.now) :
    exec (.resizeTimeout quad) s = .next ((residents quad.val).foldl stopResident s) := by
  have due : ¬ (s.quadMoving quad.val = false ∨ s.fld .presize (s.quadPart quad.val) 31 0 = 0 ∨ s.now < at_ + s.fld .presize (s.quadPart quad.val) 31 0) := by
    simp only [moving, limited, Nat.not_lt.2 past, Bool.true_eq_false, or_self, not_false_iff]
  show execResizeTimeout quad s = _
  simp only [execResizeTimeout, since, if_neg due]
  rfl

/-- A context that is no team's is untouched while others of its quad are stopped. -/
theorem stopResidents_other {s : State} {k : Nat} {l : List Nat} (out : k ∉ l) (apart : ∀ job, (s.ctx k).ofTeam job = false) :
    (l.foldl stopResident s).ctx k = s.ctx k := by
  refine List.foldlRecOn (motive := fun t : State => t.ctx k = s.ctx k) l stopResident rfl fun t same x mem => ?_
  have other : k ≠ x := fun e => out (e ▸ mem)
  unfold stopResident
  split
  · exact same
  · split
    · rw [stopTeam_ctx (by rw [same]; exact apart _), same]
    · rw [(preempt_ctx t x).1 k other, same]

theorem ofTeam_of_alone {c : Ctx} (h : c.life = .free ∨ c.logical = 0xFF) (job : Nat) : c.ofTeam job = false := by
  rcases h with h | h <;> simp [Ctx.ofTeam, h]

/-- Once RESWAIT has passed, a context of the quad that still ran a task of its own is free or stopped. -/
theorem stopResidents_left {s : State} {q k : Nat} (mem : quadOf k = q) (alone : (s.ctx k).logical = 0xFF) (runs : (s.ctx k).life = .running)
    (unasked : (s.ctx k).stopReq = false) : let t := (residents q).foldl stopResident s; (t.ctx k).life = .free ∨ (t.ctx k).life = .stopped := by
  obtain ⟨l₁, l₂, split⟩ := List.append_of_mem (mem_residents.2 mem)
  have once := residents_nodup q
  rw [split] at once
  obtain ⟨-, tail, apart⟩ := List.nodup_append'.1 once
  have before : (l₁.foldl stopResident s).ctx k = s.ctx k :=
    stopResidents_other (fun first => apart first (List.mem_cons_self ..)) (ofTeam_of_alone (.inr alone))
  have turn : stopResident (l₁.foldl stopResident s) k = (l₁.foldl stopResident s).preempt k := by
    rw [stopResident, before, if_neg (by simp [runs]), if_neg (by simp [alone])]
  have left : Left ((stopResident (l₁.foldl stopResident s) k).ctx k) := by
    rw [turn]
    exact (preempt_ctx _ k).2 (by rw [before, stopView, alone, runs, unasked])
  intro t
  have after : t.ctx k = (stopResident (l₁.foldl stopResident s) k).ctx k := by
    rw [show t = _ from congrArg (List.foldl stopResident s) split, List.foldl_append, List.foldl_cons]
    exact stopResidents_other (List.nodup_cons.1 tail).1 (ofTeam_of_alone (left.imp id And.right))
  rw [after]
  exact left.imp id And.left

end Sys2Proof.Proofs

namespace Sys2Proof.Proofs

open Sys2Proof Sys2Proof.Machine Sys2Proof.Safety Sys2Proof.Laws

/-! ### What leaves every quad in its place (R72) -/

/-- The clock, and to which partition each quad belongs and moves: every QUADPART. -/
def placement (s : State) : Nat × (Nat → Word) := (s.now, fun i => s.reg ⟨.quadpart, i⟩)

theorem placement_of_mmio {s t : State} (now : t.now = s.now) (mmio : t.mmio = s.mmio) : placement t = placement s := by
  have regs : (fun i => t.reg ⟨.quadpart, i⟩) = fun i => s.reg ⟨.quadpart, i⟩ := funext fun _ => reg_of_mmio mmio (show MFam.quadpart ≠ .tbase by decide)
  rw [placement, now, regs, placement]

theorem now_of_placement {s t : State} (h : placement t = placement s) : t.now = s.now := congrArg Prod.fst h

theorem fld_of_placement {s t : State} (h : placement t = placement s) (i hi lo : Nat) : t.fld .quadpart i hi lo = s.fld .quadpart i hi lo :=
  congrArg (fun x : Nat × (Nat → Word) => nbits (x.2 i).toNat hi lo) h

theorem placement_foldl {α : Type} {f : State → α → State} (h : ∀ s x, placement (f s x) = placement s) (l : List α) (s : State) :
    placement (l.foldl f s) = placement s :=
  List.foldlRecOn (motive := fun t : State => placement t = placement s) l f rfl fun t same x _ => (h t x).trans same

theorem SameTasks.now {s t : State} (h : SameTasks s t) : t.now = s.now := by rw [State.now, h.quarters, State.now]

theorem placement_setFld (s : State) {f : MFam} (i hi lo v : Nat) (h : f ≠ .quadpart) : placement (s.setFld f i hi lo v) = placement s := by
  have regs : (fun j => (s.setFld f i hi lo v).reg ⟨.quadpart, j⟩) = fun j => s.reg ⟨.quadpart, j⟩ := funext fun j => reg_setFld_ne s i hi lo v (by simp [h.symm])
  rw [placement, regs]
  rfl

theorem placement_count (s : State) {f : MFam} (i hi lo n : Nat) (h : f ≠ .quadpart) : placement (s.count f i hi lo n) = placement s :=
  placement_setFld s i hi lo (min (s.fld f i hi lo + n) (2 ^ (hi + 1 - lo) - 1)) h

theorem placement_modJob (s : State) (n : Nat) (f : Job → Job) : placement (s.modJob n f) = placement s :=
  placement_of_mmio (sameTasks_modJob s n f).now (modJob_mmio s n f)

theorem placement_storeRow (s : State) (k : Nat) (data : Row) (mask : BitVec 256) : placement (s.storeRow k data mask) = placement s :=
  placement_of_mmio (sameTasks_storeRow s k data mask).now (sameJobs_storeRow s k data mask).mmio

theorem placement_parkLink (s : State) (part va : Nat) (w : ParkWork) (width : Nat) : placement (s.parkLink part va w width) = placement s :=
  placement_of_mmio (sameTasks_parkLink s part va w width).now (sameJobs_parkLink s part va w width).mmio

theorem placement_sibPost (s : State) (n : Nat) (q : CmdQueue) (slots : List Nat) (kind : Nat) : placement (s.sibPost n q slots kind) = placement s :=
  placement_of_mmio (sameTasks_sibPost s n q slots kind).now (sameJobs_sibPost s n q slots kind).mmio

theorem placement_postTo (s : State) (f : FaultRec) (fq : Option Nat) : placement (s.postTo f fq) = placement s := by
  have named : ∀ (t : State) (lost : Bool), placement (match f.job with
      | none => t
      | some j => t.modJob j fun x => { x with nfaults := min (x.nfaults + 1) (2 ^ 32 - 1), lost := x.lost || lost }) = placement t := by
    intro t lost
    split
    · rfl
    · exact placement_modJob t _ _
  simp only [State.postTo]
  split
  · exact named s true
  · split
    · exact named s true
    · split
      · exact named s true
      · split
        · exact (placement_sibPost _ _ _ _ _).trans (named s false)
        · exact (named _ true).trans (placement_count s _ _ _ _ (by decide))

theorem placement_postFault (s : State) (f : FaultRec) : placement (s.postFault f) = placement s := placement_postTo s f _

theorem placement_startExit (s : State) (a : ArrayId) : placement (s.startExit a) = placement s := placement_of_mmio (startExit_keeps s a).1 (startExit_keeps s a).2

/-! ### The end of a task leaves them there (R139, R327, R361, R415) -/

theorem placement_disarm (s : State) (w : Word) : placement (s.disarm w) = placement s := by
  unfold State.disarm
  split <;> rfl

theorem placement_releaseAll (s : State) (w : Word) : placement (s.releaseAll w) = placement s := by
  refine placement_foldl (fun t k => ?_) _ s
  exact placement_setFld (t.modDie k fun d => releaseSlice d w) k 16 0 _ (by decide)

theorem placement_emit (s : State) (c : Ctx) (d : Deferred) : placement (s.emit c d) = placement s := by
  cases d with
  | spawn r => exact placement_modJob _ _ _
  | launch card =>
    simp only [State.emit, State.poolPush]
    split <;> rfl
  | copy _ => rfl

theorem placement_relieved (s : State) (key : Nat) : placement (relieved s key) = placement s :=
  ((placement_disarm _ (s.ctx key).ticket).trans (placement_foldl (fun t d => placement_emit t (s.ctx key) d) _ _)).trans (placement_releaseAll s _)

theorem placement_startHandler {s t : State} {key : Nat} {a : ArrivalRec} (h : s.startHandler key a = some t) : placement t = placement s := by
  unfold State.startHandler at h
  simp only at h
  split at h
  · cases h
  · obtain ⟨x, stamped, rfl⟩ := Option.map_eq_some_iff.1 h
    have kept : placement x.2 = placement s := by
      unfold State.stampCore at stamped
      split at stamped
      · cases stamped
      · cases stamped
        rfl
    split <;> exact kept

theorem placement_deliverListed (s : State) (core : Nat) : placement (s.deliverListed core) = placement s := by
  unfold State.deliverListed
  split
  · rfl
  · split
    · rfl
    · rename_i started
      obtain ⟨k, -, started⟩ := Option.bind_eq_some_iff.1 started
      have kept := placement_startHandler started
      exact kept

theorem placement_freeCtx (s : State) (key : Nat) : placement (s.freeCtx key) = placement s := by
  simp only [State.freeCtx]
  split
  · rfl
  · exact placement_deliverListed _ _

theorem placement_completes (s : State) (job finish : Nat) (l : List Instr) :
    placement (((s.modJob job fun x => { x with complete := true, finish := finish }).releaseHandlers job).first l) = placement s :=
  placement_modJob s job _

theorem placement_rootAdd (s : State) (job wexp : Nat) (ticket : Word) : placement (s.rootAdd job wexp ticket) = placement s := by
  unfold State.rootAdd
  split
  · rfl
  · have added : ∀ a w, placement ((s.storeBytes a 16 w).modJob job fun x => { x with ends := (x.ends + 1) % 2 ^ 32 }) = placement s := fun a w =>
      (placement_modJob (s.storeBytes a 16 w) job _).trans (placement_storeRow s _ _ _)
    simp only
    split
    · exact placement_postFault _ _
    · split
      · exact placement_postFault s _
      · split
        · exact placement_postFault s _
        · split
          · exact placement_parkLink s _ _ _ _
          · split
            · exact (placement_completes _ _ _ _).trans (added _ _)
            · exact added _ _

theorem placement_retire (s : State) (key : Nat) : placement (s.retire key) = placement s := by
  have relieved := placement_relieved s key
  rw [retire_eq]
  split
  · exact (placement_freeCtx _ _).trans relieved
  · split
    · exact ((placement_freeCtx _ _).trans (placement_rootAdd _ _ _ _)).trans relieved
    · exact relieved

theorem placement_publish (s : State) (copies : List (Nat × Row × Bool)) : placement (s.publish copies) = placement s := by
  refine placement_foldl (fun t e => ?_) _ s
  have stored : placement ((t.touch e.1).storeRow (localKey e.1) e.2.1 fullMask) = placement t := placement_storeRow (t.touch e.1) _ _ _
  simp only
  split <;> exact stored

theorem placement_finishEnd (s : State) (key : Nat) : placement (s.finishEnd key) = placement s := by
  unfold State.finishEnd
  simp only
  split
  · rfl
  · split
    · exact placement_retire s key
    · rename_i j _
      split
      · exact placement_foldl (fun t a => placement_startExit t _) _ s
      · have ended : placement (if j.ended then s else (s.publish j.copies).setJournal (s.ctx key).ticket { j with ended := true, copies := [] }) = placement s := by
          split
          · rfl
          · exact placement_publish s j.copies
        generalize (if j.ended then s else (s.publish j.copies).setJournal (s.ctx key).ticket { j with ended := true, copies := [] }) = u at ended
        split
        · split <;> exact ended
        · exact (placement_retire _ key).trans ended

theorem placement_leaveCtx (s : State) (key : Nat) : placement (s.leaveCtx key) = placement s := placement_freeCtx _ key

theorem placement_settle (s : State) : placement s.settle = placement s := by
  refine placement_foldl (fun t k => ?_) _ s
  simp only
  split
  · exact placement_finishEnd t k
  · split <;> rfl
  · split <;> rfl
  · simp only [State.writeOut]
    split
    · exact placement_leaveCtx _ k
    · rfl
  · simp only [State.sleepOut]
    split
    · exact placement_leaveCtx _ k
    · rfl
  · rfl

theorem placement_performed (s : State) (id : Nat) : placement (s.performed id) = placement s := placement_settle (s.forget id true)

/-! ### What fails at a move leaves them there (R74, R253, R280, R293) -/

theorem placement_doneAdd (s : State) (o : Origin) (a v : Nat) : placement (s.doneAdd o a v) = placement s := by
  unfold State.doneAdd
  split
  · exact placement_storeRow _ _ _ _
  · rename_i arr _
    cases arr with
    | none => rfl
    | some x => exact placement_startExit s x
  · rfl

theorem placement_hopLost (s : State) (o : Origin) (h : HopRec) : placement (s.hopLost o h) = placement s := by
  unfold State.hopLost
  split
  · rfl
  · exact placement_doneAdd s _ _ _

theorem placement_spokeFail (s : State) (e k : Nat) (x : Spoke) (cause : Cause) (addr stepAddr : Nat) (sum : SumFault) :
    placement (s.spokeFail e k x cause addr stepAddr sum) = placement s := by
  have told := fun t : State => placement_foldl (f := fun (s : State) g => s.ropeFlit none (.abortGroup g.id g.me)) (fun _ _ => rfl) x.groups t
  have lost := placement_foldl (fun t h => placement_hopLost t x.org h) (x.hops.filter fun h => !h.finished) s
  exact (told _).trans ((placement_postFault _ _).trans lost)

theorem placement_failSpokes (s : State) (q : Nat) : placement (s.failSpokes q) = placement s := by
  refine placement_foldl (fun t p => ?_) _ s
  split
  · split
    · split
      · exact placement_spokeFail t _ _ _ _ _ _ _
      · rfl
    · rfl
  · rfl

theorem placement_copyGone (s : State) (q : Nat) (c : CopyCmd) : placement (s.copyGone q c) = placement s := by
  refine (placement_performed _ c.id).trans ?_
  unfold State.stamp
  split <;> rfl

theorem placement_copyFailNow (s : State) (q : Nat) (c : CopyCmd) (f : CopyFault) : placement (s.copyFailNow q c f) = placement s :=
  (placement_copyGone _ q c).trans ((placement_postFault _ _).trans (placement_foldl (fun t a => placement_doneAdd t c.org a _) _ s))

theorem placement_tileFail (s : State) (q : Nat) (t : TileRec) (cause : Cause) (addr : Nat) : placement (s.tileFail q t cause addr) = placement s :=
  (placement_performed _ t.id).trans ((placement_postFault _ _).trans (placement_doneAdd s _ _ _))

theorem placement_failMoved (s : State) (q : Nat) : placement (s.failMoved q) = placement s :=
  (placement_foldl (fun t x => placement_tileFail t q x cPartMoved 0) _ _).trans
    ((placement_foldl (fun t (c : CopyCmd) => placement_copyFailNow t q c ⟨cPartMoved, 0, c.row / cpUnits c.cmd, 0, 0, 0⟩) _ _).trans (placement_failSpokes s q))

theorem placement_moveMonitors (part : Nat) : ∀ (l : List MonEntry) (s : State), placement (s.moveMonitors part l) = placement s := by
  intro l
  induction l with
  | nil => exact fun s => rfl
  | cons e l ih =>
    intro s
    unfold State.moveMonitors
    split
    · exact (ih _).trans (placement_setFld _ _ 6 0 _ (show MFam.monstat ≠ .quadpart by decide))
    · exact ih _

end Sys2Proof.Proofs

namespace Sys2Proof.Proofs

open Sys2Proof Sys2Proof.Machine Sys2Proof.Safety Sys2Proof.Laws

/-! ### QUAD_MOVE (R72 to R74) -/

/-- A table of which some keys are kept: their entries are as they were. -/
theorem tget_filter_of_kept {κ α : Type} [DecidableEq κ] (t : List (κ × α)) {p : κ → Bool} {k : κ} (kept : p k = true) :
    tget (t.filter fun e => p e.1) k = tget t k := by
  rw [tget, List.find?_filter, tget]
  congr 2
  funext e
  by_cases here : e.1 = k <;> simp [here, kept]

theorem tget_filter_of_dropped {κ α : Type} [DecidableEq κ] (t : List (κ × α)) {p : κ → Bool} {k : κ} (dropped : p k = false) :
    tget (t.filter fun e => p e.1) k = none := by
  have out : ∀ e ∈ t.filter fun e => p e.1, ¬ decide (e.1 = k) = true := by
    intro e mem here
    have kept := (List.mem_filter.1 mem).2
    rw [of_decide_eq_true here, dropped] at kept
    cases kept
  rw [tget, List.find?_eq_none.2 out, Option.map_none]

/-- QUADPART is not among the registers that a quad loses at its move. -/
theorem placement_resetQuad (s : State) (q part : Nat) : placement (s.resetQuad q part) = placement s := by
  have kept : ∀ i, (s.resetQuad q part).reg ⟨.quadpart, i⟩ = s.reg ⟨.quadpart, i⟩ := fun i => by
    have entry : tget (s.resetQuad q part).mmio ⟨.quadpart, i⟩ = tget s.mmio ⟨.quadpart, i⟩ :=
      tget_filter_of_kept s.mmio (p := fun r => !r.ofQuad q) (by simp [MReg.ofQuad])
    rw [State.reg, State.reg, tgetD, entry, tgetD]
    rfl
  rw [placement, funext kept]
  rfl

theorem resetQuad_quad (s : State) (q part : Nat) : ((s.resetQuad q part).quad q).tiles = [] ∧ ((s.resetQuad q part).quad q).copies = [] := by
  have quad : (s.resetQuad q part).quad q =
      { Quad.reset with retain := (s.quad q).retain, gone := ((s.quad q).gone.filter fun e => decide (e.1 ≠ part)) ++ [(part, s.tbase.toNat)] } := tgetD_tset_same _ _ _ _
  rw [quad]
  exact ⟨rfl, rfl⟩

theorem resetQuad_ctx (s : State) (q part : Nat) {k : Nat} (here : quadOf k = q) : (s.resetQuad q part).ctx k = Ctx.reset := by
  have gone : tget (s.resetQuad q part).ctxs k = none := tget_filter_of_dropped s.ctxs (p := fun i => decide (quadOf i ≠ q)) (by simp [here])
  rw [State.ctx, tgetD, gone, Option.getD_none]

theorem dealSplit_eq (s : State) (job : Nat) : ∃ jobs ranges, s.dealSplit job = { s with jobs := jobs, ranges := ranges } := by
  have modJob : ∀ f, ∃ jobs, s.modJob job f = { s with jobs := jobs } := fun f => by
    unfold State.modJob
    split
    · exact ⟨_, rfl⟩
    · exact ⟨s.jobs, rfl⟩
  unfold State.dealSplit
  split
  · exact ⟨s.jobs, s.ranges, rfl⟩
  · simp only
    split
    · obtain ⟨jobs, run⟩ := modJob fun x => { x with unsplit := true }
      exact ⟨jobs, s.ranges, run⟩
    · obtain ⟨jobs, run⟩ := modJob fun x => { x with unsplit := false }
      rw [run]
      refine ⟨jobs, ?_⟩
      refine List.foldlRecOn (motive := fun acc : State × Nat => ∃ ranges, acc.1 = { s with jobs := jobs, ranges := ranges }) _ _ ⟨s.ranges, rfl⟩ ?_
      rintro ⟨t, n⟩ ⟨ranges, rfl⟩ d -
      exact ⟨_, rfl⟩

/-- Jobs that are split get ranges, and nothing else changes (R52). -/
theorem splitWaiting_eq (s : State) (part : Nat) : ∃ jobs ranges, s.splitWaiting part = { s with jobs := jobs, ranges := ranges } := by
  refine List.foldlRecOn (motive := fun t : State => ∃ jobs ranges, t = { s with jobs := jobs, ranges := ranges }) _ _ ⟨s.jobs, s.ranges, rfl⟩ ?_
  rintro t ⟨jobs, ranges, rfl⟩ e -
  obtain ⟨jobs', ranges', run⟩ := dealSplit_eq { s with jobs := jobs, ranges := ranges } e.1
  exact ⟨jobs', ranges', run⟩

/-- Where the scratchpad of a quad begins. -/
def scratchBase (q : Nat) : Nat := localKey (0x1000000000 + q * 0x1000000)

/-- A quad, left by everything, once it belongs to its target: it is at reset, and its scratchpad is zeroed for 1,024 cycles. -/
def handedOver (s : State) (q old target : Nat) : State :=
  let u := (s.resetQuad q old).zeroRange (scratchBase q) 0x1000000
  ((u.modQuad q fun x => { x with zeroEnd := some (u.now + 1024) }).modDie (q / 8) fun d => { d with tcache := [] }).splitWaiting target

theorem handedOver_results (s : State) (q old target : Nat) : let t := handedOver s q old target
    placement t = placement s ∧ (t.quad q).zeroEnd = some (s.now + 1024) ∧ (t.quad q).tiles = [] ∧ (t.quad q).copies = [] ∧
      (∀ k, quadOf k = q → t.ctx k = Ctx.reset) ∧ ∀ a < 0x1000000, t.mem.read (scratchBase q + a) = 0 := by
  let u := (s.resetQuad q old).zeroRange (scratchBase q) 0x1000000
  obtain ⟨jobs, ranges, run⟩ := splitWaiting_eq ((u.modQuad q fun x => { x with zeroEnd := some (u.now + 1024) }).modDie (q / 8) fun d => { d with tcache := [] }) target
  have quad := quad_modQuad_same u q fun x => { x with zeroEnd := some (u.now + 1024) }
  obtain ⟨tiles, copies⟩ := resetQuad_quad s q old
  intro t
  rw [show t = _ from run]
  refine ⟨placement_resetQuad s q old, congrArg Quad.zeroEnd quad, (congrArg Quad.tiles quad).trans tiles, (congrArg Quad.copies quad).trans copies,
    fun k here => resetQuad_ctx s q old here, fun a inside => ?_⟩
  exact (zeroRange_read (s.resetQuad q old) (scratchBase q) 0x1000000 (scratchBase q + a)).trans (if_pos (by omega))

/-- What fails, and where the monitor entries go, leaves every quad in its place; then the quad is handed over. -/
theorem quadMove_of_free {s : State} {quad : Fin 32} (moving : s.quadMoving quad.val = true) (ready : (s.quad quad.val).zeroEnd = none)
    (free : ∀ k, quadOf k = quad.val → (s.ctx k).life = .free) (bare : s.journals = []) (counted : (s.quad quad.val).rcOps = []) :
    ∃ u, placement u = placement s ∧ exec (.quadMove quad) s = .next (handedOver u quad.val (s.quadPart quad.val) (s.fld .quadpart quad.val 11 8)) := by
  let q := quad.val
  let v := s.returnChunks q
  let records := ((v.quad q).monitor.filter fun m => m.record.isSome).map fun (m : MonEntry) => { m with gap := v.pollGap q }
  let w := v.modQuad q fun x => { x with zeroEnd := some (v.now + 1024), monitor := [] }
  have returned : placement v = placement s := placement_of_mmio (congrArg (· / 4) (sameQuads_returnChunks s q).quarters) (sameQuads_returnChunks s q).mmio
  have failed : placement ((w.failMoved q).moveMonitors (s.quadPart q) records) = placement s :=
    (placement_moveMonitors _ _ _).trans ((placement_failMoved w q).trans returned)
  have left : ((residents q).all fun k => decide ((s.ctx k).life = .free)) = true := List.all_eq_true.2 fun k mem => decide_eq_true (free k (mem_residents.1 mem))
  have goes : ¬ (s.quadMoving q = false ∨ (s.quad q).zeroEnd.isSome ∨ ((residents q).all fun k => decide ((s.ctx k).life = .free)) = false ∨
      (s.quad q).rcOps.isEmpty = false) := by simp [q, moving, ready, left, counted]
  refine ⟨_, failed, ?_⟩
  have homed : s.journals.filter (fun e => decide (e.2.quad = q)) = [] := by rw [bare, List.filter_nil]
  have run : execQuadMove quad s = .next _ := congrArg Host.Outcome.next (if_neg goes)
  rw [homed] at run
  exact run

/-! ### QUAD_ZERO_END (R72, R74) -/

theorem quadZeroEnd_of_early {s : State} {quad : Fin 32} {at_ : Nat} (zeroing : (s.quad quad.val).zeroEnd = some at_) (early : s.now < at_) :
    exec (.quadZeroEnd quad) s = .next s := by
  show execQuadZeroEnd quad s = _
  simp only [execQuadZeroEnd, zeroing, if_pos early]

/-- A quad whose zeroing has ended, before what was held for it is written: QUADPART shows the partition. -/
def settledQuad (s : State) (q : Nat) : State :=
  (((s.setFld .quadpart q 3 0 (s.quadPart q)).setFld .quadpart q 4 4 0).setFld .quadpart q 11 8 0).modQuad q fun x =>
    { x with zeroEnd := none, nextMove := none, moveAt := none }

theorem settledQuad_results {s : State} {q : Nat} (zeroing : (s.quad q).zeroEnd.isSome = true) : let t := settledQuad s q
    (t.quad q).zeroEnd = none ∧ t.fld .quadpart q 3 0 = s.fld .quadpart q 11 8 ∧ t.fld .quadpart q 4 4 = 0 ∧ t.fld .quadpart q 11 8 = 0 := by
  let a := s.setFld .quadpart q 3 0 (s.quadPart q)
  let b := a.setFld .quadpart q 4 4 0
  let c := b.setFld .quadpart q 11 8 0
  have plain : MFam.quadpart ≠ .tbase := by decide
  have target : s.quadPart q = s.fld .quadpart q 11 8 := if_pos zeroing
  refine ⟨congrArg Quad.zeroEnd (quad_modQuad_same c q fun x => { x with zeroEnd := none, nextMove := none, moveAt := none }), ?part, ?moving, ?target⟩
  case part =>
    calc c.fld .quadpart q 3 0 = b.fld .quadpart q 3 0 := fld_setFld_other b q 0 plain (by decide) (by decide) (by decide)
      _ = a.fld .quadpart q 3 0 := fld_setFld_other a q 0 plain (by decide) (by decide) (by decide)
      _ = s.quadPart q := fld_setFld_of_lt s q plain (by decide) (target ▸ fld_lt s .quadpart q 11 8)
      _ = s.fld .quadpart q 11 8 := target
  case moving =>
    calc c.fld .quadpart q 4 4 = b.fld .quadpart q 4 4 := fld_setFld_other b q 0 plain (by decide) (by decide) (by decide)
      _ = 0 := fld_setFld_of_lt a q plain (by decide) (by decide)
  case target => exact fld_setFld_of_lt b q plain (by decide) (by decide)

theorem quadZeroEnd_of_past {s : State} {quad : Fin 32} {at_ : Nat} (zeroing : (s.quad quad.val).zeroEnd = some at_) (past : at_ ≤ s.now)
    (last : (s.quad quad.val).nextMove = none) : exec (.quadZeroEnd quad) s = .next ((settledQuad s quad.val).flushWrites.settle.postEvent
      { src := srcOrgan (Config.organCore 0).val, kind := 5, item := quad.val }) := by
  show execQuadZeroEnd quad s = _
  simp only [execQuadZeroEnd, zeroing, if_neg (Nat.not_lt.2 past), last]
  rfl

theorem quadZeroEnd_results {s : State} {quad : Fin 32} {at_ : Nat} (zeroing : (s.quad quad.val).zeroEnd = some at_) (past : at_ ≤ s.now)
    (last : (s.quad quad.val).nextMove = none) (quiet : Quiet s) : ∃ t, exec (.quadZeroEnd quad) s = .next t ∧ (t.quad quad.val).zeroEnd = none ∧
      t.quadPart quad.val = s.fld .quadpart quad.val 11 8 ∧ t.fld .quadpart quad.val 3 0 = s.fld .quadpart quad.val 11 8 ∧ t.quadMoving quad.val = false ∧
      t.fld .quadpart quad.val 11 8 = 0 := by
  obtain ⟨ended, part, moving, target⟩ := settledQuad_results (s := s) (q := quad.val) (by rw [zeroing]; rfl)
  have flushed := onlyFlushed_settle (s := settledQuad s quad.val) (quiet_of_ctxs rfl quiet)
  let t := (settledQuad s quad.val).flushWrites.settle
  have ended' : (t.quad quad.val).zeroEnd = none := by rw [State.quad, flushed.quads]; exact ended
  have fld : ∀ hi lo, t.fld .quadpart quad.val hi lo = (settledQuad s quad.val).fld .quadpart quad.val hi lo := fun hi lo =>
    fld_of_mmio flushed.mmio quad.val hi lo (by decide)
  have part' : t.fld .quadpart quad.val 3 0 = s.fld .quadpart quad.val 11 8 := (fld 3 0).trans part
  have quadPart : t.quadPart quad.val = s.fld .quadpart quad.val 11 8 := by rw [State.quadPart, ended', Option.isSome_none, if_neg Bool.false_ne_true, part']
  have moving' : t.quadMoving quad.val = false := by rw [State.quadMoving, fld, moving]; rfl
  exact ⟨_, quadZeroEnd_of_past zeroing past last, ended', quadPart, part', moving', (fld 11 8).trans target⟩

/-! ### Moves and retention together (R72 to R74, R295, R413) -/

/-- Settles O44, one lemma for each instruction and outcome. -/
theorem moveAndRetentionResults : Obligations.MoveAndRetentionResults := by
  unfold Obligations.MoveAndRetentionResults
  intro s quad die seg at_ arr
  refine ⟨fun moving ready free bare counted => ?move, quadZeroEnd_of_early, quadZeroEnd_results, fun since moving limited past => ?timeout,
    fun zeroed past held quiet => ?segment, fun active asked idle before => ?entry, fun entering past => ?retained, retentionEntry_of_not_idle,
    fun exiting past held quiet => ?exit, fun retained unasked => ?leaves⟩
  case move =>
    obtain ⟨u, same, run⟩ := quadMove_of_free moving ready free bare counted
    obtain ⟨place, zeroEnd, tiles, copies, ctxs, zero⟩ := handedOver_results u quad.val (s.quadPart quad.val) (s.fld .quadpart quad.val 11 8)
    rw [now_of_placement same] at zeroEnd
    refine ⟨_, run, zeroEnd, ?_, tiles, copies, ctxs, zero⟩
    rw [State.quadPart, zeroEnd, Option.isSome_some, if_pos rfl]
    exact fld_of_placement (place.trans same) quad.val 11 8
  case timeout =>
    exact ⟨_, resizeTimeout_of_past since moving limited past, fun k mem alone runs unasked => stopResidents_left mem alone runs unasked⟩
  case segment =>
    refine ⟨_, btownZeroEnd_of_past zeroed past held quiet, ?_, rfl⟩
    rw [die_modDie_same]
    exact tget_terase_same _ _
  case entry => exact ⟨_, retentionEntry_of_idle active asked (by omega), retain_setRetain_same s _ arr, (setRetain_frame s _ arr).1⟩
  case retained => exact ⟨_, retentionEntry_of_past entering past, retain_setRetain_same s _ arr, (setRetain_frame s _ arr).1⟩
  case exit =>
    refine ⟨_, retentionExit_of_past exiting past held quiet, Eq.trans ?_ (retain_setRetain_same s .active arr), (setRetain_frame s _ arr).1⟩
    cases arr <;> rfl
  case leaves =>
    refine ⟨_, retentionExit_of_unasked retained unasked, ?_⟩
    rw [startExit_retain, retained, leaving]

end Sys2Proof.Proofs

namespace Sys2Proof.Proofs
open Sys2Proof Sys2Proof.Machine Sys2Proof.Safety Sys2Proof.Laws

/-! ### Fields of a slot word (R86 to R88) -/

theorem fin?_eq_some {n x : Nat} {y : Fin n} : fin? n x = some y ↔ x = y.val := by
  have := y.isLt
  unfold fin?
  split
  · simp [Fin.ext_iff]
  · simp; omega

@[simp] theorem fin?_val {n : Nat} (y : Fin n) : fin? n y.val = some y := fin?_eq_some.2 rfl

theorem bits?_eq_some {n x : Nat} {y : BitVec n} : bits? n x = some y ↔ x = y.toNat := by
  have := y.isLt
  unfold bits?
  split
  · next h => simp [BitVec.toNat_eq, Nat.mod_eq_of_lt h]
  · simp; omega

@[simp] theorem bits?_toNat {n : Nat} (y : BitVec n) : bits? n y.toNat = some y := bits?_eq_some.2 rfl

theorem bit?_eq_some {x : Nat} {b : Bool} : bit? x = some b ↔ x = b.toNat := by
  unfold bit?
  cases b with
  | false => simp [ite_eq_iff]
  | true => simp only [ite_eq_iff, Bool.toNat_true]; simp; omega

@[simp] theorem bit?_toNat (b : Bool) : bit? b.toNat = some b := bit?_eq_some.2 rfl

@[simp] theorem sysReg_ofNumber?_number (r : SysReg) : SysReg.ofNumber? r.number = some r := by
  cases r with
  | epolicyV k => fin_cases k <;> rfl
  | _ => rfl

theorem number_of_ofNumber? {n : Nat} {r : SysReg} (h : SysReg.ofNumber? n = some r) : n = r.number := by
  unfold SysReg.ofNumber? at h
  split at h <;> cases h <;> rfl

theorem sysReg_ofNumber?_eq_some {n : Nat} {r : SysReg} : SysReg.ofNumber? n = some r ↔ n = r.number :=
  ⟨number_of_ofNumber?, fun h => h ▸ sysReg_ofNumber?_number r⟩

theorem fmtOf?_eq_some {f m : Nat} {g : FmtSel} (hm : m < 512) : fmtOf? f m = some g ↔ f = g.fField ∧ m = g.mField := by
  unfold fmtOf?
  cases g with
  | column c => have := c.isLt; split <;> simp [FmtSel.fField, FmtSel.mField, fin?_eq_some] <;> omega
  | code c => have := c.isLt; split <;> simp [FmtSel.fField, FmtSel.mField, fin?_eq_some] <;> omega

theorem dstFmt?_eq_some {m : Nat} {g : FmtSel} (hm : m < 512) : dstFmt? m = some g ↔ m = g.dstField := by
  unfold dstFmt?
  cases g with
  | column c => have := c.isLt; split <;> simp [FmtSel.dstField, fin?_eq_some]; omega
  | code c => have := c.isLt; split <;> (simp [FmtSel.dstField, fin?_eq_some]; omega)

/-! ### Forms of a slot word: what is packed is unpacked (R86, R87) -/

section Forms
variable {α : Type}

theorem unR3_pack {d a b x : Nat} (k : Nat → Nat → Nat → Nat → α) (hd : d < 64) (ha : a < 64) (hb : b < 64) (hx : x < 64) :
    unR3 (packR3 d a b x) k = k d a b x := by
  unfold unR3 packR3; congr 1 <;> omega

theorem unRI_pack {d a i : Nat} (k : Nat → Nat → Nat → α) (hd : d < 64) (ha : a < 64) (hi : i < 4096) : unRI (packRI d a i) k = k d a i := by
  unfold unRI packRI; congr 1 <;> omega

theorem unI18_pack {d i : Nat} (k : Nat → Nat → α) (hd : d < 64) (hi : i < 262144) : unI18 (packI18 d i) k = k d i := by
  unfold unI18 packI18; congr 1 <;> omega

theorem unJ_pack {t off : Nat} (k : Nat → Nat → α) (ht : t < 4) (ho : off < 4194304) : unJ (packJ t off) k = k t off := by
  unfold unJ packJ; congr 1 <;> omega

theorem unL_pack {l n e : Nat} (k : Nat → Nat → Nat → α) (hl : l < 4) (hn : n < 1024) (he : e < 4096) : unL (packL l n e) k = k l n e := by
  unfold unL packL; congr 1 <;> omega

theorem unK_pack {d j imm : Nat} (k : Nat → Nat → Nat → α) (hd : d < 64) (hj : j < 4) (hi : imm < 65536) : unK (packK d j imm) k = k d j imm := by
  unfold unK packK; congr 1 <;> omega

theorem unCH_pack {ch reg mode : Nat} (k : Nat → Nat → Nat → α) (hc : ch < 64) (hr : reg < 256) (hm : mode < 1024) :
    unCH (packCH ch reg mode) k = k ch reg mode := by
  unfold unCH packCH; congr 1 <;> omega

theorem unV_pack {d a b p f m : Nat} (k : Nat → Nat → Nat → Nat → Nat → Nat → α) (hd : d < 256) (ha : a < 256) (hb : b < 256) (hp : p < 16)
    (hf : f < 8) (hm : m < 512) : unV (packV d a b p f m) k = k d a b p f m := by
  unfold unV packV; congr 1 <;> omega

section Narrow
variable {r : Nat} (hr : r < 2 ^ 24) {i : α}
include hr

theorem unR3_eq_iff {k : Nat → Nat → Nat → Nat → α} : unR3 r k = i ↔ ∃ d a b x, r = packR3 d a b x ∧ (d < 64 ∧ a < 64 ∧ b < 64 ∧ x < 64) ∧ k d a b x = i :=
  ⟨fun h => ⟨_, _, _, _, by unfold packR3; omega, by omega, h⟩, fun ⟨_, _, _, _, e, ⟨h0, h1, h2, h3⟩, h⟩ => by rw [e, unR3_pack k h0 h1 h2 h3, h]⟩

theorem unRI_eq_iff {k : Nat → Nat → Nat → α} : unRI r k = i ↔ ∃ d a x, r = packRI d a x ∧ (d < 64 ∧ a < 64 ∧ x < 4096) ∧ k d a x = i :=
  ⟨fun h => ⟨_, _, _, by unfold packRI; omega, by omega, h⟩, fun ⟨_, _, _, e, ⟨h0, h1, h2⟩, h⟩ => by rw [e, unRI_pack k h0 h1 h2, h]⟩

theorem unI18_eq_iff {k : Nat → Nat → α} : unI18 r k = i ↔ ∃ d x, r = packI18 d x ∧ (d < 64 ∧ x < 262144) ∧ k d x = i :=
  ⟨fun h => ⟨_, _, by unfold packI18; omega, by omega, h⟩, fun ⟨_, _, e, ⟨h0, h1⟩, h⟩ => by rw [e, unI18_pack k h0 h1, h]⟩

theorem unJ_eq_iff {k : Nat → Nat → α} : unJ r k = i ↔ ∃ t off, r = packJ t off ∧ (t < 4 ∧ off < 4194304) ∧ k t off = i :=
  ⟨fun h => ⟨_, _, by unfold packJ; omega, by omega, h⟩, fun ⟨_, _, e, ⟨h0, h1⟩, h⟩ => by rw [e, unJ_pack k h0 h1, h]⟩

theorem unL_eq_iff {k : Nat → Nat → Nat → α} : unL r k = i ↔ ∃ l n e, r = packL l n e ∧ (l < 4 ∧ n < 1024 ∧ e < 4096) ∧ k l n e = i :=
  ⟨fun h => ⟨_, _, _, by unfold packL; omega, by omega, h⟩, fun ⟨_, _, _, e, ⟨h0, h1, h2⟩, h⟩ => by rw [e, unL_pack k h0 h1 h2, h]⟩

theorem unK_eq_iff {k : Nat → Nat → Nat → α} : unK r k = i ↔ ∃ d j imm, r = packK d j imm ∧ (d < 64 ∧ j < 4 ∧ imm < 65536) ∧ k d j imm = i :=
  ⟨fun h => ⟨_, _, _, by unfold packK; omega, by omega, h⟩, fun ⟨_, _, _, e, ⟨h0, h1, h2⟩, h⟩ => by rw [e, unK_pack k h0 h1 h2, h]⟩

theorem unCH_eq_iff {k : Nat → Nat → Nat → α} : unCH r k = i ↔ ∃ ch reg mode, r = packCH ch reg mode ∧ (ch < 64 ∧ reg < 256 ∧ mode < 1024) ∧
    k ch reg mode = i :=
  ⟨fun h => ⟨_, _, _, by unfold packCH; omega, by omega, h⟩, fun ⟨_, _, _, e, ⟨h0, h1, h2⟩, h⟩ => by rw [e, unCH_pack k h0 h1 h2, h]⟩

end Narrow

/-- Forty operand bits are the fields of one packed form. -/
theorem unV_fields {r : Nat} (hr : r < 2 ^ 40) :
    ∃ d a b p f m, m < 512 ∧ r = packV d a b p f m ∧ ∀ k : Nat → Nat → Nat → Nat → Nat → Nat → α, unV r k = k d a b p f m :=
  ⟨_, _, _, _, _, _, Nat.mod_lt _ (by decide), by unfold packV; omega, fun _ => rfl⟩

end Forms

/-! ### What the tables decode, they encode -/

/-- What a table decodes from an opcode and `n` operand bits is accepted by these slots, and has that opcode and those bits. -/
def TableEncodes (dec : Nat → Nat → Option Instr) (ts : List Slot) (n : Nat) : Prop :=
  ∀ op r i, r < 2 ^ n → dec op r = some i → (∀ t ∈ ts, t ∈ i.slots) ∧ i.opRest = (op, r)

theorem decCtl_encodes : TableEncodes decCtl [.ctl] 24 := by
  intro op r i hr
  unfold decCtl
  split
  all_goals simp only [unR3_eq_iff hr, unRI_eq_iff hr, unJ_eq_iff hr, unL_eq_iff hr, ite_eq_iff, Option.bind_eq_bind, Option.bind_eq_some_iff, fin?_eq_some,
    bits?_eq_some, Option.some.injEq, reduceCtorEq, and_false, or_false, forall_exists_index, and_imp, false_implies]
  all_goals intros; subst_vars; simp [Instr.slots, Instr.opRest, *]

theorem decAlu_encodes : TableEncodes decAlu [.sca, .adr] 24 := by
  intro op r i hr
  unfold decAlu
  split
  all_goals simp only [unR3_eq_iff hr, unRI_eq_iff hr, unI18_eq_iff hr, unK_eq_iff hr, ite_eq_iff, Option.bind_eq_bind, Option.bind_eq_some_iff,
    fin?_eq_some, bits?_eq_some, Option.some.injEq, reduceCtorEq, and_false, or_false, forall_exists_index, and_imp, false_implies]
  all_goals intros; subst_vars; simp [Instr.slots, Instr.opRest, *]

theorem decScaOnly_encodes : TableEncodes decScaOnly [.sca] 24 := by
  intro op r i hr
  unfold decScaOnly
  split
  all_goals simp only [unR3_eq_iff hr, unRI_eq_iff hr, ite_eq_iff, Option.bind_eq_bind, Option.bind_eq_some_iff, fin?_eq_some, bits?_eq_some,
    sysReg_ofNumber?_eq_some, Option.some.injEq, reduceCtorEq, and_false, or_false, forall_exists_index, and_imp, false_implies]
  all_goals intros; subst_vars; simp [Instr.slots, Instr.opRest, *]

theorem decAdrOnly_encodes : TableEncodes decAdrOnly [.adr] 24 := by
  intro op r i hr
  unfold decAdrOnly
  split
  all_goals simp only [unR3_eq_iff hr, ite_eq_iff, Option.bind_eq_bind, Option.bind_eq_some_iff, fin?_eq_some, Option.some.injEq, reduceCtorEq, and_false,
    or_false, forall_exists_index, and_imp, false_implies]
  all_goals intros; subst_vars; simp [Instr.slots, Instr.opRest, *]

theorem decCom_encodes : TableEncodes decCom [.com] 24 := by
  intro op r i hr
  unfold decCom
  split
  all_goals simp only [unR3_eq_iff hr, unCH_eq_iff hr, ite_eq_iff, Option.bind_eq_bind, Option.bind_eq_some_iff, fin?_eq_some, Option.some.injEq,
    reduceCtorEq, and_false, or_false, forall_exists_index, and_imp, false_implies]
  all_goals intros; subst_vars; simp [Instr.slots, Instr.opRest, *]

theorem decVec_encodes : TableEncodes decVec [.va, .vb] 40 := by
  intro op r i hr
  obtain ⟨d, a, b, p, f, m, hm, rfl, fields⟩ := unV_fields (α := Option Instr) hr
  unfold decVec
  split
  all_goals simp only [fields, ite_eq_iff, Option.bind_eq_bind, Option.bind_eq_some_iff, fin?_eq_some, bits?_eq_some, fmtOf?_eq_some hm, dstFmt?_eq_some hm,
    Option.some.injEq, reduceCtorEq, and_false, or_false, forall_exists_index, and_imp, false_implies]
  all_goals intros; subst_vars; simp [Instr.slots, Instr.opRest, *]

theorem decVaOnly_encodes : TableEncodes decVaOnly [.va] 40 := by
  intro op r i hr
  obtain ⟨d, a, b, p, f, m, hm, rfl, fields⟩ := unV_fields (α := Option Instr) hr
  unfold decVaOnly
  split
  all_goals simp only [fields, ite_eq_iff, Option.bind_eq_bind, Option.bind_eq_some_iff, fin?_eq_some, fmtOf?_eq_some hm, Option.some.injEq, reduceCtorEq,
    and_false, or_false, forall_exists_index, and_imp, false_implies]
  all_goals intros; subst_vars; simp [Instr.slots, Instr.opRest, *] <;> simp only [packV] <;> omega

theorem decMat_encodes : TableEncodes decMat [.mat] 40 := by
  intro op r i hr
  obtain ⟨d, a, b, p, f, m, hm, rfl, fields⟩ := unV_fields (α := Option Instr) hr
  unfold decMat
  split
  all_goals simp only [fields, ite_eq_iff, Option.bind_eq_bind, Option.bind_eq_some_iff, fin?_eq_some, Option.some.injEq, reduceCtorEq, and_false, or_false,
    forall_exists_index, and_imp, false_implies]
  all_goals intros; subst_vars; simp [Instr.slots, Instr.opRest, *]

theorem decMem_encodes : TableEncodes decMem [.mem] 40 := by
  intro op r i hr
  obtain ⟨d, a, b, p, f, m, hm, rfl, fields⟩ := unV_fields (α := Option Instr) hr
  unfold decMem
  split
  all_goals simp only [fields, ite_eq_iff, Option.bind_eq_bind, Option.bind_eq_some_iff, fin?_eq_some, bits?_eq_some, bit?_eq_some, Option.some.injEq,
    reduceCtorEq, and_false, or_false, or_imp, forall_exists_index, and_imp, false_implies]
  case' h_21 => refine ⟨?_, ?_⟩
  all_goals intros; subst_vars; simp [Instr.slots, Instr.opRest, *] <;> simp only [packV] <;> omega


/-! ### What the slots accept, the tables decode -/

theorem number_lt (r : SysReg) : r.number < 4096 := by
  cases r with
  | epolicyV k => have := k.isLt; simp only [SysReg.number]; omega
  | _ => decide

theorem fField_lt (g : FmtSel) : g.fField < 8 := by
  cases g with
  | column c => exact c.isLt
  | code c => exact Nat.zero_lt_succ _

theorem mField_lt (g : FmtSel) : g.mField < 512 := by
  cases g with
  | column c => exact Nat.zero_lt_succ _
  | code c => have := c.isLt; simp only [FmtSel.mField]; omega

theorem dstField_lt (g : FmtSel) : g.dstField < 512 := by
  cases g with
  | column c => have := c.isLt; simp only [FmtSel.dstField]; omega
  | code c => have := c.isLt; simp only [FmtSel.dstField]; omega

@[simp] theorem fmtOf?_fields (g : FmtSel) : fmtOf? g.fField g.mField = some g := (fmtOf?_eq_some (mField_lt g)).2 ⟨rfl, rfl⟩

@[simp] theorem dstFmt?_dstField (g : FmtSel) : dstFmt? g.dstField = some g := (dstFmt?_eq_some (dstField_lt g)).2 rfl

section Forms
variable {α : Type} {d a b p f : Nat}

theorem unRI_packNumber (k : Nat → Nat → Nat → α) (hd : d < 64) (ha : a < 64) (r : SysReg) : unRI (packRI d a r.number) k = k d a r.number :=
  unRI_pack k hd ha (number_lt r)

theorem unV_packFmt (k : Nat → Nat → Nat → Nat → Nat → Nat → α) (hd : d < 256) (ha : a < 256) (hb : b < 256) (hp : p < 16) (g : FmtSel) :
    unV (packV d a b p g.fField g.mField) k = k d a b p g.fField g.mField :=
  unV_pack k hd ha hb hp (fField_lt g) (mField_lt g)

theorem unV_packDst (k : Nat → Nat → Nat → Nat → Nat → Nat → α) (hd : d < 256) (ha : a < 256) (hb : b < 256) (hp : p < 16) (hf : f < 8) (g : FmtSel) :
    unV (packV d a b p f g.dstField) k = k d a b p f g.dstField :=
  unV_pack k hd ha hb hp hf (dstField_lt g)

end Forms

theorem decAlu_eq_none {op r : Nat} (h : op = 0 ∨ 0x28 < op ∧ op < 0x53 ∨ 0x54 < op) : decAlu op r = none := by
  unfold decAlu
  split
  all_goals simp at h ⊢

theorem decVec_eq_none {op r : Nat} (h : 0x4E < op) : decVec op r = none := by
  unfold decVec
  split
  all_goals simp at h ⊢

/-- An instruction that just these slots accept is decoded in each of them from its opcode and operand bits. The list of slots is given by its first slot
and the others; `.vb`, the first slot of no instruction, stands for that of an event. -/
def SlotsDecode (first : Slot) (others : List Slot) : Prop :=
  ∀ i : Instr, i.slots.headD .vb = first → i.slots.tail = others → ∀ t ∈ first :: others, decFields t i.opRest.1 i.opRest.2 = some i

theorem ctl_decodes : SlotsDecode .ctl [] := by
  intro i first others
  cases i
  any_goals contradiction
  all_goals simp only [Instr.opRest, decFields, List.forall_mem_cons]
  all_goals rw [decCtl]
  all_goals simp (disch := omega) [unR3_pack, unJ_pack, unL_pack, unRI_pack]

theorem alu_decodes : SlotsDecode .sca [.adr] := by
  intro i first others
  cases i
  any_goals contradiction
  all_goals simp only [Instr.opRest, decFields, List.forall_mem_cons]
  all_goals rw [decAlu]
  all_goals simp (disch := omega) [unR3_pack, unRI_pack, unI18_pack, unK_pack]

theorem sca_decodes : SlotsDecode .sca [] := by
  intro i first others
  cases i
  any_goals contradiction
  all_goals simp only [Instr.opRest, decFields, List.forall_mem_cons]
  all_goals rw [decAlu_eq_none (by decide), decScaOnly]
  all_goals simp (disch := omega) [unR3_pack, unRI_pack, unRI_packNumber]

theorem adr_decodes : SlotsDecode .adr [] := by
  intro i first others
  cases i
  any_goals contradiction
  all_goals simp only [Instr.opRest, decFields, List.forall_mem_cons]
  all_goals rw [decAlu_eq_none (by decide), decAdrOnly]
  all_goals simp (disch := omega) [unR3_pack]

/-- The vector opcodes below 0x2B, and those from it on. -/
theorem decVec_opRest_of_lt {i : Instr} (first : i.slots.headD .vb = .va) (others : i.slots.tail = [.vb]) (lt : i.opRest.1 < 0x2B)
    : decVec i.opRest.1 i.opRest.2 = some i := by
  cases i
  any_goals contradiction
  all_goals simp only [Instr.opRest, Nat.reduceLT] at lt ⊢
  all_goals rw [decVec]
  all_goals simp (disch := omega) [unV_pack, unV_packFmt, unV_packDst]

theorem decVec_opRest_of_ge {i : Instr} (first : i.slots.headD .vb = .va) (others : i.slots.tail = [.vb]) (ge : 0x2B ≤ i.opRest.1)
    : decVec i.opRest.1 i.opRest.2 = some i := by
  cases i
  any_goals contradiction
  all_goals simp only [Instr.opRest, Nat.reduceLeDiff] at ge ⊢
  all_goals rw [decVec]
  all_goals simp (disch := omega) [unV_pack, unV_packFmt]

theorem vec_decodes : SlotsDecode .va [.vb] := by
  intro i first others
  have decodes : decVec i.opRest.1 i.opRest.2 = some i := (Nat.lt_or_ge _ _).elim (decVec_opRest_of_lt first others) (decVec_opRest_of_ge first others)
  simp [decFields, decodes]

theorem va_decodes : SlotsDecode .va [] := by
  intro i first others
  cases i
  any_goals contradiction
  all_goals simp only [Instr.opRest, decFields, List.forall_mem_cons]
  all_goals rw [decVec_eq_none (by decide), decVaOnly]
  all_goals simp (disch := omega) [unV_pack, unV_packFmt, Nat.mod_eq_of_lt, Nat.div_eq_of_lt, Nat.add_mul_div_left]

theorem mat_decodes : SlotsDecode .mat [] := by
  intro i first others
  cases i
  any_goals contradiction
  all_goals simp only [Instr.opRest, decFields, List.forall_mem_cons]
  all_goals rw [decMat]
  all_goals simp (disch := omega) [unV_pack]

theorem mem_decodes : SlotsDecode .mem [] := by
  intro i first others
  cases i
  any_goals contradiction
  case' tlbi a all => cases all
  all_goals simp only [Instr.opRest, decFields, List.forall_mem_cons]
  all_goals rw [decMem]
  all_goals simp (disch := omega) [unV_pack, Nat.mod_eq_of_lt, Nat.div_eq_of_lt, Nat.add_mul_div_left, bit?]

theorem com_decodes : SlotsDecode .com [] := by
  intro i first others
  cases i
  any_goals contradiction
  all_goals simp only [Instr.opRest, decFields, List.forall_mem_cons]
  all_goals rw [decCom]
  all_goals simp (disch := omega) [unR3_pack, unCH_pack]

/-! ### Size of the operand bits -/

/-- Operand bits of a slot word (R86, R87). -/
def restBits (t : Slot) : Nat := if t.isWide then 40 else 24

section Sizes
variable {d a b x p f m : Nat}

theorem packR3_lt (hd : d < 64) (ha : a < 64) (hb : b < 64) (hx : x < 64) : packR3 d a b x < 16777216 := by unfold packR3; omega
theorem packRI_lt (hd : d < 64) (ha : a < 64) (hx : x < 4096) : packRI d a x < 16777216 := by unfold packRI; omega
theorem packI18_lt (hd : d < 64) (hx : x < 262144) : packI18 d x < 16777216 := by unfold packI18; omega
theorem packJ_lt (hd : d < 4) (hx : x < 4194304) : packJ d x < 16777216 := by unfold packJ; omega
theorem packL_lt (hd : d < 4) (ha : a < 1024) (hx : x < 4096) : packL d a x < 16777216 := by unfold packL; omega
theorem packK_lt (hd : d < 64) (ha : a < 4) (hx : x < 65536) : packK d a x < 16777216 := by unfold packK; omega
theorem packCH_lt (hd : d < 64) (ha : a < 256) (hx : x < 1024) : packCH d a x < 16777216 := by unfold packCH; omega
theorem packV_lt (hd : d < 256) (ha : a < 256) (hb : b < 256) (hp : p < 16) (hf : f < 8) (hm : m < 512) : packV d a b p f m < 1099511627776 := by
  unfold packV; omega

theorem packRI_number_lt (hd : d < 64) (ha : a < 64) (r : SysReg) : packRI d a r.number < 16777216 := packRI_lt hd ha (number_lt r)
theorem packV_fmt_lt (hd : d < 256) (ha : a < 256) (hb : b < 256) (hp : p < 16) (g : FmtSel) : packV d a b p g.fField g.mField < 1099511627776 :=
  packV_lt hd ha hb hp (fField_lt g) (mField_lt g)
theorem packV_dst_lt (hd : d < 256) (ha : a < 256) (hb : b < 256) (hp : p < 16) (hf : f < 8) (g : FmtSel) :
    packV d a b p f g.dstField < 1099511627776 := packV_lt hd ha hb hp hf (dstField_lt g)

end Sizes

theorem opRest_lt (i : Instr) : ∀ t ∈ i.slots, i.opRest.1 < 128 ∧ i.opRest.2 < 2 ^ restBits t := by
  cases i
  case' tlbi a all => cases all
  all_goals simp only [Instr.slots, Instr.opRest, restBits, Slot.isWide, List.forall_mem_cons, List.not_mem_nil, false_implies, implies_true, and_true,
    if_true, if_false, Bool.false_eq_true, Nat.reduceLT, true_and, Bool.toNat_false, Bool.toNat_true]
  all_goals simp (disch := omega) only [packR3_lt, packRI_lt, packI18_lt, packJ_lt, packL_lt, packK_lt, packCH_lt, packV_lt, packRI_number_lt, packV_fmt_lt,
    packV_dst_lt, and_self, Nat.reducePow, Nat.reduceLT]

end Sys2Proof.Proofs

namespace Sys2Proof.Proofs
open Sys2Proof Sys2Proof.Machine Sys2Proof.Safety Sys2Proof.Laws

/-! ### Slot words -/

theorem decFields_opRest (i : Instr) : ∀ t ∈ i.slots, decFields t i.opRest.1 i.opRest.2 = some i := by
  have slots : i.slots = [] ∨ i.slots = [.ctl] ∨ i.slots = [.sca, .adr] ∨ i.slots = [.sca] ∨ i.slots = [.adr] ∨ i.slots = [.va, .vb] ∨ i.slots = [.va] ∨
      i.slots = [.mat] ∨ i.slots = [.mem] ∨ i.slots = [.com] := by
    cases i <;> simp [Instr.slots]
  rcases slots with h | h | h | h | h | h | h | h | h | h <;> rw [h]
  · simp
  · exact ctl_decodes i (by rw [h]; rfl) (by rw [h]; rfl)
  · exact alu_decodes i (by rw [h]; rfl) (by rw [h]; rfl)
  · exact sca_decodes i (by rw [h]; rfl) (by rw [h]; rfl)
  · exact adr_decodes i (by rw [h]; rfl) (by rw [h]; rfl)
  · exact vec_decodes i (by rw [h]; rfl) (by rw [h]; rfl)
  · exact va_decodes i (by rw [h]; rfl) (by rw [h]; rfl)
  · exact mat_decodes i (by rw [h]; rfl) (by rw [h]; rfl)
  · exact mem_decodes i (by rw [h]; rfl) (by rw [h]; rfl)
  · exact com_decodes i (by rw [h]; rfl) (by rw [h]; rfl)

theorem decFields_encodes {t : Slot} {op r : Nat} {i : Instr} (hr : r < 2 ^ restBits t) (h : decFields t op r = some i) : t ∈ i.slots ∧ i.opRest = (op, r) :=
    by
  have of_table {dec : Nat → Nat → Option Instr} {ts : List Slot} (enc : TableEncodes dec ts (restBits t)) (ht : t ∈ ts) (e : dec op r = some i) :
      t ∈ i.slots ∧ i.opRest = (op, r) := ⟨(enc op r i hr e).1 t ht, (enc op r i hr e).2⟩
  cases t with
  | ctl => exact of_table decCtl_encodes (by simp) h
  | sca => exact (Option.or_eq_some_iff.1 h).elim (of_table decAlu_encodes (by simp)) fun e => of_table decScaOnly_encodes (by simp) e.2
  | adr => exact (Option.or_eq_some_iff.1 h).elim (of_table decAlu_encodes (by simp)) fun e => of_table decAdrOnly_encodes (by simp) e.2
  | va => exact (Option.or_eq_some_iff.1 h).elim (of_table decVec_encodes (by simp)) fun e => of_table decVaOnly_encodes (by simp) e.2
  | vb => exact of_table decVec_encodes (by simp) h
  | mat => exact of_table decMat_encodes (by simp) h
  | mem => exact of_table decMem_encodes (by simp) h
  | com => exact of_table decCom_encodes (by simp) h

theorem bits_of_bytes (t : Slot) : 8 * t.bytes = restBits t + 8 := by
  cases t <;> rfl

theorem encode_eq (x : SlotWord) :
    x.encode = (if x.sync then 2 ^ (restBits x.slot + 7) else 0) + x.op.opRest.1 * 2 ^ restBits x.slot + x.op.opRest.2 := rfl

theorem decodeSlot_eq_some {t : Slot} {w : Nat} {x : SlotWord} : decodeSlot t w = some x ↔
    w < 2 ^ (restBits t + 8) ∧ ∃ i, decFields t (w / 2 ^ restBits t % 128) (w % 2 ^ restBits t) = some i ∧ i.wf = true ∧ ⟨t, 2 ^ (restBits t + 7) ≤ w, i⟩
      = x := by
  have eq : decodeSlot t w = if w < 2 ^ (restBits t + 8) then
      (decFields t (w / 2 ^ restBits t % 128) (w % 2 ^ restBits t)).bind fun i => if i.wf then some ⟨t, 2 ^ (restBits t + 7) ≤ w, i⟩ else none
    else none := by
    unfold restBits
    cases h : decFields t (w / 2 ^ (if t.isWide then 40 else 24) % 128) (w % 2 ^ (if t.isWide then 40 else 24)) <;> simp only [decodeSlot, h] <;> rfl
  simp [eq, Option.bind_eq_some_iff]

section Parts
variable {n w : Nat}

theorem le_iff_le_div (k : Nat) : 2 ^ n * k ≤ w ↔ k ≤ w / 2 ^ n := by
  rw [Nat.mul_comm, Nat.le_div_iff_mul_le (Nat.two_pow_pos n)]

/-- A word of eight bits above `n` is its top bit, the seven bits below it, and the rest. -/
theorem word_eq_parts (hw : w < 2 ^ (n + 8)) : (if decide (2 ^ (n + 7) ≤ w) then 2 ^ (n + 7) else 0) + w / 2 ^ n % 128 * 2 ^ n + w % 2 ^ n = w := by
  have lt : w / 2 ^ n < 256 := Nat.div_lt_of_lt_mul (by rwa [Nat.pow_add] at hw)
  have whole := Nat.div_add_mod w (2 ^ n)
  simp only [Nat.pow_add, Nat.reducePow, le_iff_le_div, decide_eq_true_eq]
  split
  · next h =>
    rw [show w / 2 ^ n = 128 + w / 2 ^ n % 128 by omega, Nat.mul_add] at whole
    rw [Nat.mul_comm (_ % 128)]; omega
  · next h => rw [Nat.mod_eq_of_lt (by omega), Nat.mul_comm (w / 2 ^ n)]; omega

/-- The parts of a word put together. -/
theorem parts_of_word {op r : Nat} (sync : Bool) (hop : op < 128) (hr : r < 2 ^ n) (hw : w = (if sync then 2 ^ (n + 7) else 0) + op * 2 ^ n + r) :
    w < 2 ^ (n + 8) ∧ w / 2 ^ n % 128 = op ∧ w % 2 ^ n = r ∧ decide (2 ^ (n + 7) ≤ w) = sync := by
  have whole : w = r + 2 ^ n * (128 * sync.toNat + op) := by
    cases sync <;> simp only [hw, Nat.pow_add, Nat.mul_add, Bool.toNat, cond, if_true, if_false, Bool.false_eq_true] <;> rw [Nat.mul_comm op] <;> omega
  have high : w / 2 ^ n = 128 * sync.toNat + op := by
    rw [whole, Nat.add_mul_div_left _ _ (Nat.two_pow_pos n), Nat.div_eq_of_lt hr, Nat.zero_add]
  have bit : sync.toNat < 2 := Bool.toNat_lt sync
  refine ⟨?_, by omega, by rw [whole, Nat.add_mul_mod_self_left, Nat.mod_eq_of_lt hr], ?_⟩
  · rw [Nat.pow_add, ← Nat.not_le, le_iff_le_div]; omega
  · simp only [Nat.pow_add, le_iff_le_div, high]
    cases sync <;> simp; omega

end Parts

theorem encode_lt_and_decodeSlot_encode {x : SlotWord} (h : x.wf = true) : x.encode < 2 ^ (8 * x.slot.bytes) ∧ decodeSlot x.slot x.encode = some x := by
  obtain ⟨hs, hw⟩ : x.slot ∈ x.op.slots ∧ x.op.wf = true := by simpa [SlotWord.wf] using h
  obtain ⟨hop, hr⟩ := opRest_lt x.op x.slot hs
  obtain ⟨lt, op, rest, sync⟩ := parts_of_word x.sync hop hr (encode_eq x)
  refine ⟨by rwa [bits_of_bytes], decodeSlot_eq_some.2 ⟨lt, x.op, ?_, hw, ?_⟩⟩
  · rw [op, rest, decFields_opRest x.op x.slot hs]
  · rw [sync]

theorem encode_of_decodeSlot {t : Slot} {w : Nat} {x : SlotWord} (h : decodeSlot t w = some x) : x.slot = t ∧ x.wf = true ∧ x.encode = w := by
  obtain ⟨lt, i, dec, wf, rfl⟩ := decodeSlot_eq_some.1 h
  obtain ⟨hs, hop⟩ := decFields_encodes (Nat.mod_lt _ (Nat.two_pow_pos _)) dec
  refine ⟨rfl, by simp [SlotWord.wf, hs, wf], ?_⟩
  rw [encode_eq, hop]
  exact word_eq_parts lt

/-! ### Bundles (R83) -/

theorem leBytes_length (k w : Nat) : (leBytes k w).length = k := by
  induction k generalizing w with
  | zero => rfl
  | succ k ih => simp [leBytes, ih]

theorem leNat_leBytes {k w : Nat} (h : w < 256 ^ k) : leNat (leBytes k w) = w := by
  induction k generalizing w with
  | zero => simp [leBytes, leNat]; omega
  | succ k ih =>
    rw [leBytes, leNat, ih (Nat.div_lt_of_lt_mul (by rwa [Nat.mul_comm, ← Nat.pow_succ])), BitVec.toNat_ofNat]
    omega

theorem slot_bit_inj : Function.Injective Slot.bit := by
  have left : Function.LeftInverse (fun n => Slot.all.getD n .ctl) Slot.bit := fun t => by cases t <;> rfl
  exact left.injective

theorem mem_slot_all (t : Slot) : t ∈ Slot.all := by cases t <;> decide

/-- The header of a bundle has just the bits of its slots. -/
theorem bundleHeader_getLsbD {ws : List SlotWord} (h : (ws.map fun x => x.slot.bit).Pairwise (· < ·)) (t : Slot) :
    (bundleHeader ws).getLsbD t.bit = true ↔ t ∈ ws.map SlotWord.slot := by
  have bits : (ws.map fun x => 2 ^ x.slot.bit) = (ws.map fun x => x.slot.bit).map (2 ^ ·) := by simp
  have lt : t.bit < 8 := by cases t <;> decide
  rw [bundleHeader, BitVec.getLsbD_ofNat, bits, Bool.and_eq_true, ← Nat.mem_bitIndices, Nat.bitIndices_sum_map_two_pow h.sortedLT]
  simp [lt, slot_bit_inj.eq_iff]

theorem headerSlots_bundleHeader {ws : List SlotWord} (h : (ws.map fun x => x.slot.bit).Pairwise (· < ·)) :
    headerSlots (bundleHeader ws) = ws.map SlotWord.slot := by
  refine (List.map_injective_iff.2 slot_bit_inj) (List.Pairwise.eq_of_mem_iff (r := (· < ·)) ?_ (by simpa [Function.comp_def] using h) fun b => ?_)
  · rw [List.pairwise_map]
    exact List.Pairwise.filter _ (by decide)
  · simp only [headerSlots, List.mem_map, List.mem_filter, bundleHeader_getLsbD h, mem_slot_all, true_and]

theorem slotWords_encoded {ws : List SlotWord} (h : ∀ x ∈ ws, x.wf = true) :
    slotWords (ws.map SlotWord.slot) (ws.map fun x => leBytes x.slot.bytes x.encode).flatten = ws.map fun x => (x.slot, x.encode) := by
  induction ws with
  | nil => rfl
  | cons x ws ih =>
    have len := leBytes_length x.slot.bytes x.encode
    have lt : x.encode < 256 ^ x.slot.bytes := by
      have := (encode_lt_and_decodeSlot_encode (h x (by simp))).1
      rwa [Nat.pow_mul] at this
    simp only [List.map_cons, List.flatten_cons, slotWords, List.take_left' len, List.drop_left' len, leNat_leBytes lt,
      ih fun y hy => h y (List.mem_cons_of_mem x hy)]

/-- Settles O56: each table decodes what its slots accept,
    and what it decodes has its opcode and bits; the bytes of a bundle are cut where they were joined. -/
theorem decodeAndEncodeAgree : Obligations.DecodeAndEncodeAgree := by
  unfold Obligations.DecodeAndEncodeAgree
  refine ⟨fun _ => encode_lt_and_decodeSlot_encode, fun _ _ _ => encode_of_decodeSlot, fun ws wf asc => ⟨?_, ?_⟩⟩
  · simp [encodeBundle, bundleLength, headerSlots_bundleHeader asc, leBytes_length, Nat.add_comm, Function.comp_def]
  · rw [headerSlots_bundleHeader asc, encodeBundle, List.drop_one, List.tail_cons, slotWords_encoded wf]
    simp only [decodeWords, List.map_map]
    exact List.map_congr_left fun x hx => by simp [(encode_lt_and_decodeSlot_encode (wf x hx)).2]

end Sys2Proof.Proofs

namespace Sys2Proof.Proofs
open Sys2Proof Sys2Proof.Machine Sys2Proof.Safety Sys2Proof.Laws

/-! ### Words written out, and the NOPs -/

/-- Settles O57: each word but two is the encoding of a well-formed slot word, which is read back from it; the two have an opcode that no row of their table has. -/
theorem wordsDecode : Obligations.WordsDecode := by
  unfold Obligations.WordsDecode
  have reads {t : Slot} {sync : Bool} {i : Instr} {w : Nat} (wf : SlotWord.wf ⟨t, sync, i⟩ = true) (is : SlotWord.encode ⟨t, sync, i⟩ = w) :
      decodeSlot t w = some ⟨t, sync, i⟩ := is ▸ (encode_lt_and_decodeSlot_encode wf).2
  exact ⟨reads rfl rfl, reads rfl rfl, reads rfl rfl, reads rfl rfl, reads rfl rfl, reads rfl rfl, reads rfl rfl, rfl, reads rfl rfl, reads rfl rfl,
    reads rfl rfl, rfl⟩

/-- Settles O8. -/
theorem nopsChangeNothing : Obligations.NopsChangeNothing := by
  unfold Obligations.NopsChangeNothing
  exact fun s => ⟨rfl, rfl, rfl, rfl, rfl, rfl, rfl⟩

end Sys2Proof.Proofs

namespace Sys2Proof.Proofs
open Sys2Proof Sys2Proof.Machine Sys2Proof.Safety Sys2Proof.Laws

/-! ### XFER (R126) -/

theorem xferOf_toNat (target : Offset) (left : Nat) (taken : Bool) :
    (xferOf target left taken).toNat = target.toNat + left % 4 * 2 ^ 24 + taken.toNat * 2 ^ 26 := by
  have := target.isLt
  have := Bool.toNat_lt taken
  rw [xferOf, BitVec.toNat_ofNat, Nat.mod_eq_of_lt (by omega)]

theorem xferLeft_xferOf (target : Offset) (left : Nat) (taken : Bool) : xferLeft (xferOf target left taken) = left % 4 := by
  have := target.isLt
  rw [xferLeft, xferOf_toNat, nbits]
  omega

theorem xferTarget_xferOf (target : Offset) (left : Nat) (taken : Bool) : xferTarget (xferOf target left taken) = target := by
  have := target.isLt
  apply BitVec.eq_of_toNat_eq
  rw [xferTarget, BitVec.toNat_setWidth, xferOf_toNat]
  omega

theorem xferTaken_xferOf (target : Offset) (left : Nat) (taken : Bool) : xferTaken (xferOf target left taken) = taken := by
  have := target.isLt
  rw [xferTaken, BitVec.getLsbD, xferOf_toNat, Nat.testBit_eq_decide_div_mod_eq]
  cases taken <;> simp <;> omega

/-! ### Transfers (R122, R123) -/

/-- The transfer of a context: where it goes, and whether it is taken. -/
def startXfer (s : State) (o : Offset) (taken : Bool) : State := s.own fun x => { x with xfer := xferOf o 2 taken }

theorem transfer_taken (s : State) (o : Offset) : s.transfer true o = startXfer s o true := rfl

theorem transfer_untaken (s : State) (o : Offset) : s.transfer false o = s.afterDelay fun o u => startXfer u o false := rfl

/-- After the two delay bundles, when all their code is in frames and the context has not come there in sequence. -/
theorem afterDelay_of_found {s : State} {d2 o : Offset} (seq : s.me.seq = false) (first : s.nextSeq s.issue.key s.me.pc = .found d2)
    (second : s.nextSeq s.issue.key d2 = .found o) (f : Offset → State → State) : s.afterDelay f = f o s := by
  simp [State.afterDelay, seq, first, second]

section Ready
variable {s : State} {c : Fin 8} {a : Fin 64} (t : Fin 4)

theorem prep_of_ready (off : BitVec 22) (h : Ready s [] []) : exec (.prep t off) s = .next (s.own fun x => x.setBt t (s.issue.pc + off.signExtend 24)) :=
  congrArg Host.Outcome.next (slot_of_ready h _)

theorem preps_of_ready (h : Ready s [.s a] []) : exec (.preps t a) s = .next (s.own fun x => x.setBt t ((srcS s a).setWidth 24)) :=
  congrArg Host.Outcome.next (slot_of_ready h _)

theorem jmp_of_ready (h : Ready s [] []) : exec (.jmp t) s = .next (startXfer s (s.issue.src.bt[t]) true) := congrArg Host.Outcome.next (slot_of_ready h _)

theorem ret_of_ready (h : Ready s [.s 63] []) : exec .ret s = .next (startXfer s ((srcS s 63).setWidth 24) true) :=
  congrArg Host.Outcome.next (slot_of_ready h _)

theorem br_of_ready (h : Ready s [.c c] []) : exec (.br c t) s = .next (s.transfer (srcC s c) (s.issue.src.bt[t])) :=
  congrArg Host.Outcome.next (slot_of_ready h _)

theorem brn_of_ready (h : Ready s [.c c] []) : exec (.brn c t) s = .next (s.transfer (!srcC s c) (s.issue.src.bt[t])) :=
  congrArg Host.Outcome.next (slot_of_ready h _)

theorem call_of_ready (h : Ready s [] [.s 63]) :
    exec (.call t) s = .next (s.afterDelay fun o u => putS (startXfer u (s.issue.src.bt[t]) true) 63 (o.setWidth 64)) :=
  congrArg Host.Outcome.next (slot_of_ready h _)

end Ready

/-- Settles O9: each operation is `transfer`, or `afterDelay`, on registers as of its bundle. -/
theorem transferResults : Obligations.TransferResults := by
  unfold Obligations.TransferResults
  intro s t c a off ready target go
  have only {srcs dsts : List Dst} (hs : ∀ r ∈ srcs, r ∈ [.s a, .s 63, .c c]) (hd : ∀ r ∈ dsts, r ∈ [Dst.s 63]) : Ready s srcs dsts :=
    Laws.Ready.mono ready hs hd
  have bare : Ready s [] [] := only (by simp) (by simp)
  have cond : Ready s [.c c] [] := only (by simp) (by simp)
  refine ⟨prep_of_ready t off bare, preps_of_ready t (only (by simp) (by simp)), jmp_of_ready t bare, ret_of_ready (only (by simp) (by simp)),
    fun taken => ?_, fun untaken => ?_, fun d2 o seq first second => ⟨fun untaken => ?_, fun taken => ?_, ?_⟩,
    xferLeft_xferOf _ _ _, xferTarget_xferOf _ _ _, xferTaken_xferOf _ _ _, xferTaken_xferOf _ _ _⟩
  · rw [br_of_ready t cond, taken, transfer_taken]; rfl
  · rw [brn_of_ready t cond, untaken, Bool.not_false, transfer_taken]; rfl
  · rw [br_of_ready t cond, untaken, transfer_untaken, afterDelay_of_found seq first second]; rfl
  · rw [brn_of_ready t cond, taken, Bool.not_true, transfer_untaken, afterDelay_of_found seq first second]; rfl
  · rw [call_of_ready t (only (by simp) (by simp)), afterDelay_of_found seq first second]; rfl

end Sys2Proof.Proofs

namespace Sys2Proof.Proofs
open Sys2Proof Sys2Proof.Machine Sys2Proof.Safety Sys2Proof.Laws

/-! ### Code that a context fetches (R77, R84) -/

/-- Two states hold the same code for a context: the same frames and images, and the same image run. -/
structure SameCode (s u : State) (key : Nat) : Prop where
  cores : u.cores = s.cores
  images : u.images = s.images
  part : (u.ctx key).part = (s.ctx key).part
  image : (u.ctx key).image = (s.ctx key).image

theorem SameCode.codeByte {s u : State} {key : Nat} (h : SameCode s u key) (o : Offset) : u.codeByte key o = s.codeByte key o := by
  simp only [State.codeByte, State.core, h.cores, h.part, h.image]

theorem SameCode.inImage {s u : State} {key : Nat} (h : SameCode s u key) (o : Nat) :
    u.inImage (u.ctx key).part.toNat (u.ctx key).image o = s.inImage (s.ctx key).part.toNat (s.ctx key).image o := by
  simp only [State.inImage, h.images, h.part, h.image]

theorem SameCode.skipPad {s u : State} {key : Nat} (h : SameCode s u key) (n : Nat) (o : Offset) : u.skipPad key o n = s.skipPad key o n := by
  induction n generalizing o with
  | zero => rfl
  | succ n ih => simp only [State.skipPad, h.codeByte, h.inImage, ih]

theorem SameCode.nextSeqLen {s u : State} {key : Nat} (h : SameCode s u key) (o : Offset) (len : Nat) : u.nextSeqLen key o len = s.nextSeqLen key o len :=
  h.skipPad _ _

/-- A change of a context that leaves its partition and image leaves its code. -/
theorem sameCode_modCtx (s : State) (key : Nat) {f : Ctx → Ctx} (part : ∀ c, (f c).part = c.part) (image : ∀ c, (f c).image = c.image) :
    SameCode s (s.modCtx key f) key :=
  ⟨rfl, rfl, by rw [ctx_modCtx_same, part], by rw [ctx_modCtx_same, image]⟩

/-! ### Hardware loops (R128 to R133) -/

/-- Loop `l` of the bundle's context armed: its count, first and last offset (R129). -/
def armedLoop (s : State) (l : Fin 4) (beg lend : Offset) (k : BitVec 32) : State := s.own fun x => { x with lc := x.lc.set l ⟨k, beg, lend, 0⟩ }

/-- A count queue with its oldest entry popped. -/
def poppedCount (s : State) (q : Fin 4) (t : List (BitVec 32)) : State := s.own fun x => { x with cq := x.cq.set q t }

theorem sameCode_armedLoop (s : State) (l : Fin 4) (beg lend : Offset) (k : BitVec 32) : SameCode s (armedLoop s l beg lend k) s.issue.key :=
  sameCode_modCtx s s.issue.key (f := fun x => { x with lc := x.lc.set l ⟨k, beg, lend, 0⟩ }) (fun _ => rfl) fun _ => rfl

theorem sameCode_poppedCount (s : State) (q : Fin 4) (t : List (BitVec 32)) : SameCode s (poppedCount s q t) s.issue.key :=
  sameCode_modCtx s s.issue.key (f := fun x => { x with cq := x.cq.set q t }) (fun _ => rfl) fun _ => rfl

theorem armLoop_of_count {u : State} {beg : Offset} {k : BitVec 32} (l : Fin 4) (fin : BitVec 12) (next : NextAt u beg) (h : k ≠ 0) :
    u.armLoop l k fin = armedLoop u l beg (u.issue.pc + fin.setWidth 24) k := by
  rw [NextAt] at next
  simp only [State.armLoop, next]
  exact if_pos h

/-- What a loop of count 0 does by the header at LEND (R129), `u` the state that arms it and `r` the state after it. -/
def PassesBody (u : State) (l : Fin 4) (beg lend : Offset) (h : Byte) (r : State) : Prop :=
  (h = 0 → r = (armedLoop u l beg lend 0).trapSlot cBadTarget (lend.setWidth 64) 0) ∧
  ∀ o : Offset, h ≠ 0 → u.nextSeqLen u.issue.key lend (bundleLength h) = .found o →
    r = { armedLoop u l beg lend 0 with issue := { u.issue with skip := some o } }

theorem armLoop_of_zero {u : State} {beg : Offset} {h : Byte} (l : Fin 4) (fin : BitVec 12) (next : NextAt u beg)
    (code : u.codeByte u.issue.key (u.issue.pc + fin.setWidth 24) = some h) :
    PassesBody u l beg (u.issue.pc + fin.setWidth 24) h (u.armLoop l 0 fin) := by
  let lend := u.issue.pc + fin.setWidth 24
  have same := sameCode_armedLoop u l beg lend 0
  have code' : (armedLoop u l beg lend 0).codeByte u.issue.key lend = some h := (same.codeByte lend).trans code
  rw [NextAt] at next
  have eq : u.armLoop l 0 fin = if h = 0 then (armedLoop u l beg lend 0).trapSlot cBadTarget (lend.setWidth 64) 0 else
      match (armedLoop u l beg lend 0).nextSeqLen u.issue.key lend (bundleLength h) with
      | .miss p => (armedLoop u l beg lend 0).waitPage p
      | .found o => { armedLoop u l beg lend 0 with issue := { u.issue with skip := some o } } := by
    simp only [State.armLoop, next]
    change (match (armedLoop u l beg lend 0).codeByte u.issue.key lend with | none => _ | some h => _) = _
    rw [code']
    rfl
  refine ⟨fun z => by rw [eq, if_pos z], fun o nz found => ?_⟩
  rw [eq, if_neg nz, same.nextSeqLen, found]

section Ready
variable {s : State} (l : Fin 4) (fin : BitVec 12)

theorem loop_of_ready {a : Fin 64} (h : Ready s [.s a] []) :
    exec (.loop l a fin) s = .next (s.armLoop l (BitVec.ofNat 32 (Min.min (srcS s a).toNat 0xFFFFFFFF)) fin) :=
  congrArg Host.Outcome.next (slot_of_ready h _)

theorem loopi_of_ready (n : BitVec 10) (h : Ready s [] []) : exec (.loopi l n fin) s = .next (s.armLoop l (n.setWidth 32) fin) :=
  congrArg Host.Outcome.next (slot_of_ready h _)

theorem loopq_of_ready (q : Fin 4) (h : Ready s [] []) : exec (.loopq l q fin) s = .next (s.popCount q fun v s => s.armLoop l v fin) :=
  congrArg Host.Outcome.next (slot_of_ready h _)

theorem lbrk_of_ready (h : Ready s [] []) :
    exec (.lbrk l) s = .next (s.own fun x => if (s.issue.src.lc[l]).cnt = 0 then x else { x with lc := x.lc.set l { x.lc[l] with cnt := 1 } }) :=
  congrArg Host.Outcome.next (slot_of_ready h _)

end Ready

theorem popCount_of_cons {s : State} {q : Fin 4} {m : BitVec 32} {t : List (BitVec 32)} (h : s.me.cq[q] = m :: t) (f : BitVec 32 → State → State) :
    s.popCount q f = f m (poppedCount s q t) := by
  simp only [State.popCount, h]; rfl

theorem popCount_of_nil {s : State} {q : Fin 4} (h : s.me.cq[q] = []) (f : BitVec 32 → State → State) :
    s.popCount q f = s.trapSlot cEmptyRead 0 (BitVec.ofNat 32 (512 + q.val)) := by
  simp only [State.popCount, h]

/-- Settles O10: each operation is `armLoop` on a count; a popped count queue leaves the code that `armLoop` reads. -/
theorem loopResults : Obligations.LoopResults := by
  unfold Obligations.LoopResults
  intro s l q a n fin beg ready next lend armed k
  have bare : Ready s [] [] := Laws.Ready.mono ready (by simp) (by simp)
  have wide (nz : n ≠ 0) : n.setWidth 32 ≠ 0 := by bv_omega
  refine ⟨fun nz => ?_, fun nz => ?_, fun m t count nz => ?_, fun empty => ?_, ?_, fun z => ?_, fun nz => ?_⟩
  · rw [loop_of_ready l fin ready, armLoop_of_count l fin next nz]; rfl
  · rw [loopi_of_ready l fin n bare, armLoop_of_count l fin next (wide nz)]; rfl
  · rw [loopq_of_ready l fin q bare, popCount_of_cons count,
      armLoop_of_count l fin (((sameCode_poppedCount s q t).nextSeqLen _ _).trans next) nz]; rfl
  · rw [loopq_of_ready l fin q bare, popCount_of_nil empty]
  · intro h code passes
    obtain ⟨trap, skip⟩ := armLoop_of_zero l fin next code
    refine ⟨fun z => ?_, fun z => ?_, fun t count => ?_⟩
    · have eq := loop_of_ready l fin ready
      rw [show BitVec.ofNat 32 _ = 0 from z] at eq
      exact ⟨fun hz => eq.trans (congrArg _ (trap hz)), fun o hz found => eq.trans (congrArg _ (skip o hz found))⟩
    · have eq := loopi_of_ready l fin n bare
      rw [show n.setWidth 32 = 0 by rw [z]; rfl] at eq
      exact ⟨fun hz => eq.trans (congrArg _ (trap hz)), fun o hz found => eq.trans (congrArg _ (skip o hz found))⟩
    · have eq := loopq_of_ready l fin q bare
      rw [popCount_of_cons count] at eq
      have same := sameCode_poppedCount s q t
      obtain ⟨trap, skip⟩ := armLoop_of_zero (u := poppedCount s q t) l fin ((same.nextSeqLen _ _).trans next) ((same.codeByte _).trans code)
      exact ⟨fun hz => eq.trans (congrArg _ (trap hz)),
        fun o hz found => eq.trans (congrArg _ (skip o hz ((same.nextSeqLen _ _).trans found)))⟩
  · rw [lbrk_of_ready l bare]; simp only [z, if_true]; rfl
  · rw [lbrk_of_ready l bare]; simp only [nz, if_false]

end Sys2Proof.Proofs

namespace Sys2Proof.Proofs
open Sys2Proof Sys2Proof.Machine Sys2Proof.Safety Sys2Proof.Laws

/-! ### Code pages (R77 to R82) -/

theorem readBytes_setCtx (s : State) (k : Nat) (c : Ctx) (q part n a : Nat) : (s.setCtx k c).readBytes q part a n = s.readBytes q part a n := by
  induction n generalizing a with
  | zero => rfl
  | succ n ih =>
    have spot : (s.setCtx k c).spotQ q part a 1 = s.spotQ q part a 1 := rfl
    simp only [State.readBytes, spot, ih, setCtx_mem]

theorem readPage_setCtx (s : State) (k : Nat) (c : Ctx) (part : Nat) (image : BitVec 8) (page : Nat) :
    (s.setCtx k c).readPage part image page = s.readPage part image page := by
  simp only [State.readPage, readBytes_setCtx, setCtx_images]

theorem setCtx_setCtx (s : State) (k : Nat) (c d : Ctx) : (s.setCtx k c).setCtx k d = s.setCtx k d := by
  simp [State.setCtx, tset, List.filter_filter]

section Fault
variable {s : State} {core : Fin 128} {ctx : Fin 8}

/-- The key of a context, by its core and number. -/
def keyOf (core : Fin 128) (ctx : Fin 8) : Nat := core.val * 8 + ctx.val

theorem coreOf_keyOf (core : Fin 128) (ctx : Fin 8) : coreOf (keyOf core ctx) = core.val := by
  unfold coreOf keyOf; omega

/-- A fetch fault of a context that is ready, by what its page reads as. -/
theorem fetchFault_of_miss (life : (s.ctx (keyOf core ctx)).life = .running) (wait : (s.ctx (keyOf core ctx)).wait = .none)
    (code : s.codeByte (keyOf core ctx) (s.fetchAt (keyOf core ctx)) = none) :
    let key := keyOf core ctx
    let c := s.ctx key
    let o := s.fetchAt key
    exec (.fetchFault core ctx) s = .next (match s.readPage c.part.toNat c.image (o.toNat / 4096) with
      | .fail _ _ => (s.setCtx key { c with pc := o }).fetchTrap key o
      | .ok _ | .absent _ | .link => s.setCtx key { c with pc := o, wait := .fetch o }) := by
  intro key c o
  have goes : ¬ (c.life ≠ .running ∨ c.wait ≠ .none ∨ (s.codeByte key o).isSome) := by simp [c, o, key, life, wait, code]
  have moved : (s.setCtx key { c with pc := o }).modCtx key (fun c => { c with wait := .fetch o }) = s.setCtx key { c with pc := o, wait := .fetch o } := by
    rw [State.modCtx, ctx_setCtx_same, setCtx_setCtx]
  have read := readPage_setCtx s key { c with pc := o } c.part.toNat c.image (o.toNat / 4096)
  show Host.Outcome.next (if c.life ≠ .running ∨ c.wait ≠ .none ∨ (s.codeByte key o).isSome then s
    else match (s.setCtx key { c with pc := o }).readPage c.part.toNat c.image (o.toNat / 4096) with
      | .fail _ _ => (s.setCtx key { c with pc := o }).fetchTrap key o
      | .ok _ | .absent _ | .link => (s.setCtx key { c with pc := o }).modCtx key fun c => { c with wait := .fetch o }) = _
  rw [if_neg goes, read, moved]

theorem fetchTrap_of_ready {s : State} {k : Nat} {c : Ctx} (wait : c.wait = .none) (o : Offset) :
    (s.setCtx k c).fetchTrap k o = (s.setCtx k c).takeTrap k cFetch 0 0 c.pc c.pc (o.setWidth 64) 0 := by
  have still : (s.setCtx k c).modCtx k (fun c => { c with wait := .none }) = s.setCtx k c := by
    rw [State.modCtx, ctx_setCtx_same, setCtx_setCtx, ← wait]
  simp only [State.fetchTrap, still, ctx_setCtx_same]

section Miss
variable (life : (s.ctx (keyOf core ctx)).life = .running) (wait : (s.ctx (keyOf core ctx)).wait = .none)
  (code : s.codeByte (keyOf core ctx) (s.fetchAt (keyOf core ctx)) = none)
include life wait code

theorem fetchFault_waits :
    let key := keyOf core ctx
    let c := s.ctx key
    let o := s.fetchAt key
    (∀ x a, s.readPage c.part.toNat c.image (o.toNat / 4096) ≠ .fail x a) →
    exec (.fetchFault core ctx) s = .next (s.setCtx key { c with pc := o, wait := .fetch o }) := by
  intro key c o reads
  rw [fetchFault_of_miss life wait code]
  cases page : s.readPage c.part.toNat c.image (o.toNat / 4096) with
  | fail x a => exact absurd page (reads x a)
  | ok _ | absent _ | link => rfl

theorem fetchFault_traps {x : Cause} {a : Nat} :
    let key := keyOf core ctx
    let c := s.ctx key
    let o := s.fetchAt key
    s.readPage c.part.toNat c.image (o.toNat / 4096) = .fail x a →
    exec (.fetchFault core ctx) s = .next ((s.setCtx key { c with pc := o }).takeTrap key cFetch 0 0 o o (o.setWidth 64) 0) := by
  intro key c o fails
  rw [fetchFault_of_miss life wait code, fails]
  exact congrArg Host.Outcome.next (fetchTrap_of_ready (c := { c with pc := o }) wait o)

end Miss

end Fault

/-! ### Loading a page (R79, R80) -/

/-- The bytes `l` as cells from address `n` up. -/
def cellsFrom (n : Nat) (l : List Word) : List Host.Cell := ((l.zipIdx n).map fun e => (e.2, e.1.setWidth 8)).filter fun e => decide (e.2 ≠ 0)

theorem cellsFrom_cons (n : Nat) (x : Word) (l : List Word) :
    cellsFrom n (x :: l) = if (x.setWidth 8 : Byte) ≠ 0 then (n, x.setWidth 8) :: cellsFrom (n + 1) l else cellsFrom (n + 1) l := by
  simp only [cellsFrom, List.zipIdx_cons, List.map_cons, List.filter_cons, decide_eq_true_eq]

theorem lookupCell_cellsFrom_below (l : List Word) {n k : Nat} (h : k < n) : lookupCell (cellsFrom n l) k = 0 := by
  induction l generalizing n with
  | nil => rfl
  | cons x l ih =>
    have rest := ih (n := n + 1) (by omega)
    rw [cellsFrom_cons]
    split
    · rw [lookupCell, if_neg (by omega), rest]
    · exact rest

theorem lookupCell_cellsFrom (l : List Word) (n j : Nat) : lookupCell (cellsFrom n l) (n + j) = (l.getD j 0).setWidth 8 := by
  induction l generalizing n j with
  | nil => rfl
  | cons x l ih =>
    rw [cellsFrom_cons]
    cases j with
    | zero =>
      split
      · exact if_pos rfl
      · rename_i zero
        rw [lookupCell_cellsFrom_below l (by omega)]
        exact (Decidable.not_not.mp zero).symm
    | succ j =>
      have rest := ih (n + 1) j
      rw [Nat.add_right_comm] at rest
      split
      · rw [lookupCell, if_neg (by omega)]; exact rest
      · exact rest

theorem lookupCell_cellsOf (l : List Word) (j : Nat) : lookupCell (cellsOf l) j = (l.getD j 0).setWidth 8 := by
  have found := lookupCell_cellsFrom l 0 j
  rwa [Nat.zero_add] at found

theorem loadFrame_frames {s : State} {core : Nat} (f : Frame) (room : (s.core core).frames.length < 64) :
    ((s.loadFrame core f).core core).frames =
      ((s.core core).frames.filter fun x => decide (x.part ≠ f.part ∨ x.image ≠ f.image ∨ x.page ≠ f.page)) ++ [f] := by
  have short := Nat.lt_of_le_of_lt (List.length_filter_le (fun x => decide (x.part ≠ f.part ∨ x.image ≠ f.image ∨ x.page ≠ f.page)) _) room
  rw [State.loadFrame, core_modCore_same, if_pos short]

/-- A context that waited resumes (R78). -/
def resumes (c : Ctx) : Ctx := { c with wait := .none, held := false }

/-- Every context of a list resumes. -/
def resumed (s : State) (l : List Nat) : State := l.foldl (fun s k => s.modCtx k resumes) s

theorem resumed_keeps (s : State) (l : List Nat) : (resumed s l).cores = s.cores ∧ (resumed s l).mem = s.mem ∧ (resumed s l).mmio = s.mmio :=
  List.foldlRecOn (motive := fun t : State => t.cores = s.cores ∧ t.mem = s.mem ∧ t.mmio = s.mmio) l _ ⟨rfl, rfl, rfl⟩ fun _ h _ _ => h

theorem resumed_ctx (s : State) (l : List Nat) (k : Nat) : (resumed s l).ctx k = if k ∈ l then resumes (s.ctx k) else s.ctx k := by
  induction l generalizing s with
  | nil => rfl
  | cons j l ih =>
    rw [resumed, List.foldl_cons, ← resumed, ih]
    by_cases here : k = j
    · subst here
      simp only [ctx_modCtx_same, List.mem_cons, true_or, if_true]
      split <;> rfl
    · simp [here]

section Load
variable {s : State} {core : Fin 128} {ctx : Fin 8} {o : Offset} {words : List Word}

/-- The state after a page is loaded for all that wait for it. -/
def pageLoaded (s : State) (core : Fin 128) (c : Ctx) (page : Nat) (words : List Word) : State :=
  resumed ((s.loadFrame core.val ⟨c.part, c.image, page, cellsOf words⟩).count .fetchtune 0 55 24 1) (s.pageWaiters core.val c.part c.image page)

theorem pageLoad_of_ok (life : (s.ctx (keyOf core ctx)).life = .running) (wait : (s.ctx (keyOf core ctx)).wait = .fetch o)
    (read : s.readPage (s.ctx (keyOf core ctx)).part.toNat (s.ctx (keyOf core ctx)).image (o.toNat / 4096) = .ok words) :
    exec (.pageLoad core ctx) s = .next (pageLoaded s core (s.ctx (keyOf core ctx)) (o.toNat / 4096) words) := by
  show execPageLoad core ctx s = _
  unfold execPageLoad
  rw [keyOf] at life wait read
  simp only [life, wait, read]
  rfl

theorem mem_pageWaiters (life : (s.ctx (keyOf core ctx)).life = .running) (wait : (s.ctx (keyOf core ctx)).wait = .fetch o) :
    keyOf core ctx ∈ s.pageWaiters core.val (s.ctx (keyOf core ctx)).part (s.ctx (keyOf core ctx)).image (o.toNat / 4096) := by
  simp [State.pageWaiters, life, wait, pageWait]
  exact ⟨ctx.val, ctx.isLt, rfl⟩

theorem pageLoaded_code (s : State) (core : Fin 128) (k page : Nat) (words : List Word) :
    ((pageLoaded s core (s.ctx k) page words).ctx k).part = (s.ctx k).part ∧ ((pageLoaded s core (s.ctx k) page words).ctx k).image = (s.ctx k).image := by
  rw [pageLoaded, resumed_ctx]
  split <;> exact ⟨rfl, rfl⟩

theorem pageLoaded_wait {k : Nat} {c : Ctx} {page : Nat} (h : k ∈ s.pageWaiters core.val c.part c.image page) :
    ((pageLoaded s core c page words).ctx k).wait = .none := by
  rw [pageLoaded, resumed_ctx, if_pos h]
  rfl

theorem pageLoaded_codeByte (room : (s.core core.val).frames.length < 64) {k page : Nat} {o : Offset} (here : coreOf k = core.val)
    (inPage : o.toNat / 4096 = page) : (pageLoaded s core (s.ctx k) page words).codeByte k o = some ((words.getD (o.toNat % 4096) 0).setWidth 8) := by
  obtain ⟨part, image⟩ := pageLoaded_code s core k page words
  have frames := loadFrame_frames (s := s) ⟨(s.ctx k).part, (s.ctx k).image, page, cellsOf words⟩ room
  have cores : (pageLoaded s core (s.ctx k) page words).core core.val = (s.loadFrame core.val ⟨(s.ctx k).part, (s.ctx k).image, page,
    cellsOf words⟩).core core.val := by
    rw [State.core, pageLoaded, (resumed_keeps _ _).1]; rfl
  simp only [State.codeByte, part, image, here, cores, frames, inPage]
  rw [List.find?_append, List.find?_eq_none.mpr, Option.none_or, List.find?_cons_of_pos]
  · exact congrArg some (lookupCell_cellsOf words _)
  · simp
  · intro x member
    have other := of_decide_eq_true (List.mem_filter.mp member).2
    rw [decide_eq_true_eq]
    rintro ⟨part, image, page⟩
    exact other.elim (· part) (·.elim (· image) (· page))

end Load

/-! ### Results land (R116, R399, R405) -/

@[simp] theorem getElem_setBit {n : Nat} (x : BitVec n) {i : Nat} (b : Bool) (h : i < n) : (setBit x i b)[i] = b := by
  cases b
  · rw [← BitVec.getLsbD_eq_getElem, setBit, if_neg Bool.false_ne_true, BitVec.getLsbD_and, BitVec.getLsbD_not, BitVec.getLsbD_ofNat,
      Nat.testBit_two_pow_self, decide_eq_true h]
    exact Bool.and_false _
  · rw [← BitVec.getLsbD_eq_getElem]
    exact getLsbD_setBit_true x h

/-- Whether a register can hold poison: every scalar but s0, and every vector register (R399). -/
def takesPoison : Dst → Bool
  | .s r => decide (r ≠ 0)
  | .v _ => true
  | .p _ | .c _ | .bt _ | .lc _ _ | .sys _ => false

/-- A register holds a value, as far as it keeps one (R148). -/
def HoldsValue (c : Ctx) (v : VReg) : Dst → Prop
  | .s r => c.getS r = if r = 0 then 0 else v.setWidth 64
  | .v r => c.getV r = v
  | .c r => c.getC r = (decide (r = 0) || v.getLsbD 0)
  | .p _ | .bt _ | .lc _ _ | .sys _ => True

/-- The register `d` of a context holds `v`, full and poisoned or not, with nothing in flight; the context goes on as before. -/
structure Landed (c t : Ctx) (d : Dst) (v : VReg) (poisoned : Bool) : Prop where
  inflight : t.inflight = []
  full : t.emptyReg d = false
  poison : t.poisonedReg d = (poisoned && takesPoison d)
  holds : HoldsValue t v d
  life : t.life = c.life
  wait : t.wait = c.wait

/-- The context with nothing in flight and `v` in the register `d`. -/
def withResult (c : Ctx) (d : Dst) (v : VReg) : Ctx := ({ c with inflight := [] } : Ctx).setDst d v

theorem landed_withResult (c : Ctx) (d : Dst) (v : VReg) : Landed c (withResult c d v) d v false := by
  cases d with
  | s r =>
    by_cases zero : r = 0
    · subst zero
      constructor <;> rfl
    · have set : withResult c (.s r) v = { c with
          inflight := [], s := c.s.set r (v.setWidth 64), sFull := setBit c.sFull r.val true, sPoison := setBit c.sPoison r.val false } := if_neg zero
      rw [set]
      refine ⟨rfl, ?_, ?_, ?_, rfl, rfl⟩
      · simp [Ctx.emptyReg]
      · simp [Ctx.poisonedReg]
      · simp [HoldsValue, Ctx.getS, zero]
  | v r =>
    refine ⟨rfl, ?_, ?_, ?_, rfl, rfl⟩
    · simp [withResult, Ctx.setDst, Ctx.setV, Ctx.emptyReg]
    · simp [withResult, Ctx.setDst, Ctx.setV, Ctx.poisonedReg]
    · simp [HoldsValue, withResult, Ctx.setDst]
  | c r =>
    by_cases zero : r = 0
    · subst zero
      constructor <;> rfl
    · have set : withResult c (.c r) v = { c with inflight := [], c := setBit c.c r.val (v.getLsbD 0) } := if_neg zero
      rw [set]
      refine ⟨rfl, ?_, rfl, ?_, rfl, rfl⟩
      · simp [Ctx.emptyReg]
      · simp [HoldsValue, Ctx.getC, zero]
  | p _ | bt _ | lc _ _ | sys _ => exact ⟨rfl, rfl, rfl, trivial, rfl, rfl⟩

/-- A register poisoned by a row, if it is one that holds poison (R399). -/
def withPoison (c : Ctx) (row : Nat) : Dst → Ctx
  | .s r => { c with sPoison := setBit c.sPoison r.val (decide (r ≠ 0)), poisonRow := BitVec.ofNat 64 row }
  | .v r => { c with vPoison := setBit c.vPoison r.val true, poisonRow := BitVec.ofNat 64 row }
  | .p _ | .c _ | .bt _ | .lc _ _ | .sys _ => c

theorem Landed.withPoison {c t : Ctx} {d : Dst} {v : VReg} (h : Landed c t d v false) (row : Nat) : Landed c (withPoison t row d) d v true := by
  obtain ⟨inflight, full, -, holds, life, wait⟩ := h
  cases d with
  | s r => exact ⟨inflight, full, by simp [Proofs.withPoison, Ctx.poisonedReg, takesPoison], holds, life, wait⟩
  | v r => exact ⟨inflight, full, by simp [Proofs.withPoison, Ctx.poisonedReg, takesPoison], holds, life, wait⟩
  | p _ | c _ | bt _ | lc _ _ | sys _ => exact ⟨inflight, full, rfl, holds, life, wait⟩

/-- The only result of a context, landed. -/
theorem landed_single {c : Ctx} {l : Landing} {v : VReg} (only : c.inflight = [l]) (value : l.value = some v) :
    Landed c (c.land l) l.dst v l.poison.isSome := by
  have none : ([l] : List Landing).filter (fun x => decide (x ≠ l)) = [] := by simp
  have land : c.land l = { (match l.poison with
      | .none => withResult c l.dst v
      | some row => withPoison (withResult c l.dst v) row l.dst : Ctx) with held := false } := by
    simp only [Ctx.land, value, only, none, Ctx.replay]
    cases l.poison <;> cases l.dst <;> rfl
  have clean := landed_withResult c l.dst v
  rw [land]
  cases l.poison with
  | none => exact ⟨clean.1, clean.2, clean.3, clean.4, clean.5, clean.6⟩
  | some row =>
    have poisoned := clean.withPoison row
    exact ⟨poisoned.1, poisoned.2, poisoned.3, poisoned.4, poisoned.5, poisoned.6⟩

theorem quiet_modCtx {s : State} (quiet : Quiet s) {k : Nat} {f : Ctx → Ctx} (life : (f (s.ctx k)).life = (s.ctx k).life)
    (wait : (f (s.ctx k)).wait = (s.ctx k).wait) : Quiet (s.modCtx k f) := by
  intro j
  by_cases here : j = k
  · subst here
    rw [ctx_modCtx_same, life, wait]
    exact quiet j
  · rw [ctx_modCtx_ne s f here]
    exact quiet j

section Land
variable {s : State} {k : Nat} {l : Landing} {v : VReg} (only : (s.ctx k).inflight = [l])
include only

theorem landOne_of_due {want : Landing → Bool} (quiet : Quiet s) (value : l.value = some v) (life : (s.ctx k).life = .running)
    (comes : (s.ctx k).comes l = true) (wanted : want l = true) (due : l.due ≤ s.now) : s.landOne k want = s.modCtx k fun c => c.land l := by
  have landed := landed_single only value
  have still := settle_of_quiet (quiet_modCtx quiet (f := fun c => c.land l) landed.life landed.wait)
  simp [State.landOne, only, value, life, comes, wanted, due, still]

theorem landOne_of_early (want : Landing → Bool) (early : s.now < l.due) : s.landOne k want = s := by
  have none := Nat.not_le.mpr early
  simp [State.landOne, only, none]

end Land

/-! ### Parked accesses (R293, R426) -/

theorem parkResume_of_parked {s : State} {p : Parked} (parked : s.parked.find? (fun x => decide (x.id = p.id)) = some p) :
    exec (.parkResume p.id) s = .next (if s.parkReady p then ((s.unpark p.id).resume p.work).settle else s) := by
  show execParkResume p.id s = _
  rw [execParkResume, parked]

theorem hostAccessTimeout_of_parked {s : State} {p : Parked} (parked : s.parked.find? (fun x => decide (x.id = p.id)) = some p) :
    exec (.hostAccessTimeout p.id) s = .next (if p.link && !s.linkUp && s.forHost p && decide (p.since + 22500000 ≤ s.now)
      then ((s.unpark p.id).linkTimeout p).settle else s) := by
  show execHostAccessTimeout p.id s = _
  rw [execHostAccessTimeout, parked]

theorem id_ne_of_mem_unpark {s : State} {id : Nat} {x : Parked} (h : x ∈ (s.unpark id).parked) : x.id ≠ id :=
  of_decide_eq_true (List.mem_filter.mp h).2

theorem unpark_resumeCopy_copies {s : State} {q i id : Nat} {y : CopyCmd} (h : y ∈ (((s.unpark id).resumeCopy q i).quad q).copies) (e : y.id = i) :
    y.parked = none := by
  rw [State.resumeCopy, quad_modQuad_same] at h
  obtain ⟨c, -, rfl⟩ := List.mem_map.mp h
  split at e
  · rename_i same
    rw [if_pos same]
  · contradiction

/-! ### What a report parks (R293, R409) -/

/-- Every access that parks has a number not used before. -/
structure ParksFresh (s t : State) : Prop where
  nextId : s.nextId ≤ t.nextId
  parked : ∀ x ∈ t.parked, x ∈ s.parked ∨ s.nextId ≤ x.id

theorem ParksFresh.of_same {s t : State} (nextId : t.nextId = s.nextId) (parked : t.parked = s.parked) : ParksFresh s t :=
  ⟨nextId.ge, fun _ h => .inl (parked ▸ h)⟩

theorem ParksFresh.trans {s t u : State} (h : ParksFresh s t) (g : ParksFresh t u) : ParksFresh s u :=
  ⟨h.nextId.trans g.nextId, fun x m => (g.parked x m).elim (h.parked x) fun late => .inr (h.nextId.trans late)⟩

theorem ParksFresh.foldl {α : Type} {f : State → α → State} (h : ∀ s x, ParksFresh s (f s x)) (l : List α) (s : State) : ParksFresh s (l.foldl f s) :=
  List.foldlRecOn (motive := ParksFresh s) l f (.of_same rfl rfl) fun t kept x _ => kept.trans (h t x)

theorem parksFresh_storeRow (s : State) (k : Nat) (data : Row) (mask : BitVec 256) : ParksFresh s (s.storeRow k data mask) := by
  unfold State.storeRow
  split <;> exact .of_same rfl rfl

theorem parksFresh_writeAt (s : State) (part n v : Nat) (p : Spot) : ParksFresh s (s.writeAt part n v p) := by
  cases p with
  | mem k =>
    simp only [State.writeAt, State.storeSpan]
    split
    · exact (parksFresh_storeRow s _ _ _).trans (parksFresh_storeRow _ _ _ _)
    · exact parksFresh_storeRow s _ _ _
  | regs off =>
    simp only [State.writeAt]
    split <;> exact .of_same rfl rfl
  | fail _ | absent | link | hold => exact .of_same rfl rfl

theorem parksFresh_parkLink (s : State) (part va : Nat) (w : ParkWork) (width : Nat) : ParksFresh s (s.parkLink part va w width) := by
  have new {t : State} (nextId : t.nextId = s.nextId + 1) {x : Parked} (parked : t.parked = s.parked ++ [x]) (id : x.id = s.nextId) : ParksFresh s t :=
    ⟨by omega, fun y m => by
      rw [parked, List.mem_append, List.mem_singleton] at m
      exact m.imp_right fun e => (e ▸ id).ge⟩
  simp only [State.parkLink]
  split <;> exact new rfl rfl rfl

theorem parksFresh_sibPut (s : State) (n : Nat) (q : CmdQueue) (slots : List Nat) (kind : Nat) : ParksFresh s (s.sibPut n q slots kind) :=
  (ParksFresh.foldl (fun (t : State) (w : Nat × Nat × Nat) => parksFresh_writeAt t q.part.toNat w.2.1 w.2.2 (t.spotQ n q.part.toNat w.1 2 w.2.1)) _ s).trans
    (.of_same rfl rfl)

theorem parksFresh_sibFlush (n fuel : Nat) (s : State) : ParksFresh s (s.sibFlush n fuel) := by
  induction fuel generalizing s with
  | zero => exact .of_same rfl rfl
  | succ fuel ih =>
    simp only [State.sibFlush]
    split
    · exact .of_same rfl rfl
    · split
      · exact .of_same rfl rfl
      · split
        · exact .of_same rfl rfl
        · split
          · exact parksFresh_parkLink s _ _ _ _
          · exact (parksFresh_sibPut s _ _ _ _).trans (ih _)

theorem parksFresh_sibPost (s : State) (n : Nat) (q : CmdQueue) (slots : List Nat) (kind : Nat) : ParksFresh s (s.sibPost n q slots kind) :=
  have listed : ParksFresh s { s with queues := tset s.queues n { q with posts := q.posts ++ [(slots, kind)] } } := .of_same rfl rfl
  listed.trans (parksFresh_sibFlush n _ _)

theorem parksFresh_count (s : State) (f : MFam) (i hi lo n : Nat) : ParksFresh s (s.count f i hi lo n) := .of_same rfl rfl

theorem parksFresh_modJob (s : State) (j : Nat) (f : Job → Job) : ParksFresh s (s.modJob j f) := by
  unfold State.modJob
  split <;> exact .of_same rfl rfl

theorem parksFresh_postFault (s : State) (f : FaultRec) : ParksFresh s (s.postFault f) := by
  have named (t : State) (lost : Bool) : ParksFresh t (match f.job with
      | none => t
      | some j => t.modJob j fun x => { x with nfaults := min (x.nfaults + 1) (2 ^ 32 - 1), lost := x.lost || lost }) := by
    split
    · exact .of_same rfl rfl
    · exact parksFresh_modJob t _ _
  simp only [State.postFault, State.postTo]
  split
  · exact named s true
  · split
    · exact named s true
    · split
      · exact named s true
      · split
        · exact (named s false).trans (parksFresh_sibPost _ _ _ _ _)
        · exact (parksFresh_count s _ _ _ _ _).trans (named _ true)

/-! ### A copy command whose host stays away fails (R281, R426) -/

/-- Two states agree on the contexts, on the copy commands of a quad, and on what is parked. -/
structure SameCopies (q : Nat) (s t : State) : Prop where
  ctxs : t.ctxs = s.ctxs
  copies : (t.quad q).copies = (s.quad q).copies
  parked : t.parked = s.parked
  nextId : t.nextId = s.nextId

theorem SameCopies.trans {q : Nat} {s t u : State} (h : SameCopies q s t) (g : SameCopies q t u) : SameCopies q s u :=
  ⟨g.ctxs.trans h.ctxs, g.copies.trans h.copies, g.parked.trans h.parked, g.nextId.trans h.nextId⟩

theorem sameCopies_startExit (q : Nat) (s : State) (a : ArrayId) : SameCopies q s (s.startExit a) := by
  have set (r : Retain) : SameCopies q s (s.setRetain r a) := by
    cases a with
    | bigTop d => exact ⟨rfl, rfl, rfl, rfl⟩
    | scratch p =>
      refine ⟨rfl, ?_, rfl, rfl⟩
      by_cases here : q = p.val
      · subst here
        show ((s.modQuad p.val _).quad p.val).copies = _
        rw [quad_modQuad_same]
      · exact congrArg Quad.copies (quad_modQuad_ne s _ here)
  unfold State.startExit
  split
  · exact set _
  · exact set _
  · exact ⟨rfl, rfl, rfl, rfl⟩
  · exact ⟨rfl, rfl, rfl, rfl⟩

theorem sameCopies_doneAdd (q : Nat) (s : State) (o : Origin) (a v : Nat) : SameCopies q s (s.doneAdd o a v) := by
  unfold State.doneAdd
  split
  · rename_i k _
    unfold State.addWord State.storeBytes State.storeRow
    split <;> exact ⟨rfl, rfl, rfl, rfl⟩
  · rename_i arr _
    cases arr with
    | none => exact ⟨rfl, rfl, rfl, rfl⟩
    | some x => exact (sameCopies_startExit q s x).trans ⟨rfl, rfl, rfl, rfl⟩
  · exact ⟨rfl, rfl, rfl, rfl⟩

theorem sameCopies_foldl {α : Type} {f : State → α → State} {q : Nat} (h : ∀ s x, SameCopies q s (f s x)) (l : List α) (s : State)
    : SameCopies q s (l.foldl f s) :=
  List.foldlRecOn (motive := SameCopies q s) l f ⟨rfl, rfl, rfl, rfl⟩ fun t kept x _ => kept.trans (h t x)

/-- A performed command of a quiet module only leaves the lists of what waits for it. -/
theorem performed_of_quiet {s : State} (quiet : Quiet s) (id : Nat) : s.performed id = s.forget id true :=
  settle_of_quiet ((onlyFlushed_forget s id true).quiet quiet)

theorem stamp_keeps (s : State) (part cls job ident tenq tstart : Nat) (src : BitVec 16) :
    let t := s.stamp part cls job ident tenq tstart src
    t.ctxs = s.ctxs ∧ t.quads = s.quads ∧ t.parked = s.parked := by
  simp only [State.stamp]
  split <;> exact ⟨rfl, rfl, rfl⟩

theorem copyGone_of_quiet {s : State} (quiet : Quiet s) (q : Nat) (c : CopyCmd) :
    Quiet (s.copyGone q c) ∧ ((s.copyGone q c).quad q).copies = (s.quad q).copies.filter (fun y => decide (y.id ≠ c.id)) ∧
      (s.copyGone q c).parked = s.parked := by
  let left := s.modQuad q fun x => { x with copies := x.copies.filter fun y => decide (y.id ≠ c.id) }
  let stamped := left.stamp c.org.part.toNat 3 c.org.job.toNat (cmdField c.cmd 48 4) c.enq c.began (srcCopy q)
  obtain ⟨ctxs, quads, parked⟩ := stamp_keeps left c.org.part.toNat 3 c.org.job.toNat (cmdField c.cmd 48 4) c.enq c.began (srcCopy q)
  have still : Quiet stamped := quiet_of_ctxs ctxs (quiet_of_ctxs (s := s) rfl quiet)
  have gone : s.copyGone q c = stamped.forget c.id true := performed_of_quiet still c.id
  rw [gone]
  refine ⟨(onlyFlushed_forget _ _ _).quiet still, ?_, parked⟩
  have copies : stamped.quad q = left.quad q := by rw [State.quad, quads, State.quad]
  show (stamped.quad q).copies = _
  rw [copies, quad_modQuad_same]

theorem copyFailNow_of_quiet {s : State} (quiet : Quiet s) (q : Nat) (c : CopyCmd) (f : CopyFault) :
    Quiet (s.copyFailNow q c f) ∧ ((s.copyFailNow q c f).quad q).copies = (s.quad q).copies.filter (fun y => decide (y.id ≠ c.id)) ∧
    ∀ x ∈ (s.copyFailNow q c f).parked, x ∈ s.parked ∨ s.nextId ≤ x.id := by
  let added := (cpCounters c.cmd).foldl (fun s a => s.doneAdd c.org a (2 ^ 32)) s
  let fault : FaultRec := { cause := f.cause, src := 1, part := c.org.part.toNat, job := some c.org.job.toNat, unit := q, addr := f.addr, done := f.rows,
                            ticket := c.org.ticket, hop := f.hop, expected := f.expected, received := f.received }
  let unparked := { added.postFault fault with parked := (added.postFault fault).parked.filter fun p => decide (p.work ≠ ParkWork.copy q c.id) }
  have adds : SameCopies q s added := sameCopies_foldl (fun t a => sameCopies_doneAdd q t c.org a (2 ^ 32)) _ s
  have reported := sameTasks_postFault added fault
  have fresh := parksFresh_postFault added fault
  obtain ⟨still, copies, parked⟩ := copyGone_of_quiet (s := unparked) (quiet_of_ctxs (reported.ctxs.trans adds.ctxs) quiet) q c
  refine ⟨still, copies.trans ?_, fun x m => ?_⟩
  · have quad : unparked.quad q = added.quad q := by rw [State.quad, State.quad, ← reported.quads]
    rw [quad, adds.copies]
  · have m' : x ∈ unparked.parked := by rw [← parked]; exact m
    have late := fresh.parked x (List.mem_of_mem_filter m')
    rwa [adds.parked, adds.nextId] at late

/-- A copy that alone waits on its quad for a host that stays away leaves its queue, and the access is over. -/
theorem linkTimeout_of_copy {s : State} {p : Parked} {q i : Nat} {y : CopyCmd} (quiet : Quiet s) (work : p.work = .copy q i) (new : p.id < s.nextId)
    (alone : (s.quad q).copies = [y]) (id : y.id = i) (free : s.heldCounter y = none) :
    let t := (s.unpark p.id).linkTimeout p
    Quiet t ∧ (t.quad q).copies = [] ∧ ∀ x ∈ t.parked, x.id ≠ p.id := by
  have found : (((s.unpark p.id).quad q).copies.find? fun c => decide (c.id = i)) = some y := by
    rw [show ((s.unpark p.id).quad q).copies = [y] from alone]
    simp [id]
  have free' : (s.unpark p.id).heldCounter y = none := free
  have eq : (s.unpark p.id).linkTimeout p = (s.unpark p.id).copyFailNow q y ⟨cPerm, p.va, y.row / cpUnits y.cmd, 0, 0, 0⟩ := by
    simp only [State.linkTimeout, work, found, State.copyFail, free']
  intro t
  obtain ⟨still, copies, parked⟩ := copyFailNow_of_quiet (s := s.unpark p.id) (quiet_of_ctxs rfl quiet) q y ⟨cPerm, p.va, y.row / cpUnits y.cmd, 0, 0, 0⟩
  rw [← eq] at still copies parked
  refine ⟨still, copies.trans ?_, fun x m => ?_⟩
  · rw [show ((s.unpark p.id).quad q).copies = [y] from alone]
    simp
  · rcases parked x m with old | late
    · exact id_ne_of_mem_unpark old
    · exact (Nat.lt_of_lt_of_le new late).ne'

/-- Settles O50: the page that loads is the frame a fetch reads, a result that lands fills its register, and a parked access goes on or fails by itself. -/
theorem fetchLandAndParkResults : Obligations.FetchLandAndParkResults := by
  unfold Obligations.FetchLandAndParkResults
  intro s core ctx l v p words page key c
  refine ⟨?_, ?_, ?_, ?_⟩
  · intro o read life wait
    refine ⟨fun code => ?_, fun code reads => fetchFault_waits life wait code reads, fun x a code fails => fetchFault_traps life wait code fails⟩
    have stays : c.life ≠ .running ∨ c.wait ≠ .none ∨ (s.codeByte key o).isSome = true := .inr (.inr (Option.isSome_iff_ne_none.mpr code))
    exact congrArg Host.Outcome.next (if_pos stays)
  · intro o life wait same read room
    subst same
    refine ⟨_, pageLoad_of_ok life wait read, pageLoaded_wait (mem_pageWaiters life wait), fun k waits => pageLoaded_wait waits, fun j below => ?_, ?_, ?_⟩
    · have offset : (BitVec.ofNat 24 (o.toNat / 4096 * 4096 + j)).toNat = o.toNat / 4096 * 4096 + j := by
        have := o.isLt
        rw [BitVec.toNat_ofNat, Nat.mod_eq_of_lt (by omega)]
      have byte := pageLoaded_codeByte (words := words) (o := BitVec.ofNat 24 (o.toNat / 4096 * 4096 + j)) room (coreOf_keyOf core ctx)
        (page := o.toNat / 4096) (by omega)
      rwa [offset, show (o.toNat / 4096 * 4096 + j) % 4096 = j by omega] at byte
    · exact (fld_of_mmio (resumed_keeps _ _).2.2 0 55 24 (by decide)).trans (fld_count_same (s.loadFrame core.val _) 0 24 1 (by decide) (by decide))
    · exact (resumed_keeps _ _).2.1
  · intro quiet only value life comes landed
    have lands {want : Landing → Bool} (wanted : want l = true) (due : l.due ≤ s.now) :
        ∃ t, s.landOne key want = t ∧ landed t := by
      refine ⟨_, landOne_of_due only quiet value life comes wanted due, ?_⟩
      have now := landed_single only value
      have ctx : (s.modCtx key fun c => c.land l).ctx key = c.land l := ctx_modCtx_same s key _
      simp only [landed, ctx]
      exact ⟨now.inflight, now.full, now.poison, now.holds⟩
    refine ⟨fun due => ⟨?_, fun snapshot => ?_⟩, fun early => ⟨?_, ?_⟩⟩
    · obtain ⟨t, run, done⟩ := lands (want := fun _ => true) rfl due
      exact ⟨t, congrArg Host.Outcome.next run, done⟩
    · obtain ⟨t, run, done⟩ := lands (want := fun l => l.fromSnapshot) snapshot due
      exact ⟨t, congrArg Host.Outcome.next run, done⟩
    · exact congrArg Host.Outcome.next (landOne_of_early only _ early)
    · exact congrArg Host.Outcome.next (landOne_of_early only _ early)
  · intro parked
    refine ⟨fun waits => ?_, fun q i quiet work link mapped => ?_, fun stays => ?_, fun q i y work link down host due quiet new alone id free => ?_⟩
    · rw [parkResume_of_parked parked, waits]
      rfl
    · have ready : s.parkReady p = true := by
        simp [State.parkReady, work, link, Option.isSome_iff_ne_none, mapped]
      have still : Quiet ((s.unpark p.id).resumeCopy q i) := quiet_of_ctxs rfl quiet
      refine ⟨(s.unpark p.id).resumeCopy q i, ?_, fun x m => id_ne_of_mem_unpark (s := s) m, fun y m e => unpark_resumeCopy_copies m e, rfl⟩
      rw [parkResume_of_parked parked, if_pos ready, work]
      exact congrArg Host.Outcome.next (settle_of_quiet still)
    · have waits : (p.link && !s.linkUp && s.forHost p && decide (p.since + 22500000 ≤ s.now)) = false := by
        rcases stays with no | up | own | early
        · simp [no]
        · simp [up]
        · simp [own]
        · simp [early]
      rw [hostAccessTimeout_of_parked parked, waits]
      rfl
    · have fails : (p.link && !s.linkUp && s.forHost p && decide (p.since + 22500000 ≤ s.now)) = true := by simp [link, down, host, due]
      obtain ⟨still, copies, gone⟩ := linkTimeout_of_copy quiet work new alone id free
      refine ⟨(s.unpark p.id).linkTimeout p, ?_, gone, copies⟩
      rw [hostAccessTimeout_of_parked parked, if_pos fails, settle_of_quiet still]

end Sys2Proof.Proofs

namespace Sys2Proof.Proofs
open Sys2Proof Sys2Proof.Machine Sys2Proof.Safety Sys2Proof.Laws

/-! ### The core whose turn it is (R121) -/

theorem firstAfter_mem {mm start n : Nat} {l : List Nat} (h : firstAfter mm start l = some n) : n ∈ l := by
  have all : ∀ m, firstAfter mm start l = some m → m ∈ l := by
    unfold firstAfter
    refine List.foldlRecOn (motive := fun b : Option Nat => ∀ m, b = some m → m ∈ l) l _ (fun m e => nomatch e) fun b mem x hx m e => ?_
    cases b with
    | none => exact Option.some.inj e ▸ hx
    | some b =>
      simp only at e
      split at e
      · exact Option.some.inj e ▸ hx
      · exact mem m e
  exact all n h

/-- The context chosen is one of the core's. -/
theorem coreOf_pickCtx {s : State} {core k : Nat} (h : s.pickCtx core = some k) : coreOf k = core ∧ k = core * 8 + k % 8 := by
  unfold State.pickCtx at h
  simp only at h
  split at h
  · cases h
  · obtain ⟨n, first, rfl⟩ := Option.map_eq_some_iff.mp h
    obtain ⟨m, -, rfl⟩ := List.mem_map.mp (firstAfter_mem first)
    unfold coreOf
    omega

/-- Nothing is on the agenda, and core `core` is the first whose context has its turn. -/
structure Turn (s : State) (core : Fin 128) (k : Nat) : Prop where
  goes : s.halted = false
  agenda : s.agenda = []
  puts : s.hostPuts = []
  next : s.nextCore ≤ core.val
  idle : ∀ i < core.val, s.nextCore ≤ i → s.pickCtx i = none
  noResult : ∀ n < core.val * 8 + 8, s.nextCore * 8 ≤ n → s.dueLanding n = false
  picks : s.pickCtx core.val = some k

theorem any_dueLanding {s : State} {i : Nat} (h : ∀ n < 8, s.dueLanding (i * 8 + n) = false) :
    ((List.range 8).map (i * 8 + ·)).any s.dueLanding = false := by
  rw [List.any_map, List.any_eq_false]
  intro n m
  simp [h n (List.mem_range.mp m)]

theorem step_of_turn {s u : State} {core : Fin 128} {k : Nat} (turn : Turn s core k) (run : runBundle exec { s with nextCore := core.val + 1 } k = .next u) :
    step s = .next (s.turnOf core.val u) := by
  obtain ⟨goes, agenda, puts, next, idle, noResult, picks⟩ := turn
  have quiet {i : Nat} (lo : s.nextCore ≤ i) (hi : i ≤ core.val) : ((List.range 8).map (i * 8 + ·)).any s.dueLanding = false :=
    any_dueLanding fun n small => noResult _ (by omega) (by omega)
  have first : ((List.range 128).find? fun i => decide (s.nextCore ≤ i) && ((s.pickCtx i).isSome || ((List.range 8).map (i * 8 + ·)).any s.dueLanding)) =
      some core.val := by
    rw [List.find?_range_eq_some]
    refine ⟨by simp [next, picks], List.mem_range.mpr core.isLt, fun i below => ?_⟩
    by_cases lo : s.nextCore ≤ i
    · simp [lo, idle i below lo, quiet lo below.le]
    · simp [lo]
  have lands : ((List.range 8).map (core.val * 8 + ·)).find? (State.dueLanding { s with nextCore := core.val + 1 }) = none := by
    rw [List.find?_eq_none]
    exact List.any_eq_false.mp (quiet next le_rfl)
  have chosen : State.pickCtx { s with nextCore := core.val + 1 } core.val = some k := picks
  have acts : runCore exec { s with nextCore := core.val + 1 } core.val = .next u := by
    rw [runCore, lands, chosen]
    exact run
  have free : step s = freeRun exec s := by
    unfold step cycle
    rw [if_neg (by simp [puts]), agenda]
    exact if_neg (by simp [goes])
  rw [free, freeRun, first]
  simp only [acts]

/-! ### The bundle that is fetched (R78, R84) -/

theorem fetchAt_nextCore (s : State) (n k : Nat) : State.fetchAt { s with nextCore := n } k = s.fetchAt k := by
  have same : SameCode s { s with nextCore := n } k := ⟨rfl, rfl, rfl, rfl⟩
  simp only [State.fetchAt, same.skipPad]
  rfl

section Fetch
variable {s : State} {k : Nat} (dog : s.watchdogDue k = false)
include dog

theorem runBundle_of_miss (code : (s.modCtx k fun x => { x with pc := s.fetchAt k }).codeByte k (s.fetchAt k) = none) :
    runBundle exec s k = exec (.fetchFault (Fin.ofNat 128 (coreOf k)) (Fin.ofNat 8 k)) (s.modCtx k fun x => { x with pc := s.fetchAt k }) := by
  simp only [runBundle, dog, Bool.false_eq_true, if_false, code]

theorem runBundle_of_zero (code : (s.modCtx k fun x => { x with pc := s.fetchAt k }).codeByte k (s.fetchAt k) = some 0) :
    runBundle exec s k = .next (((s.modCtx k fun x => { x with pc := s.fetchAt k }).dispatched k).takeTrap k cBadTarget 0 0 (s.fetchAt k) (s.fetchAt k)
      ((s.fetchAt k).setWidth 64) 0) := by
  simp only [runBundle, dog, Bool.false_eq_true, if_false, code, if_true]

theorem runBundle_of_header {h : Byte} (code : (s.modCtx k fun x => { x with pc := s.fetchAt k }).codeByte k (s.fetchAt k) = some h) (nz : h ≠ 0) :
    runBundle exec s k = runAt exec (s.modCtx k fun x => { x with pc := s.fetchAt k }) k (s.fetchAt k) h := by
  simp only [runBundle, dog, Bool.false_eq_true, if_false, code, nz]

end Fetch

/-! ### Masks of slots (R92, R93) -/

theorem maskOf_unique {m n : Nat} {f : Slot → Prop} (hm : MaskOf m f) (hn : MaskOf n f) : m = n := by
  refine Nat.eq_of_testBit_eq fun i => ?_
  by_cases small : i < 8
  · obtain ⟨u, rfl⟩ : ∃ u : Slot, u.bit = i := by
      have all : ∀ i < 8, ∃ u ∈ Slot.all, u.bit = i := by decide
      obtain ⟨u, -, e⟩ := all i small
      exact ⟨u, e⟩
    exact Bool.eq_iff_iff.mpr ((hm.2 u).trans (hn.2 u).symm)
  · have high {x : Nat} (h : x < 2 ^ 8) : x.testBit i = false := Nat.testBit_lt_two_pow (h.trans_le (Nat.pow_le_pow_right (by decide) (by omega)))
    rw [high hm.1, high hn.1]

theorem maskOf_congr {m : Nat} {f g : Slot → Prop} (h : MaskOf m f) (e : ∀ u, f u ↔ g u) : MaskOf m g := ⟨h.1, fun u => (h.2 u).trans (e u)⟩

/-- Slots that are each listed once make a mask. -/
theorem maskOf_slotMask {l : List Slot} (once : l.Nodup) : MaskOf (slotMask l) (· ∈ l) := by
  have same : (Slot.all.filter (· ∈ l)).Perm l := by
    rw [List.perm_ext_iff_of_nodup (List.Nodup.filter _ (by decide)) once]
    simp [mem_slot_all]
  have mask : slotMask l = slotMask (Slot.all.filter (· ∈ l)) := (same.map _).sum_eq.symm
  rw [mask]
  exact maskOf_congr (maskOf_filter _) fun u => decide_eq_true_iff

theorem ne_nil_of_slotMask {l : List Slot} (h : slotMask l ≠ 0) : l ≠ [] := fun e => h (e ▸ rfl)

/-! ### The slots of a bundle, one after the other (R111, R120) -/

theorem runSlots_of_ran {ws : List SlotWord} {a b : State} {stops : List (Slot × SlotOutcome)} (run : Ran ws a b stops)
    (before : List (Slot × SlotOutcome)) :
    runSlots exec ws ⟨a, before⟩ = .next ⟨b, before ++ stops⟩ := by
  induction ws generalizing a stops before with
  | nil =>
    obtain ⟨rfl, rfl⟩ := run
    rw [List.append_nil]
    rfl
  | cons w ws ih =>
    obtain ⟨t, eq, rest⟩ := run
    by_cases ok : t.issue.out = .ok
    · rw [if_pos ok] at rest
      have one : runSlot exec ⟨a, before⟩ w = .next ⟨t, before⟩ := by simp only [runSlot, eq, ok]
      simp only [runSlots, one]
      exact ih rest before
    · rw [if_neg ok] at rest
      obtain ⟨later, rfl, rest⟩ := rest
      have one : runSlot exec ⟨a, before⟩ w = .next ⟨a, before ++ [(w.slot, t.issue.out)]⟩ := by simp only [runSlot, eq]
      simp only [runSlots, one]
      rw [ih rest, List.append_assoc, List.singleton_append]

/-- Each slot that stops is one of those that ran, each at most once, in their order. -/
theorem stops_of_ran {ws : List SlotWord} {a b : State} {stops : List (Slot × SlotOutcome)} (run : Ran ws a b stops) :
    (stops.map (·.1)).Sublist (ws.map (·.slot)) := by
  induction ws generalizing a stops with
  | nil =>
    obtain ⟨-, rfl⟩ := run
    exact .slnil
  | cons w ws ih =>
    obtain ⟨t, -, rest⟩ := run
    split at rest
    · exact (ih rest).cons _
    · obtain ⟨later, rfl, rest⟩ := rest
      exact (ih rest).cons_cons _

/-! ### The first trap of a bundle (R93) -/

/-- The trap that a slot left: the slot, its cause, address and INFO. -/
def trapOf (l : List (Slot × SlotOutcome)) (t : Slot) : Option (Slot × Cause × Word × BitVec 32) :=
  (l.find? fun e => decide (e.1 = t)).bind fun e => match e.2 with
    | .trapped c a i => some (t, c, a, i)
    | .ok | .waiting => none

/-- The traps of a bundle, in order of header bit. -/
def trapsOf (l : List (Slot × SlotOutcome)) : List (Slot × Cause × Word × BitVec 32) := Slot.all.filterMap (trapOf l)

theorem firstTrap_eq (l : List (Slot × SlotOutcome)) : firstTrap l =
    (trapsOf l).head?.map fun h => (h.2.1, slotMask (((trapsOf l).filter fun e => decide (e.2.1 = h.2.1)).map (·.1)), h.2.2.1, h.2.2.2) := by
  have same : trapsOf l = Slot.all.filterMap fun t => (l.find? fun e => decide (e.1 = t)).bind fun e => match e.2 with
      | .trapped c a i => some (t, c, a, i)
      | _ => none := by
    refine congrArg (Slot.all.filterMap ·) (funext fun t => ?_)
    unfold trapOf
    congr 1
    funext e
    cases e.2 <;> rfl
  rw [same]
  rfl

theorem find?_of_nodup_keys {l : List (Slot × SlotOutcome)} (once : (l.map (·.1)).Nodup) {t : Slot} {o : SlotOutcome} (m : (t, o) ∈ l) :
    (l.find? fun e => decide (e.1 = t)) = some (t, o) := by
  induction l with
  | nil => cases m
  | cons x l ih =>
    rw [List.map_cons, List.nodup_cons] at once
    rcases List.mem_cons.mp m with rfl | m
    · exact List.find?_cons_of_pos (by simp)
    · have apart : x.1 ≠ t := fun e => once.1 (e ▸ List.mem_map_of_mem m)
      rw [List.find?_cons_of_neg (by simpa using apart)]
      exact ih once.2 m

theorem trapOf_eq_some {l : List (Slot × SlotOutcome)} (once : (l.map (·.1)).Nodup) {t u : Slot} {c : Cause} {a : Word} {i : BitVec 32} :
    trapOf l t = some (u, c, a, i) ↔ u = t ∧ (t, .trapped c a i) ∈ l := by
  constructor
  · intro h
    obtain ⟨⟨v, o⟩, found, left⟩ := Option.bind_eq_some_iff.mp h
    have key := List.find?_some found
    obtain rfl : v = t := of_decide_eq_true key
    cases o with
    | ok | waiting => cases left
    | trapped c' a' i' =>
      cases left
      exact ⟨rfl, List.mem_of_find?_eq_some found⟩
  · rintro ⟨rfl, m⟩
    rw [trapOf, find?_of_nodup_keys once m]
    rfl

theorem slot_all_split (u : Slot) : Slot.all = Slot.all.take u.bit ++ u :: Slot.all.drop (u.bit + 1) ∧ ∀ t ∈ Slot.all.take u.bit, t.bit < u.bit := by
  cases u <;> exact ⟨rfl, by decide⟩

theorem firstTrap_of_waiting {l : List (Slot × SlotOutcome)} (waits : ∀ x ∈ l, x.2 = .waiting) : firstTrap l = none := by
  have none : trapsOf l = [] := by
    rw [trapsOf, List.filterMap_eq_nil_iff]
    intro t _
    unfold trapOf
    cases found : l.find? fun e => decide (e.1 = t) with
    | none => rfl
    | some e => rw [Option.bind_some, waits e (List.mem_of_find?_eq_some found)]
  rw [firstTrap_eq, none]
  rfl

/-- The trap of the lowest header bit is taken, with the mask of every slot that traps with its cause. -/
theorem firstTrap_of_lowest {l : List (Slot × SlotOutcome)} (once : (l.map (·.1)).Nodup) {u : Slot} {c : Cause} {a : Word} {i : BitVec 32}
    {mask : Nat} (traps : (u, .trapped c a i) ∈ l) (lowest : ∀ x ∈ l, x.2 ≠ .waiting → u.bit ≤ x.1.bit)
    (holds : MaskOf mask fun v => ∃ a i, (v, .trapped c a i) ∈ l) : firstTrap l = some (c, mask, a, i) := by
  have head : (trapsOf l).head? = some (u, c, a, i) := by
    obtain ⟨split, below⟩ := slot_all_split u
    have none : (Slot.all.take u.bit).findSome? (trapOf l) = .none := by
      rw [List.findSome?_eq_none_iff]
      intro t m
      cases left : trapOf l t with
      | none => rfl
      | some x =>
        obtain ⟨-, mem⟩ := (trapOf_eq_some once (u := x.1) (c := x.2.1) (a := x.2.2.1) (i := x.2.2.2)).mp left
        exact absurd (lowest _ mem (fun e => by cases e)) (Nat.not_le.mpr (below t m))
    rw [trapsOf, List.head?_filterMap, split, List.findSome?_append, none, Option.none_or, List.findSome?_cons, (trapOf_eq_some once).mpr ⟨rfl, traps⟩]
  have distinct : (trapsOf l).Pairwise fun x y => x.1 ≠ y.1 := by
    refine List.Pairwise.filterMap _ (R := fun t v => t ≠ v) (fun t v apart x hx y hy => ?_) (by decide)
    rwa [((trapOf_eq_some once).mp hx).1, ((trapOf_eq_some once).mp hy).1]
  have keys : (((trapsOf l).filter fun e => decide (e.2.1 = c)).map (·.1)).Nodup := List.pairwise_map.mpr (distinct.filter _)
  have same : slotMask (((trapsOf l).filter fun e => decide (e.2.1 = c)).map (·.1)) = mask := by
    refine maskOf_unique (maskOf_congr (maskOf_slotMask keys) fun v => ?_) holds
    simp only [List.mem_map, List.mem_filter, trapsOf, List.mem_filterMap, decide_eq_true_eq]
    constructor
    · rintro ⟨⟨v', c', a', i'⟩, ⟨⟨t, -, left⟩, rfl⟩, rfl⟩
      obtain ⟨rfl, mem⟩ := (trapOf_eq_some once).mp left
      exact ⟨a', i', mem⟩
    · rintro ⟨a', i', mem⟩
      exact ⟨(v, c, a', i'), ⟨⟨v, mem_slot_all v, (trapOf_eq_some once).mpr ⟨rfl, mem⟩⟩, rfl⟩, rfl⟩
  rw [firstTrap_eq, head, Option.map_some, same]

/-! ### Past the bundle (R84, R123, R126, R131) -/

/-- Loop `n` of a context stands at a decision point: it is armed, and the bundle is its last (R131). -/
def AtLend (y : Ctx) (o : Offset) (n : Fin 4) : Prop := y.lc[n].cnt ≠ 0 ∧ y.lc[n].fin = o

section Decide
variable {c y : Ctx} {o : Offset} {n m : Fin 4} {x : Ctx × Option Offset}

theorem decideLoop_of_decided (h : x.2 ≠ none) : decideLoop c o n x = x := if_neg fun e => h e.1

theorem decideLoop_of_not_atLend (h : ¬ AtLend x.1 o n) : decideLoop c o n x = x := if_neg fun e => h e.2

theorem decideLoop_of_last (h : AtLend y o n) (one : y.lc[n].cnt = 1) :
    decideLoop c o n (y, none) = ({ y with lc := y.lc.set n { y.lc[n] with cnt := 0 } }, none) := by
  rw [decideLoop, if_pos ⟨rfl, h⟩, if_pos one]

theorem decideLoop_of_again (h : AtLend y o n) (more : y.lc[n].cnt ≠ 1) :
    decideLoop c o n (y, none) = ({ y with lc := y.lc.set n { y.lc[n] with cnt := y.lc[n].cnt - 1, idx := c.lc[n].idx + 1 } }, some y.lc[n].beg) := by
  rw [decideLoop, if_pos ⟨rfl, h⟩, if_neg more]

theorem lc_set_same (v : Vector Loop 4) (n : Fin 4) (l : Loop) : (v.set n l)[n] = l := Vector.getElem_set_self _

theorem lc_set_ne (v : Vector Loop 4) (l : Loop) (h : m ≠ n) : (v.set n l)[m] = v[m] :=
  Vector.getElem_set_ne _ _ fun e => h (Fin.ext e.symm)

/-- A step of the decision touches its own loop alone. -/
theorem decideLoop_lc_ne (h : m ≠ n) : (decideLoop c o n x).1.lc[m] = x.1.lc[m] := by
  unfold decideLoop
  simp only
  split
  · split <;> exact lc_set_ne _ _ h
  · rfl

/-- The decision for some of the loops, in this order. -/
def decideList (c : Ctx) (o : Offset) (l : List (Fin 4)) (x : Ctx × Option Offset) : Ctx × Option Offset := l.foldl (fun x n => decideLoop c o n x) x

theorem decideLoops_eq (y c : Ctx) (o : Offset) : decideLoops y c o = decideList c o [3, 2, 1, 0] (y, none) := by
  simp only [decideLoops, decideList, List.foldl_cons, List.foldl_nil]

theorem decideList_of_decided {l : List (Fin 4)} (h : x.2 ≠ none) : decideList c o l x = x :=
  List.foldlRecOn (motive := (· = x)) l _ rfl fun z e n _ => by rw [e, decideLoop_of_decided h]

theorem decideList_lc_not_mem {l : List (Fin 4)} (h : m ∉ l) : (decideList c o l x).1.lc[m] = x.1.lc[m] :=
  List.foldlRecOn (motive := fun z : Ctx × Option Offset => z.1.lc[m] = x.1.lc[m]) l _ rfl fun z e n mem =>
    (decideLoop_lc_ne (m := m) (n := n) (x := z) fun same => h (same ▸ mem)).trans e

/-- Loops that are in their last iteration at most do not decide where fetch goes on. -/
theorem decideList_goes_on {l : List (Fin 4)} (once : l.Nodup) (last : ∀ m ∈ l, AtLend y o m → y.lc[m].cnt = 1) :
    (decideList c o l (y, none)).2 = none := by
  induction l generalizing y with
  | nil => rfl
  | cons n l ih =>
    obtain ⟨fresh, once⟩ := List.nodup_cons.mp once
    obtain ⟨z, eq, same⟩ : ∃ z, decideLoop c o n (y, none) = (z, none) ∧ ∀ m ≠ n, z.lc[m] = y.lc[m] := by
      by_cases live : AtLend y o n
      · exact ⟨_, decideLoop_of_last live (last n (.head _) live), fun m ne => lc_set_ne _ _ ne⟩
      · exact ⟨y, decideLoop_of_not_atLend live, fun _ _ => rfl⟩
    show (decideList c o l (decideLoop c o n (y, none))).2 = none
    rw [eq]
    refine ih once fun m mem live => ?_
    have lc := same m fun e => fresh (e ▸ mem)
    rw [lc]
    refine last m (.tail _ mem) ?_
    rwa [AtLend, lc] at live

theorem loops_split (n : Fin 4) : ∃ pre post : List (Fin 4),
    [3, 2, 1, 0] = pre ++ n :: post ∧ (∀ m ∈ pre, n < m) ∧ (∀ m, m ∈ post ↔ m < n) ∧ pre.Nodup := by
  refine ⟨[3, 2, 1, 0].take (3 - n.val), [3, 2, 1, 0].drop (4 - n.val), ?_⟩
  revert n
  decide

/-- What the decision does with loop `n`, when every higher loop at its end is in its last iteration (R131). -/
theorem decideLoops_loop (higher : ∀ m : Fin 4, n < m → AtLend y o m → y.lc[m].cnt = 1) :
    let d := decideLoops y c o
    (¬ AtLend y o n → d.1.lc[n] = y.lc[n]) ∧ (AtLend y o n → y.lc[n].cnt = 1 → d.1.lc[n] = { y.lc[n] with cnt := 0 }) ∧
    (AtLend y o n → y.lc[n].cnt ≠ 1 → d.1.lc[n] = { y.lc[n] with cnt := y.lc[n].cnt - 1, idx := c.lc[n].idx + 1 } ∧
      (∀ m < n, d.1.lc[m] = y.lc[m]) ∧ d.2 = some y.lc[n].beg) := by
  intro d
  obtain ⟨pre, post, split, above, below, once⟩ := loops_split n
  have goesOn := decideList_goes_on (c := c) once fun m mem => higher m (above m mem)
  have kept : ∀ m ≤ n, (decideList c o pre (y, none)).1.lc[m] = y.lc[m] := fun m le =>
    decideList_lc_not_mem fun mem => absurd (above m mem) (not_lt.mpr le)
  obtain ⟨z, eq⟩ : ∃ z, decideList c o pre (y, none) = (z, none) := ⟨_, Prod.ext rfl goesOn⟩
  rw [eq] at kept
  have here := kept n le_rfl
  have d_eq : d = decideList c o post (decideLoop c o n (z, none)) := by
    show decideLoops y c o = _
    rw [decideLoops_eq, split, ← eq]
    exact List.foldl_append
  have after : d.1.lc[n] = (decideLoop c o n (z, none)).1.lc[n] := by
    rw [d_eq]
    exact decideList_lc_not_mem fun mem => absurd ((below n).mp mem) (lt_irrefl n)
  have live_iff : AtLend z o n ↔ AtLend y o n := by rw [AtLend, AtLend, here]
  refine ⟨fun idle => ?_, fun live one => ?_, fun live more => ?_⟩
  · rw [after, decideLoop_of_not_atLend (x := (z, none)) (live_iff.not.mpr idle)]
    exact here
  · rw [after, decideLoop_of_last (live_iff.mpr live) (by rw [here]; exact one), lc_set_same, here]
  · have step := decideLoop_of_again (c := c) (live_iff.mpr live) (show z.lc[n].cnt ≠ 1 by rw [here]; exact more)
    have done : d = decideLoop c o n (z, none) := by
      rw [d_eq]
      exact decideList_of_decided (by rw [step]; exact Option.some_ne_none _)
    rw [done, step, lc_set_same, here]
    exact ⟨rfl, fun m lt => (lc_set_ne _ _ lt.ne).trans (kept m lt.le), rfl⟩

end Decide

/-- The decision of a bundle: none in supervisor mode (R131, R394). -/
def decided (y c : Ctx) (o : Offset) : Ctx × Option Offset := if c.sup then (y, none) else decideLoops y c o

section Commit
variable {y c : Ctx} {o : Offset} {len : Nat} {skip : Option Offset}

/-- Past its bundle a context has the loops that the decision leaves. -/
theorem commitCtx_lc (y c : Ctx) (o : Offset) (len : Nat) (skip : Option Offset) : (commitCtx y c o len skip).lc = (decided y c o).1.lc := by
  unfold commitCtx
  rw [← decided]
  obtain ⟨x, beg⟩ := decided y c o
  cases xferLeft c.xfer with
  | zero =>
    cases beg with
    | some beg => rfl
    | none => cases skip <;> rfl
  | succ n => cases n <;> rfl

/-- Without a transfer fetch goes on where the decision says. -/
theorem commitCtx_of_loop (left : xferLeft c.xfer = 0) {beg : Offset} (loops : (decided y c o).2 = some beg) :
    (commitCtx y c o len skip).pc = beg ∧ (commitCtx y c o len skip).seq = false := by
  obtain ⟨x, eq⟩ : ∃ x, decided y c o = (x, some beg) := ⟨_, Prod.ext rfl loops⟩
  unfold commitCtx
  rw [← decided, left, eq]
  exact ⟨rfl, rfl⟩

/-- Without a transfer or a decision fetch goes on where the bundle says, else in sequence (R84). -/
theorem commitCtx_of_sequence (left : xferLeft c.xfer = 0) (goesOn : (decided y c o).2 = none) :
    (commitCtx y c o len skip).pc = skip.getD (o + BitVec.ofNat 24 len) ∧ (commitCtx y c o len skip).seq = skip.isNone := by
  obtain ⟨x, eq⟩ : ∃ x, decided y c o = (x, none) := ⟨_, Prod.ext rfl goesOn⟩
  unfold commitCtx
  rw [← decided, left, eq]
  cases skip <;> exact ⟨rfl, rfl⟩

theorem commitCtx_of_last_delay (left : xferLeft c.xfer = 1) :
    let z := commitCtx y c o len skip
    z.pc = xferTarget c.xfer ∧ z.seq = false ∧ z.xfer = 0 := by
  unfold commitCtx
  rw [left]
  exact ⟨rfl, rfl, rfl⟩

theorem xferLeft_lt (x : BitVec 27) : xferLeft x < 4 := nbits_lt _ _ _

theorem commitCtx_of_delay (left : 1 < xferLeft c.xfer) :
    let z := commitCtx y c o len skip
    z.pc = o + BitVec.ofNat 24 len ∧ z.seq = true ∧ xferLeft z.xfer = xferLeft c.xfer - 1 ∧ xferTarget z.xfer = xferTarget c.xfer := by
  obtain ⟨n, eq⟩ : ∃ n, xferLeft c.xfer = n + 2 := ⟨xferLeft c.xfer - 2, by omega⟩
  have small := xferLeft_lt c.xfer
  have xfer : (commitCtx y c o len skip).xfer = xferOf (xferTarget c.xfer) (n + 1) (xferTaken c.xfer) := by
    unfold commitCtx
    rw [eq]
  refine ⟨?_, ?_, ?_, ?_⟩
  · unfold commitCtx
    rw [eq]
  · unfold commitCtx
    rw [eq]
  · rw [xfer, xferLeft_xferOf]
    omega
  · rw [xfer, xferTarget_xferOf]

end Commit

/-! ### The words of a legal bundle (R83, R90) -/

/-- The words of the bundle at an offset, by slot, and those of them that decode. -/
def wordsOf (s : State) (k : Nat) (o : Offset) (h : Byte) : List (Slot × Nat) := slotWords (headerSlots h) ((s.bundleBytes k o (bundleLength h)).drop 1)
def decodedOf (s : State) (k : Nat) (o : Offset) (h : Byte) : List SlotWord := (decodeWords (wordsOf s k o h)).filterMap (·.2)

theorem slotWords_map_fst (ts : List Slot) (bs : List Byte) : (slotWords ts bs).map (·.1) = ts := by
  induction ts generalizing bs with
  | nil => rfl
  | cons t ts ih => rw [slotWords, List.map_cons, ih]

theorem nodup_headerSlots (h : Byte) : (headerSlots h).Nodup := List.Nodup.filter _ (by decide)

/-- Each word of a bundle without illegal slots decodes, in its slot. -/
theorem slots_of_legal {vregs len : Nat} {l : List (Slot × Nat)} (legal : ∀ u, ¬ IllegalSlot vregs len l u) :
    l.map (·.1) = ((decodeWords l).filterMap (·.2)).map (·.slot) := by
  have decodes : ∀ e ∈ l, ∃ x, decodeSlot e.1 e.2 = some x := by
    intro e m
    by_contra none
    exact legal e.1 (.inl ⟨e.2, m, fun x h => absurd ⟨x, h⟩ none⟩)
  clear legal
  induction l with
  | nil => rfl
  | cons e l ih =>
    obtain ⟨x, h⟩ := decodes e (.head _)
    have rest := ih fun e m => decodes e (.tail _ m)
    rw [decodeWords] at rest ⊢
    simp only [List.map_cons, h, List.filterMap_cons, rest, (encode_of_decodeSlot h).1]

theorem slots_decodedOf {s : State} {k : Nat} {o : Offset} {h : Byte} (legal : ∀ u, ¬ IllegalSlot (s.ctx k).vregs (bundleLength h) (wordsOf s k o h) u) :
    (decodedOf s k o h).map (·.slot) = headerSlots h :=
  (slots_of_legal legal).symm.trans (slotWords_map_fst _ _)

/-! ### A bundle that does not run its slots (R90 to R93, R124, R400, R405) -/

section RunAt
variable {s : State} {k : Nat} {o : Offset} {h : Byte}

theorem runAt_crossing (cross : 64 < o.toNat % 64 + bundleLength h) :
    runAt exec s k o h = .next ((s.dispatched k).takeTrap k cIllegalBundle 0 h.toNat o o 0 0) := if_pos cross

theorem runAt_illegal (inLine : o.toNat % 64 + bundleLength h ≤ 64) {mask : Nat}
    (holds : MaskOf mask (IllegalSlot (s.ctx k).vregs (bundleLength h) (wordsOf s k o h))) (nonzero : mask ≠ 0) :
    runAt exec s k o h = .next ((s.dispatched k).takeTrap k cIllegalBundle 0 mask o o 0 0) := by
  obtain rfl := maskOf_unique (illegalMask_spec _ _ _) holds
  exact (if_neg (Nat.not_lt.mpr inLine)).trans (if_pos nonzero)

/-- A bundle in a delay position holds what may not stand there, or ends a loop (R124). -/
def BadDelay (c : Ctx) (o : Offset) (ws : List SlotWord) : Prop :=
  xferLeft c.xfer ≠ 0 ∧ ((∃ w ∈ ws, notInDelay w.op = true) ∨ ∃ n : Fin 4, c.lc[n].cnt ≠ 0 ∧ c.lc[n].fin = o)

theorem badDelay_iff (c : Ctx) (o : Offset) (ws : List SlotWord) : BadDelay c o ws ↔
    xferLeft c.xfer ≠ 0 ∧ (ws.any (fun w => notInDelay w.op) ∨ c.lc.toList.any fun l => decide (l.cnt ≠ 0 ∧ l.fin = o)) := by
  have loops : (∃ n : Fin 4, c.lc[n].cnt ≠ 0 ∧ c.lc[n].fin = o) ↔ (c.lc.toList.any fun l => decide (l.cnt ≠ 0 ∧ l.fin = o)) = true := by
    simp only [List.any_eq_true, Vector.mem_toList_iff, Vector.mem_iff_getElem, decide_eq_true_eq]
    constructor
    · rintro ⟨n, live⟩
      exact ⟨c.lc[n], ⟨n.val, n.isLt, rfl⟩, live⟩
    · rintro ⟨_, ⟨n, lt, rfl⟩, live⟩
      exact ⟨⟨n, lt⟩, live⟩
  rw [BadDelay, List.any_eq_true, loops]

section Legal
variable (inLine : o.toNat % 64 + bundleLength h ≤ 64) (legal : ∀ u, ¬ IllegalSlot (s.ctx k).vregs (bundleLength h) (wordsOf s k o h) u)
include inLine legal

theorem runAt_delay (delay : BadDelay (s.ctx k) o (decodedOf s k o h)) : runAt exec s k o h = .next ((s.dispatched k).takeTrap k cIllegalDelay 0 0 o o 0 0) :=
  (if_neg (Nat.not_lt.mpr inLine)).trans <| (if_neg (not_not.mpr ((legal_iff _ _ _).mpr legal))).trans <| if_pos ((badDelay_iff _ _ _).mp delay)

variable (noDelay : ¬ BadDelay (s.ctx k) o (decodedOf s k o h))
include noDelay

theorem runAt_privileged (sup : (s.ctx k).sup = false) {mask : Nat}
    (holds : MaskOf mask fun u => ∃ w ∈ decodedOf s k o h, w.slot = u ∧ isPrivileged w.op = true)
    (nonzero : mask ≠ 0) : runAt exec s k o h = .next ((s.dispatched k).takeTrap k cPriv mask 0 o o 0 0) := by
  have slots : ((decodedOf s k o h).map (·.slot)).Nodup := (slots_decodedOf legal).symm ▸ nodup_headerSlots h
  have priv := maskOf_slotMask ((List.filter_sublist (p := fun w : SlotWord => isPrivileged w.op)).map SlotWord.slot |>.nodup slots)
  have same := maskOf_unique (maskOf_congr priv fun u => by simp only [List.mem_map, List.mem_filter, and_assoc, and_comm]) holds
  subst same
  exact (if_neg (Nat.not_lt.mpr inLine)).trans <| (if_neg (not_not.mpr ((legal_iff _ _ _).mpr legal))).trans <|
    (if_neg ((badDelay_iff _ _ _).not.mp noDelay)).trans <| if_pos ⟨sup, ne_nil_of_slotMask nonzero⟩

variable (allowed : (s.ctx k).sup = true ∨ ∀ w ∈ decodedOf s k o h, isPrivileged w.op = false)
include allowed

/-- A legal bundle that may run waits for a snapshot's result, waits for room, or runs its slots (R400, R405). -/
theorem runAt_allowed : runAt exec s k o h =
    if (s.ctx k).plainPending ((decodedOf s k o h).map (·.op)) then .next ((s.dispatched k).modCtx k fun c => { c with held := true, begun := true })
    else if 64 < (s.ctx k).inflight.length + ((s.ctx k).fixedAfter s.now).length + (((decodedOf s k o h).map fun w => newResults (s.ctx k) w.op).sum +
        (fixedResults (s.ctx k) s.now ((decodedOf s k o h).map (·.op))).length) then
      .next ((s.anchorCtx k).modCtx k fun c => { c with held := true })
    else runWords exec (s.dispatched k) k o (bundleLength h) (decodedOf s k o h) := by
  have unprivileged : ¬ ((s.ctx k).sup = false ∧ ((decodedOf s k o h).filter fun w => isPrivileged w.op).map (·.slot) ≠ []) := by
    rintro ⟨user, some⟩
    rcases allowed with sup | none
    · exact Bool.false_ne_true (user.symm.trans sup)
    · refine some ?_
      rw [List.map_eq_nil_iff, List.filter_eq_nil_iff]
      exact fun w m => Bool.eq_false_iff.mp (none w m)
  exact (if_neg (Nat.not_lt.mpr inLine)).trans <| (if_neg (not_not.mpr ((legal_iff _ _ _).mpr legal))).trans <|
    (if_neg ((badDelay_iff _ _ _).not.mp noDelay)).trans <| if_neg unprivileged

end Legal
end RunAt

/-! ### The slots run (R110 to R120) -/

theorem modCtx_modCtx (s : State) (k : Nat) (f g : Ctx → Ctx) : (s.modCtx k f).modCtx k g = s.modCtx k fun c => g (f c) := by
  rw [State.modCtx, ctx_modCtx_same]
  exact setCtx_setCtx s k _ _

theorem dispatched_now (s : State) (k : Nat) : (s.dispatched k).now = s.now := by
  unfold State.dispatched State.anchorCtx
  simp only
  split
  · rfl
  · split <;> rfl

section RunWords
variable {t e f : State} {k len : Nat} {o : Offset} {ws : List SlotWord} {early late : List (Slot × SlotOutcome)}

/-- The context of a bundle, moved past it. -/
def movedPast (x : State) (k : Nat) (d : Ctx) (o : Offset) (len : Nat) (skip : Option Offset) : State := x.modCtx k fun y => commitCtx y d o len skip

/-- The slots that stop are distinct, as the slots of the bundle are. -/
theorem nodup_stops {a b : State} (once : (ws.map (·.slot)).Nodup) (first : Ran (ws.filter fun w => !isLate w.op) a e early)
    (second : Ran (ws.filter fun w => isLate w.op) b f late) : ((early ++ late).map (·.1)).Nodup := by
  have all := ((stops_of_ran first).append (stops_of_ran second))
  rw [← List.map_append, ← List.map_append] at all
  have perm : ((ws.filter fun w => !isLate w.op) ++ ws.filter fun w => isLate w.op).Perm ws :=
    List.perm_append_comm.trans (List.filter_append_perm (fun w => isLate w.op) ws)
  exact all.nodup ((perm.map _).nodup_iff.mpr once)

/-- The end of a bundle whose slots have run: its first trap, its first slot that waits, or its effects. -/
def endOfWords (t : State) (k : Nat) (o : Offset) (len : Nat) (ws : List SlotWord) (p : Progress) : Out :=
  match firstTrap p.stops with
  | some x => .next (((t.issueAt k o len).takeTrap k x.1 x.2.1 0 o o x.2.2.1 x.2.2.2).idle)
  | none =>
    match ws.find? fun w => p.stops.any fun e => decide (e.1 = w.slot) with
    | some w => waitSlot exec (t.issueAt k o len) k w p.state.issue.skip
    | none => .next (p.state.idle.leaveFull k)

theorem runWords_of_ran (first : Ran (ws.filter fun w => !isLate w.op) (t.issueAt k o len) e early)
    (second : Ran (ws.filter fun w => isLate w.op)
      ((movedPast e k (t.ctx k) o len e.issue.skip).modCtx k fun y => y.commits t.now (fixedResults (t.ctx k) t.now (ws.map (·.op)))) f late) :
    runWords exec t k o len ws = endOfWords t k o len ws ⟨f, early ++ late⟩ := by
  have run := runSlots_of_ran first []
  rw [List.nil_append] at run
  rw [movedPast, modCtx_modCtx] at second
  have run' := runSlots_of_ran second early
  have src : (t.issueAt k o len).issue.src = t.ctx k := rfl
  unfold runWords
  simp only [run, src, run']
  rfl

theorem endOfWords_nil (f : State) : endOfWords t k o len ws ⟨f, []⟩ = .next (f.idle.leaveFull k) := by
  have none : (ws.find? fun w => ([] : List (Slot × SlotOutcome)).any fun e => decide (e.1 = w.slot)) = none := List.find?_eq_none.mpr fun _ _ => by simp
  unfold endOfWords
  rw [none]
  rfl

theorem endOfWords_trap (f : State) {stops : List (Slot × SlotOutcome)} {cause : Cause} {mask : Nat} {fa : Word} {info : BitVec 32}
    (trap : firstTrap stops = some (cause, mask, fa, info)) :
    endOfWords t k o len ws ⟨f, stops⟩ = .next (((t.issueAt k o len).takeTrap k cause mask 0 o o fa info).idle) := by
  unfold endOfWords
  rw [trap]

theorem endOfWords_wait (f : State) {stops : List (Slot × SlotOutcome)} {w : SlotWord} (trap : firstTrap stops = none)
    (found : ws.find? (fun w => decide (w.slot ∈ stops.map (·.1))) = some w) :
    endOfWords t k o len ws ⟨f, stops⟩ = waitSlot exec (t.issueAt k o len) k w f.issue.skip := by
  have same : (fun w : SlotWord => stops.any fun e => decide (e.1 = w.slot)) = fun w => decide (w.slot ∈ stops.map (·.1)) := by
    funext w
    rw [Bool.eq_iff_iff]
    simp
  unfold endOfWords
  rw [trap, same, found]

/-- What a slot that waits is asked again on: the bundle's state, moved past the bundle for a late operation. -/
def waitBase (t : State) (k : Nat) (o : Offset) (len : Nat) (w : SlotWord) (skip : Option Offset) : State :=
  if isLate w.op then movedPast (t.issueAt k o len) k (t.ctx k) o len skip else t.issueAt k o len

/-- A slot that waits leaves the context of the bundle as it was, but for what it waits for. -/
theorem waitSlot_of_next {w : SlotWord} {skip : Option Offset} {u : State}
    (run : exec w.op { waitBase t k o len w skip with issue := { (waitBase t k o len w skip).issue with slot := w.slot, out := .ok } } = .next u) :
    waitSlot exec (t.issueAt k o len) k w skip = .next ((u.setCtx k { t.ctx k with wait := (u.ctx k).wait, held := true, begun := true }).idle) := by
  show (match exec w.op { waitBase t k o len w skip with issue := { (waitBase t k o len w skip).issue with slot := w.slot, out := .ok } } with
    | .next u => .next ((u.setCtx k { t.ctx k with wait := (u.ctx k).wait, held := true, begun := true }).idle)
    | .fault f => .fault f
    | .refused r => .refused r : Out) = _
  rw [run]

end RunWords

/-- Past its bundle, a context stands where R84, its transfer and the decision of R131 leave it. -/
theorem commitCtx_results (y c : Ctx) (o : Offset) (len : Nat) (skip : Option Offset) :
    let z := commitCtx y c o len skip
    (c.sup = true → z.lc = y.lc) ∧
    (c.sup = false → ∀ n : Fin 4, (∀ m : Fin 4, n < m → AtLend y o m → y.lc[m].cnt = 1) →
      (¬ AtLend y o n → z.lc[n] = y.lc[n]) ∧ (AtLend y o n → y.lc[n].cnt = 1 → z.lc[n] = { y.lc[n] with cnt := 0 }) ∧
      (AtLend y o n → y.lc[n].cnt ≠ 1 → z.lc[n] = { y.lc[n] with cnt := y.lc[n].cnt - 1, idx := c.lc[n].idx + 1 } ∧ (∀ m < n, z.lc[m] = y.lc[m]) ∧
        (xferLeft c.xfer = 0 → z.pc = y.lc[n].beg ∧ z.seq = false))) ∧
    (xferLeft c.xfer = 0 → (c.sup = true ∨ ∀ n, AtLend y o n → y.lc[n].cnt = 1) →
      z.pc = skip.getD (o + BitVec.ofNat 24 len) ∧ z.seq = skip.isNone) := by
  intro z
  have lc : z.lc = (decided y c o).1.lc := commitCtx_lc y c o len skip
  refine ⟨fun sup => ?_, fun user n higher => ?_, fun left goesOn => ?_⟩
  · rw [lc, decided, if_pos sup]
  · have loops : decided y c o = decideLoops y c o := if_neg (by simp [user])
    obtain ⟨idle, last, again⟩ := decideLoops_loop (c := c) higher
    rw [lc, loops]
    refine ⟨idle, last, fun live more => ?_⟩
    obtain ⟨here, below, beg⟩ := again live more
    exact ⟨here, below, fun left => commitCtx_of_loop left (by rw [loops, beg])⟩
  · refine commitCtx_of_sequence left ?_
    rw [decided]
    split
    · rfl
    · rename_i user
      rw [decideLoops_eq]
      exact decideList_goes_on (by decide) fun m _ live => goesOn.elim (absurd · user) (· m live)

/-- Settles O54: the dispatch of the core, then each way a bundle can end, in the order in which `runAt` and `runWords` ask for them. -/
theorem stepRunsTheDecodedBundle : Obligations.StepRunsTheDecodedBundle := by
  unfold Obligations.StepRunsTheDecodedBundle
  intro s core k h goes agenda puts next idle noResult picks dog o len at_ c t d issued l ws stepsTo traps full pending noDelay moved
  have turn : Turn s core k := ⟨goes, agenda, puts, next, idle, noResult, picks⟩
  have steps {u : State} (run : runBundle exec { s with nextCore := core.val + 1 } k = .next u) : stepsTo u := step_of_turn turn run
  have fetch : State.fetchAt { s with nextCore := core.val + 1 } k = o := fetchAt_nextCore s _ k
  have dog' : State.watchdogDue { s with nextCore := core.val + 1 } k = false := dog
  have miss := runBundle_of_miss dog'
  have zero := runBundle_of_zero dog'
  have header {h : Byte} := runBundle_of_header (h := h) dog'
  rw [fetch] at miss zero
  simp only [fetch] at header
  have here : Fin.ofNat 128 (coreOf k) = core := by rw [(coreOf_pickCtx picks).1, Fin.ofNat_val_eq_self]
  rw [here] at miss
  refine ⟨fun code u run => steps ((miss code).trans run), fun code => steps (zero code),
    fun code nz => ⟨fun cross => ?_, fun inLine => ?_⟩, fun y skip => ?_⟩
  · exact steps ((header code nz).trans (runAt_crossing cross))
  · have now : t.now = s.now := dispatched_now at_ k
    refine ⟨fun mask holds nonzero => ?_, fun legal => ⟨slots_of_legal legal, fun delay => ?_,
      fun allowed user mask holds nonzero => ?_, fun allowed mayRun => ?_⟩⟩
    · exact steps ((header code nz).trans (runAt_illegal inLine holds nonzero))
    · exact steps ((header code nz).trans (runAt_delay inLine legal delay))
    · exact steps ((header code nz).trans (runAt_privileged inLine legal allowed user holds nonzero))
    · have run := (header code nz).trans (runAt_allowed inLine legal allowed mayRun)
      refine ⟨fun waits => steps (run.trans (if_pos waits)), fun free overflow => ?_, fun free room e f early late first second => ?_⟩
      · exact steps (run.trans ((if_neg (Bool.eq_false_iff.mp free)).trans (if_pos overflow)))
      · have words := (run.trans ((if_neg (Bool.eq_false_iff.mp free)).trans (if_neg room))).trans (runWords_of_ran first (now ▸ second))
        refine ⟨fun none => ?_, fun u cause fa info mask trap lowest holds => ?_, fun _ waits w u found again => ?_⟩
        · rw [show early ++ late = [] from none, endOfWords_nil] at words
          exact steps words
        · have once := nodup_stops (slots_decodedOf legal ▸ nodup_headerSlots h) first second
          exact steps (words.trans (endOfWords_trap f (firstTrap_of_lowest once trap lowest holds)))
        · exact steps (words.trans ((endOfWords_wait f (firstTrap_of_waiting waits) found).trans (waitSlot_of_next again)))
  · intro z live next
    obtain ⟨sup, user, left⟩ := commitCtx_results y c o len skip
    exact ⟨sup, user, left, commitCtx_of_last_delay, commitCtx_of_delay⟩

end Sys2Proof.Proofs

namespace Sys2Proof.Proofs
open Sys2Proof Sys2Proof.Machine Sys2Proof.Safety Sys2Proof.Laws

/-! ### The integer operations on words (R150) -/

/-- The high half of a signed product, taken at 128 bits. -/
theorem signed_product_high (u v : Word) : BitVec.ofInt 64 (u.toInt * v.toInt / 2 ^ 64) = (u.signExtend 128 * v.signExtend 128).extractLsb' 64 64 := by
  have wide : u.signExtend 128 * v.signExtend 128 = BitVec.ofInt 128 (u.toInt * v.toInt) := by
    rw [BitVec.signExtend, BitVec.signExtend, ← BitVec.ofInt_mul]
  apply BitVec.eq_of_toNat_eq
  rw [wide, BitVec.extractLsb'_toNat, BitVec.toNat_ofInt, BitVec.toNat_ofInt, Nat.shiftRight_eq_div_pow]
  omega

/-- The high half of an unsigned product, taken at 128 bits. -/
theorem unsigned_product_high (u v : Word) : BitVec.ofNat 64 (u.toNat * v.toNat / 2 ^ 64) = (u.setWidth 128 * v.setWidth 128).extractLsb' 64 64 := by
  have small : u.toNat * v.toNat < 2 ^ 128 := by
    calc u.toNat * v.toNat < 2 ^ 64 * 2 ^ 64 := Nat.mul_lt_mul'' u.isLt v.isLt
      _ = 2 ^ 128 := by norm_num
  apply BitVec.eq_of_toNat_eq
  rw [BitVec.extractLsb'_toNat, BitVec.toNat_mul, BitVec.toNat_setWidth, BitVec.toNat_setWidth, BitVec.toNat_ofNat, Nat.shiftRight_eq_div_pow,
    Nat.mod_eq_of_lt (show u.toNat < 2 ^ 128 by omega), Nat.mod_eq_of_lt (show v.toNat < 2 ^ 128 by omega), Nat.mod_eq_of_lt small]

/-- The shift count of R150: the low six bits. -/
theorem shiftCount_eq (v : Word) : bitsOf v 5 0 = v.toNat % 64 := by simp [bitsOf]

theorem shiftLeft_eq_mul (u : Word) (n : Nat) : u <<< n = BitVec.ofNat 64 (u.toNat * 2 ^ n) := by
  apply BitVec.eq_of_toNat_eq
  rw [BitVec.toNat_shiftLeft, BitVec.toNat_ofNat, Nat.shiftLeft_eq]

theorem shiftRight_eq_div (u : Word) (n : Nat) : u >>> n = BitVec.ofNat 64 (u.toNat / 2 ^ n) := by
  apply BitVec.eq_of_toNat_eq
  rw [BitVec.toNat_ushiftRight, BitVec.toNat_ofNat, Nat.shiftRight_eq_div_pow, Nat.mod_eq_of_lt (lt_of_le_of_lt (Nat.div_le_self _ _) u.isLt)]

theorem sshiftRight_eq_div (u : Word) (n : Nat) : u.sshiftRight n = BitVec.ofInt 64 (u.toInt / 2 ^ n) := by
  rw [BitVec.sshiftRight, Int.shiftRight_eq_div_pow]
  norm_cast

theorem rotateLeft_of_lt (u : Word) {n : Nat} (h : n < 64) : u.rotateLeft n = u <<< n ||| u >>> (64 - n) := BitVec.rotateLeft_def.trans (by rw [Nat.mod_eq_of_lt h])

theorem min_signed (u v : Word) : (if u.toInt ≤ v.toInt then u else v) = BitVec.ofInt 64 (min u.toInt v.toInt) := by
  rw [min_def]; split <;> exact (BitVec.ofInt_toInt).symm

theorem max_signed (u v : Word) : (if u.toInt ≤ v.toInt then v else u) = BitVec.ofInt 64 (max u.toInt v.toInt) := by
  rw [max_def]; split <;> exact (BitVec.ofInt_toInt).symm

theorem min_unsigned (u v : Word) : (if u.toNat ≤ v.toNat then u else v) = BitVec.ofNat 64 (min u.toNat v.toNat) := by
  rw [min_def]; split <;> simp

theorem max_unsigned (u v : Word) : (if u.toNat ≤ v.toNat then v else u) = BitVec.ofNat 64 (max u.toNat v.toNat) := by
  rw [max_def]; split <;> simp

theorem shladd_eq (u v : Word) (n : Nat) : (u <<< n) + v = BitVec.ofNat 64 (u.toNat * 2 ^ n + v.toNat) := by
  rw [BitVec.ofNat_add, shiftLeft_eq_mul, BitVec.ofNat_toNat, BitVec.setWidth_eq]

/-- A ready operation of two scalars, its result said in another way. -/
theorem bin_of_ready_eq {s : State} {d a b : Fin 64} (ready : Ready s [.s a, .s b] [.s d]) {f : Word → Word → Word} {x : Word} (h : f (srcS s a) (srcS s b) = x) :
    s.bin d a b f = .next (putS s d x) := h ▸ bin_of_ready ready f

/-- Settles O1: the operations that the model takes on words as R150 does, then those whose words R150 gives as numbers. -/
theorem scalarIntegerResults : Obligations.ScalarIntegerResults := by
  unfold Obligations.ScalarIntegerResults
  intro s d a b x sh ready u v n
  have count : n = v.toNat % 64 := shiftCount_eq v
  have word {f : Word → Word → Word} {x : Word} (h : f u v = x) : s.bin d a b f = .next (putS s d x) := bin_of_ready_eq ready h
  refine ⟨word rfl, word rfl, word rfl, show execMulh d a b s = _ from word (signed_product_high u v), show execMulhu d a b s = _ from word (unsigned_product_high u v),
    word rfl, word rfl, word rfl, show execAndn d a b s = _ from word rfl, show execShl d a b s = _ from word (count ▸ shiftLeft_eq_mul u _),
    show execShr d a b s = _ from word (count ▸ shiftRight_eq_div u _), show execSra d a b s = _ from word (count ▸ sshiftRight_eq_div u _),
    show execRotl d a b s = _ from word (count ▸ rotateLeft_of_lt u (Nat.mod_lt _ (by decide))), show execMin d a b s = _ from word (min_signed u v),
    show execMax d a b s = _ from word (max_signed u v), show execMinu d a b s = _ from word (min_unsigned u v), show execMaxu d a b s = _ from word (max_unsigned u v),
    show execShladd d a b sh s = _ from word (shladd_eq u v sh.val), fun more => ?_⟩
  exact slotS_of_ready (Ready.mono (Ready.append ready more) (by simp) (by simp)) _

end Sys2Proof.Proofs

namespace Sys2Proof.Proofs
open Sys2Proof Sys2Proof.Machine Sys2Proof.Safety Sys2Proof.Laws

/-! ### Rows of a vector register -/

/-- The j-th of the fields of `n` bytes packed one after the other, zero past the last. -/
theorem packed_field (n : Nat) (l : List Nat) (small : ∀ x ∈ l, x < 256 ^ n) (j : Nat) :
    pack (l.map fun x => (n, x)) / 256 ^ (n * j) % 256 ^ n = l.getD j 0 := by
  induction l generalizing j with
  | nil => simp [pack]
  | cons x t ih =>
    have low : x < 256 ^ n := small x (by simp)
    rw [List.map_cons, pack, Nat.mod_eq_of_lt low]
    cases j with
    | zero => rw [Nat.mul_zero, Nat.pow_zero, Nat.div_one, Nat.add_mul_mod_self_left, List.getD_cons_zero, Nat.mod_eq_of_lt low]
    | succ j =>
      rw [List.getD_cons_succ, ← ih (fun y h => small y (by simp [h])) j, Nat.mul_succ, Nat.add_comm (n * j), Nat.pow_add, ← Nat.div_div_eq_div_mul,
        Nat.add_mul_div_left _ _ (by positivity), Nat.div_eq_of_lt low, Nat.zero_add]

/-- The j-th of the words of `n` bytes packed one after the other. -/
theorem packed_word (n : Nat) (l : List (BitVec (8 * n))) (j : Nat) :
    pack (l.map fun r => (n, r.toNat)) / 2 ^ (8 * n * j) % 2 ^ (8 * n) = (l.getD j 0).toNat := by
  have base (k : Nat) : 2 ^ (8 * k) = 256 ^ k := by rw [Nat.pow_mul]
  have fits : ∀ x ∈ l.map BitVec.toNat, x < 256 ^ n := by
    simp only [List.mem_map, forall_exists_index, and_imp, forall_apply_eq_imp_iff₂]
    intro r _
    rw [← base]
    exact r.isLt
  have key := packed_field n (l.map BitVec.toNat) fits j
  rw [List.map_map, ← base, ← base, ← Nat.mul_assoc] at key
  refine key.trans ?_
  rw [List.getD_eq_getElem?_getD, List.getElem?_map, List.getD_eq_getElem?_getD]
  cases l[j]? <;> simp

/-- Row j of the register that holds some rows. -/
theorem vrow_vregOf (l : List Row) {j : Nat} (h : j < 8) : vrow (vregOf l) j = l.getD j 0 := by
  apply BitVec.eq_of_toNat_eq
  rw [vrow, vregOf, BitVec.extractLsb'_toNat, BitVec.toNat_ofNat, Nat.shiftRight_eq_div_pow, ← packed_word 256 l j]
  apply Nat.eq_of_testBit_eq
  intro i
  simp only [Nat.testBit_mod_two_pow, Nat.testBit_div_two_pow]
  by_cases inside : i < 2048
  · simp [inside, show i + 2048 * j < 16384 by omega]
  · simp [inside]

/-! ### Results in flight (R116) -/

theorem expect_inflight (c : Ctx) (l : Landing) : (c.expect l).inflight = c.inflight ++ [l] := by
  unfold Ctx.expect
  cases l.dst with
  | s r => dsimp only; split <;> rfl
  | v _ | p _ | c _ | bt _ | lc _ _ | sys _ => rfl

/-- A vector register that awaits a result is empty. -/
theorem emptyReg_expect (c : Ctx) {l : Landing} {d : Fin 256} (dst : l.dst = .v d) : (c.expect l).emptyReg (.v d) = true := by
  simp [Ctx.expect, dst, Ctx.emptyReg]

/-- The notes of the accesses, for retention, change nothing else. -/
theorem touchAll_eq (l : List Nat) (s : State) : ∃ x, s.touchAll l = { s with touched := x } := by
  induction l generalizing s with
  | nil => exact ⟨s.touched, rfl⟩
  | cons a t ih =>
    obtain ⟨x, e⟩ := ih (s.touch a)
    exact ⟨x, e⟩

/-- A load of rows: their accesses are noted, and its result is in flight. -/
theorem produce_touchAll (s : State) (addrs : List Nat) (d : Dst) (value : Option VReg) (poison : Option Nat) (lat : Nat) :
    let t := ((s.touchAll addrs).produce d value poison lat).2
    ∃ l, l.dst = d ∧ l.value = value ∧ l.poison = poison ∧ t.me = s.me.expect l ∧ SameMem s t ∧ SameOthers s t s.issue.key := by
  obtain ⟨x, touched⟩ := touchAll_eq addrs s
  rw [touched]
  refine ⟨_, rfl, rfl, rfl, me_own _ _, ⟨fun _ => rfl, fun _ => rfl⟩, fun k other => ctx_own_ne _ _ other⟩

/-! ### Loads (R116, R267) -/

/-- An access that nothing holds traps at an address outside the windows. -/
theorem pathC_of_range {s : State} {l : List Nat} {x : Nat} (clear : Clear s 0) (outside : s.resolve s.issue.src.part.toNat (quadOf s.issue.key) l = .range x)
    (f : List Nat → State → State) : s.pathC l f = s.trapSlot cLocalRange (BitVec.ofNat 64 x) 0 := by
  obtain ⟨unfenced, unpushed⟩ := clear
  have unheld : (decide (s.issue.slot = .mem) && s.pushing || s.fenced 0) = false := by simpa [unfenced] using unpushed
  simp only [State.pathC, unheld, outside, Bool.false_eq_true, if_false]

/-- What a load puts in flight, and what it leaves. -/
theorem loadV_of_reaches {s : State} {l addrs : List Nat} (d : Fin 256) (reaches : Reaches s l addrs) : let t := s.loadV d l
    ∃ x v, t.me.inflight = s.me.inflight ++ [x] ∧ x.dst = .v d ∧ x.value = some v ∧ t.me.emptyReg (.v d) = true ∧
      x.poison = addrs.findSome? (fun a => (s.loadRow a).2) ∧ (∀ j < 8, vrow v j = if j < addrs.length then (s.loadRow (addrs.getD j 0)).1 else 0) ∧
      SameMem s t ∧ SameOthers s t s.issue.key := by
  intro t
  have run : t = ((s.touchAll addrs).produce (.v d) (some (vregOf ((addrs.map s.loadRow).map (·.1)))) ((addrs.map s.loadRow).findSome? (·.2))
    ((addrs.map (loadLatency s.issue.key)).foldl max 0)).2 := pathC_of_reaches reaches _
  obtain ⟨x, dst, value, poison, me, mem, others⟩ := produce_touchAll s addrs (.v d) (some (vregOf ((addrs.map s.loadRow).map (·.1))))
    ((addrs.map s.loadRow).findSome? (·.2)) ((addrs.map (loadLatency s.issue.key)).foldl max 0)
  rw [← run] at me mem others
  refine ⟨x, _, by rw [me, expect_inflight], dst, value, by rw [me, emptyReg_expect _ dst], by rw [poison, List.findSome?_map]; rfl, fun j low => ?_, mem, others⟩
  rw [vrow_vregOf _ low, List.map_map]
  split
  · rename_i short
    simp [short]
  · rename_i long
    simp [Nat.not_lt.1 long]

/-- The row of one word. -/
theorem plainRows_one (x : Nat) : plainRows x 1 = [rowOf x % 2 ^ 40] := by simp [plainRows]

/-- Settles O28: each load is `loadV` on the rows that it addresses. -/
theorem loadResults : Obligations.LoadResults := by
  unfold Obligations.LoadResults
  intro s d b e a c n1 k addrs ready loads u
  have loading {i : Instr} {rows : List Nat} (run : exec i s = .next (s.loadV d rows)) : loads i rows := by
    refine ⟨fun reaches => ?_, fun x clear outside => ?_⟩
    · obtain ⟨l, v, results⟩ := loadV_of_reaches d reaches
      exact ⟨_, l, v, run, results⟩
    · rw [run, State.loadV, pathC_of_range clear outside]
  have sources {l : List Dst} {f : Ctx → State → State} (src : ∀ r ∈ l, r ∈ [Dst.s a, .s (pairReg a), .s c, .v b]) : s.slot l [.v d] f = f s.issue.src s :=
    slot_of_ready (Ready.mono ready src (by simp)) f
  refine ⟨loading ?_, loading ?_, loading ?_, fun x reaches => ?_, fun x bare => ?_⟩
  · exact congrArg Host.Outcome.next (sources (by simp))
  · exact congrArg Host.Outcome.next (sources (by simp))
  · exact congrArg Host.Outcome.next (sources (by simp))
  · obtain ⟨l, dst, value, poison, me, mem, others⟩ := produce_touchAll s [x] (.s e) (some (BitVec.ofNat 16384 (nbytes (s.loadRow x).1.toNat (8 * k.val) 8)))
      (s.loadRow x).2 (loadLatency s.issue.key x)
    refine ⟨_, l, ?_, by rw [me, expect_inflight], dst, value, poison, mem⟩
    change Host.Outcome.next (s.slot [.s a] [.s e] _) = _
    rw [slot_of_ready (Ready.mono ready (by simp) (by simp)), plainRows_one]
    exact congrArg Host.Outcome.next (pathC_of_reaches reaches _)
  · simp [State.loadRow, bare]

end Sys2Proof.Proofs

namespace Sys2Proof.Proofs
open Sys2Proof Sys2Proof.Machine Sys2Proof.Safety Sys2Proof.Laws

/-! ### ERET (R146, R395) -/

/-- Two changes of the context under way that agree on what it holds agree. -/
theorem own_congr {s : State} {f g : Ctx → Ctx} (h : f s.me = g s.me) : s.own f = s.own g := congrArg (s.setCtx s.issue.key) h

/-- The state that ERET leaves supervisor mode with. -/
def leaveSuper (s : State) : State := s.own fun c => { c with sup := false, watch := s.now, seq := false }

/-- In supervisor mode ERET acts on what the trap saved. -/
theorem eret_of_super {s : State} (super : s.issue.src.sup = true) : exec .eret s = .next (s.trapReturn s.issue.key) := by
  change Host.Outcome.next (s.privileged _) = _
  rw [State.privileged, if_pos super, slot_of_ready (ready_nil s)]

theorem eret_of_user {s : State} (user : s.issue.src.sup = false) : exec .eret s = .next (s.trapSlot cPriv 0 0) := by
  change Host.Outcome.next (s.privileged _) = _
  rw [State.privileged, if_neg (by simp [user])]

/-- ACTION 0, unless the last delay bundle of a taken transfer has committed: the task goes on at EPC. -/
theorem trapReturn_of_resume {s : State} (resume : nbits s.me.estat.toNat 25 24 = 0)
    (midway : ¬ (xferLeft s.me.exfer = 0 ∧ xferTaken s.me.exfer = true)) :
    s.trapReturn s.issue.key = (leaveSuper s).own fun c => { c with xfer := s.me.exfer, pc := s.me.epc } := by
  have inside : (decide (xferLeft s.me.exfer = 0) && xferTaken s.me.exfer) = false := by simpa using midway
  have saved : s.trapReturn s.issue.key = (leaveSuper s).own fun c => { c with xfer := c.exfer, pc := c.epc } :=
    (if_pos resume).trans (if_neg (ne_true_of_eq_false inside))
  have left : (leaveSuper s).me = { s.me with sup := false, watch := s.now, seq := false } := me_own s _
  rw [saved]
  exact own_congr (by rw [left])

/-- ACTION 1 outside a team restarts the task. -/
theorem trapReturn_of_restart {s : State} (restart : nbits s.me.estat.toNat 25 24 = 1) (alone : s.me.logical = 0xFF) :
    s.trapReturn s.issue.key = (leaveSuper s).restartTask s.issue.key :=
  (if_neg (ne_of_eq_of_ne restart (by decide))).trans (if_pos ⟨restart, alone⟩)

/-- Any other ACTION abandons the task, with its cause as INFO. -/
theorem trapReturn_of_abandon {s : State} (leaves : nbits s.me.estat.toNat 25 24 ≠ 0) (lost : ¬ (nbits s.me.estat.toNat 25 24 = 1 ∧ s.me.logical = 0xFF)) :
    s.trapReturn s.issue.key = (leaveSuper s).abandon s.issue.key (nbits s.me.estat.toNat 7 0) :=
  (if_neg leaves).trans (if_neg lost)

/-- A restart of a task without a journal takes the retained continuation of its context. -/
theorem restartTask_of_retained {s : State} {key : Nat} {r : ContRec} (bare : s.journal? (s.ctx key).ticket = none) (kept : (s.ctx key).retained = some r) :
    s.restartTask key = (((s.undo (s.ctx key).ticket).countRestart (s.ctx key).job.toNat).carry key true).startRec key (restartRec r) (s.ctx key).taskIndex
      (s.ctx key).part.toNat (s.ctx key).prio.toNat (s.ctx key).vregs (s.ctx key).logical.toNat := by
  simp only [State.restartTask, bare, kept, Option.bind_none, Option.orElse_none]

/-- Settles O16: by ESTAT.ACTION. -/
theorem eretResults : Obligations.EretResults := by
  unfold Obligations.EretResults
  intro s _ action u
  refine ⟨fun super => ⟨fun resume midway => ?_, fun restart alone r bare kept => ?_, fun leaves => ?_⟩, eret_of_user⟩
  · rw [eret_of_super super, trapReturn_of_resume resume midway]
    rfl
  · have left : (leaveSuper s).ctx s.issue.key = { s.me with sup := false, watch := s.now, seq := false } := me_own s _
    rw [eret_of_super super, trapReturn_of_restart restart alone, restartTask_of_retained (r := r) (by rw [left]; exact bare) (by rw [left]; exact kept), left]
    rfl
  · rw [eret_of_super super, trapReturn_of_abandon]
    · rfl
    · change action ≠ 0
      omega
    · rintro ⟨one, alone⟩
      obtain high | ⟨_, team⟩ := leaves
      · change action = 1 at one
        omega
      · exact team alone

end Sys2Proof.Proofs

namespace Sys2Proof.Proofs
open Sys2Proof Sys2Proof.Machine Sys2Proof.Safety Sys2Proof.Laws

/-! ### SPAWN (R140) -/

/-- A core that has stamped no ticket in this tick stamps one. -/
theorem stampCore_of_unstamped {s : State} {i prio : Nat} (unstamped : (s.core i).lastStamp ≠ some s.tbase.toNat) :
    s.stampCore i prio = some (ticketOf prio s.tbase i, s.modCore i fun c => { c with lastStamp := some s.tbase.toNat }) := if_neg unstamped

/-- A record without HOLDS goes to the end of its task queue, with no journal's quad. -/
theorem pushRec_of_bare {s : State} {part : Nat} {r : ContRec} (bare : r.cflags.getLsbD 0 = false) :
    (s.pushRec part r).taskQueues = tset s.taskQueues (queueKey part (prioOf r.ticket)) (tgetD s.taskQueues (queueKey part (prioOf r.ticket)) [] ++ [(r, none)]) := by
  simp only [State.pushRec, bare, Bool.false_eq_true, if_false]
  rfl

/-- The child of a SPAWN whose image lies at a task's address, in the row at `addr`. -/
def spawnChild (s : State) (a : Fin 64) (addr : Nat) : ContRec :=
  childRec s.issue.src (nbytes (s.loadRow addr).1.toNat (64 * ((srcS s a).toNat % 2 ^ 40 / 64 % 4)) 64)
    (ticketOf s.issue.src.prio.toNat s.tbase (coreOf s.issue.key)) (s.issue.src.wexp + 1)

/-- The state after a SPAWN that nothing stops. -/
def spawned (s : State) (a : Fin 64) (addr : Nat) : State :=
  ((((s.touch addr).modCore (coreOf s.issue.key) fun c => { c with lastStamp := some s.tbase.toNat }).pushRec s.issue.src.part.toNat (spawnChild s a addr)).modJob
    s.issue.src.job.toNat fun x => { x with spawns := (x.spawns + 1) % 2 ^ 32 }).own fun x =>
      { x with wexp := s.issue.src.wexp + 1, retained := x.retained.map fun r => { r with wexp := s.issue.src.wexp + 1 } }

section
variable {s : State} {a : Fin 64} {addr : Nat} (ready : Ready s [.s a] []) (user : s.issue.src.sup = false)
  (reaches : Reaches s [rowOf ((srcS s a).toNat % 2 ^ 40)] [addr])
include ready user reaches

/-- A handler and a task of WEXP 63 have no room for a child. -/
theorem spawn_of_deep (deep : s.issue.src.cflags.getLsbD 2 = true ∨ s.me.wexp = 63) : exec (.spawn a) s = .next (s.trapSlot cSpawnDepth 0 0) := by
  change Host.Outcome.next _ = _
  rw [taskControl_of_user user, slot_of_ready ready]
  refine congrArg Host.Outcome.next ((pathC_of_reaches reaches _).trans ?_)
  by_cases handler : s.issue.src.cflags.getLsbD 2 = true
  · exact if_pos handler
  · exact (if_neg handler).trans (if_pos (deep.resolve_left handler))

theorem spawn_of_room (task : s.issue.src.cflags.getLsbD 2 = false) (room : s.me.wexp ≠ 63) (clean : (s.loadRow addr).2 = none)
    (bare : s.journal? s.issue.src.ticket = none) (unstamped : (s.core (coreOf s.issue.key)).lastStamp ≠ some s.tbase.toNat) :
    exec (.spawn a) s = .next (spawned s a addr) := by
  change Host.Outcome.next _ = _
  rw [taskControl_of_user user, slot_of_ready ready]
  refine congrArg Host.Outcome.next ((pathC_of_reaches reaches _).trans ?_)
  refine (if_neg (ne_true_of_eq_false task)).trans ((if_neg room).trans ?_)
  have stamp := stampCore_of_unstamped (s := s.touch addr) (prio := s.issue.src.prio.toNat) unstamped
  simp only [List.headD_cons, rowValue_of_clean clean, stamp, holdsAny_of_bare bare, Bool.false_eq_true, if_false]
  rfl
end

theorem spawned_wexp (s : State) (a : Fin 64) (addr : Nat) : (spawned s a addr).me.wexp = s.issue.src.wexp + 1 := by simp [spawned]

theorem spawned_taskQueues (s : State) (a : Fin 64) (addr : Nat) :
    (spawned s a addr).taskQueues = tset s.taskQueues (queueKey s.issue.src.part.toNat (prioOf (spawnChild s a addr).ticket))
      (tgetD s.taskQueues (queueKey s.issue.src.part.toNat (prioOf (spawnChild s a addr).ticket)) [] ++ [(spawnChild s a addr, none)]) :=
  (sameTasks_modJob _ _ _).taskQueues.trans (pushRec_of_bare (by simp [spawnChild, childRec]))

theorem spawned_mem (s : State) (a : Fin 64) (addr : Nat) : (spawned s a addr).mem = s.mem := modJob_mem _ _ _

/-- Settles O12. -/
theorem spawnResults : Obligations.SpawnResults := by
  unfold Obligations.SpawnResults
  intro s a addr ready user reaches
  exact ⟨spawn_of_deep ready user reaches, fun task room clean bare unstamped =>
    ⟨spawned s a addr, spawn_of_room ready user reaches task room clean bare unstamped, spawned_wexp s a addr, spawned_taskQueues s a addr, spawned_mem s a addr⟩⟩

end Sys2Proof.Proofs

namespace Sys2Proof.Proofs
open Sys2Proof Sys2Proof.Machine Sys2Proof.Safety Sys2Proof.Laws

/-! ### WAITA (R141, R332, R333) -/

/-- Whether s1 to s6 of a context are full. -/
def filled (c : Ctx) : Bool := (List.range 6).all fun i => c.sFull.getLsbD (i + 1)

/-- A sleeping task that cannot be written out yet stays as it is. -/
theorem sleepOut_of_stays {s : State} {key : Nat} (stays : ¬ ((s.ctx key).logical = 0xFF ∧ filled (s.ctx key) = true)) : s.sleepOut key = s := by
  have test : (decide ((s.ctx key).logical = 0xFF) && filled (s.ctx key)) = false := by simpa using stays
  exact if_neg (ne_true_of_eq_false test)

/-- An entry of the monitor table, once the task of context `key` in it is written out. -/
def sleptOut (s : State) (key : Nat) (e : MonEntry) : MonEntry :=
  if e.ctxKey = some key then { e with ctxKey := none, record := some ((s.ctx key).record (s.ctx key).pc) } else e

/-- A quad once the task of context `key` is written out into its entries. -/
def sleptOutOf (s : State) (key : Nat) (q : Quad) : Quad := { q with monitor := q.monitor.map (sleptOut s key) }

/-- A sleeping task whose s1 to s6 are full leaves its context, written out into its entry. -/
theorem sleepOut_of_full {s : State} {key : Nat} (alone : (s.ctx key).logical = 0xFF) (full : filled (s.ctx key) = true) : let t := s.sleepOut key
    (t.ctx key).life = .free ∧ (t.quad (quadOf key)).monitor = (s.quad (quadOf key)).monitor.map (sleptOut s key) ∧ t.mem = s.mem ∧ t.issue = s.issue := by
  intro t
  have test : (decide ((s.ctx key).logical = 0xFF) && filled (s.ctx key)) = true := by simp [alone, full]
  have run : t = ((s.modQuad (quadOf key) (sleptOutOf s key)).carry key false).leaveCtx key := if_pos test
  rw [run, State.leaveCtx]
  generalize marked : (s.modQuad (quadOf key) (sleptOutOf s key)).carry key false = u
  have quad : u.quad (quadOf key) = sleptOutOf s key (s.quad (quadOf key)) := by
    rw [← marked]
    exact quad_modQuad_same s (quadOf key) (sleptOutOf s key)
  have mem : u.mem = s.mem := by rw [← marked]; rfl
  have issue : u.issue = s.issue := by rw [← marked]; rfl
  have unarmed : ((u.modCtx key fun c => { c with armed := none }).ctx key).armed = none := by simp
  have freed : (u.modCtx key fun c => { c with armed := none }).freeCtx key =
      (u.modCtx key fun c => { c with armed := none }).setCtx key
        { (u.modCtx key fun c => { c with armed := none }).ctx key with
          wait := .none, inflight := [], fixed := [], outstanding := [], fences := [], sets := [], sup := false, retained := none, xfer := 0,
          lc := Vector.replicate 4 ⟨0, 0, 0, 0⟩, stopReq := false, begun := false, life := .free } := by
    simp only [State.freeCtx, unarmed]
  rw [freed]
  exact ⟨by simp, congrArg Quad.monitor quad, mem, issue⟩

/-- The entry that a task which waits for a word takes in its quad's monitor table. -/
def monEntry (s : State) (addr : Nat) (val : Word) (mode : Fin 4) : MonEntry :=
  ⟨s.nextId, addr, val, mode, some s.issue.key, none, s.me.part, s.me.prio, 0, 0⟩

/-- A context that waits for a word, and goes on at `o` unless it runs a team. -/
def awaiting (s : State) (addr : Nat) (val : Word) (mode : Fin 4) (o : Offset) (x : Ctx) : Ctx :=
  { x with wait := .word none addr val mode, pc := if s.inTeam then x.pc else o }

/-- A quad with one more entry in its monitor table. -/
def withEntry (e : MonEntry) (q : Quad) : Quad := { q with monitor := q.monitor ++ [e] }

/-- A context whose WAITA has failed, listed in the monitor table and not written out yet. -/
def waitListed (s : State) (addr : Nat) (val : Word) (mode : Fin 4) (o : Offset) : State :=
  ((({ s with nextId := s.nextId + 1 } : State).own (awaiting s addr val mode o)).modQuad (quadOf s.issue.key) (withEntry (monEntry s addr val mode))).showMonitor
    (quadOf s.issue.key)

theorem waitListed_me (s : State) (addr : Nat) (val : Word) (mode : Fin 4) (o : Offset) : (waitListed s addr val mode o).me = awaiting s addr val mode o s.me :=
  me_own { s with nextId := s.nextId + 1 } (awaiting s addr val mode o)

theorem waitListed_monitor (s : State) (addr : Nat) (val : Word) (mode : Fin 4) (o : Offset) :
    ((waitListed s addr val mode o).quad (quadOf s.issue.key)).monitor = (s.quad (quadOf s.issue.key)).monitor ++ [monEntry s addr val mode] :=
  congrArg Quad.monitor (quad_modQuad_same (({ s with nextId := s.nextId + 1 } : State).own (awaiting s addr val mode o)) (quadOf s.issue.key)
    (withEntry (monEntry s addr val mode)))

/-- On a table with room the context is listed, and written out when it can be; the retest that its own store may ask for comes after. -/
theorem sleep_of_room {s : State} (addr : Nat) (val : Word) (mode : Fin 4) (o : Offset) (room : (s.quad (quadOf s.issue.key)).monitor.length < 64) :
    let t := s.sleep addr val mode o
    let u := (waitListed s addr val mode o).sleepOut s.issue.key
    t.ctxs = u.ctxs ∧ t.quads = u.quads ∧ t.mem = u.mem ∧ t.issue = u.issue := by
  intro t u
  have run : t = if u.mem.row (rowOf addr) = u.issue.mem.row (rowOf addr) then u else u.first [.monitorRetest (Fin.ofNat 32 (quadOf s.issue.key)) s.nextId] :=
    if_pos room
  rw [run]
  clear_value u
  split <;> simp

/-- On a full table it waits in place, and MONSTAT counts it. -/
theorem sleep_of_full {s : State} (addr : Nat) (val : Word) (mode : Fin 4) (o : Offset) (full : 64 ≤ (s.quad (quadOf s.issue.key)).monitor.length) :
    s.sleep addr val mode o = (s.count .monstat (quadOf s.issue.key) 63 32 1).own fun x =>
      { x with wait := .word (some (s.now + s.pollGap (quadOf s.issue.key))) addr val mode } := if_neg (Nat.not_lt.2 full)

/-- Noting an access leaves the code of every context. -/
theorem sameCode_touch (s : State) (addr key : Nat) : SameCode s (s.touch addr) key := ⟨rfl, rfl, rfl, rfl⟩

section
variable {s : State} {a b : Fin 64} {mode : Fin 4} {addr : Nat} (ready : Ready s [.s a, .s b] []) (user : s.issue.src.sup = false)
  (reaches : Reaches s [rowOf ((srcS s a).toNat % 2 ^ 40)] [addr]) (clean : (s.loadRow addr).2 = none)

/-- The word that a WAITA reads. -/
def awaited (s : State) (a : Fin 64) (addr : Nat) : Word :=
  BitVec.ofNat 64 (nbytes (s.loadRow addr).1.toNat (8 * ((srcS s a).toNat % 2 ^ 40 / 8 % 32)) 8)

/-- Where that word lies. -/
def awaitedAt (s : State) (a : Fin 64) (addr : Nat) : Nat := localKey addr + 8 * ((srcS s a).toNat % 2 ^ 40 / 8 % 32)

include ready user reaches clean

/-- A WAITA reads its word, and then its test decides. -/
theorem waita_eq : exec (.waita a b mode) s = .next (let u := s.touch addr
    if waitTest (awaited s a addr) (srcS s b) mode then u
    else if u.inTeam || decide (64 ≤ (u.quad (quadOf u.issue.key)).monitor.length) then u.sleep (awaitedAt s a addr) (srcS s b) mode 0
    else match u.nextSeqLen u.issue.key u.issue.pc u.issue.len with
      | .miss p => u.waitPage p
      | .found o => u.sleep (awaitedAt s a addr) (srcS s b) mode o) := by
  change Host.Outcome.next _ = _
  rw [taskControl_of_user user, slot_of_ready ready]
  refine congrArg Host.Outcome.next ((pathC_of_reaches reaches _).trans ?_)
  simp only [List.headD_cons, rowValue_of_clean clean]
  rfl

theorem waita_of_pass (pass : waitTest (awaited s a addr) (srcS s b) mode = true) : exec (.waita a b mode) s = .next (s.touch addr) := by
  rw [waita_eq ready user reaches clean]
  exact congrArg Host.Outcome.next (if_pos pass)

/-- A WAITA whose test fails sleeps; a task other than a team's goes on after the bundle. -/
theorem waita_of_fail {o : Offset} (fail : waitTest (awaited s a addr) (srcS s b) mode = false) (next : NextAt s o) :
    ∃ o', (s.inTeam = false → (s.quad (quadOf s.issue.key)).monitor.length < 64 → o' = o) ∧
      exec (.waita a b mode) s = .next ((s.touch addr).sleep (awaitedAt s a addr) (srcS s b) mode o') := by
  rw [waita_eq ready user reaches clean]
  have code : (s.touch addr).nextSeqLen s.issue.key s.issue.pc s.issue.len = .found o := ((sameCode_touch s addr _).nextSeqLen _ _).trans next
  by_cases stays : (s.inTeam || decide (64 ≤ (s.quad (quadOf s.issue.key)).monitor.length)) = true
  · refine ⟨0, fun alone room => ?_, congrArg Host.Outcome.next ((if_neg (ne_true_of_eq_false fail)).trans (if_pos stays))⟩
    simp [alone, Nat.not_le.2 room] at stays
  · refine ⟨o, fun _ _ => rfl, congrArg Host.Outcome.next ((if_neg (ne_true_of_eq_false fail)).trans ((if_neg stays).trans ?_))⟩
    change (match (s.touch addr).nextSeqLen s.issue.key s.issue.pc s.issue.len with | .miss p => _ | .found o => _) = _
    rw [code]

/-- On a full table the offset after the bundle is not asked for. -/
theorem waita_of_fail_full (fail : waitTest (awaited s a addr) (srcS s b) mode = false) (full : 64 ≤ (s.quad (quadOf s.issue.key)).monitor.length) :
    exec (.waita a b mode) s = .next ((s.touch addr).sleep (awaitedAt s a addr) (srcS s b) mode 0) := by
  rw [waita_eq ready user reaches clean]
  have stays : (s.inTeam || decide (64 ≤ (s.quad (quadOf s.issue.key)).monitor.length)) = true := by simp [full]
  exact congrArg Host.Outcome.next ((if_neg (ne_true_of_eq_false fail)).trans (if_pos stays))
end

/-- A listed context, written out or not: the entry that it has in the table, and what it is itself. -/
theorem slept_results {s : State} (addr : Nat) (val : Word) (mode : Fin 4) (o : Offset) (same : s.me.logical = s.issue.src.logical)
    (alone : ∀ m ∈ (s.quad (quadOf s.issue.key)).monitor, m.ctxKey ≠ some s.issue.key) : let t := (waitListed s addr val mode o).sleepOut s.issue.key
    ∃ e, (t.quad (quadOf s.issue.key)).monitor = (s.quad (quadOf s.issue.key)).monitor ++ [e] ∧
      e.addr = addr ∧ e.val = val ∧ e.mode = mode ∧ t.mem = s.mem ∧ t.issue = s.issue ∧
      (s.me.logical ≠ 0xFF → e.ctxKey = some s.issue.key ∧ e.record = none ∧ t.me.wait = .word none e.addr e.val mode ∧ t.me.pc = s.me.pc) ∧
      (s.me.logical = 0xFF → filled s.me = false → e.ctxKey = some s.issue.key ∧ e.record = none ∧ t.me.wait = .word none e.addr e.val mode ∧ t.me.pc = o) ∧
      (s.me.logical = 0xFF → filled s.me = true → e.ctxKey = none ∧ e.record = some (s.me.record o) ∧ t.me.life = .free) := by
  intro t
  have me := waitListed_me s addr val mode o
  have team : s.inTeam = decide (s.me.logical ≠ 0xFF) := by rw [State.inTeam, same]
  have ctx : (waitListed s addr val mode o).ctx s.issue.key = (waitListed s addr val mode o).me := rfl
  by_cases leaves : s.me.logical = 0xFF ∧ filled s.me = true
  · obtain ⟨deal, full⟩ := leaves
    obtain ⟨free, monitor, mem, issue⟩ := sleepOut_of_full (s := waitListed s addr val mode o) (key := s.issue.key) (by rw [ctx, me]; exact deal) (by rw [ctx, me]; exact full)
    have old : (s.quad (quadOf s.issue.key)).monitor.map (sleptOut (waitListed s addr val mode o) s.issue.key) = (s.quad (quadOf s.issue.key)).monitor :=
      (List.map_congr_left fun m h => if_neg (alone m h)).trans (List.map_id _)
    have fresh : sleptOut (waitListed s addr val mode o) s.issue.key (monEntry s addr val mode) =
        { monEntry s addr val mode with ctxKey := none, record := some (s.me.record o) } := by
      have after : (awaiting s addr val mode o s.me).pc = o := if_neg (by simp [team, deal])
      refine (if_pos rfl).trans ?_
      rw [ctx, me, after]
      rfl
    refine ⟨_, by rw [monitor, waitListed_monitor, List.map_append, old, List.map_singleton, fresh], rfl, rfl, rfl, mem, issue, fun h => absurd deal h,
      fun _ h => absurd (h.symm.trans full) (by decide), fun _ _ => ⟨rfl, rfl, ?_⟩⟩
    rw [State.me, show t.issue = s.issue from issue]
    exact free
  · have stays : t = waitListed s addr val mode o := sleepOut_of_stays (by rw [ctx, me]; exact leaves)
    rw [stays]
    refine ⟨_, waitListed_monitor s addr val mode o, rfl, rfl, rfl, rfl, rfl, fun h => ⟨rfl, rfl, by rw [me]; rfl, by rw [me]; exact if_pos (by rw [team]; exact decide_eq_true h)⟩,
      fun h _ => ⟨rfl, rfl, by rw [me]; rfl, by rw [me]; exact if_neg (by simp [team, h])⟩, fun deal full => absurd ⟨deal, full⟩ leaves⟩

/-- Settles O13. -/
theorem waitaResults : Obligations.WaitaResults := by
  unfold Obligations.WaitaResults
  intro s a b mode addr o ready user reaches clean k q w passes
  have test : passes = waitTest (awaited s a addr) (srcS s b) mode := by
    simp only [passes]
    split <;> rfl
  rw [test]
  refine ⟨fun pass => waita_of_pass ready user reaches clean pass, fun fail next room same alone => ?_, fun fail full => ?_⟩
  · obtain ⟨o', after, run⟩ := waita_of_fail ready user reaches clean fail next
    obtain ⟨ctxs, quads, mem, issue⟩ := sleep_of_room (s := s.touch addr) (awaitedAt s a addr) (srcS s b) mode o' room
    obtain ⟨e, monitor, at_, val, mode', mem', issue', team, stays, leaves⟩ :=
      slept_results (s := s.touch addr) (awaitedAt s a addr) (srcS s b) mode o' same alone
    have me : ((s.touch addr).sleep (awaitedAt s a addr) (srcS s b) mode o').me =
        ((waitListed (s.touch addr) (awaitedAt s a addr) (srcS s b) mode o').sleepOut s.issue.key).me := by
      rw [State.me, issue, ctx_of_ctxs ctxs]
      rfl
    have here (h : s.me.logical = 0xFF) : o' = o := after (by rw [State.inTeam, ← same, h]; rfl) room
    refine ⟨_, e, run, ?_, at_, val, mode', mem.trans mem', ?_, ?_, ?_⟩
    · rw [State.quad, quads]
      exact monitor
    · rw [me]
      exact team
    · intro h
      rw [me, ← here h]
      exact stays h
    · intro h
      rw [me, ← here h]
      exact leaves h
  · refine ⟨_, waita_of_fail_full ready user reaches clean fail full, ?_, ?_, ?_, ?_⟩
    all_goals rw [sleep_of_full (s := s.touch addr) (awaitedAt s a addr) (srcS s b) mode 0 full]
    · exact me_own _ _
    · rfl
    · exact fld_count_same (s.touch addr) q 32 1 (by decide) (by decide)
    · rfl

end Sys2Proof.Proofs

namespace Sys2Proof.Proofs
open Sys2Proof Sys2Proof.Machine Sys2Proof.Safety Sys2Proof.Laws

/-! ### Fields packed one after the other -/

/-- A field that follows others, where it stands. -/
theorem packed_at (l t : List (Nat × Nat)) (n v : Nat) : pack (l ++ (n, v) :: t) / 256 ^ (l.map (·.1)).sum % 256 ^ n = v % 256 ^ n := by
  induction l with
  | nil => rw [List.nil_append, List.map_nil, List.sum_nil, Nat.pow_zero, Nat.div_one, pack, Nat.add_mul_mod_self_left, Nat.mod_mod]
  | cons e l ih =>
    obtain ⟨m, w⟩ := e
    have low := Nat.mod_lt w (Nat.pow_pos (n := m) (by decide : 0 < 256))
    rw [List.cons_append, pack, List.map_cons, List.sum_cons, Nat.pow_add, ← Nat.div_div_eq_div_mul, Nat.add_mul_div_left _ _ (by positivity),
      Nat.div_eq_of_lt low, Nat.zero_add]
    exact ih

/-- Two fields of one zero byte are one of two. -/
theorem pack_zeros (t : List (Nat × Nat)) : pack ((1, 0) :: (1, 0) :: t) = pack ((2, 0) :: t) := by
  simp only [pack]
  omega

/-! ### Trap records (R391, R392) -/

/-- A local address that keeps its place in its window keeps its alignment to 128. -/
theorem reach_aligned {s : State} {part q at_ a : Nat} (reach : s.reach part q at_ = .ok a) (aligned : at_ % 128 = 0) : a % 128 = 0 := by
  have canon {b : Nat} (h : canonLocal q at_ = some b) : b % 128 = 0 := by
    unfold canonLocal at h
    simp only at h
    split_ifs at h <;> cases h <;> omega
  unfold State.reach at reach
  split at reach
  · cases reach
  · rename_i b at'
    split at reach <;> split_ifs at reach <;> cases reach <;> exact canon at'

/-- A record of 64 bytes in local memory, where the row is not poisoned: it is there, and no other byte changes. -/
theorem storeRecord_read {s : State} {a v : Nat} (small : v < 256 ^ 64) (inside : a % 256 + 64 ≤ 256) (clean : s.mem.poisoned (localKey a) = false) (z : Nat) :
    (s.storeRow (localKey (rowOf a)) (BitVec.ofNat 2048 (v * 256 ^ (a % 256))) (byteMask (a % 256) 64)).mem.read z =
      if localKey a ≤ z ∧ z < localKey a + 64 then BitVec.ofNat 8 (v / 256 ^ (z - localKey a)) else s.mem.read z := by
  have column : localKey a % 256 = a % 256 := by unfold localKey; omega
  have bytes := storeBytes_read (n := 64) v z (by omega) clean
  rw [State.storeBytes, Nat.mod_eq_of_lt small, column, rowOf_localKey] at bytes
  exact bytes

/-- What a field of a record reads, once the record's bytes stand in memory. -/
theorem readLe_of_record {m : Mem} {k : Nat} {l t : List (Nat × Nat)} {n v : Nat}
    (bytes : ∀ z, k ≤ z → z < k + 64 → m.read z = BitVec.ofNat 8 (pack (l ++ (n, v) :: t) / 256 ^ (z - k))) (inside : (l.map (·.1)).sum + n ≤ 64) :
    m.readLe (k + (l.map (·.1)).sum) n = v % 256 ^ n := by
  rw [← packed_at l t n v]
  refine readLe_of_bytes m n _ _ fun i low => ?_
  rw [bytes _ (by omega) (by omega), Nat.div_div_eq_div_mul, ← Nat.pow_add]
  congr 3
  omega

/-- The fields of the record of a trap that names no slots. -/
def trapFields (c : Ctx) (key : Nat) (cause : Cause) (double : Bool) (pc : Offset) (faddr : Word) (info : BitVec 32) (time : Word) : List (Nat × Nat) :=
  [(1, cause.toNat), (1, 0), (1, 0), (1, double.toNat + 2 * (decide (xferLeft c.xfer ≠ 0)).toNat), (3, pc.toNat), (1, c.image.toNat), (8, faddr.toNat),
    (8, c.ticket.toNat), (8, time.toNat), (4, info.toNat), (4, c.xfer.toNat), (2, c.job.toNat), (1, coreOf key), (1, key % 8), (20, 0)]

theorem trapRecord_eq (c : Ctx) (key : Nat) (cause : Cause) (double : Bool) (pc : Offset) (faddr : Word) (info : BitVec 32) (time : Word) :
    trapRecord c key cause 0 0 double pc faddr info time = pack (trapFields c key cause double pc faddr info time) := rfl

/-- What memory reads at such a record (R392). -/
theorem readLe_trapRecord {m : Mem} {k key : Nat} {c : Ctx} {cause : Cause} {double : Bool} {pc : Offset} {faddr : Word} {info : BitVec 32} {time : Word}
    (bytes : ∀ z, k ≤ z → z < k + 64 → m.read z = BitVec.ofNat 8 (trapRecord c key cause 0 0 double pc faddr info time / 256 ^ (z - k))) :
    m.readLe k 1 = cause.toNat ∧ m.readLe (k + 1) 2 = 0 ∧ m.readLe (k + 4) 3 = pc.toNat ∧ m.readLe (k + 7) 1 = c.image.toNat ∧ m.readLe (k + 8) 8 = faddr.toNat ∧
      m.readLe (k + 16) 8 = c.ticket.toNat ∧ m.readLe (k + 24) 8 = time.toNat ∧ m.readLe (k + 32) 4 = info.toNat ∧ m.readLe (k + 36) 4 = c.xfer.toNat ∧
      m.readLe (k + 40) 2 = c.job.toNat ∧ m.readLe (k + 44) 20 = 0 := by
  have field (off : Nat) (l : List (Nat × Nat)) {t : List (Nat × Nat)} {n v : Nat}
      (record : pack (trapFields c key cause double pc faddr info time) = pack (l ++ (n, v) :: t)) (at_ : (l.map (·.1)).sum = off) (inside : off + n ≤ 64)
      (small : v < 256 ^ n) : m.readLe (k + off) n = v := by
    subst at_
    exact (readLe_of_record (fun z low high => by rw [bytes z low high, trapRecord_eq, record]) inside).trans (Nat.mod_eq_of_lt small)
  have split (i : Nat) := congrArg pack (List.take_append_drop i (trapFields c key cause double pc faddr info time)).symm
  have sizes (i : Nat) : (((trapFields c key cause double pc faddr info time).take i).map (·.1)).sum = ([1, 1, 1, 1, 3, 1, 8, 8, 8, 4, 4, 2, 1, 1, 20].take i).sum := by
    rw [List.map_take]
    rfl
  have xfer := c.xfer.isLt
  have job := c.job.isLt
  have slots : pack (trapFields c key cause double pc faddr info time) =
      pack ([(1, cause.toNat)] ++ (2, 0) :: (trapFields c key cause double pc faddr info time).drop 3) := by
    rw [List.singleton_append, pack, ← pack_zeros]
    rfl
  exact ⟨field 0 _ (split 0) (sizes 0) (by decide) cause.isLt, field 1 _ slots rfl (by decide) (by decide), field 4 _ (split 4) (sizes 4) (by decide) pc.isLt,
    field 7 _ (split 5) (sizes 5) (by decide) c.image.isLt, field 8 _ (split 6) (sizes 6) (by decide) faddr.isLt, field 16 _ (split 7) (sizes 7) (by decide) c.ticket.isLt,
    field 24 _ (split 8) (sizes 8) (by decide) time.isLt, field 32 _ (split 9) (sizes 9) (by decide) info.isLt, field 36 _ (split 10) (sizes 10) (by decide) (by omega),
    field 40 _ (split 11) (sizes 11) (by decide) (by omega), field 44 _ (split 14) (sizes 14) (by decide) (by decide)⟩

/-! ### TRAP and double traps (R145, R391, R396) -/

/-- TRAP takes its trap on the context as it stands, unless it is in the second delay bundle of a taken transfer. -/
theorem trap_of_nextAt {s : State} {n : BitVec 12} {o : Offset} (ready : Ready s [] []) (next : NextAt s o)
    (outside : xferLeft s.issue.src.xfer = 1 → xferTaken s.issue.src.xfer = false) :
    exec (.trap n) s = .next ((s.own id).takeTrap s.issue.key cSoftware 0 0 o o 0 (n.setWidth 32)) := by
  have midway : (decide (xferLeft s.issue.src.xfer = 1) && xferTaken s.issue.src.xfer) = false := by simpa using outside
  have kept : (s.own fun x => if decide (xferLeft s.issue.src.xfer = 1) && xferTaken s.issue.src.xfer then
      { x with xfer := xferOf (xferTarget s.issue.src.xfer) 0 true } else x) = s.own id := own_congr (if_neg (ne_true_of_eq_false midway))
  change Host.Outcome.next _ = _
  rw [slot_of_ready ready, ← kept, next]
  rfl

theorem own_id_ctx (s : State) (k : Nat) : (s.own id).ctx k = s.ctx k := by
  by_cases own : k = s.issue.key
  · subst own
    exact me_own s id
  · exact ctx_own_ne s id own

/-- A trap whose record is written in memory: its context is the handler's, its record is there, and nothing else changes. -/
theorem takeTrap_results {s : State} {key a : Nat} (cause : Cause) (saved : Offset) (faddr : Word) (info : BitVec 32) (user : (s.ctx key).sup = false)
    (vec : (s.ctx key).trapvec ≠ 0) (bare : s.journal? (s.ctx key).ticket = none)
    (reach : s.reach (s.ctx key).part.toNat (quadOf key) ((s.ctx key).traparea.toNat / 128 * 128) = .ok a) (clean : s.mem.poisoned (localKey a) = false) :
    let t := s.takeTrap key cause 0 0 saved saved faddr info
    t.issue = s.issue ∧ t.ctx key = enterHandler cause 0 0 saved (s.ctx key) ∧ SameOthers s t key ∧ ∀ z, t.mem.read z =
      if localKey a ≤ z ∧ z < localKey a + 64 then
        BitVec.ofNat 8 (trapRecord (s.ctx key) key cause 0 0 false saved faddr info s.tbase / 256 ^ (z - localKey a))
      else s.mem.read z := by
  intro t
  have taken : t = _ := takeTrap_of_written cause 0 0 saved saved faddr info user vec (writeTrapRecord_of_reach _ reach bare)
  have aligned := reach_aligned reach (Nat.mul_mod_left _ _)
  have small : trapRecord (s.ctx key) key cause 0 0 false saved faddr info s.tbase < 256 ^ 64 := by
    rw [trapRecord_eq]
    exact lt_of_lt_of_eq (pack_lt _) (by simp [trapFields])
  have kept := fun data mask => (sameTasks_storeRow (s.touch a) (localKey (rowOf a)) data mask).ctx
  rw [taken]
  refine ⟨(onlyWrites_storeRow (s.touch a) _ _ _).get (·.issue) rfl, ?_, fun k other => ?_, fun z => ?_⟩
  · rw [ctx_modCtx_same, kept]
    rfl
  · rw [ctx_modCtx_ne _ _ other, kept]
    rfl
  · exact storeRecord_read (s := s.touch a) small (by omega) clean z

/-- The flags of a trap record: bit 0 is DOUBLE. -/
theorem trapRecord_double (c : Ctx) (key : Nat) (cause : Cause) (fslots islots : Nat) (pc : Offset) (faddr : Word) (info : BitVec 32) (time : Word) :
    trapRecord c key cause fslots islots true pc faddr info time / 256 ^ 3 % 2 = 1 := by
  have flags := packed_at [(1, cause.toNat), (1, fslots), (1, islots)] [(3, pc.toNat), (1, c.image.toNat), (8, faddr.toNat), (8, c.ticket.toNat), (8, time.toNat),
    (4, info.toNat), (4, c.xfer.toNat), (2, c.job.toNat), (1, coreOf key), (1, key % 8), (20, 0)] 1 (1 + 2 * (decide (xferLeft c.xfer ≠ 0)).toNat)
  have byte : trapRecord c key cause fslots islots true pc faddr info time / 256 ^ 3 % 256 = (1 + 2 * (decide (xferLeft c.xfer ≠ 0)).toNat) % 256 := flags
  omega

/-- A trap in supervisor mode, or without a handler, abandons the task, its record written where it can be. -/
theorem takeTrap_of_double {s : State} {key : Nat} (cause : Cause) (fslots islots : Nat) (pc saved : Offset) (faddr : Word) (info : BitVec 32)
    (double : (s.ctx key).sup = true ∨ (s.ctx key).trapvec = 0) : s.takeTrap key cause fslots islots pc saved faddr info =
      ((s.writeTrapRecord key ((s.ctx key).traparea.toNat / 128 * 128 + 64) (trapRecord (s.ctx key) key cause fslots islots true pc faddr info s.tbase)).getD
        s).abandon key cause.toNat := by
  have test : ((s.ctx key).sup || decide ((s.ctx key).trapvec = 0)) = true := by simpa using double
  exact if_pos test

/-- Settles O15: TRAP enters the handler with its record written; a double trap abandons. -/
theorem trapAndDoubleTrapResults : Obligations.TrapAndDoubleTrapResults := by
  unfold Obligations.TrapAndDoubleTrapResults
  constructor
  · intro s n o addr ready next user vec outside bare reach clean k
    have me : (s.own id).ctx s.issue.key = s.me := own_id_ctx s _
    obtain ⟨issue, handler, others, bytes⟩ := takeTrap_results (s := s.own id) (key := s.issue.key) cSoftware o 0 (n.setWidth 32) (by rw [me]; exact user)
      (by rw [me]; exact vec) (by rw [me]; exact bare) (by rw [me]; exact reach) clean
    rw [me] at handler bytes
    generalize taken : (s.own id).takeTrap s.issue.key cSoftware 0 0 o o 0 (n.setWidth 32) = t at issue handler others bytes
    have mine : t.me = enterHandler cSoftware 0 0 o s.me := by
      rw [← handler, State.me, issue]
      rfl
    obtain ⟨cause, slots, pc, image, faddr, ticket, time, info, xfer, job, rest⟩ := readLe_trapRecord (m := t.mem) (k := k) fun z low high =>
      (bytes z).trans (if_pos ⟨low, high⟩)
    have number : (n.setWidth 32).toNat = n.toNat := by
      have := n.isLt
      rw [BitVec.toNat_setWidth, Nat.mod_eq_of_lt (by omega)]
    refine ⟨t, by rw [trap_of_nextAt ready next outside, taken], ?_, ?_, ?_, ?_, ?_, ?_, ?_, ?_, ?_, ?_, ?_, ?_, ?_, cause, slots, pc, image, faddr, ticket, time,
      info.trans number, xfer, job, rest, fun z out => (bytes z).trans (if_neg out), fun j other => (others j other).trans (own_id_ctx s j)⟩
    all_goals rw [mine]; rfl
  · intro s key cause fs is pc saved fa info double area rec_
    refine ⟨fun u written => ?_, fun unwritten => ?_, trapRecord_double (s.ctx key) key cause fs is pc fa info s.tbase⟩
    · rw [takeTrap_of_double cause fs is pc saved fa info double, written, Option.getD_some]
    · rw [takeTrap_of_double cause fs is pc saved fa info double, unwritten, Option.getD_none]

end Sys2Proof.Proofs

namespace Sys2Proof.Proofs
open Sys2Proof Sys2Proof.Machine Sys2Proof.Safety Sys2Proof.Laws

/-! ### The bundle under way -/

/-- Two states run the same contexts and the same bundle. -/
structure SameRun (s t : State) : Prop where
  ctxs : t.ctxs = s.ctxs
  issue : t.issue = s.issue

theorem SameRun.refl (s : State) : SameRun s s := ⟨rfl, rfl⟩

theorem SameRun.trans {s t u : State} (h : SameRun s t) (h' : SameRun t u) : SameRun s u := ⟨h'.ctxs.trans h.ctxs, h'.issue.trans h.issue⟩

theorem SameRun.foldl {α : Type} {f : State → α → State} (h : ∀ s x, SameRun s (f s x)) (l : List α) (s : State) : SameRun s (l.foldl f s) :=
  List.foldlRecOn (motive := SameRun s) l f (.refl s) fun t same x _ => same.trans (h t x)

theorem SameRun.me {s t : State} (h : SameRun s t) : t.me = s.me := by
  rw [State.me, h.issue, ctx_of_ctxs h.ctxs]
  rfl

/-- What only writes memory runs the same. -/
theorem OnlyWrites.sameRun {s t : State} (h : OnlyWrites s t) : SameRun s t := ⟨h.get (·.ctxs) rfl, h.get (·.issue) rfl⟩

theorem sameRun_startExit (s : State) (a : ArrayId) : SameRun s (s.startExit a) := by
  have set (r : Retain) : SameRun s (s.setRetain r a) := by cases a <;> exact ⟨rfl, rfl⟩
  unfold State.startExit
  split
  · exact set _
  · exact set _
  · exact .refl s
  · exact .refl s

theorem sameRun_keepWrite (s : State) (arr : Option ArrayId) (w : HeldWrite) : SameRun s (s.keepWrite arr w) := by
  cases arr with
  | none => exact ⟨rfl, rfl⟩
  | some x => exact (sameRun_startExit s x).trans ⟨rfl, rfl⟩

theorem sameRun_writeC (s : State) (c : Ctx) (a : Nat) (data : Row) (mask : BitVec 256) : SameRun s (s.writeC c a data mask) := by
  have stored : SameRun s ((s.touch a).storeRow (localKey (rowOf a)) data mask) :=
    SameRun.trans (t := s.touch a) ⟨rfl, rfl⟩ (onlyWrites_storeRow (s.touch a) _ _ _).sameRun
  unfold State.writeC
  split
  · split
    · exact ⟨rfl, rfl⟩
    · exact stored
  · exact stored

/-! ### Reports and rollbacks run the same -/

theorem sameRun_sibPut (s : State) (n : Nat) (q : CmdQueue) (slots : List Nat) (kind : Nat) : SameRun s (s.sibPut n q slots kind) :=
  (SameRun.foldl (fun (t : State) (w : Nat × Nat × Nat) => (onlyWrites_writeAt t q.part.toNat w.2.1 w.2.2 (t.spotQ n q.part.toNat w.1 2 w.2.1)).sameRun) _ s).trans
    ⟨rfl, rfl⟩

theorem sameRun_sibFlush (n : Nat) : ∀ (fuel : Nat) (s : State), SameRun s (s.sibFlush n fuel) := by
  intro fuel
  induction fuel with
  | zero => exact fun s => .refl s
  | succ fuel ih =>
    intro s
    simp only [State.sibFlush]
    split
    · exact .refl s
    · split
      · exact .refl s
      · split
        · exact .refl s
        · split
          · exact (onlyWrites_parkLink s _ _ _ _).sameRun
          · exact (sameRun_sibPut s _ _ _ _).trans (ih _)

theorem sameRun_sibPost (s : State) (n : Nat) (q : CmdQueue) (slots : List Nat) (kind : Nat) : SameRun s (s.sibPost n q slots kind) :=
  SameRun.trans (by constructor <;> rfl) (sameRun_sibFlush n _ _)

theorem sameRun_event (s : State) (f : MFam) (i hi lo : Nat) (g : Nat → Nat) : SameRun s (s.event f i hi lo g) := ⟨rfl, rfl⟩

theorem sameRun_modJob (s : State) (j : Nat) (f : Job → Job) : SameRun s (s.modJob j f) := by
  unfold State.modJob
  split
  · exact ⟨rfl, rfl⟩
  · exact .refl s

theorem sameRun_postTo (s : State) (f : FaultRec) (fq : Option Nat) : SameRun s (s.postTo f fq) := by
  have named (t : State) (lost : Bool) : SameRun t (match f.job with
      | none => t
      | some j => t.modJob j fun x => { x with nfaults := min (x.nfaults + 1) (2 ^ 32 - 1), lost := x.lost || lost }) := by
    split
    · exact .refl t
    · exact sameRun_modJob t _ _
  simp only [State.postTo]
  split
  · exact named s true
  · split
    · exact named s true
    · split
      · exact named s true
      · split
        · exact (named s false).trans (sameRun_sibPost _ _ _ _ _)
        · exact (sameRun_event s _ _ _ _ _).trans (named _ true)

theorem sameRun_postFault (s : State) (f : FaultRec) : SameRun s (s.postFault f) := sameRun_postTo s f _

theorem sameRun_undo (s : State) (w : Word) : SameRun s (s.undo w) := by
  have released : SameRun s (s.releaseAll w) := .foldl (fun _ _ => by constructor <;> rfl) _ s
  have withdrawn : SameRun (s.releaseAll w) ((s.releaseAll w).withdraw w) := .foldl (fun _ _ => by constructor <;> rfl) _ _
  have disarmed (t : State) : SameRun t (t.disarm w) := by
    unfold State.disarm
    split
    · exact .refl t
    · exact ⟨rfl, rfl⟩
  exact ((released.trans withdrawn).trans (disarmed _)).trans ⟨rfl, rfl⟩

/-! ### A trap keeps the bookkeeping of its bundle -/

theorem abandon_issue (s : State) (key info : Nat) : (s.abandon key info).issue = s.issue := by
  have reported (f : FaultRec) : ((s.undo (s.ctx key).ticket).postFault f).issue = s.issue := ((sameRun_undo s _).trans (sameRun_postFault _ f)).issue
  simp only [State.abandon]
  split
  · exact reported _
  · simp only [State.freeCtx, ctx_modCtx_same]
    exact reported _

theorem writeTrapRecord_issue {s u : State} {key a rec : Nat} (h : s.writeTrapRecord key a rec = some u) : u.issue = s.issue := by
  unfold State.writeTrapRecord at h
  simp only at h
  split at h
  · cases h
    exact (sameRun_writeC s _ _ _ _).issue
  · cases h
    exact (sameRun_keepWrite _ _ _).issue
  · cases h

theorem takeTrap_issue (s : State) (key : Nat) (cause : Cause) (fslots islots : Nat) (pc saved : Offset) (faddr : Word) (info : BitVec 32) :
    (s.takeTrap key cause fslots islots pc saved faddr info).issue = s.issue := by
  rcases takeTrap_cases s key cause fslots islots pc saved faddr info with ⟨u, -, -, written, run⟩ | ⟨u, written, run⟩
  · rw [run, State.modCtx, setCtx_issue]
    exact writeTrapRecord_issue written
  · rw [run, abandon_issue]
    rcases written with rfl | written
    · rfl
    · exact writeTrapRecord_issue written

/-! ### Operations that go on -/

/-- The slot operation under way goes on: it neither waits nor has trapped. -/
def Goes (t : State) : Prop := t.issue.out = .ok

/-- When the operation goes on, its state has a property. -/
def Leads (R : State → Prop) (t : State) : Prop := Goes t → R t

section
variable {R : State → Prop} {s : State}

theorem leads_of {t : State} (h : R t) : Leads R t := fun _ => h

theorem leads_ite {c : Prop} [Decidable c] {t u : State} (h : Leads R t) (h' : Leads R u) : Leads R (if c then t else u) := by
  split
  · exact h
  · exact h'

theorem leads_waits : Leads R s.waits := fun ok => by simp [Goes, State.waits] at ok

theorem leads_trapSlot {cause : Cause} {faddr : Word} {info : BitVec 32} : Leads R (s.trapSlot cause faddr info) := fun ok => by
  simp [Goes, State.trapSlot, takeTrap_issue] at ok

theorem leads_slot {srcs dsts : List Dst} {f : Ctx → State → State} (h : Leads R (f s.issue.src s)) : Leads R (s.slot srcs dsts f) := by
  rcases slot_cases s srcs dsts f with run | run | ⟨_, _, _, run⟩ <;> rw [run]
  · exact h
  · exact leads_waits
  · exact leads_trapSlot

theorem leads_memPath {path : Nat} {f : State → State} (h : Leads R (f s)) : Leads R (s.memPath path f) := by
  unfold State.memPath
  split
  · exact leads_waits
  · exact h

theorem leads_privileged {f : State → State} (h : Leads R (f s)) : Leads R (s.privileged f) := by
  unfold State.privileged
  split
  · exact h
  · exact leads_trapSlot

theorem leads_lockOp {f : State → State} (h : Leads R (f s)) : Leads R (s.lockOp f) := by
  unfold State.lockOp
  split
  · exact leads_trapSlot
  · exact leads_memPath h

theorem leads_pathC {l : List Nat} {f : List Nat → State → State} (h : ∀ addrs, Leads R (f addrs s)) : Leads R (s.pathC l f) := by
  unfold State.pathC
  simp only
  split
  · exact leads_waits
  · split
    · exact leads_trapSlot
    · exact leads_waits
    · split
      · split
        · exact leads_waits
        · exact leads_trapSlot
      · exact h _

theorem leads_channelOp {c : Ctx} {ch : Nat} {recv scalar : Bool} {n : Nat} {f : BitVec 128 → Nat × Nat → State → State} (h : ∀ e p, Leads R (f e p s)) :
    Leads R (s.channelOp c ch recv scalar n f) := by
  unfold State.channelOp
  simp only
  generalize (if scalar = true then 0 else _) = rows
  split
  · split
    · exact h _ _
    · exact leads_trapSlot
  · exact leads_trapSlot

end

/-- Whenever the operation goes on, its states are related. -/
def Gives (R : State → State → Prop) (i : Instr) : Prop := ∀ s t, exec i s = .next t → Leads (R s) t

theorem gives_of_next {R : State → State → Prop} {i : Instr} {F : State → State} (run : ∀ s, exec i s = .next (F s)) (h : ∀ s, Leads (R s) (F s)) : Gives R i := by
  intro s t next
  rw [run s] at next
  cases next
  exact h s

theorem gives_of_slot {R : State → State → Prop} {i : Instr} {srcs dsts : List Dst} {f : Ctx → State → State} (run : ∀ s, exec i s = .next (s.slot srcs dsts f))
    (h : ∀ s, Leads (R s) (f s.issue.src s)) : Gives R i := gives_of_next run fun s => leads_slot (h s)

end Sys2Proof.Proofs

namespace Sys2Proof.Proofs
open Sys2Proof Sys2Proof.Machine Sys2Proof.Safety Sys2Proof.Laws

/-! ### What operations of the MAT, MEM and COM slots may change (R116, R206, R263) -/

/-- The context `c`, with the emptiness, results and commands under way, fences, sets and wait of `d`. -/
def withFlight (c d : Ctx) : Ctx :=
  { c with sFull := d.sFull, vFull := d.vFull, inflight := d.inflight, fixed := d.fixed, outstanding := d.outstanding, fences := d.fences, sets := d.sets, wait := d.wait }

/-- Memory and the context of the bundle under way agree, but for what a context has in flight. -/
structure OnlyFlight (s t : State) : Prop where
  key : t.issue.key = s.issue.key
  flight : t.me = withFlight s.me t.me
  mem : t.mem = s.mem

/-- Two states run the same contexts and bundle over the same memory: the rest of the module has changed at most. -/
structure SameWork (s t : State) : Prop where
  ctxs : t.ctxs = s.ctxs
  issue : t.issue = s.issue
  mem : t.mem = s.mem

theorem SameWork.flight {s t : State} (h : SameWork s t) : OnlyFlight s t :=
  ⟨congrArg Issue.key h.issue, by rw [SameRun.me ⟨h.ctxs, h.issue⟩]; rfl, h.mem⟩

theorem OnlyFlight.refl (s : State) : OnlyFlight s s := SameWork.flight (by constructor <;> rfl)

theorem OnlyFlight.trans {s t u : State} (h : OnlyFlight s t) (h' : OnlyFlight t u) : OnlyFlight s u :=
  ⟨h'.key.trans h.key, h'.flight.trans (by rw [h.flight]; rfl), h'.mem.trans h.mem⟩

theorem OnlyFlight.sameMem {s t : State} (h : OnlyFlight s t) : SameMem s t := ⟨fun _ => by rw [h.mem], fun _ => by rw [h.mem]⟩

theorem onlyFlight_own (s : State) {f : Ctx → Ctx} (h : ∀ c, f c = withFlight c (f c)) : OnlyFlight s (s.own f) :=
  ⟨rfl, by rw [me_own]; exact h s.me, rfl⟩

theorem expect_flight (c : Ctx) (l : Landing) : c.expect l = withFlight c (c.expect l) := by
  unfold Ctx.expect
  cases l.dst with
  | s r => dsimp only; split <;> rfl
  | v _ | p _ | c _ | bt _ | lc _ _ | sys _ => rfl

theorem onlyFlight_produce (s : State) (d : Dst) (value : Option VReg) (poison : Option Nat) (latency : Nat) : OnlyFlight s (s.produce d value poison latency).2 :=
  .trans (t := s.fresh.2) (SameWork.flight (by constructor <;> rfl)) (onlyFlight_own s.fresh.2 fun c => expect_flight c _)

theorem onlyFlight_command (s : State) (id : Nat) (path : Fin 8) : OnlyFlight s (s.command id path) := onlyFlight_own s fun _ => rfl

theorem onlyFlight_acquiring (s : State) (id : Nat) : OnlyFlight s (s.acquiring id) := onlyFlight_own s fun _ => rfl

theorem onlyFlight_first (s : State) (l : List Instr) : OnlyFlight s (s.first l) := SameWork.flight (by constructor <;> rfl)

/-- A command that is given once the module has changed without its contexts and memory. -/
theorem SameWork.commanded {s t : State} (h : SameWork s t) (id : Nat) (path : Fin 8) : OnlyFlight s (t.command id path) :=
  h.flight.trans (onlyFlight_command t id path)

theorem onlyFlight_rowValue (s : State) (a : Nat) : OnlyFlight s (s.rowValue a).2 := by
  unfold State.rowValue
  simp only
  split <;> exact SameWork.flight (by constructor <;> rfl)

/-! ### Loads -/

theorem onlyFlight_loaded (s : State) (addrs : List Nat) (d : Dst) (value : Option VReg) (poison : Option Nat) (latency : Nat) :
    OnlyFlight s ((s.touchAll addrs).produce d value poison latency).2 := by
  have noted : OnlyFlight s (s.touchAll addrs) := by
    obtain ⟨x, touched⟩ := touchAll_eq addrs s
    rw [touched]
    exact SameWork.flight (by constructor <;> rfl)
  exact noted.trans (onlyFlight_produce _ _ _ _ _)

theorem loadV_flight (s : State) (d : Fin 256) (l : List Nat) : Leads (OnlyFlight s) (s.loadV d l) :=
  leads_pathC fun addrs => leads_of (onlyFlight_loaded s addrs _ _ _ _)

theorem vld_flight (d : Fin 256) (a : Fin 64) (n1 : Fin 8) : Gives OnlyFlight (.vld d a n1) := gives_of_slot (fun _ => rfl) fun s => loadV_flight s d _

theorem vldp_flight (d : Fin 256) (a b : Fin 64) (n1 : Fin 8) : Gives OnlyFlight (.vldp d a b n1) := gives_of_slot (fun _ => rfl) fun s => loadV_flight s d _

theorem vldx_flight (d : Fin 256) (a : Fin 64) (b : Fin 256) : Gives OnlyFlight (.vldx d a b) := gives_of_slot (fun _ => rfl) fun s => loadV_flight s d _

theorem sld_flight (d a : Fin 64) (k : Fin 32) : Gives OnlyFlight (.sld d a k) :=
  gives_of_slot (fun _ => rfl) fun s => leads_pathC fun addrs => leads_of (onlyFlight_loaded s addrs _ _ _ _)

/-! ### Copies, fences and drains -/

theorem copy_flight (a : Fin 256) (q : Fin 8) : Gives OnlyFlight (.copy a q) :=
  gives_of_slot (fun _ => rfl) fun s => leads_memPath <| by
    refine leads_ite (leads_ite (leads_of (SameWork.commanded (by constructor <;> rfl) _ 1)) leads_waits) ?_
    split
    · exact leads_waits
    · split
      · exact leads_of (.refl s)
      · exact leads_ite (leads_of (SameWork.flight (by constructor <;> rfl))) leads_trapSlot

theorem fence_flight (before after : BitVec 8) (scope : Fin 8) : Gives OnlyFlight (.fence before after scope) :=
  gives_of_slot (fun _ => rfl) fun s => leads_ite leads_waits (leads_ite (leads_of (.refl s)) (leads_of (onlyFlight_own s fun _ => rfl)))

theorem drain_flight (paths : BitVec 8) (scope : Fin 8) : Gives OnlyFlight (.drain paths scope) :=
  gives_of_slot (fun _ => rfl) fun s => leads_ite leads_waits (leads_ite (leads_of (.refl s)) (leads_of (onlyFlight_own s fun _ => rfl)))

/-! ### Base-die queues and data locks -/

theorem qpush_flight (a : Fin 256) (b : Fin 64) : Gives OnlyFlight (.qpush a b) :=
  gives_of_slot (fun _ => rfl) fun s => leads_memPath <|
    leads_ite (leads_ite (leads_of (SameWork.flight (by constructor <;> rfl))) (leads_of (SameWork.commanded (by constructor <;> rfl) _ 0))) leads_trapSlot

/-- A pop that joins its queue, once its results are in flight. -/
theorem onlyFlight_popping {s u : State} (flies : OnlyFlight s u) (i : Nat) (q : BdQueue) (id id' : Nat) (l : List Instr) :
    OnlyFlight s ((((u.setBdq i q).command id 0).acquiring id').first l) :=
  (flies.trans (SameWork.commanded (t := u.setBdq i q) (by constructor <;> rfl) id 0)).trans
    ((onlyFlight_acquiring _ id').trans (SameWork.flight (by constructor <;> rfl)))

theorem qpop_flight (d : Fin 256) (b : Fin 64) : Gives OnlyFlight (.qpop d b) :=
  gives_of_slot (fun _ => rfl) fun s => leads_memPath <|
    leads_ite (leads_of (onlyFlight_popping (onlyFlight_produce s _ _ _ _) _ _ _ _ _)) leads_trapSlot

theorem qtry_flight (d : Fin 256) (b : Fin 64) (cb : Fin 8) : Gives OnlyFlight (.qtry d b cb) :=
  gives_of_slot (fun _ => rfl) fun s => leads_memPath <|
    leads_ite (leads_of (onlyFlight_popping ((onlyFlight_produce s _ _ _ _).trans (onlyFlight_produce _ _ _ _ _)) _ _ _ _ _)) leads_trapSlot

theorem aset_flight (a b : Fin 64) (set : Fin 16) (g : Fin 8) : Gives OnlyFlight (.aset a b set g) :=
  gives_of_slot (fun _ => rfl) fun s => leads_lockOp <| by
    have sets (l : List AtomicSet) : Leads (OnlyFlight s) (s.own fun x => { x with sets := l }) := leads_of (onlyFlight_own s fun _ => rfl)
    refine leads_ite (sets _) (leads_ite (leads_ite leads_trapSlot (sets _)) ?_)
    split
    · exact sets _
    · exact leads_trapSlot

/-! ### Tier streams, translations, tiles and counters -/

theorem tgo_flight (a : Fin 64) (e : Fin 4) : Gives OnlyFlight (.tgo a e) :=
  gives_of_slot (fun _ => rfl) fun s => leads_memPath (leads_of (SameWork.commanded (by constructor <;> rfl) _ 3))

theorem trel_flight (a : Fin 64) (e : Fin 4) : Gives OnlyFlight (.trel a e) :=
  gives_of_slot (fun _ => rfl) fun _ =>
    leads_ite leads_waits (leads_of (((SameWork.commanded (by constructor <;> rfl) _ 0).trans (onlyFlight_command _ _ 3)).trans (onlyFlight_first _ _)))

theorem tlbi_flight (a : Fin 64) (all : Bool) : Gives OnlyFlight (.tlbi a all) :=
  gives_of_next (fun _ => rfl) fun s => leads_privileged <| leads_slot <| leads_memPath <| by
    have dropped (f : TransEntry → Bool) : OnlyFlight s (s.dropTranslations f) := SameWork.flight (by constructor <;> rfl)
    exact leads_ite (leads_of (dropped _)) (leads_of ((dropped _).trans (onlyFlight_own _ fun _ => rfl)))

theorem pushTile_flight (s : State) (c : Ctx) (rec : BitVec 512) (staging : List VReg) : Leads (OnlyFlight s) (s.pushTile c rec staging) := by
  unfold State.pushTile
  refine leads_ite leads_trapSlot ?_
  split
  · exact leads_trapSlot
  · exact leads_ite leads_waits (leads_of (SameWork.commanded (by constructor <;> rfl) _ 2))

theorem ttask_flight (a : Fin 256) : Gives OnlyFlight (.ttask a) := gives_of_slot (fun _ => rfl) fun s => pushTile_flight s _ _ _

theorem ttaskr_flight (a b : Fin 256) (n1 : Fin 8) : Gives OnlyFlight (.ttaskr a b n1) := gives_of_slot (fun _ => rfl) fun s => pushTile_flight s _ _ _

theorem tqcfg_flight (a b : Fin 64) : Gives OnlyFlight (.tqcfg a b) :=
  gives_of_next (fun _ => rfl) fun _ => leads_privileged <| leads_slot <| leads_of (SameWork.flight (by constructor <;> rfl))

theorem tstat_flight (d : Fin 64) (which : Fin 16) : Gives OnlyFlight (.tstat d which) :=
  gives_of_slot (fun _ => rfl) fun s => leads_of (onlyFlight_produce s _ _ _ _)

theorem tevict_flight (a : Fin 64) : Gives OnlyFlight (.tevict a) :=
  gives_of_slot (fun _ => rfl) fun s => leads_ite (leads_of (.refl s)) (leads_of (SameWork.flight (by constructor <;> rfl)))

theorem rcadd_flight (a : Fin 256) (p : Fin 16) : Gives OnlyFlight (.rcadd a p) := gives_of_slot (fun _ => rfl) fun _ => leads_of (SameWork.flight (by constructor <;> rfl))

theorem rcsnap_flight (d : Fin 256) : Gives OnlyFlight (.rcsnap d) :=
  gives_of_slot (fun _ => rfl) fun s => leads_of ((onlyFlight_produce s _ _ _ _).trans (SameWork.flight (by constructor <;> rfl)))

/-! ### Sending -/

theorem sendElem_flight (s : State) (c : Ctx) (ch : Nat) (scalar : Bool) (n data : Nat) : Leads (OnlyFlight s) (s.sendElem c ch scalar n data) :=
  leads_channelOp fun _ _ => leads_ite leads_waits (leads_of ((SameWork.commanded (s := s) (t := s.fresh.2) (by constructor <;> rfl) s.fresh.1 6).trans (SameWork.flight (by constructor <;> rfl))))

theorem send_flight (ch : Fin 64) (v : Fin 256) (n1 : Fin 8) : Gives OnlyFlight (.send ch v n1) := gives_of_slot (fun _ => rfl) fun s => sendElem_flight s _ _ _ _ _

theorem ssend_flight (ch a : Fin 64) : Gives OnlyFlight (.ssend ch a) := gives_of_slot (fun _ => rfl) fun s => sendElem_flight s _ _ _ _ _

theorem chcfg_flight (ch a : Fin 64) : Gives OnlyFlight (.chcfg ch a) :=
  gives_of_next (fun _ => rfl) fun s => leads_ite leads_trapSlot <| leads_slot <| leads_pathC fun _ =>
    leads_ite leads_trapSlot (leads_ite (leads_of ((onlyFlight_rowValue s _).trans (SameWork.flight (by constructor <;> rfl)))) leads_waits)

theorem hcoll_flight (a : Fin 64) : Gives OnlyFlight (.hcoll a) :=
  gives_of_slot (fun _ => rfl) fun s => leads_ite leads_waits <| leads_pathC fun _ =>
    leads_ite leads_trapSlot (leads_of ((onlyFlight_rowValue s _).trans (SameWork.commanded (by constructor <;> rfl) _ 4)))

end Sys2Proof.Proofs

namespace Sys2Proof.Proofs
open Sys2Proof Sys2Proof.Machine Sys2Proof.Safety Sys2Proof.Laws

/-! ### Receiving (R337, R346) -/

theorem onlyFlight_mapCtxs (s : State) {f : Ctx → Ctx} (reset : f .reset = .reset) (h : ∀ c, f c = withFlight c (f c)) : OnlyFlight s (s.mapCtxs f) := by
  have me : (s.mapCtxs f).me = f s.me := ctx_mapCtxs s reset s.issue.key
  exact ⟨rfl, by rw [me]; exact h s.me, rfl⟩

/-- No log takes an item that it is not offered. -/
theorem logAll_of_none {s : State} {f : Saved → Option (Saved × LogItem)} {l : List Saved} (h : ∀ x ∈ l, f x = none) : s.logAll f l = (l, s) := by
  induction l with
  | nil => rfl
  | cons x t ih => rw [State.logAll, h x (by simp)]; simp only [ih fun y mem => h y (by simp [mem])]

/-- The value of a result that no saved context waits for goes to the contexts that run. -/
theorem answer_of_unsaved {s : State} {id : Nat} (value : VReg) (poison : Option Nat) (latency kind : Nat)
    (unsaved : ∀ x ∈ s.saved ++ s.stored, ∀ l ∈ x.ctx.inflight, l.id ≠ id) :
    s.answer id value poison latency kind = s.mapCtxs fun c => c.answer id value poison (s.now + latency) := by
  have unnamed (x : Saved) (mem : x ∈ s.saved ++ s.stored) : x.ctx.inflight.find? (fun l => decide (l.id = id)) = none := by
    simpa using unsaved x mem
  simp only [State.answer, State.answerWith]
  rw [logAll_of_none fun x mem => by rw [unnamed x (List.mem_append_right _ mem)]; rfl, logAll_of_none fun x mem => by rw [unnamed x (List.mem_append_left _ mem)]; rfl]

theorem answer_flight (c : Ctx) (id : Nat) (value : VReg) (poison : Option Nat) (due : Nat) :
    c.answer id value poison due = withFlight c (c.answer id value poison due) := rfl

theorem serveChan_flight (core ch : Nat) : ∀ (n : Nat) (s : State), OnlyFlight s (s.serveChan core ch n) := by
  intro n
  induction n with
  | zero => exact fun s => .refl s
  | succ n ih =>
    intro s
    simp only [State.serveChan]
    split
    · rename_i x xs r rs _ _
      split
      · exact .refl s
      · rename_i unsaved
        have clear : ∀ x ∈ s.saved ++ s.stored, ∀ l ∈ x.ctx.inflight, l.id ≠ r.id := by
          simpa [State.recvSaved, or_imp, forall_and] using unsaved
        rw [answer_of_unsaved _ _ _ _ (by exact clear)]
        refine .trans ?_ (ih _)
        have popped (v : VReg) (due : Nat) :
            OnlyFlight s ((s.modChan core ch fun k => { k with elems := xs, recvs := rs }).mapCtxs fun c => c.answer r.id v x.poison due) :=
          OnlyFlight.trans (SameWork.flight (by constructor <;> rfl)) (onlyFlight_mapCtxs _ rfl fun c => answer_flight c r.id v x.poison due)
        split
        · exact (popped _ _).trans (SameWork.flight (by constructor <;> rfl))
        · exact popped _ _
    · exact .refl s

theorem recvElem_flight (s : State) (c : Ctx) (ch : Nat) (scalar : Bool) (n : Nat) (d : Dst) (old : Option VReg) :
    Leads (OnlyFlight s) (s.recvElem c ch scalar n d old) :=
  leads_channelOp fun _ _ => leads_of <| .trans (onlyFlight_produce s d none none 2) <|
    .trans (t := (s.produce d none none 2).2.modChan (coreOf s.issue.key) ch fun k => { k with recvs := k.recvs ++ [⟨(s.produce d none none 2).1, old, c.job.toNat⟩] })
      (SameWork.flight (by constructor <;> rfl)) ((onlyFlight_acquiring _ _).trans (serveChan_flight _ _ _ _))

theorem recv_flight (ch : Fin 64) (v : Fin 256) (n1 : Fin 8) : Gives OnlyFlight (.recv ch v n1) := gives_of_slot (fun _ => rfl) fun s => recvElem_flight s _ _ _ _ _ _

theorem recvadd_flight (ch : Fin 64) (v : Fin 256) (n1 : Fin 8) : Gives OnlyFlight (.recvadd ch v n1) :=
  gives_of_slot (fun _ => rfl) fun s => recvElem_flight s _ _ _ _ _ _

theorem srecv_flight (ch d : Fin 64) : Gives OnlyFlight (.srecv ch d) := gives_of_slot (fun _ => rfl) fun s => recvElem_flight s _ _ _ _ _ _

/-! ### Operations that read one register's worth (R259, R340, R388) -/

/-- The operation writes scalar `d` and nothing else. -/
def PutsS (d : Fin 64) (s t : State) : Prop := ∃ v, t = putS s d v

theorem tlate_puts (d : Fin 64) : Gives (PutsS d) (.tlate d) := gives_of_slot (fun _ => rfl) fun _ => leads_of ⟨_, rfl⟩

theorem chqry_puts (ch d : Fin 64) (which : Fin 4) : Gives (PutsS d) (.chqry ch d which) := gives_of_slot (fun _ => rfl) fun _ => leads_of ⟨_, rfl⟩

theorem hqry_puts (d a : Fin 64) : Gives (PutsS d) (.hqry d a) := gives_of_slot (fun _ => rfl) fun _ => leads_of ⟨_, rfl⟩

/-! ### Stores (R267, R353) -/

theorem storeAll_run (s : State) (rows : List (Nat × Row × BitVec 256)) : Leads (SameRun s) (s.storeAll rows) := by
  have stored : SameRun s (rows.foldl (fun t e => t.writeC s.issue.src e.1 e.2.1 e.2.2) s) := .foldl (fun t e => sameRun_writeC t _ _ _ _) _ _
  simp only [State.storeAll]
  split
  · exact leads_ite (leads_of stored) leads_trapSlot
  · exact leads_of stored

theorem storeV_run (s : State) (v : VReg) (p : Pred) (l : List Nat) : Leads (SameRun s) (s.storeV v p l) := leads_pathC fun _ => storeAll_run s _

theorem vst_run (d : Fin 256) (a : Fin 64) (p : Fin 16) (n1 : Fin 8) : Gives SameRun (.vst d a p n1) := gives_of_slot (fun _ => rfl) fun s => storeV_run s _ _ _

theorem vstp_run (d : Fin 256) (a b : Fin 64) (p : Fin 16) (n1 : Fin 8) : Gives SameRun (.vstp d a b p n1) := gives_of_slot (fun _ => rfl) fun s => storeV_run s _ _ _

theorem vstx_run (d : Fin 256) (a : Fin 64) (b : Fin 256) (p : Fin 16) : Gives SameRun (.vstx d a b p) := gives_of_slot (fun _ => rfl) fun s => storeV_run s _ _ _

theorem sst_run (d a : Fin 64) (k : Fin 32) : Gives SameRun (.sst d a k) := gives_of_slot (fun _ => rfl) fun s => leads_pathC fun _ => storeAll_run s _

/-! ### AJNL (R351) -/

/-- The journal of the bundle's task is disarmed, and nothing else that its contexts or memory show. -/
structure Disarms (s t : State) : Prop where
  run : SameRun s t
  mem : t.mem = (s.disarm s.issue.src.ticket).mem

theorem sameRun_disarm (s : State) (w : Word) : SameRun s (s.disarm w) := by
  unfold State.disarm
  split
  · exact .refl s
  · exact ⟨rfl, rfl⟩

theorem ajnl_disarms (a : Fin 64) : Gives Disarms (.ajnl a) :=
  gives_of_slot (fun _ => rfl) fun s => leads_lockOp <| by
    dsimp only
    split
    · exact leads_trapSlot
    · exact leads_ite leads_trapSlot (leads_ite leads_trapSlot (leads_of ⟨(sameRun_disarm s _).trans ⟨rfl, rfl⟩, rfl⟩))

end Sys2Proof.Proofs

namespace Sys2Proof.Proofs
open Sys2Proof Sys2Proof.Machine Sys2Proof.Safety Sys2Proof.Laws

theorem SameRun.when {s t u : State} {c : Prop} [Decidable c] (h : SameRun s t) (h' : SameRun t u) : SameRun s (if c then u else t) := by
  split
  · exact h.trans h'
  · exact h

theorem SameRun.unless {s t u : State} {c : Prop} [Decidable c] (h : SameRun s t) (h' : SameRun t u) : SameRun s (if c then t else u) := by
  split
  · exact h
  · exact h.trans h'

/-! ### Accesses of the engines run the same (R354, R426) -/

/-- The state that a row access answers with, if any, runs the same contexts and bundle. -/
def RowRun (s : State) : RowRes → Prop
  | .ok _ t | .hold t => SameRun s t
  | .fail _ | .absent | .link => True

theorem RowRun.of_sameRun {s t : State} {r : RowRes} (run : SameRun s t) (h : RowRun t r) : RowRun s r := by
  cases r with
  | ok _ u | hold u => exact run.trans h
  | fail _ | absent | link => trivial

theorem sameRun_request (s : State) (g : Granule) (t : Word) (run : Nat) (key : Option Nat) : SameRun s (s.request g t run key) := by
  unfold State.request
  split
  · split
    · exact .refl s
    · exact ⟨rfl, rfl⟩
  · exact ⟨rfl, rfl⟩

theorem sameRun_wakeArray (s : State) (o : Origin) (va : Bool) (addr : Nat) : SameRun s (s.wakeArray o va addr) := by
  unfold State.wakeArray
  split
  · exact .refl s
  · split
    · exact sameRun_startExit s _
    · exact .refl s

theorem sameRun_touchLocal (s : State) (o : Origin) (va : Bool) (addr : Nat) (via : Via) : SameRun s (s.touchLocal o va addr via) := by
  unfold State.touchLocal
  split
  · unfold State.translated
    split
    · exact .refl s
    · split
      · exact .refl s
      · exact ⟨rfl, rfl⟩
    · exact ⟨rfl, rfl⟩
    · exact ⟨rfl, rfl⟩
  · split
    · exact ⟨rfl, rfl⟩
    · exact .refl s

theorem sameRun_flushPuts (s : State) : SameRun s s.flushPuts :=
  SameRun.trans (t := { s with hostPuts := [] }) ⟨rfl, rfl⟩ (.foldl (fun _ _ => (onlyWrites_storeRow _ _ _ _).sameRun) _ _)

theorem sameRun_putBytes (s : State) (a n v : Nat) : SameRun s (s.putBytes a n v) := by
  unfold State.putBytes State.putRow
  split
  · exact ⟨rfl, rfl⟩
  · exact (onlyWrites_storeRow s _ _ _).sameRun

theorem sameRun_readReg (s : State) (r : MReg) (mask : Word) : SameRun s (s.readReg r mask).2 := by
  simp only [State.readReg]
  split
  · exact .refl s
  · exact ⟨rfl, rfl⟩

/-- The bytes of eight registers of a page, as they are read one after the other. -/
theorem readSpot_run (s : State) (part : Nat) (sp : Spot) : RowRun s (s.readSpot part sp) := by
  cases sp with
  | mem k =>
    simp only [State.readSpot]
    split
    · trivial
    · exact SameRun.refl s
  | regs off =>
    simp only [State.readSpot]
    split
    · refine List.foldlRecOn (motive := fun x : Nat × State => SameRun s x.2) _ _ (.refl s) fun acc same i _ => ?_
      split
      · exact same
      · exact same.trans (sameRun_readReg _ _ _)
    · trivial
  | fail _ | absent | link => trivial
  | hold => exact SameRun.refl s

theorem writeSpot_run (s : State) (part : Nat) (data : Row) (mask : BitVec 256) (rmw : Bool) (sp : Spot) : RowRun s (s.writeSpot part data mask rmw sp) := by
  cases sp with
  | mem k => exact (onlyWrites_storeRow s k data mask).sameRun
  | regs off =>
    simp only [State.writeSpot]
    split
    · exact SameRun.mk rfl rfl
    · trivial
  | fail _ | absent | link => trivial
  | hold => exact SameRun.refl s

theorem acquire_run (s : State) (o : Origin) (va : Bool) (addr : Nat) : RowRun s (s.acquire o va addr) := by
  unfold State.acquire
  split
  · exact SameRun.refl s
  · split
    · exact SameRun.refl s
    · split
      · exact sameRun_request s _ _ _ _
      · trivial

theorem engineRead_run (s : State) (o : Origin) (va : Bool) (addr : Nat) (via : Via) : RowRun s (s.engineRead o va addr via) := by
  unfold State.engineRead
  split
  · exact sameRun_wakeArray s o va addr
  · trivial
  · trivial
  · trivial
  · have acquired := acquire_run s o va addr
    split
    · rename_i t granted
      rw [granted] at acquired
      exact .of_sameRun (acquired.trans (sameRun_touchLocal t o va addr via)) (readSpot_run _ _ _)
    · exact acquired

theorem engineWrite_run (s : State) (o : Origin) (va : Bool) (addr : Nat) (data : Row) (mask : BitVec 256) (via : Via) :
    RowRun s (s.engineWrite o va addr data mask via) := by
  unfold State.engineWrite
  split
  · exact sameRun_wakeArray s o va addr
  · trivial
  · trivial
  · trivial
  · exact .of_sameRun (sameRun_touchLocal s o va addr via) (writeSpot_run _ _ _ _ _ _)

theorem sameRun_park (s : State) (part va : Nat) (job : Option Nat) (ticket : Word) (src unit done : Nat) (w : ParkWork) :
    SameRun s (s.park part va job ticket src unit done w) := SameRun.trans (by constructor <;> rfl) (sameRun_postFault _ _)

theorem sameRun_parkLink (s : State) (part va : Nat) (w : ParkWork) (width : Nat) : SameRun s (s.parkLink part va w width) :=
  (onlyWrites_parkLink s part va w width).sameRun

theorem sameRun_storeRow (s : State) (k : Nat) (data : Row) (mask : BitVec 256) : SameRun s (s.storeRow k data mask) := (onlyWrites_storeRow s k data mask).sameRun

/-! ### What a collective writes of its own (R376, R381, R383) -/

theorem sameRun_modColl (s : State) (g q : Nat) (f : Coll → Coll) : SameRun s (s.modColl g q f) := ⟨rfl, rfl⟩

theorem sameRun_modChunk (s : State) (g q ch : Nat) (f : Chunk → Chunk) : SameRun s (s.modChunk g q ch f) := ⟨rfl, rfl⟩

theorem sameRun_collFault (s : State) (x : Coll) (cause : Cause) (addr ch : Nat) : SameRun s (s.collFault x cause addr ch) := sameRun_postFault s _

theorem sameRun_ropePark (s : State) (g q : Nat) (x : Coll) (a : Nat) (link : Bool) : SameRun s (s.ropePark g q x a link) := by
  unfold State.ropePark
  split
  · exact sameRun_parkLink s _ _ _ _
  · exact sameRun_park s _ _ _ _ _ _ _ _

theorem sameRun_ropeStops (s : State) (g q : Nat) (x : Coll) (addr : Nat) (sp : Spot) : SameRun s (s.ropeStops g q x addr sp).2 := by
  cases sp with
  | absent | link =>
    simp only [State.ropeStops]
    exact sameRun_ropePark s g q x _ _
  | hold => exact sameRun_wakeArray s _ _ _
  | fail _ | mem _ | regs _ => exact sameRun_collFault s x _ _ _

theorem sameRun_flagPut (s : State) (g q : Nat) (x : Coll) (v : Nat) : SameRun s (s.flagPut g q x v).2.2 := by
  simp only [State.flagPut]
  refine (sameRun_flushPuts s).trans ?_
  generalize s.flushPuts = u
  split
  · exact (sameRun_touchLocal u _ _ _ _).trans (onlyWrites_storeSpan _ _ _ _).sameRun
  · split
    · dsimp only
      exact (onlyWrites_writeAt u _ _ _ _).sameRun
    · exact sameRun_collFault u x _ _ _
  · exact sameRun_ropeStops u g q x _ _

theorem sameRun_reportPut (s : State) (g q : Nat) (x : Coll) (bytes : BitVec 512) : SameRun s (s.reportPut g q x bytes).2 := by
  simp only [State.reportPut]
  refine (sameRun_flushPuts s).trans ?_
  generalize s.flushPuts = u
  split
  · split
    · exact sameRun_collFault u x _ _ _
    · split
      · exact (((sameRun_touchLocal u _ _ _ _).trans (sameRun_storeRow _ _ _ _)).trans (sameRun_putBytes _ _ _ _)).trans ⟨rfl, rfl⟩
      · exact sameRun_ropeStops u g q x _ _
  · exact sameRun_ropeStops u g q x _ _

theorem sameRun_collForget (s : State) (g q : Nat) : SameRun s (s.collForget g q) := by
  unfold State.collForget
  split
  · exact .refl s
  · dsimp only
    split
    · exact ⟨rfl, rfl⟩
    · exact .refl s

theorem sameRun_stamp (s : State) (part cls job ident tenq tstart : Nat) (src : BitVec 16) : SameRun s (s.stamp part cls job ident tenq tstart src) := by
  unfold State.stamp
  split
  · exact ⟨rfl, rfl⟩
  · exact .refl s

theorem sameRun_collFlush (g q : Nat) : ∀ (n : Nat) (s : State), SameRun s (s.collFlush g q n) := by
  intro n
  induction n with
  | zero => exact fun s => .refl s
  | succ n ih =>
    intro s
    simp only [State.collFlush]
    split
    · exact .refl s
    · rename_i x _
      split
      · exact .refl s
      · split
        · split
          · exact ((sameRun_reportPut s g q x _).trans (sameRun_modColl _ _ _ _)).trans (ih _)
          · exact sameRun_reportPut s g q x _
        · have flagged := fun v => (sameRun_flagPut s g q x v).trans (sameRun_modColl _ g q fun y => { y with flag := none, ended := true })
          split
          · split
            · exact ((flagged _).trans (sameRun_stamp _ _ _ _ _ _ _ _)).trans (sameRun_collForget _ g q)
            · exact (flagged _).trans (sameRun_collForget _ g q)
          · exact sameRun_flagPut s g q x _
        · exact sameRun_collForget s g q

theorem sameRun_report (s : State) (g q : Nat) (bytes : BitVec 512) : SameRun s (s.report g q bytes) := (sameRun_modColl s g q _).trans (sameRun_collFlush g q 64 _)

theorem sameRun_collSend (s : State) (x : Coll) (to_ : List Nat) (bytes : Nat) (m : OutMsg) : SameRun s (s.collSend x to_ bytes m) :=
  .foldl (fun _ _ => by constructor <;> rfl) _ s

theorem sameRun_chunkFails (s : State) (g q ch kind member hop expected received : Nat) (local_ : Bool) :
    SameRun s (s.chunkFails g q ch kind member hop expected received local_) := by
  simp only [State.chunkFails]
  split
  · exact .refl s
  · refine SameRun.when (.unless (.trans (.when (.refl s) ?_) (sameRun_modChunk _ g q ch _)) (sameRun_collSend _ _ _ _ _)) (sameRun_report _ g q _)
    exact ⟨rfl, rfl⟩

end Sys2Proof.Proofs

namespace Sys2Proof.Proofs
open Sys2Proof Sys2Proof.Machine Sys2Proof.Safety Sys2Proof.Laws

/-! ### Reading and writing the buffers of a collective (R373, R380) -/

/-- The state that a read of a chunk answers with, if any, runs the same contexts and bundle. -/
def ChunkRun (s : State) : ChunkRead → Prop
  | .ok _ t | .hold t => SameRun s t
  | .fail _ _ | .absent _ | .link _ => True

theorem ChunkRun.of_sameRun {s t : State} {r : ChunkRead} (run : SameRun s t) (h : ChunkRun t r) : ChunkRun s r := by
  cases r with
  | ok _ u | hold u => exact run.trans h
  | fail _ _ | absent _ | link _ => trivial

theorem readChunk_run (o : Origin) : ∀ (n : Nat) (s : State) (va : Nat), ChunkRun s (s.readChunk o va n) := by
  intro n
  induction n with
  | zero => exact fun s _ => SameRun.refl s
  | succ n ih =>
    intro s va
    have first := engineRead_run s o true va .die
    rw [State.readChunk]
    split
    · rename_i r t read
      rw [read] at first
      have rest := ih t (va + 256)
      split
      · rename_i more
        rw [more] at rest
        exact SameRun.trans first rest
      · exact .of_sameRun first rest
    · trivial
    · trivial
    · trivial
    · rename_i t held
      rw [held] at first
      exact first

theorem readElems_run (s : State) (x : Coll) (g q ch : Nat) : ChunkRun s (s.readElems x g q ch) := by
  simp only [State.readElems]
  split
  · exact SameRun.refl s
  · have read := readChunk_run x.org (cdiv (x.inAt ch * (cFmt x.cmd).width + x.size ch * (cFmt x.cmd).width) 2048 - x.inAt ch * (cFmt x.cmd).width / 2048) s
      (x.bufIn + x.inAt ch * (cFmt x.cmd).width / 2048 * 256)
    split
    · rename_i found
      rw [found] at read
      exact read
    · exact read

theorem SameRun.ite_snd {α : Type} {s : State} {c : Prop} [Decidable c] {p q : α × State} (h : SameRun s p.2) (h' : SameRun s q.2) :
    SameRun s (if c then p else q).2 := by
  split
  · exact h
  · exact h'

theorem sameRun_writeBits (x : Coll) (at_ len bits : Nat) (rows : List Nat) (s : State) : SameRun s (s.writeBits x at_ len bits rows).2 := by
  induction rows generalizing s with
  | nil => exact .refl s
  | cons row t ih =>
    simp only [State.writeBits]
    refine .ite_snd (.refl s) (.ite_snd (.refl s) ?_)
    generalize wrote : s.engineWrite x.org true (x.bufOut + 256 * row) _ _ .die = r
    have run := wrote ▸ engineWrite_run s x.org true (x.bufOut + 256 * row) _ _ .die
    cases r with
    | ok _ u => exact SameRun.trans run (ih u)
    | fail _ | absent | link | hold _ => exact .refl s

theorem sameRun_of_writeBits {s u : State} {x : Coll} {at_ len bits : Nat} {rows : List Nat} {e : Option (Cause × Nat)}
    (wrote : s.writeBits x at_ len bits rows = (e, u)) : SameRun s u := by
  have run := sameRun_writeBits x at_ len bits rows s
  rw [wrote] at run
  exact run

theorem sameRun_parkChunk (s : State) (x : Coll) (g q ch a : Nat) (link : Bool) : SameRun s (s.parkChunk x g q ch a link) := by
  unfold State.parkChunk
  split
  · exact .refl s
  · split
    · exact sameRun_parkLink s _ _ _ _
    · exact sameRun_park s _ _ _ _ _ _ _ _

/-! ### The chunks of a collective (R377 to R383) -/

theorem sameRun_collSettle (s : State) (g q : Nat) : SameRun s (s.collSettle g q) := by
  simp only [State.collSettle]
  split
  · exact .refl s
  · exact .when (.refl s) ((sameRun_modColl s g q _).trans (sameRun_collFlush g q 64 _))

theorem sameRun_committedBy (s : State) (g q ch member : Nat) : SameRun s (s.committedBy g q ch member) := by
  simp only [State.committedBy]
  split
  · exact .refl s
  · exact (sameRun_modChunk s g q ch _).trans (sameRun_collForget _ g q)

theorem sameRun_commitChunk (s : State) (g q ch : Nat) : SameRun s (s.commitChunk g q ch) := by
  simp only [State.commitChunk]
  split
  · exact .refl s
  · rename_i x _
    split
    · exact .refl s
    · split
      · exact (sameRun_modChunk s g q ch _).trans (sameRun_chunkFails _ _ _ _ _ _ _ _ _ _)
      · split
        · exact sameRun_parkChunk s _ _ _ _ _ _
        · split
          · rename_i u wrote
            have written := sameRun_of_writeBits wrote
            exact (((written.trans (sameRun_modChunk u g q ch _)).trans (sameRun_committedBy _ g q ch _)).trans (sameRun_collSend _ _ _ _ _)).trans
              (sameRun_collSettle _ g q)
          · rename_i u wrote
            have written := sameRun_of_writeBits wrote
            exact ((written.trans (sameRun_modChunk u g q ch _)).trans (sameRun_chunkFails _ _ _ _ _ _ _ _ _ _)).trans (sameRun_collFault _ _ _ _ _)

theorem sameRun_deliver (s : State) (g q ch : Nat) (e : Int) (data : List Nat) (sum hop : Nat) : SameRun s (s.deliver g q ch e data sum hop) := by
  simp only [State.deliver]
  split
  · exact .refl s
  · split
    · exact .refl s
    · split
      · exact sameRun_chunkFails s _ _ _ _ _ _ _ _ _
      · exact .when (sameRun_modChunk s g q ch _) (sameRun_commitChunk _ g q ch)

theorem sameRun_sendResult (s : State) (x : Coll) (g q ch : Nat) (e : Int) (data : List Nat) (sum hop : Nat) : SameRun s (s.sendResult x g q ch e data sum hop) :=
  (sameRun_collSend s x _ _ _).trans (sameRun_deliver _ _ _ _ _ _ _ _)

theorem sameRun_reduceChunk (s : State) (g q ch : Nat) : SameRun s (s.reduceChunk g q ch) := by
  simp only [State.reduceChunk]
  split
  · exact .refl s
  · split
    · exact .refl s
    · split
      · exact (sameRun_modChunk s g q ch _).trans (sameRun_chunkFails _ _ _ _ _ _ _ _ _ _)
      · exact (sameRun_modChunk s g q ch _).trans (sameRun_sendResult _ _ _ _ _ _ _ _ _)

theorem sameRun_contribute (s : State) (g q ch member : Nat) (data : List Nat) (sum : Nat) (special : Bool) (hop : Nat) :
    SameRun s (s.contribute g q ch member data sum special hop) := by
  simp only [State.contribute]
  split
  · exact .refl s
  · split
    · exact .refl s
    · split
      · exact sameRun_chunkFails s _ _ _ _ _ _ _ _ _
      · split
        · exact ⟨rfl, rfl⟩
        · exact (sameRun_modChunk s g q ch _).trans (sameRun_reduceChunk _ g q ch)

theorem sameRun_readStops {s t : State} {r : ChunkRead} (x : Coll) (g q ch : Nat) (run : SameRun s t) (read : ChunkRun t r) : SameRun s (t.readStops x g q ch r) := by
  cases r with
  | ok _ u => exact run.trans read
  | fail _ _ =>
    simp only [State.readStops]
    exact .when (run.trans ((sameRun_modChunk t g q ch _).trans (sameRun_chunkFails _ _ _ _ _ _ _ _ _ _))) (sameRun_collFault _ _ _ _ _)
  | absent _ | link _ => exact run.trans (sameRun_parkChunk t _ _ _ _ _ _)
  | hold u =>
    simp only [State.readStops]
    exact (run.trans read).trans (sameRun_modChunk u g q ch _)

theorem sameRun_chunkReads (s : State) (x : Coll) (g q ch : Nat) : SameRun s (s.chunkReads x g q ch) := .when (.refl s) (sameRun_modChunk s g q ch _)

theorem sameRun_contributeOwn (s : State) (g q ch : Nat) (e : Int) : SameRun s (s.contributeOwn g q ch e) := by
  simp only [State.contributeOwn]
  split
  · exact .refl s
  · rename_i x _
    have started := sameRun_chunkReads s x g q ch
    generalize s.chunkReads x g q ch = t at started
    have read := readElems_run t x g q ch
    split
    · rename_i u found
      rw [found] at read
      have sourced := (started.trans read).trans (sameRun_modChunk u g q ch fun k => { k with sourced := true })
      split
      · exact sourced.trans (sameRun_contribute _ _ _ _ _ _ _ _ _)
      · exact (sourced.trans (sameRun_collSend _ _ _ _ _)).trans (sameRun_collSettle _ g q)
    · exact sameRun_readStops x g q ch started read

theorem sameRun_exponentIn (s : State) (g q ch member : Nat) (e : Int) : SameRun s (s.exponentIn g q ch member e) := by
  simp only [State.exponentIn]
  split
  · exact .refl s
  · split
    · exact .refl s
    · split
      · exact sameRun_modChunk s g q ch _
      · exact ((sameRun_modChunk s g q ch _).trans (sameRun_collSend _ _ _ _ _)).trans (sameRun_contributeOwn _ _ _ _ _)

theorem sameRun_sourceChunk (s : State) (g q ch : Nat) : SameRun s (s.sourceChunk g q ch) := by
  simp only [State.sourceChunk]
  split
  · exact .refl s
  · rename_i x _
    split
    · exact .refl s
    · have started := sameRun_chunkReads s x g q ch
      generalize s.chunkReads x g q ch = t at started
      have read := readElems_run t x g q ch
      split
      · split
        · rename_i u found
          rw [found] at read
          exact (((started.trans read).trans (sameRun_modChunk u g q ch _)).trans (sameRun_sendResult _ _ _ _ _ _ _ _ _)).trans (sameRun_collSettle _ g q)
        · exact sameRun_readStops x g q ch started read
      · split
        · split
          · exact started.trans (sameRun_contributeOwn _ _ _ _ _)
          · split
            · rename_i u found
              rw [found] at read
              split
              · exact (started.trans read).trans (sameRun_exponentIn _ _ _ _ _ _)
              · exact (started.trans read).trans (sameRun_collSend _ _ _ _ _)
            · exact sameRun_readStops x g q ch started read
        · exact started.trans (sameRun_contributeOwn _ _ _ _ _)

/-! ### HRECH (R382, R387) -/

theorem sameRun_rerunChunk (s : State) (x : Coll) (g q ch : Nat) : SameRun s (s.rerunChunk x g q ch) := by
  simp only [State.rerunChunk]
  split
  · exact .refl s
  · split
    · exact sameRun_sendResult s _ _ _ _ _ _ _ _
    · exact .when (sameRun_collSend s x _ _ _) (sameRun_sourceChunk _ _ _ _)

theorem sameRun_rerun (s : State) (g q : Nat) (l : List Nat) (own : Bool) : SameRun s (s.rerun g q l own) := by
  simp only [State.rerun]
  split
  · split
    · exact ⟨rfl, rfl⟩
    · exact .refl s
  · split
    · exact ⟨rfl, rfl⟩
    · split
      · exact .refl s
      · refine .trans ?_ (.foldl (fun t ch => sameRun_rerunChunk t _ g q ch) _ _)
        exact .when (.refl s) (.foldl (fun t _ => .unless (.refl t) (sameRun_collSend t _ _ _ _)) _ s)

theorem sameRun_rechunk (s : State) (g q : Nat) (l : List Nat) (c : CollCmd) : SameRun s (s.rechunk g q l c) :=
  (sameRun_modColl s g q _).trans (sameRun_rerun _ g q l true)

/-- With no live collective a re-run is counted, and memory stays. -/
theorem rechunk_mem_of_none {s : State} (g q : Nat) (l : List Nat) (c : CollCmd) (none_ : s.colls = []) : (s.rechunk g q l c).mem = s.mem := by
  have gone (f : Coll → Coll) : (s.modColl g q f).coll? g q = none := by simp [State.coll?, State.modColl, none_]
  simp only [State.rechunk, State.rerun, gone]
  rfl

/-- HRECH runs the same contexts, and writes no memory while no collective is live. -/
structure Rechunks (s t : State) : Prop where
  run : SameRun s t
  mem : s.colls = [] → t.mem = s.mem

theorem hrech_rechunks (a : Fin 64) : Gives Rechunks (.hrech a) :=
  gives_of_slot (fun _ => rfl) fun s => leads_ite leads_waits <| leads_pathC fun addrs => leads_ite leads_trapSlot <| leads_of <| by
    have read : SameRun s (s.rowValue (addrs.headD 0)).2 ∧ (s.rowValue (addrs.headD 0)).2.mem = s.mem ∧ (s.rowValue (addrs.headD 0)).2.colls = s.colls := by
      unfold State.rowValue
      simp only
      split <;> exact ⟨⟨rfl, rfl⟩, rfl, rfl⟩
    obtain ⟨run, mem, colls⟩ := read
    have named : SameRun s (s.rowValue (addrs.headD 0)).2.fresh.2 := ⟨run.ctxs, run.issue⟩
    exact ⟨named.trans (sameRun_rechunk _ _ _ _ _),
      fun none_ => (rechunk_mem_of_none (s := (s.rowValue (addrs.headD 0)).2.fresh.2) _ _ _ _ (colls.trans none_)).trans mem⟩

end Sys2Proof.Proofs

namespace Sys2Proof.Proofs
open Sys2Proof Sys2Proof.Machine Sys2Proof.Safety Sys2Proof.Laws

/-! ### Writing one register (R110, R148, R206) -/

/-- A write to the bundle's context changes nothing of the rest of the machine. -/
theorem own_frames (s : State) (f : Ctx → Ctx) : SameModule s (s.own f) ∧ SameOthers s (s.own f) s.issue.key :=
  ⟨rfl, fun _ other => ctx_own_ne s f other⟩

/-- A bit of a vector after another one is set. -/
theorem getLsbD_setBit_ne {n : Nat} (x : BitVec n) {i j : Nat} (b : Bool) (other : j ≠ i) : (setBit x i b).getLsbD j = x.getLsbD j := by
  have unset : (BitVec.ofNat n (2 ^ i)).getLsbD j = false := by
    rw [BitVec.getLsbD_ofNat, Nat.testBit_two_pow_of_ne other.symm, Bool.and_false]
  cases b
  · rw [setBit, if_neg Bool.false_ne_true, BitVec.getLsbD_and, BitVec.getLsbD_not, unset]
    by_cases inside : j < n
    · simp [inside]
    · simp [BitVec.getLsbD_of_ge x j (by omega)]
  · rw [setBit, if_pos rfl, BitVec.getLsbD_or, unset, Bool.or_false]

theorem getP_setP (c : Ctx) (d r : Fin 16) (x : Pred) : (c.setP d x).getP r = if r = d ∧ d ≠ 0 then x else c.getP r := by
  unfold Ctx.setP
  by_cases zero : d = 0
  · simp [zero]
  · rw [if_neg zero]
    by_cases same : r = d
    · subst same
      simp [Ctx.getP, zero]
    · rw [if_neg fun h => same h.1, Ctx.getP, Ctx.getP]
      exact congrArg (ite (r = 0) _) (Vector.getElem_set_ne (by omega) (by omega) fun h => same (Fin.ext h.symm))

theorem getC_setC (c : Ctx) (d r : Fin 8) (x : Bool) : (c.setC d x).getC r = if r = d ∧ d ≠ 0 then x else c.getC r := by
  unfold Ctx.setC
  by_cases zero : d = 0
  · simp [zero]
  · rw [if_neg zero]
    by_cases same : r = d
    · subst same
      rw [if_pos ⟨rfl, zero⟩, Ctx.getC, decide_eq_false zero, Bool.false_or, BitVec.getLsbD_eq_getElem r.isLt]
      exact getElem_setBit _ _ _
    · rw [if_neg fun h => same h.1, Ctx.getC, Ctx.getC]
      exact congrArg (_ || ·) (getLsbD_setBit_ne _ _ fun h => same (Fin.ext h))

/-! ### What memory holds after a write (R263, R268) -/

theorem readLe_writeLe (m : Mem) (a v n : Nat) : (m.writeLe a v (2 ^ n - 1) n).readLe a n = v % 256 ^ n := by
  refine readLe_of_bytes _ n a v fun i inside => ?_
  rw [mem_read_writeLe, Nat.add_sub_cancel_left, Nat.testBit_two_pow_sub_one, if_pos ⟨by omega, by omega, decide_eq_true inside⟩]

theorem fullMask_testBit {i : Nat} (inside : i < 256) : fullMask.toNat.testBit i = true := by
  rw [fullMask, BitVec.toNat_allOnes, Nat.testBit_two_pow_sub_one, decide_eq_true inside]

/-- A full write changes its row and nothing else, poisoned or not. -/
theorem read_writeRow_full (m : Mem) (k : Nat) (data : Row) (z : Nat) : (m.writeRow k data fullMask).read z =
    if k ≤ z ∧ z < k + 256 then BitVec.ofNat 8 (data.toNat / 256 ^ (z - k)) else m.read z := by
  have written : (m.writeRow k data fullMask).read z = (m.writeLe k data.toNat fullMask.toNat 256).read z := by
    unfold Mem.writeRow
    split
    · rw [if_pos rfl, Mem.read, Mem.read]
    · rfl
  rw [written, mem_read_writeLe]
  refine ite_congr (propext ⟨fun h => ⟨h.1, h.2.1⟩, fun h => ⟨h.1, h.2, fullMask_testBit (by omega)⟩⟩) (fun _ => rfl) fun _ => rfl

theorem toNat_lt_bytes {n w : Nat} (whole : w = 8 * n) (x : BitVec w) : x.toNat < 256 ^ n := by
  subst whole
  exact lt_of_lt_of_eq x.isLt (Nat.pow_mul 2 8 n)

theorem row_writeRow_full (m : Mem) (k : Nat) (data : Row) : (m.writeRow k data fullMask).row k = data := by
  have bytes : (m.writeRow k data fullMask).readLe k 256 = data.toNat % 256 ^ 256 :=
    readLe_of_bytes _ 256 k data.toNat fun i inside => by
      rw [read_writeRow_full, if_pos ⟨by omega, by omega⟩, Nat.add_sub_cancel_left]
  rw [Mem.row, bytes, Nat.mod_eq_of_lt (toNat_lt_bytes (n := 256) rfl data), BitVec.ofNat_toNat, BitVec.setWidth_eq]

/-- A full write clears the poison of its row alone. -/
theorem poison_writeRow_full (m : Mem) (k r : Nat) (data : Row) :
    (m.writeRow k data fullMask).poison.contains r = (m.poison.contains r && decide (r ≠ k)) := by
  unfold Mem.writeRow
  split
  · rw [if_pos rfl]
    simp only [List.contains_eq_mem, List.mem_filter, Bool.decide_and, decide_eq_true_eq]
  · rename_i unpoisoned
    rw [mem_writeLe_poison]
    by_cases same : r = k
    · subst same
      simpa using unpoisoned
    · simp [same]

/-- No write reaches past its row. -/
theorem read_writeRow_outside (m : Mem) {k z : Nat} (data : Row) (mask : BitVec 256) (outside : ¬ (k ≤ z ∧ z < k + 256)) :
    (m.writeRow k data mask).read z = m.read z := by
  have bytes : (m.writeLe k data.toNat mask.toNat 256).read z = m.read z := by
    rw [mem_read_writeLe, if_neg fun h => outside ⟨h.1, h.2.1⟩]
  unfold Mem.writeRow
  split
  · split
    · exact bytes
    · rfl
  · exact bytes

theorem rowOf_of_aligned {k : Nat} (aligned : k % 256 = 0) : rowOf k = k := by unfold rowOf; omega

end Sys2Proof.Proofs

namespace Sys2Proof.Proofs
open Sys2Proof Sys2Proof.Machine Sys2Proof.Safety Sys2Proof.Laws

/-! ### The journal that AJNL disarms (R351, R352) -/

/-- Without an armed journal nothing is cleared. -/
theorem disarm_mem_of_unarmed {s : State} {w : Word} (unarmed : ∀ j, s.journal? w = some j → j.armed = false) : (s.disarm w).mem = s.mem := by
  unfold State.disarm
  split
  · rfl
  · rename_i j journal
    simp only [unarmed j journal]
    rfl

/-- Disarming a journal clears rows of its area alone. -/
theorem disarm_read_outside {s : State} {w : Word} {j : Journal} (journal : s.journal? w = some j) {z : Nat}
    (outside : ¬ (localKey (0x1000000000 + j.quad * 0x1000000 + j.row * 256) ≤ z ∧
      z < localKey (0x1000000000 + j.quad * 0x1000000 + j.row * 256) + 256 * j.total)) : (s.disarm w).mem.read z = s.mem.read z := by
  simp only [State.disarm, journal]
  generalize localKey (0x1000000000 + j.quad * 0x1000000 + j.row * 256) = base at outside ⊢
  refine List.foldlRecOn (motive := fun m : Mem => m.read z = s.mem.read z) _ _ rfl fun m same i listed => ?_
  rw [read_writeRow_outside, same]
  have inside : i < j.total := by
    have := List.mem_range.1 listed
    split at this <;> omega
  omega

/-! ### CTXSV (R404) -/

section
variable {R : State → Prop}

theorem leads_dite {c : Prop} [Decidable c] {t u : State} (h : c → Leads R t) (h' : ¬ c → Leads R u) : Leads R (if c then t else u) := by
  split
  · exact h ‹_›
  · exact h' ‹_›

/-- What an operation does once its rows are known. -/
def onRows (held : List ArrayId → State) (range : Nat → State) (ok : List Nat → State) (r : Rows) : State :=
  match r with
  | .held l => held l
  | .range bad => range bad
  | .ok l => ok l

theorem leads_onRows {r : Rows} {held : List ArrayId → State} {range : Nat → State} {ok : List Nat → State} (h : ∀ l, r = .held l → Leads R (held l))
    (h' : ∀ bad, r = .range bad → Leads R (range bad)) (h'' : ∀ l, r = .ok l → Leads R (ok l)) : Leads R (onRows held range ok r) := by
  cases r with
  | held l => exact h l rfl
  | range bad => exact h' bad rfl
  | ok l => exact h'' l rfl

end

theorem boundary_of_undue {s : State} {key : Nat} (undue : s.watchdogDue key = false) : s.boundary key = s := by
  unfold State.boundary
  rw [undue, Bool.and_false, if_neg Bool.false_ne_true]

theorem vacate_keeps (s : State) (key : Nat) : (s.vacate key).issue = s.issue ∧ (s.vacate key).mem = s.mem := by
  simp only [State.vacate]
  split <;> exact ⟨rfl, rfl⟩

/-- A quiet module stays quiet when a context becomes free. -/
theorem Quiet.of_free {s t : State} {key : Nat} (quiet : Quiet s) (others : SameOthers s t key) (free : (t.ctx key).life = .free) : Quiet t := by
  intro k
  by_cases here : k = key
  · rw [here, free]
    exact ⟨by decide, fun h => absurd h (by decide)⟩
  · rw [others k here]
    exact quiet k

/-- The rows of an image, written in turn. -/
def writtenImage (s : State) (image : List (Nat × Row)) : State :=
  image.foldl (fun s e => (s.touch e.1).storeRow (localKey e.1) e.2 fullMask) s

theorem sameRun_writtenImage (s : State) (image : List (Nat × Row)) : SameRun s (writtenImage s image) :=
  SameRun.foldl (fun (t : State) (e : Nat × Row) => .trans (t := t.touch e.1) ⟨rfl, rfl⟩ (sameRun_storeRow (t.touch e.1) (localKey e.1) e.2 fullMask)) image s

theorem read_storeRow_outside (s : State) {k z : Nat} (data : Row) (mask : BitVec 256) (outside : ¬ (k ≤ z ∧ z < k + 256)) :
    (s.storeRow k data mask).mem.read z = s.mem.read z := by
  unfold State.storeRow
  split
  · rfl
  · exact read_writeRow_outside _ _ _ outside

theorem writtenImage_read_outside (s : State) {image : List (Nat × Row)} {z : Nat} (outside : ∀ e ∈ image, ¬ (localKey e.1 ≤ z ∧ z < localKey e.1 + 256)) :
    (writtenImage s image).mem.read z = s.mem.read z :=
  List.foldlRecOn (motive := fun t : State => t.mem.read z = s.mem.read z) image _ rfl fun t same e listed =>
    (read_storeRow_outside (t.touch e.1) _ _ (outside e listed)).trans same

/-- CTXSV of a context with no trap due leaves its own context, and writes rows of the image alone. -/
def SavesImage (a b : Fin 64) (s t : State) : Prop :=
  ∀ l, Quiet s → s.watchdogDue (namedCtx (srcS s b)) = false →
    s.resolve s.issue.src.part.toNat (quadOf s.issue.key) (plainRows (rowOf ((srcS s a).toNat % 2 ^ 40))
      (saveRows (s.ctx (namedCtx (srcS s b))).vregs (decide ((s.ctx (namedCtx (srcS s b))).logical ≠ 0xFF)))) = .ok l →
    t.me = s.me ∧ ∀ z, (∀ r ∈ l, ¬ (localKey r ≤ z ∧ z < localKey r + 256)) → t.mem.read z = s.mem.read z

/-- The context is saved and free, and the module is as quiet as before. -/
theorem savesImage_of_vacated {s : State} {key : Nat} (l : List Nat) (f : Saved × State) (stored : List Saved) (other : s.issue.key ≠ key) (quiet : Quiet s)
    (same : SameRun s f.2) (mem : f.2.mem = s.mem) : let t := ({ writtenImage f.2 (l.zip f.1.image) with stored := stored }.vacate key).settle
    t.me = s.me ∧ ∀ z, (∀ r ∈ l, ¬ (localKey r ≤ z ∧ z < localKey r + 256)) → t.mem.read z = s.mem.read z := by
  intro t
  let u : State := { writtenImage f.2 (l.zip f.1.image) with stored := stored }
  have ran : SameRun s u := (same.trans (sameRun_writtenImage f.2 (l.zip f.1.image))).trans (by constructor <;> rfl)
  obtain ⟨issue, kept⟩ := vacate_keeps u key
  have others : SameOthers s (u.vacate key) key := sameOthers_trans (sameOthers_of_ctxs ran.ctxs key) (vacate_others u key)
  have settled : t = u.vacate key := settle_of_quiet (Quiet.of_free quiet others (vacate_results u key).2.2)
  rw [settled]
  constructor
  · rw [State.me, issue, ran.issue]
    exact others s.issue.key other
  · intro z outside
    rw [kept, ← mem]
    exact writtenImage_read_outside f.2 fun e listed => outside e.1 (List.of_mem_zip listed).1

theorem ctxsv_saves (a b : Fin 64) : Gives (SavesImage a b) (.ctxsv a b) :=
  gives_of_next (fun _ => rfl) fun s => leads_privileged <| leads_slot <| leads_memPath <| leads_dite (fun _ => leads_trapSlot) fun named =>
    leads_ite leads_waits <| by
      have still (undue : s.watchdogDue (namedCtx (srcS s b)) = false) : SameRun s (s.boundary (namedCtx (srcS s b))) ∧ (s.boundary (namedCtx (srcS s b))).mem = s.mem := by
        rw [boundary_of_undue undue]
        exact ⟨.refl s, rfl⟩
      refine leads_onRows (fun _ _ => leads_waits) (fun _ range => ?_) fun addrs found => ?_
      · intro _ l _ _ rows
        exact Rows.noConfusion (rows.symm.trans range)
      · refine leads_ite (fun _ l _ undue _ => ⟨(still undue).1.me, fun z _ => congrArg (·.read z) (still undue).2⟩) fun _ l quiet undue rows => ?_
        obtain rfl : l = addrs := Rows.ok.inj (rows.symm.trans found)
        let f := (s.boundary (namedCtx (srcS s b))).savedForm (namedCtx (srcS s b)) (l.map fun r => SaveRow.named r) false []
        have formed : SameRun s f.2 ∧ f.2.mem = s.mem := ⟨(still undue).1.trans (by constructor <;> rfl), (still undue).2⟩
        exact savesImage_of_vacated l f _ (fun same => named (.inr (.inl same.symm))) quiet formed.1 formed.2

end Sys2Proof.Proofs

namespace Sys2Proof.Proofs
open Sys2Proof Sys2Proof.Machine Sys2Proof.Safety Sys2Proof.Laws

/-! ### Rows of a save are no work of a core (R346) -/

/-- Two states run the same contexts and the same bundle, and their cores hold the same. -/
structure SameCores (s t : State) : Prop where
  ctxs : t.ctxs = s.ctxs
  issue : t.issue = s.issue
  cores : t.cores = s.cores

theorem SameCores.run {s t : State} (h : SameCores s t) : SameRun s t := ⟨h.ctxs, h.issue⟩

theorem SameCores.refl (s : State) : SameCores s s := by constructor <;> rfl

theorem SameCores.trans {s t u : State} (h : SameCores s t) (h' : SameCores t u) : SameCores s u :=
  ⟨h'.ctxs.trans h.ctxs, h'.issue.trans h.issue, h'.cores.trans h.cores⟩

theorem SameCores.foldl {α : Type} {f : State → α → State} (h : ∀ s x, SameCores s (f s x)) (l : List α) (s : State) : SameCores s (l.foldl f s) :=
  List.foldlRecOn (motive := SameCores s) l f (.refl s) fun t same x _ => same.trans (h t x)

theorem sameCores_storeRow (s : State) (k : Nat) (data : Row) (mask : BitVec 256) : SameCores s (s.storeRow k data mask) :=
  have run := sameRun_storeRow s k data mask
  ⟨run.ctxs, run.issue, (onlyWrites_storeRow s k data mask).get (·.cores) rfl⟩

theorem sameCores_startExit (s : State) (a : ArrayId) : SameCores s (s.startExit a) := by
  have set (r : Retain) : SameCores s (s.setRetain r a) := by cases a <;> constructor <;> rfl
  unfold State.startExit
  split
  · exact set _
  · exact set _
  · exact .refl s
  · exact .refl s

theorem sameCores_touchKey (s : State) (k : Nat) : SameCores s (s.touchKey k) := by
  unfold State.touchKey
  split
  · constructor <;> rfl
  · exact .refl s

theorem sameCores_wakeRow (s : State) (part q : Nat) (r : SaveRow) : SameCores s (s.wakeRow part q r) := by
  unfold State.wakeRow
  split
  · constructor <;> rfl
  all_goals
    split
    · exact sameCores_startExit s _
    · exact .refl s

theorem sameCores_putSave (s : State) (part q : Nat) (l : List (SaveRow × Row)) : SameCores s (s.putSave part q l) := by
  refine .foldl (fun t e => ?_) l s
  split
  · exact (sameCores_touchKey t _).trans (sameCores_storeRow _ _ _ _)
  all_goals exact .refl t

theorem sameCores_placeRows : ∀ (l : List Row) (s : State) (x : Saved), SameCores s (s.placeRows x l).2 := by
  intro l
  induction l with
  | nil => exact fun s _ => .refl s
  | cons row l ih =>
    intro s x
    rw [State.placeRows]
    split
    · exact .refl s
    · split
      · exact (sameCores_putSave s _ _ _).trans (ih _ _)
      all_goals exact sameCores_wakeRow s _ _ _

theorem sameCores_logItem (s : State) (x : Saved) (item : LogItem) : SameCores s (s.logItem x item).2 := sameCores_placeRows _ s _

theorem sameCores_logAll (f : Saved → Option (Saved × LogItem)) : ∀ (l : List Saved) (s : State), SameCores s (s.logAll f l).2 := by
  intro l
  induction l with
  | nil => exact fun s => .refl s
  | cons x l ih =>
    intro s
    rw [State.logAll]
    split
    · exact ih s
    · exact (sameCores_logItem s _ _).trans (ih _)

/-! ### Receives that are served (R337) -/

theorem chan_modChan (s : State) (core ch n k : Nat) (f : Chan → Chan) :
    (s.modChan core ch f).chan n k = if n = core ∧ k = ch then f (s.chan core ch) else s.chan n k := by
  unfold State.chan State.modChan
  by_cases here : n = core
  · subst here
    rw [core_modCore_same]
    by_cases this : k = ch
    · subst this
      rw [tgetD_tset_same, if_pos ⟨rfl, rfl⟩]
    · rw [tgetD_tset_ne _ _ _ this, if_neg fun h => this h.2]
  · rw [core_modCore_ne _ _ here, if_neg fun h => here h.1]

theorem chan_of_cores {s t : State} (h : t.cores = s.cores) (n k : Nat) : t.chan n k = s.chan n k := by rw [State.chan, State.core, h]; rfl

/-- No result under way of a context is that of a receive. -/
def Unasked (s : State) (c : Ctx) : Prop := ∀ l ∈ c.inflight, ∀ n k, ∀ r ∈ (s.chan n k).recvs, l.id ≠ r.id

/-- Receives are served: their values go to the contexts that wait for them. -/
structure Serves (s t : State) : Prop where
  issue : t.issue = s.issue
  recvs : ∀ n k, (t.chan n k).recvs ⊆ (s.chan n k).recvs
  still : ∀ j, (t.ctx j).life = (s.ctx j).life ∧ (t.ctx j).wait = (s.ctx j).wait
  unasked : ∀ j, Unasked s (s.ctx j) → t.ctx j = s.ctx j

theorem SameCores.serves {s t : State} (h : SameCores s t) : Serves s t where
  issue := h.issue
  recvs n k := by rw [chan_of_cores h.cores]; exact List.Subset.refl _
  still j := by rw [ctx_of_ctxs h.ctxs]; exact ⟨rfl, rfl⟩
  unasked j _ := ctx_of_ctxs h.ctxs j

theorem Serves.trans {s t u : State} (h : Serves s t) (h' : Serves t u) : Serves s u where
  issue := h'.issue.trans h.issue
  recvs n k := List.Subset.trans (h'.recvs n k) (h.recvs n k)
  still j := ⟨(h'.still j).1.trans (h.still j).1, (h'.still j).2.trans (h.still j).2⟩
  unasked j clear := by
    have same := h.unasked j clear
    rw [← same]
    refine h'.unasked j fun l under n k r waits => ?_
    rw [same] at under
    exact clear l under n k r (h.recvs n k waits)

theorem Serves.foldl {α : Type} {f : State → α → State} (h : ∀ s x, Serves s (f s x)) (l : List α) (s : State) : Serves s (l.foldl f s) :=
  List.foldlRecOn (motive := Serves s) l f (SameCores.refl s).serves fun t served x _ => served.trans (h t x)

/-- A channel whose receives become fewer. -/
theorem serves_modChan (s : State) (core ch : Nat) {f : Chan → Chan} (fewer : (f (s.chan core ch)).recvs ⊆ (s.chan core ch).recvs) : Serves s (s.modChan core ch f) where
  issue := rfl
  recvs n k := by
    rw [chan_modChan]
    split
    · rename_i here
      rw [here.1, here.2]
      exact fewer
    · exact List.Subset.refl _
  still _ := ⟨rfl, rfl⟩
  unasked _ _ := rfl

theorem answer_of_unnamed {c : Ctx} {id : Nat} (value : VReg) (poison : Option Nat) (due : Nat) (unnamed : ∀ l ∈ c.inflight, l.id ≠ id) :
    c.answer id value poison due = c := by
  have same : (c.inflight.map fun l => if l.id = id then { l with value := some value, poison := poison, due := max l.due due } else l) = c.inflight :=
    (List.map_congr_left fun l under => if_neg (unnamed l under)).trans (List.map_id _)
  rw [Ctx.answer, same]

/-- A value goes to the contexts, and past them to saved ones. -/
theorem sameCores_answer (s : State) (id : Nat) (value : VReg) (poison : Option Nat) (latency kind : Nat) :
    SameCores (s.mapCtxs fun c => c.answer id value poison (s.now + latency)) (s.answer id value poison latency kind) := by
  simp only [State.answer, State.answerWith]
  exact ((sameCores_logAll _ _ _).trans (sameCores_logAll _ _ _)).trans (by constructor <;> rfl)

/-- The value of a receive that a channel held goes to the contexts. -/
theorem serves_mapCtxs {s : State} {core ch : Nat} {f : Chan → Chan} {r : Recv} (value : VReg) (poison : Option Nat) (due : Nat)
    (fewer : (f (s.chan core ch)).recvs ⊆ (s.chan core ch).recvs) (held : r ∈ (s.chan core ch).recvs) :
    Serves s ((s.modChan core ch f).mapCtxs fun c => c.answer r.id value poison due) := by
  have popped := serves_modChan s core ch fewer
  have ctx (j : Nat) : ((s.modChan core ch f).mapCtxs fun c => c.answer r.id value poison due).ctx j = (s.ctx j).answer r.id value poison due :=
    ctx_mapCtxs (s.modChan core ch f) (f := fun c => c.answer r.id value poison due) rfl j
  exact { issue := rfl, recvs := popped.recvs, still := fun j => by rw [ctx]; exact ⟨rfl, rfl⟩,
          unasked := fun j clear => by rw [ctx]; exact answer_of_unnamed _ _ _ fun l under => clear l under core ch r held }

theorem serves_serveChan (core ch : Nat) : ∀ (n : Nat) (s : State), Serves s (s.serveChan core ch n) := by
  intro n
  induction n with
  | zero => exact fun s => (SameCores.refl s).serves
  | succ n ih =>
    intro s
    simp only [State.serveChan]
    split
    · rename_i x xs r rs _ recvs
      split
      · exact (SameCores.refl s).serves
      · refine .trans ?_ (ih _)
        have served (v : VReg) : Serves s ((s.modChan core ch fun k => { k with elems := xs, recvs := rs }).answer r.id v x.poison 0 2) :=
          .trans (serves_mapCtxs v x.poison _ (by rw [recvs]; exact List.subset_cons_self _ _) (by rw [recvs]; exact List.mem_cons_self)) (sameCores_answer _ _ _ _ _ _).serves
        split
        · exact (served _).trans (serves_modChan _ _ _ (List.Subset.refl _))
        · exact served _
    · exact (SameCores.refl s).serves

theorem serves_serveRecvs (s : State) (key : Nat) : Serves s (s.serveRecvs key) :=
  Serves.foldl (fun (t : State) (e : Nat × Nat) => serves_serveChan e.1 e.2 64 t) _ s

end Sys2Proof.Proofs

namespace Sys2Proof.Proofs
open Sys2Proof Sys2Proof.Machine Sys2Proof.Safety Sys2Proof.Laws

/-! ### What befalls one context -/

/-- Every other context and the bundle under way stay, and the context does not come to its end. -/
structure Confined (key : Nat) (s t : State) : Prop where
  issue : t.issue = s.issue
  others : SameOthers s t key
  goes : (s.ctx key).life ≠ .ending → (t.ctx key).life ≠ .ending

theorem SameRun.confined {s t : State} (h : SameRun s t) (key : Nat) : Confined key s t :=
  ⟨h.issue, sameOthers_of_ctxs h.ctxs key, fun goes => by rw [ctx_of_ctxs h.ctxs]; exact goes⟩

theorem Confined.trans {key : Nat} {s t u : State} (h : Confined key s t) (h' : Confined key t u) : Confined key s u :=
  ⟨h'.issue.trans h.issue, sameOthers_trans h.others h'.others, fun goes => h'.goes (h.goes goes)⟩

theorem confined_modCtx (s : State) (key : Nat) {f : Ctx → Ctx} (lives : ∀ c, (f c).life = c.life) : Confined key s (s.modCtx key f) :=
  ⟨rfl, sameOthers_modCtx s key f, fun goes => by rw [ctx_modCtx_same, lives]; exact goes⟩

theorem confined_leaveCtx (s : State) (key : Nat) : Confined key s (s.leaveCtx key) := by
  have unarmed : ((s.modCtx key fun c => { c with armed := none }).ctx key).armed = none := by rw [ctx_modCtx_same]
  refine ⟨?_, sameOthers_trans (sameOthers_modCtx s key _) (freeCtx_of_unarmed_others unarmed), fun _ => ?_⟩
  · simp only [State.leaveCtx, State.freeCtx, unarmed]
    rfl
  · rw [show ((s.leaveCtx key).ctx key).life = .free from (freeCtx_of_unarmed unarmed).1]
    decide

theorem confined_writeOut (s : State) (key : Nat) (pc : Offset) : Confined key s (s.writeOut key pc) := by
  unfold State.writeOut
  simp only
  split
  · exact .trans (SameRun.confined (by constructor <;> rfl) key) (confined_leaveCtx _ key)
  · exact (SameRun.refl s).confined key

theorem confined_sleepOut (s : State) (key : Nat) : Confined key s (s.sleepOut key) := by
  unfold State.sleepOut
  simp only
  split
  · exact .trans (SameRun.confined (by constructor <;> rfl) key) (confined_leaveCtx _ key)
  · exact (SameRun.refl s).confined key

theorem abandon_life (s : State) (key info : Nat) : ((s.abandon key info).ctx key).life = .free ∨ ((s.abandon key info).ctx key).life = .abandoned := by
  by_cases alone : (s.ctx key).logical = 0xFF
  · exact .inl ((abandon_ctx s key info).2 alone)
  · right
    simp only [State.abandon, if_pos alone, ctx_modCtx_same]

theorem confined_takeTrap (s : State) (key : Nat) (cause : Cause) (fslots islots : Nat) (pc saved : Offset) (faddr : Word) (info : BitVec 32) :
    Confined key s (s.takeTrap key cause fslots islots pc saved faddr info) := by
  refine ⟨takeTrap_issue .., (takeTrap_ctx ..).1, fun goes => ?_⟩
  rcases takeTrap_cases s key cause fslots islots pc saved faddr info with ⟨u, -, -, written, run⟩ | ⟨u, -, run⟩
  · rw [run, ctx_modCtx_same]
    exact (congrArg (·.2.1) (writeTrapRecord_ctx written).2).trans_ne goes
  · rw [run]
    rcases abandon_life u key cause.toNat with life | life <;> rw [life] <;> decide

/-! ### A context that sleeps again (R332) -/

/-- What a test of a word leaves runs the same. -/
def TestRan (s : State) : WordTest → Prop
  | .tested _ u => SameRun s u
  | .held u => SameRun s u
  | .range => True

/-- The test of a word only notes the access, or starts an exit. (The function is unfolded before it meets its arguments: the kernel would else count down from
the base of the local addresses.) -/
theorem testWord_ran {s : State} {ticket : Word} {part addr : Nat} {val : Word} {mode : Fin 4} {outcome : WordTest}
    (run : s.testWord ticket part addr val mode = outcome) : TestRan s outcome := by
  have read (a : Nat) (bad : Bool) (w : Word) : SameRun s (if bad then (s.touch a).freeVal 64 else (w, s.touch a)).2 := by
    split <;> constructor <;> rfl
  obtain ⟨code, same⟩ : ∃ f, f = @State.testWord := ⟨_, rfl⟩
  rw [← same] at run
  delta State.testWord at same
  rw [same] at run
  beta_reduce at run
  generalize s.reach part 0 _ = reached at run
  cases reached with
  | range =>
    subst run
    trivial
  | hold arr =>
    subst run
    cases arr with
    | some x => exact sameRun_startExit s x
    | none => exact .refl s
  | ok a =>
    subst run
    exact read a _ _

/-- A context that waits for a word, listed or in place. -/
def awaitingWord (c : Ctx) (at_ : Option Nat) (addr : Nat) (val : Word) (mode : Fin 4) : Ctx := { c with wait := .word at_ addr val mode }

/-- A context whose test has failed sleeps in the monitor table, or waits in place. -/
theorem confined_again (u : State) (key addr : Nat) (val : Word) (mode : Fin 4) (at_ : Nat) (room : Prop) [Decidable room] (e : MonEntry) : Confined key u (if room
    then ((u.fresh.2.modCtx key fun c => awaitingWord c none addr val mode).modQuad (quadOf key) fun x => { x with monitor := x.monitor ++ [e] }).showMonitor (quadOf key)
    else (u.count .monstat (quadOf key) 63 32 1).modCtx key fun c => awaitingWord c (some at_) addr val mode) := by
  have waits (t : State) (w : Option Nat) : Confined key t (t.modCtx key fun c => awaitingWord c w addr val mode) := confined_modCtx t key fun _ => rfl
  split
  · exact .trans (t := u.fresh.2) (SameRun.confined (by constructor <;> rfl) key) <|
      (waits u.fresh.2 none).trans (SameRun.confined (by constructor <;> rfl) key)
  · exact .trans (t := u.count .monstat (quadOf key) 63 32 1) (SameRun.confined (by constructor <;> rfl) key) (waits _ _)

theorem confined_sleepAgain (s : State) (key : Nat) : Confined key s (s.sleepAgain key) := by
  obtain ⟨test, same⟩ : ∃ f, f = @State.testWord := ⟨_, rfl⟩
  have ran {t : State} {ticket : Word} {part addr : Nat} {val : Word} {mode : Fin 4} {outcome : WordTest} (run : test t ticket part addr val mode = outcome) :
      TestRan t outcome := testWord_ran (same ▸ run)
  unfold State.sleepAgain
  rw [← same]
  dsimp only
  split
  · split
    · rename_i u outcome
      exact (SameRun.confined (ran outcome) key).trans (confined_modCtx u key fun _ => rfl)
    · rename_i u outcome
      exact (SameRun.confined (ran outcome) key).trans (confined_again u key _ _ _ _ _ _)
    · rename_i u outcome
      exact (SameRun.confined (ran outcome) key).trans (confined_again u key _ _ _ _ _ _)
    · exact confined_takeTrap s key _ _ _ _ _ _ _
  · exact (SameRun.refl s).confined key

/-! ### Settling -/

/-- What settling does to one context. -/
def settleOne (s : State) (k : Nat) : State :=
  match (s.ctx k).life, (s.ctx k).wait with
  | .ending, _ => s.finishEnd k
  | .running, .drain paths => if (s.ctx k).drained paths then s.modCtx k fun c => { c with wait := .none } else s
  | .running, .tlb ids => if s.parked.any fun p => ids.contains p.id then s else s.modCtx k fun c => { c with wait := .none }
  | .running, .suspend pc => s.writeOut k pc
  | .running, .word none _ _ _ => s.sleepOut k
  | _, _ => s

theorem settle_eq (s : State) : s.settle = (s.ctxs.map (·.1)).foldl settleOne s := rfl

theorem confined_settleOne {s : State} {k : Nat} (goes : (s.ctx k).life ≠ .ending) : Confined k s (settleOne s k) := by
  have woken : Confined k s (s.modCtx k fun c => { c with wait := .none }) := confined_modCtx s k fun _ => rfl
  have stays : Confined k s s := (SameRun.refl s).confined k
  unfold settleOne
  split
  · exact absurd ‹_› goes
  · split
    · exact woken
    · exact stays
  · split
    · exact stays
    · exact woken
  · exact confined_writeOut s k _
  · exact confined_sleepOut s k
  · exact stays

/-- A context that waits for nothing and has not come to its end stays. -/
theorem settleOne_of_quiet {s : State} {k : Nat} (goes : (s.ctx k).life ≠ .ending) (ready : (s.ctx k).life = .running → (s.ctx k).wait = .none) : settleOne s k = s := by
  have idle (w : Wait) (some_ : w ≠ .none) (runs : (s.ctx k).life = .running) (waits : (s.ctx k).wait = w) : False := some_ (waits.symm.trans (ready runs))
  unfold settleOne
  split
  · exact absurd ‹_› goes
  · exact (idle _ Wait.noConfusion ‹_› ‹_›).elim
  · exact (idle _ Wait.noConfusion ‹_› ‹_›).elim
  · exact (idle _ Wait.noConfusion ‹_› ‹_›).elim
  · exact (idle _ Wait.noConfusion ‹_› ‹_›).elim
  · rfl

/-- Every context but one waits for nothing and has not come to its end. -/
def QuietBut (key : Nat) (s : State) : Prop :=
  (s.ctx key).life ≠ .ending ∧ ∀ k, k ≠ key → (s.ctx k).life ≠ .ending ∧ ((s.ctx k).life = .running → (s.ctx k).wait = .none)

theorem Confined.quietBut {key : Nat} {s t : State} (h : Confined key s t) (quiet : QuietBut key s) : QuietBut key t :=
  ⟨h.goes quiet.1, fun k other => by rw [h.others k other]; exact quiet.2 k other⟩

theorem confined_settle {key : Nat} {s : State} (quiet : QuietBut key s) : Confined key s s.settle := by
  rw [settle_eq]
  refine List.foldlRecOn (motive := Confined key s) _ _ ((SameRun.refl s).confined key) fun t confined k _ => ?_
  obtain ⟨goes, rest⟩ := confined.quietBut quiet
  by_cases here : k = key
  · rw [here]
    exact confined.trans (confined_settleOne goes)
  · rw [settleOne_of_quiet (rest k here).1 (rest k here).2]
    exact confined

end Sys2Proof.Proofs

namespace Sys2Proof.Proofs
open Sys2Proof Sys2Proof.Machine Sys2Proof.Safety Sys2Proof.Laws

/-! ### CTXLD (R405) -/

theorem setC_life (c : Ctx) (d : Fin 8) (x : Bool) : (c.setC d x).life = c.life := by
  unfold Ctx.setC
  split <;> rfl

theorem setDst_life (c : Ctx) (d : Dst) (x : VReg) : (c.setDst d x).life = c.life := by
  cases d with
  | s r => exact setS_life c r _
  | v _ => rfl
  | c r => exact setC_life c r _
  | p _ | bt _ | lc _ _ | sys _ => rfl

theorem replay_life (c : Ctx) (x : LogItem) : (c.replay x).life = c.life := by
  have cond : (c.replayCond x).life = c.life := by
    unfold Ctx.replayCond
    split
    · exact setC_life c _ _
    · rfl
  unfold Ctx.replay
  dsimp only
  split
  · split
    · split <;> exact (setDst_life _ _ _).trans cond
    · exact cond
  · exact cond

theorem anchored_life (c : Ctx) (now : Nat) : (c.anchored now).life = c.life := by
  unfold Ctx.anchored
  split <;> rfl

/-- A context that is restored leaves every other one that waits for no receive. -/
theorem restore_leaves {s u : State} {x : Saved} {key : Nat} (same : SameCores s u) (other : s.issue.key ≠ key) (quiet : Quiet s) (goes : x.ctx.life ≠ .ending)
    (unasked : Unasked s s.me) : (u.restore x key none).me = s.me := by
  let waking : Ctx := { x.ctx with life := if x.ctx.life = .stopped then .running else x.ctx.life, chunks := (u.ctx key).chunks, watch := u.now, stopReq := false }
  let c : Ctx := if waking.waitsLanding then waking.anchored u.now else waking
  let v : State := u.setCtx key (x.log.foldl Ctx.replay c)
  have wakes : waking.life ≠ .ending := by
    change (if x.ctx.life = .stopped then Life.running else x.ctx.life) ≠ .ending
    split
    · decide
    · exact goes
  have lives : c.life = waking.life := by
    simp only [c]
    split
    · exact anchored_life waking _
    · rfl
  have replayed : (x.log.foldl Ctx.replay c).life = c.life :=
    List.foldlRecOn (motive := fun y : Ctx => y.life = c.life) x.log _ rfl fun y h item _ => (replay_life y item).trans h
  have loaded (j : Nat) (h : j ≠ key) : v.ctx j = s.ctx j := (ctx_setCtx_ne u _ h).trans (ctx_of_ctxs same.ctxs j)
  have served : Serves v (v.serveRecvs key) := serves_serveRecvs v key
  have quietBut : QuietBut key (v.serveRecvs key) := by
    refine ⟨?_, fun k h => ?_⟩
    · rw [(served.still key).1, ctx_setCtx_same, replayed, lives]
      exact wakes
    · rw [(served.still k).1, (served.still k).2, loaded k h]
      exact quiet k
  have slept := confined_sleepAgain (v.serveRecvs key) key
  have settled : Confined key (v.serveRecvs key) (u.restore x key none) := slept.trans (confined_settle (slept.quietBut quietBut))
  have own : v.ctx s.issue.key = s.me := loaded _ other
  have clear : Unasked v (v.ctx s.issue.key) := by
    rw [own]
    intro l under n k
    rw [chan_of_cores (t := v) (s := s) same.cores]
    exact unasked l under n k
  rw [State.me, settled.issue, served.issue, show v.issue = s.issue from same.issue, settled.others _ other, served.unasked _ clear]
  exact own

theorem sameCores_touchRows (s : State) (a n : Nat) : SameCores s (s.touchRows a n) := by
  refine .foldl (fun t r => ?_) _ s
  split
  · constructor <;> rfl
  · exact .refl t

/-- CTXLD leaves the context that issues it, unless that one waits for a receive. -/
def LeavesOwn (s t : State) : Prop := Quiet s → (∀ z ∈ s.stored ++ s.saved, z.ctx.life ≠ .ending) → Unasked s s.me → t.me = s.me

theorem ctxld_leaves (a b : Fin 64) : Gives LeavesOwn (.ctxld a b) :=
  gives_of_next (fun _ => rfl) fun s => leads_privileged <| leads_slot <| leads_memPath <| leads_dite (fun _ => leads_trapSlot) fun named => leads_ite leads_trapSlot <| by
    split
    · exact leads_trapSlot
    · exact leads_waits
    · split
      · split
        · exact leads_waits
        · exact leads_trapSlot
      · rename_i x found
        refine leads_ite (fun _ quiet goes unasked => ?_) leads_trapSlot
        exact restore_leaves ((sameCores_touchRows s _ _).trans (by constructor <;> rfl)) (fun same => named (.inr same.symm)) quiet (goes x (List.mem_of_find?_eq_some found)) unasked

end Sys2Proof.Proofs

namespace Sys2Proof.Proofs
open Sys2Proof Sys2Proof.Machine Sys2Proof.Safety Sys2Proof.Laws

/-! ### Frames and memory writes (R110, R119, R148, R206, R263, R268) -/

section
variable (d a b : Fin 256) (e x y ch : Fin 64) (p : Fin 16) (n1 cb q : Fin 8) (k : Fin 32) (which : Fin 16) (eng c4 : Fin 4) (be af : BitVec 8) (all : Bool)

/-- What is in flight is all that these operations change of their context, and memory stays. -/
theorem commands_flight : ∀ i ∈ [.vld d x n1, .vldp d x y n1, .vldx d x b, .sld e x k, .copy a q, .fence be af q, .drain be q, .qpush a x, .qpop d x, .qtry d x cb, .aset x y which q,
    .tgo x eng, .trel x eng, .tlbi x all, .ttask a, .ttaskr a b n1, .tqcfg x y, .tstat e which, .tevict x, .rcadd a p, .rcsnap d, .send ch a n1, .ssend ch x, .chcfg ch x, .hcoll x],
    Gives OnlyFlight i := by
  simp only [List.forall_mem_cons, List.not_mem_nil, IsEmpty.forall_iff, implies_true, and_true]
  exact ⟨vld_flight _ _ _, vldp_flight _ _ _ _, vldx_flight _ _ _, sld_flight _ _ _, copy_flight _ _, fence_flight _ _ _, drain_flight _ _, qpush_flight _ _, qpop_flight _ _, qtry_flight _ _ _, aset_flight _ _ _ _,
    tgo_flight _ _, trel_flight _ _, tlbi_flight _ _, ttask_flight _, ttaskr_flight _ _ _, tqcfg_flight _ _, tstat_flight _ _, tevict_flight _, rcadd_flight _ _, rcsnap_flight _,
    send_flight _ _ _, ssend_flight _ _, chcfg_flight _ _, hcoll_flight _⟩

theorem queries_puts : ∀ i ∈ [.tlate e, .chqry ch e c4, .hqry e x], Gives (PutsS e) i := by
  simp only [List.forall_mem_cons, List.not_mem_nil, IsEmpty.forall_iff, implies_true, and_true]
  exact ⟨tlate_puts _, chqry_puts _ _ _, hqry_puts _ _⟩

theorem receives_flight : ∀ i ∈ [.recv ch a n1, .recvadd ch a n1, .srecv ch e], Gives OnlyFlight i := by
  simp only [List.forall_mem_cons, List.not_mem_nil, IsEmpty.forall_iff, implies_true, and_true]
  exact ⟨recv_flight _ _ _, recvadd_flight _ _ _, srecv_flight _ _⟩

theorem stores_run : ∀ i ∈ [.vst d x p n1, .vstp d x y p n1, .vstx d x b p, .sst e x k], Gives SameRun i := by
  simp only [List.forall_mem_cons, List.not_mem_nil, IsEmpty.forall_iff, implies_true, and_true]
  exact ⟨vst_run _ _ _ _, vstp_run _ _ _ _ _, vstx_run _ _ _ _, sst_run _ _ _⟩

end

theorem sameMem_of_mem {s t : State} (h : t.mem = s.mem) : SameMem s t := ⟨fun _ => by rw [h], fun _ => by rw [h]⟩

/-- What a row write leaves, on a poisoned row and on another one. -/
theorem writeRow_results (m : Mem) (k : Nat) (data : Row) (mask : BitVec 256) (aligned : k % 256 = 0) : let t := m.writeRow k data mask
    (m.poisoned k = false → t.poison = m.poison ∧
      ∀ z, t.read z = if k ≤ z ∧ z < k + 256 ∧ mask.getLsbD (z - k) = true then BitVec.ofNat 8 (data.toNat / 256 ^ (z - k)) else m.read z) ∧
    (m.poisoned k = true → mask ≠ fullMask → t = m) ∧
    (mask = fullMask → t.row k = data ∧ t.poisoned k = false ∧ ∀ z, rowOf z ≠ k → t.read z = m.read z ∧ t.poisoned z = m.poisoned z) := by
  intro t
  have poisoned : m.poisoned k = m.poison.contains k := by rw [Mem.poisoned, rowOf_of_aligned aligned]
  rw [poisoned]
  refine ⟨fun clean => ⟨?_, fun z => mem_read_writeRow data mask z clean⟩, fun bad masked => ?_, fun full => ?_⟩
  · simp only [t, Mem.writeRow, clean, if_neg Bool.false_ne_true]
    exact mem_writeLe_poison ..
  · exact (if_pos bad).trans (if_neg masked)
  · have run : t = m.writeRow k data fullMask := by rw [← full]
    rw [run]
    refine ⟨row_writeRow_full m k data, ?_, fun z other => ⟨?_, ?_⟩⟩
    · rw [Mem.poisoned, poison_writeRow_full, rowOf_of_aligned aligned, decide_eq_false fun h => h rfl, Bool.and_false]
    · refine read_writeRow_outside m data fullMask fun inside => other ?_
      unfold rowOf
      omega
    · rw [Mem.poisoned, poison_writeRow_full, decide_eq_true other, Bool.and_true, Mem.poisoned]

/-- Settles O58. -/
theorem framesAndMemoryWrites : Obligations.FramesAndMemoryWrites := by
  unfold Obligations.FramesAndMemoryWrites
  refine ⟨fun s d x => ⟨me_own s _, (own_frames s _).1, (own_frames s _).2, fun r => ?_⟩, fun s d x => ⟨me_own s _, (own_frames s _).1, (own_frames s _).2, fun r => ?_⟩,
    fun s d x => ⟨me_own s _, (own_frames s _).1, (own_frames s _).2, fun r => ?_⟩, fun s d x => ⟨me_own s _, (own_frames s _).1, (own_frames s _).2, fun r => ?_⟩, ?_,
    readLe_writeLe, writeRow_results⟩
  · rw [putS, me_own]
    exact getS_setS s.me d r x
  · rw [putV, me_own]
    exact getV_setV s.me d r x
  · rw [putP, me_own]
    exact getP_setP s.me d r x
  · rw [putC, me_own]
    exact getC_setC s.me d r x
  · intro s t i d a b e x y ch p n1 cb q k which eng c4 be af all run goes
    refine ⟨fun listed => ?_, ?_, fun listed => queries_puts e x ch c4 i listed s t run goes, ?_, ?_, ?_, fun listed => ?_, fun listed => (stores_run d b e x y p n1 k i listed s t run goes).me⟩
    · have only := commands_flight d a b e x y ch p n1 cb q k which eng be af all i listed s t run goes
      exact ⟨only.flight, only.sameMem⟩
    · rintro rfl
      have disarms := ajnl_disarms x s t run goes
      refine ⟨disarms.run.me, fun unarmed => sameMem_of_mem (disarms.mem.trans (disarm_mem_of_unarmed unarmed)), fun j journal => fun z outside => ?_⟩
      rw [disarms.mem]
      exact disarm_read_outside journal outside
    · rintro rfl
      have rechunks := hrech_rechunks x s t run goes
      exact ⟨rechunks.run.me, fun idle => sameMem_of_mem (rechunks.mem idle)⟩
    · rintro l rfl
      exact ctxsv_saves x y s t run goes l
    · rintro rfl
      exact ctxld_leaves x y s t run goes
    · have only := receives_flight a e ch n1 i listed s t run goes
      exact ⟨only.flight, fun _ => only.sameMem⟩

end Sys2Proof.Proofs

namespace Sys2Proof.Proofs
open Sys2Proof Sys2Proof.Machine Sys2Proof.Safety Sys2Proof.Laws

/-! ### Division (R151) -/

section Ready
variable {s : State} {d a b : Fin 64} (ready : Ready s [.s a, .s b] [.s d])
include ready

theorem div_of_ready : exec (.div d a b) s =
    .next (putS s d (if srcS s b = 0 then BitVec.allOnes 64 else BitVec.ofInt 64 ((srcS s a).toInt.tdiv (srcS s b).toInt))) :=
  show execDiv d a b s = _ from bin_of_ready ready _

theorem divu_of_ready : exec (.divu d a b) s =
    .next (putS s d (if srcS s b = 0 then BitVec.allOnes 64 else BitVec.ofNat 64 ((srcS s a).toNat / (srcS s b).toNat))) :=
  show execDivu d a b s = _ from bin_of_ready ready _

theorem rem_of_ready : exec (.rem d a b) s = .next (putS s d (if srcS s b = 0 then srcS s a else BitVec.ofInt 64 ((srcS s a).toInt.tmod (srcS s b).toInt))) :=
  show execRem d a b s = _ from bin_of_ready ready _

theorem remu_of_ready : exec (.remu d a b) s = .next (putS s d (if srcS s b = 0 then srcS s a else BitVec.ofNat 64 ((srcS s a).toNat % (srcS s b).toNat))) :=
  show execRemu d a b s = _ from bin_of_ready ready _

end Ready

/-- A quotient of words that does not overflow is a word. -/
theorem toInt_ofInt_tdiv {u v : Word} (fits : ¬ (u = 0x8000000000000000 ∧ v = 0xFFFFFFFFFFFFFFFF)) :
    (BitVec.ofInt 64 (u.toInt.tdiv v.toInt)).toInt = u.toInt.tdiv v.toInt := by
  have wrapped : BitVec.ofInt 64 (u.toInt.tdiv v.toInt) = u.sdiv v := by
    apply BitVec.eq_of_toInt_eq
    rw [BitVec.toInt_ofInt, BitVec.toInt_sdiv]
  rw [wrapped]
  refine BitVec.toInt_sdiv_of_ne_or_ne u v ?_
  rw [← not_and_or]
  exact fits

/-- A remainder of words is a word. -/
theorem toInt_ofInt_tmod (u v : Word) : (BitVec.ofInt 64 (u.toInt.tmod v.toInt)).toInt = u.toInt.tmod v.toInt := by
  rw [← BitVec.toInt_srem, BitVec.ofInt_toInt]

/-- A remainder that is not zero has the sign of its dividend. -/
theorem tmod_neg_iff {x y : Int} (h : x.tmod y ≠ 0) : x.tmod y < 0 ↔ x < 0 := by
  constructor
  · intro neg
    by_contra pos
    have := Int.tmod_nonneg y (show 0 ≤ x by omega)
    omega
  · intro neg
    have := Int.tmod_nonneg y (show 0 ≤ -x by omega)
    rw [Int.neg_tmod] at this
    omega

/-- Settles O2: the quotient and the remainder that R151 names are those of truncated division, which words hold but for one overflow. -/
theorem divisionResults : Obligations.DivisionResults := by
  unfold Obligations.DivisionResults
  intro s d a b ready u v
  rw [div_of_ready ready, divu_of_ready ready, rem_of_ready ready, remu_of_ready ready]
  refine ⟨⟨rfl, rfl, rfl, rfl⟩, fun zero => ?_, fun ⟨lowest, minusOne⟩ => ?_, fun ⟨nonzero, fits⟩ => ?_, fun nonzero => ?_⟩
  · rw [if_pos zero, if_pos zero, if_pos zero, if_pos zero]
    exact ⟨rfl, rfl, rfl, rfl⟩
  · change srcS s a = _ at lowest
    change srcS s b = _ at minusOne
    rw [lowest, minusOne]
    exact ⟨rfl, rfl⟩
  · rw [if_neg nonzero, if_neg nonzero]
    refine ⟨_, _, rfl, rfl, toInt_ofInt_tdiv fits, ?_, fun remains => ?_⟩
    · rw [toInt_ofInt_tdiv fits, toInt_ofInt_tmod]
      exact (Int.mul_tdiv_add_tmod _ _).symm
    · rw [toInt_ofInt_tmod]
      exact tmod_neg_iff fun none => remains (by rw [none]; rfl)
  · rw [if_neg nonzero, if_neg nonzero]
    have quotient : u.toNat / v.toNat < 2 ^ 64 := lt_of_le_of_lt (Nat.div_le_self _ _) u.isLt
    have remainder : u.toNat % v.toNat < 2 ^ 64 := lt_of_le_of_lt (Nat.mod_le _ _) u.isLt
    refine ⟨_, _, rfl, rfl, Nat.mod_eq_of_lt quotient, ?_⟩
    rw [BitVec.toNat_ofNat, BitVec.toNat_ofNat, Nat.mod_eq_of_lt quotient, Nat.mod_eq_of_lt remainder, Nat.div_add_mod]

end Sys2Proof.Proofs

namespace Sys2Proof.Proofs
open Sys2Proof Sys2Proof.Machine Sys2Proof.Safety Sys2Proof.Laws

/-! ### Bit counts and fields (R152 to R154) -/

/-- How many of the first numbers pass a test before one fails: at most n, all that are counted pass, and the next one fails. -/
theorem takeWhile_range_spec (p : Nat → Bool) (n : Nat) :
    ((List.range n).takeWhile p).length ≤ n ∧ (∀ j < ((List.range n).takeWhile p).length, p j = true) ∧
      (((List.range n).takeWhile p).length < n → p ((List.range n).takeWhile p).length = false) := by
  have count : ((List.range n).takeWhile p).length = (List.range n).findIdx fun j => !p j := by
    rw [List.takeWhile_eq_take_findIdx_not, List.length_take]
    exact Nat.min_eq_left List.findIdx_le_length
  have le : (List.range n).findIdx (fun j => !p j) ≤ n := by simpa using List.findIdx_le_length (xs := List.range n) (p := fun j => !p j)
  rw [count]
  refine ⟨le, fun j low => ?_, fun short => ?_⟩
  · simpa using List.not_of_lt_findIdx low
  · have inside : (List.range n).findIdx (fun j => !p j) < (List.range n).length := by rwa [List.length_range]
    simpa using List.findIdx_getElem (w := inside)

/-- CTZ counts the zeros below the lowest one. -/
theorem trailingZeros_spec (u : Word) : trailingZeros u ≤ 64 ∧ (u = 0 → trailingZeros u = 64) ∧
    (u ≠ 0 → u.getLsbD (trailingZeros u) = true ∧ ∀ j < trailingZeros u, u.getLsbD j = false) := by
  obtain ⟨le, zeros, stop⟩ := takeWhile_range_spec (fun j => !u.getLsbD j) 64
  change trailingZeros u ≤ 64 at le
  change ∀ j < trailingZeros u, _ at zeros
  change trailingZeros u < 64 → (!u.getLsbD (trailingZeros u)) = false at stop
  simp only [Bool.not_eq_true', Bool.not_eq_false'] at zeros stop
  refine ⟨le, fun zero => ?_, fun nonzero => ⟨stop (lt_of_le_of_ne le fun whole => nonzero ?_), zeros⟩⟩
  · by_contra less
    have one := stop (by omega)
    rw [zero] at one
    simp at one
  · apply BitVec.eq_of_getLsbD_eq
    intro j inside
    rw [zeros j (by omega)]
    exact BitVec.getLsbD_zero.symm

/-- CLZ counts the zeros above the highest one. -/
theorem leadingZeros_spec (u : Word) : leadingZeros u ≤ 64 ∧ u.toNat < 2 ^ (64 - leadingZeros u) ∧ (u = 0 → leadingZeros u = 64) ∧
    (u ≠ 0 → leadingZeros u < 64 ∧ u.getLsbD (63 - leadingZeros u) = true) := by
  obtain ⟨le, zeros, stop⟩ := takeWhile_range_spec (fun j => !u.getLsbD (63 - j)) 64
  change leadingZeros u ≤ 64 at le
  change ∀ j < leadingZeros u, _ at zeros
  change leadingZeros u < 64 → (!u.getLsbD (63 - leadingZeros u)) = false at stop
  simp only [Bool.not_eq_true', Bool.not_eq_false'] at zeros stop
  have small : u.toNat < 2 ^ (64 - leadingZeros u) := by
    refine Nat.lt_pow_two_of_testBit _ fun j high => ?_
    by_cases inside : j < 64
    · have := zeros (63 - j) (by omega)
      rwa [show 63 - (63 - j) = j by omega] at this
    · exact BitVec.getLsbD_of_ge u j (by omega)
  refine ⟨le, small, fun zero => ?_, fun nonzero => ?_⟩
  · by_contra less
    have one := stop (by omega)
    rw [zero] at one
    simp at one
  · have less : leadingZeros u < 64 := by
      refine lt_of_le_of_ne le fun whole => nonzero (BitVec.eq_of_toNat_eq ?_)
      rw [whole] at small
      simpa using small
    exact ⟨less, stop less⟩

/-- The bits of a word with one field replaced. -/
theorem getLsbD_ofNat_nset (x : Word) {hi lo : Nat} (v : Nat) (ordered : lo ≤ hi + 1) {j : Nat} (inside : j < 64) :
    (BitVec.ofNat 64 (nset x.toNat hi lo v)).getLsbD j = if lo ≤ j ∧ j ≤ hi then v.testBit (j - lo) else x.getLsbD j := by
  rw [BitVec.getLsbD_ofNat, decide_eq_true inside, Bool.true_and, testBit_nset _ _ _ ordered]
  rfl

/-- Settles O3. -/
theorem fieldAndImmediateResults : Obligations.FieldAndImmediateResults := by
  unfold Obligations.FieldAndImmediateResults
  intro s d a lo w1 sh imm i18 k i16 ready u i
  have word (f : Word → Word) : s.una d a f = .next (putS s d (f u)) := una_of_ready ready f
  have none : Ready s [] [.s d] := Ready.mono ready (by simp) (by simp)
  have held_too (held : Ready s [.s d] []) : Ready s [.s a, .s d] [.s d] := Ready.mono (Ready.append ready held) (by simp) (by simp)
  refine ⟨⟨leadingZeros u, show execClz d a s = _ from word _, leadingZeros_spec u⟩,
    ⟨trailingZeros u, show execCtz d a s = _ from word _, trailingZeros_spec u⟩,
    show execPopc d a s = _ from word _, show execAddi d a imm s = _ from word _, show execAndi d a imm s = _ from word _, show execOri d a imm s = _ from word _,
    show execXori d a imm s = _ from word _, (show execShli d a sh s = _ from word _).trans (by rw [shiftLeft_eq_mul]),
    (show execShri d a sh s = _ from word _).trans (by rw [shiftRight_eq_div]), (show execSrai d a sh s = _ from word _).trans (by rw [sshiftRight_eq_div]),
    show execLdi d i18 s = _ from slotS_of_ready none _,
    fun fits => ⟨show execExtr d a lo w1 s = _ from word _, fun held => ⟨_, show execDep d a lo w1 s = _ from slotS_of_ready (held_too held) _, fun j inside => ?_⟩⟩,
    fun passes => ?_, fun held => ⟨_, show execLdhi d k i16 s = _ from slotS_of_ready (Ready.mono (held_too held) (by simp) (by simp)) _, fun j inside => ?_⟩⟩
  · exact getLsbD_ofNat_nset _ _ (by omega) inside
  · have wide : ¬ lo.val + w1.val + 1 ≤ 64 := by omega
    exact ⟨decide_eq_false wide, decide_eq_false wide⟩
  · refine (getLsbD_ofNat_nset _ _ (by omega) inside).trans ?_
    by_cases field : j / 16 = k.val
    · rw [if_pos (by omega), if_pos field, show j - 16 * k.val = j % 16 by omega]
      rfl
    · rw [if_neg (by omega), if_neg field]
      rfl

end Sys2Proof.Proofs

namespace Sys2Proof.Proofs
open Sys2Proof Sys2Proof.Machine Sys2Proof.Safety Sys2Proof.Laws

/-! ### Compares, condition logic and SEL (R155, R156) -/

/-- The compares of an immediate compare with the number that it stands for. -/
theorem eq_signExtend_iff (u : Word) (imm : BitVec 12) : u = imm.signExtend 64 ↔ u.toInt = imm.toInt := by
  rw [← BitVec.toInt_inj, BitVec.toInt_signExtend_of_le (by decide)]

/-- c0 waits for no QTRY. -/
theorem ready_c0 (s : State) : Ready s [.c 0] [] := ⟨by simp [Ctx.emptyReg, Ctx.poisonedReg], by simp⟩

/-- SEL reads its two scalars and its condition bit. -/
theorem sel_of_ready {s : State} {d a b : Fin 64} {c : Fin 8} (ready : Ready s [.s a, .s b, .c c] [.s d]) :
    exec (.sel d a b c) s = .next (putS s d (if srcC s c then srcS s a else srcS s b)) := show execSel d a b c s = _ from slotS_of_ready ready _

/-- SEL with an x that names no condition bit does not decode (R88, R156). -/
theorem decodeSlot_sel_none (d a b : Fin 64) {x : Nat} (small : x < 64) (names : 8 ≤ x) :
    decodeSlot .sca (0x3C * 2 ^ 24 + packR3 d.val a.val b.val x) = none := by
  have fits : packR3 d.val a.val b.val x < 2 ^ 24 := packR3_lt d.isLt a.isLt b.isLt small
  have op : (0x3C * 2 ^ 24 + packR3 d.val a.val b.val x) / 2 ^ 24 % 128 = 0x3C := by omega
  have rest : (0x3C * 2 ^ 24 + packR3 d.val a.val b.val x) % 2 ^ 24 = packR3 d.val a.val b.val x := by omega
  have undecoded : decFields .sca 0x3C (packR3 d.val a.val b.val x) = none := by
    rw [decFields, decAlu_eq_none (by decide), Option.none_or, decScaOnly, unR3_pack _ d.isLt a.isLt b.isLt small]
    simp [fin?, show ¬ x < 8 by omega]
  simp only [decodeSlot, Slot.isWide, Bool.false_eq_true, if_false, op, rest, undecoded, ite_self]

/-- Settles O4. -/
theorem compareAndSelectResults : Obligations.CompareAndSelectResults := by
  unfold Obligations.CompareAndSelectResults
  intro s d ca cb e a b imm ready u v
  have two : Ready s [.s a, .s b] [.c d] := Ready.mono ready (by simp) (by simp)
  have one : Ready s [.s a] [.c d] := Ready.mono ready (by simp) (by simp)
  have bits : Ready s [.c ca, .c cb] [.c d] := Ready.mono ready (by simp) (by simp)
  have always : srcC s 0 = true := by simp [srcC, Ctx.getC]
  have test (f : Word → Word → Bool) : s.test d a b f = .next (putC s d (f u v)) := test_of_ready two f
  refine ⟨show execCmpeq d a b s = _ from test _, show execCmpne d a b s = _ from test _, show execCmplt d a b s = _ from test _,
    show execCmpltu d a b s = _ from test _, show execCmpge d a b s = _ from test _, show execCmpgeu d a b s = _ from test _,
    (show execCmpeqi d a imm s = _ from slotC_of_ready one _).trans ?_, show execCmplti d a imm s = _ from slotC_of_ready one _,
    show execCand d ca cb s = _ from slotC_of_ready bits _, show execCor d ca cb s = _ from slotC_of_ready bits _,
    sel_of_ready (Ready.mono ready (by simp) (by simp)), ?_,
    ⟨rfl, rfl, rfl, rfl, rfl, rfl, rfl, rfl, rfl, rfl, rfl⟩, fun x small names => decodeSlot_sel_none e a b small names, always, fun y => me_own s _⟩
  · rw [← decide_eq_decide.2 (eq_signExtend_iff u imm)]
    rfl
  · have both : Ready s [.s a, .s b, .c 0] [.s e] :=
      Ready.mono (Ready.append ready (ready_c0 s)) (by simp) (by simp)
    rw [sel_of_ready both, always]
    rfl

end Sys2Proof.Proofs

namespace Sys2Proof.Proofs
open Sys2Proof Sys2Proof.Machine Sys2Proof.Safety Sys2Proof.Laws

/-! ### Exact values (R159, R172, R183) -/

/-- An exact value compared with an integer is compared at the lower of their exponents. -/
theorem alignTo_ofInt (n e : Int) : alignTo (decide (n < 0)) n.natAbs 0 (min e 0) = n * 2 ^ (-min e 0).toNat := by
  unfold alignTo
  simp only [Int.zero_sub, decide_eq_true_eq]
  split
  · rw [← Int.neg_mul]
    congr 1
    omega
  · congr 1
    omega

theorem lt_ofInt_iff (s : Bool) (m : Nat) (e n : Int) :
    (Val.fin s m e).lt (Val.ofInt n) = true ↔ alignTo s m e (min e 0) < n * 2 ^ (-min e 0).toNat := by
  simp only [Val.lt, Val.ofInt, decide_eq_true_eq, alignTo_ofInt]

theorem eq_ofInt_iff (s : Bool) (m : Nat) (e n : Int) :
    (Val.fin s m e).eq (Val.ofInt n) = true ↔ alignTo s m e (min e 0) = n * 2 ^ (-min e 0).toNat := by
  simp only [Val.eq, Val.ofInt, decide_eq_true_eq, alignTo_ofInt]

/-- A value that is an integer is below just the integers that are above it. -/
theorem lt_ofInt_of_eq {s : Bool} {m : Nat} {e n : Int} (h : (Val.fin s m e).eq (Val.ofInt n) = true) (k : Int) :
    (Val.fin s m e).lt (Val.ofInt k) = true ↔ n < k := by
  rw [lt_ofInt_iff, (eq_ofInt_iff s m e n).1 h]
  exact Int.mul_lt_mul_right (by positivity)

theorem alignTo_false_nonneg (m : Nat) (e e0 : Int) : 0 ≤ alignTo false m e e0 := by
  simp only [alignTo, Bool.false_eq_true, if_false]
  positivity

theorem alignTo_true_nonpos (m : Nat) (e e0 : Int) : alignTo true m e e0 ≤ 0 := by
  have : 0 ≤ (m : Int) * 2 ^ (e - e0).toNat := by positivity
  simp only [alignTo, if_true]
  omega

theorem alignTo_zero (s : Bool) (e e0 : Int) : alignTo s 0 e e0 = 0 := by cases s <;> simp [alignTo]

/-- A value that is not below a positive integer is positive. -/
theorem positive_of_not_lt {s : Bool} {m : Nat} {e n : Int} (above : (Val.fin s m e).lt (Val.ofInt n) = false) (positive : 0 < n) : s = false ∧ m ≠ 0 := by
  have large := (lt_ofInt_iff s m e n).not.1 (by simp [above])
  have bound : 0 < n * 2 ^ (-min e 0).toNat := by positivity
  constructor
  · cases s
    · rfl
    · have := alignTo_true_nonpos m e (min e 0)
      omega
  · rintro rfl
    rw [alignTo_zero] at large
    exact large bound

/-- A value below an integer that is not positive is negative. -/
theorem negative_of_lt {s : Bool} {m : Nat} {e n : Int} (below : (Val.fin s m e).lt (Val.ofInt n) = true) (bound : n ≤ 0) : s = true ∧ m ≠ 0 := by
  rw [lt_ofInt_iff] at below
  have : n * 2 ^ (-min e 0).toNat ≤ 0 := Int.mul_nonpos_of_nonpos_of_nonneg bound (by positivity)
  constructor
  · cases s
    · have := alignTo_false_nonneg m e (min e 0)
      omega
    · rfl
  · rintro rfl
    rw [alignTo_zero] at below
    omega

/-- A value that is an integer is found to be one. -/
theorem wholeOf_of_eq {s : Bool} {m : Nat} {e n : Int} (h : (Val.fin s m e).eq (Val.ofInt n) = true) :
    ∃ k, wholeOf? m e = some k ∧ (if s then -(k : Int) else k) = n := by
  rw [eq_ofInt_iff] at h
  unfold wholeOf?
  by_cases up : 0 ≤ e
  · rw [min_eq_right up, Int.neg_zero, Int.toNat_zero, pow_zero, mul_one] at h
    refine ⟨_, if_pos up, ?_⟩
    rw [← h]
    simp [alignTo]
  · rw [min_eq_left (by omega)] at h
    have whole : m = n.natAbs * 2 ^ (-e).toNat := by
      have magnitude := congrArg Int.natAbs h
      rw [Int.natAbs_mul, Int.natAbs_pow] at magnitude
      rw [show n.natAbs * 2 ^ (-e).toNat = _ from magnitude.symm]
      cases s <;> simp [alignTo]
    have divides : m % 2 ^ (-e).toNat = 0 := by rw [whole, Nat.mul_mod_left]
    refine ⟨n.natAbs, ?_, ?_⟩
    · rw [if_neg up, if_pos divides, whole, Nat.mul_div_cancel _ (by positivity)]
    · have unit : (0 : Int) < 2 ^ (-e).toNat := by positivity
      cases s
      · have := alignTo_false_nonneg m e e
        rw [h] at this
        have := nonneg_of_mul_nonneg_left this unit
        simp only [Bool.false_eq_true, if_false]
        omega
      · have := alignTo_true_nonpos m e e
        rw [h] at this
        have := nonpos_of_mul_nonpos_left this unit
        simp only [if_true]
        omega

/-- A value that is a power of two is its mantissa's power of two. -/
theorem fin_eq_two_pow {s : Bool} {m : Nat} {e n : Int} (h : (Val.fin s m e).eq (.fin false 1 n) = true) : s = false ∧ e ≤ n ∧ m = 2 ^ (n - e).toNat := by
  simp only [Val.eq, decide_eq_true_eq] at h
  have one : alignTo false 1 n (min e n) = ((2 ^ (n - min e n).toNat : Nat) : Int) := by simp [alignTo]
  have power : 0 < 2 ^ (n - min e n).toNat := Nat.two_pow_pos _
  have sign : s = false := by
    cases s
    · rfl
    · have := alignTo_true_nonpos m e (min e n)
      omega
  subst sign
  have magnitude : m * 2 ^ (e - min e n).toNat = 2 ^ (n - min e n).toNat := by
    have : alignTo false m e (min e n) = ((m * 2 ^ (e - min e n).toNat : Nat) : Int) := by simp [alignTo]
    omega
  have le : e ≤ n := by
    by_contra less
    rw [min_eq_right (by omega), Int.sub_self, Int.toNat_zero, pow_zero] at magnitude
    have := Nat.eq_one_of_mul_eq_one_left magnitude
    rw [Nat.pow_eq_one] at this
    omega
  refine ⟨rfl, le, ?_⟩
  rw [min_eq_left le, Int.sub_self, Int.toNat_zero, pow_zero, mul_one] at magnitude
  exact magnitude

/-! ### Rounding of powers of two (R177 to R179) -/

theorem log2_one : Nat.log2 1 = 0 := Nat.log2_two_pow (n := 0)

theorem ratLog2_two_pow (a : Nat) : ratLog2 (2 ^ a) 1 = a := by simp [ratLog2, Nat.log2_two_pow, log2_one]

theorem roundQuot_exact (rnd : Rnd) (neg : Bool) (n : Nat) {den : Nat} (positive : 0 < den) : roundQuot rnd neg (n * den) den = n := by
  have quotient : n * den / den = n := Nat.mul_div_cancel _ positive
  have apart : ¬ den = 0 := by omega
  cases rnd <;> simp [roundQuot, quotient, Ne.symm apart]

/-- A power of two that is whole rounds to itself. -/
theorem roundScaled_two_pow (rnd : Rnd) (neg : Bool) {a : Nat} {e : Int} (whole : 0 ≤ a + e) : roundScaled rnd neg (2 ^ a) 1 e = 2 ^ (a + e).toNat := by
  unfold roundScaled
  split
  · rw [show 2 ^ a * 2 ^ e.toNat = 2 ^ (a + e).toNat * 1 by rw [mul_one, ← pow_add]; congr 1; omega]
    exact roundQuot_exact rnd neg _ (by decide)
  · rw [one_mul, show 2 ^ a = 2 ^ (a + e).toNat * 2 ^ (-e).toNat by rw [← pow_add]; congr 1; omega]
    exact roundQuot_exact rnd neg _ (by positivity)

/-- A power of two in the range of FP32, as a normal value. -/
theorem cvtRat_two_pow {a : Nat} {e n : Int} (value : a + e = n) (low : -126 ≤ n) (high : n ≤ 127) :
    cvtRat .fp32 .rne false false (2 ^ a) 1 e = (n + 127).toNat * 2 ^ 23 := by
  have quantum : max (ratLog2 (2 ^ a) 1 + e - Fmt.fp32.fracBits) Fmt.fp32.qMin = n - 23 := by
    rw [ratLog2_two_pow, value]
    change max (n - 23) (-149) = _
    omega
  have mantissa : roundScaled .rne false (2 ^ a) 1 (e - (n - 23)) = 2 ^ 23 := by
    rw [roundScaled_two_pow _ _ (by omega), show (a + (e - (n - 23))).toNat = 23 by omega]
  simp only [cvtRat, quantum, mantissa]
  rw [if_neg]
  · change 0 + ((n - 23 - -149).toNat * 2 ^ 23 + 2 ^ 23) = _
    omega
  · change ¬ (104 < n - 23 ∨ n - 23 = 104 ∧ 16777215 < 2 ^ 23)
    omega

/-- A power of two below the normal values of FP32. -/
theorem cvtRat_two_pow_subnormal {a : Nat} {e n : Int} (value : a + e = n) (low : -149 ≤ n) (high : n < -126) :
    cvtRat .fp32 .rne false false (2 ^ a) 1 e = 2 ^ (n + 149).toNat := by
  have quantum : max (ratLog2 (2 ^ a) 1 + e - Fmt.fp32.fracBits) Fmt.fp32.qMin = -149 := by
    rw [ratLog2_two_pow, value]
    change max (n - 23) (-149) = _
    omega
  have mantissa : roundScaled .rne false (2 ^ a) 1 (e - -149) = 2 ^ (n + 149).toNat := by
    rw [roundScaled_two_pow _ _ (by omega), show (a + (e - -149)).toNat = (n + 149).toNat by omega]
  simp only [cvtRat, quantum, mantissa]
  rw [if_neg]
  · change 0 + (0 * 2 ^ 23 + 2 ^ (n + 149).toNat) = _
    omega
  · change ¬ ((104 : Int) < -149 ∨ (-149 : Int) = 104 ∧ _)
    omega

end Sys2Proof.Proofs

namespace Sys2Proof.Proofs
open Sys2Proof Sys2Proof.Machine Sys2Proof.Safety Sys2Proof.Laws

/-! ### FEXP2 and FLOG2 where R159 fixes them -/

/-- 2^x of an integer above the overflow bound and above the underflow bound is a power of two, rounded. -/
theorem exp2Bits_of_integer {x : Val} {n : Int} (h : x.eq (Val.ofInt n) = true) (low : -149 ≤ n) (high : n ≤ 127) :
    exp2Bits x = if -126 ≤ n then (n + 127).toNat * 2 ^ 23 else 2 ^ (n + 149).toNat := by
  cases x with
  | nan => simp [Val.eq] at h
  | inf s => simp [Val.eq, Val.ofInt] at h
  | fin s m e =>
    have small : (Val.fin s m e).lt (.fin false 128 0) = true := (lt_ofInt_of_eq h 128).2 (by omega)
    have large : (Val.fin s m e).lt (.fin true 150 0) = false := by
      rw [← Bool.not_eq_true]
      exact (lt_ofInt_of_eq h (-150)).not.2 (by omega)
    obtain ⟨k, whole, value⟩ := wholeOf_of_eq h
    have rounded : cvtRat .fp32 .rne false false 1 1 n = if -126 ≤ n then (n + 127).toNat * 2 ^ 23 else 2 ^ (n + 149).toNat := by
      split
      · exact cvtRat_two_pow (a := 0) (by omega) (by omega) high
      · exact cvtRat_two_pow_subnormal (a := 0) (by omega) low (by omega)
    by_cases zero : m = 0
    · obtain rfl : n = 0 := by
        rw [eq_ofInt_iff, zero, alignTo_zero] at h
        exact (Int.mul_eq_zero.1 h.symm).resolve_right (by positivity)
      simp [exp2Bits, zero]
    · simp only [exp2Bits, if_neg zero, small, large, whole, value, Bool.not_true, Bool.and_false, Bool.false_eq_true, if_false]
      exact rounded

/-- 2^x from 128 on overflows. -/
theorem exp2Bits_of_large {x : Val} (number : x.isNan = false) (large : x.lt (Val.ofInt 128) = false) : exp2Bits x = 0x7F800000 := by
  cases x with
  | nan => simp [Val.isNan] at number
  | inf s =>
    obtain rfl : s = false := by simpa [Val.lt, Val.ofInt] using large
    rfl
  | fin s m e =>
    obtain ⟨rfl, nonzero⟩ := positive_of_not_lt large (by decide)
    change (Val.fin false m e).lt (.fin false 128 0) = false at large
    simp only [exp2Bits, if_neg nonzero, large]
    rfl

/-- 2^x below -150 is zero. -/
theorem exp2Bits_of_small {x : Val} (small : x.lt (Val.ofInt (-150)) = true) : exp2Bits x = 0 := by
  cases x with
  | nan => simp [Val.lt] at small
  | inf s =>
    obtain rfl : s = true := by simpa [Val.lt, Val.ofInt] using small
    rfl
  | fin s m e =>
    obtain ⟨rfl, nonzero⟩ := negative_of_lt small (by decide)
    change (Val.fin true m e).lt (.fin true 150 0) = true at small
    simp [exp2Bits, nonzero, small]

/-- The logarithm of a negative value is NaN. -/
theorem log2Bits_of_negative {x : Val} (negative : x.lt (Val.ofInt 0) = true) : log2Bits x = 0x7FC00000 := by
  cases x with
  | nan => simp [Val.lt] at negative
  | inf s =>
    obtain rfl : s = true := by simpa [Val.lt, Val.ofInt] using negative
    rfl
  | fin s m e =>
    obtain ⟨rfl, nonzero⟩ := negative_of_lt negative le_rfl
    simp [log2Bits, nonzero, Fmt.nanBits]

/-- The logarithm of a power of two is its exponent. -/
theorem log2Bits_of_two_pow {x : Val} {n : Int} (h : x.eq (.fin false 1 n) = true) : log2Bits x = cvtFloat .fp32 .rne false (Val.ofInt n) := by
  cases x with
  | nan => simp [Val.eq] at h
  | inf s => simp [Val.eq] at h
  | fin s m e =>
    obtain ⟨rfl, le, rfl⟩ := fin_eq_two_pow h
    have value : (((n - e).toNat : Nat) : Int) + e = n := by omega
    simp only [log2Bits, if_neg (Nat.two_pow_pos _).ne', Bool.false_eq_true, if_false, Nat.log2_two_pow, if_true, value]

/-! ### Scalar floating point (R157 to R160) -/

theorem eq_nan_of_isNan {x : Val} (h : x.isNan = true) : x = .nan := by
  cases x with
  | nan => rfl
  | inf s => simp [Val.isNan] at h
  | fin s m e => simp [Val.isNan] at h

/-- Every operation on a NaN gives NaN, and no order holds of it (R157, R158). -/
theorem nan_results {u v : Val} (h : u.isNan = true ∨ v.isNan = true) :
    u.add .rne v = .nan ∧ u.add .rne v.neg = .nan ∧ u.mul v = .nan ∧ divBits u v = 0x7FC00000 ∧ u.lt v = false ∧ u.eq v = false := by
  rcases h with h | h
  · rw [eq_nan_of_isNan h]
    exact ⟨rfl, rfl, rfl, rfl, rfl, rfl⟩
  · rw [eq_nan_of_isNan h]
    cases u <;> exact ⟨rfl, rfl, rfl, rfl, rfl, rfl⟩

/-- The sign of a quotient or product. -/
theorem signBits_bne (m n : Bool) (z : Nat) : Fmt.signBits .fp32 (m != n) + z = (if m = n then 0 else 2 ^ 31) + z := by cases m <;> cases n <;> rfl

/-- The quotients of R157, case by case. -/
theorem divBits_results (m n : Bool) (x y : Nat) (g h : Int) : let sign := fun (z : Nat) => (if m = n then 0 else 2 ^ 31) + z
    (0 < x → 0 < y → divBits (.fin m x g) (.fin n y h) = cvtRat .fp32 .rne false (m != n) x y (g - h)) ∧
    (0 < x → divBits (.fin m x g) (.fin n 0 h) = sign 0x7F800000) ∧ (0 < y → divBits (.fin m 0 g) (.fin n y h) = sign 0) ∧
    divBits (.fin m 0 g) (.fin n 0 h) = 0x7FC00000 ∧ divBits (.inf m) (.inf n) = 0x7FC00000 ∧
    divBits (.inf m) (.fin n y h) = sign 0x7F800000 ∧ divBits (.fin m x g) (.inf n) = sign 0 := by
  refine ⟨fun px py => ?_, fun px => ?_, fun py => ?_, rfl, rfl, signBits_bne m n _, signBits_bne m n 0⟩
  · simp only [divBits, if_neg px.ne', if_neg py.ne']
  · simp only [divBits, if_true, if_neg px.ne']
    exact signBits_bne m n _
  · simp only [divBits, if_true, if_neg py.ne']
    exact signBits_bne m n 0

/-- Settles O5. -/
theorem scalarFloatResults : Obligations.ScalarFloatResults := by
  unfold Obligations.ScalarFloatResults
  intro s d a b x c ready u v round
  have two : Ready s [.s a, .s b] [.s d] := Ready.mono ready (by simp) (by simp)
  have one : Ready s [.s a] [.s d] := Ready.mono ready (by simp) (by simp)
  have both : Ready s [.s a, .s b] [.c c] := Ready.mono ready (by simp) (by simp)
  have pair (f : Val → Val → Nat) : s.fbin d a b f = .next (putS s d (BitVec.ofNat 64 (f u v))) := bin_of_ready two _
  have single (f : Word → Word) : s.una d a f = .next (putS s d (f (srcS s a))) := una_of_ready one f
  have test (f : Word → Word → Bool) : s.test c a b f = .next (putC s c (f (srcS s a) (srcS s b))) := test_of_ready both f
  have fadd : exec (.fadd d a b) s = .next (putS s d (round (u.add .rne v))) := show execFadd d a b s = _ from pair _
  have fsub : exec (.fsub d a b) s = .next (putS s d (round (u.add .rne v.neg))) := show execFsub d a b s = _ from pair _
  have fmul : exec (.fmul d a b) s = .next (putS s d (round (u.mul v))) := show execFmul d a b s = _ from pair _
  have fdiv : exec (.fdiv d a b) s = .next (putS s d (BitVec.ofNat 64 (divBits u v))) := show execFdiv d a b s = _ from pair _
  have ftoi : exec (.ftoi d a) s = .next (putS s d (BitVec.ofInt 64 (roundToInt .int64 .rne u))) := show execFtoi d a s = _ from single _
  have fcmplt : exec (.fcmplt c a b) s = .next (putC s c (u.lt v)) := show execFcmplt c a b s = _ from test _
  have fcmpeq : exec (.fcmpeq c a b) s = .next (putC s c (u.eq v)) := show execFcmpeq c a b s = _ from test _
  refine ⟨fadd, fsub, fmul, fdiv, show execFmin d a b s = _ from pair _, show execFmax d a b s = _ from pair _, show execFexp2 d a s = _ from single _,
    show execFlog2 d a s = _ from single _, show execItof d a s = _ from single _, ftoi, fcmplt, fcmpeq,
    fun more => show execFfma d a b x s = _ from slotS_of_ready (Ready.mono (Ready.append two more) (by simp) (by simp)) _, fun h => ?_, fun h => ?_,
    divBits_results, ⟨rfl, rfl, rfl, rfl, rfl, rfl⟩, fun y => ⟨fun zero => ?_, log2Bits_of_negative, exp2Bits_of_large, exp2Bits_of_small,
      fun n low high whole => exp2Bits_of_integer whole low high, fun n => log2Bits_of_two_pow⟩⟩
  · obtain ⟨sum, difference, product, quotient, less, equal⟩ := nan_results h
    rw [fadd, fsub, fmul, fdiv, fcmplt, fcmpeq, sum, difference, product, quotient, less, equal]
    exact ⟨rfl, rfl, rfl, rfl, rfl, rfl⟩
  · rw [ftoi, eq_nan_of_isNan h]
    rfl
  · cases y with
    | nan => simp [Val.isZero] at zero
    | inf s => simp [Val.isZero] at zero
    | fin s m e =>
      obtain rfl : m = 0 := by simpa [Val.isZero] using zero
      exact ⟨rfl, rfl⟩

end Sys2Proof.Proofs

namespace Sys2Proof.Proofs
open Sys2Proof Sys2Proof.Machine Sys2Proof.Safety Sys2Proof.Laws

/-! ### System registers (R161 to R165) -/

/-- MFSR reads its register as of the bundle. -/
theorem mfsr_of_ready {s : State} {d : Fin 64} (ready : Ready s [] [.s d]) (r : SysReg) :
    exec (.mfsr d r) s = .next (putS s d (s.sysRead s.issue.key s.issue.src r)) := show execMfsr d r s = _ from slotS_of_ready ready _

/-- MTSR of a register that its mode may write. -/
theorem mtsr_of_allowed {s : State} {r : SysReg} {a : Fin 64} (ready : Ready s [.s a] []) (allowed : r.privileged = false ∨ s.issue.src.sup = true) :
    exec (.mtsr r a) s = .next (s.own fun c => c.sysWrite r (srcS s a)) := by
  change execMtsr r a s = _
  have written : s.slot [.s a] [] (fun c s => s.own fun x => x.sysWrite r (c.getS a)) = s.own fun c => c.sysWrite r (srcS s a) := slot_of_ready ready _
  rcases allowed with plain | super
  · simp [execMtsr, plain, written]
  · simp [execMtsr, State.privileged, super, written]

/-- MTSR of a privileged register outside supervisor mode traps (R102). -/
theorem mtsr_of_user {s : State} {r : SysReg} {a : Fin 64} (secret : r.privileged = true) (user : s.issue.src.sup = false) :
    exec (.mtsr r a) s = .next (s.trapSlot cPriv 0 0) := by
  change execMtsr r a s = _
  simp [execMtsr, State.privileged, secret, user]

/-- TEAMCYC of a member of a team that has been released. -/
theorem teamCyc_of_released {s : State} {c : Ctx} {j : Job} {team : Team} {n : Nat} (member : c.logical ≠ 0xFF) (job : s.job? c.job.toNat = some j)
    (placed : j.team = some team) (released : team.firstRelease = some n) : s.teamCyc c = s.now - n := by
  rw [State.teamCyc, if_neg member, job, Option.bind_some, placed, Option.bind_some, released]

/-- The privileged registers of R162. -/
theorem privileged_iff (r : SysReg) : r.privileged = true ↔ r ∈ [.trapvec, .traparea, .epc, .exfer, .estat] := by
  cases r <;> simp [SysReg.privileged]

/-- Of ESTAT MTSR writes ACTION alone (R393). -/
theorem sysWrite_estat (c : Ctx) (v : Word) :
    bitsOf (c.sysWrite .estat v).estat 25 24 = bitsOf v 25 24 ∧ ∀ j < 24, (c.sysWrite .estat v).estat.getLsbD j = c.estat.getLsbD j := by
  have bit {j : Nat} (inside : j < 26) : (c.sysWrite .estat v).estat.getLsbD j =
      if 24 ≤ j ∧ j ≤ 25 then (nbits v.toNat 25 24).testBit (j - 24) else c.estat.getLsbD j := by
    change (BitVec.ofNat 26 _).getLsbD j = _
    rw [BitVec.getLsbD_ofNat, decide_eq_true inside, Bool.true_and, testBit_nset _ _ _ (by decide)]
    rfl
  refine ⟨Nat.eq_of_testBit_eq fun j => ?_, fun j low => (bit (by omega)).trans (if_neg (by omega))⟩
  change (nbits (c.sysWrite .estat v).estat.toNat 25 24).testBit j = (nbits v.toNat 25 24).testBit j
  rw [testBit_nbits]
  by_cases inside : j < 2
  · have := bit (show 24 + j < 26 by omega)
    rw [if_pos (by omega), Nat.add_sub_cancel_left] at this
    simpa [inside, BitVec.testBit_toNat] using this
  · simp [testBit_nbits, inside]

/-- Settles O6. -/
theorem systemRegisterResults : Obligations.SystemRegisterResults := by
  unfold Obligations.SystemRegisterResults
  intro s d a r l fd ready
  have none : Ready s [] [.s d] := Ready.mono ready (by simp) (by simp)
  have one : Ready s [.s a] [] := Ready.mono ready (by simp) (by simp)
  refine ⟨mfsr_of_ready none r, show execTsc d s = _ from slotS_of_ready none _, show execMflc d l fd s = _ from slotS_of_ready none _,
    congrArg Host.Outcome.next (slot_of_ready one _), mtsr_of_allowed one, fun ⟨secret, user⟩ => mtsr_of_user secret user, ?_, privileged_iff r, ?_⟩
  · intro c core reads
    have read {x : SysReg} {n : Nat} (h : s.sysRead s.issue.key c x = BitVec.ofNat 64 n) : reads x n := (mfsr_of_ready none x).trans (by rw [← h])
    have field {w : Nat} (v : BitVec w) : v.setWidth 64 = BitVec.ofNat 64 v.toNat := (BitVec.ofNat_toNat 64 v).symm
    have word (v : Word) : v = BitVec.ofNat 64 v.toNat := (BitVec.setWidth_eq v).symm.trans (field v)
    refine ⟨read (field _), read (word _), read (field _), read (field _), read ?_, read ?_, read ?_, read (field _), read rfl, read (field _),
      fun task => read ?_, read (field _), read (word _), fun k => read (word _), read (field _), read (field _), read (field _), read (field _), read (field _),
      read (field _), read (field _), read (field _), read ?_, fun alone => read ?_, fun j team n member job placed released => read ?_, fun bare => read ?_⟩
    · change BitVec.ofNat 64 (_ + c.logical.toNat * 256) = _
      rw [Nat.mul_comm]
      rfl
    · change BitVec.ofNat 64 (s.issue.key / 32 % 32) = BitVec.ofNat 64 (s.issue.key / 8 % 128 / 4)
      congr 1
      omega
    · change BitVec.ofNat 64 (s.issue.key / 256 % 4) = BitVec.ofNat 64 (s.issue.key / 8 % 128 / 32)
      congr 1
      omega
    · exact (if_neg (ne_true_of_eq_false task)).trans (field _)
    · change (if c.sup = true then 1 else 0) = _
      cases c.sup <;> rfl
    · exact congrArg (BitVec.ofNat 64) (if_pos alone)
    · exact congrArg (BitVec.ofNat 64) (teamCyc_of_released member job placed released)
    · change BitVec.ofNat 64 (jnlBase s.issue.jnl) = _
      rw [bare]
      rfl
  · intro c v
    obtain ⟨action, others⟩ := sysWrite_estat c v
    refine ⟨rfl, rfl, rfl, ?_, rfl, rfl, rfl, fun k => ?_, ?_, action, others⟩
    · change (v &&& ~~~1).getLsbD 0 = false
      simp
    · exact Vector.getElem_set_self _
    · simp [Ctx.sysWrite]

end Sys2Proof.Proofs

namespace Sys2Proof.Proofs
open Sys2Proof Sys2Proof.Machine Sys2Proof.Safety Sys2Proof.Laws

/-! ### Descriptors, INCWRAP and CQPOP (R166 to R169) -/

/-- Desc of R166, on the fields of R166 as quotients and remainders. -/
theorem descAddr_eq (a b : Word) (t i : Nat) : descAddr a b t i =
    (a.toNat % 2 ^ 32 + t * (b.toNat % 2 ^ 32) + i * (a.toNat / 2 ^ 32) + t * (b.toNat / 2 ^ 32 % 16) % 64) * 256 % 2 ^ 40 := by
  have high : a.toNat / 2 ^ 32 % 2 ^ 32 = a.toNat / 2 ^ 32 := Nat.mod_eq_of_lt (Nat.div_lt_of_lt_mul a.isLt)
  simp only [descAddr, bitsOf, Nat.reduceAdd, Nat.reduceSub, Nat.pow_zero, Nat.div_one, high]
  rfl

/-- INCWRAP wraps at the last index, and where the bound leaves no index. -/
theorem incwrap_wraps {u v : Word} (h : v = 0 ∨ v = 1 ∨ v.toNat - 1 ≤ u.toNat ∨ u = 0xFFFFFFFFFFFFFFFF) : ¬ 1 + u.toNat < v.toNat := by
  have bound := v.isLt
  rcases h with rfl | rfl | last | rfl
  · simp
  · simp
  · omega
  · change ¬ 1 + 18446744073709551615 < v.toNat
    omega

/-- CQPOP on a count queue that holds a count. -/
theorem cqpop_of_cons {s : State} {d : Fin 64} {q : Fin 4} {n : BitVec 32} {t : List (BitVec 32)} (ready : Ready s [] [.s d]) (holds : s.me.cq[q] = n :: t) :
    exec (.cqpop d q) s = .next (putS (s.own fun c => { c with cq := c.cq.set q t }) d (n.setWidth 64)) := by
  change Host.Outcome.next (s.slot _ _ _) = _
  rw [slot_of_ready ready, popCount_of_cons holds]
  rfl

/-- CQPOP on an empty count queue. -/
theorem cqpop_of_nil {s : State} {d : Fin 64} {q : Fin 4} (ready : Ready s [] [.s d]) (empty : s.me.cq[q] = []) :
    exec (.cqpop d q) s = .next (s.trapSlot cEmptyRead 0 (BitVec.ofNat 32 (512 + q.val))) := by
  change Host.Outcome.next (s.slot _ _ _) = _
  rw [slot_of_ready ready, popCount_of_nil empty]

/-- Settles O7. -/
theorem addressResults : Obligations.AddressResults := by
  unfold Obligations.AddressResults
  intro s d a b x q ready u v at_
  have two : Ready s [.s a, .s b] [.s d] := Ready.mono ready (by simp) (by simp)
  have none : Ready s [] [.s d] := Ready.mono ready (by simp) (by simp)
  have incwrap : exec (.incwrap d a b) s = .next (putS s d (if 1 + u.toNat < v.toNat then u + 1 else 0)) :=
    show execIncwrap d a b s = _ from bin_of_ready two _
  refine ⟨show execDesc d a b s = _ from bin_of_ready two _, (slotS_of_ready ready _).trans ?_, (slotS_of_ready ready _).trans ?_, incwrap.trans ?_,
    fun wraps => incwrap.trans ?_, ⟨rfl, rfl, rfl, rfl⟩, fun n t => cqpop_of_cons none, cqpop_of_nil none⟩
  · have tile : bitsOf (srcS s x) 63 32 = (srcS s x).toNat / 2 ^ 32 := Nat.mod_eq_of_lt (Nat.div_lt_of_lt_mul (srcS s x).isLt)
    have row : bitsOf (srcS s x) 31 0 = (srcS s x).toNat % 2 ^ 32 := by simp [bitsOf]
    change Host.Outcome.next (putS s d (BitVec.ofNat 64 (descAddr u v (bitsOf (srcS s x) 63 32) (bitsOf (srcS s x) 31 0)))) = _
    rw [tile, row, descAddr_eq]
  · have tile : bitsOf (srcS s x) 31 0 = (srcS s x).toNat % 2 ^ 32 := by simp [bitsOf]
    change Host.Outcome.next (putS s d (BitVec.ofNat 64 (descAddr u v (bitsOf (srcS s x) 31 0) 0))) = _
    rw [tile, descAddr_eq]
  · rw [Nat.add_comm]
  · rw [if_neg (incwrap_wraps wraps)]

end Sys2Proof.Proofs

namespace Sys2Proof.Proofs
open Sys2Proof Sys2Proof.Machine Sys2Proof.Safety Sys2Proof.Laws

/-! ### Lanes of a vector register (R192, R193) -/

theorem packLanes_field (w : Nat) (g : Nat → Nat) (n : Nat) : ∀ (i j : Nat), j < n → packLanes w g i n / 2 ^ (w * j) % 2 ^ w = g (i + j) % 2 ^ w := by
  induction n with
  | zero =>
    intro i j h
    omega
  | succ n ih =>
    intro i j h
    have low : g i % 2 ^ w < 2 ^ w := Nat.mod_lt _ (Nat.two_pow_pos w)
    rw [packLanes]
    cases j with
    | zero => rw [Nat.mul_zero, Nat.pow_zero, Nat.div_one, Nat.add_mul_mod_self_left, Nat.mod_mod, Nat.add_zero]
    | succ j =>
      rw [Nat.mul_succ, Nat.add_comm (w * j), Nat.pow_add, ← Nat.div_div_eq_div_mul, Nat.add_mul_div_left _ _ (Nat.two_pow_pos w), Nat.div_eq_of_lt low,
        Nat.zero_add, ih (i + 1) j (by omega), show i + 1 + j = i + (j + 1) by omega]

/-- A lane of the register that is written from its lanes. -/
theorem elem_vlanes {w i : Nat} (g : Nat → Nat) (inside : i < 16384 / w) : elem (vlanes w g) i w = g i % 2 ^ w := by
  have room : (i + 1) * w ≤ 16384 := (Nat.mul_le_mul_right w inside).trans (Nat.div_mul_le_self _ _)
  have field := packLanes_field w g _ 0 i inside
  rw [Nat.zero_add] at field
  rw [← field, elem, vlanes, BitVec.extractLsb'_toNat, BitVec.toNat_ofNat, Nat.shiftRight_eq_div_pow, Nat.mul_comm i]
  apply Nat.eq_of_testBit_eq
  intro j
  simp only [Nat.testBit_mod_two_pow, Nat.testBit_div_two_pow]
  by_cases low : j < w
  · have : (i + 1) * w = w * i + w := by ring
    simp [low, show j + w * i < 16384 by omega]
  · simp [low]

theorem elem_lt (v : VReg) (i w : Nat) : elem v i w < 2 ^ w := BitVec.isLt _

/-- A merge writes its active lanes and keeps the others (R193). -/
theorem merged_mergeLanes (s : State) (d : Fin 256) (p : Fin 16) (w : Nat) (g : Nat → Nat) : Merged s d p w g (mergeLanes w (srcV s d) (srcP s p) g) := by
  intro i inside
  rw [mergeLanes, elem_vlanes _ inside]
  split
  · rfl
  · exact Nat.mod_eq_of_lt (elem_lt _ _ _)

/-- An operation that may ignore the scaling of its entry takes it whatever SCALED holds. -/
theorem withFmt_ignored_of_takes {s : State} {sel : FmtSel} {f : Fmt} {e : FmtEntry} {ok : Fmt → Bool} (h : Takes s sel f e) (hf : ok f = true)
    (g : Fmt → FmtEntry → State → State) : s.withFmt s.issue.src sel ok .ignored g = g f e s := by
  obtain ⟨entry, fmt, zero⟩ := h
  simp [State.withFmt, entry, fmt, zero, hf]

/-- An element-wise operation on an unscaled entry merges its results. -/
theorem lanewise_of_takes {s : State} {srcs : List Dst} {d : Fin 256} {p : Fin 16} {sel : FmtSel} {f : Fmt} {e : FmtEntry} {ok : Fmt → Bool}
    (ready : Ready s srcs [.v d]) (takes : Takes s sel f e) (legal : ok f = true) (unscaled : e.scaled = false) (g : Ctx → Fmt → FmtEntry → Nat → Nat) :
    ∃ v, s.lanewise srcs d p sel ok g = .next (putV s d v) ∧ Merged s d p f.width (g s.issue.src f e) v := by
  refine ⟨_, ?_, merged_mergeLanes s d p f.width _⟩
  rw [State.lanewise, State.vop, slot_of_ready ready, withFmt_of_takes takes legal unscaled]
  rfl

end Sys2Proof.Proofs

namespace Sys2Proof.Proofs
open Sys2Proof Sys2Proof.Machine Sys2Proof.Safety Sys2Proof.Laws

/-! ### Transcendentals where R198 fixes them -/

/-- A quotient of FP32 from 2^128 on overflows. -/
theorem cvtRat_of_large {neg : Bool} {num den : Nat} {e : Int} (large : 128 ≤ ratLog2 num den + e) :
    cvtRat .fp32 .rne false neg num den e = (if neg then 2 ^ 31 else 0) + 0x7F800000 := by
  have quantum : Fmt.fp32.maxQ < max (ratLog2 num den + e - Fmt.fp32.fracBits) Fmt.fp32.qMin := by
    change (104 : Int) < max (ratLog2 num den + e - 23) (-149)
    omega
  simp only [cvtRat]
  rw [if_pos (.inl quantum)]
  rfl

/-- The logarithm of a reciprocal. -/
theorem le_ratLog2_one (x : Nat) : -(Nat.log2 x : Int) - 1 ≤ ratLog2 1 x := by
  unfold ratLog2
  rw [log2_one]
  simp only
  split <;> split <;> omega

/-- A reciprocal above 2^128 overflows. -/
theorem rcpBits_of_small {m : Bool} {x : Nat} {g : Int} (positive : 0 < x) (small : (Val.fin false x g).lt (.fin false 1 (-128)) = true) :
    rcpBits (.fin m x g) = (if m then 2 ^ 31 else 0) + 0x7F800000 := by
  have below : x * 2 ^ (g - min g (-128)).toNat < 2 ^ (-128 - min g (-128)).toNat := by
    have cast (k : Nat) (e : Int) : alignTo false k e (min g (-128)) = ((k * 2 ^ (e - min g (-128)).toNat : Nat) : Int) := by simp [alignTo]
    simpa only [Val.lt, decide_eq_true_eq, cast, Nat.one_mul, Nat.cast_lt] using small
  have tiny : g < -128 := by
    by_contra big
    rw [min_eq_right (by omega), Int.sub_self, Int.toNat_zero, pow_zero, Nat.lt_one_iff] at below
    exact (Nat.mul_pos positive (Nat.two_pow_pos _)).ne' below
  rw [min_eq_left tiny.le, Int.sub_self, Int.toNat_zero, pow_zero, mul_one, ← Nat.log2_lt positive.ne'] at below
  have reciprocal : rcpBits (.fin m x g) = cvtRat .fp32 .rne false m 1 x (0 - g) := by
    simp [rcpBits, divBits, positive.ne']
  rw [reciprocal]
  refine cvtRat_of_large ?_
  have := le_ratLog2_one x
  omega

/-- The cases of VRCP. -/
theorem rcpBits_results (m : Bool) (x : Nat) (g : Int) : let sign := fun (z : Nat) => (if m then 2 ^ 31 else 0) + z
    rcpBits .nan = 0x7FC00000 ∧ rcpBits (.fin m 0 g) = sign 0x7F800000 ∧ rcpBits (.inf m) = sign 0 ∧
      (0 < x → (Val.fin false x g).lt (.fin false 1 (-128)) = true → rcpBits (.fin m x g) = sign 0x7F800000) ∧
      (0 < x → rcpBits (.fin m x g) = cvtRat .fp32 .rne false m 1 x (-g)) := by
  refine ⟨rfl, ?_, ?_, rcpBits_of_small, fun positive => ?_⟩
  · cases m <;> rfl
  · cases m <;> rfl
  · simp [rcpBits, divBits, positive.ne']

/-- An integer square root by bits is exact on squares. -/
theorem isqrtBits_square (t b : Nat) : ∀ r, r ≤ t → t < r + 2 ^ b → isqrtBits (t * t) b r = t := by
  induction b with
  | zero =>
    intro r le lt
    rw [isqrtBits]
    omega
  | succ b ih =>
    intro r le lt
    rw [Nat.pow_succ] at lt
    rw [isqrtBits]
    split
    · rename_i below
      exact ih _ (Nat.mul_self_le_mul_self_iff.1 below) (by omega)
    · rename_i above
      exact ih _ le (by rw [Nat.mul_self_le_mul_self_iff] at above; omega)

/-- The square root that VRSQ takes of an even power of two. -/
theorem isqrtBits_two_pow {j : Nat} (le : j ≤ 64) : isqrtBits (2 ^ 128 / 2 ^ (2 * j)) 66 0 = 2 ^ (64 - j) := by
  have square : 2 ^ 128 / 2 ^ (2 * j) = 2 ^ (64 - j) * 2 ^ (64 - j) := by
    rw [Nat.pow_div (by omega) (by decide), ← Nat.pow_add]
    congr 1
    omega
  rw [square]
  refine isqrtBits_square _ 66 0 (Nat.zero_le _) ?_
  rw [Nat.zero_add]
  exact Nat.pow_lt_pow_right (by decide) (by omega)

/-- The reciprocal square root of an even power of two is exact. -/
theorem rsqBits_two_pow {a : Nat} {e n : Int} (value : a + e = 2 * n) (small : a < 64) (low : -127 ≤ n) (high : n ≤ 126) :
    rsqBits (.fin false (2 ^ a) e) = (127 - n).toNat * 2 ^ 23 := by
  have root {h : Int} {j : Nat} (sum : j + h = n) (le : j ≤ 64) : cvtRat .fp32 .rne false false
      (2 * isqrtBits (2 ^ 128 / 2 ^ (2 * j)) 66 0 +
        if isqrtBits (2 ^ 128 / 2 ^ (2 * j)) 66 0 * isqrtBits (2 ^ 128 / 2 ^ (2 * j)) 66 0 * 2 ^ (2 * j) = 2 ^ 128 then 0 else 1) 1 (-h - 65) =
      (127 - n).toNat * 2 ^ 23 := by
    have whole : 2 ^ (64 - j) * 2 ^ (64 - j) * 2 ^ (2 * j) = 2 ^ 128 := by
      rw [← Nat.pow_add, ← Nat.pow_add]
      congr 1
      omega
    rw [isqrtBits_two_pow le, if_pos whole, Nat.add_zero, ← Nat.pow_succ', cvtRat_two_pow (n := -n) (by omega) (by omega) (by omega),
      show -n + 127 = 127 - n by omega]
  simp only [rsqBits, if_neg (Nat.two_pow_pos a).ne', Bool.false_eq_true, if_false]
  by_cases even : e % 2 = 0
  · rw [if_pos even, if_pos even]
    obtain ⟨j, rfl⟩ : ∃ j, a = 2 * j := ⟨a / 2, by omega⟩
    exact root (by omega) (by omega)
  · rw [if_neg even, if_neg even, ← Nat.pow_succ']
    obtain ⟨j, odd⟩ : ∃ j, a + 1 = 2 * j := ⟨(a + 1) / 2, by omega⟩
    rw [Nat.succ_eq_add_one, odd]
    exact root (by omega) (by omega)

/-- The mantissa and the exponent of an FP32 value. -/
theorem floatVal_fp32_bounds {x m : Nat} {s : Bool} {e : Int} (h : floatVal .fp32 x = .fin s m e) : m < 2 ^ 24 ∧ -149 ≤ e ∧ e ≤ 104 := by
  have fraction : x % 2 ^ 23 < 2 ^ 23 := Nat.mod_lt _ (by decide)
  have exponent : x / 2 ^ 23 % 2 ^ 8 < 2 ^ 8 := Nat.mod_lt _ (by decide)
  simp only [floatVal, show Fmt.fp32.fracBits = 23 from rfl, show Fmt.fp32.expBits = 8 from rfl, show Fmt.fp32.qMin = -149 from rfl,
    show Fmt.fp32.hasInf = true from rfl, and_true] at h
  split at h
  · split at h <;> cases h
  · split at h
    · cases h
    · split at h
      · cases h
        omega
      · cases h
        omega

/-- The reciprocal square root of an FP32 value that is an even power of two. -/
theorem rsqBits_of_even_power {x : Nat} {n : Int} (h : (floatVal .fp32 x).eq (.fin false 1 (2 * n)) = true) :
    rsqBits (floatVal .fp32 x) = (127 - n).toNat * 2 ^ 23 := by
  cases value : floatVal .fp32 x with
  | nan => simp [value, Val.eq] at h
  | inf s => simp [value, Val.eq] at h
  | fin s m e =>
    rw [value] at h
    obtain ⟨small, low, high⟩ := floatVal_fp32_bounds value
    obtain ⟨rfl, le, rfl⟩ := fin_eq_two_pow h
    have bits := (Nat.pow_lt_pow_iff_right (by decide)).1 small
    exact rsqBits_two_pow (by omega) (by omega) (by omega) (by omega)

/-- The cases of VRSQ. -/
theorem rsqBits_results (m : Bool) (x : Nat) (g : Int) : let sign := fun (z : Nat) => (if m then 2 ^ 31 else 0) + z
    rsqBits .nan = 0x7FC00000 ∧ rsqBits (.fin m 0 g) = sign 0x7F800000 ∧ rsqBits (.inf false) = 0 ∧ rsqBits (.inf true) = 0x7FC00000 ∧
      (0 < x → rsqBits (.fin true x g) = 0x7FC00000) ∧
      ∀ n : Int, (floatVal .fp32 x).eq (.fin false 1 (2 * n)) = true → rsqBits (floatVal .fp32 x) = (127 - n).toNat * 2 ^ 23 := by
  refine ⟨rfl, rfl, rfl, rfl, fun positive => ?_, fun n => rsqBits_of_even_power⟩
  simp [rsqBits, positive.ne', Fmt.nanBits]

/-- The cases of VTANH: from 9 on the result is one. -/
theorem tanhBits_results (m : Bool) (x : Nat) (g : Int) : let sign := fun (z : Nat) => (if m then 2 ^ 31 else 0) + z
    tanhBits .nan = 0x7FC00000 ∧ tanhBits (.fin m 0 g) = sign 0 ∧ tanhBits (.inf m) = sign 0x3F800000 ∧
      ((Val.fin false x g).lt (Val.ofInt 9) = false → tanhBits (.fin m x g) = sign 0x3F800000) := by
  refine ⟨rfl, rfl, rfl, fun large => ?_⟩
  obtain ⟨-, nonzero⟩ := positive_of_not_lt large (by decide)
  change (Val.fin false x g).lt (.fin false 9 0) = false at large
  simp only [tanhBits, if_neg nonzero, large]
  rfl

/-! ### Vector functions (R198, R199, R202) -/

/-- A lane times its block scale, by the fields of the scale (R174, R175). -/
theorem scaledVal_eq (v : Val) (sc : Nat) (small : sc < 2 ^ 32) : scaledVal v sc =
    let k := bitsOf (BitVec.ofNat 32 sc) 19 12
    if k = 0 then .zero else if k = 255 then .nan else v.mul (.fin false (4096 + sc % 4096) ((k : Int) - 127 - 12)) := by
  have field : bitsOf (BitVec.ofNat 32 sc) 19 12 = scaleExp sc := by
    rw [bitsOf, BitVec.toNat_ofNat, Nat.mod_eq_of_lt small]
    rfl
  simp only [field, scaledVal, scalePow, scaleMant, Int.sub_sub]
  rfl

/-- Settles O18: the transcendentals, VDEC and VSCL merge their lanes, and R198 fixes what the functions of the model are on special values. -/
theorem vectorFunctionResults : Obligations.VectorFunctionResults := by
  unfold Obligations.VectorFunctionResults
  intro s d a b p sel f e cb ready takes float writes x out
  have one : Ready s [.v a] [.v d] := Ready.mono ready (by simp) (by simp)
  have two : Ready s [.v a, .v b] [.v d] := Ready.mono ready (by simp) (by simp)
  refine ⟨fun unscaled => ?_, fun m y g => ⟨rcpBits_results m y g, rsqBits_results m y g, tanhBits_results m y g⟩, ?_⟩
  · have lanes (g : Val → Nat) : ∃ v, s.transcendental d a p sel g = .next (putV s d v) ∧ Merged s d p f.width (fun i => out (g (x i))) v :=
      lanewise_of_takes one takes float unscaled _
    refine ⟨lanes _, lanes _, lanes _, lanes _, lanes _, ?_⟩
    rintro c rfl
    exact lanewise_of_takes one takes float unscaled _
  · refine ⟨_, ?_, merged_mergeLanes s d p f.width _⟩
    change Host.Outcome.next (s.slot _ _ _) = _
    rw [slot_of_ready two, withFmt_ignored_of_takes takes float]
    simp only [← scaledVal_eq _ _ (elem_lt _ _ _)]
    rfl

end Sys2Proof.Proofs

namespace Sys2Proof.Proofs
open Sys2Proof Sys2Proof.Machine Sys2Proof.Safety Sys2Proof.Laws

/-! ### The order of exact values (R158, R187) -/

/-- A lower exponent scales an aligned mantissa. -/
theorem alignTo_rescale (s : Bool) (m : Nat) {e e1 e0 : Int} (le : e1 ≤ e) (le' : e0 ≤ e1) : alignTo s m e e0 = alignTo s m e e1 * 2 ^ (e1 - e0).toNat := by
  have split : (e - e0).toNat = (e - e1).toNat + (e1 - e0).toNat := by omega
  cases s <;> simp [alignTo, split, pow_add, mul_assoc]

/-- Two finite values compare as their mantissas at any exponent that is not above theirs. -/
theorem lt_iff_alignTo (s t : Bool) (m n : Nat) {e g e0 : Int} (le : e0 ≤ e) (le' : e0 ≤ g) :
    (Val.fin s m e).lt (.fin t n g) = true ↔ alignTo s m e e0 < alignTo t n g e0 := by
  have low : e0 ≤ min e g := le_min le le'
  rw [alignTo_rescale s m (min_le_left e g) low, alignTo_rescale t n (min_le_right e g) low, Int.mul_lt_mul_right (by positivity)]
  simp [Val.lt]

/-- The order of finite values: by magnitude at a common exponent, and -0 below +0. -/
theorem below_iff_alignTo (s t : Bool) (m n : Nat) {e g e0 : Int} (le : e0 ≤ e) (le' : e0 ≤ g) :
    (Val.fin s m e).below (.fin t n g) = true ↔ alignTo s m e e0 < alignTo t n g e0 ∨ (m = 0 ∧ n = 0 ∧ s = true ∧ t = false) := by
  rw [Val.below, Bool.or_eq_true, lt_iff_alignTo s t m n le le']
  simp [Val.isZero, and_assoc]

theorem below_asymm {x y : Val} (h : x.below y = true) : y.below x = false := by
  cases x with
  | nan => cases h
  | inf s => cases y <;> simp_all [Val.below, Val.lt, Val.isZero]
  | fin s m e =>
    cases y with
    | nan => simp [Val.below, Val.lt, Val.isZero] at h
    | inf t => simp_all [Val.below, Val.lt, Val.isZero]
    | fin t n g =>
      rw [below_iff_alignTo s t m n (min_le_left e g) (min_le_right e g)] at h
      rw [← Bool.not_eq_true, below_iff_alignTo t s n m (min_le_right e g) (min_le_left e g)]
      rcases h with less | ⟨rfl, rfl, rfl, rfl⟩
      · rintro (more | ⟨rfl, rfl, -⟩)
        · omega
        · simp [alignTo_zero] at less
      · simp [alignTo_zero]

theorem below_trans {x y z : Val} (h : x.below y = true) (h' : y.below z = true) : x.below z = true := by
  cases x with
  | nan => cases h
  | inf s => cases y <;> cases z <;> simp_all [Val.below, Val.lt, Val.isZero]
  | fin s m e =>
    cases y with
    | nan => simp [Val.below, Val.lt, Val.isZero] at h
    | inf t => cases z <;> simp_all [Val.below, Val.lt, Val.isZero]
    | fin t n g =>
      cases z with
      | nan => simp [Val.below, Val.lt, Val.isZero] at h'
      | inf u => simp_all [Val.below, Val.lt, Val.isZero]
      | fin u l k =>
        have xy := (below_iff_alignTo s t m n (e0 := min e (min g k)) (by omega) (by omega)).1 h
        have yz := (below_iff_alignTo t u n l (e0 := min e (min g k)) (by omega) (by omega)).1 h'
        refine (below_iff_alignTo s u m l (e0 := min e (min g k)) (by omega) (by omega)).2 ?_
        rcases xy with less | ⟨rfl, rfl, rfl, rfl⟩ <;> rcases yz with less' | ⟨zero, rfl, sign, rfl⟩
        · exact .inl (less.trans less')
        · subst zero
          rw [alignTo_zero] at less ⊢
          exact .inl less
        · rw [alignTo_zero] at less' ⊢
          exact .inl less'
        · cases sign

/-! ### The best of some lanes (R187, R207, R208) -/

/-- A lane lies below another: by the order of R187, or as integers. -/
def LaneBelow (f : Fmt) (x y : Nat) : Prop := if f.isFloat then (floatVal f x).below (floatVal f y) = true else intVal f x < intVal f y

theorem laneBelow_asymm {f : Fmt} {x y : Nat} (h : LaneBelow f x y) : ¬ LaneBelow f y x := by
  unfold LaneBelow at *
  split at h
  · simp [*, below_asymm h]
  · simp [*, h.le]

theorem laneBelow_trans {f : Fmt} {x y z : Nat} (h : LaneBelow f x y) (h' : LaneBelow f y z) : LaneBelow f x z := by
  unfold LaneBelow at *
  split at h
  · simp_all [below_trans h]
  · simp_all [h.trans]

/-- A lane holds a number. -/
def IsNumber (f : Fmt) (x : Nat) : Prop := (valOf f x).isNan = false

/-- Numbers rank as R221 has them. -/
theorem keyBelow_iff {f : Fmt} {x y : Nat} (hx : IsNumber f x) (hy : IsNumber f y) : keyBelow f x y = true ↔ LaneBelow f x y := by
  unfold keyBelow LaneBelow
  unfold IsNumber valOf at hx hy
  split <;> simp_all

/-- A lane is better than another: above it for a maximum, below it for a minimum. -/
def Better (big : Bool) (f : Fmt) (x y : Nat) : Prop := if big then LaneBelow f y x else LaneBelow f x y

theorem better_asymm {big : Bool} {f : Fmt} {x y : Nat} (h : Better big f x y) : ¬ Better big f y x := by
  cases big <;> exact laneBelow_asymm h

theorem better_trans {big : Bool} {f : Fmt} {x y z : Nat} (h : Better big f x y) (h' : Better big f y z) : Better big f x z := by
  cases big
  · exact laneBelow_trans h h'
  · exact laneBelow_trans h' h

/-- The test of the reductions between numbers. -/
theorem test_iff_better (big : Bool) {f : Fmt} {x y : Nat} (hx : IsNumber f x) (hy : IsNumber f y) :
    (if big then keyBelow f y x else keyBelow f x y) = true ↔ Better big f x y := by
  cases big
  · exact keyBelow_iff hx hy
  · exact keyBelow_iff hy hx

section BestLane
variable {test : Nat → Nat → Bool}

/-- The better of two lanes, the earlier one among equals. -/
def pick (test : Nat → Nat → Bool) (b y : Nat × Nat) : Nat × Nat := if test y.2 b.2 then y else b

theorem foldl_pick_mem (l : List (Nat × Nat)) (b : Nat × Nat) : l.foldl (pick test) b ∈ b :: l := by
  induction l generalizing b with
  | nil => simp
  | cons y t ih =>
    have step := ih (pick test b y)
    have : pick test b y = y ∨ pick test b y = b := by unfold pick; split <;> simp
    rw [List.foldl_cons]
    grind

theorem foldl_pick_of_not_better {l : List (Nat × Nat)} {b : Nat × Nat} (h : ∀ y ∈ l, test y.2 b.2 = false) : l.foldl (pick test) b = b := by
  induction l with
  | nil => rfl
  | cons y t ih =>
    rw [List.foldl_cons, pick, if_neg (by simp [h y]), ih fun z mem => h z (List.mem_cons_of_mem y mem)]

/-- The lane that is left is the first one, or better than it. -/
theorem foldl_pick_eq_or_better {better : Nat → Nat → Prop} (trans : ∀ {x y z}, better x y → better y z → better x z) (l : List (Nat × Nat)) (b : Nat × Nat)
    (sound : ∀ x ∈ b :: l, ∀ y ∈ b :: l, test x.2 y.2 = true → better x.2 y.2) : l.foldl (pick test) b = b ∨ better (l.foldl (pick test) b).2 b.2 := by
  induction l generalizing b with
  | nil => exact .inl rfl
  | cons y t ih =>
    rw [List.foldl_cons, pick]
    split
    · rename_i ahead
      have step := sound y (by simp) b (by simp) ahead
      rcases ih y fun u hu v hv => sound u (List.mem_cons_of_mem b hu) v (List.mem_cons_of_mem b hv) with same | up
      · exact .inr (by rw [same]; exact step)
      · exact .inr (trans up step)
    · exact ih b fun u hu v hv => sound u (by grind) v (by grind)

/-- No lane is better than the one that is left. -/
theorem foldl_pick_best {better : Nat → Nat → Prop} (asymm : ∀ {x y}, better x y → ¬ better y x) (trans : ∀ {x y z}, better x y → better y z → better x z)
    (l : List (Nat × Nat)) (b : Nat × Nat) (same : ∀ x ∈ b :: l, ∀ y ∈ b :: l, test x.2 y.2 = true ↔ better x.2 y.2) :
    ∀ x ∈ b :: l, ¬ better x.2 (l.foldl (pick test) b).2 := by
  induction l generalizing b with
  | nil => simpa using fun worse : better b.2 b.2 => asymm worse worse
  | cons y t ih =>
    have first := foldl_pick_eq_or_better (better := better) trans (y :: t) b fun u hu v hv => (same u hu v hv).1
    rw [List.foldl_cons] at first ⊢
    have rest : ∀ x ∈ pick test b y :: t, ¬ better x.2 (t.foldl (pick test) (pick test b y)).2 := by
      refine ih _ fun u hu v hv => same u ?_ v ?_ <;> unfold pick at * <;> grind
    have left_out {x : Nat × Nat} (worse : ¬ better x.2 b.2) : ¬ better x.2 (t.foldl (pick test) (pick test b y)).2 := by
      rcases first with eq | up
      · rwa [eq]
      · exact fun ahead => worse (trans ahead up)
    intro x mem
    rcases List.mem_cons.1 mem with rfl | mem
    · exact left_out fun worse => asymm worse worse
    rcases List.mem_cons.1 mem with rfl | mem
    · by_cases ahead : test x.2 b.2
      · exact rest x (by simp [pick, ahead])
      · exact left_out fun above => ahead ((same x (by simp) b (by simp)).2 above)
    · exact rest x (List.mem_cons_of_mem _ mem)

/-- The best of some lanes is one of them, and none is better. -/
theorem bestLane_best {better : Nat → Nat → Prop} (asymm : ∀ {x y}, better x y → ¬ better y x) (trans : ∀ {x y z}, better x y → better y z → better x z)
    {l : List (Nat × Nat)} (inhabited : l ≠ []) (same : ∀ x ∈ l, ∀ y ∈ l, test x.2 y.2 = true ↔ better x.2 y.2) :
    ∃ m ∈ l, bestLane test l = some m ∧ ∀ x ∈ l, ¬ better x.2 m.2 := by
  cases l with
  | nil => exact absurd rfl inhabited
  | cons b t => exact ⟨_, foldl_pick_mem t b, rfl, foldl_pick_best (better := better) asymm trans t b same⟩

/-- A lane that is better than every earlier one, and than which none is better, is the best of some lanes. -/
theorem bestLane_eq {before after : List (Nat × Nat)} {m : Nat × Nat} (earlier : ∀ x ∈ before, test m.2 x.2 = true) (later : ∀ x ∈ after, test x.2 m.2 = false) :
    bestLane test (before ++ m :: after) = some m := by
  cases before with
  | nil => exact congrArg some (foldl_pick_of_not_better later)
  | cons b t =>
    have last : pick test (t.foldl (pick test) b) m = m := if_pos (earlier _ (foldl_pick_mem t b))
    change some ((t ++ m :: after).foldl (pick test) b) = some m
    rw [List.foldl_append, List.foldl_cons, last, foldl_pick_of_not_better later]

/-- In a list of rising lanes, a lane that is better than every lower one, and than which no higher one is better, is the best. -/
theorem bestLane_of_rising {l : List (Nat × Nat)} {m : Nat × Nat} (rising : l.Pairwise (·.1 < ·.1)) (mem : m ∈ l)
    (earlier : ∀ x ∈ l, x.1 < m.1 → test m.2 x.2 = true) (later : ∀ x ∈ l, m.1 < x.1 → test x.2 m.2 = false) : bestLane test l = some m := by
  obtain ⟨before, after, rfl⟩ := List.append_of_mem mem
  rw [List.pairwise_append, List.pairwise_cons] at rising
  obtain ⟨-, ⟨high, -⟩, low⟩ := rising
  exact bestLane_eq (fun x hx => earlier x (by simp [hx]) (low x hx m (by simp))) fun x hx => later x (by simp [hx]) (high x hx)

end BestLane

/-! ### Active lanes (R193, R207, R208) -/

theorem mem_activeLanes {v : VReg} {p : Pred} {w : Nat} {x : Nat × Nat} :
    x ∈ activeLanes v p w ↔ (x.1 < 16384 / w ∧ laneOn p w x.1 = true) ∧ x.2 = elem v x.1 w := by
  obtain ⟨i, y⟩ := x
  simp only [activeLanes, List.mem_map, List.mem_filter, List.mem_range, Prod.mk.injEq]
  constructor
  · rintro ⟨j, on, rfl, rfl⟩
    exact ⟨on, rfl⟩
  · rintro ⟨on, rfl⟩
    exact ⟨i, on, rfl, rfl⟩

theorem activeLanes_rising (v : VReg) (p : Pred) (w : Nat) : (activeLanes v p w).Pairwise (·.1 < ·.1) := by
  rw [activeLanes, List.pairwise_map]
  exact List.Pairwise.filter _ List.pairwise_lt_range

section Lanes
variable {big : Bool} {f : Fmt} {v : VReg} {p : Pred}

/-- Lane `i` is active. -/
def On (f : Fmt) (p : Pred) (i : Nat) : Prop := i < f.lanes ∧ laneOn p f.width i = true

theorem On.mem {i : Nat} (on : On f p i) : (i, elem v i f.width) ∈ activeLanes v p f.width := mem_activeLanes.2 ⟨on, rfl⟩

/-- Without an active lane there is nothing to choose from. -/
theorem activeLanes_eq_nil (none : ∀ i, ¬ On f p i) : activeLanes v p f.width = [] :=
  List.eq_nil_iff_forall_not_mem.2 fun x mem => none x.1 (mem_activeLanes.1 mem).1

/-- VRMAX and VRMIN of a NaN (R207). -/
theorem reduceBest_of_nan {i : Nat} (float : f.isFloat = true) (on : On f p i) (nan : (floatVal f (elem v i f.width)).isNan = true) :
    reduceBest big f v p = 0x7FC00000 := by
  have any : (activeLanes v p f.width).any (fun x => (floatVal f x.2).isNan) = true :=
    List.any_eq_true.2 ⟨(i, _), on.mem, nan⟩
  simp only [reduceBest, float, any]
  rfl

/-- VRMAX and VRMIN of no lane (R207). -/
theorem reduceBest_of_none (none : ∀ i, ¬ On f p i) : reduceBest big f v p =
    if f.isFloat then BitVec.ofNat 64 (Fmt.signBits .fp32 big + Fmt.infBits .fp32) else BitVec.ofInt 64 (if big then f.minInt else f.maxInt) := by
  simp [reduceBest, activeLanes_eq_nil none, bestLane]

/-- VRMAX and VRMIN of numbers: the scalar of a lane than which none is better (R187, R207). -/
theorem reduceBest_of_numbers {i : Nat} (on : On f p i) (numbers : ∀ i, On f p i → IsNumber f (elem v i f.width)) :
    ∃ i, On f p i ∧ (∀ j, On f p j → ¬ Better big f (elem v j f.width) (elem v i f.width)) ∧ reduceBest big f v p = laneScalar f (elem v i f.width) := by
  have number {x : Nat × Nat} (mem : x ∈ activeLanes v p f.width) : IsNumber f x.2 := by
    obtain ⟨on, value⟩ := mem_activeLanes.1 mem
    rw [value]
    exact numbers _ on
  obtain ⟨m, mem, best, top⟩ := bestLane_best (test := fun x y => if big then keyBelow f y x else keyBelow f x y) (better := Better big f)
    better_asymm better_trans (List.ne_nil_of_mem on.mem) fun x hx y hy => test_iff_better big (number hx) (number hy)
  obtain ⟨active, value⟩ := mem_activeLanes.1 mem
  have nans : (f.isFloat && (activeLanes v p f.width).any fun x => (floatVal f x.2).isNan) = false := by
    rw [← Bool.not_eq_true, Bool.and_eq_true, List.any_eq_true]
    rintro ⟨float, x, mem, nan⟩
    have := number mem
    simp [IsNumber, valOf, float, nan] at this
  refine ⟨m.1, active, fun j on => ?_, ?_⟩
  · rw [← value]
    exact top _ on.mem
  · simp only [reduceBest, nans, best, ← value]
    rfl

/-- VRAMAX and VRAMIN: the lowest of the best numbers (R187, R208). -/
theorem reduceIndex_of_number {i : Nat} (on : On f p i) (number : IsNumber f (elem v i f.width))
    (ahead : ∀ j, On f p j → IsNumber f (elem v j f.width) →
      Better big f (elem v i f.width) (elem v j f.width) ∨ (¬ Better big f (elem v j f.width) (elem v i f.width) ∧ i ≤ j)) :
    reduceIndex big f v p = BitVec.ofNat 64 i := by
  have numbers {x : Nat × Nat} : x ∈ (activeLanes v p f.width).filter (fun x => !(valOf f x.2).isNan) ↔
      (On f p x.1 ∧ x.2 = elem v x.1 f.width) ∧ IsNumber f x.2 := by
    rw [List.mem_filter, mem_activeLanes, Bool.not_eq_true']
    rfl
  have best : bestLane (fun x y => if big then keyBelow f y x else keyBelow f x y) ((activeLanes v p f.width).filter fun x => !(valOf f x.2).isNan) =
      some (i, elem v i f.width) := by
    refine bestLane_of_rising ((activeLanes_rising v p f.width).filter _) (numbers.2 ⟨⟨on, rfl⟩, number⟩) ?_ ?_
    · intro x mem lower
      obtain ⟨⟨active, value⟩, finite⟩ := numbers.1 mem
      rw [test_iff_better big number finite, value]
      rw [value] at finite
      rcases ahead _ active finite with better | ⟨-, higher⟩
      · exact better
      · omega
    · intro x mem higher
      obtain ⟨⟨active, value⟩, finite⟩ := numbers.1 mem
      rw [← Bool.not_eq_true, test_iff_better big finite number, value]
      rw [value] at finite
      rcases ahead _ active finite with better | ⟨worse, -⟩
      · exact better_asymm better
      · exact worse
  simp only [reduceIndex, best]

/-- VRAMAX and VRAMIN of no lane (R208). -/
theorem reduceIndex_of_none (none : ∀ i, ¬ On f p i) : reduceIndex big f v p = BitVec.allOnes 64 := by
  simp [reduceIndex, activeLanes_eq_nil none, bestLane]

/-- VRAMAX and VRAMIN where every active lane is NaN: the lowest of them (R208). -/
theorem reduceIndex_of_nans {i : Nat} (on : On f p i) (nans : ∀ j, On f p j → ¬ IsNumber f (elem v j f.width) ∧ i ≤ j) :
    reduceIndex big f v p = BitVec.ofNat 64 i := by
  have numbers : (activeLanes v p f.width).filter (fun x => !(valOf f x.2).isNan) = [] := by
    rw [List.filter_eq_nil_iff]
    intro x mem
    obtain ⟨active, value⟩ := mem_activeLanes.1 mem
    simpa [IsNumber, value] using (nans _ active).1
  have first : ∃ x t, activeLanes v p f.width = x :: t ∧ x.1 = i := by
    have member : (i, elem v i f.width) ∈ activeLanes v p f.width := on.mem
    have rising := activeLanes_rising v p f.width
    cases lanes : activeLanes v p f.width with
    | nil => simp [lanes] at member
    | cons x t =>
      refine ⟨x, t, rfl, le_antisymm ?_ (nans _ (mem_activeLanes.1 (lanes ▸ List.mem_cons_self)).1).2⟩
      rw [lanes] at member rising
      rcases List.mem_cons.1 member with rfl | later
      · exact le_rfl
      · exact ((List.pairwise_cons.1 rising).1 _ later).le
  obtain ⟨x, t, lanes, lowest⟩ := first
  simp only [reduceIndex, numbers, bestLane]
  rw [lanes]
  exact congrArg (BitVec.ofNat 64) lowest

end Lanes

end Sys2Proof.Proofs

namespace Sys2Proof.Proofs
open Sys2Proof Sys2Proof.Machine Sys2Proof.Safety Sys2Proof.Laws

/-! ### Sums of lanes (R186, R207) -/

/-- One level of the tree over lanes in order. -/
theorem treeLevel_range (g : Val → Val → Val) (y : Nat → Val) (n : Nat) :
    ∀ k, treeLevel g ((List.range' (2 * k) (2 * n)).map y) = (List.range' k n).map fun i => g (y (2 * i)) (y (2 * i + 1)) := by
  induction n with
  | zero => exact fun _ => rfl
  | succ n ih =>
    intro k
    rw [show 2 * (n + 1) = 2 * n + 1 + 1 by ring, List.range'_succ, List.range'_succ, List.range'_succ]
    exact congrArg _ (ih (k + 1))

/-- The root of the pairwise tree over 2^n lanes, each level of which is known (R186). -/
theorem treeSum_eq {g : Val → Val → Val} {y : Nat → Nat → Val} (level : ∀ k i, y (k + 1) i = g (y k (2 * i)) (y k (2 * i + 1))) (n : Nat) :
    ∀ k, treeSum g n ((List.range (2 ^ n)).map (y k)) = y (n + k) 0 := by
  induction n with
  | zero => exact fun k => by simp [treeSum]
  | succ n ih =>
    intro k
    have step := treeLevel_range g (y k) (2 ^ n) 0
    rw [← pow_succ', mul_zero, ← List.range_eq_range', ← List.range_eq_range', ← funext (level k)] at step
    rw [treeSum, step, ih (k + 1), Nat.add_right_comm, Nat.add_assoc]

/-- The value is this integer, written with exponent 0. -/
def HoldsInt (x : Val) (n : Int) : Prop := ∃ s m, x = .fin s m 0 ∧ alignTo s m 0 0 = n

theorem holdsInt_zero : HoldsInt .zero 0 := ⟨_, _, rfl, alignTo_zero _ _ _⟩

theorem holdsInt_ofInt (n : Int) : HoldsInt (Val.ofInt n) n := ⟨_, _, rfl, by simpa using alignTo_ofInt n 0⟩

theorem toInt_of_holdsInt {x : Val} {n : Int} (h : HoldsInt x n) : x.toInt = n := by
  obtain ⟨s, m, rfl, value⟩ := h
  exact value

/-- A sum of integers is exact. -/
theorem HoldsInt.add {x y : Val} {n m : Int} (rnd : Rnd) (hx : HoldsInt x n) (hy : HoldsInt y m) : HoldsInt (x.add rnd y) (n + m) := by
  obtain ⟨s, a, rfl, rfl⟩ := hx
  obtain ⟨t, b, rfl, rfl⟩ := hy
  simp only [Val.add, min_self]
  split
  · rename_i zero
    rw [zero]
    exact ⟨_, _, rfl, alignTo_zero _ _ _⟩
  · exact holdsInt_ofInt _

section IntegerSum
variable {g : Val → Val → Val} (adds : ∀ {x y n m}, HoldsInt x n → HoldsInt y m → HoldsInt (g x y) (n + m))
include adds

/-- A level of the tree keeps the sum of integers. -/
theorem treeLevel_holdsInt : ∀ {n : Nat} {l : List Val} {x : List Int}, l.length = 2 * n → List.Forall₂ HoldsInt l x →
    ∃ z, List.Forall₂ HoldsInt (treeLevel g l) z ∧ z.sum = x.sum ∧ (treeLevel g l).length = n := by
  intro n
  induction n with
  | zero =>
    intro l x length h
    obtain rfl := List.eq_nil_of_length_eq_zero length
    exact ⟨x, h, rfl, rfl⟩
  | succ n ih =>
    intro l x length h
    match h with
    | .nil => simp at length
    | .cons _ .nil => simp at length; omega
    | .cons first (.cons second rest) =>
      obtain ⟨z, level, sum, half⟩ := ih (by simp at length; omega) rest
      exact ⟨_ :: z, .cons (adds first second) level, by simp [sum, add_assoc], by simp [treeLevel, half]⟩

/-- The pairwise tree of integers is their sum. -/
theorem treeSum_holdsInt (n : Nat) : ∀ {l : List Val} {x : List Int}, l.length = 2 ^ n → List.Forall₂ HoldsInt l x → HoldsInt (treeSum g n l) x.sum := by
  induction n with
  | zero =>
    intro l x length h
    match h with
    | .nil => simp at length
    | .cons first .nil => simpa [treeSum] using first
    | .cons _ (.cons _ _) => simp at length
  | succ n ih =>
    intro l x length h
    obtain ⟨z, level, sum, half⟩ := treeLevel_holdsInt adds (n := 2 ^ n) (by rw [length, pow_succ']) h
    rw [treeSum, ← sum]
    exact ih half level

end IntegerSum

/-- The sum of the elements that pass a test. -/
theorem sum_map_filter (l : List Nat) (test : Nat → Bool) (x : Nat → Int) : ((l.filter test).map x).sum = (l.map fun i => if test i then x i else 0).sum := by
  simp [List.sum_map_ite]

section Sums
variable {f : Fmt} {e : FmtEntry} {v : VReg} {p : Pred}

theorem isFloat_of_isInt (int : f.isInt = true) : f.isFloat = false := by
  revert int
  cases f <;> decide

theorem lanes_eq_two_pow (plain : f.plain = true) : f.lanes = 2 ^ Nat.log2 f.lanes := by
  revert plain
  cases f <;> decide

theorem treeAdd_holdsInt (int : f.isInt = true) {x y : Val} {n m : Int} (hx : HoldsInt x n) (hy : HoldsInt y m) : HoldsInt (treeAdd f e x y) (n + m) := by
  simpa [treeAdd, isFloat_of_isInt int] using hx.add .rne hy

theorem valOf_holdsInt (int : f.isInt = true) (x : Nat) : HoldsInt (valOf f x) (intVal f x) := by
  simpa [valOf, isFloat_of_isInt int] using holdsInt_ofInt _

/-- VRSUM of integers (R207). -/
theorem reduceSum_of_int (int : f.isInt = true) : reduceSum f e v p =
    BitVec.ofInt 64 ((((List.range f.lanes).filter fun i => laneOn p f.width i).map fun i => intVal f (elem v i f.width)).sum) := by
  have lanes : List.Forall₂ HoldsInt ((List.range f.lanes).map fun i => if laneOn p f.width i then valOf f (elem v i f.width) else Val.zero)
      ((List.range f.lanes).map fun i => if laneOn p f.width i then intVal f (elem v i f.width) else 0) := by
    rw [List.forall₂_map_left_iff, List.forall₂_map_right_iff, List.forall₂_same]
    intro i _
    split
    · exact valOf_holdsInt int _
    · exact holdsInt_zero
  have root := treeSum_holdsInt (g := treeAdd f e) (treeAdd_holdsInt int) (Nat.log2 f.lanes) (by simpa using lanes_eq_two_pow (by simp [Fmt.plain, int])) lanes
  simp only [reduceSum, isFloat_of_isInt int, toInt_of_holdsInt root, sum_map_filter]
  rfl

/-- VRSUM of floating lanes: the root of the pairwise tree (R186, R207). -/
theorem reduceSum_of_float {n : Nat} {y : Nat → Nat → Val} (float : f.isFloat = true) (lanes : f.lanes = 2 ^ n)
    (leaf : ∀ i < f.lanes, y 0 i = if laneOn p f.width i then floatVal f (elem v i f.width) else .zero)
    (level : ∀ k i, y (k + 1) i = treeAdd f e (y k (2 * i)) (y k (2 * i + 1))) : reduceSum f e v p = BitVec.ofNat 64 (cvtFloat .fp32 e.rnd e.sat (y n 0)) := by
  have leaves : ((List.range f.lanes).map fun i => if laneOn p f.width i then valOf f (elem v i f.width) else Val.zero) = (List.range (2 ^ n)).map (y 0) := by
    rw [← lanes]
    refine List.map_congr_left fun i mem => ?_
    rw [leaf i (List.mem_range.1 mem), valOf, if_pos float]
  have height : Nat.log2 f.lanes = n := by rw [lanes, Nat.log2_two_pow]
  simp only [reduceSum, leaves, height, treeSum_eq level n 0, float, if_true]
  rfl

/-! ### The scan (R209) -/

/-- The lanes of VSCAN, from a running sum that grows by the active lanes. -/
theorem scanLanes_eq {old : VReg} {y : Nat → Val} (grows : ∀ i, y (i + 1) = if laneOn p f.width i then treeAdd f e (y i) (valOf f (elem v i f.width)) else y i) (n : Nat) :
    ∀ i, scanLanes f e old v p i n (y i) = (List.range' i n).map fun j =>
      if laneOn p f.width j then (if f.isFloat then cvtFloat f e.rnd e.sat (y (j + 1)) else writeInt f e.sat (y (j + 1)).toInt) else elem old j f.width := by
  induction n with
  | zero => exact fun _ => rfl
  | succ n ih =>
    intro i
    have rest := ih (i + 1)
    rw [grows] at rest
    rw [scanLanes, List.range'_succ, List.map_cons, grows]
    split
    · rename_i on
      rw [if_pos on] at rest
      simp only [rest]
    · rename_i off
      rw [if_neg off] at rest
      rw [rest]

/-- Lanes one after the other, as a list and as a function. -/
theorem foldr_map_range' (w : Nat) (g : Nat → Nat) (n : Nat) : ∀ i, ((List.range' i n).map g).foldr (fun x a => x % 2 ^ w + 2 ^ w * a) 0 = packLanes w g i n := by
  induction n with
  | zero => exact fun _ => rfl
  | succ n ih =>
    intro i
    rw [List.range'_succ, List.map_cons, List.foldr_cons, ih, packLanes]

/-- The running sum of a scan. -/
def scanSum (f : Fmt) (e : FmtEntry) (v : VReg) (p : Pred) : Nat → Val
  | 0 => .zero
  | i + 1 => if laneOn p f.width i then treeAdd f e (scanSum f e v p i) (valOf f (elem v i f.width)) else scanSum f e v p i

theorem scanSum_holdsInt (int : f.isInt = true) (i : Nat) :
    HoldsInt (scanSum f e v p i) ((((List.range i).filter fun j => laneOn p f.width j).map fun j => intVal f (elem v j f.width)).sum) := by
  induction i with
  | zero => exact holdsInt_zero
  | succ i ih =>
    rw [scanSum, List.range_succ, List.filter_append, List.map_append, List.sum_append]
    by_cases on : laneOn p f.width i
    · simpa [on] using treeAdd_holdsInt int ih (valOf_holdsInt int _)
    · simpa [on] using ih

/-- The register of VSCAN. -/
def scanned (f : Fmt) (e : FmtEntry) (old v : VReg) (p : Pred) : VReg :=
  BitVec.ofNat 16384 ((scanLanes f e old v p 0 f.lanes .zero).foldr (fun x n => x % 2 ^ f.width + 2 ^ f.width * n) 0)

/-- A lane of VSCAN, from a running sum that grows by the active lanes. -/
theorem elem_scanned {old : VReg} {y : Nat → Val} (start : y 0 = .zero)
    (grows : ∀ i, y (i + 1) = if laneOn p f.width i then treeAdd f e (y i) (valOf f (elem v i f.width)) else y i) {i : Nat} (inside : i < f.lanes) :
    elem (scanned f e old v p) i f.width =
      if laneOn p f.width i then (if f.isFloat then cvtFloat f e.rnd e.sat (y (i + 1)) else writeInt f e.sat (y (i + 1)).toInt) % 2 ^ f.width
      else elem old i f.width := by
  have lanes := elem_vlanes (w := f.width) (fun j =>
      if laneOn p f.width j then (if f.isFloat then cvtFloat f e.rnd e.sat (y (j + 1)) else writeInt f e.sat (y (j + 1)).toInt) else elem old j f.width) inside
  rw [vlanes, ← foldr_map_range', ← scanLanes_eq grows, start] at lanes
  rw [scanned, Fmt.lanes, lanes]
  split
  · rfl
  · exact Nat.mod_eq_of_lt (elem_lt _ _ _)

theorem writeInt_lt (sat : Bool) (x : Int) : writeInt f sat x < 2 ^ f.width := by
  unfold writeInt wrapInt
  have : (0 : Int) < 2 ^ f.width := by positivity
  have := Int.emod_lt_of_pos (if sat then clampInt f x else x) this
  zify
  omega

/-- VSCAN of integers. -/
theorem elem_scanned_of_int {old : VReg} (int : f.isInt = true) {i : Nat} (inside : i < f.lanes) : elem (scanned f e old v p) i f.width =
    if laneOn p f.width i then writeInt f e.sat ((((List.range (i + 1)).filter fun j => laneOn p f.width j).map fun j => intVal f (elem v j f.width)).sum)
    else elem old i f.width := by
  rw [elem_scanned (y := scanSum f e v p) rfl (fun _ => rfl) inside, toInt_of_holdsInt (scanSum_holdsInt int _)]
  simp only [isFloat_of_isInt int, Bool.false_eq_true, if_false, Nat.mod_eq_of_lt (writeInt_lt _ _)]

end Sums

/-! ### Reductions and the scan together (R186, R187, R207 to R209) -/

/-- A reduction of a ready register by a format that it accepts. -/
theorem reduce_of_takes {s : State} {r : Fin 64} {a : Fin 256} {p : Fin 16} {sel : FmtSel} {f : Fmt} {e : FmtEntry} (ready : Ready s [.v a] [.s r])
    (takes : Takes s sel f e) (plain : f.plain = true) (unscaled : e.scaled = false) (g : Fmt → FmtEntry → VReg → Pred → Word) :
    s.reduce r a p sel g = .next (putS s r (g f e (srcV s a) (srcP s p))) := by
  rw [State.reduce, slot_of_ready ready, withFmt_of_takes takes plain unscaled]
  rfl

/-- The scalar of a lane (R207, R220). -/
theorem laneScalar_eq (f : Fmt) (x : Nat) : laneScalar f x = if f.isFloat then BitVec.ofNat 64 (cvtFloat .fp32 .rne false (floatVal f x)) else BitVec.ofInt 64 (intVal f x) := by
  unfold laneScalar
  split
  · rename_i float
    simp [cvt, Fmt.isInt, valOf, float]
  · rfl

theorem isNumber_of_float {f : Fmt} {x : Nat} (float : f.isFloat = true) : IsNumber f x ↔ (floatVal f x).isNan = false := by rw [IsNumber, valOf, if_pos float]

theorem isNumber_of_int {f : Fmt} (int : f.isInt = true) (x : Nat) : IsNumber f x := by simp [IsNumber, valOf, isFloat_of_isInt int, Val.ofInt, Val.isNan]

theorem laneBelow_of_int {f : Fmt} (int : f.isInt = true) {x y : Nat} : LaneBelow f x y ↔ intVal f x < intVal f y := by simp [LaneBelow, isFloat_of_isInt int]

theorem isNumber_iff {f : Fmt} {x : Nat} : IsNumber f x ↔ ¬ (f.isFloat = true ∧ (floatVal f x).isNan = true) := by
  unfold IsNumber valOf
  split <;> simp [*, Val.ofInt, Val.isNan]


/-- Settles O23: each reduction is a choice or a sum of the active lanes. -/
theorem reductionResults : Obligations.ReductionResults := by
  unfold Obligations.ReductionResults
  intro s r d a p sel f e ready takes plain unscaled q on x int node tops scalar best index nan
  have reduce := reduce_of_takes (p := p) (Ready.mono ready (by simp) (by simp)) takes plain unscaled (r := r) (a := a)
  have finds (big : Bool) (g : Word) (h : reduceBest big f (srcV s a) q = g) : s.reduce r a p sel (fun f _ => reduceBest big f) = .next (putS s r g) := by
    rw [reduce, h]
  have places (big : Bool) (g : Word) (h : reduceIndex big f (srcV s a) q = g) : s.reduce r a p sel (fun f _ => reduceIndex big f) = .next (putS s r g) := by
    rw [reduce, h]
  refine ⟨fun integer => ?_, fun n y float lanes leaf level => ?_, ?_, ?_, ?_, ?_, ?_, ?_, ?_, ?_⟩
  · exact (reduce reduceSum).trans (by rw [reduceSum_of_int integer]; rfl)
  · have level' (k i : Nat) : y (k + 1) i = treeAdd f e (y k (2 * i)) (y k (2 * i + 1)) := by rw [level, treeAdd, if_pos float]
    exact (reduce reduceSum).trans (by rw [reduceSum_of_float float lanes leaf level'])
  · rintro ⟨i, active, float, isNan⟩
    exact ⟨finds true _ (reduceBest_of_nan float active isNan), finds false _ (reduceBest_of_nan float active isNan)⟩
  · rintro ⟨i, active⟩ numbers
    have most (big : Bool) := reduceBest_of_numbers (big := big) (v := srcV s a) active fun i active => isNumber_iff.2 (numbers i active)
    obtain ⟨i, activeMax, top, valueMax⟩ := most true
    obtain ⟨j, activeMin, bottom, valueMin⟩ := most false
    exact ⟨⟨i, ⟨activeMax, top⟩, finds true _ (valueMax.trans (laneScalar_eq f _))⟩, ⟨j, ⟨activeMin, bottom⟩, finds false _ (valueMin.trans (laneScalar_eq f _))⟩⟩
  · intro none
    exact ⟨finds true _ (reduceBest_of_none none), finds false _ (reduceBest_of_none none), places true _ (reduceIndex_of_none none), places false _ (reduceIndex_of_none none)⟩
  · intro i active nans
    have all (j : Nat) (active : on j) := And.imp_left (fun h => isNumber_iff.not.2 (not_not.2 h)) (nans j active)
    exact ⟨places true _ (reduceIndex_of_nans active all), places false _ (reduceIndex_of_nans active all)⟩
  · rintro i ⟨active, number, ahead⟩ float
    exact places true _ (reduceIndex_of_number active ((isNumber_of_float float).2 number) fun j active number => ahead j active ((isNumber_of_float float).1 number))
  · rintro i ⟨active, number, ahead⟩ float
    exact places false _ (reduceIndex_of_number active ((isNumber_of_float float).2 number) fun j active number => ahead j active ((isNumber_of_float float).1 number))
  · intro i integer active
    refine ⟨fun ahead => places true _ (reduceIndex_of_number active (isNumber_of_int integer _) fun j active _ => ?_),
      fun ahead => places false _ (reduceIndex_of_number active (isNumber_of_int integer _) fun j active _ => ?_)⟩
    · exact (ahead j active).imp (laneBelow_of_int integer).2 (.imp_left fun same => (laneBelow_of_int integer).not.2 same.le.not_gt)
    · exact (ahead j active).imp (laneBelow_of_int integer).2 (.imp_left fun same => (laneBelow_of_int integer).not.2 same.ge.not_gt)
  · refine ⟨scanned f e (srcV s d) (srcV s a) q, ?_, fun integer i inside => elem_scanned_of_int integer inside, fun y float start grows i inside => ?_⟩
    · change Host.Outcome.next (s.slot _ _ _) = _
      rw [slot_of_ready (Ready.mono ready (by simp) (by simp)), withFmt_of_takes takes plain unscaled]
      rfl
    · have grows' (i : Nat) : y (i + 1) = if laneOn q f.width i then treeAdd f e (y i) (valOf f (elem (srcV s a) i f.width)) else y i := by
        rw [grows, treeAdd, valOf, if_pos float, if_pos float]
        rfl
      rw [elem_scanned start grows' inside, if_pos float]

end Sys2Proof.Proofs

namespace Sys2Proof.Proofs
open Sys2Proof Sys2Proof.Machine Sys2Proof.Safety Sys2Proof.Laws

/-! ### Operations on one end of a channel (R335 to R337) -/

/-- What a matching peer is (R335). -/
theorem chPeer_eq_some {s : State} {c : Ctx} {key ch : Nat} {p : Nat × Nat} (h : s.chPeer c key ch = some p) :
    let e := (s.chan (coreOf key) ch).entry
    s.teamCore c.job.toNat (chField e 1 1) = some p.1 ∧ chField e 2 1 % 64 = p.2 ∧ chFlag (s.chan p.1 p.2).entry 1 ≠ chFlag e 1 := by
  simp only [State.chPeer] at h
  split at h
  · cases h
  · rename_i core team
    split at h
    · rename_i agrees
      obtain ⟨-, -, back⟩ := agrees
      obtain rfl := Option.some.inj h
      simp only [chMatch, Bool.and_eq_true, decide_eq_true_eq] at back
      exact ⟨team, rfl, back.2.1⟩
    · cases h

/-- The peer is another end. -/
theorem chPeer_ne {s : State} {c : Ctx} {key ch : Nat} {p : Nat × Nat} (h : s.chPeer c key ch = some p) : p ≠ (coreOf key, ch) := by
  rintro rfl
  exact (chPeer_eq_some h).2.2 rfl

section ChannelOp
variable {s : State} {c : Ctx} {ch : Nat} {recv scalar : Bool} {n : Nat} {f : BitVec 128 → Nat × Nat → State → State}

theorem channelOp_of_none (none : s.chPeer c s.issue.key ch = none) : s.channelOp c ch recv scalar n f = s.trapSlot cBadChannel 0 0 := by
  simp only [State.channelOp, none]

/-- The direction, the kind and the rows of an end fit an operation. -/
def Fits (e : BitVec 128) (recv scalar : Bool) (n : Nat) : Prop :=
  chFlag e 1 = recv ∧ chFlag e 2 = scalar ∧ (if scalar then 0 else if recv then chSinkRows e else chField e 4 1) = n

theorem channelOp_of_fits {p : Nat × Nat} (peer : s.chPeer c s.issue.key ch = some p) (valid : chFlag (s.chan (coreOf s.issue.key) ch).entry 0 = true)
    (fits : Fits (s.chan (coreOf s.issue.key) ch).entry recv scalar n) : s.channelOp c ch recv scalar n f = f (s.chan (coreOf s.issue.key) ch).entry p s := by
  simp only [State.channelOp, peer]
  exact if_pos ⟨valid, fits⟩

theorem channelOp_of_misfit {p : Nat × Nat} (peer : s.chPeer c s.issue.key ch = some p)
    (misfit : ¬ Fits (s.chan (coreOf s.issue.key) ch).entry recv scalar n) : s.channelOp c ch recv scalar n f = s.trapSlot cBadChannel 0 0 := by
  simp only [State.channelOp, peer]
  exact if_neg fun fits => misfit fits.2

end ChannelOp

/-! ### Elements at their sink (R190) -/

theorem packLanes_lt (w : Nat) (g : Nat → Nat) (n : Nat) : ∀ i, packLanes w g i n < 2 ^ (w * n) := by
  induction n with
  | zero => exact fun _ => Nat.one_pos
  | succ n ih =>
    intro i
    have low : g i % 2 ^ w < 2 ^ w := Nat.mod_lt _ (Nat.two_pow_pos w)
    have high := Nat.mul_le_mul_left (2 ^ w) (ih (i + 1))
    rw [packLanes, Nat.mul_succ, Nat.add_comm (w * n), Nat.pow_add]
    rw [Nat.mul_succ] at high
    omega

/-- A lane of a register that holds a number, as a field of the number. -/
theorem elem_ofNat {w i x : Nat} (positive : 0 < w) (inside : i < 16384 / w) : elem (BitVec.ofNat 16384 x) i w = nbits x (w * i + w - 1) (w * i) := by
  have room : (i + 1) * w ≤ 16384 := (Nat.mul_le_mul_right w inside).trans (Nat.div_mul_le_self _ _)
  have last : (i + 1) * w = w * i + w := by ring
  have size : w * i + w - 1 + 1 - w * i = w := by omega
  have field := nbits_mod_two_pow x (hi := w * i + w - 1) (lo := w * i) (n := 16384) (by omega)
  simp only [nbits, size, -Nat.reducePow] at field
  simp only [elem, nbits, size, BitVec.extractLsb'_toNat, BitVec.toNat_ofNat, Nat.shiftRight_eq_div_pow, Nat.mul_comm i, field, -Nat.reducePow]

theorem width_pos (g : Fmt) : 0 < g.width := by cases g <;> decide

/-- A lane of an element at its sink. -/
def sinkLane (f g : Fmt) (e : BitVec 128) (data i : Nat) : Nat :=
  let sink := FmtEntry.ofBits (chField e 10 2)
  if f = g then nbits data (g.width * i + g.width - 1) (g.width * i)
  else if i < chField e 4 1 * 2048 / f.width then cvt (nbits data (f.width * i + f.width - 1) (f.width * i)) f g sink.rnd sink.sat % 2 ^ g.width else 0

section Sink
variable {e : BitVec 128} {f g : Fmt} (source : (FmtEntry.ofBits (chField e 8 2)).fmt = some f) (sink : (FmtEntry.ofBits (chField e 10 2)).fmt = some g)
include source sink

theorem nbits_chConvert (data i : Nat) : nbits (chConvert e data) (g.width * i + g.width - 1) (g.width * i) = sinkLane f g e data i := by
  have positive := width_pos g
  simp only [chConvert, source, sink, sinkLane]
  by_cases same : f = g
  · simp only [if_pos same]
  · rw [if_neg same, if_neg same, nbits, show g.width * i + g.width - 1 + 1 - g.width * i = g.width by omega]
    split
    · rename_i inside
      rw [packLanes_field _ _ _ _ _ inside, Nat.zero_add]
    · rename_i outside
      have small := packLanes_lt g.width (fun i => cvt (nbits data (f.width * i + f.width - 1) (f.width * i)) f g (FmtEntry.ofBits (chField e 10 2)).rnd
        (FmtEntry.ofBits (chField e 10 2)).sat) (chField e 4 1 * 2048 / f.width) 0
      rw [Nat.div_eq_of_lt (small.trans_le (Nat.pow_le_pow_right (by decide) (Nat.mul_le_mul_left _ (Nat.le_of_not_lt outside)))), Nat.zero_mod]

/-- The register of a RECV. -/
theorem elem_chConvert (data : Nat) {i : Nat} (inside : i < 16384 / g.width) : elem (BitVec.ofNat 16384 (chConvert e data)) i g.width = sinkLane f g e data i := by
  rw [← nbits_chConvert source sink, elem_ofNat (width_pos g) inside]

/-- The register of a RECVADD. -/
theorem elem_chAdd (data : Nat) (old : VReg) {i : Nat} (inside : i < 16384 / g.width) : elem (chAdd e (chConvert e data) old) i g.width =
    if chSinkRows e * 2048 / g.width ≤ i then elem old i g.width
    else (if g.isFloat then cvtFloat g (FmtEntry.ofBits (chField e 10 2)).rnd (FmtEntry.ofBits (chField e 10 2)).sat
        ((floatVal g (elem old i g.width)).add (FmtEntry.ofBits (chField e 10 2)).rnd (floatVal g (sinkLane f g e data i)))
      else writeInt g (FmtEntry.ofBits (chField e 10 2)).sat (intVal g (elem old i g.width) + intVal g (sinkLane f g e data i))) % 2 ^ g.width := by
  simp only [chAdd, sink]
  rw [elem_vlanes _ inside, nbits_chConvert source sink]
  split
  · exact Nat.mod_eq_of_lt (elem_lt _ _ _)
  · rfl

end Sink

end Sys2Proof.Proofs

namespace Sys2Proof.Proofs
open Sys2Proof Sys2Proof.Machine Sys2Proof.Safety Sys2Proof.Laws

/-! ### Receiving (R116, R337) -/

/-- The state in which a receive is committed and has not yet been served. -/
def committedRecv (s : State) (c : Ctx) (ch : Nat) (d : Dst) (old : Option VReg) : State :=
  let x := s.produce d none none 2
  (x.2.modChan (coreOf s.issue.key) ch fun k => { k with recvs := k.recvs ++ [⟨x.1, old, c.job.toNat⟩] }).acquiring x.1

/-- A scalar that awaits a result is empty. -/
theorem emptyReg_expect_scalar (c : Ctx) {l : Landing} {d : Fin 64} (dst : l.dst = .s d) (nonzero : d ≠ 0) : (c.expect l).emptyReg (.s d) = true := by
  simp [Ctx.expect, dst, Ctx.emptyReg, nonzero]

/-- A fence leaves what is in flight and what is empty. -/
theorem me_acquiring (s : State) (id : Nat) : (s.acquiring id).me.inflight = s.me.inflight ∧ ∀ r, (s.acquiring id).me.emptyReg r = s.me.emptyReg r := by
  rw [State.acquiring, me_own]
  exact ⟨rfl, fun r => by cases r <;> rfl⟩

theorem chan_mapCtxs (s : State) (f : Ctx → Ctx) (n k : Nat) : (s.mapCtxs f).chan n k = s.chan n k := rfl

section Committed
variable (s : State) (c : Ctx) (ch : Nat) (d : Dst) (old : Option VReg)

theorem chan_committedRecv (n k : Nat) : (committedRecv s c ch d old).chan n k =
    if n = coreOf s.issue.key ∧ k = ch then { s.chan n k with recvs := (s.chan n k).recvs ++ [⟨s.nextId, old, c.job.toNat⟩] } else s.chan n k := by
  have kept := chan_modChan (s.produce d none none 2).2 (coreOf s.issue.key) ch n k fun k => { k with recvs := k.recvs ++ [⟨s.nextId, old, c.job.toNat⟩] }
  rw [chan_of_cores (s := s) (t := (s.produce d none none 2).2) rfl, chan_of_cores (s := s) (t := (s.produce d none none 2).2) rfl] at kept
  rw [chan_of_cores (t := committedRecv s c ch d old) (s := (s.produce d none none 2).2.modChan (coreOf s.issue.key) ch
    fun k => { k with recvs := k.recvs ++ [⟨s.nextId, old, c.job.toNat⟩] }) rfl, kept]
  split
  · rename_i here
    rw [here.1, here.2]
  · rfl

/-- What a receive waits for. -/
def recvLanding (s : State) (d : Dst) : Landing := ⟨s.nextId, d, none, none, s.now + 2, false⟩

/-- The destination is expected from dispatch (R116). -/
theorem me_committedRecv : let t := committedRecv s c ch d old
    let expected := s.me.expect (recvLanding s d)
    t.me.inflight = expected.inflight ∧ ∀ r, t.me.emptyReg r = expected.emptyReg r := by
  have expected : ((s.produce d none none 2).2.modChan (coreOf s.issue.key) ch fun k => { k with recvs := k.recvs ++ [⟨s.nextId, old, c.job.toNat⟩] }).me =
      s.me.expect (recvLanding s d) := me_own s.fresh.2 fun c => c.expect (recvLanding s d)
  rw [← expected]
  exact me_acquiring _ _

end Committed

theorem recvElem_of_fits {s : State} {c : Ctx} {ch n : Nat} {scalar : Bool} {p : Nat × Nat} (peer : s.chPeer c s.issue.key ch = some p)
    (valid : chFlag (s.chan (coreOf s.issue.key) ch).entry 0 = true) (fits : Fits (s.chan (coreOf s.issue.key) ch).entry true scalar n) (d : Dst) (old : Option VReg) :
    s.recvElem c ch scalar n d old = (committedRecv s c ch d old).serveChan (coreOf s.issue.key) ch 64 := channelOp_of_fits peer valid fits

theorem serveChan_of_no_elems {s : State} {core ch : Nat} (none : (s.chan core ch).elems = []) (n : Nat) : s.serveChan core ch n = s := by
  cases n with
  | zero => rfl
  | succ n => simp only [State.serveChan, none]

theorem serveChan_of_no_recvs {s : State} {core ch : Nat} (none : (s.chan core ch).recvs = []) (n : Nat) : s.serveChan core ch n = s := by
  cases n with
  | zero => rfl
  | succ n =>
    rw [State.serveChan]
    split
    · rename_i recvs
      rw [none] at recvs
      cases recvs
    · rfl

/-- The result under way that an answer names takes its value. -/
theorem answer_mem {c : Ctx} {l : Landing} (under : l ∈ c.inflight) (value : VReg) (poison : Option Nat) (due : Nat) :
    { l with value := some value, poison := poison, due := max l.due due } ∈ (c.answer l.id value poison due).inflight :=
  List.mem_map.2 ⟨l, under, if_pos rfl⟩

/-- The register that a receive makes of an element. -/
def received (e : BitVec 128) (x : Elem) (old : Option VReg) : VReg :=
  let data := if chFlag e 2 then x.data else chConvert e x.data
  match old with
  | some v => chAdd e data v
  | none => BitVec.ofNat 16384 data

/-- The state in which a receive has taken its element, whose credit is on its way to the end `p`. -/
def poppedRecv (s : State) (core ch : Nat) (x : Elem) (xs : List Elem) (r : Recv) (p : Nat × Nat) : State :=
  ((s.modChan core ch fun k => { k with elems := xs, recvs := [] }).mapCtxs fun c => c.answer r.id (received (s.chan core ch).entry x r.old) x.poison s.now).modChan p.1 p.2
    fun y => { y with returning := y.returning ++ [s.now + chLatency core p.1] }

theorem poppedRecv_results (s : State) {core ch : Nat} (x : Elem) (xs : List Elem) (r : Recv) {p : Nat × Nat} (other : p ≠ (core, ch)) :
    let t := poppedRecv s core ch x xs r p
    (t.chan core ch).elems = xs ∧ (t.chan core ch).recvs = [] ∧ t.me = s.me.answer r.id (received (s.chan core ch).entry x r.old) x.poison s.now ∧ t.mem = s.mem ∧
      (t.chan p.1 p.2).returning = (s.chan p.1 p.2).returning ++ [s.now + chLatency core p.1] := by
  intro t
  have here : t.chan core ch = { s.chan core ch with elems := xs, recvs := [] } := by
    rw [show t = poppedRecv s core ch x xs r p from rfl, poppedRecv, chan_modChan, if_neg fun same => other (Prod.ext same.1.symm same.2.symm), chan_mapCtxs, chan_modChan,
      if_pos ⟨rfl, rfl⟩]
  have there : t.chan p.1 p.2 = { s.chan p.1 p.2 with returning := (s.chan p.1 p.2).returning ++ [s.now + chLatency core p.1] } := by
    rw [show t = poppedRecv s core ch x xs r p from rfl, poppedRecv, chan_modChan, if_pos ⟨rfl, rfl⟩, chan_mapCtxs, chan_modChan,
      if_neg fun same => other (Prod.ext same.1 same.2)]
  refine ⟨by rw [here], by rw [here], ?_, rfl, by rw [there]⟩
  exact ctx_mapCtxs _ (f := fun c : Ctx => c.answer r.id (received (s.chan core ch).entry x r.old) x.poison s.now) rfl s.issue.key

theorem serveChan_of_one {s : State} {core ch : Nat} {x : Elem} {xs : List Elem} {r : Recv} {p : Nat × Nat} (elems : (s.chan core ch).elems = x :: xs)
    (recvs : (s.chan core ch).recvs = [r]) (unsaved : ∀ z ∈ s.saved ++ s.stored, ∀ l ∈ z.ctx.inflight, l.id ≠ r.id)
    (team : s.teamCore r.job (chField (s.chan core ch).entry 1 1) = some p.1) (peer : chField (s.chan core ch).entry 2 1 % 64 = p.2) (other : p ≠ (core, ch)) (n : Nat) :
    s.serveChan core ch (n + 1) = poppedRecv s core ch x xs r p := by
  have runs : s.recvSaved r = false := by
    simpa [State.recvSaved, or_imp, forall_and] using unsaved
  have done : ((poppedRecv s core ch x xs r p).chan core ch).recvs = [] := (poppedRecv_results s x xs r other).2.1
  have pops := answer_of_unsaved (s := s.modChan core ch fun k => { k with elems := xs, recvs := [] }) (received (s.chan core ch).entry x r.old) x.poison 0 2 unsaved
  refine Eq.trans ?_ (serveChan_of_no_recvs done n)
  have back : ((s.modChan core ch fun k => { k with elems := xs, recvs := [] }).answer r.id (received (s.chan core ch).entry x r.old) x.poison 0 2).teamCore r.job
      (chField (s.chan core ch).entry 1 1) = some p.1 := by
    rw [pops]
    exact team
  rw [State.serveChan, elems, recvs]
  simp only [runs, peer, Bool.false_eq_true, if_false]
  congr 1
  split
  · rename_i core' there
    obtain rfl := Option.some.inj (there.symm.trans back)
    exact congrArg (fun u : State => u.modChan p.1 p.2 fun y => { y with returning := y.returning ++ [u.now + chLatency core p.1] }) pops
  · rename_i none
    cases none.symm.trans back

/-- A receive that finds an element takes it, and gives its credit back (R116, R337). -/
theorem recvElem_of_element {s : State} {ch n : Nat} {scalar : Bool} {p : Nat × Nat} {d : Dst} {old : Option VReg} {x : Elem} {xs : List Elem}
    (peer : s.chPeer s.issue.src s.issue.key ch = some p)
    (valid : chFlag (s.chan (coreOf s.issue.key) ch).entry 0 = true) (fits : Fits (s.chan (coreOf s.issue.key) ch).entry true scalar n)
    (elems : (s.chan (coreOf s.issue.key) ch).elems = x :: xs) (recvs : (s.chan (coreOf s.issue.key) ch).recvs = [])
    (unsaved : ∀ z ∈ s.saved ++ s.stored, ∀ m ∈ z.ctx.inflight, m.id ≠ s.nextId) :
    let core := coreOf s.issue.key
    let t := s.recvElem s.issue.src ch scalar n d old
    ∃ l, (t.chan core ch).elems = xs ∧ (t.chan core ch).recvs = [] ∧ l ∈ t.me.inflight ∧ l.dst = d ∧ l.value = some (received (s.chan core ch).entry x old) ∧
      l.poison = x.poison ∧ SameMem s t ∧ (t.chan p.1 p.2).returning = (s.chan p.1 p.2).returning ++ [s.now + chLatency core p.1] := by
  intro core t
  have other := chPeer_ne peer
  obtain ⟨team, credit, -⟩ := chPeer_eq_some peer
  have chan := chan_committedRecv s s.issue.src ch d old
  have here := chan core ch
  rw [if_pos ⟨rfl, rfl⟩] at here
  have served := serveChan_of_one (s := committedRecv s s.issue.src ch d old) (core := core) (ch := ch) (x := x) (xs := xs) (r := ⟨s.nextId, old, s.issue.src.job.toNat⟩) (p := p)
    (by rw [here]; exact elems) (by rw [here]; exact congrArg (· ++ _) recvs) unsaved (by rw [here]; exact team) (by rw [here]; exact credit) other 63
  have done : t = _ := (recvElem_of_fits peer valid fits d old).trans served
  obtain ⟨left, idle, me, mem, returning⟩ := poppedRecv_results (committedRecv s s.issue.src ch d old) x xs ⟨s.nextId, old, s.issue.src.job.toNat⟩ other
  rw [← done] at left idle me mem returning
  rw [here] at me
  have under : recvLanding s d ∈ (committedRecv s s.issue.src ch d old).me.inflight := by
    rw [(me_committedRecv s s.issue.src ch d old).1, expect_inflight]
    exact List.mem_append_right _ (List.mem_singleton_self _)
  refine ⟨_, left, idle, by rw [me]; exact answer_mem under _ _ _, rfl, rfl, rfl, sameMem_of_mem mem, ?_⟩
  rw [returning, chan, if_neg fun same => other (Prod.ext same.1 same.2)]
  rfl

/-- A receive that finds no element waits for one, its destination empty (R116, R337). -/
theorem recvElem_of_no_element {s : State} {ch n : Nat} {scalar : Bool} {p : Nat × Nat} (d : Dst) (old : Option VReg)
    (peer : s.chPeer s.issue.src s.issue.key ch = some p)
    (valid : chFlag (s.chan (coreOf s.issue.key) ch).entry 0 = true) (fits : Fits (s.chan (coreOf s.issue.key) ch).entry true scalar n)
    (elems : (s.chan (coreOf s.issue.key) ch).elems = []) :
    let t := s.recvElem s.issue.src ch scalar n d old
    (∀ r, t.me.emptyReg r = (s.me.expect (recvLanding s d)).emptyReg r) ∧
      (t.chan (coreOf s.issue.key) ch).recvs = (s.chan (coreOf s.issue.key) ch).recvs ++ [⟨s.nextId, old, s.issue.src.job.toNat⟩] := by
  have here := chan_committedRecv s s.issue.src ch d old (coreOf s.issue.key) ch
  rw [if_pos ⟨rfl, rfl⟩] at here
  intro t
  rw [show t = committedRecv s s.issue.src ch d old from (recvElem_of_fits peer valid fits d old).trans (serveChan_of_no_elems (by rw [here]; exact elems) 64)]
  exact ⟨(me_committedRecv s s.issue.src ch d old).2, by rw [here]⟩

/-! ### Sending (R336) -/

/-- What a send does once nothing older holds it. -/
theorem sendElem_of_fits {s : State} {c : Ctx} {ch n : Nat} {scalar : Bool} {p : Nat × Nat} (data : Nat) (peer : s.chPeer c s.issue.key ch = some p)
    (valid : chFlag (s.chan (coreOf s.issue.key) ch).entry 0 = true) (fits : Fits (s.chan (coreOf s.issue.key) ch).entry false scalar n)
    (unpushed : s.pushing = false) (unfenced : s.fenced 6 = false) :
    let core := coreOf s.issue.key
    let t := s.sendElem c ch scalar n data
    (chField (s.chan core ch).entry 3 1 ≤ (s.chan core ch).taken → t = s.waits) ∧
    ((s.chan core ch).taken < chField (s.chan core ch).entry 3 1 → ∃ x : Elem, (t.chan core ch).taken = (s.chan core ch).taken + 1 ∧
      (t.chan p.1 p.2).flying = (s.chan p.1 p.2).flying ++ [x] ∧ x.data = data ∧ SameMem s t) := by
  intro core t
  have other := chPeer_ne peer
  have sends : t = _ := channelOp_of_fits peer valid fits
  simp only [unpushed, unfenced, Bool.false_or, decide_eq_true_eq] at sends
  refine ⟨fun spent => sends.trans (if_pos spent), fun credit => ?_⟩
  rw [sends.trans (if_neg (Nat.not_le.2 credit))]
  refine ⟨⟨data, s.now + chLatency core p.1 + (if scalar then 0 else n - 1), s.nextId, none⟩, ?_, ?_, rfl, fun _ => rfl, fun _ => rfl⟩
  · rw [chan_modChan, if_neg fun same => other (Prod.ext same.1.symm same.2.symm), chan_modChan, if_pos ⟨rfl, rfl⟩]
    rfl
  · rw [chan_modChan, if_pos ⟨rfl, rfl⟩, chan_modChan, if_neg fun same => other (Prod.ext same.1 same.2)]
    rfl

/-! ### Operations of a team context on a channel (R334 to R337) -/

section Channel
variable {s : State} {ch a d : Fin 64} {v : Fin 256} {n1 : Fin 8} (ready : Ready s [.v v, .s a] [.v v, .s d])
include ready

theorem send_of_ready : exec (.send ch v n1) s = .next (s.sendElem s.issue.src ch.val false (n1.val + 1) ((srcV s v).toNat % 256 ^ (256 * (n1.val + 1)))) :=
  congrArg Host.Outcome.next (slot_of_ready (Ready.mono ready (by simp) (by simp)) _)

theorem ssend_of_ready : exec (.ssend ch a) s = .next (s.sendElem s.issue.src ch.val true 0 (srcS s a).toNat) :=
  congrArg Host.Outcome.next (slot_of_ready (Ready.mono ready (by simp) (by simp)) _)

theorem recv_of_ready : exec (.recv ch v n1) s = .next (s.recvElem s.issue.src ch.val false (n1.val + 1) (.v v) none) :=
  congrArg Host.Outcome.next (slot_of_ready (Ready.mono ready (by simp) (by simp)) _)

theorem recvadd_of_ready : exec (.recvadd ch v n1) s = .next (s.recvElem s.issue.src ch.val false (n1.val + 1) (.v v) (some (srcV s v))) :=
  congrArg Host.Outcome.next (slot_of_ready (Ready.mono ready (by simp) (by simp)) _)

theorem srecv_of_ready : exec (.srecv ch d) s = .next (s.recvElem s.issue.src ch.val true 0 (.s d) none) :=
  congrArg Host.Outcome.next (slot_of_ready (Ready.mono ready (by simp) (by simp)) _)

end Channel

end Sys2Proof.Proofs

namespace Sys2Proof.Proofs
open Sys2Proof Sys2Proof.Machine Sys2Proof.Safety Sys2Proof.Laws

/-! ### CHCFG, CHQRY and the collectives (R339, R340, R386 to R388) -/

section Described
variable {s : State} {ch a d : Fin 64} {addr : Nat} (ready : Ready s [.s a] [.s d])
include ready

/-- CHCFG of a team context writes an entry of an idle end that was not valid. -/
theorem chcfg_of_reaches {new : BitVec 128} (team : s.issue.src.logical ≠ 0xFF) (reaches : Reaches s [rowOf ((srcS s a).toNat % 2 ^ 40)] [addr])
    (clean : (s.loadRow addr).2 = none) (entry : new = BitVec.ofNat 128 (nbytes (s.loadRow addr).1.toNat (16 * bitsOf (srcS s a) 7 4) 16))
    (idle : (s.chan (coreOf s.issue.key) ch.val).isIdle = true) (off : chFlag (s.chan (coreOf s.issue.key) ch.val).entry 0 = false) :
    exec (.chcfg ch a) s = .next (if chEntryOk new = false then s.trapSlot cBadChannel 0 0
      else if s.cellRoom (coreOf s.issue.key / 4) 3 (chCells new) then
        (s.touch addr).modChan (coreOf s.issue.key) ch.val fun x => { x with entry := new, cells := chCells new }
      else s.waits) := by
  subst entry
  refine congrArg Host.Outcome.next ((if_neg team).trans ((slot_of_ready (Ready.mono ready (by simp) (by simp)) _).trans ((pathC_of_reaches reaches _).trans ?_)))
  simp only [List.headD_cons, rowValue_of_clean clean, idle, off, Bool.not_true, Bool.not_false, Bool.true_or, Bool.false_or, Bool.not_eq_true']
  rfl

/-- The rows that an operation of a collective reads (R386, R387). -/
theorem hcoll_of_reaches (unfenced : s.fenced 4 = false) (reaches : Reaches s [rowOf ((srcS s a).toNat % 2 ^ 40)] [addr]) (clean : (s.loadRow addr).2 = none) :
    let desc := BitVec.ofNat 512 (nbytes (s.loadRow addr).1.toNat (64 * ((srcS s a).toNat % 2 ^ 40 / 64 % 4)) 64)
    let far := fun x : Nat => !x.testBit 63 && decide (s.reach s.issue.src.part.toNat (quadOf s.issue.key) x = .range)
    exec (.hcoll a) s = .next (if badColl (quadOf s.issue.key) desc || far (cf desc 32 8) || far (cf desc 48 8) then s.trapSlot cBadColl 0 0
      else ((s.touch addr).fresh.2.modDie (dieOf s.issue.key) fun d => { d with collReqs := d.collReqs ++ [⟨s.nextId, s.origin, desc⟩] }).command s.nextId 4) := by
  refine congrArg Host.Outcome.next ((slot_of_ready (Ready.mono ready (by simp) (by simp)) _).trans ((if_neg (by simp [unfenced])).trans ((pathC_of_reaches reaches _).trans ?_)))
  simp only [List.headD_cons, rowValue_of_clean clean]
  rfl

theorem hrech_of_reaches (unfenced : s.fenced 4 = false) (reaches : Reaches s [rowOf ((srcS s a).toNat % 2 ^ 40)] [addr]) (clean : (s.loadRow addr).2 = none) :
    let word := fun i => nbytes (s.loadRow addr).1.toNat (8 * i) 8
    exec (.hrech a) s = .next (if nbits (word 0) 63 48 ≠ 0 ∨ word 1 = 0 ∨ 30 < word 1 then s.trapSlot cBadColl 0 0
      else (s.touch addr).fresh.2.rechunk (nbits (word 0) 15 0) (nbits (word 0) 47 16) ((List.range (word 1)).map fun i => word (i + 2)) ⟨s.nextId, s.issue.src.ticket, none⟩) := by
  refine congrArg Host.Outcome.next ((slot_of_ready (Ready.mono ready (by simp) (by simp)) _).trans ((if_neg (by simp [unfenced])).trans ((pathC_of_reaches reaches _).trans ?_)))
  simp only [List.headD_cons, rowValue_of_clean clean]
  rfl

theorem chqry_of_ready (which : Fin 4) : let k := s.chan (coreOf s.issue.key) ch.val
    let used := if chFlag k.entry 1 then k.elems.length else k.taken
    exec (.chqry ch d which) s = .next (putS s d (BitVec.ofNat 64 (match which with
      | 0 => used
      | 1 => chField k.entry 3 1 - used
      | 2 => k.entry.toNat % 2 ^ 64
      | 3 => k.entry.toNat / 2 ^ 64))) := by
  refine congrArg Host.Outcome.next ((slot_of_ready (Ready.mono ready (by simp) (by simp)) _).trans ?_)
  have small (e : BitVec 128) : e.toNat / 2 ^ 64 < 2 ^ 64 := by omega
  have low (e : BitVec 128) : chField e 0 8 = e.toNat % 2 ^ 64 := by simp [chField, nbytes]
  have high (e : BitVec 128) : chField e 8 8 = e.toNat / 2 ^ 64 := Nat.mod_eq_of_lt (small e)
  simp only [low, high]
  fin_cases which <;> rfl

theorem hqry_of_ready : exec (.hqry d a) s = .next (putS s d (BitVec.ofNat 64 (if (srcS s a).getLsbD 63 then tgetD s.collSeq (bitsOf (srcS s a) 15 0) 0
    else ((s.coll? (bitsOf (srcS s a) 15 0) (bitsOf (srcS s a) 47 16)).map collStatus).getD 0))) :=
  congrArg Host.Outcome.next (slot_of_ready (Ready.mono ready (by simp) (by simp)) _)

end Described

/-- Settles O35: what each operation does at an end that fits it, and at one that does not. -/
theorem channelAndCollectiveResults : Obligations.ChannelAndCollectiveResults := by
  unfold Obligations.ChannelAndCollectiveResults
  refine ⟨?_, ?_⟩
  · intro s ch a d v n1 ready core e c
    have send := send_of_ready (ch := ch) (n1 := n1) ready
    have ssend := ssend_of_ready (ch := ch) ready
    have recv := recv_of_ready (ch := ch) (n1 := n1) ready
    have recvadd := recvadd_of_ready (ch := ch) (n1 := n1) ready
    have srecv := srecv_of_ready (ch := ch) ready
    refine ⟨fun none => ?_, fun p peer valid => ⟨fun bad => ?_, fun bad => ?_, fun bad => ?_, fun bad => ?_, ?_, ?_, ?_⟩⟩
    · rw [send, ssend, recv, recvadd, srecv]
      exact ⟨congrArg Host.Outcome.next (channelOp_of_none none), congrArg Host.Outcome.next (channelOp_of_none none), congrArg Host.Outcome.next (channelOp_of_none none),
        congrArg Host.Outcome.next (channelOp_of_none none), congrArg Host.Outcome.next (channelOp_of_none none)⟩
    · exact send.trans (congrArg Host.Outcome.next (channelOp_of_misfit peer fun ⟨dir, kind, rows⟩ => by rcases bad with h | h | h <;> simp_all [e, core]))
    · exact ssend.trans (congrArg Host.Outcome.next (channelOp_of_misfit peer fun ⟨dir, kind, _⟩ => by rcases bad with h | h <;> simp_all [e, core]))
    · have misfit : ¬ Fits e true false (n1.val + 1) := fun ⟨dir, kind, rows⟩ => by rcases bad with h | h | h <;> simp_all
      exact ⟨recv.trans (congrArg Host.Outcome.next (channelOp_of_misfit peer misfit)), recvadd.trans (congrArg Host.Outcome.next (channelOp_of_misfit peer misfit))⟩
    · exact srecv.trans (congrArg Host.Outcome.next (channelOp_of_misfit peer fun ⟨dir, kind, _⟩ => by rcases bad with h | h <;> simp_all [e, core]))
    · intro x xs receives elems recvs unsaved source sink popped
      have pops {i : Instr} {n : Nat} {scalar : Bool} {g : Dst} {old : Option VReg} {holds : VReg → Prop} (run : exec i s = .next (s.recvElem c ch.val scalar n g old))
          (fits : Fits e true scalar n) (value : holds (received e x old)) : popped i g holds := by
        obtain ⟨l, left, idle, under, dst, filled, poison, mem, credit⟩ := recvElem_of_element (d := g) (old := old) peer valid fits elems recvs unsaved
        exact ⟨_, l, _, run, left, idle, under, dst, filled, poison, value, mem, credit⟩
      refine ⟨?_, fun scalar => pops srecv ⟨receives, scalar, rfl⟩ ?_⟩
      · intro f g vector rows formatF formatG lane
        refine ⟨pops recv ⟨receives, vector, rows⟩ fun i inside => ?_, pops recvadd ⟨receives, vector, rows⟩ fun i inside => ?_⟩
        · rw [received, vector]
          exact elem_chConvert formatF formatG x.data inside
        · rw [received, vector]
          refine (elem_chAdd formatF formatG x.data (srcV s v) inside).trans ?_
          rw [rows]
          rfl
      · have whole : received e x none = BitVec.ofNat 16384 x.data := congrArg (BitVec.ofNat 16384) (if_pos scalar)
        have value := BitVec.toNat_ofNat x.data 16384
        rwa [← whole] at value
    · intro sends unpushed unfenced _
      have vector (kind : chFlag e 2 = false) (rows : chField e 4 1 = n1.val + 1) := sendElem_of_fits ((srcV s v).toNat % 256 ^ (256 * (n1.val + 1))) peer valid
        (⟨sends, kind, rows⟩ : Fits e false false (n1.val + 1)) unpushed unfenced
      have scalar (kind : chFlag e 2 = true) := sendElem_of_fits (srcS s a).toNat peer valid (⟨sends, kind, rfl⟩ : Fits e false true 0) unpushed unfenced
      refine ⟨fun spent => ⟨fun kind rows => ?_, fun kind => ?_⟩, fun credit => ⟨fun kind rows => ?_, fun kind => ?_⟩⟩
      · rw [send, (vector kind rows).1 spent]
      · rw [ssend, (scalar kind).1 spent]
      · obtain ⟨x, sent⟩ := (vector kind rows).2 credit
        exact ⟨_, x, send, sent⟩
      · obtain ⟨x, sent⟩ := (scalar kind).2 credit
        exact ⟨_, x, ssend, sent⟩
    · intro receives elems
      have waits {scalar : Bool} {n : Nat} (d : Dst) (old : Option VReg) (fits : Fits e true scalar n) := recvElem_of_no_element d old peer valid fits elems
      refine ⟨fun vector rows => ?_, fun scalar => ?_⟩
      · have fits : Fits e true false (n1.val + 1) := ⟨receives, vector, rows⟩
        have empty : (s.me.expect (recvLanding s (.v v))).emptyReg (.v v) = true := emptyReg_expect _ rfl
        exact ⟨⟨_, recv, ((waits _ _ fits).1 _).trans empty, (waits _ _ fits).2⟩, ⟨_, recvadd, ((waits _ _ fits).1 _).trans empty, (waits _ _ fits).2⟩⟩
      · have fits : Fits e true true 0 := ⟨receives, scalar, rfl⟩
        exact ⟨_, srecv, fun nonzero => ((waits _ _ fits).1 _).trans (emptyReg_expect_scalar _ rfl nonzero), (waits _ _ fits).2⟩
  · intro s ch a d which addr ready core k row u desc g far flag err
    refine ⟨fun alone => ?_, ?_, chqry_of_ready ready which, ?_, ?_, ?_, ?_⟩
    · exact congrArg Host.Outcome.next (if_pos alone)
    · intro new team reaches clean entry idle off
      have runs := chcfg_of_reaches ready team reaches clean entry idle off
      exact ⟨fun bad => by rw [runs, if_pos bad], fun good room => by rw [runs, if_neg (by simp [good]), if_pos room]⟩
    · intro unfenced reaches clean
      have sends := hcoll_of_reaches ready unfenced reaches clean
      have lists := hrech_of_reaches ready unfenced reaches clean
      have refuses : (badColl (quadOf s.issue.key) desc || (!flag.testBit 63 && decide (s.reach s.issue.src.part.toNat (quadOf s.issue.key) flag = .range)) ||
          (!err.testBit 63 && decide (s.reach s.issue.src.part.toNat (quadOf s.issue.key) err = .range))) = true ↔
          badColl (quadOf s.issue.key) desc = true ∨ far flag ∨ far err := by
        simp [far, or_assoc]
      refine ⟨fun bad => sends.trans (congrArg _ (if_pos (refuses.2 bad))), fun legal near near' => ?_, fun bad => lists.trans (congrArg _ (if_pos bad)),
        fun reserved low high => lists.trans (congrArg _ (if_neg ?_))⟩
      · refine ⟨_, sends.trans (congrArg _ (if_neg (refuses.not.2 ?_))), ?_, ?_, fun _ => rfl, fun _ => rfl⟩
        · simp [legal, near, near']
        · exact congrArg Die.collReqs (die_modDie_same (s.touch addr).fresh.2 (dieOf s.issue.key) fun d => { d with collReqs := d.collReqs ++ [⟨s.nextId, s.origin, desc⟩] })
        · exact congrArg Ctx.outstanding (me_own _ _)
      · change ¬ (nbits (nbytes row 0 8) 63 48 ≠ 0 ∨ nbytes row 8 8 = 0 ∨ 30 < nbytes row 8 8)
        omega
    · intro next
      rw [hqry_of_ready ready, if_pos next]
    · intro status none
      rw [hqry_of_ready ready, if_neg (Bool.eq_false_iff.1 status), none]
      rfl
    · intro x status live
      rw [hqry_of_ready ready, if_neg (Bool.eq_false_iff.1 status), live]
      rfl

end Sys2Proof.Proofs

namespace Sys2Proof.Proofs
open Sys2Proof Sys2Proof.Machine Sys2Proof.Safety Sys2Proof.Laws

/-! ### What leaves every quad as it is, but for its retention (R413) -/

/-- Each quad is the same, but for the retention of its scratchpad. -/
def OnlyRetain (s t : State) : Prop := ∀ q, ∃ r, t.quad q = { s.quad q with retain := r }

theorem OnlyRetain.of_quads {s t : State} (h : t.quads = s.quads) : OnlyRetain s t := fun q => ⟨(s.quad q).retain, by rw [State.quad, h]; rfl⟩

theorem OnlyRetain.refl (s : State) : OnlyRetain s s := .of_quads rfl

theorem OnlyRetain.trans {s t u : State} (h : OnlyRetain s t) (h' : OnlyRetain t u) : OnlyRetain s u := fun q => by
  obtain ⟨r, same⟩ := h q
  obtain ⟨r', same'⟩ := h' q
  exact ⟨r', by rw [same', same]⟩

theorem OnlyRetain.foldl {α : Type} {f : State → α → State} (h : ∀ s x, OnlyRetain s (f s x)) (l : List α) (s : State) : OnlyRetain s (l.foldl f s) :=
  List.foldlRecOn (motive := OnlyRetain s) l f (.refl s) fun t same x _ => same.trans (h t x)

theorem onlyRetain_storeRow (s : State) (k : Nat) (data : Row) (mask : BitVec 256) : OnlyRetain s (s.storeRow k data mask) := .of_quads (sameTasks_storeRow s k data mask).quads

theorem onlyRetain_setRetain (s : State) (r : Retain) (a : ArrayId) : OnlyRetain s (s.setRetain r a) := by
  cases a with
  | bigTop d => exact .of_quads rfl
  | scratch p =>
    intro q
    by_cases here : q = p.val
    · exact ⟨r, by rw [here]; exact quad_modQuad_same s p.val fun x => { x with retain := r }⟩
    · exact ⟨(s.quad q).retain, quad_modQuad_ne s _ here⟩

theorem onlyRetain_startExit (s : State) (a : ArrayId) : OnlyRetain s (s.startExit a) := by
  rcases startExit_eq s a with ⟨same, -⟩ | leaves
  · rw [same]
    exact .refl s
  · rw [leaves]
    exact onlyRetain_setRetain s _ a

theorem onlyRetain_doneAdd (s : State) (o : Origin) (a v : Nat) : OnlyRetain s (s.doneAdd o a v) := by
  unfold State.doneAdd
  split
  · exact OnlyRetain.trans (t := s.touch _) (.of_quads rfl) (onlyRetain_storeRow _ _ _ _)
  · rename_i arr _
    cases arr with
    | none => exact .of_quads rfl
    | some x => exact (onlyRetain_startExit s x).trans (.of_quads rfl)
  · exact .refl s

theorem onlyRetain_wakeRow (s : State) (part q : Nat) (r : SaveRow) : OnlyRetain s (s.wakeRow part q r) := by
  unfold State.wakeRow
  split
  · exact .of_quads rfl
  all_goals
    split
    · exact onlyRetain_startExit s _
    · exact .refl s

theorem onlyRetain_putSave (s : State) (part q : Nat) (l : List (SaveRow × Row)) : OnlyRetain s (s.putSave part q l) := by
  refine .foldl (fun t e => ?_) l s
  split
  · refine OnlyRetain.trans (t := t.touchKey _) ?_ (onlyRetain_storeRow _ _ _ _)
    unfold State.touchKey
    split <;> exact .of_quads rfl
  all_goals exact .refl t

theorem onlyRetain_placeRows : ∀ (l : List Row) (s : State) (x : Saved), OnlyRetain s (s.placeRows x l).2 := by
  intro l
  induction l with
  | nil => exact fun s _ => .refl s
  | cons row l ih =>
    intro s x
    rw [State.placeRows]
    split
    · exact .refl s
    · split
      · exact (onlyRetain_putSave s _ _ _).trans (ih _ _)
      all_goals exact onlyRetain_wakeRow s _ _ _

theorem onlyRetain_logAll (f : Saved → Option (Saved × LogItem)) : ∀ (l : List Saved) (s : State), OnlyRetain s (s.logAll f l).2 := by
  intro l
  induction l with
  | nil => exact fun s => .refl s
  | cons x l ih =>
    intro s
    rw [State.logAll]
    split
    · exact ih s
    · exact (onlyRetain_placeRows _ s _).trans (ih _)

theorem onlyRetain_answer (s : State) (id : Nat) (value : VReg) (poison : Option Nat) (latency kind : Nat) : OnlyRetain s (s.answer id value poison latency kind) := by
  simp only [State.answer, State.answerWith]
  refine OnlyRetain.trans (.trans (t := s.mapCtxs fun c => c.answer id value poison (s.now + latency)) (.of_quads rfl) ?_) (.of_quads rfl)
  exact (onlyRetain_logAll _ _ _).trans (onlyRetain_logAll _ _ _)

/-! ### The counter unit (R228, R229) -/

/-- An addition of lanes. -/
theorem routingCounterOp_of_add {s : State} {quad : Fin 32} {id : Nat} {v : VReg} {rest : List (Nat × Option VReg)} (first : (s.quad quad.val).rcOps = (id, some v) :: rest) :
    ∃ u, exec (.routingCounterOp quad) s = .next u ∧ (u.quad quad.val).rcOps = rest ∧
      ∀ i : Fin 64, (u.quad quad.val).rct[i] = (s.quad quad.val).rct[i] + BitVec.ofNat 32 (elem v i.val 32) := by
  have run : exec (.routingCounterOp quad) s = .next (s.modQuad quad.val fun x =>
      { x with rcOps := rest, rct := Vector.ofFn fun i => (x.rct[i]) + BitVec.ofNat 32 (elem v i.val 32) }) := by
    change Host.Outcome.next _ = _
    rw [first]
  refine ⟨_, run, ?_, fun i => ?_⟩
  · rw [quad_modQuad_same]
  · rw [quad_modQuad_same]
    exact Vector.getElem_ofFn _

/-- A snapshot. -/
theorem routingCounterOp_of_snapshot {s : State} {quad : Fin 32} {id : Nat} {rest : List (Nat × Option VReg)} (first : (s.quad quad.val).rcOps = (id, none) :: rest) :
    ∃ u v, exec (.routingCounterOp quad) s = .next u ∧ (u.quad quad.val).rcOps = rest ∧
      (∀ i : Fin 64, (u.quad quad.val).rct[i] = 0 ∧ elem v i.val 32 = ((s.quad quad.val).rct[i]).toNat) ∧
      ∀ k, ∀ l ∈ (u.ctx k).inflight, l.id = id → l.value = some v ∧ l.poison = none := by
  let v := vlanes 32 fun i => ((s.quad quad.val).rct.getD i 0).toNat
  let cleared := s.modQuad quad.val fun x => { x with rcOps := rest, rct := Vector.replicate 64 0 }
  have run : exec (.routingCounterOp quad) s = .next (cleared.answer id v none 0 3) := by
    change Host.Outcome.next _ = _
    rw [first]
  obtain ⟨r, quads⟩ := onlyRetain_answer cleared id v none 0 3 quad.val
  rw [quad_modQuad_same] at quads
  refine ⟨_, v, run, by rw [quads], fun i => ⟨?_, ?_⟩, fun k l under named => ?_⟩
  · rw [quads]
    exact Vector.getElem_replicate _
  · have lane := elem_vlanes (w := 32) (i := i.val) (fun i => ((s.quad quad.val).rct.getD i 0).toNat) (by omega)
    rw [lane, Nat.mod_eq_of_lt (BitVec.isLt _)]
    simp [Vector.getD]
  · rw [ctx_of_ctxs (sameCores_answer cleared id v none 0 3).ctxs, ctx_mapCtxs _ rfl] at under
    obtain ⟨l', -, rfl⟩ := List.mem_map.1 under
    split
    · exact ⟨rfl, rfl⟩
    · rename_i other
      rw [if_neg other] at named
      exact absurd named other

/-! ### Local accesses of an engine (R263, R354) -/

/-- The note of an access to a local row, for retention, changes nothing else. -/
theorem touchLocal_eq (s : State) (o : Origin) (addr : Nat) : ∃ x, s.touchLocal o false addr = { s with touched := x } := by
  simp only [State.touchLocal, Bool.false_eq_true, if_false]
  split
  · exact ⟨_, rfl⟩
  · exact ⟨s.touched, rfl⟩

/-- A local row that is read. -/
theorem engineRead_of_mem {s : State} {o : Origin} {addr k : Nat} (unsets : s.commander o = none) (spot : s.spotLocal o.part.toNat o.quad (rowOf addr) = .mem k)
    (clean : s.mem.poisoned k = false) : ∃ x, s.engineRead o false addr = .ok (s.mem.row k) { s with touched := x } := by
  obtain ⟨x, touched⟩ := touchLocal_eq s o addr
  refine ⟨x, ?_⟩
  simp only [State.engineRead, State.spot, Bool.false_eq_true, if_false, spot, State.acquire, unsets, touched, State.readSpot]
  exact if_neg (by simp [clean])

/-- A read that may proceed takes nothing. -/
theorem acquire_eq_ok {s v : State} {o : Origin} {va : Bool} {addr : Nat} {r : Row} (h : s.acquire o va addr = .ok r v) : v = s := by
  unfold State.acquire at h
  split at h
  · exact (RowRes.ok.inj h).2.symm
  · split at h
    · exact (RowRes.ok.inj h).2.symm
    · split at h <;> cases h

/-- What a read that succeeds leaves. -/
theorem engineRead_eq_ok {s v : State} {o : Origin} {addr : Nat} {r : Row} (h : s.engineRead o false addr = .ok r v) : ∃ x, v = { s with touched := x } := by
  obtain ⟨x, touched⟩ := touchLocal_eq s o addr
  simp only [State.engineRead, State.spot, Bool.false_eq_true, if_false, State.spotLocal] at h
  cases reach : s.reach o.part.toNat o.quad (rowOf addr) with
  | range | hold _ => simp [reach] at h
  | ok a =>
    simp only [reach] at h
    split at h
    · rename_i free
      rw [acquire_eq_ok free, touched, State.readSpot] at h
      split at h
      · cases h
      · exact ⟨x, (RowRes.ok.inj h).2.symm⟩
    · rename_i refused
      exact absurd h (refused _ _)

/-! ### The dependence test (R243, R253) -/

section Dependence
variable {s : State} {quad : Fin 32} {t : TileRec} (only : (s.quad quad.val).tiles = [t])
include only

theorem tileDepRetest_of_only (waits : t.depOk = false) : exec (.tileDepRetest quad t.id) s = .next (s.tileDep quad.val t) := by
  change Host.Outcome.next _ = _
  rw [only]
  simp [tileHeads, waits]

/-- The record passes. -/
theorem modTile_of_only : ((s.modTile quad.val t.id fun r => { r with depOk := true }).quad quad.val).tiles = [{ t with depOk := true }] := by
  rw [State.modTile, quad_modQuad_same, only]
  simp

/-- The task fails: its record leaves the queue, and the failure is counted. -/
theorem tileFail_of_only (quiet : Quiet s) (cause : Cause) (addr : Nat) : let u := s.tileFail quad.val t cause addr
    (u.quad quad.val).tiles = [] ∧ (u.quad quad.val).failed = (s.quad quad.val).failed + 1 := by
  intro u
  let added := s.doneAdd t.org (tDoneAddr t.cmd) (2 ^ 32)
  let fault : FaultRec := { cause := cause, src := 2, part := t.org.part.toNat, job := some t.org.job.toNat, unit := quad.val, addr := addr, ticket := t.org.ticket }
  have reported := sameTasks_postFault added fault
  have still : Quiet (added.postFault fault) := quiet_of_ctxs (reported.ctxs.trans (sameCopies_doneAdd quad.val s t.org _ _).ctxs) quiet
  obtain ⟨r, same⟩ := (onlyRetain_doneAdd s t.org (tDoneAddr t.cmd) (2 ^ 32)).trans (.of_quads reported.quads) quad.val
  have leaves : ∃ f : Quad → Quad, u = ((added.postFault fault).modQuad quad.val f).performed t.id ∧
      ∀ x, (f x).tiles = x.tiles.filter (fun r => decide (r.id ≠ t.id)) ∧ (f x).failed = x.failed + 1 := ⟨_, rfl, fun _ => ⟨rfl, rfl⟩⟩
  obtain ⟨f, run, fields⟩ := leaves
  rw [run, performed_of_quiet (s := (added.postFault fault).modQuad quad.val f) (quiet_of_ctxs (s := added.postFault fault) rfl still)]
  change (((added.postFault fault).modQuad quad.val f).quad quad.val).tiles = [] ∧ (((added.postFault fault).modQuad quad.val f).quad quad.val).failed = _
  rw [quad_modQuad_same, (fields _).1, (fields _).2, same, only]
  simp

end Dependence

/-- The dependence test of a record without WAITVAL, of one whose word has come, of one whose word has not, and of one whose word tells a failure. -/
theorem tileDep_results {s : State} {quad : Fin 32} {t : TileRec} (only : (s.quad quad.val).tiles = [t]) :
    let u := s.tileDep quad.val t
    (tWaitVal t.cmd = 0 → (u.quad quad.val).tiles = [{ t with depOk := true }]) ∧
    ∀ r v, tWaitVal t.cmd ≠ 0 → s.engineRead t.org false (tWaitAddr t.cmd) = .ok r v →
      let w := nbytes r.toNat 0 8
      (w < 2 ^ 32 → tWaitVal t.cmd ≤ w → (u.quad quad.val).tiles = [{ t with depOk := true }]) ∧
      (w < tWaitVal t.cmd → u = v) ∧
      (2 ^ 32 ≤ w → Quiet s → (u.quad quad.val).tiles = [] ∧ (u.quad quad.val).failed = (s.quad quad.val).failed + 1) := by
  refine ⟨fun free => ?_, ?_⟩
  · rw [State.tileDep, if_pos free]
    exact modTile_of_only only
  intro r v waits read w
  have bound : tWaitVal t.cmd < 2 ^ 16 := Nat.mod_lt _ (by decide)
  obtain ⟨x, rfl⟩ := engineRead_eq_ok read
  have run : s.tileDep quad.val t = if w / 2 ^ 32 ≠ 0 then State.tileFail { s with touched := x } quad.val t cDepFailed (tWaitAddr t.cmd)
      else if tWaitVal t.cmd ≤ w % 2 ^ 32 then State.modTile { s with touched := x } quad.val t.id fun r => { r with depOk := true } else { s with touched := x } := by
    rw [State.tileDep, if_neg waits, read]
  refine ⟨fun low reached => ?_, fun below => ?_, fun failed quiet => ?_⟩
  · rw [run, if_neg (by omega), if_pos (by omega)]
    exact modTile_of_only (s := { s with touched := x }) only
  · rw [run, if_neg (by omega), if_neg (by omega)]
  · rw [run, if_pos (by omega)]
    exact tileFail_of_only (s := { s with touched := x }) only quiet cDepFailed _

/-! ### Starting a task (R242 to R244, R254) -/

/-- The Roundabout grants the one member that waits. -/
theorem grant_of_only (r : Roundabout) (mm j : Nat) : (r.grant mm (fun _ => 1) [j]).1 = some j := by
  unfold Roundabout.grant
  split
  · rename_i turn
    simpa using turn.2
  · rfl

/-- The array that is chosen is free. -/
theorem chooseArray_free {arrays : List MatArray} {t : TileRec} {i : Nat} (chosen : chooseArray arrays t = some i) : i < 4 ∧ ((arrays.getD i .reset).task).isNone = true := by
  have free {p : Nat → Bool} (h : ((List.range 4).filter fun i => ((arrays.getD i .reset).task).isNone).find? p = some i) :
      i < 4 ∧ ((arrays.getD i .reset).task).isNone = true := by
    simpa using List.mem_filter.1 (List.mem_of_find?_eq_some h)
  have either {a : Option Nat} {b : Unit → Option Nat} (h : a.orElse b = some i) : a = some i ∨ b () = some i := by
    cases a with
    | none => exact .inr h
    | some x => exact .inl h
  rcases either chosen with h | h
  · exact (either h).elim free free
  · exact free h

theorem tileStart_of_only {s : State} {quad : Fin 32} {t : TileRec} {i : Fin 4} (only : (s.quad quad.val).tiles = [t]) (passed : t.depOk = true)
    (first : (s.quad quad.val).lastStart = none) (chosen : chooseArray (s.quad quad.val).arrays.toList t = some i.val) :
    ∃ u, exec (.tileStart quad) s = .next u ∧ (u.quad quad.val).tiles = [] ∧
      ((u.quad quad.val).arrays[i]).task = some { t with began := s.tbase.toNat, skip := (s.quad quad.val).tqskip } ∧
      (u.quad quad.val).lastStart = some s.now ∧ u.mem = s.mem := by
  have heads : tileHeads (s.quad quad.val).tiles = [t] := by rw [only]; rfl
  have free : ((s.quad quad.val).arrays.toList.all fun y => y.task.isSome) = false := by
    have idle := (chooseArray_free chosen).2
    rw [List.getD_eq_getElem _ _ (by simp)] at idle
    refine List.all_eq_false.2 ⟨(s.quad quad.val).arrays.toList[i.val]'(by simp), List.getElem_mem _, ?_⟩
    simpa using idle
  have gap (n : Nat) : s.inGap quad.val n = false := by rw [State.inGap, first]
  have tests : ((tileHeads (s.quad quad.val).tiles).filter fun t => !t.depOk).foldl (fun s t => s.tileDep quad.val t) s = s := by rw [heads]; simp [passed]
  have ready : (tileHeads (s.quad quad.val).tiles).filter (·.depOk) = [t] := by rw [heads]; simp [passed]
  have level : [t].filter (fun r => decide (r.org.prio.toNat = ([t].map fun r => r.org.prio.toNat).foldl max 0)) = [t] := by simp
  have named : [t].find? (fun r => decide (r.org.job.toNat = t.org.job.toNat)) = some t := by simp
  have run : ∃ f : Quad → Quad, exec (.tileStart quad) s = .next ((s.unthrottled quad.val).modQuad quad.val f) ∧
      ∀ x, x.tiles = [t] → (f x).tiles = [] ∧ ((f x).arrays[i]).task = some { t with began := s.tbase.toNat, skip := x.tqskip } ∧ (f x).lastStart = some s.now := by
    change ∃ f, execTileStart quad s = _ ∧ _
    unfold execTileStart
    simp only [tests, ready, free, gap, List.isEmpty_cons, Bool.or_false, Bool.false_eq_true, if_false]
    simp only [level]
    simp only [List.map_cons, List.map_nil, grant_of_only, Option.bind_some, named, chosen]
    exact ⟨_, rfl, fun x only => ⟨by simp [only], by simp, rfl⟩⟩
  obtain ⟨f, run, fields⟩ := run
  have same : (s.unthrottled quad.val).quad quad.val = { s.quad quad.val with
      throttled := none, thrcyc := (s.quad quad.val).thrcyc + (s.now - (s.quad quad.val).throttled.getD s.now) } := quad_modQuad_same _ _ _
  refine ⟨_, run, ?_⟩
  rw [quad_modQuad_same, same]
  obtain ⟨tiles, task, start⟩ := fields { s.quad quad.val with
    throttled := none, thrcyc := (s.quad quad.val).thrcyc + (s.now - (s.quad quad.val).throttled.getD s.now) } only
  exact ⟨tiles, task, start, rfl⟩

end Sys2Proof.Proofs

namespace Sys2Proof.Proofs
open Sys2Proof Sys2Proof.Machine Sys2Proof.Safety Sys2Proof.Laws

/-! ### One BF16 block past a shard (R184, R239, R245, R247) -/

/-- An element of a list that is made element by element. -/
theorem getD_map_range {α : Type} (g : Nat → α) (d : α) {n i : Nat} (inside : i < n) : ((List.range n).map g).getD i d = g i := by
  simp [List.getD, inside]

/-- An element of 128 that are packed at 16 bits each. -/
theorem packLanes_element (g : Nat → Nat) {n : Nat} (inside : n < 128) : nbytes (packLanes 16 g 0 128) (2 * n) 2 = g n % 2 ^ 16 := by
  have field := packLanes_field 16 g 128 0 n inside
  rw [Nat.zero_add] at field
  have offset : 256 ^ (2 * n) = 2 ^ (16 * n) := by rw [Nat.pow_mul, Nat.pow_mul]
  rw [← field, nbytes, offset]
  rfl

/-- The task reads and writes BF16 without scales. -/
structure Plain16 (t : TileRec) : Prop where
  fmtA : t.fmtA = 0
  fmtW : t.fmtW = 0
  fmtC : t.fmtC = 0
  kind : tf t.cmd 0 1 = 0
  flags : tf t.cmd 1 1 = 0

section Plain16
variable {t : TileRec} (plain : Plain16 t)
include plain

theorem Plain16.a : fmtOf t.fmtA = .bf16 := by rw [plain.fmtA]; rfl
theorem Plain16.w : fmtOf t.fmtW = .bf16 := by rw [plain.fmtW]; rfl
theorem Plain16.c : fmtOf t.fmtC = .bf16 := by rw [plain.fmtC]; rfl
theorem Plain16.sf : t.sf = .bf16 := by rw [TileRec.sf, plain.a, plain.w]; rfl
theorem Plain16.flag (i : Nat) : tFlag t.cmd i = false := by rw [tFlag, plain.flags, Nat.zero_testBit]
theorem Plain16.preload : tPreload t.cmd = false := by rw [tPreload, plain.kind]; rfl

theorem shardAddrs_of_plain : shardAddrs t 0 = (List.range 128).map fun i => (tf t.cmd 4 4 % 2 ^ 32 * 256 + 256 * i) % 2 ^ 40 := by
  simp only [shardAddrs, plain.w, Nat.zero_mul, Nat.add_zero]

/-- The values of a shard that has been loaded. -/
theorem loadShard_of_plain (row : Nat → Row) (tag : BitVec 32) (use : Nat) : (loadShard t ((List.range 128).map row) tag use).shard =
    (List.range 128).map fun k => (List.range 128).map fun n => nbytes (row k).toNat (2 * n) 2 := by
  refine List.map_congr_left fun k inside => List.map_congr_left fun n _ => ?_
  simp only [shardElem, plain.w, getD_map_range _ _ (List.mem_range.1 inside)]

/-- The accumulators of one row after its one block. -/
theorem streamBlock_of_plain (one : tRows t.cmd = 1) (skip : Bool) (row : Row) {buf : StatBuf} {w : Nat → Nat → Nat}
    (shard : buf.shard = (List.range 128).map fun k => (List.range 128).map fun n => w k n) :
    (streamBlock t skip buf [row] [List.replicate 128 0]).1 = [(List.range 128).map fun n => accStep false 0 ((List.range 128).map fun k =>
      (valOf .bf16 (nbytes row.toNat (2 * k) 2)).mul (valOf .bf16 (w k n)))] := by
  have slices : (List.range (tRows t.cmd)).map (fun m => (sliceBits t [row] m).map fun x => valOf (fmtOf t.fmtA) x) =
      [(List.range 128).map fun k => valOf .bf16 (nbytes row.toNat (2 * k) 2)] := by
    rw [one, plain.a]
    refine congrArg (· :: []) ?_
    simp only [sliceBits, plain.a, List.map_map]
    refine List.map_congr_left fun k _ => ?_
    change valOf .bf16 (nbytes row.toNat (0 + k * 2) 2) = _
    rw [Nat.zero_add, Nat.mul_comm]
  have columns : (List.range 128).map (fun n => buf.shard.map fun r => valOf t.sf (r.getD n 0)) =
      (List.range 128).map fun n => (List.range 128).map fun k => valOf .bf16 (w k n) := by
    rw [plain.sf, shard]
    refine List.map_congr_left fun n inside => ?_
    rw [List.map_map]
    refine List.map_congr_left fun k _ => ?_
    exact congrArg (valOf .bf16) (getD_map_range _ 0 (List.mem_range.1 inside))
  have start : List.replicate 128 0 = (List.range 128).map fun _ => 0 := by simp
  simp only [streamBlock, slices, columns, start]
  simp only [List.zip_cons_cons, List.zip_nil_left, List.map_cons, List.map_nil, List.zip_map', List.map_map, plain.a]
  rfl

/-! ### One output row (R250) -/

/-- An element of an output row. -/
theorem drainRow_element (scales : Nat) (acc : Nat → Nat) {n : Nat} (inside : n < 128) :
    nbytes (drainRow t scales ((List.range 128).map acc)).1 (2 * n) 2 = cvtFloat .bf16 .rne false (floatVal .fp32 (acc n)) % 2 ^ 16 := by
  have scaled (x n : Nat) : drainVal t scales x n = floatVal .fp32 x := by
    rw [drainVal, plain.a, plain.flag]
    rfl
  have written (x : Nat) : drainBits t (floatVal .fp32 x) x = cvtFloat .bf16 .rne false (floatVal .fp32 x) := by
    simp only [drainBits, plain.fmtC]
    rfl
  have values : ((List.range 128).map acc).zipIdx.map (fun e => (e.1, drainVal t scales e.1 e.2)) = (List.range' 0 128).map fun n => (acc n, floatVal .fp32 (acc n)) := by
    calc ((List.range 128).map acc).zipIdx.map (fun e => (e.1, drainVal t scales e.1 e.2))
      _ = (((List.range 128).map acc).zipIdx.map Prod.fst).map fun x => (x, floatVal .fp32 x) := by
        rw [List.map_map]
        exact List.map_congr_left fun e _ => congrArg (Prod.mk e.1) (scaled e.1 e.2)
      _ = _ := by rw [List.zipIdx_map_fst, List.map_map, List.range_eq_range']; rfl
  have packed := foldr_map_range' 16 (fun n => cvtFloat .bf16 .rne false (floatVal .fp32 (acc n))) 128 0
  rw [← packLanes_element (fun n => cvtFloat .bf16 .rne false (floatVal .fp32 (acc n))) inside, ← packed]
  simp only [drainRow, values, plain.c, List.foldr_map, written]
  rfl

end Plain16
end Sys2Proof.Proofs

namespace Sys2Proof.Proofs
open Sys2Proof Sys2Proof.Machine Sys2Proof.Safety Sys2Proof.Laws

/-! ### What the blocks of a task leave as it is (R245, R247) -/

/-- The second state agrees with the first on what decides whether a local access is allowed, and on the tasks that a quad has completed. -/
structure SameGround (s u : State) : Prop where
  ctxs : u.ctxs = s.ctxs
  saved : u.saved = s.saved
  stored : u.stored = s.stored
  mmio : u.mmio = s.mmio
  journals : u.journals = s.journals
  dies : u.dies = s.dies
  quads : ∀ p, (u.quad p).zeroEnd = (s.quad p).zeroEnd ∧ (u.quad p).retain = (s.quad p).retain ∧ (u.quad p).completed = (s.quad p).completed

theorem SameGround.of_quads {s u : State} (ctxs : u.ctxs = s.ctxs) (saved : u.saved = s.saved) (stored : u.stored = s.stored) (mmio : u.mmio = s.mmio)
    (journals : u.journals = s.journals) (dies : u.dies = s.dies) (quads : u.quads = s.quads) : SameGround s u :=
  ⟨ctxs, saved, stored, mmio, journals, dies, fun p => by rw [State.quad, quads]; exact ⟨rfl, rfl, rfl⟩⟩

theorem SameGround.trans {s u v : State} (h : SameGround s u) (g : SameGround u v) : SameGround s v :=
  ⟨g.ctxs.trans h.ctxs, g.saved.trans h.saved, g.stored.trans h.stored, g.mmio.trans h.mmio, g.journals.trans h.journals, g.dies.trans h.dies,
    fun p => by
      obtain ⟨zero, retain, completed⟩ := h.quads p
      obtain ⟨zero', retain', completed'⟩ := g.quads p
      exact ⟨zero'.trans zero, retain'.trans retain, completed'.trans completed⟩⟩

/-- A change of one quad that keeps its zeroing, its retention and the number of its tasks. -/
theorem sameGround_modQuad (s : State) (q : Nat) {f : Quad → Quad}
    (keeps : ∀ x, (f x).zeroEnd = x.zeroEnd ∧ (f x).retain = x.retain ∧ (f x).completed = x.completed) : SameGround s (s.modQuad q f) := by
  refine ⟨rfl, rfl, rfl, rfl, rfl, rfl, fun p => ?_⟩
  by_cases here : p = q
  · rw [here, quad_modQuad_same]
    exact keeps _
  · rw [quad_modQuad_ne s f here]
    exact ⟨rfl, rfl, rfl⟩

theorem sameGround_setArray (s : State) (q : Nat) (arr : Fin 4) (x : MatArray) : SameGround s (s.setArray q arr x) :=
  sameGround_modQuad s q fun _ => ⟨rfl, rfl, rfl⟩

theorem sameGround_storeRow (s : State) (k : Nat) (data : Row) (mask : BitVec 256) : SameGround s (s.storeRow k data mask) := by
  unfold State.storeRow
  split <;> exact .of_quads rfl rfl rfl rfl rfl rfl rfl

section SameGround
variable {s u : State} (same : SameGround s u)
include same

theorem SameGround.fld {f : MFam} (plain : f ≠ .tbase) (i hi lo : Nat) : u.fld f i hi lo = s.fld f i hi lo := fld_of_mmio same.mmio i hi lo plain

theorem SameGround.quadPart (p : Nat) : u.quadPart p = s.quadPart p := by
  rw [State.quadPart, State.quadPart, (same.quads p).1, same.fld (by decide), same.fld (by decide)]

theorem SameGround.reach (part q a : Nat) : u.reach part q a = s.reach part q a := by
  have owner (d g : Nat) : u.segOwner d g = s.segOwner d g := same.fld (by decide) _ _ _
  have die (d : Nat) : u.die d = s.die d := by rw [State.die, same.dies, State.die]
  have journal (a : Nat) : u.inJournal a = s.inJournal a := by rw [State.inJournal, same.journals, State.inJournal]
  simp only [State.reach, same.quadPart, journal, (same.quads _).1, (same.quads _).2.1, owner, die]

theorem SameGround.spotLocal (part q a : Nat) : u.spotLocal part q a = s.spotLocal part q a := by rw [State.spotLocal, same.reach, State.spotLocal]

theorem SameGround.commander (o : Origin) : u.commander o = s.commander o := by rw [State.commander, same.ctxs, same.saved, same.stored, State.commander]

theorem SameGround.inOwnSet (o : Origin) (va : Bool) (a : Nat) : u.inOwnSet o va a = s.inOwnSet o va a := by
  rw [State.inOwnSet, same.ctxs, same.saved, same.stored, State.inOwnSet]

end SameGround

/-! ### Local rows and where they lie (R263, R268) -/

/-- An address in reach keeps its place in its window. -/
theorem canonLocal_of_reach {s : State} {part q addr a : Nat} (reach : s.reach part q addr = .ok a) : canonLocal q addr = some a := by
  unfold State.reach at reach
  split at reach
  · cases reach
  · rename_i b canon
    rw [canon]
    split at reach <;> split_ifs at reach <;> cases reach <;> rfl

/-- A row in reach begins a row. -/
theorem reach_rowAligned {s : State} {part q addr a : Nat} (reach : s.reach part q addr = .ok a) (aligned : addr % 256 = 0) : a % 256 = 0 := by
  have canon := canonLocal_of_reach reach
  unfold canonLocal at canon
  simp only at canon
  split_ifs at canon <;> cases canon <;> omega

/-- The row of memory at a spot is one in reach. -/
theorem reach_of_spotLocal {s : State} {part q addr k : Nat} (spot : s.spotLocal part q addr = .mem k) : ∃ a, s.reach part q addr = .ok a ∧ k = localKey a := by
  unfold State.spotLocal at spot
  split at spot
  · rename_i a reach
    exact ⟨a, reach, (Spot.mem.inj spot).symm⟩
  · cases spot
  · cases spot

/-- Several local rows that are read. -/
theorem readRows_of_mem {o : Origin} {l keys : List Nat} : ∀ {s : State}, s.commander o = none →
    List.Forall₂ (fun a k => s.spotLocal o.part.toNat o.quad (rowOf a) = .mem k ∧ s.mem.poisoned k = false) l keys →
    ∃ x, s.readRows o l = .ok (keys.map s.mem.row) { s with touched := x } := by
  induction l generalizing keys with
  | nil =>
    intro s _ rows
    cases rows
    exact ⟨s.touched, rfl⟩
  | cons a l ih =>
    intro s unsets rows
    cases rows with
    | cons first rest =>
      obtain ⟨x, read⟩ := engineRead_of_mem unsets first.1 first.2
      obtain ⟨y, reads⟩ := ih (s := { s with touched := x }) unsets rest
      exact ⟨y, by rw [State.readRows, read]; simp only [reads, List.map_cons]⟩

end Sys2Proof.Proofs

namespace Sys2Proof.Proofs
open Sys2Proof Sys2Proof.Machine Sys2Proof.Safety Sys2Proof.Laws

/-! ### The one block of a task (R245, R247) -/

/-- The array with one of its buffers replaced. -/
def MatArray.load (x : MatArray) (b : Bool) (buf : StatBuf) : MatArray := if b then { x with buf1 := buf } else { x with buf0 := buf }
/-- One of the two buffers. -/
def MatArray.bufferOf (x : MatArray) (b : Bool) : StatBuf := if b then x.buf1 else x.buf0

theorem load_acc (x : MatArray) (b : Bool) (buf : StatBuf) : (MatArray.load x b buf).acc = x.acc := by cases b <;> rfl
theorem bufferOf_load (x : MatArray) (b : Bool) (buf : StatBuf) : MatArray.bufferOf (MatArray.load x b buf) b = buf := by cases b <;> rfl

/-- An untagged shard is always loaded, into one of the two buffers. -/
theorem needShard_of_untagged {s u : State} {t : TileRec} {kb : Nat} (untagged : tTag t.cmd kb = 0) (x : MatArray) (prev : Option Bool) {rows : List Row}
    (loads : s.fresh.2.readRows t.org (shardAddrs t kb) = .ok rows u) :
    ∃ b, s.needShard t x kb prev = .ok (MatArray.load x b (loadShard t rows 0 s.nextId), b) u := by
  have miss (b : StatBuf) : b.hit 0 t.sf = false := by simp [StatBuf.hit]
  simp only [State.needShard, untagged, miss, Bool.false_eq_true, if_false, loads]
  exact ⟨_, rfl⟩

/-- A block whose shard is loaded and whose A rows are read. -/
theorem runBlock_of_loaded {s u v : State} {t : TileRec} {q : Nat} {arr : Fin 4} {x : MatArray} {b : Bool} {rows : List Row} (streams : tPreload t.cmd = false)
    (cur : t.cur = none) (need : s.needShard t (s.quad q).arrays[arr] t.kb t.prev = .ok (x, b) u)
    (operand : (u.setArray q arr { x with task := some { t with cur := some b } }).blockOperand t t.kb = .ok rows v) :
    ∃ next : MatArray, let r := streamBlock t (tFlag t.cmd 1 && t.skip) (MatArray.bufferOf x b) rows x.acc
      s.runBlock q arr t = .ok () ((v.setArray q arr { next with acc := r.1 }).modQuad q fun y => { y with skipped := y.skipped + r.2 }) := by
  refine ⟨{ x with task := some { t with kb := t.kb + 1, prev := some b, cur := none } }, ?_⟩
  simp only [State.runBlock, cur, need, streams, Bool.false_eq_true, if_false, operand]
  rfl

/-- The task streams one BF16 row past one untagged shard. -/
structure OneBlock (t : TileRec) : Prop extends Plain16 t where
  untagged : tf t.cmd 8 4 = 0
  blocks : tBlocks t.cmd = 1
  rows : tRows t.cmd = 1
  kb : t.kb = 0
  prev : t.prev = none
  cur : t.cur = none

/-- Where the operands of the task lie: row `k` of its shard at `wk k`, its A row at `ak`. -/
structure Operands (s : State) (t : TileRec) (wk : Nat → Nat) (ak : Nat) : Prop where
  unsets : s.commander t.org = none
  shard : ∀ k < 128, s.spotLocal t.org.part.toNat t.org.quad (rowOf ((shardAddrs t 0).getD k 0)) = .mem (wk k) ∧ s.mem.poisoned (wk k) = false
  a : s.spotLocal t.org.part.toNat t.org.quad (rowOf (descAddr (BitVec.ofNat 64 (tf t.cmd 12 8)) (BitVec.ofNat 64 (tf t.cmd 20 8)) 0 0)) = .mem ak
  clean : s.mem.poisoned ak = false

/-- The accumulator of column `n` after the block. -/
def columnSum (s : State) (wk : Nat → Nat) (ak n : Nat) : Nat :=
  accStep false 0 ((List.range 128).map fun k =>
    (valOf .bf16 (nbytes (s.mem.row ak).toNat (2 * k) 2)).mul (valOf .bf16 (nbytes (s.mem.row (wk k)).toNat (2 * n) 2)))

section OneBlock
variable {s : State} {t : TileRec} {q : Nat} {arr : Fin 4} {wk : Nat → Nat} {ak : Nat} (one : OneBlock t) (lies : Operands s t wk ak)
include one lies

/-- The rows of the shard. -/
theorem readRows_shard : ∃ x, s.fresh.2.readRows t.org (shardAddrs t 0) = .ok ((List.range 128).map fun k => s.mem.row (wk k)) { s.fresh.2 with touched := x } := by
  have rows : List.Forall₂ (fun a k => s.fresh.2.spotLocal t.org.part.toNat t.org.quad (rowOf a) = .mem k ∧ s.fresh.2.mem.poisoned k = false)
      (shardAddrs t 0) ((List.range 128).map wk) := by
    rw [shardAddrs_of_plain one.toPlain16, List.forall₂_map_left_iff, List.forall₂_map_right_iff, List.forall₂_same]
    intro k inside
    have place := lies.shard k (List.mem_range.1 inside)
    rw [shardAddrs_of_plain one.toPlain16, getD_map_range _ _ (List.mem_range.1 inside)] at place
    exact place
  obtain ⟨x, reads⟩ := readRows_of_mem (s := s.fresh.2) lies.unsets rows
  exact ⟨x, by rw [reads, List.map_map]; rfl⟩

/-- The A row of the block, read in a state of the same ground. -/
theorem blockOperand_of_one {u : State} (ground : SameGround s u) (mem : u.mem = s.mem) :
    ∃ v, u.blockOperand t 0 = .ok [s.mem.row ak] v ∧ SameGround s v ∧ v.mem = s.mem := by
  have places : List.Forall₂ (fun a k => u.spotLocal t.org.part.toNat t.org.quad (rowOf a) = .mem k ∧ u.mem.poisoned k = false)
      [descAddr (BitVec.ofNat 64 (tf t.cmd 12 8)) (BitVec.ofNat 64 (tf t.cmd 20 8)) 0 0] [ak] :=
    .cons ⟨(ground.spotLocal _ _ _).trans lies.a, by rw [mem]; exact lies.clean⟩ .nil
  obtain ⟨x, reads⟩ := readRows_of_mem ((ground.commander _).trans lies.unsets) places
  refine ⟨{ u with touched := x }, ?_, ground.trans (.of_quads rfl rfl rfl rfl rfl rfl rfl), mem⟩
  simp only [State.blockOperand, one.flag, Bool.false_eq_true, if_false, one.a, one.rows]
  rw [← mem]
  exact reads

/-- The block leaves in each column the sum of its products. -/
theorem runBlock_of_one (start : ((s.quad q).arrays[arr]).acc = [List.replicate 128 0]) :
    ∃ u, s.runBlock q arr t = .ok () u ∧ SameGround s u ∧ u.mem = s.mem ∧ ((u.quad q).arrays[arr]).acc = [(List.range 128).map (columnSum s wk ak)] := by
  obtain ⟨touched, shard⟩ := readRows_shard one lies
  have untagged : tTag t.cmd 0 = 0 := by rw [tTag, one.untagged]; rfl
  obtain ⟨b, need⟩ := needShard_of_untagged untagged ((s.quad q).arrays[arr]) none shard
  rw [← one.prev, ← one.kb] at need
  let x := MatArray.load ((s.quad q).arrays[arr]) b (loadShard t ((List.range 128).map fun k => s.mem.row (wk k)) 0 s.nextId)
  let task : TileRec := { t with cur := some b }
  have ground : SameGround s (State.setArray { s.fresh.2 with touched := touched } q arr { x with task := some task }) :=
    SameGround.trans (u := { s.fresh.2 with touched := touched }) (.of_quads rfl rfl rfl rfl rfl rfl rfl) (sameGround_setArray _ _ _ _)
  obtain ⟨v, operand, still, mem⟩ := blockOperand_of_one one lies ground rfl
  rw [← one.kb] at operand
  obtain ⟨next, run⟩ := runBlock_of_loaded one.preload one.cur need operand
  have values : (MatArray.bufferOf x b).shard = (List.range 128).map fun k => (List.range 128).map fun n => nbytes (s.mem.row (wk k)).toNat (2 * n) 2 := by
    rw [bufferOf_load]
    exact loadShard_of_plain one.toPlain16 _ _ _
  have sums := streamBlock_of_plain one.toPlain16 one.rows (tFlag t.cmd 1 && t.skip) (s.mem.row ak) values
  rw [load_acc, start] at run
  refine ⟨_, run, (still.trans (sameGround_setArray _ _ _ _)).trans (sameGround_modQuad _ _ fun _ => ⟨rfl, rfl, rfl⟩), mem, ?_⟩
  rw [quad_modQuad_same, State.setArray, quad_modQuad_same]
  simp only [Fin.getElem_fin, Vector.getElem_set_self]
  exact sums

end OneBlock
end Sys2Proof.Proofs

namespace Sys2Proof.Proofs
open Sys2Proof Sys2Proof.Machine Sys2Proof.Safety Sys2Proof.Laws

/-! ### The drain of a task (R250 to R252) -/

/-- Bytes that agree are read as the same number. -/
theorem readLe_of_reads {m m' : Mem} (n : Nat) : ∀ {a : Nat}, (∀ i < n, m'.read (a + i) = m.read (a + i)) → m'.readLe a n = m.readLe a n := by
  induction n with
  | zero => exact fun _ => rfl
  | succ n ih =>
    intro a agree
    have first : m'.read a = m.read a := agree 0 (by omega)
    have rest := ih (a := a + 1) fun i inside => by
      have next := agree (i + 1) (by omega)
      rwa [Nat.add_assoc, Nat.add_comm 1 i]
    rw [Mem.readLe, Mem.readLe, first, rest]

/-- A local row that is written whole. -/
theorem storeRow_full_mem (s : State) (k : Nat) (data : Row) : (s.storeRow k data fullMask).mem = s.mem.writeRow k data fullMask := by
  rw [State.storeRow, if_neg (by decide)]
  rfl

theorem byteMask_whole : byteMask 0 256 = fullMask :=
  BitVec.eq_of_getLsbD_eq fun i inside => by
    rw [byteMask_getLsbD, fullMask, BitVec.getLsbD_allOnes]
    simp [inside]

theorem ofNat_mod_bytes {n w : Nat} (whole : w = 8 * n) (v : Nat) : BitVec.ofNat w (v % 256 ^ n) = BitVec.ofNat w v := by
  subst whole
  have bytes : 256 ^ n = 2 ^ (8 * n) := by rw [Nat.pow_mul]
  rw [bytes]
  exact BitVec.eq_of_toNat_eq (by rw [BitVec.toNat_ofNat, BitVec.toNat_ofNat, Nat.mod_mod])

/-- An engine has written the row at `k` whole, and its access is noted. -/
def rowWritten (s : State) (x : List (ArrayId × Nat)) (k v : Nat) : State := State.storeRow { s with touched := x } k (BitVec.ofNat 2048 v) fullMask

section RowWritten
variable (s : State) (x : List (ArrayId × Nat)) (k v : Nat)

theorem sameGround_rowWritten : SameGround s (rowWritten s x k v) :=
  SameGround.trans (u := { s with touched := x }) (.of_quads rfl rfl rfl rfl rfl rfl rfl) (sameGround_storeRow _ _ _ _)

theorem rowWritten_mem : (rowWritten s x k v).mem = s.mem.writeRow k (BitVec.ofNat 2048 v) fullMask := storeRow_full_mem _ _ _

end RowWritten

/-- A local row that an engine writes whole, outside the sets of its task. -/
theorem setSafeWrite_of_mem {s : State} {o : Origin} {addr k v : Nat} (aligned : addr % 256 = 0) (free : s.inOwnSet o false addr = false)
    (spot : s.spotLocal o.part.toNat o.quad addr = .mem k) :
    ∃ x, s.setSafeWrite o addr 256 v = .ok (BitVec.ofNat 2048 v) (rowWritten s x k v) := by
  obtain ⟨x, touched⟩ := touchLocal_eq s o addr
  have data : BitVec.ofNat 2048 (v % 256 ^ 256 * 256 ^ (addr % 256)) = BitVec.ofNat 2048 v := by
    rw [aligned, Nat.pow_zero, Nat.mul_one]
    exact ofNat_mod_bytes (n := 256) (w := 2048) rfl v
  refine ⟨x, ?_⟩
  rw [State.setSafeWrite, free, data, aligned, byteMask_whole]
  simp only [State.engineWrite, State.spot, Bool.false_eq_true, if_false, rowOf_of_aligned aligned, spot, touched, State.writeSpot]
  rfl

theorem nbytes_lt (x off len : Nat) : nbytes x off len < 256 ^ len := Nat.mod_lt _ (Nat.pow_pos (by decide))

/-- The writes of a task that has one BF16 row. -/
theorem drainWrites_of_plain {t : TileRec} (plain : Plain16 t) (row : Nat) : drainWrites t [row] = [(tf t.cmd 36 4 * 256, 256, nbytes row 0 256)] := by
  have bound : tf t.cmd 36 4 < 256 ^ 4 := nbytes_lt _ _ _
  have place (pitch : Nat) : ((tf t.cmd 36 4 * 256 + 0 * pitch) % 2 ^ 40 + 256 * 0) % 2 ^ 40 = tf t.cmd 36 4 * 256 := by omega
  have width : 16 * Fmt.bf16.width = 256 := rfl
  have unfolded : drainWrites t [row] = [(((tf t.cmd 36 4 * 256 + 0 * tf t.cmd 40 4) % 2 ^ 40 + 256 * 0) % 2 ^ 40, 256, nbytes row (256 * 0) 256)] := by
    simp only [drainWrites, plain.c, width]
    rfl
  rw [unfolded, place]

/-- A place that can be written is not held. -/
theorem heldWrite_of_mem {s : State} {o : Origin} {addr k : Nat} (spot : s.spotLocal o.part.toNat o.quad (rowOf addr) = .mem k) : s.heldWrite o addr = none := by
  rw [State.heldWrite, spot]

theorem tDoneAddr_aligned (c : BitVec 512) : tDoneAddr c % 256 = 0 := Nat.mul_mod_left _ _

/-- A task of one BF16 row writes its row whole, and then ends. -/
theorem drainTask_of_plain {s : State} {t : TileRec} {q : Nat} {arr : Fin 4} {sums : List Nat} {ck d : Nat} (plain : Plain16 t)
    (acc : ((s.quad q).arrays[arr]).acc = [sums]) (free : ∀ a, s.inOwnSet t.org false a = false)
    (out : s.spotLocal t.org.part.toNat t.org.quad (tf t.cmd 36 4 * 256) = .mem ck)
    (done : s.reach t.org.part.toNat t.org.quad (tDoneAddr t.cmd) = .ok d) :
    ∃ x, s.drainTask q arr t = .ok () ((rowWritten s x ck (nbytes (drainRow t (pack []) sums).1 0 256)).tileEnd q arr t) := by
  have outAligned : tf t.cmd 36 4 * 256 % 256 = 0 := Nat.mul_mod_left _ _
  obtain ⟨x, writes⟩ := setSafeWrite_of_mem (v := nbytes (drainRow t (pack []) sums).1 0 256) outAligned (free _) out
  have outFree := heldWrite_of_mem (addr := tf t.cmd 36 4 * 256) (by rw [rowOf_of_aligned outAligned]; exact out)
  have doneFree : s.heldWrite t.org (tDoneAddr t.cmd) = none :=
    heldWrite_of_mem (k := localKey d) (by rw [rowOf_of_aligned (tDoneAddr_aligned _), State.spotLocal, done])
  have counts : (rowWritten s x ck (nbytes (drainRow t (pack []) sums).1 0 256)).canAdd t.org (tDoneAddr t.cmd) = true := by
    rw [State.canAdd, rowOf_of_aligned (tDoneAddr_aligned _), (sameGround_rowWritten _ _ _ _).reach, done]
    rfl
  refine ⟨x, ?_⟩
  simp only [State.drainTask, plain.flag, Bool.false_eq_true, if_false, State.readRows, acc, List.map_cons, List.map_nil, drainWrites_of_plain plain,
    List.cons_append, List.nil_append, List.append_nil, List.findSome?_cons, List.findSome?_nil, outFree, doneFree, State.drainAll, writes, counts, Bool.not_true,
    Bool.false_and]

theorem sameTasks_addWord (s : State) (a v : Nat) : SameTasks s (s.addWord a v) := sameTasks_storeRow _ _ _ _

/-- A time stamp is only an event to come. -/
theorem stamp_keepsMem (s : State) (part cls job ident tenq tstart : Nat) (src : BitVec 16) :
    let u := s.stamp part cls job ident tenq tstart src
    u.ctxs = s.ctxs ∧ u.quads = s.quads ∧ u.mem = s.mem := by
  simp only [State.stamp]
  split <;> exact ⟨rfl, rfl, rfl⟩

/-- The end of a task: its array is free, the task is counted, and its done counter is one more. -/
theorem tileEnd_results {s : State} {t : TileRec} {q : Nat} (arr : Fin 4) {d : Nat} (quiet : Quiet s)
    (done : s.reach t.org.part.toNat t.org.quad (tDoneAddr t.cmd) = .ok d) (clean : s.mem.poisoned (localKey d) = false) : let u := s.tileEnd q arr t
    ((u.quad q).arrays[arr]).task = none ∧ (u.quad q).completed = (s.quad q).completed + 1 ∧
      u.mem.readLe (localKey d) 8 = (s.mem.readLe (localKey d) 8 + 1) % 2 ^ 64 ∧ ∀ z, ¬ (localKey d ≤ z ∧ z < localKey d + 8) → u.mem.read z = s.mem.read z := by
  intro u
  let added := (s.touch d).addWord (localKey d) 1
  have adds : s.doneAdd t.org (tDoneAddr t.cmd) 1 = added := by
    rw [State.doneAdd, rowOf_of_aligned (tDoneAddr_aligned _), done]
  have leaves : ∃ f : Quad → Quad, u = ((added.modQuad q f).stamp t.org.part.toNat 2 t.org.job.toNat (tf t.cmd 60 4) t.enq t.began (srcTile q)).performed t.id ∧
      ∀ x, ((f x).arrays[arr]).task = none ∧ (f x).completed = x.completed + 1 := by
    refine ⟨_, by rw [← adds]; rfl, fun x => ⟨?_, rfl⟩⟩
    simp
  obtain ⟨f, run, fields⟩ := leaves
  obtain ⟨ctxs, quads, mem⟩ := stamp_keepsMem (added.modQuad q f) t.org.part.toNat 2 t.org.job.toNat (tf t.cmd 60 4) t.enq t.began (srcTile q)
  have stored := sameTasks_addWord (s.touch d) (localKey d) 1
  have fits : localKey d % 256 + 8 ≤ 256 := by
    have := reach_rowAligned done (tDoneAddr_aligned _)
    unfold localKey
    omega
  obtain ⟨word, others⟩ := storeBytes_results (s := s.touch d) ((s.mem.readLe (localKey d) 8 + 1) % 2 ^ 64) fits clean
  have quad : u.quad q = f (s.quad q) := by
    have kept : added.quad q = s.quad q := by rw [State.quad, stored.quads]; rfl
    rw [← kept, ← quad_modQuad_same added q f, run, performed_of_quiet (quiet_of_ctxs (ctxs.trans stored.ctxs) quiet), State.quad, State.quad, ← quads]
    rfl
  have memory : u.mem = added.mem := by
    rw [run, performed_of_quiet (quiet_of_ctxs (ctxs.trans stored.ctxs) quiet)]
    exact mem
  rw [quad, memory]
  refine ⟨(fields _).1, (fields _).2, ?_, others⟩
  exact word.trans (Nat.mod_mod _ _)

end Sys2Proof.Proofs

namespace Sys2Proof.Proofs
open Sys2Proof Sys2Proof.Machine Sys2Proof.Safety Sys2Proof.Laws

/-! ### A task from its start to its end (R245 to R252) -/

/-- Bytes of a number's low bytes. -/
theorem nbytes_low (x : Nat) {off len m : Nat} (inside : off + len ≤ m) : nbytes (nbytes x 0 m) off len = nbytes x off len := by
  have cut : 256 ^ m = 256 ^ off * 256 ^ (m - off) := by rw [← Nat.pow_add, Nat.add_sub_cancel' (by omega)]
  simp only [nbytes, Nat.pow_zero, Nat.div_one]
  rw [cut, Nat.mod_mul_right_div_self, Nat.mod_mod_of_dvd _ (Nat.pow_dvd_pow 256 (by omega))]

theorem toNat_ofNat_of_bytes {n w v : Nat} (whole : w = 8 * n) (small : v < 256 ^ n) : (BitVec.ofNat w v).toNat = v := by
  subst whole
  rw [BitVec.toNat_ofNat]
  exact Nat.mod_eq_of_lt (lt_of_lt_of_eq small (Nat.pow_mul 2 8 n).symm)

/-- Bytes of a row are those of the number that is written into it. -/
theorem nbytes_row (x : Nat) {off len : Nat} (inside : off + len ≤ 256) : nbytes (BitVec.ofNat 2048 (nbytes x 0 256)).toNat off len = nbytes x off len := by
  rw [toNat_ofNat_of_bytes (n := 256) rfl (nbytes_lt x 0 256), nbytes_low x inside]

/-- The rows at the output and at the done counter are two. -/
theorem rowWritten_results (s : State) (x : List (ArrayId × Nat)) {ck k v : Nat} (out : ck % 256 = 0) (aligned : k % 256 = 0) (apart : k ≠ ck)
    (clean : s.mem.poisoned k = false) : let u := rowWritten s x ck v
    u.mem.row ck = BitVec.ofNat 2048 v ∧ u.mem.readLe k 8 = s.mem.readLe k 8 ∧ u.mem.poisoned k = false := by
  intro u
  have mem := rowWritten_mem s x ck v
  refine ⟨by rw [mem, row_writeRow_full], ?_, ?_⟩
  · refine readLe_of_reads 8 fun i inside => ?_
    rw [mem, read_writeRow_full, if_neg (by omega)]
  · rw [Mem.poisoned] at clean
    rw [mem, Mem.poisoned, poison_writeRow_full, clean, Bool.false_and]

/-- A task of one BF16 block and row runs to its end in one step. -/
theorem tileDone_of_one {s : State} {quad : Fin 32} {arr : Fin 4} {t : TileRec} {wk : Nat → Nat} {ak ck d : Nat}
    (task : ((s.quad quad.val).arrays[arr]).task = some t) (start : ((s.quad quad.val).arrays[arr]).acc = [List.replicate 128 0]) (quiet : Quiet s)
    (free : ∀ a, s.inOwnSet t.org false a = false) (one : OneBlock t) (lies : Operands s t wk ak)
    (out : s.spotLocal t.org.part.toNat t.org.quad (tf t.cmd 36 4 * 256) = .mem ck)
    (done : s.reach t.org.part.toNat t.org.quad (tDoneAddr t.cmd) = .ok d) (apart : localKey d ≠ ck) (clean : s.mem.poisoned (localKey d) = false) :
    ∃ u, exec (.tileDone quad arr) s = .next u ∧ ((u.quad quad.val).arrays[arr]).task = none ∧ (u.quad quad.val).completed = (s.quad quad.val).completed + 1 ∧
      u.mem.readLe (localKey d) 8 = (s.mem.readLe (localKey d) 8 + 1) % 2 ^ 64 ∧
      ∀ n < 128, nbytes (u.mem.row ck).toNat (2 * n) 2 = cvtFloat .bf16 .rne false (floatVal .fp32 (columnSum s wk ak n)) % 2 ^ 16 := by
  obtain ⟨v, block, ground, mem, acc⟩ := runBlock_of_one one lies start
  obtain ⟨x, drain⟩ := drainTask_of_plain one.toPlain16 acc (fun a => (ground.inOwnSet _ _ _).trans (free a)) ((ground.spotLocal _ _ _).trans out)
    ((ground.reach _ _ _).trans done)
  let row := nbytes (drainRow t (pack []) ((List.range 128).map (columnSum s wk ak))).1 0 256
  let w := rowWritten v x ck row
  have still : SameGround s w := ground.trans (sameGround_rowWritten v x ck row)
  have run : exec (.tileDone quad arr) s = .next (w.tileEnd quad.val arr t) := by
    change Host.Outcome.next _ = _
    simp only [task, State.runTile, one.preload, Bool.false_eq_true, if_false, one.blocks, one.kb, State.runBlocks, block, drain]
    rfl
  obtain ⟨a, reach, rfl⟩ := reach_of_spotLocal out
  have outAligned : localKey a % 256 = 0 := by
    have := reach_rowAligned reach (Nat.mul_mod_left _ _)
    unfold localKey
    omega
  have doneAligned : localKey d % 256 = 0 := by
    have := reach_rowAligned done (tDoneAddr_aligned _)
    unfold localKey
    omega
  obtain ⟨written, counter, healthy⟩ := rowWritten_results v x (v := row) outAligned doneAligned apart (by rw [mem]; exact clean)
  obtain ⟨idle, counted, word, others⟩ := tileEnd_results (q := quad.val) arr (quiet_of_ctxs still.ctxs quiet) ((still.reach _ _ _).trans done) healthy
  refine ⟨_, run, idle, counted.trans (congrArg (· + 1) (still.quads _).2.2), ?_, fun n inside => ?_⟩
  · rw [word, counter, mem]
  · have kept : (w.tileEnd quad.val arr t).mem.row (localKey a) = w.mem.row (localKey a) :=
      congrArg (BitVec.ofNat 2048) (readLe_of_reads 256 fun i inside => others _ (by omega))
    rw [kept, written, nbytes_row _ (by omega)]
    exact drainRow_element one.toPlain16 _ _ inside

/-- Settles O43: each record meets the rule of its state, the task of one block is followed through its block, its row and its end, and the counters of a quad serve
one request at a time. -/
theorem tileResults : Obligations.TileResults := by
  unfold Obligations.TileResults
  intro s quad t q part passes
  refine ⟨fun only waits => ?dependence, fun i only passed first chosen => tileStart_of_only only passed first chosen, ?run,
    fun v rest first => routingCounterOp_of_add first, fun id rest first => routingCounterOp_of_snapshot first⟩
  case dependence =>
    have run := tileDepRetest_of_only only waits
    obtain ⟨unasked, asked⟩ := tileDep_results only
    refine ⟨fun free => ⟨_, run, unasked free⟩, fun r v waits read => ?_⟩
    obtain ⟨reached, below, failed⟩ := asked r v waits read
    exact ⟨fun low up => ⟨_, run, reached low up⟩, fun less => by rw [run, below less], fun high quiet => ⟨_, run, failed high quiet⟩⟩
  case run =>
    intro arr wk ak ck d task kb prev cur start unsets free home quiet fmtA fmtW fmtC kind flags untagged blocks rows shard a aClean out _ done apart clean
    have one : OneBlock t := ⟨⟨fmtA, fmtW, fmtC, kind, flags⟩, untagged, blocks, rows, kb, prev, cur⟩
    have lies : Operands s t wk ak := ⟨unsets, by rw [home]; exact shard, by rw [home]; exact a, aClean⟩
    exact tileDone_of_one task start quiet free one lies (by rw [home]; exact out) (by rw [home]; exact done) apart clean

end Sys2Proof.Proofs
